-- ==== Sys2Proof/Word.lean ====
section
/-! DEFINITION. The word types of the part and their plainest arithmetic: bytes, registers, pairs, quads and the 96-bit instruction word (R14, R50). -/

namespace Sys2Proof

/-- One byte. -/
abbrev Byte := BitVec 8

/-- One register: 32 bits (R13, R15). -/
abbrev Word := BitVec 32

/-- An even/odd register pair: 64 bits (R14). -/
abbrev DWord := BitVec 64

/-- Four consecutive registers: 128 bits (R14). -/
abbrev QWord := BitVec 128

/-- An instruction word: 96 bits (R50). -/
abbrev IWord := BitVec 96

/-- A lane mask of a warp: bit l is lane l (R10). -/
abbrev Mask := BitVec 64

end Sys2Proof
end

