-- ==== Sys2Proof/Syntax.lean ====
section
/-! DEFINITION. The syntax: one constructor of Instr for each row of spec/opcode_table.json.
Rows that have an instruction word carry its header, its modifiers and its operand fields (R50 to R63, R65 to R71).
The other rows are events of the part (what an engine, a scheduler, a keeper, the host or the wire does); they carry what identifies the event. -/

namespace Sys2Proof

/-! ## Operand fields -/

/-- The kind of an operand field (R53). -/
inductive Kind
  | zr | vec | uni | prd | cnv | acc | spc | imm
  deriving DecidableEq, Repr

/-- An operand field: kind in bits 15:13 and value in bits 12:0 (R53). -/
structure Operand where
  kind : Kind
  val : BitVec 13
  deriving DecidableEq, Repr

/-- The fields every word but a paired one carries beside OP, SUB and operands (R50). -/
structure Hdr where
  gn : Bool
  gp : BitVec 3
  fec : Bool
  feb : Bool
  fea : Bool
  heat : BitVec 4
  div : Bool
  wbl : Bool
  wbe : Bool
  emk : Bool
  deriving DecidableEq, Repr

/-- Operand fields of format OPS (R52). -/
structure Ops where
  d : Operand
  a : Operand
  b : Operand
  c : Operand
  deriving DecidableEq, Repr

/-- Operand fields of format I16: an imm16 in field C (R52). -/
structure OpsH where
  d : Operand
  a : Operand
  b : Operand
  imm : BitVec 16
  deriving DecidableEq, Repr

/-- Operand fields of format I32: an imm32 in fields B and C (R52). -/
structure OpsI where
  d : Operand
  a : Operand
  imm : BitVec 32
  deriving DecidableEq, Repr

/-! ## Modifiers -/

/-- Scheme T (R65). -/
inductive ITy | i32 | n32 | i64 | n64
  deriving DecidableEq, Repr

/-- Scheme W (R65). -/
inductive Wd | w32 | w64
  deriving DecidableEq, Repr

/-- The conditions of scheme C (R65). -/
inductive Cond | eq | ne | lt | le | gt | ge
  deriving DecidableEq, Repr

/-- The conditions of scheme FC (R65). -/
inductive FCond | eq | ne | lt | le | gt | ge | equ | neu | ltu | leu | gtu | geu | num | nan
  deriving DecidableEq, Repr

/-- The rounding modes of R80. `rs` exists only for CVT and QUANT. -/
inductive Rnd | rn | rz | rp | rm | rs
  deriving DecidableEq, Repr

/-- The rounding modes of scheme RN (R65). -/
inductive RndA | rn | rz | rp | rm
  deriving DecidableEq, Repr

/-- Scheme M (R65): access sizes. -/
inductive Size | b8 | b16 | b32 | b64 | b128
  deriving DecidableEq, Repr

/-- The operations of PSET (R104). -/
inductive PsetOp | and | or | xor
  deriving DecidableEq, Repr

/-- LEA's shift, SUB bits 2:0 (R66). -/
inductive LeaShift | s0 | s1 | s2 | s3 | s4
  deriving DecidableEq, Repr

/-- CVT format codes (R67). -/
inductive CvtFmt | i32 | n32 | i64 | n64 | f64 | f32 | f16 | bf16 | b8 | e4m3
  deriving DecidableEq, Repr

/-- The lane functions of XLANE (R134). -/
inductive LaneFn | pick | rot | lo | hi | xor | rev
  deriving DecidableEq, Repr

/-- The combinations of POLL (R135). -/
inductive PollOp | and | or | eq | mask | cnt
  deriving DecidableEq, Repr

/-- The operations of REDUX and SCAN (R67). -/
inductive RedOp | add | min | max | and | or | xor
  deriving DecidableEq, Repr

/-- The types of REDUX and SCAN (R67). -/
inductive RedTy | i32 | n32 | f32
  deriving DecidableEq, Repr

/-- The operations of ATOM, ATOMS and RED (R69). -/
inductive AtomOp | add | min | max | and | or | xor | exch | cas
  deriving DecidableEq, Repr

/-- The types of ATOM, ATOMS and RED (R69). -/
inductive AtomTy | i32 | n32 | i64 | n64 | f32 | f64 | f16x2 | bf16x2
  deriving DecidableEq, Repr

/-- The ordering of ATOM (R69). -/
inductive AtomOrd | none | acq | rel | acqRel
  deriving DecidableEq, Repr

/-- The dimension modifier of TEX and TLD (R70). -/
inductive TexDim | d1 | d2 | d3 | cube
  deriving DecidableEq, Repr

/-- The half-operations of the pairable list (R71), in the order of their codes. -/
inductive PairOp
  | iadd | isub | imul | imin | imax | iminN | imaxN | and | or | xor
  | not | shl | shr | sar | mov | popc | fadd | fmul | fmin | fmax
  | hadd2 | hmul2 | hadd2bf | hmul2bf | iabs | ineg | clz | brev
  deriving DecidableEq, Repr

/-- The header of a paired word (R61). -/
structure PairHdr where
  feyb : Bool
  feya : Bool
  fexb : Bool
  fexa : Bool
  gn : Bool
  gp : BitVec 3
  heat : BitVec 4
  div : Bool
  wby : Bool
  wbx : Bool
  deriving DecidableEq, Repr

/-- One half of a paired word (R61). -/
structure Half where
  op : PairOp
  d : BitVec 8
  a : BitVec 8
  b : BitVec 8
  deriving DecidableEq, Repr

/-! ## What events carry -/

/-- An outstanding operation: a warp and the number of the operation in the warp's in-flight record (R282). -/
structure OpRef where
  warp : Nat
  op : Nat
  deriving DecidableEq, Repr

/-- A Tolver frame after its header fields have been read (R324); the body is its bytes in order. -/
structure TolverFrame where
  gid : BitVec 16
  edge : BitVec 8
  frame : Word
  seq : BitVec 24
  prevcnt : BitVec 24
  grp : BitVec 16
  g : BitVec 5
  gidx : BitVec 4
  count : BitVec 5
  recsz : BitVec 8
  aux : DWord
  body : List Byte
  deriving DecidableEq, Repr

/-- Why a received Ethernet frame is dropped (R336, R411). -/
inductive DropCause
  | badFcs (port : Bool)
  | addressing (port : Bool)
  /-- The Tolver CRC or header check failed at the graph of context slot `slot`. -/
  | tolver (slot : Nat) (type : Nat) (edge : Nat)
  deriving DecidableEq, Repr

/-- Where an upset strikes (R362). Registers and accumulators name their warp or block. -/
inductive UpsetSite
  | vreg (warp lane index : Nat)
  | ureg (warp index : Nat)
  | accumulator (gang rank part tile elem : Nat)
  | residency (slot index byte : Nat)
  | scale (gang rank part byte : Nat)
  | scratch (gang rank addr : Nat)
  | l1 (core key : Nat)
  | constCache (core key : Nat)
  | l2 (key : Nat)
  /-- The shadow line that a gang's version holds of a location's line, and a byte of a replica. -/
  | l2shadow (gang key : Nat)
  | l2replica (slice line launch byte : Nat)
  | l2tag (slice : Nat) (bothCopies : Bool)
  | dram (pa : Nat)
  /-- An arithmetic result in a warp's vector register, uniform register or predicate, flipped (R370). -/
  | arith (warp lane index : Nat) (flip : Word)
  | arithU (warp index : Nat) (flip : Word)
  | arithP (warp lane pred : Nat)
  /-- The warp and its shadow come to the same wrong value, in a vector register, a uniform register or a predicate. -/
  | both (warp lane index : Nat) (flip : Word)
  | bothU (warp index : Nat) (flip : Word)
  | bothP (warp lane pred : Nat)
  /-- A result of the matrix array. -/
  | array (gang rank part tile elem : Nat) (flip : Word)
  /-- A byte that an engine's arithmetic has put to global memory or to scratchpad. -/
  | engine (key : Nat) (flip : Byte)
  | engineScratch (gang rank addr : Nat) (flip : Byte)
  /-- A byte of DRAM: the AES datapath, or ciphertext whose error the controller misses. -/
  | cipher (pa : Nat) (flip : Byte)
  deriving DecidableEq, Repr

/-- An error record's identification (R372, R373). -/
structure ErrWhere where
  addr : DWord
  pa : Bool
  source : BitVec 8
  ltype : BitVec 4
  loc : BitVec 28
  deriving DecidableEq, Repr

/-- What a link failure comes to (R362). -/
inductive LinkOutcome
  | retried
  | retrained
  | disabled
  deriving DecidableEq, Repr

/-- Where a read of the host lands: at an offset of the management space, through BAR0, or of the windows (R399, R407). -/
inductive HostPlace
  | register (off : Nat)
  | window (off : Nat)
  deriving DecidableEq, Repr

/-- What a peer asks: bytes, to have bytes written, or an atomic with its operand (R248, R409). -/
inductive PeerOp
  | read (len : Nat)
  | write (bytes : List Byte)
  | atomic (o : AtomOp) (t : AtomTy) (data : QWord)
  deriving DecidableEq, Repr

/-- A peer's request over the fabric, and the Wodin port it came in by (R408, R409). -/
structure PeerReq where
  source : Nat
  port : Nat
  exportNo : Nat
  offset : Nat
  world : BitVec 4
  op : PeerOp
  deriving DecidableEq, Repr

/-- What a patrol read finds in a line (R365). -/
inductive PatrolFinding
  | clean
  | corrected
  | uncorrectable (granule : Nat)
  deriving DecidableEq, Repr

/-! ## Instructions and events -/

/-- One constructor for each row of spec/opcode_table.json. -/
inductive Instr
  -- integer, address and control (06)
  | nop (h : Hdr) (f : Ops)
  | iadd (h : Hdr) (t : ITy) (f : Ops)
  | iaddImm (h : Hdr) (t : ITy) (f : OpsI)
  | isub (h : Hdr) (t : ITy) (f : Ops)
  | isubImm (h : Hdr) (t : ITy) (f : OpsI)
  | imul (h : Hdr) (t : ITy) (f : Ops)
  | imulImm (h : Hdr) (t : ITy) (f : OpsI)
  | imulhi (h : Hdr) (t : ITy) (f : Ops)
  | imad (h : Hdr) (t : ITy) (f : Ops)
  | imadw (h : Hdr) (sgn : Bool) (f : Ops)
  | idiv (h : Hdr) (t : ITy) (f : Ops)
  | irem (h : Hdr) (t : ITy) (f : Ops)
  | imin (h : Hdr) (t : ITy) (f : Ops)
  | iminImm (h : Hdr) (t : ITy) (f : OpsI)
  | imax (h : Hdr) (t : ITy) (f : Ops)
  | imaxImm (h : Hdr) (t : ITy) (f : OpsI)
  | iabs (h : Hdr) (w : Wd) (f : Ops)
  | ineg (h : Hdr) (w : Wd) (f : Ops)
  | shl (h : Hdr) (w : Wd) (f : Ops)
  | shr (h : Hdr) (w : Wd) (f : Ops)
  | sar (h : Hdr) (w : Wd) (f : Ops)
  | rot (h : Hdr) (w : Wd) (f : Ops)
  | and (h : Hdr) (w : Wd) (f : Ops)
  | andImm (h : Hdr) (w : Wd) (f : OpsI)
  | or (h : Hdr) (w : Wd) (f : Ops)
  | orImm (h : Hdr) (w : Wd) (f : OpsI)
  | xor (h : Hdr) (w : Wd) (f : Ops)
  | xorImm (h : Hdr) (w : Wd) (f : OpsI)
  | not (h : Hdr) (w : Wd) (f : Ops)
  | bool3 (h : Hdr) (w : Wd) (f : OpsH)
  | bfe (h : Hdr) (t : ITy) (f : Ops)
  | bfi (h : Hdr) (w : Wd) (f : Ops)
  | popc (h : Hdr) (w : Wd) (f : Ops)
  | clz (h : Hdr) (w : Wd) (f : Ops)
  | brev (h : Hdr) (w : Wd) (f : Ops)
  | isetp (h : Hdr) (k : Cond) (t : ITy) (f : Ops)
  | icmp (h : Hdr) (k : Cond) (t : ITy) (f : Ops)
  | sel (h : Hdr) (w : Wd) (f : Ops)
  | pset (h : Hdr) (o : PsetOp) (f : Ops)
  | mov (h : Hdr) (w : Wd) (f : Ops)
  | movi (h : Hdr) (f : OpsI)
  | lea (h : Hdr) (k : LeaShift) (f : Ops)
  | bra (h : Hdr) (f : OpsI)
  | brx (h : Hdr) (f : Ops)
  | call (h : Hdr) (f : OpsI)
  | callReg (h : Hdr) (f : Ops)
  | ret (h : Hdr) (f : Ops)
  | exit (h : Hdr) (f : Ops)
  | loop (h : Hdr) (f : OpsH)
  | yield (h : Hdr) (f : Ops)
  | nap (h : Hdr) (f : OpsH)
  | napExpiry (warp lane : Nat)
  | decl (h : Hdr) (f : Ops)
  | cvsign (h : Hdr) (f : Ops)
  | role (h : Hdr) (f : OpsH)
  | rdsr (h : Hdr) (f : Ops)
  | wrsr (h : Hdr) (f : Ops)
  -- floating point, conversion, special functions and lanes (07)
  | fadd (h : Hdr) (r : RndA) (f : Ops)
  | fmul (h : Hdr) (r : RndA) (f : Ops)
  | ffma (h : Hdr) (r : RndA) (f : Ops)
  | fmin (h : Hdr) (f : Ops)
  | fmax (h : Hdr) (f : Ops)
  | fsetp (h : Hdr) (dbl : Bool) (k : FCond) (f : Ops)
  | fcmp (h : Hdr) (dbl : Bool) (k : FCond) (f : Ops)
  | frnd (h : Hdr) (r : RndA) (f : Ops)
  | fclass (h : Hdr) (dbl : Bool) (f : Ops)
  | dadd (h : Hdr) (r : RndA) (f : Ops)
  | dmul (h : Hdr) (r : RndA) (f : Ops)
  | dfma (h : Hdr) (r : RndA) (f : Ops)
  | hadd2 (h : Hdr) (bf : Bool) (r : RndA) (f : Ops)
  | hmul2 (h : Hdr) (bf : Bool) (r : RndA) (f : Ops)
  | hfma2 (h : Hdr) (bf : Bool) (r : RndA) (f : Ops)
  | cvt (h : Hdr) (src dst : CvtFmt) (f : OpsH)
  | quant (h : Hdr) (r : Rnd) (f : Ops)
  | rcp (h : Hdr) (f : Ops)
  | rsq (h : Hdr) (f : Ops)
  | sqrt (h : Hdr) (f : Ops)
  | exp2 (h : Hdr) (f : Ops)
  | log2 (h : Hdr) (f : Ops)
  | sin (h : Hdr) (f : Ops)
  | cos (h : Hdr) (f : Ops)
  | tanh (h : Hdr) (f : Ops)
  | xlane (h : Hdr) (k : LaneFn) (f : Ops)
  | poll (h : Hdr) (k : PollOp) (f : Ops)
  | redux (h : Hdr) (o : RedOp) (t : RedTy) (f : Ops)
  | scan (h : Hdr) (o : RedOp) (t : RedTy) (excl : Bool) (f : Ops)
  | matchLanes (h : Hdr) (w : Wd) (f : Ops)
  | elect (h : Hdr) (f : Ops)
  | pairedWord (h : PairHdr) (x y : Half)
  -- memory, atomics, synchronisation (08)
  | ld (h : Hdr) (z : Size) (near sx : Bool) (f : Ops)
  | ldAcq (h : Hdr) (z : Size) (sx : Bool) (f : Ops)
  | loadDataArrival (o : OpRef)
  | st (h : Hdr) (z : Size) (f : Ops)
  | stRel (h : Hdr) (z : Size) (f : Ops)
  | storeRegister (o : OpRef)
  | lds (h : Hdr) (z : Size) (sx : Bool) (f : Ops)
  | sts (h : Hdr) (z : Size) (f : Ops)
  | ldc (h : Hdr) (z : Size) (f : Ops)
  | ldb (h : Hdr) (z : Size) (f : Ops)
  | pref (h : Hdr) (f : Ops)
  | atom (h : Hdr) (o : AtomOp) (t : AtomTy) (k : AtomOrd) (f : Ops)
  | atomicPerform (o : OpRef)
  | atoms (h : Hdr) (o : AtomOp) (t : AtomTy) (f : Ops)
  | red (h : Hdr) (o : AtomOp) (t : AtomTy) (rel : Bool) (f : Ops)
  | atomAgg (h : Hdr) (t : ITy) (f : Ops)
  | fenceAcq (h : Hdr) (f : Ops)
  | fenceRel (h : Hdr) (f : Ops)
  | fenceAcqRel (h : Hdr) (f : Ops)
  | sealVersion (h : Hdr) (f : Ops)
  | bar (h : Hdr) (f : Ops)
  | gbar (h : Hdr) (f : Ops)
  | baroInit (h : Hdr) (f : Ops)
  | baroArrive (h : Hdr) (f : Ops)
  | baroWait (h : Hdr) (f : Ops)
  | baroQuery (h : Hdr) (f : Ops)
  | waitc (h : Hdr) (f : Ops)
  -- matrix and residencies (09)
  | fmtw (h : Hdr) (f : Ops)
  | mma (h : Hdr) (f : Ops)
  | mmaS (h : Hdr) (f : Ops)
  | mmaOperationComplete (o : OpRef)
  | accz (h : Hdr) (f : Ops)
  | accld (h : Hdr) (f : Ops)
  | accst (h : Hdr) (f : Ops)
  | accrd (h : Hdr) (f : Ops)
  | accwr (h : Hdr) (f : Ops)
  | scld (h : Hdr) (f : Ops)
  | resAlloc (h : Hdr) (reload : Bool) (f : Ops)
  | resLoad (h : Hdr) (f : Ops)
  | resLoadComplete (o : OpRef)
  | resPin (h : Hdr) (f : Ops)
  | resUnpin (h : Hdr) (f : Ops)
  | resRevoke (h : Hdr) (f : Ops)
  | resQuery (h : Hdr) (f : Ops)
  | residencyRehome (slot index part : Nat)
  | leave (h : Hdr) (f : Ops)
  | leaveGrant (cluster : Nat)
  -- engines, stage graphs, graphics (10)
  | tcopyG2s (h : Hdr) (f : Ops)
  | tcopyS2g (h : Hdr) (f : Ops)
  | tcopyG2g (h : Hdr) (f : Ops)
  | copyEngineRun (o : OpRef)
  | copyComplete (o : OpRef)
  | collAllreduce (h : Hdr) (dom : Bool) (f : Ops)
  | collAllgather (h : Hdr) (dom : Bool) (f : Ops)
  | collRedscat (h : Hdr) (dom : Bool) (f : Ops)
  | collBcast (h : Hdr) (dom : Bool) (f : Ops)
  | collInstanceComplete (k : Nat)
  | wdq (h : Hdr) (f : Ops)
  | workDistributorAnswer (o : OpRef)
  | churnStart (h : Hdr) (f : Ops)
  | churnStop (h : Hdr) (f : Ops)
  | qpush (h : Hdr) (f : Ops)
  | qpop (h : Hdr) (f : Ops)
  | qpeek (h : Hdr) (f : Ops)
  | emit (h : Hdr) (f : Ops)
  | edgeRecordAccept (o : OpRef)
  | frame (h : Hdr) (f : Ops)
  | cut (h : Hdr) (f : Ops)
  | rechdr (h : Hdr) (f : Ops)
  | trisub (h : Hdr) (f : Ops)
  | triangleRasterise (k : Nat)
  | attr (h : Hdr) (f : Ops)
  | tex (h : Hdr) (d : TexDim) (lod : Bool) (f : Ops)
  | texv (h : Hdr) (tri : Bool) (f : Ops)
  | tld (h : Hdr) (d : TexDim) (f : Ops)
  | mbin (h : Hdr) (f : Ops)
  -- system, trap and security (11)
  | trap (h : Hdr) (f : OpsH)
  | tret (h : Hdr) (f : Ops)
  | bkpt (h : Hdr) (f : Ops)
  | beacon (h : Hdr) (f : Ops)
  | beaconMiss (gang rank : Nat)
  | wassign (h : Hdr) (f : Ops)
  | scrub (h : Hdr) (f : Ops)
  | hashInit (h : Hdr) (f : Ops)
  | hashUpd (h : Hdr) (f : Ops)
  | hashFin (h : Hdr) (f : Ops)
  | mext (h : Hdr) (f : Ops)
  | ecsig (h : Hdr) (f : Ops)
  | keyrel (h : Hdr) (f : Ops)
  | certw (h : Hdr) (f : Ops)
  | halt (h : Hdr) (f : Ops)
  -- scheduling, faults, pre-emption, keepers (14, 15)
  | progressLimitDemotion (warp : Nat)
  | qbell (slot queue : Nat)
  | launchComplete (launch : Nat)
  | preemptEvict (gang : Nat)
  | fatalTrap (k : Nat)
  | uncorrectableConsumed (gang : Nat) (w : ErrWhere)
  | recoverableFault (k : Nat)
  | fqreplyRetry (batch : Word)
  | fqreplyRefuse (batch : Word)
  | scoutProbe (o : OpRef) (va : DWord)
  | warpKeeperExpiry (warp : Nat)
  | commandKeeperExpiry (slot queue : Nat)
  -- stage graphs and remote edges (19)
  | recordWaveLaunch (slot stage edge : Nat)
  | lastWaveLaunch (slot stage : Nat)
  | gfopenWrite (slot : Nat) (v : Word)
  | tolverDataFrame (slot : Nat) (x : TolverFrame)
  | tolverParityFrame (slot : Nat) (x : TolverFrame)
  | tolverKeysFrame (slot : Nat) (x : TolverFrame)
  | tolverBuoyFrame (slot : Nat) (x : TolverFrame)
  | tolverHandoverFrame (slot : Nat) (x : TolverFrame)
  | tolverAckFrame (slot : Nat) (x : TolverFrame)
  | tolverProposeFrame (slot : Nat) (x : TolverFrame)
  | patienceExpiry (slot edge : Nat)
  | predictorWaveRetire (slot edge : Nat)
  | handoverSend (slot : Nat)
  | subchannelResend (slot : Nat)
  -- attestation (23, 24)
  | doeRequest (bytes : List Byte)
  -- host, fabric, reliability, management (22, 25)
  | hostWindowWrite (off : Nat) (stream : Nat) (bytes : List Byte)
  | hostWindowRead (place : HostPlace) (stream : Nat) (len : Nat)
  | cxlSnoop (pa : Nat) (bytes : List Byte)
  | peerRequest (r : PeerReq)
  | linkError (port lane : Nat) (outcome : LinkOutcome)
  | voteDisagree (unit inst : Nat) (copies : BitVec 3)
  | resyncComplete (unit inst copy : Nat)
  | patrolRead (line : Nat) (found : PatrolFinding)
  | powerMeasurement (pwr tcool tjct : Word)
  | unitGate (unit : Word)
  | wrekey (v : Word)
  | hqclr (v : Word)
  | dbgctlResume (v : Word)
  | retadd (v : Word)
  | retdel (v : Word)
  | ctxidRegister (slot : Nat) (v : Word)
  | ctxidDestroy (slot : Nat)
  | qdescWrite (slot queue : Nat) (v : DWord)
  | graphbaseWrite (slot : Nat) (v : DWord)
  | rastbaseWrite (slot : Nat) (v : DWord)
  | evictWrite (v : Word)
  | intstClear (v : Word)
  | registerWrite (host : Bool) (off size : Nat) (v : DWord)
  | discard (warp lane : Nat)
  | wordNotAnInstruction (reason field : Nat)
  | trapAtFetch (misaligned : Bool)
  | resultWritten (o : OpRef)
  | accumulatorLoadStoreComplete (o : OpRef)
  | fqheadWrite (v : Word)
  | erheadWrite (v : Word)
  | receivedFrameDropped (why : DropCause)
  | softError (site : UpsetSite) (correctable : Bool)
  -- events that carry nothing
  | gangDispatch
  | gangRestore
  | doeResponseCollect
  | getVersion
  | getCapabilities
  | negotiateAlgorithms
  | getDigests
  | getCertificate
  | challenge
  | getMeasurements
  | spdmUnsupportedRequest
  | partReset
  | shootdownMode0
  | shootdownMode1
  deriving DecidableEq, Repr

end Sys2Proof
end

