-- ==== Sys2Proof/Machine/State.lean ====
section
/-! DEFINITION. The state of the part as plain data: threads, warps, blocks, gangs, launches, contexts, memories, engines, management registers and the state after reset.
Sparse stores are lists of (key, value) pairs with keys strictly rising and no entry equal to the default value. -/

namespace Sys2Proof.Machine

/-- A sparse store: keys strictly rising, no entry equal to the store's default. -/
abbrev Store (α : Type) := List (Nat × α)

/-- Bytes by address, the default byte being 0 (log 1). -/
abbrev Memory := Store Byte

/-- One 32-bit register with its full/empty bit and its hold (R21, R59). -/
structure Reg where
  val : Word := 0
  full : Bool := true
  held : Bool := false
  /-- The register holds an uncorrectable error (R362, R364). -/
  bad : Bool := false
  /-- The error has been recorded (R372). -/
  noted : Bool := false
  deriving DecidableEq, Repr

/-! ## Threads and warps -/

/-- The five outstanding-operation counters of a warp (R24). -/
inductive Ctr | mem | copy | mat | coll | edge
  deriving DecidableEq, Repr

/-- Why a BLOCKED thread waits (R9). A `before` bounds the operations waited for: those numbered below it. -/
inductive Wait
  /-- Steps 5 and 6 of R55 do not pass: the bundle waits, named by its lowest lane (R261). -/
  | issue (lead : Nat)
  /-- A fetch, or a read made at issue, has met a page in migration, by location / 65,536: it is tried again when a shootdown covers the page (R304). -/
  | migrating (page : Nat)
  /-- NAP: the count is in the thread (R110). -/
  | nap
  /-- EXIT: every older operation of the warp (R111). -/
  | exit (before : Nat)
  /-- BAR, once the thread's older stores have registered (R159). -/
  | bar (before : Nat)
  /-- GBAR, likewise (R159). -/
  | gbar (before : Nat)
  /-- WAITC: the counter and the threshold read at issue (R162). -/
  | count (c : Ctr) (n : Nat)
  /-- BARO.WAIT: the object's block and offset, and the phase awaited, read at issue (R161). -/
  | baro (rank off phase : Nat)
  /-- SEAL: the bundle by its lowest lane, the PC of the instruction, and the resume PC and registers read at issue (R158). -/
  | sealing (lead before : Nat) (pc rpc : Word) (vals : List Word)
  /-- ROLE: an arrival with its n (R115). -/
  | role (n : Nat)
  /-- A signer of a collective tied to a convergence register (R168). -/
  | signer (cv : Nat)
  /-- BKPT: held by the debugger (R219). -/
  | debug
  /-- A fatal trap has been reported; the command processor has not taken it yet (R270). -/
  | trapped
  deriving DecidableEq, Repr

/-- The four states of a thread (R9). -/
inductive Status
  | running
  | blocked (w : Wait)
  | exited
  | discarded
  deriving DecidableEq, Repr

/-- A thread: its PC, mode, predicates and per-thread special registers (R9, R17, R27, R216, R264, R283). -/
structure Thread where
  status : Status := .running
  pc : Word := 0
  handler : Bool := false
  preds : BitVec 7 := 0
  cvtflags : BitVec 5 := 0
  seed : BitVec 16 := 1
  trapcause : Word := 0
  trappc : DWord := 0
  trapaddr : DWord := 0
  trapinfo : Word := 0
  nap : Nat := 0
  age : Nat := 0
  tagSeq : BitVec 20 := 0
  deriving DecidableEq, Repr

/-- What a shadow has computed for a thread beside the registers (R29, R82, R367); `astray` once its PC came out otherwise than the warp's. -/
structure Calc where
  preds : BitVec 7
  seed : BitVec 16
  cvtflags : BitVec 5
  astray : Bool := false
  deriving DecidableEq, Repr

/-- One lane's slot of an operand block (R282): address, data or operand, tag (its low 20 bits are the sequence number), and the answer once the holder has given one. -/
structure Slot where
  lane : Nat
  addr : Nat
  data : QWord := 0
  tag : DWord := 0
  /-- The lane has been performed ahead of the rest of its bundle (R146): an atomic's old value, a load's bytes (which stand in `data`), or the bytes an LDB has gathered so far. -/
  answer : Option DWord := none
  /-- Halves of a packed atomic performed: 1 the low one, 2 the high one (R153). -/
  half : Nat := 0
  deriving DecidableEq, Repr

/-- The state of an in-flight record entry (R282). -/
inductive Sent | notSent | sent | faulted
  deriving DecidableEq, Repr

/-- Where a copy or collective stands (R190 to R194, R310): the next element, the running seed and flags, what checks found, the bytes written, and the granules its scout has probed, the host has refused, or it waits for. -/
structure CopyRun where
  elem : Nat := 0
  seed : BitVec 16 := 0
  flags : BitVec 5 := 0
  crcBad : Nat := 0
  badBlk : Option Nat := none
  badBricks : List Nat := []
  seen : List Nat := []
  out : Memory := []
  scouted : List Nat := []
  refused : List Nat := []
  waiting : Option Nat := none
  deriving DecidableEq, Repr

/-- An entry of a warp's in-flight record (R282): what was issued, with the operands read at issue. -/
structure Op where
  id : Nat
  ins : Instr
  pc : Word
  lanes : Mask
  ctr : Option Ctr
  state : Sent := .notSent
  decl : Bool := false
  /-- Bytes counted down on the barrier object, or rows of an MMA completed (R282). -/
  prog : Nat := 0
  /-- Records of an EMIT that have been performed (R202). -/
  recs : Nat := 0
  /-- The entry's operand block in the warp's save area, from the eviction to the restore; none: 0xFFFF (R282). -/
  opblk : Option Nat := none
  slots : List Slot := []
  /-- Operand registers read at issue, in operand order (TCOPY, COLL, MMA and the like). -/
  regs : List Word := []
  /-- Contents the operation holds: an MMA's weights, an ACCST's rows, the shape record of a copy or collective. -/
  data : List Byte := []
  run : CopyRun := {}
  /-- Order of queueing on an engine shared by several warps. -/
  stamp : Nat := 0
  /-- Reissued from the record after a restore or a reply: its traps are asynchronous (R270). -/
  replay : Bool := false
  /-- The operand block of the shadow's copy, where it differs (R367). -/
  shadow : List Slot := []
  /-- Pages in migration that its accesses have met, by location / 65,536: they wait until a shootdown covers them (R304). -/
  mig : List Nat := []
  /-- The operation's request has been performed at its destination. -/
  performed : Bool := false
  /-- The operation has completed; it leaves the record when every older one of its class has. -/
  finished : Bool := false
  deriving DecidableEq, Repr

/-- What a trap reports (R56, R214, R216). -/
structure TrapInfo where
  cause : Word
  addr : DWord := 0
  info : Word := 0
  deriving DecidableEq, Repr

/-- The bundle an instruction is issued for: a warp, its lanes in the run, and their PC (R9, R261). -/
structure Bundle where
  warp : Nat
  lanes : Mask
  pc : Word
  deriving DecidableEq, Repr

/-- A warp: its place, its allotment, its threads, registers and in-flight record (R9 to R15, R21, R24, R263, R264). -/
structure Warp where
  uid : Nat
  gang : Nat
  rank : Nat
  num : Nat
  part : Nat
  slot : Nat
  width : Nat
  nv : Nat
  nu : Nat
  threads : List Thread
  vregs : Store Reg := []
  uregs : Store Reg := []
  ops : List Op := []
  nextOp : Nat := 0
  served : Bool := false
  progress : Nat := 0
  /-- The warp's next issue is a demotion issue (R110, R264). -/
  demote : Bool := false
  /-- Heavy-issue units granted by LEAVE and not yet consumed (R183). -/
  pool : Nat := 0
  keeper : Nat := 0
  /-- An asynchronous trap to be reported at the next issue attempt, with the lane and PC it names (R270). -/
  asyncTrap : Option (Nat × Word × TrapInfo) := none
  /-- Stopped by a fatal trap, a debugger or HALT: the warp issues nothing. -/
  stopped : Bool := false
  /-- The pending fault batch the warp waits for (R276). -/
  batch : Option Word := none
  /-- What the warp's shadow holds where it differs: vector and uniform registers, and what it has computed by lane (R367, R368). -/
  shadowV : Store (Option Word) := []
  shadowU : Store (Option Word) := []
  shadowT : Store (Option Calc) := []
  /-- The shadow's own bit of R263. -/
  shadowServed : Bool := false
  /-- The issues of the warp that its shadow has not copied yet, oldest first, each as the number of the next operation then (R366, R368). -/
  lag : List Nat := []
  /-- The values from outside the warp that each of those issues brings, which its shadow takes from the value queue (R367, R368). -/
  queued : List Nat := []
  /-- A bundle whose instruction acts beyond the warp at its issue, held until the shadow has issued its copy (R368). -/
  copy : Option (Bundle × Instr) := none
  retired : Bool := false
  deriving DecidableEq, Repr

/-! ## Blocks and gangs -/

/-- A signer's record for a tied collective: the instruction (its OP, SUB and D count), the eight operand words and the PC (R168). -/
structure Signer where
  lane : Nat
  ins : Instr
  words : List Word
  pc : Word
  deriving DecidableEq, Repr

/-- A convergence register (R19) with the signers of its tied collective (R168). `idle` is the state IDLE. -/
structure CvReg where
  idle : Bool := true
  declared : Mask := 0
  signed : Mask := 0
  warp : Nat := 0
  gen : BitVec 16 := 0
  signers : List Signer := []
  /-- The lowest-numbered active lane of the latest bundle that issued the tied instruction (R168). -/
  last : Nat := 0
  /-- Steps 1 to 6 of R169 have passed and leave has been requested (step 7). -/
  leave : Bool := false
  /-- Units that the warp's pool has paid for it while the rest is awaited (R267). -/
  paid : Nat := 0
  /-- What steps 5 and 6 found: the scale lines, then the weights. -/
  contents : List Byte := []
  /-- A step of R169 has trapped and no tied instruction has issued since (R216). -/
  tried : Bool := false
  deriving DecidableEq, Repr

/-- A queue of a core: entries of sixteen words, oldest first (R20). -/
structure Queue where
  entries : List (List Word) := []
  closed : Bool := false
  deriving DecidableEq, Repr

/-- A churn program: one 16-lane thread group (R199). The program runs while `running`. -/
structure Churn where
  running : Bool
  pc : List Word
  done : List Bool
  vregs : Store Word := []
  uregs : Store Word := []
  preds : Store (BitVec 7) := []
  seeds : List (BitVec 16) := []
  warp : Nat
  lane : Nat
  deriving DecidableEq, Repr

/-- A tag-window entry of a holder (R283, R284). -/
structure TagEntry where
  world : Nat
  asid : Nat
  wave : Bool
  launch : Word
  gangUid : Nat
  tag : DWord
  ins : Instr
  addr : Nat
  result : DWord
  /-- A result longer than 64 bits: a distributor's answer, a collective's destination. -/
  data : List Byte := []
  pinned : Bool := true
  retained : Bool := false
  /-- Halves of a packed atomic that have been performed under the tag; 3 for every other operation (R153, R164). -/
  halves : Nat := 3
  deriving DecidableEq, Repr

/-- The work-unit state of a beacon (R220). -/
structure Beacon where
  interval : Nat
  left : Nat
  misses : Nat := 0
  deriving DecidableEq, Repr

/-- A block: its core, scratchpad, convergence registers, accumulators, scale stores, queues and role state (R12, R18 to R20, R26, R115, R165). -/
structure Block where
  rank : Nat
  core : Nat
  banks : List Nat := []
  prio : Nat
  role : Nat := 0
  scratch : Memory := []
  cv : List CvReg
  /-- FP32 elements, keyed ((partition × 4 + tile) × 1,024 + element). -/
  acc : Store Word := []
  /-- Accumulator tiles marked empty, keyed partition × 4 + tile. -/
  accEmpty : Store Bool := []
  /-- Scale-store bytes, keyed partition × 4,096 + byte. -/
  scale : Memory := []
  /-- Uncorrectable errors: accumulator elements, scale-store and scratchpad granules of 8 bytes (R362). -/
  badAcc : Store Bool := []
  badScale : Store Bool := []
  badScratch : Store Bool := []
  /-- Those of them whose error has been recorded, keyed alike (R364, R372). -/
  notedAcc : Store Bool := []
  notedScale : Store Bool := []
  notedScratch : Store Bool := []
  tags : List TagEntry := []
  /-- Barrier objects that an operation has named, by scratchpad address (R160; log 62). -/
  objects : Store Bool := []
  /-- The block owns its core's churn slot and q0 to q3. -/
  ownsChurn : Bool := false
  churn : Option Churn := none
  queues : List Queue := []
  beacon : Option Beacon := none
  escalations : Nat := 0
  /-- Headers of the records delivered to the wave, by scratchpad address (R207). -/
  records : Store QWord := []
  retired : Bool := false
  deriving DecidableEq, Repr

/-- The retained launch record of a gang (R268), without the gang and launch numbers, which the gang holds. -/
structure Retained where
  vals : List Word := []
  rpc : Word
  sealNo : Word := 0
  relaunch : Nat := 0
  since : Nat := 0
  contain : Bool
  deriving DecidableEq, Repr

/-- Where a gang stands between placement and its end (R259, R269, R280). -/
inductive GangState | placed | evicted | relaunching | retired | killed
  deriving DecidableEq, Repr

/-- A gang: its launch, number, cluster, blocks, open version and retained record. -/
structure Gang where
  uid : Nat
  launch : Nat
  num : Nat
  cluster : Nat
  state : GangState := .placed
  /-- Order of placement, and of eviction while evicted (R278, R281). -/
  order : Nat := 0
  blocks : List Block
  /-- Bytes the gang has written in its open version, by location (R147). -/
  version : Store (Option Byte) := []
  /-- 8-byte granules that one store of the open version has covered, by location / 8: the version holds them without poison (R363). -/
  cleared : Store Bool := []
  /-- 8-byte granules in which the version's shadow line holds an uncorrectable error (R362). -/
  badVersion : Store Bool := []
  retained : Retained
  /-- Bytes its saved state takes in the save area while evicted (R279). -/
  saved : Nat := 0
  deriving DecidableEq, Repr

/-! ## Launches -/

/-- A role of a kernel (R114, R255). -/
structure Role where
  entry : Word := 0
  prio : Nat := 0
  nu : Nat := 0
  nv : Nat := 0
  valid : Bool := false
  deriving DecidableEq, Repr

/-- The launch record (R254), field by field. -/
structure LaunchRec where
  kimg : DWord := 0
  params : DWord := 0
  dep1 : Word := 0
  dep0 : Word := 0
  gy : BitVec 16 := 0
  gx : BitVec 16 := 0
  hpc : Word := 0
  hmask : Word := 0
  entry : Word := 0
  scratch : Word := 0
  gangs : Word := 1
  seed : BitVec 16 := 0
  nparam : BitVec 9 := 0
  world : BitVec 4 := 0
  prio : BitVec 2 := 0
  debug : Bool := false
  shadow : Bool := false
  contain : Bool := false
  pack : Bool := false
  root : Bool := false
  accs : BitVec 3 := 0
  uregs : BitVec 10 := 8
  vregs : BitVec 9 := 8
  width : BitVec 2 := 0
  nwarps : BitVec 6 := 1
  gangsize : BitVec 6 := 1
  deriving DecidableEq, Repr

/-- What a stage wave carries beside its launch record (R320, R321, R335). -/
structure Wave where
  stage : Nat
  frame : Word
  edge : Option Nat
  pred : Bool
  last : Bool
  /-- The records each gang receives, in sequence order. -/
  batches : List (List (List Byte)) := []
  /-- The sequence number of each gang's first record. -/
  firsts : List Nat := []
  /-- Records of each gang that occupy the local ring (R322). -/
  rings : List Nat := []
  deriving DecidableEq, Repr

/-- How a launch stands (R257, R258). -/
inductive LaunchState
  | waiting
  | running
  | ended (status : Nat)
  deriving DecidableEq, Repr

/-- A launch taken by the command processor, or a stage wave (R253, R417). `rom` marks the boot ROM's root launch (R412). -/
structure Launch where
  uid : Nat
  id : Word
  slot : Nat
  queue : Option Nat
  wave : Option Wave := none
  rom : Bool := false
  asid : BitVec 16
  record : LaunchRec
  len : Nat
  roles : List Role
  params : List Word := []
  state : LaunchState := .waiting
  placed : Nat := 0
  relaunches : Nat := 0
  /-- Distributor entry: answers handed out, and its tag window (R265). -/
  answers : Nat := 0
  tags : List TagEntry := []
  deriving DecidableEq, Repr

/-! ## Memory -/

/-- An L2 line present at its home slice: its physical line, whether it must be written back (R298), and the rights of the leaf entry through which it was brought in (R144, R304, R305). -/
structure Line where
  pa : Nat
  dirty : Bool := false
  writable : Bool := true
  fetchable : Bool := true
  /-- The watch bit, which travels with the line into and out of L2 (R300). -/
  watch : Bool := false
  deriving DecidableEq, Repr

/-- A word of a core's L1 (R296); a word without entry is invalid. `gang` is the gang whose uncommitted bytes the word holds, which serves no other gang (R147); `behind` are the gangs that have committed a later write of the word, which it serves no longer (R235, R237). -/
structure L1Word where
  data : Word
  owned : Bool
  gang : Option Nat := none
  behind : List Nat := []
  deriving DecidableEq, Repr

/-- The caches of one core: L1 words and present lines, constant cache bytes and instruction cache bytes (R296, R297, R415). -/
structure CoreCache where
  l1 : Store (Option L1Word) := []
  lines : Store Bool := []
  /-- The SRAM bank in which a present line stands (R294). -/
  bank : Store Nat := []
  consts : Store (Option Byte) := []
  code : Store (Option Byte) := []
  /-- The launch whose block was placed last on the core (R297, R415). -/
  launch : Nat := 0
  deriving DecidableEq, Repr

/-- A replica of a line in an L2 slice (R148, R298). -/
structure Replica where
  slice : Nat
  line : Nat
  launch : Nat
  bytes : List Byte
  /-- Granules of 8 bytes that hold an uncorrectable error (R362). -/
  bad : List Nat := []
  deriving DecidableEq, Repr

/-- A write guard on a word at its home slice (R285). -/
structure Guard where
  word : Nat
  op : OpRef
  deriving DecidableEq, Repr

/-- The memories outside the cores. Locations of the virtual spaces are keyed by world, ASID and address. -/
structure Mem where
  /-- Both DRAM tiers by physical address, deciphered (R301, R381). -/
  dram : Memory := []
  /-- The key generation under which a DRAM line was last written, by physical line: world × 2^32 + rekeys (R381, R382). -/
  lineKey : Store Nat := []
  /-- Lines present in L2, by location line. -/
  lines : Store Line := []
  /-- Committed bytes of the lines present in L2, by location. -/
  l2 : Memory := []
  replicas : List Replica := []
  /-- Translations held by the TLBs: physical address of the leaf entry, and the entry, by controller, level and page (R301). -/
  tlb : Store (Nat × DWord) := []
  /-- Watch bits of DRAM lines, by physical line (R300). -/
  watch : Store Bool := []
  /-- Poisoned 8-byte granules: of lines in L2 by location, of DRAM by physical address (R363). -/
  poisonL2 : Store Bool := []
  poisonDram : Store Bool := []
  /-- Where a poisoned granule of L2 was filled from: 1 + its physical address, 0 for an error of L2 itself (R373). -/
  cameL2 : Store Nat := []
  /-- Poisoned granules whose error has been recorded, keyed as the two above: an event is recorded once (R372). -/
  notedL2 : Store Bool := []
  noted : Store Bool := []
  guards : List Guard := []
  /-- Tag windows of the slices (R284), with their slice. -/
  tags : List (Nat × TagEntry) := []
  /-- Host memory as the window of R405 reaches it. -/
  host : Memory := []
  deriving DecidableEq, Repr

/-! ## Residencies -/

/-- An entry of a context's residency table (R166, R178 to R180). -/
structure Residency where
  live : Bool := false
  gen : BitVec 16 := 0
  tiles : Nat := 0
  reload : Bool := false
  loaded : Bool := false
  stale : Bool := false
  pinned : Bool := false
  sealed : Bool := false
  /-- Key slot of the last load (R385). -/
  key : Nat := 0
  keyGen : Nat := 0
  base : DWord := 0
  /-- First seal entry of a load through a key slot (R384, R385). -/
  table : DWord := 0
  /-- A RES.LOAD has issued: the source range is watched (R178). -/
  watched : Bool := false
  /-- A write has reached the source range since the latest RES.LOAD issued (R180). -/
  hit : Bool := false
  /-- Home partition as cluster × 1,024 + core × 32 + partition; `none` when absent. -/
  home : Option Nat := none
  data : Memory := []
  /-- Granules of 8 bytes that hold an uncorrectable error (R362). -/
  bad : Store Bool := []
  deriving DecidableEq, Repr

/-! ## Stage graphs -/

/-- A stage entry (R317). -/
structure Stage where
  valid : Bool := false
  launch : DWord := 0
  state : DWord := 0
  ssize : Word := 0
  batch : BitVec 8 := 0
  maxg : BitVec 8 := 0
  inoff : Word := 0
  /-- Last frame closed by FRAME (R205). -/
  closed : Word := 0
  /-- The frame whose last wave has retired and committed (R320). -/
  lastDone : Word := 0
  /-- A last wave of frame lastDone + 1 has been launched. -/
  lastOut : Bool := false
  waves : Nat := 0
  deriving DecidableEq, Repr

/-- A Tolver group of a frame at the receiver: data bodies by index, parity and keys (R328). -/
structure RxGroup where
  frame : Word
  grp : BitVec 16
  members : Nat := 0
  bodies : Store (List Byte) := []
  parity : Option (List Byte × DWord) := none
  keys : List Word := []
  firstSeq : Option Nat := none
  deriving DecidableEq, Repr

/-- A record of an edge. `ring`: it occupies the local ring (R322). -/
structure Rec where
  frame : Word
  seq : Nat
  bytes : List Byte
  ring : Bool := false
  deriving DecidableEq, Repr

/-- A record that fixed hardware appends to an edge once the ring has room: its frame, key and payload, and the warp, lane and PC it came from (R347, R352). -/
structure Pend where
  frame : Word
  key : Word
  payload : List Byte
  warp : Nat := 0
  lane : Nat := 0
  pc : Word := 0
  deriving DecidableEq, Repr

/-- The wait for a predictor wave (R335): the missing seqs with their resolved keys, the wave's launch, and the payloads it has performed. -/
structure Predicting where
  missing : List (Nat × Option Word)
  launch : Option Nat := none
  got : List (List Byte) := []
  deriving DecidableEq, Repr

/-- The receiver of a remote edge (R328 to R336). -/
structure Receiver where
  /-- The open frame f. -/
  openFrame : Word := 1
  next : Nat := 0
  /-- Records held, by frame and seq. -/
  held : List Rec := []
  groups : List RxGroup := []
  /-- N(f) of the frames not yet closed, where known (R328). -/
  counts : Store (Option Nat) := []
  /-- Keys released in the last closed frame, by seq (R332). -/
  lastKeys : Store (Option Word) := []
  thisKeys : Store (Option Word) := []
  /-- Patience has started; ticks counted since (R331). -/
  patience : Option Nat := none
  /-- Key-cache slots: newest and next newest record (R334). -/
  cache : Store (List Rec) := []
  predicting : Option Predicting := none
  /-- The highest frame of a Tolver frame that has arrived (R331). -/
  latest : Word := 0
  deriving DecidableEq, Repr

/-- An edge entry (R318) with the state of the edge at both ends. -/
structure Edge where
  valid : Bool := false
  ring : DWord := 0
  kc : DWord := 0
  stat : DWord := 0
  cap : BitVec 16 := 0
  source : Nat := 0
  target : Nat := 0
  recsz : BitVec 8 := 2
  pred : Nat := 0
  policy : BitVec 4 := 0
  g : BitVec 5 := 1
  pack : BitVec 5 := 1
  patience : BitVec 20 := 0
  kclog : BitVec 4 := 4
  /-- Next sequence number by frame (R204). -/
  seqs : Store Nat := []
  /-- The last frame whose buoy has been released (R330). -/
  lastBuoy : Word := 0
  /-- Records the local ring has taken in all (R322). -/
  ringAt : Nat := 0
  /-- Records performed for a frame above the last closed one are held until the buoys before them (R204). -/
  heldOut : List Rec := []
  /-- Buoys that wait, with the records of their frames, until the receiver has closed the remote frames before (R342). -/
  heldBuoys : List Word := []
  /-- Skim and bin records that wait for room, oldest first (R347, R352). -/
  pending : List Pend := []
  /-- Released records no wave has received, and buoys released, oldest first. -/
  ready : List Rec := []
  buoys : List Word := []
  /-- Records that occupy the local ring: given to a wave and not yet retired (R322). -/
  occupied : Nat := 0
  /-- Records of the sender's frame not yet packed, and its group counter (R327). -/
  packing : List Rec := []
  bodies : List (Nat × List (List Byte)) := []
  txGroup : Nat := 0
  rx : Receiver := {}
  tags : List TagEntry := []
  /-- Counters of the edge status block (R336). -/
  lastf : Word := 0
  dropped : Word := 0
  tail : Word := 0
  crcbad : Word := 0
  late : Word := 0
  omitted : Word := 0
  subst : Word := 0
  recov : Word := 0
  deriving DecidableEq, Repr

/-- The states of a moving cut at the far and near part (R340, R341). -/
inductive CutPhase
  | steady
  /-- far: WAIT(G). -/
  | waiting (g : Word)
  /-- far or near: SENT(G). -/
  | sent (g : Word)
  /-- far: HELD(G). -/
  | held (g : Word)
  /-- near: PREP(G). -/
  | prep (g : Word)
  /-- near: READY(G). -/
  | ready (g : Word)
  deriving DecidableEq, Repr

/-- A hand-over being received: its frame and proposal number, its segment count, the segment that came last, and the segments by index (R339). -/
structure Heard where
  frame : Word
  num : Word
  count : Nat
  last : Nat
  segments : Store (List Byte) := []
  deriving DecidableEq, Repr

/-- The cut of a graph and the proposal that moves it (R337 to R342). -/
structure Cut where
  mask : DWord := 0
  /-- Earlier cuts, newest first, each with the first frame it serves (R342). -/
  past : List (Word × DWord) := []
  since : Word := 1
  /-- The number the status block shows: far, the latest proposal; near, the latest propose or hand-over received (R338). -/
  prop : Word := 0
  /-- The number of the proposal under way. -/
  num : Word := 0
  outcome : BitVec 8 := 0
  slides : BitVec 8 := 0
  phase : CutPhase := .steady
  newMask : DWord := 0
  first : Word := 0
  downstream : Bool := false
  /-- The hand-overs of which segments have been received and which have not been taken up, oldest first (R339). -/
  heard : List Heard := []
  /-- A hand-over held whole, with its frame (R340, R341). -/
  holding : Option (Word × List Byte) := none
  /-- The hand-overs completed, by frame and proposal number, with the aux of each one's complete ack (R339). -/
  answered : List (Word × Word × DWord) := []
  /-- Unacked segments by index, or the propose under 0xFFFF, with the bytes of each (R339), and the ticks since they were sent. -/
  unacked : Store (List Byte) := []
  resend : Nat := 0
  /-- State regions as the last waves left them, keyed frame × 32 + stage (R339). -/
  snapshots : Store (List Byte) := []
  deriving DecidableEq, Repr

/-- A registered stage graph (R316). -/
structure Graph where
  peer : QWord := 0
  lport : BitVec 16 := 0
  pport : BitVec 16 := 0
  gid : BitVec 16 := 0
  role : BitVec 2 := 2
  port : Bool := false
  nedges : Nat := 0
  nstages : Nat := 0
  hopat : BitVec 20 := 1
  stat : DWord := 0
  stages : List Stage := []
  edges : List Edge := []
  cut : Cut := {}
  gfopen : Word := 0
  crcbad : Word := 0
  bad : BitVec 8 := 0
  deriving DecidableEq, Repr

/-- A registered raster record (R344). -/
structure Raster where
  vis : DWord := 0
  width : BitVec 16 := 0
  height : BitVec 16 := 0
  skim : Nat := 0
  bin : Nat := 0
  deriving DecidableEq, Repr

/-- A cream triangle in the fixed rasteriser: what issued it, and its pixel events not yet performed, as virtual addresses and words (R348, R349). -/
structure Tri where
  slot : Nat
  stage : Nat
  frame : Word
  gang : Nat := 0
  warp : Nat
  lane : Nat
  pc : Word
  todo : List (Nat × DWord)
  /-- Names the triangle in the faults it meets. -/
  stamp : Nat := 0
  /-- A page in migration that its next event has met, by location / 65,536 (R304). -/
  mig : Option Nat := none
  deriving DecidableEq, Repr

/-- A bin of material and tile, with its pixel mask (R351). -/
structure Bin where
  frame : Word
  material : Nat
  tile : Nat
  mask : BitVec 1024
  deriving DecidableEq, Repr

/-! ## Contexts -/

/-- A launch queue of a context (R252, R253). -/
structure LaunchQueue where
  qdesc : DWord := 0
  stopped : Bool := false
  /-- Records taken so far; the next sequence number is one more (R253). -/
  taken : Nat := 0
  /-- Cycles the command keeper has counted (R290). -/
  keeper : Nat := 0
  deriving DecidableEq, Repr

/-- A context slot (R402) with its residency table, graph, raster record and bins. -/
structure Ctx where
  valid : Bool := false
  asid : BitVec 16 := 0
  world : BitVec 4 := 0
  ptroot : DWord := 0
  savebase : DWord := 0
  savesize : Word := 0
  graphbase : DWord := 0
  rastbase : DWord := 0
  resq : Word := 0
  ctxst : Word := 0
  killed : Bool := false
  queues : Store LaunchQueue := []
  residencies : Store Residency := []
  resTags : List TagEntry := []
  graph : Option Graph := none
  raster : Option Raster := none
  bins : List Bin := []
  cutTags : List TagEntry := []
  deriving DecidableEq, Repr

/-! ## Units, clusters and management registers -/

/-- A partition or SRAM bank (R222, R377, R379), keyed by its unit word (R221). -/
structure Unit where
  world : BitVec 4 := 0
  /-- Powered up since its last scrub: the scrub-complete bit is 0 (R222). -/
  unscrubbed : Bool := false
  gated : Bool := false
  /-- The cluster's clock when the unit was last in use (R379). -/
  idle : Nat := 0
  deriving DecidableEq, Repr

/-- A request for heavy-issue units (R267). -/
inductive LeaveFor
  | pool (warp units : Nat)
  | collective (warp cv units : Nat)
  | engine (o : OpRef) (units : Nat)
  deriving DecidableEq, Repr

/-- A cluster: its registers, its clock and its power steward (R4, R264, R266, R287, R344). -/
structure Cluster where
  clock : DWord := 0
  sepa : Word := 256
  plim : BitVec 16 := 4096
  hbudget : Word := 1024
  wklim : Word := 0x01000000
  cklim : Word := 4
  qklim : Word := 0x40000000
  held : Nat := 0
  requests : List (Nat × LeaveFor) := []
  /-- Units held by operations until they complete. -/
  holders : List (OpRef × Nat) := []
  deriving DecidableEq, Repr

/-- The management registers of the part that are not a slot's or a cluster's (R274, R306, R308, R309, R371, R382, R401, R404). -/
structure Mgmt where
  intst : BitVec 8 := 0
  intmask : BitVec 8 := 0
  fqbase : DWord := 0
  fqlogn : Word := 0
  fqtail : Word := 0
  fqhead : Word := 0
  ffast : Word := 0
  erbase : DWord := 0
  erlogn : Word := 0
  ertail : Word := 0
  erhead : Word := 0
  erovf : Word := 0
  cethr : Word := 256
  patrol : Word := 64
  hqbase : DWord := 0
  hqlogn : Word := 0
  hthr0 : Word := 0
  hthr1 : Word := 0
  sdasid : Word := 0
  sdva : DWord := 0
  sdlen : Word := 0
  sdstat : Word := 0
  wrstat : Word := 0
  wpol : Word := 0
  gidle : Word := 0x00100000
  ideworld : Word := 0
  mlock : Word := 0
  bootst : Word := 0
  domcfg : Word := 0
  /-- domcfg has been written since reset: later writes are ignored (R401). -/
  domWritten : Bool := false
  spdmbox : DWord := 0
  knote : DWord := 0
  dbgev : DWord := 0
  pmax : Word := 2300
  pwr : Word := 0
  tcool : Word := 0
  tjct : Word := 0
  thermst : Word := 0
  rlsel : DWord := 0
  deriving DecidableEq, Repr

/-- The registers of an Ethernet port (R401, R411). -/
structure EthPort where
  mac : DWord := 0
  nh : DWord := 0
  ip : QWord := 0
  drop : Word := 0
  deriving DecidableEq, Repr

/-- A frame received at an Ethernet port: its FCS, whether it is IPv6 and UDP without an extension header, and its address, port and payload (R323, R411). -/
structure EtherFrame where
  port : Bool
  fcs : Bool := true
  plain : Bool := true
  dst : QWord
  lport : BitVec 16
  payload : List Byte
  deriving DecidableEq, Repr

/-- A host window (R407). -/
structure HostWindow where
  vabase : DWord := 0
  size : BitVec 24 := 0
  baroff : BitVec 24 := 0
  asid : BitVec 16 := 0
  world : BitVec 4 := 0
  stream : BitVec 8 := 0
  valid : Bool := false
  deriving DecidableEq, Repr

/-- A domain export (R409). -/
structure DomExport where
  base : DWord := 0
  size : BitVec 24 := 0
  asid : BitVec 16 := 0
  world : BitVec 4 := 0
  valid : Bool := false
  deriving DecidableEq, Repr

/-! ## Security -/

/-- A key slot with its sealed range (R226, R384). -/
structure KeySlot where
  key : Option (BitVec 256 × BitVec 4) := none
  /-- Changes each time the slot is filled or cleared (R387). -/
  gen : Nat := 0
  skbase : DWord := 0
  sklen : Word := 0
  sktab : DWord := 0
  deriving DecidableEq, Repr

/-- A certificate slot (R227). -/
structure CertSlot where
  chain : List Byte := []
  staged : Option (List Byte) := none
  hold : Bool := false
  deriving DecidableEq, Repr

/-- The SPDM responder and the DOE mailbox's progress (R389 to R395). -/
structure Spdm where
  /-- 0 none, 1 VERSIONED, 2 CAPS, 3 NEGOTIATED. -/
  state : Nat := 0
  partialRead : Bool := false
  a : List Byte := []
  b : List Byte := []
  l : List Byte := []
  /-- The chain of a slot as it stood when a portion of it was last sent, by slot (R398). -/
  shown : Store (List Byte) := []
  /-- Requests delivered, and the requests waiting for delivery. -/
  delivered : Word := 0
  waiting : List (List Byte) := []
  /-- A delivered request has not been answered yet; the slot its CHALLENGE holds. -/
  awaiting : Bool := false
  held : Option Nat := none
  /-- Responses the DOE interface has returned, oldest first; `none` is the Error bit. -/
  responses : List (Option (List Byte)) := []
  deriving DecidableEq, Repr

/-! ## Reliability -/

/-- The state of one copy of a voted unit (R360). -/
inductive CopyState | voting | resync | faulty
  deriving DecidableEq, Repr

/-- A copy and the number of its resynchronisations since boot. -/
structure VotedCopy where
  state : CopyState := .voting
  resyncs : Nat := 0
  deriving DecidableEq, Repr

/-- An error record (R372). -/
structure ErrRec where
  w : ErrWhere
  asid : BitVec 16 := 0
  world : BitVec 4 := 0
  action : BitVec 4
  launch : Word := 0
  gang : Word := 0
  count : Word := 1
  deriving DecidableEq, Repr

/-- A pending fault batch (R274 to R277). -/
structure Batch where
  ident : Word
  ops : List OpRef
  /-- World, ASID, address, kind and `ahead` of each page. -/
  pages : List (Nat × Nat × Nat × Nat × Bool)
  launch : Word
  gang : Word
  /-- The lane and PC of the run whose fetch is index 0 (R277). -/
  lane : Nat := 0
  pc : Word := 0
  /-- Entries written to the ring; the rest wait inside the part while the ring is full. -/
  out : Nat := 0
  deriving DecidableEq, Repr

/-- A fault waiting for RECOVERABLE_FAULT: who met it, where, and its kind (R274). -/
structure FaultReport where
  op : OpRef
  world : Nat
  asid : Nat
  va : Nat
  kind : Nat
  /-- The lane and PC of the run, for a fetch (R277). -/
  lane : Nat := 0
  pc : Word := 0
  /-- Found while the warp runs ahead (R275). -/
  ahead : Bool := false
  deriving DecidableEq, Repr

/-- A fatal trap on its way to the command processor (R270, R272). -/
structure TrapReport where
  warp : Nat
  gang : Nat
  pc : Word
  trap : TrapInfo
  deriving DecidableEq, Repr

/-- A completion entry (R257). -/
structure Completion where
  id : Word
  status : Nat
  wave : Bool := false
  relaunches : Nat := 0
  cause : Word := 0
  gang : Nat := 0
  sealNo : Word := 0
  pc : Word := 0
  deriving DecidableEq, Repr

/-- What the command processor still has to write, once no page it needs is in migration (R304). -/
inductive Owed
  | bytes (slot va : Nat) (bs : List Byte)
  | completion (slot queue : Nat) (e : Completion)
  deriving DecidableEq, Repr

/-- A warp as a halt or an eviction finds it: its partition in the part, its world, and the largest allotment of its launch's roles (R279, R280 step 5). -/
structure SavedWarp where
  warp : Warp
  part : Nat
  world : Nat
  nv : Nat
  nu : Nat
  deriving DecidableEq, Repr

/-- A block as a halt or an eviction finds it: its core's partitions where it has a warp, its world, its scratchpad size and its accumulator tiles (R279, R280 step 6). -/
structure SavedBlock where
  gang : Nat
  block : Block
  core : Nat
  parts : List Nat
  world : Nat
  size : Nat
  tiles : Nat
  deriving DecidableEq, Repr

/-- What a HALT captured (R228, R414), and the draw at which. -/
structure Capture where
  stamp : Nat := 0
  warps : List SavedWarp := []
  blocks : List SavedBlock := []
  deriving DecidableEq, Repr

/-! ## Engines that act across warps -/

/-- A COLL instance (R196): its launch and record, the operations that have joined it by rank, and the destinations computed and not yet written. -/
structure CollInstance where
  launch : Nat
  record : Nat
  given : List (Nat × OpRef) := []
  results : List (OpRef × List Byte) := []
  deriving DecidableEq, Repr

/-- A UDP datagram as it leaves a port: source and next-hop MAC, the fields of its IPv6 header, its ports and UDP checksum, its payload (R323, R411). -/
structure Datagram where
  port : Bool
  mac : DWord
  nextHop : DWord
  src : QWord
  dst : QWord
  hopLimit : Byte := 64
  trafficClass : Byte := 0
  flow : BitVec 20 := 0
  lport : BitVec 16
  pport : BitVec 16
  sum : BitVec 16
  bytes : List Byte
  deriving DecidableEq, Repr

/-- What the part has sent outward: datagrams, MSI-X messages, host completions, its own requests to peers with their world, and its answers to theirs: the bytes of a read or of an atomic, none for a write (R323, R404, R407, R409, R411). -/
inductive Outward
  | datagram (d : Datagram)
  | msix (vector : Nat)
  | hostData (bytes : List Byte) (poisoned : Bool)
  | hostUnsupported
  | hostAbort
  | peerRead (world pa : Nat)
  | peerWrite (world pa : Nat) (bytes : List Byte)
  | peerData (bytes : List Byte) (poisoned : Bool)
  | peerError
  deriving DecidableEq, Repr

/-! ## The state -/

/-- The state of the part and of everything it acts for. -/
structure State where
  /-- Events delivered from outside and not yet performed, oldest first. -/
  agenda : List Instr
  /-- The bundle of the instruction being issued. -/
  cur : Option Bundle
  /-- The model's own count of free values drawn (log 2). -/
  draws : Nat
  warps : List Warp
  gangs : List Gang
  launches : List Launch
  /-- Next identifiers for warps, gangs, launches, placements, fault batches. -/
  nextWarp : Nat
  nextGang : Nat
  nextLaunch : Nat
  nextOrder : Nat
  nextBatch : Nat
  ctxs : Store Ctx
  caches : Store CoreCache
  mem : Mem
  clusters : List Cluster
  /-- Units present after boot that differ from the default, keyed by unit word bits 15 and 11:0; absent units. -/
  units : Store Unit
  absent : Store Bool
  /-- The scrub of part reset has ended (R377). -/
  bootScrubbed : Bool
  haltedCores : Store Bool
  haltedPart : Bool
  capture : Capture
  mgmt : Mgmt
  ports : List EthPort
  /-- Frames received at the ports and not yet taken, oldest first (R411). -/
  received : List EtherFrame
  windows : Store HostWindow
  exports : Store DomExport
  pamap : List (Nat × Nat)
  /-- The measurement registers m0 to m31 (R224). -/
  measure : List (BitVec 512)
  measureTags : List TagEntry
  keySlots : List KeySlot
  keyTags : List TagEntry
  /-- Rekeys of each world since reset (R382). -/
  rekeys : List Nat
  certs : List CertSlot
  certTags : List TagEntry
  spdm : Spdm
  reports : List TrapReport
  faults : List FaultReport
  batches : List Batch
  /-- Requests of the host and of peers that wait for a fault reply, with the batch; batch 0 waits for a shootdown of the location given (R304, R410). -/
  waiters : List (Word × Nat × Instr)
  /-- Writes of the command processor that wait for a shootdown of the location given (R304). -/
  owed : List (Nat × Owed)
  /-- The location in migration that a read of the command processor has met; none between events (R304). -/
  stall : Option Nat
  /-- Error records waiting for room (R372). -/
  pendingErrs : List ErrRec
  /-- Uncorrectable errors found that no warp consumes, to be recorded (R364). -/
  found : List ErrRec
  /-- Correctable errors counted by location type and index, uncorrectable ones likewise (R374). -/
  ceCount : Store Nat
  ueCount : Store Nat
  /-- The retirement list: location type × 2^28 + location (R374). -/
  retire : Store Bool
  /-- Voted units by unit, instance and copy: ((unit × 8 + instance) × 3 + copy) (R359). -/
  voted : Store VotedCopy
  /-- Wodin ports disabled (R362). -/
  deadPorts : Store Bool
  colls : List CollInstance
  collTags : List TagEntry
  tris : List Tri
  /-- Tags of the separators, with their cluster (R212). -/
  sepTags : List (Nat × TagEntry)
  sent : List Outward
  deriving DecidableEq, Repr

/-- Why the machine stops with a fault. -/
inductive Fault
  /-- An instruction word was executed with no bundle selected for it: the step never does so; only a direct call of exec can. Safe: the machine says nothing of such a case. -/
  | noBundle
  /-- An event was executed that the state does not enable: only a direct call of exec can, since the step drops such an event. Safe: the part never performs it. -/
  | notEnabled
  deriving DecidableEq, Repr

/-- Why the model gives no meaning. -/
inductive Refusal
  /-- The instruction has no meaning yet; raised by its arm of exec. Safe: nothing is claimed of it. -/
  | notModelled (mnemonic : String)
  deriving DecidableEq, Repr

/-- The machine right after reset (R377, R401, R412): every management register at its reset value, every unit in world 0 with its scrub-complete bit clear, nothing placed, memory empty, and the PART_RESET event due. -/
def State.reset : State where
  agenda := [.partReset]
  cur := none
  draws := 0
  warps := []
  gangs := []
  launches := []
  nextWarp := 1
  nextGang := 0
  nextLaunch := 1
  nextOrder := 0
  nextBatch := 1
  ctxs := []
  caches := []
  mem := {}
  clusters := [{}, {}, {}, {}]
  units := []
  absent := []
  bootScrubbed := false
  haltedCores := []
  haltedPart := false
  capture := {}
  mgmt := {}
  ports := [{}, {}]
  received := []
  windows := []
  exports := []
  pamap := [(0, 0x8000000000), (0x10000000000, 0x10000000000)]
  measure := List.replicate 32 0
  measureTags := []
  keySlots := List.replicate 16 {}
  keyTags := []
  rekeys := List.replicate 16 0
  certs := List.replicate 8 {}
  certTags := []
  spdm := {}
  reports := []
  faults := []
  batches := []
  waiters := []
  owed := []
  stall := none
  pendingErrs := []
  found := []
  ceCount := []
  ueCount := []
  retire := []
  voted := []
  deadPorts := []
  colls := []
  collTags := []
  tris := []
  sepTags := []
  sent := []

end Sys2Proof.Machine
end

