-- ==== Sys2Proof/Machine/Store.lean ====
section
/-! DEFINITION. Operations on sparse stores and lists: reading, writing in canonical form, updating one entry. -/

namespace Sys2Proof.Machine

/-- The value at key `k`, `d` where nothing is listed. -/
def Store.get {α : Type} (d : α) : Store α → Nat → α
  | [], _ => d
  | (j, v) :: m, k => if j = k then v else Store.get d m k

/-- Insert `v` at `k` among rising keys, in place of an entry of that key. -/
def Store.insert {α : Type} : Store α → Nat → α → Store α
  | [], k, v => [(k, v)]
  | (j, u) :: m, k, v =>
    if k < j then (k, v) :: (j, u) :: m
    else if k = j then (k, v) :: m
    else (j, u) :: Store.insert m k v

/-- Put `v` at `k`, keeping keys rising and listing no entry equal to the default `d`. -/
def Store.put {α : Type} [DecidableEq α] (d : α) (m : Store α) (k : Nat) (v : α) : Store α :=
  if v = d then m.filter fun e => e.1 != k else Store.insert m k v

/-- The canonical form: keys strictly rising, no entry equal to the default. -/
def Store.wf {α : Type} [DecidableEq α] (d : α) : Store α → Bool
  | [] => true
  | [(_, v)] => decide (v ≠ d)
  | (j, v) :: (k, u) :: m => decide (v ≠ d) && decide (j < k) && Store.wf d ((k, u) :: m)

/-- Remove every entry whose key satisfies `p`. -/
def Store.drop {α : Type} (m : Store α) (p : Nat → Bool) : Store α := m.filter fun kv => !p kv.1

/-- A byte, an unlisted one being 0 (log 1). -/
def Memory.byte (m : Memory) (a : Nat) : Byte := Store.get 0 m a
def Memory.setByte (m : Memory) (a : Nat) (b : Byte) : Memory := Store.put 0 m a b

/-- The canonical form of a memory. -/
def Memory.wf (m : Memory) : Bool := Store.wf (0 : Byte) m

/-- `n` bytes from `a`. -/
def Memory.bytes (m : Memory) (a n : Nat) : List Byte := (List.range n).map fun k => m.byte (a + k)

/-- Bytes written from `a`. -/
def Memory.setBytes : Memory → Nat → List Byte → Memory
  | m, _, [] => m
  | m, a, b :: bs => (m.setByte a b).setBytes (a + 1) bs

/-- The number little-endian bytes hold. -/
def natOfBytes : List Byte → Nat
  | [] => 0
  | b :: bs => b.toNat + 256 * natOfBytes bs

/-- `n` little-endian bytes of a number. -/
def bytesOfNat : Nat → Nat → List Byte
  | 0, _ => []
  | n + 1, x => BitVec.ofNat 8 x :: bytesOfNat n (x / 256)

/-- The number big-endian bytes hold. -/
def natOfBE (bs : List Byte) : Nat := natOfBytes bs.reverse
def bytesOfBE (n x : Nat) : List Byte := (bytesOfNat n x).reverse

/-- Bits `hi` down to `lo` of a number. -/
def nbits (x hi lo : Nat) : Nat := x / 2 ^ lo % 2 ^ (hi + 1 - lo)

/-- Apply `f` to the entry at index `k`. -/
def mapAt {α : Type} (f : α → α) : List α → Nat → List α
  | [], _ => []
  | x :: xs, 0 => f x :: xs
  | x :: xs, k + 1 => x :: mapAt f xs k

/-- Apply `f` to the entries that satisfy `p`. -/
def mapIf {α : Type} (p : α → Bool) (f : α → α) (l : List α) : List α := l.map fun x => if p x then f x else x

/-- Fold that threads a state through a list. -/
def each {α σ : Type} (l : List α) (s : σ) (f : α → σ → σ) : σ := l.foldl (fun acc x => f x acc) s

/-- Lanes of a mask, ascending. -/
def lanesOf (m : Mask) : List Nat := (List.range 64).filter fun l => m.getLsbD l
/-- Mask of a list of lanes. -/
def maskOf (l : List Nat) : Mask := l.foldl (fun m k => m ||| (1#64 <<< k)) 0

end Sys2Proof.Machine
end

