-- ==== Sys2Proof/Machine/Image.lean ====
section
/-! DEFINITION. Texture descriptors and the layout of an image in memory (R353, R354). -/

namespace Sys2Proof.Machine

structure TexDesc where
  base : Nat
  w : Nat
  h : Nat
  d : Nat
  lm1 : Nat
  type : Nat
  fmt : Nat
  /-- Address modes of u, v, w: 0 repeat, 1 mirrored, 2 clamp, 3 border. -/
  modes : List Nat
  mag : Bool
  min : Bool
  mip : Nat
  deriving DecidableEq, Repr

def TexDesc.ofNat (x : Nat) : TexDesc :=
  { base := nbits x 511 448, w := nbits x 447 432 + 1, h := nbits x 431 416 + 1, d := nbits x 415 400 + 1
    lm1 := nbits x 399 396, type := nbits x 395 394, fmt := nbits x 391 384
    modes := [nbits x 383 382, nbits x 381 380, nbits x 379 378], mag := nbits x 377 377 = 1, min := nbits x 376 376 = 1
    mip := nbits x 375 374 }

/-- The footprints of R354, in the order of their codes. -/
def footprints : List (Nat × Nat) :=
  [(4, 4), (5, 4), (5, 5), (6, 5), (6, 6), (8, 5), (8, 6), (8, 8), (10, 5), (10, 6), (10, 8), (10, 10), (12, 10), (12, 12)]

/-- Footprint of an ASTC format; none for another. -/
def astcFoot (fmt : Nat) : Option (Nat × Nat) := if fmt / 16 = 1 || fmt / 16 = 2 || fmt / 16 = 3 then footprints[fmt % 16]? else none

def levelSize (k size : Nat) : Nat := max 1 (size / 2 ^ k)

def texelBytes (fmt : Nat) : Nat := match fmt with
  | 2 => 8
  | 4 => 16
  | _ => 4

/-- Bytes of a face or slice of a level. -/
def TexDesc.faceBytes (t : TexDesc) (k : Nat) : Nat :=
  let w := levelSize k t.w
  let h := levelSize k t.h
  match astcFoot t.fmt with
  | some (fw, fh) => (w + fw - 1) / fw * ((h + fh - 1) / fh) * 16
  | none => w * h * texelBytes t.fmt

/-- Faces or slices of a level. -/
def TexDesc.layers (t : TexDesc) (k : Nat) : Nat := if t.type = 3 then 6 else levelSize k t.d

/-- Where a level starts: each at the first multiple of 128 after the one before. -/
def TexDesc.levelStart (t : TexDesc) : Nat → Nat
  | 0 => 0
  | k + 1 => (t.levelStart k + t.faceBytes k * t.layers k + 127) / 128 * 128

/-- Bytes of an image, from its base to the end of its last level. -/
def TexDesc.length (t : TexDesc) : Nat := t.levelStart t.lm1 + t.faceBytes t.lm1 * t.layers t.lm1

end Sys2Proof.Machine
end

