-- ==== Sys2Proof/Config.lean ====
section
/-! DEFINITION. What one part fixes (counts and sizes of R2 and R3) and the free values: constants without a body that nothing can evaluate. -/

namespace Sys2Proof.Config

/-- Clusters of a part, cores of a cluster, partitions of a core (R2). -/
abbrev clusters : Nat := 4
abbrev cores : Nat := 32
abbrev partitions : Nat := 32

/-- Bytes of core SRAM, in banks of 32 KiB (R2, R294). -/
abbrev bankBytes : Nat := 32768
abbrev banks : Nat := 32

/-- Tiles of a partition's residency store (R2, R166). -/
abbrev residencyTiles : Nat := 16

/-- Warps of a partition, words of its vector and uniform banks (R11, R13, R15). -/
abbrev warpsPerPartition : Nat := 16
abbrev vectorWords : Nat := 8192
abbrev uniformWords : Nat := 4096

/-- In-flight record entries of a warp (R25). -/
abbrev inFlight : Nat := 64

/-- Entries of a tag window: scratchpad R163, L2 slice and other holders R284. -/
abbrev scratchTags : Nat := 256

/-- Free value (log 2): which of several agents that can act acts next, by draw. -/
opaque turn : Nat → Nat

/-- Free value (log 8): which line or translation leaves its cache during a step, by draw. -/
opaque leaves : Nat → Nat

/-- Free value (log 9): whether the home slice makes a replica for a `.near` load, by draw (R148). -/
opaque replicates : Nat → Bool

/-- Free value (log 56): whether a fetch takes the new byte where code has been overwritten, by draw and byte of the word (R415). -/
opaque fetchesNew : Nat → Nat → Bool

/-- Free value (log 6): the fused attestation key, a scalar of P-521 (R225). -/
opaque attestKey : Nat

/-- Free value (log 4): the bytes of the boot ROM, by address (R412). -/
opaque romByte : Nat → Byte

/-- Free value (log 14): what a byte deciphers to under a key other than the one its line was written under, by place, the key it was written under, the key it is read under, and the contents of the line (R382). -/
opaque rekeyedByte : Nat → Nat → Nat → Nat → Byte

/-- Free value (log 15): bytes another part or the host returns, by draw (R405). -/
opaque peerByte : Nat → Byte

/-- Free value (log 15): whether another part turns a request away, by draw (R410). -/
opaque peerRefuses : Nat → Bool

/-- Free value (log 15): whether data read from another part carries the Wodin poison bit, by draw (R363). -/
opaque peerPoison : Nat → Bool

/-- Free value (log 15): the port and lane over which a poisoned answer of another part came, as port × 8 + lane, by draw (R373, R408). -/
opaque poisonLane : Nat → Nat

/-- Free value (log 16): whether an MSI-X vector is masked under PCIe when its event occurs, by draw and vector (R404). -/
opaque vectorMasked : Nat → Nat → Bool

/-- Free value (log 3): the cycles, beyond one, that a cluster counts during a step, by cluster and count (R4). -/
opaque cycles : Nat → Nat → Nat

/-- Free value (log 18): the digests that extend m0 to m3 at a boot, by register and draw; that of the boot ROM, register 0, at draw 0 (R388). -/
opaque bootDigest : Nat → Nat → BitVec 512

/-- Free value (log 18): the part's device certificate chain in the configuration store: its length and its bytes (R394). -/
opaque chainLength : Nat
opaque chainByte : Nat → Byte

/-- Free value (log 36): what a texture instruction delivers where the spec states no result, by draw and channel (R355). -/
opaque texOpen : Nat → Nat → Word

/-- Free value (log 36): the snapped coordinate of a vertex that is not finite, by draw and number (R345). -/
opaque snapOpen : Nat → Nat → Int

/-- Free value (log 13): how many instructions a warp runs ahead, by draw (R275). -/
opaque aheadSteps : Nat → Nat

/-- Free value (log 31): a byte of a HASH context that holds no message byte, by draw (R223). -/
opaque hashRest : Nat → Byte

/-- Free value (log 32): a byte of a key-cache slot beyond its two records, by draw (R334). -/
opaque cacheRest : Nat → Byte

/-- Free value (log 33): ticks an I/O tile counts during a step, by draw (R331). -/
opaque tileTicks : Nat → Nat

/-- Free value (log 40): the channel of a DRAM line, which the spec does not give, by physical line (R301, R373). -/
opaque channel : Nat → Nat

/-- Free value (log 40): the bank of a core that holds an L1 line, by line (R373). -/
opaque cacheBank : Nat → Nat

/-- Free value (log 40): where in its tier the hole of a retired channel lies, in pages of what is left, by location type and index (R301, R374). -/
opaque channelHole : Nat → Nat

/-- Free value (log 16): whether a CXL link has been trained (R405). -/
opaque cxlTrained : Bool

/-- Free value (log 30): the bytes of an image that hold state the spec gives no place in it, by draw and place (R279, R280, R414). -/
opaque captureByte : Nat → Nat → Byte

/-- Free value (log 18): whether the boot ROM finds a firmware image authentic (R412). -/
opaque imageAuthentic : Nat → Bool

end Sys2Proof.Config
end

