-- ==== Sys2Proof/Machine/Ops.lean ====
section
/-! DEFINITION. The named operations over threads, registers, warps, blocks, gangs, launches and contexts; taking a trap (R214 to R218, R270) and returning from one. -/

namespace Sys2Proof.Machine

/-! ## Threads of a warp -/

/-- What a lane that does not exist holds: an exited thread. -/
def noThread : Thread := { status := .exited }

def Warp.thread (w : Warp) (l : Nat) : Thread := w.threads.getD l noThread
def Warp.onThread (w : Warp) (l : Nat) (f : Thread → Thread) : Warp := { w with threads := mapAt f w.threads l }
def Warp.onThreads (w : Warp) (ls : List Nat) (f : Thread → Thread) : Warp :=
  each ls w fun l w => w.onThread l f

/-- EXITED or DISCARDED (R9). -/
def Status.gone : Status → Bool
  | .exited | .discarded => true
  | .running | .blocked _ => false

/-- Lanes whose thread is neither EXITED nor DISCARDED. -/
def Warp.live (w : Warp) : List Nat := (List.range w.width).filter fun l => !(w.thread l).status.gone

/-- Lanes whose thread is RUNNING. -/
def Warp.running (w : Warp) : List Nat := (List.range w.width).filter fun l => (w.thread l).status = .running

/-! ## Registers (R13 to R16, R21, R59) -/

/-- Key of vector register `i` of lane `l`. -/
def vkey (i l : Nat) : Nat := i * 64 + l

def Warp.vreg (w : Warp) (i l : Nat) : Reg := Store.get {} w.vregs (vkey i l)
def Warp.ureg (w : Warp) (i : Nat) : Reg := Store.get {} w.uregs i
def Warp.setVreg (w : Warp) (i l : Nat) (r : Reg) : Warp := { w with vregs := Store.put {} w.vregs (vkey i l) r }
def Warp.setUreg (w : Warp) (i : Nat) (r : Reg) : Warp := { w with uregs := Store.put {} w.uregs i r }

/-- A value written: the register becomes full and a hold ends (R21, R59). -/
def fullReg (v : Word) : Reg := { val := v, full := true, held := false }

/-- `n` consecutive registers as one number, the first lowest (R14). -/
def joinRegs (f : Nat → Word) : Nat → Nat → Nat
  | _, 0 => 0
  | i, n + 1 => (f i).toNat + 2 ^ 32 * joinRegs f (i + 1) n

def Warp.vval (w : Warp) (i l n : Nat) : Nat := joinRegs (fun k => (w.vreg k l).val) i n
def Warp.uval (w : Warp) (i n : Nat) : Nat := joinRegs (fun k => (w.ureg k).val) i n

/-- Write a number into `n` consecutive registers. -/
def Warp.putV (w : Warp) (i l : Nat) : Nat → Nat → Warp
  | 0, _ => w
  | n + 1, v => (w.setVreg i l (fullReg (BitVec.ofNat 32 v))).putV (i + 1) l n (v / 2 ^ 32)
def Warp.putU (w : Warp) (i : Nat) : Nat → Nat → Warp
  | 0, _ => w
  | n + 1, v => (w.setUreg i (fullReg (BitVec.ofNat 32 v))).putU (i + 1) n (v / 2 ^ 32)

/-- Mark registers empty at issue (R21) or held (R59); the old value stays beneath. -/
def Warp.emptyV (w : Warp) (i l : Nat) (held : Bool) : Nat → Warp
  | 0 => w
  | n + 1 => (w.setVreg i l { w.vreg i l with full := false, held }).emptyV (i + 1) l held n
def Warp.emptyU (w : Warp) (i : Nat) (held : Bool) : Nat → Warp
  | 0 => w
  | n + 1 => (w.setUreg i { w.ureg i with full := false, held }).emptyU (i + 1) held n
/-- Make registers full again with the value they held (R143). -/
def Warp.refillV (w : Warp) (i l : Nat) : Nat → Warp
  | 0 => w
  | n + 1 => (w.setVreg i l (fullReg (w.vreg i l).val)).refillV (i + 1) l n
def Warp.refillU (w : Warp) (i : Nat) : Nat → Warp
  | 0 => w
  | n + 1 => (w.setUreg i (fullReg (w.ureg i).val)).refillU (i + 1) n

/-! ## Finding and updating -/

def noWarp : Warp :=
  { uid := 0, gang := 0, rank := 0, num := 0, part := 0, slot := 0, width := 0, nv := 0, nu := 0, threads := [],
    retired := true }
def noBlock : Block := { rank := 0, core := 0, prio := 0, cv := [], retired := true }
def noGang : Gang :=
  { uid := 0, launch := 0, num := 0, cluster := 0, state := .retired, blocks := [], retained := { rpc := 0, contain := false } }
def noLaunch : Launch :=
  { uid := 0, id := 0, slot := 0, queue := none, asid := 0, record := {}, len := 0, roles := [], state := .ended 0 }

def State.warp (s : State) (u : Nat) : Warp := (s.warps.find? fun w => w.uid == u).getD noWarp
def State.gang (s : State) (u : Nat) : Gang := (s.gangs.find? fun g => g.uid == u).getD noGang
def State.launch (s : State) (u : Nat) : Launch := (s.launches.find? fun l => l.uid == u).getD noLaunch
def State.hasWarp (s : State) (u : Nat) : Bool := s.warps.any fun w => w.uid == u
def State.hasGang (s : State) (u : Nat) : Bool := s.gangs.any fun g => g.uid == u
def State.hasLaunch (s : State) (u : Nat) : Bool := s.launches.any fun l => l.uid == u

def State.onWarp (s : State) (u : Nat) (f : Warp → Warp) : State :=
  { s with warps := mapIf (fun w => w.uid == u) f s.warps }
def State.onGang (s : State) (u : Nat) (f : Gang → Gang) : State :=
  { s with gangs := mapIf (fun g => g.uid == u) f s.gangs }
def State.onLaunch (s : State) (u : Nat) (f : Launch → Launch) : State :=
  { s with launches := mapIf (fun l => l.uid == u) f s.launches }

def Gang.block (g : Gang) (r : Nat) : Block := g.blocks.getD r noBlock
def Gang.onBlock (g : Gang) (r : Nat) (f : Block → Block) : Gang := { g with blocks := mapAt f g.blocks r }
def State.block (s : State) (g r : Nat) : Block := (s.gang g).block r
def State.onBlock (s : State) (g r : Nat) (f : Block → Block) : State := s.onGang g fun x => x.onBlock r f

/-- The gang, block and launch of a warp. -/
def State.warpGang (s : State) (w : Warp) : Gang := s.gang w.gang
def State.warpBlock (s : State) (w : Warp) : Block := s.block w.gang w.rank
def State.warpLaunch (s : State) (w : Warp) : Launch := s.launch (s.gang w.gang).launch
/-- The warps of a block and of a gang, in ascending number. -/
def State.blockWarps (s : State) (g r : Nat) : List Warp := s.warps.filter fun w => w.gang == g && w.rank == r
def State.gangWarps (s : State) (g : Nat) : List Warp := s.warps.filter fun w => w.gang == g

def State.ctx (s : State) (k : Nat) : Ctx := Store.get {} s.ctxs k
def State.onCtx (s : State) (k : Nat) (f : Ctx → Ctx) : State := { s with ctxs := Store.put {} s.ctxs k (f (s.ctx k)) }
def State.cluster (s : State) (c : Nat) : Cluster := s.clusters.getD c {}
def State.onCluster (s : State) (c : Nat) (f : Cluster → Cluster) : State := { s with clusters := mapAt f s.clusters c }

/-- Number of a core in the part. -/
def coreNo (cluster core : Nat) : Nat := cluster * 32 + core
def State.warpCore (s : State) (w : Warp) : Nat := coreNo (s.warpGang w).cluster (s.warpBlock w).core

/-- Fresh index for a free value. -/
def State.draw (s : State) : State := { s with draws := s.draws + 1 }

/-! ## The in-flight record and the counters (R24, R25) -/

def Warp.count (w : Warp) (c : Ctr) : Nat := (w.ops.filter fun o => o.ctr = some c).length
/-- Operations the five counters count together. -/
def Warp.counted (w : Warp) : Nat := (w.ops.filter fun o => o.ctr.isSome).length

def Warp.op (w : Warp) (k : Nat) : Option Op := w.ops.find? fun o => o.id == k
def Warp.onOp (w : Warp) (k : Nat) (f : Op → Op) : Warp := { w with ops := mapIf (fun o => o.id == k) f w.ops }

/-- Finished operations leave the record in issue order within their counter; those without a counter leave at once (R24). -/
def retireOps : List Op → List Ctr → List Op
  | [], _ => []
  | o :: os, held =>
    match o.ctr with
    | none => if o.finished then retireOps os held else o :: retireOps os held
    | some c => if o.finished && decide (c ∉ held) then retireOps os held else o :: retireOps os (c :: held)

def Warp.finish (w : Warp) (k : Nat) : Warp :=
  { w with ops := retireOps (mapIf (fun o => o.id == k) (fun o => { o with performed := true, finished := true }) w.ops) [] }

/-- Add an operation that is complete as it issues: it stays counted while an older one of its class has not finished (R24). -/
def Warp.addDone (w : Warp) (o : Op) : Warp :=
  { w with
    ops := retireOps (w.ops ++ [{ o with id := w.nextOp, performed := true, finished := true }]) []
    nextOp := w.nextOp + 1 }

/-- Add an operation to the record. -/
def Warp.addOp (w : Warp) (o : Op) : Warp := { w with ops := w.ops ++ [{ o with id := w.nextOp }], nextOp := w.nextOp + 1 }

/-! ## Traps -/

abbrev causeIllegal : Word := 0x01
abbrev causeAlignment : Word := 0x02
abbrev causeTranslation : Word := 0x03
abbrev causePermission : Word := 0x04
abbrev causeEmptyRead : Word := 0x05
abbrev causeDivergence : Word := 0x06
abbrev causeStale : Word := 0x07
abbrev causeQuota : Word := 0x08
abbrev causeBounds : Word := 0x09
abbrev causeArith : Word := 0x0A
abbrev causeBreakpoint : Word := 0x0B
abbrev causeDouble : Word := 0x0C
abbrev causeKeeper : Word := 0x0D
abbrev causeSoftware : Word := 0x10
abbrev causeUncorrectable : Word := 0x20

/-- The causes a kernel's handler may admit (R214, R215). -/
def handledCause (c : Word) : Bool := c = 0x05 || c = 0x07 || c = 0x08 || c = 0x0A || c = 0x0B || c = 0x10

/-- sr.trappc (R217). -/
def trapPc (reporter : Bool) (lane : Nat) (pc : Word) : DWord :=
  BitVec.ofNat 64 (pc.toNat + lane % 64 * 2 ^ 32 + (if reporter then 2 ^ 38 else 0))

/-- The trap registers of one thread (R216). -/
def Thread.trapRegs (t : Thread) (reporter : Bool) (lane : Nat) (pc : Word) (x : TrapInfo) : Thread :=
  { t with trapcause := x.cause, trappc := trapPc reporter lane pc, trapaddr := x.addr, trapinfo := x.info }

/-- A thread enters the handler (R216). -/
def Thread.enterHandler (t : Thread) (hpc : Word) (reporter : Bool) (lane : Nat) (pc : Word) (x : TrapInfo) : Thread :=
  { t.trapRegs reporter lane pc x with handler := true, pc := hpc, status := .running }

/-- A thread stops at its instruction until the command processor takes the fatal trap (R270). -/
def Thread.stopAt (t : Thread) (pc : Word) : Thread := { t with pc, status := .blocked .trapped }

/-- The handler of a launch admits a cause (R215). -/
def Launch.admits (l : Launch) (c : Word) : Bool := handledCause c && l.record.hmask.getLsbD c.toNat

/-- What a trap does, with the threads that enter or stop and the PC of each (R214, R216, R218, R270): a thread in handler mode makes it DOUBLE; an admitted cause enters the handler; every other is fatal and waits for the command processor. -/
def takeTrap (u : Nat) (enter : List (Nat × Word)) (rep : Nat) (x : TrapInfo) (s : State) : State :=
  let w := s.warp u
  let double := enter.any fun e => (w.thread e.1).handler
  let x : TrapInfo := if double then { x with cause := causeDouble, info := x.cause &&& 0xFF } else x
  let l := s.warpLaunch w
  if l.admits x.cause then
    s.onWarp u fun w => each enter w fun e w =>
      w.onThread e.1 fun t => t.enterHandler l.record.hpc (e.1 == rep) rep e.2 x
  else
    let pc := ((enter.find? fun e => e.1 == rep).map Prod.snd).getD 0
    let s := s.onWarp u fun w => each enter w fun e w =>
      w.onThread e.1 fun t => (t.stopAt e.2).trapRegs (e.1 == rep) rep e.2 x
    { s with reports := s.reports ++ [{ warp := u, gang := w.gang, pc, trap := x }] }

/-- A trap of steps 5 to 7 of a bundle: a fatal one stops every thread of the bundle at the instruction, the guarded-off too; a handled one leaves those to go on (R216, R270). -/
def bundleTrap (u : Nat) (lanes : List Nat) (enter : List Nat) (pc : Word) (rep : Nat) (x : TrapInfo) (s : State) : State :=
  let w := s.warp u
  let cause := if enter.any fun l => (w.thread l).handler then causeDouble else x.cause
  let s' := if (s.warpLaunch w).admits cause then s
    else s.onWarp u fun w => w.onThreads (lanes.filter fun l => !enter.contains l) fun t => t.stopAt pc
  takeTrap u (enter.map fun l => (l, pc)) rep x s'

/-- A trap found after its instruction has retired: reported at the warp's next issue attempt (R270). The first one found stands. -/
def asyncTrap (u lane : Nat) (pc : Word) (x : TrapInfo) (s : State) : State :=
  s.onWarp u fun w =>
    if w.asyncTrap.isSome then w else { w with asyncTrap := some (lane, pc, { x with info := x.info ||| 0x80000000 }) }

/-- What an asynchronous trap reports: DOUBLE when the thread it names is in handler mode (R214, R218). -/
def asyncInfo (w : Warp) (lane : Nat) (x : TrapInfo) : TrapInfo :=
  if (w.thread lane).handler then { x with cause := causeDouble, info := x.cause &&& 0xFF ||| x.info &&& 0x80000000 } else x

/-- The report of an asynchronous trap: the warp stops, and the trap is fatal (R214, R270). -/
def reportAsync (u : Nat) (s : State) : State :=
  let w := s.warp u
  match w.asyncTrap with
  | none => s
  | some (lane, pc, x) =>
    let x := asyncInfo w lane x
    let s := s.onWarp u fun w =>
      { (w.onThread lane fun t => t.trapRegs true lane pc x) with stopped := true, asyncTrap := none }
    { s with reports := s.reports ++ [{ warp := u, gang := w.gang, pc, trap := x }] }

/-- Return from the handler (TRET of R219). -/
def Thread.leaveHandler (t : Thread) (pc : Word) : Thread := { t with handler := false, pc }

/-! ## Moving past an instruction -/

/-- The lanes continue at PC + 12 (R107). -/
def State.advance (s : State) (u : Nat) (lanes : List Nat) (pc : Word) : State :=
  s.onWarp u fun w => w.onThreads lanes fun t => { t with pc := pc + 12 }

/-- The lanes become BLOCKED. -/
def State.blockLanes (s : State) (u : Nat) (lanes : List Nat) (x : Wait) : State :=
  s.onWarp u fun w => w.onThreads lanes fun t => { t with status := .blocked x }

/-- The lanes become RUNNING. -/
def State.wakeLanes (s : State) (u : Nat) (lanes : List Nat) : State :=
  s.onWarp u fun w => w.onThreads lanes fun t => { t with status := .running }

end Sys2Proof.Machine
end

