-- ==== Sys2Proof/Machine/Shape.lean ====
section
/-! DEFINITION. The encoding tables (R50 to R54, R61 to R71): for every instruction its OP, SUB and format, and what each operand position accepts, reads and writes; the conditions under which a word is an instruction (R56). -/

namespace Sys2Proof

/-! ## Modifier codes (R65 to R71) -/

def ITy.code : ITy → Nat
  | .i32 => 0 | .n32 => 1 | .i64 => 2 | .n64 => 3
def ITy.ofCode : Nat → Option ITy
  | 0 => some .i32 | 1 => some .n32 | 2 => some .i64 | 3 => some .n64 | _ => none
/-- Registers of a value of the type. -/
def ITy.regs : ITy → Nat
  | .i32 | .n32 => 1
  | .i64 | .n64 => 2
def ITy.signed : ITy → Bool
  | .i32 | .i64 => true
  | .n32 | .n64 => false
/-- Bits of a value of the type. -/
def ITy.bits (t : ITy) : Nat := 32 * t.regs

def Wd.code : Wd → Nat
  | .w32 => 0 | .w64 => 2
def Wd.ofCode : Nat → Option Wd
  | 0 => some .w32 | 2 => some .w64 | _ => none
def Wd.regs : Wd → Nat
  | .w32 => 1 | .w64 => 2
def Wd.bits (w : Wd) : Nat := 32 * w.regs

def Cond.code : Cond → Nat
  | .eq => 0 | .ne => 1 | .lt => 2 | .le => 3 | .gt => 4 | .ge => 5
def Cond.ofCode : Nat → Option Cond
  | 0 => some .eq | 1 => some .ne | 2 => some .lt | 3 => some .le | 4 => some .gt | 5 => some .ge | _ => none

def FCond.code : FCond → Nat
  | .eq => 0 | .ne => 1 | .lt => 2 | .le => 3 | .gt => 4 | .ge => 5 | .equ => 6 | .neu => 7
  | .ltu => 8 | .leu => 9 | .gtu => 10 | .geu => 11 | .num => 12 | .nan => 13
def FCond.ofCode : Nat → Option FCond
  | 0 => some .eq | 1 => some .ne | 2 => some .lt | 3 => some .le | 4 => some .gt | 5 => some .ge
  | 6 => some .equ | 7 => some .neu | 8 => some .ltu | 9 => some .leu | 10 => some .gtu
  | 11 => some .geu | 12 => some .num | 13 => some .nan | _ => none

def RndA.code : RndA → Nat
  | .rn => 0 | .rz => 1 | .rp => 2 | .rm => 3
def RndA.ofCode : Nat → Option RndA
  | 0 => some .rn | 1 => some .rz | 2 => some .rp | 3 => some .rm | _ => none
def RndA.full : RndA → Rnd
  | .rn => .rn | .rz => .rz | .rp => .rp | .rm => .rm

def Rnd.code : Rnd → Nat
  | .rn => 0 | .rz => 1 | .rp => 2 | .rm => 3 | .rs => 4
def Rnd.ofCode : Nat → Option Rnd
  | 0 => some .rn | 1 => some .rz | 2 => some .rp | 3 => some .rm | 4 => some .rs | _ => none

def Size.code : Size → Nat
  | .b8 => 0 | .b16 => 1 | .b32 => 2 | .b64 => 3 | .b128 => 4
def Size.ofCode : Nat → Option Size
  | 0 => some .b8 | 1 => some .b16 | 2 => some .b32 | 3 => some .b64 | 4 => some .b128 | _ => none
def Size.bytes : Size → Nat
  | .b8 => 1 | .b16 => 2 | .b32 => 4 | .b64 => 8 | .b128 => 16
def Size.regs : Size → Nat
  | .b8 | .b16 | .b32 => 1
  | .b64 => 2
  | .b128 => 4

def PsetOp.code : PsetOp → Nat
  | .and => 0 | .or => 1 | .xor => 2
def PsetOp.ofCode : Nat → Option PsetOp
  | 0 => some .and | 1 => some .or | 2 => some .xor | _ => none

def LeaShift.code : LeaShift → Nat
  | .s0 => 0 | .s1 => 1 | .s2 => 2 | .s3 => 3 | .s4 => 4
def LeaShift.ofCode : Nat → Option LeaShift
  | 0 => some .s0 | 1 => some .s1 | 2 => some .s2 | 3 => some .s3 | 4 => some .s4 | _ => none

def CvtFmt.code : CvtFmt → Nat
  | .i32 => 0 | .n32 => 1 | .i64 => 2 | .n64 => 3 | .f64 => 4 | .f32 => 5 | .f16 => 6 | .bf16 => 7
  | .b8 => 8 | .e4m3 => 9
def CvtFmt.ofCode : Nat → Option CvtFmt
  | 0 => some .i32 | 1 => some .n32 | 2 => some .i64 | 3 => some .n64 | 4 => some .f64
  | 5 => some .f32 | 6 => some .f16 | 7 => some .bf16 | 8 => some .b8 | 9 => some .e4m3 | _ => none
def CvtFmt.regs : CvtFmt → Nat
  | .i64 | .n64 | .f64 => 2
  | .i32 | .n32 | .f32 | .f16 | .bf16 | .b8 | .e4m3 => 1
/-- Bytes of an element of the format (R186). -/
def CvtFmt.bytes : CvtFmt → Nat
  | .i64 | .n64 | .f64 => 8
  | .i32 | .n32 | .f32 => 4
  | .f16 | .bf16 => 2
  | .b8 | .e4m3 => 1

/-- Bits of a value in a CVT format. -/
def CvtFmt.bits (k : CvtFmt) : Nat := 8 * k.bytes

def CvtFmt.signedInt : CvtFmt → Bool
  | .i32 | .i64 => true
  | _ => false

def LaneFn.code : LaneFn → Nat
  | .pick => 0 | .rot => 1 | .lo => 2 | .hi => 3 | .xor => 4 | .rev => 5
def LaneFn.ofCode : Nat → Option LaneFn
  | 0 => some .pick | 1 => some .rot | 2 => some .lo | 3 => some .hi | 4 => some .xor | 5 => some .rev
  | _ => none

def PollOp.code : PollOp → Nat
  | .and => 0 | .or => 1 | .eq => 2 | .mask => 3 | .cnt => 4
def PollOp.ofCode : Nat → Option PollOp
  | 0 => some .and | 1 => some .or | 2 => some .eq | 3 => some .mask | 4 => some .cnt | _ => none

def RedOp.code : RedOp → Nat
  | .add => 0 | .min => 1 | .max => 2 | .and => 3 | .or => 4 | .xor => 5
def RedOp.ofCode : Nat → Option RedOp
  | 0 => some .add | 1 => some .min | 2 => some .max | 3 => some .and | 4 => some .or | 5 => some .xor
  | _ => none
def RedTy.code : RedTy → Nat
  | .i32 => 0 | .n32 => 1 | .f32 => 2
def RedTy.ofCode : Nat → Option RedTy
  | 0 => some .i32 | 1 => some .n32 | 2 => some .f32 | _ => none
/-- `.f32` exists only with ADD, MIN and MAX (R67). -/
def RedOp.hasTy : RedOp → RedTy → Bool
  | .add, _ | .min, _ | .max, _ => true
  | .and, t | .or, t | .xor, t => t != .f32

def AtomOp.code : AtomOp → Nat
  | .add => 0 | .min => 1 | .max => 2 | .and => 3 | .or => 4 | .xor => 5 | .exch => 6 | .cas => 7
def AtomOp.ofCode : Nat → Option AtomOp
  | 0 => some .add | 1 => some .min | 2 => some .max | 3 => some .and | 4 => some .or | 5 => some .xor
  | 6 => some .exch | 7 => some .cas | _ => none
def AtomTy.code : AtomTy → Nat
  | .i32 => 0 | .n32 => 1 | .i64 => 2 | .n64 => 3 | .f32 => 4 | .f64 => 5 | .f16x2 => 6 | .bf16x2 => 7
def AtomTy.ofCode : Nat → Option AtomTy
  | 0 => some .i32 | 1 => some .n32 | 2 => some .i64 | 3 => some .n64 | 4 => some .f32 | 5 => some .f64
  | 6 => some .f16x2 | 7 => some .bf16x2 | _ => none
def AtomTy.regs : AtomTy → Nat
  | .i64 | .n64 | .f64 => 2
  | .i32 | .n32 | .f32 | .f16x2 | .bf16x2 => 1
def AtomTy.isInt : AtomTy → Bool
  | .i32 | .n32 | .i64 | .n64 => true
  | .f32 | .f64 | .f16x2 | .bf16x2 => false
/-- The pairs of operation and type allocated (R69). -/
def AtomOp.hasTy : AtomOp → AtomTy → Bool
  | .add, _ | .min, _ | .max, _ => true
  | .and, t | .or, t | .xor, t | .exch, t | .cas, t => t.isInt
def AtomOrd.code : AtomOrd → Nat
  | .none => 0 | .acq => 1 | .rel => 2 | .acqRel => 3
def AtomOrd.ofCode : Nat → Option AtomOrd
  | 0 => some .none | 1 => some .acq | 2 => some .rel | 3 => some .acqRel | _ => Option.none

def TexDim.code : TexDim → Nat
  | .d1 => 0 | .d2 => 1 | .d3 => 2 | .cube => 3
def TexDim.ofCode : Nat → Option TexDim
  | 0 => some .d1 | 1 => some .d2 | 2 => some .d3 | 3 => some .cube | _ => none

/-- The pairable list, in the order of its codes (R71). -/
def PairOp.all : List PairOp :=
  [.iadd, .isub, .imul, .imin, .imax, .iminN, .imaxN, .and, .or, .xor,
   .not, .shl, .shr, .sar, .mov, .popc, .fadd, .fmul, .fmin, .fmax,
   .hadd2, .hmul2, .hadd2bf, .hmul2bf, .iabs, .ineg, .clz, .brev]
def PairOp.code : PairOp → Nat
  | .iadd => 0 | .isub => 1 | .imul => 2 | .imin => 3 | .imax => 4 | .iminN => 5 | .imaxN => 6
  | .and => 7 | .or => 8 | .xor => 9 | .not => 10 | .shl => 11 | .shr => 12 | .sar => 13 | .mov => 14
  | .popc => 15 | .fadd => 16 | .fmul => 17 | .fmin => 18 | .fmax => 19 | .hadd2 => 20 | .hmul2 => 21
  | .hadd2bf => 22 | .hmul2bf => 23 | .iabs => 24 | .ineg => 25 | .clz => 26 | .brev => 27
def PairOp.ofCode (n : Nat) : Option PairOp := PairOp.all[n]?
def PairOp.unary : PairOp → Bool
  | .not | .mov | .popc | .iabs | .ineg | .clz | .brev => true
  | .iadd | .isub | .imul | .imin | .imax | .iminN | .imaxN | .and | .or | .xor | .shl | .shr | .sar
  | .fadd | .fmul | .fmin | .fmax | .hadd2 | .hmul2 | .hadd2bf | .hmul2bf => false

/-! ## Operand positions -/

def Kind.code : Kind → Nat
  | .zr => 0 | .vec => 1 | .uni => 2 | .prd => 3 | .cnv => 4 | .acc => 5 | .spc => 6 | .imm => 7
def Kind.ofCode : Nat → Kind
  | 0 => .zr | 1 => .vec | 2 => .uni | 3 => .prd | 4 => .cnv | 5 => .acc | 6 => .spc | _ => .imm

/-- The architectural limit of an operand value (R53). -/
def Kind.limit : Kind → Nat
  | .zr => 0 | .vec => 255 | .uni => 511 | .prd => 7 | .cnv => 15 | .acc => 3 | .spc => 8191 | .imm => 8191

/-- The special indices that name something: special registers, counters and queues (R27, R54). -/
def specialNamed (n : Nat) : Bool := n ≤ 0x23 || (0x40 ≤ n && n ≤ 0x44) || (0x80 ≤ n && n ≤ 0x83)
/-- Those that name a special register or a counter (R28). -/
def specialReg (n : Nat) : Bool := n ≤ 0x23 || (0x40 ≤ n && n ≤ 0x44)
/-- Special registers of 64 bits: sr.clock, sr.trappc, sr.trapaddr (R27). -/
def specialRegs (n : Nat) : Nat := if n = 0x10 || n = 0x1C || n = 0x1D then 2 else 1
/-- Special registers of scope T (R27). -/
def specialPerThread (n : Nat) : Bool := n = 0x00 || (0x19 ≤ n && n ≤ 0x1E)
/-- Special registers that WRSR may name: RW or R/H (R27). -/
def specialWritable (n : Nat) : Bool := 0x19 ≤ n && n ≤ 0x1E

/-- What an instruction does with an operand position: `both` is a destination whose old value is a source (BOOL3), `name` a field that names something without a full/empty register. -/
inductive Role | unused | src | dst | both | name
  deriving DecidableEq, Repr

/-- An operand position: the kinds it accepts, the registers of its value, and the consecutive registers it takes in all. -/
structure Pos where
  role : Role
  kinds : List Kind := []
  regs : Nat := 1
  span : Nat := 0
  zrWide : Bool := false
  deriving DecidableEq, Repr

/-- Registers the position takes: its span where an entry names more than the value's own. -/
def Pos.count (p : Pos) : Nat := if p.span = 0 then p.regs else p.span

/-- The formats of R52. -/
inductive Fmt | ops | i16 | i32
  deriving DecidableEq, Repr

/-- What an instruction's fields are. `uniRule`: a uniform destination needs sources that are uniform, `zr` or immediates (R53). `perLane`: its entry defines its effect for every active lane even when every operand is uniform (R41). -/
structure Shape where
  d : Pos := { role := .unused }
  a : Pos := { role := .unused }
  b : Pos := { role := .unused }
  c : Pos := { role := .unused }
  fmt : Fmt := .ops
  uniRule : Bool := false
  perLane : Bool := false
  deriving DecidableEq, Repr

namespace Pos

def none : Pos := { role := .unused }
/-- A value source: vector, uniform, `zr` or short immediate (R94). -/
def val (n : Nat) : Pos := { role := .src, kinds := [.zr, .vec, .uni, .imm], regs := n }
/-- A register or a short immediate. -/
def regImm (n : Nat) : Pos := { role := .src, kinds := [.vec, .uni, .imm], regs := n }
/-- A source that takes no short immediate (R54, R118). -/
def reg (n : Nat) : Pos := { role := .src, kinds := [.zr, .vec, .uni], regs := n }
def vecUni (n : Nat) : Pos := { role := .src, kinds := [.vec, .uni], regs := n }
def vecs (n : Nat) : Pos := { role := .src, kinds := [.vec], regs := n }
def unis (n : Nat) : Pos := { role := .src, kinds := [.uni], regs := n }
def uniImm : Pos := { role := .src, kinds := [.uni, .imm] }
def uniZr (n : Nat) : Pos := { role := .src, kinds := [.uni, .zr], regs := n }
def uniImmZr : Pos := { role := .src, kinds := [.uni, .imm, .zr] }
def imm : Pos := { role := .src, kinds := [.imm] }
def immZr : Pos := { role := .src, kinds := [.imm, .zr] }
def pred : Pos := { role := .src, kinds := [.prd] }
def special : Pos := { role := .name, kinds := [.spc] }
def special' : Pos := { role := .dst, kinds := [.spc] }
def conv : Pos := { role := .dst, kinds := [.cnv] }
def convName : Pos := { role := .name, kinds := [.cnv] }
/-- A destination: vector, uniform or single `zr` (R53). -/
def out (n : Nat) : Pos := { role := .dst, kinds := [.zr, .vec, .uni], regs := n }
def outVec (n : Nat) : Pos := { role := .dst, kinds := [.zr, .vec], regs := n }
def outUni (n : Nat) : Pos := { role := .dst, kinds := [.zr, .uni], regs := n }
def outPred : Pos := { role := .dst, kinds := [.prd] }
def outAcc : Pos := { role := .dst, kinds := [.acc] }
def accSrc : Pos := { role := .src, kinds := [.acc] }

end Pos

open Pos in
/-- The shape of an instruction, from the operand tables of its entry. Events have no fields.
`zr` stands only where an entry lists it, or R41, R94, R118 or R142 does for its class (note_zr). Where an entry names no kinds for a source the position takes what log 58 says: DESIGN CHOICE, for A of BRX, CALL.reg, RET and WDQ, C of the atomics and C of TLD. A register (A of WRSR, of MATCH) is a vector or a uniform one. -/
def shape : Instr → Shape
  -- R96 to R106
  | .nop .. => {}
  | .iadd _ t _ | .isub _ t _ | .imul _ t _ | .imin _ t _ | .imax _ t _ | .imulhi _ t _
  | .idiv _ t _ | .irem _ t _ => { d := out t.regs, a := val t.regs, b := val t.regs, uniRule := true }
  | .iaddImm _ t _ | .isubImm _ t _ | .imulImm _ t _ | .iminImm _ t _ | .imaxImm _ t _ =>
      { d := out t.regs, a := val t.regs, fmt := .i32, uniRule := true }
  | .imad _ t _ => { d := out t.regs, a := val t.regs, b := val t.regs, c := val t.regs, uniRule := true }
  | .imadw .. => { d := out 2, a := val 1, b := val 1, c := val 2, uniRule := true }
  | .iabs _ w _ | .ineg _ w _ | .not _ w _ | .brev _ w _ | .mov _ w _ =>
      { d := out w.regs, a := val w.regs, uniRule := true }
  | .shl _ w _ | .shr _ w _ | .sar _ w _ | .rot _ w _ =>
      { d := out w.regs, a := val w.regs, b := val 1, uniRule := true }
  | .and _ w _ | .or _ w _ | .xor _ w _ => { d := out w.regs, a := val w.regs, b := val w.regs, uniRule := true }
  | .andImm _ w _ | .orImm _ w _ | .xorImm _ w _ => { d := out w.regs, a := val w.regs, fmt := .i32, uniRule := true }
  | .bool3 _ w _ =>
      { d := { role := .both, kinds := [.zr, .vec, .uni], regs := w.regs }, a := val w.regs, b := val w.regs,
        fmt := .i16, uniRule := true }
  | .bfe _ t _ => { d := out t.regs, a := val t.regs, b := val 1, uniRule := true }
  | .bfi _ w _ => { d := out w.regs, a := val w.regs, b := val w.regs, c := val 1, uniRule := true }
  | .popc _ w _ | .clz _ w _ => { d := out 1, a := val w.regs, uniRule := true }
  | .isetp _ _ t _ => { d := outPred, a := val t.regs, b := val t.regs }
  | .icmp _ _ t _ => { d := out 1, a := val t.regs, b := val t.regs, uniRule := true }
  | .sel _ w _ => { d := out w.regs, a := val w.regs, b := val w.regs, c := pred, uniRule := true }
  | .pset .. => { d := outPred, a := pred, b := pred, c := immZr }
  | .movi .. => { d := out 1, fmt := .i32, uniRule := true }
  | .lea .. => { d := out 2, a := reg 2, b := val 1, uniRule := true }
  -- R108 to R116
  | .bra .. => { fmt := .i32 }
  | .brx .. | .ret .. => { a := regImm 1 }
  | .call .. => { d := { role := .dst, kinds := [.vec] }, fmt := .i32 }
  | .callReg .. => { d := { role := .dst, kinds := [.vec] }, a := regImm 1 }
  | .exit .. | .yield .. => {}
  | .loop .. => { d := out 1, a := val 1, fmt := .i16, uniRule := true }
  | .nap .. | .role .. => { fmt := .i16 }
  | .decl .. => { d := conv, a := uniZr 2 }
  | .cvsign .. => { d := conv }
  | .rdsr _ f => { d := out (if f.a.kind = .spc then specialRegs f.a.val.toNat else 1), a := special }
  | .wrsr _ f => { d := special', a := regImm (if f.d.kind = .spc then specialRegs f.d.val.toNat else 1) }
  -- R119 to R140
  | .fadd .. | .fmul .. | .fmin .. | .fmax .. => { d := out 1, a := val 1, b := val 1, uniRule := true }
  | .ffma .. => { d := out 1, a := val 1, b := val 1, c := val 1, uniRule := true }
  | .fsetp _ x _ _ => { d := outPred, a := val (if x then 2 else 1), b := val (if x then 2 else 1) }
  | .fcmp _ x _ _ =>
      { d := out 1, a := val (if x then 2 else 1), b := val (if x then 2 else 1), uniRule := true }
  | .frnd .. => { d := out 1, a := val 1, uniRule := true }
  | .fclass _ x _ => { d := out 1, a := val (if x then 2 else 1), uniRule := true }
  | .dadd .. | .dmul .. => { d := out 2, a := val 2, b := val 2, uniRule := true }
  | .dfma .. => { d := out 2, a := val 2, b := val 2, c := val 2, uniRule := true }
  | .hadd2 .. | .hmul2 .. => { d := out 1, a := reg 1, b := reg 1, uniRule := true }
  | .hfma2 .. => { d := out 1, a := reg 1, b := reg 1, c := reg 1, uniRule := true }
  | .cvt _ x y _ => { d := out y.regs, a := reg x.regs, b := immZr, fmt := .i16, uniRule := true }
  | .quant .. => { d := outVec 1, a := reg 1, b := uniImmZr, c := uniZr 1, perLane := true }
  | .rcp .. | .rsq .. | .sqrt .. | .exp2 .. | .log2 .. | .sin .. | .cos .. | .tanh .. =>
      { d := out 1, a := val 1, uniRule := true }
  | .xlane .. => { d := outVec 1, a := reg 1, b := val 1, c := immZr, perLane := true }
  | .poll _ k _ =>
      { d := match k with
             | .and | .or | .eq => outPred
             | .mask => out 2
             | .cnt => out 1,
        a := pred, perLane := true }
  | .redux .. => { d := out 1, a := reg 1, perLane := true }
  | .scan .. => { d := outVec 1, a := reg 1, perLane := true }
  | .matchLanes _ w _ => { d := outVec 2, a := vecUni w.regs, perLane := true }
  | .elect .. => { d := outPred, perLane := true }
  | .pairedWord .. => {}
  -- R145 to R162
  | .ld _ z _ _ _ | .ldAcq _ z _ _ | .ldc _ z _ | .ldb _ z _ =>
      { d := out z.regs, a := reg 2, b := val 1, uniRule := true }
  | .st _ z _ | .stRel _ z _ => { a := reg 2, b := val 1, c := reg z.regs }
  | .lds _ z _ _ => { d := out z.regs, a := val 1, b := val 1, uniRule := true }
  | .sts _ z _ => { a := val 1, b := val 1, c := reg z.regs }
  | .pref .. => { a := reg 2, b := val 1 }
  | .atom _ o t _ _ =>
      { d := { role := .dst, kinds := [.zr, .vec, .uni], regs := t.regs, zrWide := true }, a := reg 2, b := val 1,
        c := atomSrc o t, uniRule := true }
  | .atoms _ o t _ =>
      { d := { role := .dst, kinds := [.zr, .vec, .uni], regs := t.regs, zrWide := true }, a := val 1, b := val 1,
        c := atomSrc o t, uniRule := true }
  | .red _ o t _ _ => { a := reg 2, b := val 1, c := atomSrc o t }
  | .atomAgg _ t _ =>
      { d := { role := .dst, kinds := [.zr, .vec], regs := t.regs, zrWide := true }, a := uniZr 2, b := uniImmZr,
        c := val t.regs, perLane := true }
  | .fenceAcq .. | .fenceRel .. | .fenceAcqRel .. | .bar .. | .gbar .. => {}
  | .sealVersion .. => { a := uniZr 1, b := { unis 1 with span := 16 } }
  | .baroInit .. => { a := val 1, b := val 1, c := uniImm }
  | .baroArrive .. => { d := outUni 1, a := val 1, b := val 1, c := uniImm }
  | .baroWait .. => { a := val 1, b := val 1, c := unis 1 }
  | .baroQuery .. => { d := outUni 1, a := val 1, b := val 1, c := unis 1 }
  | .waitc .. => { a := special, b := uniImm }
  -- R165 to R183
  | .fmtw .. => { d := outPred, a := reg 1 }
  | .mma .. | .mmaS .. =>
      { d := { role := .both, kinds := [.acc] }, a := convName, b := vecUni 4, c := vecUni 4, perLane := true }
  | .accz .. => { d := outAcc }
  | .accld .. => { d := outAcc, a := unis 2, b := uniImm }
  | .accst .. => { d := accSrc, a := unis 2, b := unis 4, c := immZr }
  | .accrd .. => { d := outVec 1, a := accSrc, b := unis 4, c := immZr, perLane := true }
  | .accwr .. => { d := outAcc, a := vecs 1, b := uniImm, perLane := true }
  | .scld .. => { a := unis 2, b := uniImm, c := uniImm }
  | .resAlloc .. => { d := outUni 1, a := uniImm }
  | .resLoad .. => { a := unis 2, b := unis 1, c := uniImm }
  | .resPin .. | .resQuery .. => { d := outUni 1, a := unis 1 }
  | .resUnpin .. | .resRevoke .. => { a := unis 1 }
  | .leave .. => { a := uniImm }
  -- R188 to R208
  | .tcopyG2s .. | .tcopyS2g .. =>
      { d := val 1, a := val 1, b := vecUni 2, c := { unis 2 with span := 10 } }
  | .tcopyG2g .. => { d := val 1, a := vecUni 2, b := vecUni 2, c := { unis 2 with span := 10 } }
  | .collAllreduce .. | .collAllgather .. | .collRedscat .. | .collBcast .. =>
      { d := val 1, a := unis 2, b := unis 2, c := unis 2 }
  | .wdq .. => { d := uniImmZr, a := val 1 }
  | .churnStart .. => { a := uniZr 1, b := { unis 1 with span := 16 } }
  | .churnStop .. => {}
  | .qpush .. => { d := { role := .name, kinds := [.spc] }, a := vecs 1, perLane := true }
  | .qpop .. | .qpeek .. => { d := outVec 1, a := special, b := outPred, perLane := true }
  | .emit .. => { a := uniImm, b := { role := .src, kinds := [.vec, .uni, .imm] }, c := val 1, perLane := true }
  | .frame .. => { a := unis 1 }
  | .cut .. => { d := outUni 1, a := unis 2, b := unis 1 }
  | .rechdr .. =>
      { d := outVec 4, a := { role := .src, kinds := [.vec, .uni, .imm] }, b := outPred, perLane := true }
  | .trisub .. => { a := vecUni 1, b := vecUni 1, c := imm, perLane := true }
  | .attr .. => { d := outVec 1, a := vecs 2, b := vecUni 1, c := imm, perLane := true }
  | .tex .. => { d := outVec 4, a := vecs 4, b := unis 2, c := reg 1, perLane := true }
  | .tld .. => { d := outVec 4, a := vecs 4, b := unis 2, c := vecUni 1, perLane := true }
  | .texv .. => { d := outVec 1, a := vecs 4, b := unis 2, perLane := true }
  | .mbin .. => { a := vecs 1, b := vecs 1, c := unis 1, perLane := true }
  -- R219 to R228
  | .trap .. => { fmt := .i16 }
  | .tret .. => { a := reg 1 }
  | .bkpt .. => { c := immZr }
  | .beacon .. => { a := uniImmZr }
  | .wassign .. => { d := outUni 1, a := unis 1, b := uniImm }
  | .scrub .. => { d := outUni 1, a := unis 1 }
  | .hashInit .. => { a := uniImmZr }
  | .hashUpd .. => { a := uniImmZr, b := uniImmZr, c := uniImm }
  | .hashFin .. => { a := uniImmZr, b := uniImmZr }
  | .mext .. => { a := uniImm, b := uniImmZr, c := uniImmZr }
  | .ecsig .. => { a := uniImm, b := uniImm }
  | .keyrel .. => { d := outUni 1, a := uniImmZr, b := uniImm, c := uniImm }
  | .certw .. => { d := outUni 1, a := unis 2, b := unis 1, c := imm }
  | .halt .. => { a := imm }
  -- events
  | .napExpiry .. | .loadDataArrival .. | .storeRegister .. | .atomicPerform .. | .mmaOperationComplete ..
  | .resLoadComplete .. | .residencyRehome .. | .leaveGrant .. | .copyEngineRun .. | .copyComplete ..
  | .collInstanceComplete .. | .workDistributorAnswer .. | .edgeRecordAccept .. | .triangleRasterise ..
  | .beaconMiss .. | .progressLimitDemotion .. | .qbell .. | .gangDispatch .. | .launchComplete ..
  | .preemptEvict .. | .gangRestore .. | .fatalTrap .. | .uncorrectableConsumed .. | .recoverableFault ..
  | .fqreplyRetry .. | .fqreplyRefuse .. | .scoutProbe .. | .warpKeeperExpiry .. | .commandKeeperExpiry ..
  | .recordWaveLaunch .. | .lastWaveLaunch .. | .gfopenWrite .. | .tolverDataFrame .. | .tolverParityFrame ..
  | .tolverKeysFrame .. | .tolverBuoyFrame .. | .tolverHandoverFrame .. | .tolverAckFrame ..
  | .tolverProposeFrame .. | .patienceExpiry .. | .predictorWaveRetire .. | .handoverSend ..
  | .subchannelResend .. | .doeRequest .. | .doeResponseCollect .. | .getVersion .. | .getCapabilities ..
  | .negotiateAlgorithms .. | .getDigests .. | .getCertificate .. | .challenge .. | .getMeasurements ..
  | .spdmUnsupportedRequest .. | .hostWindowWrite .. | .hostWindowRead .. | .cxlSnoop .. | .peerRequest ..
  | .linkError .. | .voteDisagree .. | .resyncComplete .. | .patrolRead .. | .powerMeasurement ..
  | .unitGate .. | .partReset .. | .shootdownMode0 .. | .shootdownMode1 .. | .wrekey .. | .hqclr ..
  | .dbgctlResume .. | .retadd .. | .retdel .. | .ctxidRegister .. | .ctxidDestroy .. | .qdescWrite ..
  | .graphbaseWrite .. | .rastbaseWrite .. | .evictWrite .. | .intstClear .. | .registerWrite ..
  | .discard .. | .wordNotAnInstruction .. | .trapAtFetch .. | .resultWritten ..
  | .accumulatorLoadStoreComplete .. | .fqheadWrite .. | .erheadWrite .. | .receivedFrameDropped ..
  | .softError .. => {}
where
  /-- Operand C of an atomic (R152): CAS takes compare and new value; a quad and a packed value take no short immediate (R54). -/
  atomSrc (o : AtomOp) (t : AtomTy) : Pos :=
    if o = .cas then (if t.regs = 2 then reg 4 else val 2)
    else match t with
      | .f16x2 | .bf16x2 => reg 1
      | .i32 | .n32 | .i64 | .n64 | .f32 | .f64 => val t.regs

/-! ## The fields of a word (R50, R52) -/

def Operand.bits (o : Operand) : BitVec 16 := (BitVec.ofNat 3 o.kind.code) ++ o.val
def Operand.ofBits (x : BitVec 16) : Operand :=
  { kind := Kind.ofCode (x.extractLsb' 13 3).toNat, val := x.extractLsb' 0 13 }

/-- The operand that field value 0x0000 encodes. -/
def Operand.zero : Operand := { kind := .zr, val := 0 }

/-- The fields of a word whose OP is not 0xE0. An imm16 stands in `c` and an imm32 in `b` and `c`, as the bits of an operand field. -/
structure Raw where
  op : Nat
  sub : Nat
  h : Hdr
  d : Operand
  a : Operand
  b : Operand
  c : Operand
  deriving DecidableEq, Repr

def Raw.imm16 (r : Raw) : BitVec 16 := r.c.bits
def Raw.imm32 (r : Raw) : BitVec 32 := r.b.bits ++ r.c.bits

def rawOps (op sub : Nat) (h : Hdr) (f : Ops) : Option Raw :=
  some { op, sub, h, d := f.d, a := f.a, b := f.b, c := f.c }
def rawH (op sub : Nat) (h : Hdr) (f : OpsH) : Option Raw :=
  some { op, sub, h, d := f.d, a := f.a, b := f.b, c := .ofBits f.imm }
def rawI (op sub : Nat) (h : Hdr) (f : OpsI) : Option Raw :=
  some { op, sub, h, d := f.d, a := f.a, b := .ofBits (f.imm.extractLsb' 16 16), c := .ofBits (f.imm.extractLsb' 0 16) }

def bit (b : Bool) (n : Nat) : Nat := if b then n else 0

/-- OP, SUB and fields of an instruction (R66 to R70); none for the paired word and for events. -/
def raw : Instr → Option Raw
  | .nop h f => rawOps 0x01 0 h f
  | .iadd h t f => rawOps 0x02 t.code h f
  | .iaddImm h t f => rawI 0x02 (t.code + 0x80) h f
  | .isub h t f => rawOps 0x03 t.code h f
  | .isubImm h t f => rawI 0x03 (t.code + 0x80) h f
  | .imul h t f => rawOps 0x04 t.code h f
  | .imulImm h t f => rawI 0x04 (t.code + 0x80) h f
  | .imulhi h t f => rawOps 0x05 t.code h f
  | .imad h t f => rawOps 0x06 t.code h f
  | .imadw h sgn f => rawOps 0x07 (bit (!sgn) 1) h f
  | .idiv h t f => rawOps 0x08 t.code h f
  | .irem h t f => rawOps 0x09 t.code h f
  | .imin h t f => rawOps 0x0A t.code h f
  | .iminImm h t f => rawI 0x0A (t.code + 0x80) h f
  | .imax h t f => rawOps 0x0B t.code h f
  | .imaxImm h t f => rawI 0x0B (t.code + 0x80) h f
  | .iabs h w f => rawOps 0x0C w.code h f
  | .ineg h w f => rawOps 0x0D w.code h f
  | .shl h w f => rawOps 0x0E w.code h f
  | .shr h w f => rawOps 0x0F w.code h f
  | .sar h w f => rawOps 0x10 w.code h f
  | .rot h w f => rawOps 0x11 w.code h f
  | .and h w f => rawOps 0x12 w.code h f
  | .andImm h w f => rawI 0x12 (w.code + 0x80) h f
  | .or h w f => rawOps 0x13 w.code h f
  | .orImm h w f => rawI 0x13 (w.code + 0x80) h f
  | .xor h w f => rawOps 0x14 w.code h f
  | .xorImm h w f => rawI 0x14 (w.code + 0x80) h f
  | .not h w f => rawOps 0x15 w.code h f
  | .bool3 h w f => rawH 0x16 w.code h f
  | .bfe h t f => rawOps 0x17 t.code h f
  | .bfi h w f => rawOps 0x18 w.code h f
  | .popc h w f => rawOps 0x19 w.code h f
  | .clz h w f => rawOps 0x1A w.code h f
  | .brev h w f => rawOps 0x1B w.code h f
  | .isetp h k t f => rawOps 0x1C (4 * k.code + t.code) h f
  | .icmp h k t f => rawOps 0x1D (4 * k.code + t.code) h f
  | .sel h w f => rawOps 0x1E w.code h f
  | .pset h o f => rawOps 0x1F o.code h f
  | .mov h w f => rawOps 0x20 w.code h f
  | .movi h f => rawI 0x21 0 h f
  | .lea h k f => rawOps 0x22 k.code h f
  | .bra h f => rawI 0x30 0 h f
  | .brx h f => rawOps 0x31 0 h f
  | .call h f => rawI 0x32 0 h f
  | .callReg h f => rawOps 0x32 1 h f
  | .ret h f => rawOps 0x33 0 h f
  | .exit h f => rawOps 0x34 0 h f
  | .loop h f => rawH 0x35 0 h f
  | .yield h f => rawOps 0x36 0 h f
  | .nap h f => rawH 0x37 0 h f
  | .decl h f => rawOps 0x38 0 h f
  | .cvsign h f => rawOps 0x39 0 h f
  | .role h f => rawH 0x3A 0 h f
  | .rdsr h f => rawOps 0x3B 0 h f
  | .wrsr h f => rawOps 0x3C 0 h f
  | .fadd h r f => rawOps 0x40 r.code h f
  | .fmul h r f => rawOps 0x41 r.code h f
  | .ffma h r f => rawOps 0x42 r.code h f
  | .fmin h f => rawOps 0x43 0 h f
  | .fmax h f => rawOps 0x44 0 h f
  | .fsetp h x k f => rawOps 0x45 (k.code + bit x 0x10) h f
  | .fcmp h x k f => rawOps 0x46 (k.code + bit x 0x10) h f
  | .frnd h r f => rawOps 0x47 r.code h f
  | .fclass h x f => rawOps 0x48 (bit x 0x10) h f
  | .dadd h r f => rawOps 0x49 r.code h f
  | .dmul h r f => rawOps 0x4A r.code h f
  | .dfma h r f => rawOps 0x4B r.code h f
  | .hadd2 h x r f => rawOps 0x4C (r.code + bit x 8) h f
  | .hmul2 h x r f => rawOps 0x4D (r.code + bit x 8) h f
  | .hfma2 h x r f => rawOps 0x4E (r.code + bit x 8) h f
  | .cvt h x y f => rawH 0x50 (16 * x.code + y.code) h f
  | .quant h r f => rawOps 0x51 r.code h f
  | .rcp h f => rawOps 0x52 0 h f
  | .rsq h f => rawOps 0x53 0 h f
  | .sqrt h f => rawOps 0x54 0 h f
  | .exp2 h f => rawOps 0x55 0 h f
  | .log2 h f => rawOps 0x56 0 h f
  | .sin h f => rawOps 0x57 0 h f
  | .cos h f => rawOps 0x58 0 h f
  | .tanh h f => rawOps 0x59 0 h f
  | .xlane h k f => rawOps 0x60 k.code h f
  | .poll h k f => rawOps 0x61 k.code h f
  | .redux h o t f => rawOps 0x62 (o.code + 8 * t.code) h f
  | .scan h o t x f => rawOps 0x63 (o.code + 8 * t.code + bit x 0x40) h f
  | .matchLanes h w f => rawOps 0x64 w.code h f
  | .elect h f => rawOps 0x65 0 h f
  | .ld h z n x f => rawOps 0x70 (z.code + bit n 8 + bit x 0x20) h f
  | .ldAcq h z x f => rawOps 0x70 (z.code + 0x10 + bit x 0x20) h f
  | .st h z f => rawOps 0x71 z.code h f
  | .stRel h z f => rawOps 0x71 (z.code + 0x10) h f
  | .lds h z x f => rawOps 0x72 (z.code + bit x 0x20) h f
  | .sts h z f => rawOps 0x73 z.code h f
  | .ldc h z f => rawOps 0x74 z.code h f
  | .ldb h z f => rawOps 0x75 z.code h f
  | .pref h f => rawOps 0x76 0 h f
  | .atom h o t k f => rawOps 0x77 (o.code + 8 * t.code + 64 * k.code) h f
  | .atoms h o t f => rawOps 0x78 (o.code + 8 * t.code) h f
  | .red h o t k f => rawOps 0x79 (o.code + 8 * t.code + bit k 0x80) h f
  | .atomAgg h t f => rawOps 0x7A t.code h f
  | .fenceAcq h f => rawOps 0x7B 1 h f
  | .fenceRel h f => rawOps 0x7B 2 h f
  | .fenceAcqRel h f => rawOps 0x7B 3 h f
  | .sealVersion h f => rawOps 0x7C 0 h f
  | .bar h f => rawOps 0x7D 0 h f
  | .gbar h f => rawOps 0x7E 0 h f
  | .baroInit h f => rawOps 0x7F 0 h f
  | .baroArrive h f => rawOps 0x7F 2 h f
  | .baroWait h f => rawOps 0x7F 3 h f
  | .baroQuery h f => rawOps 0x7F 4 h f
  | .waitc h f => rawOps 0x80 0 h f
  | .fmtw h f => rawOps 0x90 0 h f
  | .mma h f => rawOps 0x91 0 h f
  | .mmaS h f => rawOps 0x91 1 h f
  | .accz h f => rawOps 0x92 0 h f
  | .accld h f => rawOps 0x93 0 h f
  | .accst h f => rawOps 0x94 0 h f
  | .accrd h f => rawOps 0x95 0 h f
  | .accwr h f => rawOps 0x96 0 h f
  | .scld h f => rawOps 0x97 0 h f
  | .resAlloc h x f => rawOps 0x98 (bit x 8) h f
  | .resLoad h f => rawOps 0x98 1 h f
  | .resPin h f => rawOps 0x98 2 h f
  | .resUnpin h f => rawOps 0x98 3 h f
  | .resRevoke h f => rawOps 0x98 4 h f
  | .resQuery h f => rawOps 0x98 5 h f
  | .leave h f => rawOps 0x99 0 h f
  | .tcopyG2s h f => rawOps 0xA0 0 h f
  | .tcopyS2g h f => rawOps 0xA0 1 h f
  | .tcopyG2g h f => rawOps 0xA0 2 h f
  | .collAllreduce h x f => rawOps 0xA1 (bit x 4) h f
  | .collAllgather h x f => rawOps 0xA1 (1 + bit x 4) h f
  | .collRedscat h x f => rawOps 0xA1 (2 + bit x 4) h f
  | .collBcast h x f => rawOps 0xA1 (3 + bit x 4) h f
  | .wdq h f => rawOps 0xA2 0 h f
  | .churnStart h f => rawOps 0xA3 0 h f
  | .churnStop h f => rawOps 0xA3 1 h f
  | .qpush h f => rawOps 0xA4 0 h f
  | .qpop h f => rawOps 0xA5 0 h f
  | .qpeek h f => rawOps 0xA6 0 h f
  | .emit h f => rawOps 0xA7 0 h f
  | .frame h f => rawOps 0xA8 0 h f
  | .cut h f => rawOps 0xA9 0 h f
  | .rechdr h f => rawOps 0xAA 0 h f
  | .trisub h f => rawOps 0xAB 0 h f
  | .attr h f => rawOps 0xAC 0 h f
  | .tex h x l f => rawOps 0xAD (x.code + bit l 4) h f
  | .texv h t f => rawOps 0xAE (bit t 1) h f
  | .tld h x f => rawOps 0xAF x.code h f
  | .mbin h f => rawOps 0xB0 0 h f
  | .trap h f => rawH 0xC0 0 h f
  | .tret h f => rawOps 0xC1 0 h f
  | .bkpt h f => rawOps 0xC2 0 h f
  | .beacon h f => rawOps 0xC3 0 h f
  | .wassign h f => rawOps 0xC4 0 h f
  | .scrub h f => rawOps 0xC5 0 h f
  | .hashInit h f => rawOps 0xC6 0 h f
  | .hashUpd h f => rawOps 0xC6 1 h f
  | .hashFin h f => rawOps 0xC6 2 h f
  | .mext h f => rawOps 0xC7 0 h f
  | .ecsig h f => rawOps 0xC8 0 h f
  | .keyrel h f => rawOps 0xC9 0 h f
  | .certw h f => rawOps 0xCA 0 h f
  | .halt h f => rawOps 0xCB 0 h f
  | .pairedWord .. => none
  | .napExpiry .. | .loadDataArrival .. | .storeRegister .. | .atomicPerform .. | .mmaOperationComplete ..
  | .resLoadComplete .. | .residencyRehome .. | .leaveGrant .. | .copyEngineRun .. | .copyComplete ..
  | .collInstanceComplete .. | .workDistributorAnswer .. | .edgeRecordAccept .. | .triangleRasterise ..
  | .beaconMiss .. | .progressLimitDemotion .. | .qbell .. | .gangDispatch .. | .launchComplete ..
  | .preemptEvict .. | .gangRestore .. | .fatalTrap .. | .uncorrectableConsumed .. | .recoverableFault ..
  | .fqreplyRetry .. | .fqreplyRefuse .. | .scoutProbe .. | .warpKeeperExpiry .. | .commandKeeperExpiry ..
  | .recordWaveLaunch .. | .lastWaveLaunch .. | .gfopenWrite .. | .tolverDataFrame .. | .tolverParityFrame ..
  | .tolverKeysFrame .. | .tolverBuoyFrame .. | .tolverHandoverFrame .. | .tolverAckFrame ..
  | .tolverProposeFrame .. | .patienceExpiry .. | .predictorWaveRetire .. | .handoverSend ..
  | .subchannelResend .. | .doeRequest .. | .doeResponseCollect .. | .getVersion .. | .getCapabilities ..
  | .negotiateAlgorithms .. | .getDigests .. | .getCertificate .. | .challenge .. | .getMeasurements ..
  | .spdmUnsupportedRequest .. | .hostWindowWrite .. | .hostWindowRead .. | .cxlSnoop .. | .peerRequest ..
  | .linkError .. | .voteDisagree .. | .resyncComplete .. | .patrolRead .. | .powerMeasurement ..
  | .unitGate .. | .partReset .. | .shootdownMode0 .. | .shootdownMode1 .. | .wrekey .. | .hqclr ..
  | .dbgctlResume .. | .retadd .. | .retdel .. | .ctxidRegister .. | .ctxidDestroy .. | .qdescWrite ..
  | .graphbaseWrite .. | .rastbaseWrite .. | .evictWrite .. | .intstClear .. | .registerWrite ..
  | .discard .. | .wordNotAnInstruction .. | .trapAtFetch .. | .resultWritten ..
  | .accumulatorLoadStoreComplete .. | .fqheadWrite .. | .erheadWrite .. | .receivedFrameDropped ..
  | .softError .. => none

end Sys2Proof
end

