-- ==== Sys2Proof/Machine/Defects.lean ====
section
/-! DEFINITION. What keeps a word with allocated OP and SUB from being an instruction: `defects` lists it as (reason, field) of R56. -/

namespace Sys2Proof

/-- Numbers of the fields (R56). -/
abbrev fieldD : Nat := 0
abbrev fieldA : Nat := 1
abbrev fieldB : Nat := 2
abbrev fieldC : Nat := 3
abbrev fieldWord : Nat := 4

def Pos.writes (p : Pos) : Bool := p.role = .dst || p.role = .both
def Pos.reads (p : Pos) : Bool := p.role = .src || p.role = .both

/-- Whether the position accepts the operand's kind; `zr` is accepted as a destination of one register only, unless the entry lists it (R53). -/
def Pos.accepts (p : Pos) (o : Operand) : Bool :=
  decide (o.kind ∈ p.kinds) && !(p.writes && o.kind = .zr && decide (1 < p.regs) && !p.zrWide)

/-- What is wrong with operand `o` at position `p` of field `k` (R53, R54, R56). A short immediate as destination, and `pt` as a predicate destination, have reason 0x07 (log 21). -/
def Pos.defects (p : Pos) (k : Nat) (o : Operand) : List (Nat × Nat) :=
  if p.role = .unused then (if o = Operand.zero then [] else [(3, k)])
  else if p.writes && (o.kind = .imm || (o.kind = .prd && decide (.prd ∈ p.kinds) && o.val = 7)) then [(7, fieldD)]
  else if !p.accepts o then [(4, k)]
  else
    (if o.kind.limit < o.val.toNat || (o.kind = .spc && !specialNamed o.val.toNat) then [(5, k)] else []) ++
    (if (o.kind = .vec || o.kind = .uni) && o.val.toNat % p.regs != 0 then [(6, k)] else [])

/-- Whether a full/empty bit may be set for the position (R52, R56 reason 0x08). -/
def Pos.feAllowed (p : Pos) (o : Operand) : Bool :=
  p.reads && (o.kind = .vec || o.kind = .uni || o.kind = .acc)

/-- A short immediate in field `k` outside what the entry allows (reason 0x05). -/
def immDefect (k : Nat) (o : Operand) (ok : Int → Bool) : List (Nat × Nat) :=
  if o.kind = .imm && !ok o.val.toInt then [(5, k)] else []

/-- The control of CVT (R126) and its substitute (R127). -/
def cvtDefects (x y : CvtFmt) (d b : Operand) (c : Nat) : List (Nat × Nat) :=
  let ctl := if b.kind = .imm then b.val.toNat else 0
  let b8 := x = .b8 || y = .b8
  (if 255 < ctl || 4 < ctl / 32 || (b8 && ctl % 8 = 0) || (!b8 && ctl % 32 != 0) then [(5, fieldB)] else []) ++
  (if (match y with
      | .f64 | .f32 | .f16 | .bf16 => c != 0
      | .b8 | .e4m3 => 255 < c
      | .i32 | .n32 | .i64 | .n64 => 0x8000 < c) then [(3, fieldC)] else []) ++
  (if ctl / 32 % 8 = 4 && d.kind = .uni then [(4, fieldD)] else [])

/-- Conditions that single entries add (R28, R54, R104, R108, R109, R115, R116, R126, R134, R135, R162, R175, R183, R201, R208, R219, R227, R228). -/
def extraDefects : Instr → List (Nat × Nat)
  | .bool3 _ _ f => if 255 < f.imm.toNat then [(3, fieldC)] else []
  | .role _ f => if 7 < f.imm.toNat then [(3, fieldC)] else []
  | .pset _ _ f => immDefect fieldC f.c (fun v => 0 ≤ v && v ≤ 7)
  | .loop _ f => if f.d.kind != .uni && f.a.kind = .uni then [(4, fieldA)] else []
  -- R108 and R135 give any other kind in D reason 0x04, a short immediate too
  | .call _ f => linkDefect f.d
  | .callReg _ f => linkDefect f.d
  | .poll _ _ f => linkDefect f.d
  | .rdsr _ f =>
      (if f.a.kind = .spc && specialNamed f.a.val.toNat && !specialReg f.a.val.toNat then [(4, fieldA)] else []) ++
      (if f.a.kind = .spc && specialPerThread f.a.val.toNat && f.d.kind = .uni then [(4, fieldD)] else [])
  -- of a counter, oc.mem to oc.edge: 0x0C, as R27 and R28 mark it R, and not the 0x04 of R54's table: DESIGN CHOICE (log 21)
  | .wrsr _ f =>
      if f.d.kind = .spc then
        if specialReg f.d.val.toNat then (if specialWritable f.d.val.toNat then [] else [(0x0C, fieldD)])
        else if specialNamed f.d.val.toNat then [(4, fieldD)] else []
      else []
  | .cvt _ x y f => (if x = y then [(2, fieldWord)] else []) ++ cvtDefects x y f.d f.b f.imm.toNat
  | .xlane _ _ f => immDefect fieldC f.c (fun v => decide (v ∈ [1, 2, 4, 8, 16, 32, 64]))
  | .waitc _ f =>
      (if f.a.kind = .spc && !(0x40 ≤ f.a.val.toNat && f.a.val.toNat ≤ 0x44) then [(4, fieldA)] else []) ++
      immDefect fieldB f.b (fun v => 0 ≤ v && v ≤ 64)
  | .accst _ f | .accrd _ f => immDefect fieldC f.c (fun v => 0 ≤ v && v ≤ 255)
  | .leave _ f => immDefect fieldA f.a (fun v => 1 ≤ v && v ≤ 64)
  | .qpush _ f => queueDefect fieldD f.d
  | .qpop _ f | .qpeek _ f => queueDefect fieldA f.a
  | .trisub _ f => immDefect fieldC f.c (fun v => 0 ≤ v && v ≤ 3)
  | .attr _ f => immDefect fieldC f.c (fun v => 0 ≤ v && v ≤ 31)
  | .bkpt _ f => immDefect fieldC f.c (fun v => 0 ≤ v)
  | .certw _ f => immDefect fieldC f.c (fun v => 0 ≤ v && v ≤ 7)
  | .halt _ f => immDefect fieldA f.a (fun v => 0 ≤ v && v ≤ 1)
  -- SUB values that the types of the constructor admit and R67 to R69 do not
  | .redux _ o t _ | .scan _ o t _ _ => if o.hasTy t then [] else [(2, fieldWord)]
  | .ld _ z _ x _ | .ldAcq _ z x _ | .lds _ z x _ => if x && !(z = .b8 || z = .b16) then [(2, fieldWord)] else []
  | .ldc _ z _ => if z = .b8 || z = .b16 then [(2, fieldWord)] else []
  | .ldb _ z _ => if z = .b8 then [(2, fieldWord)] else []
  | .atom _ o t _ _ | .atoms _ o t _ => if o.hasTy t then [] else [(2, fieldWord)]
  | .red _ o t _ _ => if o.hasTy t && !(o = .exch || o = .cas) then [] else [(2, fieldWord)]
  | .nop .. | .iadd .. | .iaddImm .. | .isub .. | .isubImm .. | .imul .. | .imulImm .. | .imulhi .. | .imad ..
  | .imadw .. | .idiv .. | .irem .. | .iabs .. | .ineg .. | .imin .. | .iminImm .. | .imax .. | .imaxImm .. | .shl .. | .shr ..
  | .sar .. | .rot .. | .and .. | .andImm .. | .or .. | .orImm .. | .xor .. | .xorImm .. | .not .. | .bfe ..
  | .bfi .. | .popc .. | .clz .. | .brev .. | .isetp .. | .icmp .. | .sel .. | .mov .. | .movi .. | .lea ..
  | .bra .. | .brx .. | .ret .. | .exit .. | .yield .. | .nap .. | .decl .. | .cvsign ..
  | .fadd .. | .fmul .. | .ffma .. | .fmin .. | .fmax .. | .fsetp .. | .fcmp .. | .frnd .. | .fclass ..
  | .dadd .. | .dmul .. | .dfma .. | .hadd2 .. | .hmul2 .. | .hfma2 .. | .quant .. | .rcp .. | .rsq .. | .sqrt ..
  | .exp2 .. | .log2 .. | .sin .. | .cos .. | .tanh .. | .matchLanes .. | .elect .. | .pairedWord ..
  | .st .. | .stRel .. | .sts .. | .pref .. | .atomAgg .. | .fenceAcq .. | .fenceRel .. | .fenceAcqRel ..
  | .sealVersion .. | .bar .. | .gbar .. | .baroInit .. | .baroArrive .. | .baroWait .. | .baroQuery ..
  | .fmtw .. | .mma .. | .mmaS .. | .accz .. | .accld .. | .accwr .. | .scld .. | .resAlloc .. | .resLoad ..
  | .resPin .. | .resUnpin .. | .resRevoke .. | .resQuery .. | .tcopyG2s .. | .tcopyS2g .. | .tcopyG2g ..
  | .collAllreduce .. | .collAllgather .. | .collRedscat .. | .collBcast .. | .wdq .. | .churnStart ..
  | .churnStop .. | .emit .. | .frame .. | .cut .. | .rechdr .. | .tex .. | .texv .. | .tld .. | .mbin .. | .trap ..
  | .tret .. | .beacon .. | .wassign .. | .scrub .. | .hashInit .. | .hashUpd .. | .hashFin .. | .mext ..
  | .ecsig .. | .keyrel .. => []
  | .napExpiry .. | .loadDataArrival .. | .storeRegister .. | .atomicPerform .. | .mmaOperationComplete ..
  | .resLoadComplete .. | .residencyRehome .. | .leaveGrant .. | .copyEngineRun .. | .copyComplete ..
  | .collInstanceComplete .. | .workDistributorAnswer .. | .edgeRecordAccept .. | .triangleRasterise ..
  | .beaconMiss .. | .progressLimitDemotion .. | .qbell .. | .gangDispatch .. | .launchComplete ..
  | .preemptEvict .. | .gangRestore .. | .fatalTrap .. | .uncorrectableConsumed .. | .recoverableFault ..
  | .fqreplyRetry .. | .fqreplyRefuse .. | .scoutProbe .. | .warpKeeperExpiry .. | .commandKeeperExpiry ..
  | .recordWaveLaunch .. | .lastWaveLaunch .. | .gfopenWrite .. | .tolverDataFrame .. | .tolverParityFrame ..
  | .tolverKeysFrame .. | .tolverBuoyFrame .. | .tolverHandoverFrame .. | .tolverAckFrame ..
  | .tolverProposeFrame .. | .patienceExpiry .. | .predictorWaveRetire .. | .handoverSend ..
  | .subchannelResend .. | .doeRequest .. | .doeResponseCollect .. | .getVersion .. | .getCapabilities ..
  | .negotiateAlgorithms .. | .getDigests .. | .getCertificate .. | .challenge .. | .getMeasurements ..
  | .spdmUnsupportedRequest .. | .hostWindowWrite .. | .hostWindowRead .. | .cxlSnoop .. | .peerRequest ..
  | .linkError .. | .voteDisagree .. | .resyncComplete .. | .patrolRead .. | .powerMeasurement ..
  | .unitGate .. | .partReset .. | .shootdownMode0 .. | .shootdownMode1 .. | .wrekey .. | .hqclr ..
  | .dbgctlResume .. | .retadd .. | .retdel .. | .ctxidRegister .. | .ctxidDestroy .. | .qdescWrite ..
  | .graphbaseWrite .. | .rastbaseWrite .. | .evictWrite .. | .intstClear .. | .registerWrite ..
  | .discard .. | .wordNotAnInstruction .. | .trapAtFetch .. | .resultWritten ..
  | .accumulatorLoadStoreComplete .. | .fqheadWrite .. | .erheadWrite .. | .receivedFrameDropped ..
  | .softError .. => []
where
  /-- A short immediate where the entry names the only kinds D may have (R108, R135). -/
  linkDefect (o : Operand) : List (Nat × Nat) := if o.kind = .imm then [(4, fieldD)] else []
  queueDefect (k : Nat) (o : Operand) : List (Nat × Nat) :=
    if o.kind = .spc && specialReg o.val.toNat then [(4, k)] else []

/-- A uniform destination of an ordinary operation needs every source uniform, `zr` or an immediate (R53). -/
def uniDefect (sh : Shape) (r : Raw) : List (Nat × Nat) :=
  let lane (p : Pos) (o : Operand) : Bool := p.reads && (o.kind = .vec || o.kind = .prd)
  if sh.uniRule && r.d.kind = .uni && (lane sh.a r.a || lane sh.b r.b || lane sh.c r.c) then [(4, fieldD)] else []

/-- Everything wrong with the fields of a word of shape `sh`. -/
def rawDefects (sh : Shape) (r : Raw) : List (Nat × Nat) :=
  let bc := sh.fmt = .i32
  (if r.h.gn && r.h.gp = 7 then [(0x0B, fieldWord)] else []) ++
  sh.d.defects fieldD r.d ++ sh.a.defects fieldA r.a ++
  (if bc then [] else sh.b.defects fieldB r.b) ++
  (if bc || sh.fmt = .i16 then [] else sh.c.defects fieldC r.c) ++
  (if r.h.fea && !sh.a.feAllowed r.a then [(8, fieldA)] else []) ++
  (if r.h.feb && (bc || !sh.b.feAllowed r.b) then [(8, fieldB)] else []) ++
  (if r.h.fec && (sh.fmt != .ops || !sh.c.feAllowed r.c) then [(8, fieldC)] else []) ++
  (if r.h.emk && !(sh.d.role != .unused && (r.d.kind = .vec || r.d.kind = .uni) && sh.d.regs ≤ 2) then [(9, fieldD)] else []) ++
  uniDefect sh r

/-- The conditions of a paired word (R61, R62). -/
def pairDefects (h : PairHdr) (x y : Half) : List (Nat × Nat) :=
  let distinct := [x.a, x.b, y.a, y.b].eraseDups.length
  (if h.gn && h.gp = 7 then [(0x0B, fieldWord)] else []) ++
  (if x.d.toNat % 4 = y.d.toNat % 4 || 3 < distinct || x.a = y.d || x.b = y.d || y.a = x.d || y.b = x.d ||
      (x.op.unary && (x.a != x.b || h.fexa != h.fexb)) || (y.op.unary && (y.a != y.b || h.feya != h.feyb))
    then [(0x0A, fieldWord)] else [])

/-- All defects of an instruction as it stands; an event has none. -/
def defects (i : Instr) : List (Nat × Nat) :=
  match i with
  | .pairedWord h x y => pairDefects h x y
  | i => (match raw i with
      | some r => rawDefects (shape i) r
      | none => []) ++ extraDefects i

/-- The defect reported: lowest reason, then lowest field (R56). -/
def worst : List (Nat × Nat) → Option (Nat × Nat)
  | [] => none
  | x :: xs => match worst xs with
    | none => some x
    | some y => if y.1 < x.1 || (y.1 = x.1 && y.2 < x.2) then some y else some x

end Sys2Proof
end

