-- ==== Sys2Proof/WellFormed.lean ====
section
/-! DEFINITION. Well-formed instructions: those that some word encodes (`defects`, in Machine/Defects.lean, is the table of conditions). -/

namespace Sys2Proof

/-- Whether the instruction has a word, and that word is an instruction. -/
def Instr.wf (i : Instr) : Bool := (defects i).isEmpty

/-- Whether a row of the table has an instruction word. -/
def Instr.encoded : Instr → Bool
  | .pairedWord .. => true
  | i => (raw i).isSome

end Sys2Proof
end

