-- ==== Sys2Proof/Decode.lean ====
section
/-! DEFINITION. Decoding (R50 to R71), total on every 96-bit word, refusing by reason and field (R56); the encoder; the word as bytes (R51). -/

namespace Sys2Proof

/-! ## From OP and SUB to a constructor -/

/-- Why a word is not an instruction (R56). -/
structure NotInstr where
  reason : Nat
  field : Nat
  deriving DecidableEq, Repr

/-- Result of reading OP and SUB: `none` for an OP that is not allocated, `some none` for a SUB that is not. -/
abbrev Built := Option (Option Instr)

def Raw.ops (r : Raw) : Ops := { d := r.d, a := r.a, b := r.b, c := r.c }
def Raw.opsH (r : Raw) : OpsH := { d := r.d, a := r.a, b := r.b, imm := r.imm16 }
def Raw.opsI (r : Raw) : OpsI := { d := r.d, a := r.a, imm := r.imm32 }

/-- SUB 0 only (scheme Z). -/
def onlyZero (r : Raw) (i : Instr) : Built := some (if r.sub = 0 then some i else none)

/-- Bit n of the SUB, and the SUB without its bits from n up. -/
def subBit (r : Raw) (n : Nat) : Bool := r.sub / 2 ^ n % 2 = 1

/-- Scheme +I: the register form below 0x80, the immediate form from there. -/
def withImm {α : Type} (r : Raw) (code : Nat → Option α) (f : α → Instr) (g : α → Instr) : Built :=
  some (if r.sub < 0x80 then (code r.sub).map f else (code (r.sub - 0x80)).map g)

/-- The instruction of an OP and SUB (R66 to R70). -/
def build (r : Raw) : Built :=
  let h := r.h
  let f := r.ops
  match r.op with
  | 0x01 => onlyZero r (.nop h f)
  | 0x02 => withImm r ITy.ofCode (.iadd h · f) (.iaddImm h · r.opsI)
  | 0x03 => withImm r ITy.ofCode (.isub h · f) (.isubImm h · r.opsI)
  | 0x04 => withImm r ITy.ofCode (.imul h · f) (.imulImm h · r.opsI)
  | 0x05 => some ((ITy.ofCode r.sub).map (.imulhi h · f))
  | 0x06 => some ((ITy.ofCode r.sub).map (.imad h · f))
  | 0x07 => some (match r.sub with
      | 0 => some (.imadw h true f)
      | 1 => some (.imadw h false f)
      | _ => none)
  | 0x08 => some ((ITy.ofCode r.sub).map (.idiv h · f))
  | 0x09 => some ((ITy.ofCode r.sub).map (.irem h · f))
  | 0x0A => withImm r ITy.ofCode (.imin h · f) (.iminImm h · r.opsI)
  | 0x0B => withImm r ITy.ofCode (.imax h · f) (.imaxImm h · r.opsI)
  | 0x0C => some ((Wd.ofCode r.sub).map (.iabs h · f))
  | 0x0D => some ((Wd.ofCode r.sub).map (.ineg h · f))
  | 0x0E => some ((Wd.ofCode r.sub).map (.shl h · f))
  | 0x0F => some ((Wd.ofCode r.sub).map (.shr h · f))
  | 0x10 => some ((Wd.ofCode r.sub).map (.sar h · f))
  | 0x11 => some ((Wd.ofCode r.sub).map (.rot h · f))
  | 0x12 => withImm r Wd.ofCode (.and h · f) (.andImm h · r.opsI)
  | 0x13 => withImm r Wd.ofCode (.or h · f) (.orImm h · r.opsI)
  | 0x14 => withImm r Wd.ofCode (.xor h · f) (.xorImm h · r.opsI)
  | 0x15 => some ((Wd.ofCode r.sub).map (.not h · f))
  | 0x16 => some ((Wd.ofCode r.sub).map (.bool3 h · r.opsH))
  | 0x17 => some ((ITy.ofCode r.sub).map (.bfe h · f))
  | 0x18 => some ((Wd.ofCode r.sub).map (.bfi h · f))
  | 0x19 => some ((Wd.ofCode r.sub).map (.popc h · f))
  | 0x1A => some ((Wd.ofCode r.sub).map (.clz h · f))
  | 0x1B => some ((Wd.ofCode r.sub).map (.brev h · f))
  | 0x1C => some ((Cond.ofCode (r.sub / 4)).bind fun k => (ITy.ofCode (r.sub % 4)).map (.isetp h k · f))
  | 0x1D => some ((Cond.ofCode (r.sub / 4)).bind fun k => (ITy.ofCode (r.sub % 4)).map (.icmp h k · f))
  | 0x1E => some ((Wd.ofCode r.sub).map (.sel h · f))
  | 0x1F => some ((PsetOp.ofCode r.sub).map (.pset h · f))
  | 0x20 => some ((Wd.ofCode r.sub).map (.mov h · f))
  | 0x21 => onlyZero r (.movi h r.opsI)
  | 0x22 => some ((LeaShift.ofCode r.sub).map (.lea h · f))
  | 0x30 => onlyZero r (.bra h r.opsI)
  | 0x31 => onlyZero r (.brx h f)
  | 0x32 => some (match r.sub with
      | 0 => some (.call h r.opsI)
      | 1 => some (.callReg h f)
      | _ => none)
  | 0x33 => onlyZero r (.ret h f)
  | 0x34 => onlyZero r (.exit h f)
  | 0x35 => onlyZero r (.loop h r.opsH)
  | 0x36 => onlyZero r (.yield h f)
  | 0x37 => onlyZero r (.nap h r.opsH)
  | 0x38 => onlyZero r (.decl h f)
  | 0x39 => onlyZero r (.cvsign h f)
  | 0x3A => onlyZero r (.role h r.opsH)
  | 0x3B => onlyZero r (.rdsr h f)
  | 0x3C => onlyZero r (.wrsr h f)
  | 0x40 => some ((RndA.ofCode r.sub).map (.fadd h · f))
  | 0x41 => some ((RndA.ofCode r.sub).map (.fmul h · f))
  | 0x42 => some ((RndA.ofCode r.sub).map (.ffma h · f))
  | 0x43 => onlyZero r (.fmin h f)
  | 0x44 => onlyZero r (.fmax h f)
  | 0x45 => some (if r.sub < 0x20 then (FCond.ofCode (r.sub % 16)).map (.fsetp h (subBit r 4) · f) else none)
  | 0x46 => some (if r.sub < 0x20 then (FCond.ofCode (r.sub % 16)).map (.fcmp h (subBit r 4) · f) else none)
  | 0x47 => some ((RndA.ofCode r.sub).map (.frnd h · f))
  | 0x48 => some (match r.sub with
      | 0 => some (.fclass h false f)
      | 0x10 => some (.fclass h true f)
      | _ => none)
  | 0x49 => some ((RndA.ofCode r.sub).map (.dadd h · f))
  | 0x4A => some ((RndA.ofCode r.sub).map (.dmul h · f))
  | 0x4B => some ((RndA.ofCode r.sub).map (.dfma h · f))
  | 0x4C => some (if r.sub < 16 then (RndA.ofCode (r.sub % 8)).map (.hadd2 h (subBit r 3) · f) else none)
  | 0x4D => some (if r.sub < 16 then (RndA.ofCode (r.sub % 8)).map (.hmul2 h (subBit r 3) · f) else none)
  | 0x4E => some (if r.sub < 16 then (RndA.ofCode (r.sub % 8)).map (.hfma2 h (subBit r 3) · f) else none)
  | 0x50 => some ((CvtFmt.ofCode (r.sub / 16)).bind fun x =>
      (CvtFmt.ofCode (r.sub % 16)).bind fun y => if x = y then none else some (.cvt h x y r.opsH))
  | 0x51 => some ((Rnd.ofCode r.sub).map (.quant h · f))
  | 0x52 => onlyZero r (.rcp h f)
  | 0x53 => onlyZero r (.rsq h f)
  | 0x54 => onlyZero r (.sqrt h f)
  | 0x55 => onlyZero r (.exp2 h f)
  | 0x56 => onlyZero r (.log2 h f)
  | 0x57 => onlyZero r (.sin h f)
  | 0x58 => onlyZero r (.cos h f)
  | 0x59 => onlyZero r (.tanh h f)
  | 0x60 => some ((LaneFn.ofCode r.sub).map (.xlane h · f))
  | 0x61 => some ((PollOp.ofCode r.sub).map (.poll h · f))
  | 0x62 => some (if r.sub < 0x40 then
      (RedOp.ofCode (r.sub % 8)).bind fun o => (RedTy.ofCode (r.sub / 8)).bind fun t =>
        if o.hasTy t then some (.redux h o t f) else none
      else none)
  | 0x63 => some (if r.sub < 0x80 then
      (RedOp.ofCode (r.sub % 8)).bind fun o => (RedTy.ofCode (r.sub / 8 % 8)).bind fun t =>
        if o.hasTy t then some (.scan h o t (subBit r 6) f) else none
      else none)
  | 0x64 => some ((Wd.ofCode r.sub).map (.matchLanes h · f))
  | 0x65 => onlyZero r (.elect h f)
  | 0x70 => some (if r.sub < 0x40 then
      (Size.ofCode (r.sub % 8)).bind fun z =>
        if subBit r 5 && !(z = .b8 || z = .b16) then none
        else if subBit r 4 then (if subBit r 3 then none else some (.ldAcq h z (subBit r 5) f))
        else some (.ld h z (subBit r 3) (subBit r 5) f)
      else none)
  | 0x71 => some (if r.sub < 0x20 && !subBit r 3 then
      (Size.ofCode (r.sub % 8)).map fun z => if subBit r 4 then .stRel h z f else .st h z f
      else none)
  | 0x72 => some (if r.sub < 0x40 && !subBit r 3 && !subBit r 4 then
      (Size.ofCode (r.sub % 8)).bind fun z =>
        if subBit r 5 && !(z = .b8 || z = .b16) then none else some (.lds h z (subBit r 5) f)
      else none)
  | 0x73 => some ((Size.ofCode r.sub).map (.sts h · f))
  | 0x74 => some ((Size.ofCode r.sub).bind fun z => if z = .b8 || z = .b16 then none else some (.ldc h z f))
  | 0x75 => some ((Size.ofCode r.sub).bind fun z => if z = .b8 then none else some (.ldb h z f))
  | 0x76 => onlyZero r (.pref h f)
  | 0x77 => some ((AtomOp.ofCode (r.sub % 8)).bind fun o => (AtomTy.ofCode (r.sub / 8 % 8)).bind fun t =>
      (AtomOrd.ofCode (r.sub / 64)).bind fun k => if o.hasTy t then some (.atom h o t k f) else none)
  | 0x78 => some (if r.sub < 0x40 then
      (AtomOp.ofCode (r.sub % 8)).bind fun o => (AtomTy.ofCode (r.sub / 8)).bind fun t =>
        if o.hasTy t then some (.atoms h o t f) else none
      else none)
  | 0x79 => some (if subBit r 6 then none else
      (AtomOp.ofCode (r.sub % 8)).bind fun o => (AtomTy.ofCode (r.sub / 8 % 8)).bind fun t =>
        if o.hasTy t && !(o = .exch || o = .cas) then some (.red h o t (subBit r 7) f) else none)
  | 0x7A => some ((ITy.ofCode r.sub).map (.atomAgg h · f))
  | 0x7B => some (match r.sub with
      | 1 => some (.fenceAcq h f)
      | 2 => some (.fenceRel h f)
      | 3 => some (.fenceAcqRel h f)
      | _ => none)
  | 0x7C => onlyZero r (.sealVersion h f)
  | 0x7D => onlyZero r (.bar h f)
  | 0x7E => onlyZero r (.gbar h f)
  | 0x7F => some (match r.sub with
      | 0 => some (.baroInit h f)
      | 2 => some (.baroArrive h f)
      | 3 => some (.baroWait h f)
      | 4 => some (.baroQuery h f)
      | _ => none)
  | 0x80 => onlyZero r (.waitc h f)
  | 0x90 => onlyZero r (.fmtw h f)
  | 0x91 => some (match r.sub with
      | 0 => some (.mma h f)
      | 1 => some (.mmaS h f)
      | _ => none)
  | 0x92 => onlyZero r (.accz h f)
  | 0x93 => onlyZero r (.accld h f)
  | 0x94 => onlyZero r (.accst h f)
  | 0x95 => onlyZero r (.accrd h f)
  | 0x96 => onlyZero r (.accwr h f)
  | 0x97 => onlyZero r (.scld h f)
  | 0x98 => some (match r.sub with
      | 0 => some (.resAlloc h false f)
      | 8 => some (.resAlloc h true f)
      | 1 => some (.resLoad h f)
      | 2 => some (.resPin h f)
      | 3 => some (.resUnpin h f)
      | 4 => some (.resRevoke h f)
      | 5 => some (.resQuery h f)
      | _ => none)
  | 0x99 => onlyZero r (.leave h f)
  | 0xA0 => some (match r.sub with
      | 0 => some (.tcopyG2s h f)
      | 1 => some (.tcopyS2g h f)
      | 2 => some (.tcopyG2g h f)
      | _ => none)
  | 0xA1 => some (if r.sub < 8 then
      (match r.sub % 4 with
        | 0 => some (.collAllreduce h (subBit r 2) f)
        | 1 => some (.collAllgather h (subBit r 2) f)
        | 2 => some (.collRedscat h (subBit r 2) f)
        | _ => some (.collBcast h (subBit r 2) f))
      else none)
  | 0xA2 => onlyZero r (.wdq h f)
  | 0xA3 => some (match r.sub with
      | 0 => some (.churnStart h f)
      | 1 => some (.churnStop h f)
      | _ => none)
  | 0xA4 => onlyZero r (.qpush h f)
  | 0xA5 => onlyZero r (.qpop h f)
  | 0xA6 => onlyZero r (.qpeek h f)
  | 0xA7 => onlyZero r (.emit h f)
  | 0xA8 => onlyZero r (.frame h f)
  | 0xA9 => onlyZero r (.cut h f)
  | 0xAA => onlyZero r (.rechdr h f)
  | 0xAB => onlyZero r (.trisub h f)
  | 0xAC => onlyZero r (.attr h f)
  | 0xAD => some (if r.sub < 8 then (TexDim.ofCode (r.sub % 4)).map (.tex h · (subBit r 2) f) else none)
  | 0xAE => some (match r.sub with
      | 0 => some (.texv h false f)
      | 1 => some (.texv h true f)
      | _ => none)
  | 0xAF => some ((TexDim.ofCode r.sub).map (.tld h · f))
  | 0xB0 => onlyZero r (.mbin h f)
  | 0xC0 => onlyZero r (.trap h r.opsH)
  | 0xC1 => onlyZero r (.tret h f)
  | 0xC2 => onlyZero r (.bkpt h f)
  | 0xC3 => onlyZero r (.beacon h f)
  | 0xC4 => onlyZero r (.wassign h f)
  | 0xC5 => onlyZero r (.scrub h f)
  | 0xC6 => some (match r.sub with
      | 0 => some (.hashInit h f)
      | 1 => some (.hashUpd h f)
      | 2 => some (.hashFin h f)
      | _ => none)
  | 0xC7 => onlyZero r (.mext h f)
  | 0xC8 => onlyZero r (.ecsig h f)
  | 0xC9 => onlyZero r (.keyrel h f)
  | 0xCA => onlyZero r (.certw h f)
  | 0xCB => onlyZero r (.halt h f)
  | _ => none

/-! ## Words -/

/-- Field of `n` bits from bit `k` (R50). -/
abbrev bits (w : IWord) (k n : Nat) : BitVec n := w.extractLsb' k n

def bitAt (w : IWord) (k : Nat) : Bool := w.getLsbD k

def hdrOf (w : IWord) : Hdr :=
  { gn := bitAt w 79, gp := bits w 76 3, fec := bitAt w 75, feb := bitAt w 74, fea := bitAt w 73,
    heat := bits w 69 4, div := bitAt w 68, wbl := bitAt w 67, wbe := bitAt w 66, emk := bitAt w 65 }

def rawOf (w : IWord) : Raw :=
  { op := (bits w 88 8).toNat, sub := (bits w 80 8).toNat, h := hdrOf w,
    d := .ofBits (bits w 48 16), a := .ofBits (bits w 32 16), b := .ofBits (bits w 16 16), c := .ofBits (bits w 0 16) }

def pairHdrOf (w : IWord) : PairHdr :=
  { feyb := bitAt w 87, feya := bitAt w 86, fexb := bitAt w 85, fexa := bitAt w 84, gn := bitAt w 79,
    gp := bits w 76 3, heat := bits w 69 4, div := bitAt w 68, wby := bitAt w 67, wbx := bitAt w 66 }

/-- What is wrong with the reserved bits of a paired word (R61); bits 63 and 31, which lie in a field's range of an ordinary word, report the word as a whole too: DESIGN CHOICE (log 58). -/
def pairRsv (w : IWord) : List (Nat × Nat) :=
  if bits w 80 4 != 0 || bits w 73 3 != 0 || bits w 63 3 != 0 || bitAt w 31 then [(3, fieldWord)] else []

/-- A paired word (R61 to R63). -/
def decodePair (w : IWord) : Except NotInstr Instr :=
  let h := pairHdrOf w
  let guard := if h.gn && h.gp = 7 then [(0x0B, fieldWord)] else []
  match PairOp.ofCode (bits w 56 7).toNat, PairOp.ofCode (bits w 24 7).toNat with
  | some xo, some yo =>
    let x : Half := { op := xo, d := bits w 48 8, a := bits w 40 8, b := bits w 32 8 }
    let y : Half := { op := yo, d := bits w 16 8, a := bits w 8 8, b := bits w 0 8 }
    match worst (pairRsv w ++ pairDefects h x y) with
    | some (r, k) => .error { reason := r, field := k }
    | none => .ok (.pairedWord h x y)
  | _, _ =>
    match worst (pairRsv w ++ guard ++ [(0x0A, fieldWord)]) with
    | some (r, k) => .error { reason := r, field := k }
    | none => .error { reason := 0x0A, field := fieldWord }

/-- The instruction a word holds, or why it is none (R55 step 2, R56). -/
def decode (w : IWord) : Except NotInstr Instr :=
  if bits w 88 8 = 0xE0 then decodePair w
  else match build (rawOf w) with
    | none => .error { reason := 1, field := fieldWord }
    | some none => .error { reason := 2, field := fieldWord }
    | some (some i) =>
      match worst ((if bitAt w 64 then [(3, fieldWord)] else []) ++ defects i) with
      | some (r, k) => .error { reason := r, field := k }
      | none => .ok i

def bit1 (b : Bool) : BitVec 1 := BitVec.ofBool b

/-- The bits 79:64 of a word (R50). -/
def hdrBits (h : Hdr) : BitVec 16 :=
  bit1 h.gn ++ h.gp ++ bit1 h.fec ++ bit1 h.feb ++ bit1 h.fea ++ h.heat ++ bit1 h.div ++ bit1 h.wbl ++
    bit1 h.wbe ++ bit1 h.emk ++ (0 : BitVec 1)

def Raw.word (r : Raw) : IWord :=
  BitVec.ofNat 8 r.op ++ BitVec.ofNat 8 r.sub ++ hdrBits r.h ++ r.d.bits ++ r.a.bits ++ r.b.bits ++ r.c.bits

def pairWordOf (h : PairHdr) (x y : Half) : IWord :=
  (0xE0 : BitVec 8) ++ bit1 h.feyb ++ bit1 h.feya ++ bit1 h.fexb ++ bit1 h.fexa ++ (0 : BitVec 4) ++
    bit1 h.gn ++ h.gp ++ (0 : BitVec 3) ++ h.heat ++ bit1 h.div ++ bit1 h.wby ++ bit1 h.wbx ++ (0 : BitVec 3) ++
    BitVec.ofNat 7 x.op.code ++ x.d ++ x.a ++ x.b ++ (0 : BitVec 1) ++ BitVec.ofNat 7 y.op.code ++ y.d ++ y.a ++ y.b

/-- The word of an instruction; events have none. -/
def encode (i : Instr) : Option IWord :=
  match i with
  | .pairedWord h x y => some (pairWordOf h x y)
  | i => (raw i).map Raw.word

/-- Byte k of a word holds bits 8k+7:8k (R51). -/
def wordByte (w : IWord) (k : Nat) : Byte := w.extractLsb' (8 * k) 8

/-- The word of twelve bytes at ascending addresses (R51). -/
def wordOfBytes (bs : List Byte) : IWord :=
  bs.foldr (fun b (acc : IWord) => acc * 256#96 + b.setWidth 96) 0

/-- The bytes of a word (R51). -/
def wordBytes (w : IWord) : List Byte := (List.range 12).map (wordByte w)

/-- The instruction in a word given as the table numbers its bits; one word of 96 bits, its parcels little-endian, so bit n of the table is bit n of the word. -/
def decodeTableWord (nbits w : Nat) : Option Instr :=
  match decode (wordOfBytes (wordBytes (BitVec.ofNat 96 (w % 2 ^ nbits)))) with
  | .ok i => some i
  | .error _ => none

end Sys2Proof
end

