-- ==== Sys2Proof/Machine/Saved.lean ====
section
/-! DEFINITION. The in-flight record as eviction writes it (R282), and the images of a warp and a block that eviction saves and a halt captures (R279, R280, R414; log 30). -/

namespace Sys2Proof.Machine

/-! ## The in-flight record (R282) -/

/-- Operations whose operand block holds the registers read at issue. -/
def keepsRegs : Instr → Bool
  | .tcopyG2s .. | .tcopyS2g .. | .tcopyG2g .. | .collAllreduce .. | .collAllgather .. | .collRedscat .. | .collBcast ..
  | .mma .. | .mmaS .. => true
  | _ => false

/-- Operations whose progress an entry holds. -/
def keepsProg : Instr → Bool
  | .tcopyG2s .. | .tcopyS2g .. | .tcopyG2g .. | .mma .. | .mmaS .. => true
  | _ => false

/-- Operations that declare bytes on a barrier object. -/
def declares : Instr → Bool
  | .tcopyG2s .. | .tcopyS2g .. | .tcopyG2g .. | .collAllreduce .. | .collAllgather .. | .collRedscat .. | .collBcast ..
  | .wdq .. => true
  | _ => false

/-- The code of a counter; 5 for an entry that counts in none. -/
def ctrCode : Option Ctr → Nat
  | some .mem => 0
  | some .copy => 1
  | some .mat => 2
  | some .coll => 3
  | some .edge => 4
  | none => 5

def Sent.code : Sent → Nat
  | .notSent => 0
  | .sent => 1
  | .faulted => 2

/-- The 256 bits of an entry. -/
def Op.entryBits (o : Op) : Nat :=
  o.lanes.toNat * 2 ^ 192 + o.pc.toNat * 2 ^ 160 + (if keepsProg o.ins then o.prog % 2 ^ 32 else 0) * 2 ^ 128 +
    (o.opblk.getD 0xFFFF) * 2 ^ 112 + o.state.code * 2 ^ 110 + ctrCode o.ctr * 2 ^ 107 +
    (if declares o.ins && o.decl then 2 ^ 106 else 0) + ((encode o.ins).map fun w => w.toNat).getD 0

/-- The 32 bytes of a lane's slot: address, data, sequence number, zeros. -/
def Slot.bytes (x : Slot) : List Byte :=
  bytesOfNat 8 x.addr ++ bytesOfNat 16 x.data.toNat ++ bytesOfNat 4 (x.tag.toNat % 2 ^ 20) ++ bytesOfNat 4 0

/-- The operand block of an entry: one slot for each of its lanes, or the operand registers. -/
def Op.block (o : Op) : List Byte :=
  if keepsRegs o.ins then (o.regs.map fun x => bytesOfNat 4 x.toNat).flatten
  else ((lanesOf o.lanes).map fun l => match o.slots.find? fun x => x.lane == l with
    | some x => x.bytes
    | none => bytesOfNat 32 0).flatten

/-- The outstanding operations of a warp become entries, each with an operand block where it has operands (R280 step 4). -/
def Warp.enterRecord (w : Warp) : Warp :=
  let enter (e : Op × Nat) : Op := { e.1 with opblk := if e.1.finished || (e.1.slots = [] && e.1.regs = []) then none else some e.2 }
  { w with ops := w.ops.zipIdx.map enter }

/-! ## Images (R279, R280 steps 5 and 6): parts in the order in which R279 adds them up; what R279 gives no place of its own is free -/

def byteOf (x k : Nat) : Byte := .ofNat 8 (x / 256 ^ k)

/-- Bytes of a warp's image. -/
def SavedWarp.size (x : SavedWarp) : Nat := 4 * x.nv * x.warp.width + 4 * x.nu + 2048 + 2048 * x.warp.width + 4096

/-- Byte `k` of a warp's image: vector registers, uniform registers, record, operand blocks, and the rest. -/
def SavedWarp.byte (stamp place : Nat) (x : SavedWarp) (k : Nat) : Byte :=
  let w := x.warp
  let v := 4 * x.nv * w.width
  let u := v + 4 * x.nu
  let r := u + 2048
  let b := r + 2048 * w.width
  if k < v then byteOf (w.vreg (k / 4 / w.width) (k / 4 % w.width)).val.toNat (k % 4)
  else if k < u then byteOf (w.ureg ((k - v) / 4)).val.toNat ((k - v) % 4)
  else if k < r then byteOf (((w.ops.filter fun o => !o.finished)[(k - u) / 32]?.map Op.entryBits).getD 0) ((k - u) % 32)
  else if k < b then
    let n := (k - r) / (32 * w.width)
    (((w.ops.find? fun o => o.opblk == some n).map Op.block).getD []).getD ((k - r) % (32 * w.width)) 0
  else Config.captureByte stamp (place + k)

/-- Bytes of a block's image. -/
def SavedBlock.length (x : SavedBlock) : Nat :=
  x.size + 16384 + (if 1 ≤ x.tiles then x.parts.length * (4096 * x.tiles + 4096) else 0)

/-- Byte `k` of a block's image: scratchpad, the rest, and for each partition its accumulator tiles and its scale store. -/
def SavedBlock.byte (stamp place : Nat) (x : SavedBlock) (k : Nat) : Byte :=
  let rest := x.size + 16384
  if k < x.size then x.block.scratch.byte k
  else if k < rest then Config.captureByte stamp (place + k)
  else
    let per := 4096 * x.tiles + 4096
    let p := x.parts.getD ((k - rest) / per) 0
    let j := (k - rest) % per
    if j < 4096 * x.tiles then byteOf (Store.get 0 x.block.acc (p * 4096 + j / 4)).toNat (j % 4)
    else x.block.scale.byte (p * 4096 + (j - 4096 * x.tiles))

/-- An image: its length and its bytes from a place on. -/
structure Image where
  world : Nat
  length : Nat
  byte : Nat → Nat → Byte

def SavedWarp.image (stamp : Nat) (x : SavedWarp) : Image := { world := x.world, length := x.size, byte := fun p k => x.byte stamp p k }
def SavedBlock.image (stamp : Nat) (x : SavedBlock) : Image := { world := x.world, length := x.length, byte := fun p k => x.byte stamp p k }

/-- Byte `k` of images that stand one behind the other, those of a hidden world reading as zero; 0 behind the last. -/
def imagesByte (hidden : Nat → Bool) : Nat → List Image → Nat → Byte
  | _, [], _ => 0
  | place, x :: xs, k =>
    if k < x.length then (if hidden x.world then 0 else x.byte place k)
    else imagesByte hidden (place + x.length) xs (k - x.length)

/-- A list in the order of a key. -/
def sortOn {α : Type} (key : α → Nat) (l : List α) : List α :=
  l.foldl (fun m x => (m.takeWhile fun y => decide (key y ≤ key x)) ++ x :: m.dropWhile fun y => decide (key y ≤ key x)) []

/-- The images of a capture: for each partition in unit-word order its warps in slot order, then its blocks (R414; log 22). -/
def Capture.images (c : Capture) : List Image :=
  ((sortOn id (c.warps.map fun x => x.part).eraseDups).map fun p =>
    (sortOn (fun x => x.warp.slot) (c.warps.filter fun x => x.part == p)).map (SavedWarp.image c.stamp) ++
      (c.blocks.filter fun b => b.core == p / 32 && b.parts.contains (p % 32)).map (SavedBlock.image c.stamp)).flatten

end Sys2Proof.Machine
end

