-- ==== Sys2Proof/Machine/MgmtRead.lean ====
section
/-! DEFINITION. What a read of the management space returns (R274, R306, R308, R309, R344, R371, R382, R384, R399 to R404, R407, R409, R414). A register that is only written reads 0. -/

namespace Sys2Proof.Machine

/-- The registers of a context slot, by offset (R402). -/
def slotReg (c : Ctx) (o : Nat) : Option Nat :=
  if o = 0x00 then some (c.asid.toNat + c.world.toNat * 2 ^ 16 + (if c.valid then 2 ^ 31 else 0))
  else if o = 0x08 then some c.ptroot.toNat
  else if o = 0x10 then some c.savebase.toNat
  else if o = 0x18 then some c.savesize.toNat
  else if o = 0x20 then some c.graphbase.toNat
  else if o = 0x28 then some ((c.graph.map fun g => g.gfopen.toNat).getD 0)
  else if o = 0x30 then some c.rastbase.toNat
  else if o = 0x38 then some c.resq.toNat
  else if 0x40 ≤ o && o < 0xC0 then some ((Store.get {} c.queues ((o - 0x40) / 8)).qdesc.toNat)
  else if o = 0xC0 then some c.ctxst.toNat
  else none

/-- The registers of a cluster, by offset (R400). -/
def clusterReg (c : Cluster) (o : Nat) : Option Nat :=
  match o / 8 with
  | 0 => some c.sepa.toNat
  | 1 => some c.plim.toNat
  | 2 => some c.hbudget.toNat
  | 3 => some c.wklim.toNat
  | 4 => some c.cklim.toNat
  | 5 => some c.qklim.toNat
  | _ => none

/-- A host window as one number (R407). -/
def HostWindow.bits (w : HostWindow) : Nat :=
  w.vabase.toNat * 2 ^ 192 + w.size.toNat * 2 ^ 160 + w.baroff.toNat * 2 ^ 136 + w.asid.toNat * 2 ^ 120 +
    w.world.toNat * 2 ^ 116 + w.stream.toNat * 2 ^ 108 + (if w.valid then 1 else 0)

/-- A domain export as one number (R409). -/
def DomExport.bits (e : DomExport) : Nat :=
  e.base.toNat * 2 ^ 192 + e.size.toNat * 2 ^ 160 + e.asid.toNat * 2 ^ 144 + e.world.toNat * 2 ^ 140 +
    (if e.valid then 1 else 0)

/-- The retained launch record of a gang as one number (R268). -/
def retainedBits (l : Launch) (g : Gang) : Nat :=
  let r := g.retained
  (joinRegs (fun k => r.vals.getD k 0) 0 16) * 2 ^ 256 + r.rpc.toNat * 2 ^ 224 + r.sealNo.toNat * 2 ^ 192 +
    g.num * 2 ^ 160 + l.id.toNat * 2 ^ 128 + min r.relaunch 255 * 2 ^ 120 + min r.since 255 * 2 ^ 112 +
    (if r.contain then 1 else 0)

/-- The gang that rlsel selects: placed, with that launch identifier and number (R401). -/
def State.selected (s : State) : Option Gang :=
  let x := s.mgmt.rlsel.toNat
  s.gangs.find? fun g =>
    let l := s.launch g.launch
    l.id.toNat == x % 2 ^ 32 && g.num == nbits x 51 32 && (l.wave.isSome == (x / 2 ^ 63 % 2 == 1)) &&
      g.state == .placed

/-- The single registers of the part, by offset (R400). -/
def partReg (s : State) (o : Nat) : Option Nat :=
  let m := s.mgmt
  match o with
  | 0x8000 => some m.intst.toNat
  | 0x8008 => some m.intmask.toNat
  | 0xC000 => some m.fqbase.toNat
  | 0xC008 => some m.fqlogn.toNat
  | 0xC010 => some m.fqtail.toNat
  | 0xC018 => some m.fqhead.toNat
  | 0xC020 => some 0
  | 0xC028 => some m.ffast.toNat
  | 0xC040 => some m.erbase.toNat
  | 0xC048 => some m.erlogn.toNat
  | 0xC050 => some m.ertail.toNat
  | 0xC058 => some m.erhead.toNat
  | 0xC060 => some m.erovf.toNat
  | 0xC068 => some m.cethr.toNat
  | 0xC070 => some m.patrol.toNat
  | 0xC080 => some m.hqbase.toNat
  | 0xC088 => some m.hqlogn.toNat
  | 0xC090 => some 0
  | 0xC098 => some m.hthr0.toNat
  | 0xC0A0 => some m.hthr1.toNat
  | 0xC0C0 => some m.sdasid.toNat
  | 0xC0C8 => some m.sdva.toNat
  | 0xC0D0 => some m.sdlen.toNat
  | 0xC0D8 => some 0
  | 0xC0E0 => some m.sdstat.toNat
  | 0xC100 => some 0
  | 0xC108 => some m.wrstat.toNat
  | 0xC110 => some m.wpol.toNat
  | 0xC118 => some m.gidle.toNat
  | 0xC120 => some m.ideworld.toNat
  | 0xC140 => some m.mlock.toNat
  | 0xC148 => some m.bootst.toNat
  | 0xC150 => some m.domcfg.toNat
  | 0xC158 => some 0
  | 0xC160 => some m.spdmbox.toNat
  | 0xC168 => some m.knote.toNat
  | 0xC170 => some m.dbgev.toNat
  | 0xC178 => some 0
  | 0xC180 => some m.pmax.toNat
  | 0xC188 => some m.pwr.toNat
  | 0xC190 => some m.tcool.toNat
  | 0xC198 => some m.tjct.toNat
  | 0xC1A0 => some m.thermst.toNat
  | 0xC1A8 => some 0
  | 0xC1B0 => some 0
  | 0xC1B8 => some m.rlsel.toNat
  | _ => none

/-- The registers of an Ethernet port, by offset (R400). -/
def portReg (p : EthPort) (o : Nat) : Option Nat :=
  match o / 8 with
  | 0 => some p.mac.toNat
  | 1 => some p.nh.toNat
  | 2 => some (p.ip.toNat % 2 ^ 64)
  | 3 => some (p.ip.toNat / 2 ^ 64)
  | 4 => some p.drop.toNat
  | _ => none

/-- State captured from a protected world whose wpol bit is 0 reads as zero (R383). -/
def hiddenWorld (s : State) (w : Nat) : Bool := 2 ≤ w && !s.mgmt.wpol.getLsbD w

/-- The 64-bit value at an offset that is a multiple of 8; none where no register lies. -/
def mgmtReg (s : State) (o : Nat) : Option Nat :=
  if o < 0x8000 then some 0
  else if 0xC200 ≤ o && o < 0xC280 then portReg (s.ports.getD ((o - 0xC200) / 0x40) {}) ((o - 0xC200) % 0x40)
  else if 0xD000 ≤ o && o < 0xD400 then
    let e := s.pamap.getD ((o - 0xD000) / 16) (0, 0)
    some (if o / 8 % 2 = 0 then e.1 else e.2)
  else if 0xE000 ≤ o && o < 0xE060 then
    some (match s.selected with
      | some g => retainedBits (s.launch g.launch) g / 2 ^ (8 * (o - 0xE000)) % 2 ^ 64
      | none => 0)
  else if o < 0x10000 then partReg s o
  else if 0x10000 ≤ o && o < 0x14000 then clusterReg (s.cluster ((o - 0x10000) / 0x1000)) (o % 0x1000)
  else if 0x20020 ≤ o && o < 0x20200 then
    let k := s.keySlots.getD ((o - 0x20000) / 0x20) {}
    match o % 0x20 / 8 with
    | 0 => some k.skbase.toNat
    | 1 => some k.sklen.toNat
    | 2 => some k.sktab.toNat
    | _ => none
  else if 0x30000 ≤ o && o < 0x30200 then
    some ((Store.get {} s.exports ((o - 0x30000) / 32)).bits / 2 ^ (64 * (o % 32 / 8)) % 2 ^ 64)
  else if 0x40000 ≤ o && o < 0x40800 then
    some ((Store.get {} s.windows ((o - 0x40000) / 32)).bits / 2 ^ (64 * (o % 32 / 8)) % 2 ^ 64)
  else if 0x100000 ≤ o && o < 0x140000 then slotReg (s.ctx ((o - 0x100000) / 0x400)) (o % 0x400)
  else if 0x200000 ≤ o && o < 0x280000 then
    let c := (s.certs.getD ((o - 0x200000) / 0x10000) {}).chain
    some (natOfBytes ((List.range 8).map fun k => c.getD (o % 0x10000 + k) 0))
  else if 0x800000 ≤ o && o < 0x1000000 then
    some (natOfBytes ((List.range 8).map fun k => imagesByte (hiddenWorld s) 0 s.capture.images (o - 0x800000 + k)))
  else none

/-- A read of `n` bytes; none when the access reaches no register (R399). -/
def mgmtRead (s : State) (o n : Nat) : Option Nat :=
  if (n = 4 || n = 8) && o % n = 0 && o < 0x1000000 then
    (mgmtReg s (o / 8 * 8)).map fun v => v / 2 ^ (8 * (o % 8)) % 2 ^ (8 * n)
  else none

end Sys2Proof.Machine
end

