-- ==== Sys2Proof/Machine/Memory.lean ====
section
/-! DEFINITION. Global memory (R142 to R155, R235 to R239, R296 to R309): locations, page walks, home slices, versions, L1, acquires; and scratchpad (R26). -/

namespace Sys2Proof.Machine

/-! ## Locations -/

/-- A space of virtual addresses: world and ASID. -/
structure Space where
  world : Nat
  asid : Nat
  deriving DecidableEq, Repr

/-- Key of the byte at `va` of a space. -/
def Space.loc (sp : Space) (va : Nat) : Nat := (sp.world * 65536 + sp.asid) * 2 ^ 60 + va

/-- The space of a location, and its address. -/
def spaceOf (k : Nat) : Space := { world := k / 2 ^ 76, asid := k / 2 ^ 60 % 65536 }
def vaOf (k : Nat) : Nat := k % 2 ^ 60

/-- An address is canonical (R106). -/
def canonical (a : Nat) : Bool := a < 2 ^ 60

/-- Home slice of a line (R298). -/
def sliceOf (k : Nat) : Nat :=
  let va := vaOf k
  Nat.xor (Nat.xor (nbits va 12 7) (nbits va 18 13)) (Nat.xor (nbits va 24 19) ((spaceOf k).asid % 64))

/-- Slice and set of a line (R298). -/
def setOf (k : Nat) : Nat := sliceOf k * 2048 + nbits (vaOf k) 23 13

/-- The space of a warp: its launch's world and ASID. -/
def State.space (s : State) (w : Warp) : Space :=
  let l := s.warpLaunch w
  { world := l.record.world.toNat, asid := l.asid.toNat }

/-- The slot of the valid context of an ASID (R403: one slot at most). -/
def State.ctxSlot (s : State) (asid : Nat) : Option Nat :=
  (s.ctxs.find? fun c => c.2.valid && c.2.asid.toNat == asid).map Prod.fst

/-! ## Physical memory -/

/-- What a physical address reaches (R301, R405). -/
inductive Place
  | dram
  | mgmt (off : Nat)
  | host (addr : Nat)
  | peer
  | none
  deriving DecidableEq, Repr

def placeOf (s : State) (pa : Nat) : Place :=
  if pa < 0x20000000000 then
    (if s.pamap.any fun r => r.2 != 0 && decide (r.1 ≤ pa) && decide (pa < r.1 + r.2) then .dram else .none)
  else if pa < 0x20001000000 then .mgmt (pa - 0x20000000000)
  else if 0x100000000000 ≤ pa && pa < 0x200000000000 then .host (pa - 0x100000000000)
  else if 0x4000000000000 ≤ pa && pa < 0x8000000000000 then .peer
  else .none

/-- Key generation of a world, kept with the lines it writes (R381, R382). -/
def keyGen (s : State) (w : Nat) : Nat := w * 2 ^ 32 + s.rekeys.getD w 0 + 1

/-- Bytes of DRAM read under world `w`: a line last written under another key gives free values (R381, R382). -/
def dramRead (s : State) (w pa n : Nat) : List Byte :=
  (List.range n).map fun k =>
    let g := Store.get 0 s.mem.lineKey ((pa + k) / 128)
    if g = 0 || g = keyGen s w then s.mem.dram.byte (pa + k)
    else Config.rekeyedByte (pa + k) g (keyGen s w) (natOfBytes (s.mem.dram.bytes ((pa + k) / 128 * 128) 128))

/-- A line last written under another key is enciphered anew with what it deciphers to (R381, R382). -/
def takeLine (s : State) (w line : Nat) (m : Memory) : Memory :=
  let g := Store.get 0 s.mem.lineKey line
  if g = 0 || g = keyGen s w then m else m.setBytes (128 * line) (dramRead s w (128 * line) 128)

/-- Bytes of DRAM written under world `w`; a line whose key they change is read under the new key first, and a granule written whole loses its poison (R363, R381). -/
def dramWrite (w pa : Nat) (bs : List Byte) (s : State) : State :=
  let n := bs.length
  let lines := (List.range (n / 128 + 2)).filter fun k => (pa / 128 + k) * 128 < pa + n
  let cleared := (List.range (n / 8 + 1)).filter fun k => (pa / 8 + k) * 8 ≥ pa && (pa / 8 + k) * 8 + 8 ≤ pa + n
  { s with mem := { s.mem with
      dram := (each lines s.mem.dram fun k m => takeLine s w (pa / 128 + k) m).setBytes pa bs
      lineKey := each lines s.mem.lineKey fun k m => Store.put 0 m (pa / 128 + k) (keyGen s w)
      poisonDram := each cleared s.mem.poisonDram fun k m => Store.put false m (pa / 8 + k) false } }

/-! ## Units (R222, R294) -/

/-- The scrub-complete bit of a unit (R222). -/
def State.scrubComplete (s : State) (k : Nat) : Bool := s.bootScrubbed && !(Store.get {} s.units k).unscrubbed
def State.unitWorld (s : State) (k : Nat) : Nat := (Store.get {} s.units k).world.toNat
def State.unitPresent (s : State) (k : Nat) : Bool := !Store.get false s.absent k

/-- Banks in use as scratchpad on a core. -/
def State.usedBanks (s : State) (excl : List Nat) (cl c : Nat) : List Nat :=
  ((s.gangs.filter fun g => g.state == .placed && g.cluster == cl && !excl.contains g.uid).map fun g =>
    ((g.blocks.filter fun b => !b.retired && b.core == c).map fun b => b.banks).flatten).flatten

/-- The banks of a core that serve as L1 for warps of a world: those of the world without scratchpad; the root's four serve the root alone (R221, R294). -/
def State.l1Banks (s : State) (core world : Nat) (root : Bool) : List Nat :=
  let used := s.usedBanks [] (core / 32) (core % 32)
  (List.range 32).filter fun b =>
    let k := 2 ^ 15 + core * 32 + b
    s.unitPresent k && s.unitWorld k == world && !(Store.get {} s.units k).gated && !used.contains b &&
      (decide (core = 0) && decide (28 ≤ b)) == root

/-- The channel of a DRAM line: 768 pseudo-channels of HBM4E, 16 channels of LPDDR6 (R2; log 40). -/
def dramWhere (pa : Nat) : ErrWhere :=
  let c := Config.channel (pa / 128)
  if pa < 0x10000000000 then
    { addr := .ofNat 64 pa, pa := true, source := 0x09, ltype := 3, loc := .ofNat 28 (c % 768 / 96 * 128 + c % 768 % 96) }
  else { addr := .ofNat 64 pa, pa := true, source := 0x0A, ltype := 4, loc := .ofNat 28 (c % 16) }

/-- An L2 slice's data (R373). -/
def l2Where (k : Nat) : ErrWhere :=
  { addr := .ofNat 64 (vaOf k), pa := false, source := 0x07, ltype := 2, loc := .ofNat 28 (sliceOf k) }

/-- Data of the host's memory that came poisoned over the PCIe link (R362, R363, R373). -/
def pcieWhere (pa : Nat) : ErrWhere := { addr := .ofNat 64 pa, pa := true, source := 0x0C, ltype := 6, loc := 0 }

/-- Data that came poisoned over a Wodin link: which of the 18 ports' 8 lanes is free (R362, R373, R408; log 15). -/
def linkedWhere (s : State) (k : Nat) : ErrWhere :=
  { addr := .ofNat 64 (vaOf k), pa := false, source := 0x0B, ltype := 5, loc := .ofNat 28 (Config.poisonLane s.draws % 144) }

/-- Where poison of a location's data is reported that came from a physical address (R373). -/
def memWhere (s : State) (k pa : Nat) : ErrWhere :=
  match placeOf s pa with
  | .dram => dramWhere pa
  | .host _ => pcieWhere pa
  | .peer => linkedWhere s k
  | _ => l2Where k

/-- Where a poisoned granule of L2 is reported: where its line was filled from, or the slice, if the error arose there (R373). -/
def granuleWhere (s : State) (j : Nat) : ErrWhere :=
  match Store.get 0 s.mem.cameL2 j with
  | 0 => l2Where (8 * j)
  | pa + 1 => memWhere s (8 * j) pa

/-- The granules that a write of `n` bytes at a location covers whole (R363). -/
def wholeGranules (k n : Nat) : List Nat :=
  ((List.range (n / 8 + 1)).filter fun j => (k / 8 + j) * 8 ≥ k && (k / 8 + j) * 8 + 8 ≤ k + n).map (k / 8 + ·)

/-- Granules that a range of bytes touches. -/
def granulesOf (k n : Nat) : List Nat := (List.range ((k + n - 1) / 8 + 1 - k / 8)).map (k / 8 + ·)

/-- Granules of L2 lose their poison (R363). -/
def Mem.cleanL2 (gs : List Nat) (m : Mem) : Mem :=
  { m with
    poisonL2 := each gs m.poisonL2 fun j x => Store.put false x j false
    cameL2 := each gs m.cameL2 fun j x => Store.put 0 x j 0 }

/-- Poisoned granules of L2 are found and nobody consumes them: each is recorded once (R364, R372). -/
def noticeL2 (gs : List Nat) (s : State) : State :=
  let new := gs.filter fun j => Store.get false s.mem.poisonL2 j && !Store.get false s.mem.notedL2 j
  { s with
    found := s.found ++ new.map fun j => { w := granuleWhere s j, action := 1 }
    mem := { s.mem with notedL2 := each new s.mem.notedL2 fun j m => Store.put false m j true } }

/-- The same of granules of memory that a read of location `k` at `pa` finds. -/
def noticeMem (k pa n : Nat) (s : State) : State :=
  let new := (granulesOf pa n).filter fun j => Store.get false s.mem.poisonDram j && !Store.get false s.mem.noted j
  { s with
    found := s.found ++ new.map fun j => { w := memWhere s k (8 * j), action := 1 }
    mem := { s.mem with noted := each new s.mem.noted fun j m => Store.put false m j true } }

/-! ## Translation (R302 to R305, R308) -/

/-- How a translation ends (R273, R304). -/
inductive Xlat
  | ok (pa : Nat) (nc : Bool)
  | notPresent
  | permission
  | migrating
  /-- An entry of a table holds an uncorrectable error, at this physical address. -/
  | poisoned (pe : Nat)
  deriving DecidableEq, Repr

/-- Kinds of access (R274). -/
inductive Acc | read | write | fetch
  deriving DecidableEq, Repr

/-- VA bits each level indexes: lowest bit and entries (R302). -/
def levelShift : Nat → Nat
  | 0 => 48 | 1 => 39 | 2 => 30 | 3 => 21 | _ => 16
def levelEntries : Nat → Nat
  | 0 => 4096 | 1 => 512 | 2 => 512 | 3 => 512 | _ => 32

/-- A leaf entry decides an access (R304, R405). -/
def leafCheck (s : State) (w va lvl : Nat) (e : Nat) (a : Acc) : Xlat :=
  let nc := nbits e 7 7 = 1
  let pa := nbits e 51 16 * 65536 + va % 2 ^ levelShift lvl
  if nbits e 59 52 != 0 || nbits e 51 16 * 65536 % 2 ^ levelShift lvl != 0 then .permission
  else if nbits e 63 60 != w then .permission
  else if nbits e 5 5 = 1 then .permission
  else if (a = .write && nbits e 2 2 = 0) || (a = .fetch && nbits e 3 3 = 0) then .permission
  else if nbits e 4 4 = 1 then .migrating
  else match placeOf s pa with
    | .dram => .ok pa nc
    | .mgmt _ => if w = 0 && nc then .ok pa nc else .permission
    | .host _ =>
      if 2 ≤ w && !s.mgmt.ideworld.getLsbD w then .permission
      else if !nc && !Config.cxlTrained then .permission
      else .ok pa nc
    | .peer =>
      let target := nbits pa 49 44
      let d := s.mgmt.domcfg.toNat
      if d / 2 ^ 31 % 2 = 1 && decide (target ≤ nbits d 13 8) && target != d % 64 then .ok pa nc else .permission
    | .none => .permission

/-- A walk from a table at level `lvl` (fuel: the levels left): the leaf's physical address and entry, or how it ends. -/
def walk (s : State) (va table : Nat) : Nat → Nat → Except Xlat (Nat × Nat × Nat)
  | 0, _ => .error .permission
  | fuel + 1, lvl =>
    let pe := table + 8 * (va / 2 ^ levelShift lvl % levelEntries lvl)
    if Store.get false s.mem.poisonDram (pe / 8) then .error (.poisoned pe)
    else
      let e := natOfBytes (dramRead s 0 pe 8)
      if nbits e 0 0 = 0 then .error .notPresent
      else if nbits e 1 1 = 1 then
        (if lvl ≤ 1 then .error .permission else .ok (pe, e, lvl))
      else if lvl = 4 || nbits e 63 52 != 0 || nbits e 7 2 != 0 then .error .permission
      else if nbits e 51 8 * 256 % (8 * levelEntries (lvl + 1)) != 0 then .error .permission
      else walk s va (nbits e 51 8 * 256) fuel (lvl + 1)

/-- Key of a TLB entry: controller, level and page (R301). -/
def tlbKey (k lvl : Nat) : Nat := ((sliceOf k / 8 * 8 + lvl) * 2 ^ 24 + k / 2 ^ 60) * 2 ^ 60 + vaOf k / 2 ^ levelShift lvl

/-- The TLB entry that covers a location: leaf address, entry, level. -/
def tlbFind (s : State) (k : Nat) : Option (Nat × Nat × Nat) :=
  [4, 3, 2].findSome? fun lvl =>
    match Store.get (0, 0) s.mem.tlb (tlbKey k lvl) with
    | (_, e) => if e = 0 then none else some ((Store.get (0, 0) s.mem.tlb (tlbKey k lvl)).1, e.toNat, lvl)

/-- The notice queue's size (R309). -/
def hqSize (s : State) : Nat := 2 ^ (max 4 (min 16 s.mgmt.hqlogn.toNat))

/-- Raise an interrupt: set bit v, and send its message when it was 0 and masked neither by intmask nor under PCIe (R404; log 16). -/
def interrupt (v : Nat) (s : State) : State :=
  let quiet := s.mgmt.intst.getLsbD v || s.mgmt.intmask.getLsbD v
  { s with
    mgmt := { s.mgmt with intst := s.mgmt.intst ||| (1#8 <<< v) }
    sent := if quiet then s.sent else if Config.vectorMasked s.draws v then s.sent else s.sent ++ [.msix v] }

/-- Write a hotness notice (R308, R309); `false` when the queue is full. -/
def hotNotice (k lvl count : Nat) (pa : Nat) (s : State) : Bool × State :=
  let base := s.mgmt.hqbase.toNat / 4096 * 4096
  let tail := natOfBytes (dramRead s 0 base 4)
  let head := natOfBytes (dramRead s 0 (base + 4) 4)
  if (tail + 2 ^ 32 - head) % 2 ^ 32 ≥ hqSize s then
    let lost := natOfBytes (dramRead s 0 (base + 12) 4)
    let s := dramWrite 0 (base + 8) (bytesOfNat 4 1) s
    (false, dramWrite 0 (base + 12) (bytesOfNat 4 (min (lost + 1) (2 ^ 32 - 1))) s)
  else
    let sp := spaceOf k
    let size := if lvl = 4 then 0 else if lvl = 3 then 1 else 2
    let tier := if pa < 0x10000000000 then 0 else 1
    let e := (vaOf k / 2 ^ levelShift lvl * 2 ^ levelShift lvl / 65536 * 65536) * 2 ^ 64 + sp.asid * 2 ^ 48 +
      sp.world * 2 ^ 44 + size * 2 ^ 42 + tier * 2 ^ 41 + count * 2 ^ 32
    let s := dramWrite 0 (base + 64 + 16 * (tail % hqSize s)) (bytesOfNat 16 e) s
    (true, interrupt 4 (dramWrite 0 base (bytesOfNat 4 ((tail + 1) % 2 ^ 32)) s))

/-- One translated miss counts in the leaf's hotness: bits 15:6 of the entry take new values (R308). -/
def heat (k lvl leafPa pa : Nat) (s : State) : State :=
  let e := natOfBytes (dramRead s 0 leafPa 8)
  let hot := min 255 (nbits e 15 8 + 1)
  let thr := (if pa < 0x10000000000 then s.mgmt.hthr0 else s.mgmt.hthr1).toNat % 256
  let q := nbits e 6 6
  let put (hot q : Nat) (s : State) : State :=
    dramWrite 0 leafPa (bytesOfNat 2 (hot * 256 + nbits e 7 7 * 128 + q * 64 + e % 64)) s
  if thr = 0 || hot < thr || q = 1 then put hot q s
  else
    let (ok, s) := hotNotice k lvl hot pa s
    if ok then put hot 1 s else put thr 0 s

/-- Translate a location for an access that missed (R301, R304); a successful one is kept in the TLB and counted in the leaf's hotness. -/
def translate (k : Nat) (a : Acc) (count : Bool) (s : State) : Xlat × State :=
  let sp := spaceOf k
  match s.ctxSlot sp.asid with
  | none => (.permission, s)
  | some c =>
    let found := match tlbFind s k with
      | some x => Except.ok x
      | none => walk s (vaOf k) (s.ctx c).ptroot.toNat 5 0
    match found with
    | .error x => (x, s)
    | .ok (leafPa, e, lvl) =>
      match leafCheck s sp.world (vaOf k) lvl e a with
      | .ok pa nc =>
        let s := { s with mem := { s.mem with
          tlb := Store.put (0, 0) s.mem.tlb (tlbKey k lvl) (leafPa, BitVec.ofNat 64 e) } }
        (.ok pa nc, if count then heat k lvl leafPa pa s else s)
      | x => (x, s)

/-! ## Home slices (R298 to R300) -/

/-- A line is present at its home slice. -/
def linePresent (s : State) (k : Nat) : Bool := s.mem.lines.any fun e => e.1 == k / 128

/-- Physical line of a present line. -/
def linePa (s : State) (k : Nat) : Nat := ((s.mem.lines.find? fun e => e.1 == k / 128).map fun e => e.2.pa).getD 0

/-- Some Wodin port still carries requests (R362). -/
def peersUp (s : State) : Bool := (List.range 18).any fun p => !Store.get false s.deadPorts p

/-- The PCIe link, port 18 of the model's count, still carries requests (R362). -/
def hostUp (s : State) : Bool := !Store.get false s.deadPorts 18

/-- Bytes a physical range holds, whatever it reaches (R301, R405). -/
def physRead (s : State) (w pa n : Nat) : List Byte :=
  match placeOf s pa with
  | .dram => dramRead s w pa n
  | .mgmt off => bytesOfNat n ((mgmtRead s off n).getD 0)
  | .host a => s.mem.host.bytes a n
  | .peer | .none => (List.range n).map fun j => Config.peerByte (s.draws * 16 + j)

/-- Bytes of the host's memory are written: a granule written whole loses its poison, kept under its physical address (R363, R405). -/
def Mem.writeHost (a : Nat) (bs : List Byte) (m : Mem) : Mem :=
  { m with
    host := m.host.setBytes a bs
    poisonDram := each (wholeGranules (0x100000000000 + a) bs.length) m.poisonDram fun j x => Store.put false x j false }

/-- Write bytes straight to what a physical address reaches (R305, R405). A write to the management space becomes the event it causes. -/
def physWrite (w pa : Nat) (bs : List Byte) (s : State) : State :=
  match placeOf s pa with
  | .dram => dramWrite w pa bs s
  | .mgmt off => { s with agenda := s.agenda ++ [.registerWrite false off bs.length (BitVec.ofNat 64 (natOfBytes bs))] }
  | .host a => { s with mem := if hostUp s then s.mem.writeHost a bs else s.mem }
  | .peer => { s with sent := if peersUp s then s.sent ++ [.peerWrite w pa bs] else s.sent }
  | .none => s

/-- The physical line of a present line under its current translation, or under the one it was brought in by where there is none (R306). -/
def currentPa (s : State) (j : Nat) (l : Line) : Nat :=
  match (translate (128 * j) .read false s).1 with
  | .ok pa _ => pa
  | _ => l.pa

/-- A dirty line goes to its physical line, with its poison; an error found so is recorded once (R298, R363, R364). -/
def writeBack (j : Nat) (s : State) : State :=
  match s.mem.lines.find? fun e => e.1 == j with
  | some (_, l) =>
    if !l.dirty then s
    else
      let base := j * 128
      let pa := currentPa s j l
      let marks := (List.range 16).filter fun g => Store.get false s.mem.poisonL2 (base / 8 + g)
      let s := noticeL2 (marks.map (base / 8 + ·)) (physWrite (spaceOf base).world pa (s.mem.l2.bytes base 128) s)
      { s with
        mem := { s.mem with
          poisonDram := each marks s.mem.poisonDram fun g m => Store.put false m (pa / 8 + g) true
          noted := each marks s.mem.noted fun g m => Store.put false m (pa / 8 + g) true } }
  | none => s

/-- A line leaves L2; its watch bit goes to its DRAM line (R300). -/
def dropLine (j : Nat) (s : State) : State :=
  match s.mem.lines.find? fun e => e.1 == j with
  | some (_, l) =>
    { s with mem := { s.mem with
        watch := Store.put false s.mem.watch (currentPa s j l / 128) l.watch
        lines := Store.drop s.mem.lines (· == j)
        l2 := Store.drop s.mem.l2 fun k => k / 128 == j
        poisonL2 := Store.drop s.mem.poisonL2 fun g => g / 16 == j
        notedL2 := Store.drop s.mem.notedL2 fun g => g / 16 == j
        cameL2 := Store.drop s.mem.cameL2 fun g => g / 16 == j } }
  | none => s

/-- Lines of which a gang holds a shadow. -/
def Gang.shadows (g : Gang) : List Nat := (g.version.map fun e => e.1 / 128).eraseDups

/-- Shadow lines that a set holds, over all gangs (R299). -/
def shadowsInSet (s : State) (set : Nat) : Nat :=
  (s.gangs.map fun g => (g.shadows.filter fun l => setOf (l * 128) = set).length).sum

/-- The L2 set in which a replica stands (R298). -/
def Replica.set (r : Replica) : Nat := r.slice * 2048 + nbits (vaOf (r.line * 128)) 23 13

/-- Ways of a set in use: by committed lines, shadows and replicas (R298, R299). -/
def waysUsed (s : State) (set : Nat) : Nat :=
  (s.mem.lines.filter fun e => setOf (128 * e.1) = set).length + shadowsInSet s set + (s.mem.replicas.filter fun r => r.set = set).length

/-- A replica leaves the slice that holds it. -/
def dropReplica (r : Replica) (s : State) : State :=
  { s with mem := { s.mem with replicas := s.mem.replicas.filter (· != r) } }

/-- A set of sixteen ways has room for one more line: a full one gives up a committed line, other than `keep` and those a gang has a shadow of, by a free choice, or else a replica (R298; log 8). Four ways at most hold shadows (R299), so that one of the two is always there. -/
def makeRoom (set keep : Nat) (s : State) : State :=
  if waysUsed s set < 16 then s
  else
    let vs := s.mem.lines.filter fun e =>
      decide (setOf (128 * e.1) = set) && e.1 != keep && !s.gangs.any fun g => decide (e.1 ∈ g.shadows)
    match vs[Config.leaves s.draws % max 1 vs.length]?, s.mem.replicas.find? fun r => r.set = set with
    | some e, _ => dropLine e.1 (writeBack e.1 s.draw)
    | none, some r => dropReplica r s
    | none, none => s

/-- The leaf entry under which the TLB translates a location. -/
def leafOf (s : State) (k : Nat) : Nat := ((tlbFind s k).map fun x => x.2.1).getD 0

/-- Bring a line into L2 (R298, R300, R363): its bytes and poison come from memory, its rights from the leaf entry. Poison found here is recorded, unless the access that brings the line consumes it (R364); a line of the host behind a PCIe link that is down comes poisoned whole (R362). -/
def fillLine (k pa : Nat) (s : State) : State :=
  let s := noticeMem k (pa / 128 * 128) 128 (makeRoom (setOf k) (k / 128) s)
  let base := k / 128 * 128
  let p := pa / 128 * 128
  let e := leafOf s k
  let bs := physRead s (spaceOf k).world p 128
  let cut := !hostUp s && decide (0x100000000000 ≤ pa)
  let marks := (List.range 16).filter fun j => cut || Store.get false s.mem.poisonDram (p / 8 + j)
  let watch := Store.get false s.mem.watch (p / 128)
  { s.draw with mem := { s.mem with
      lines := Store.put { pa := 1 } s.mem.lines (k / 128) { pa := p, writable := nbits e 2 2 = 1, fetchable := nbits e 3 3 = 1, watch }
      l2 := s.mem.l2.setBytes base bs
      poisonL2 := each marks s.mem.poisonL2 fun j m => Store.put false m (base / 8 + j) true
      notedL2 := each marks s.mem.notedL2 fun j m => Store.put false m (base / 8 + j) true
      cameL2 := each marks s.mem.cameL2 fun j m => Store.put 0 m (base / 8 + j) (p + 8 * j + 1) } }

/-- Whether the rights a present line was brought in with allow an access: a write or a fetch of a page without the right is PERMISSION (R144, R304), and a change of the table entry does not reach the line (R305). -/
def lineAllows (s : State) (k : Nat) (a : Acc) : Bool :=
  match s.mem.lines.find? fun e => e.1 == k / 128 with
  | none => true
  | some (_, l) => match a with
    | .read => true
    | .write => l.writable
    | .fetch => l.fetchable

/-- How an access reaches its home (R305): the line in L2, or memory itself for an nc page and for a peer's, whose home is on its own part, which may turn it away (R248, R410; log 15). -/
inductive Home
  | line
  | direct (pa : Nat)
  | fail (x : Xlat)
  deriving DecidableEq, Repr

/-- Reach the home of a location: a line in L2 is used without translation, else the miss translates (R298, R305). A read goes out to a peer's home, which may turn it away; a write it turns away has been found by the probe before it (R144, R409, R410). -/
def reach (k : Nat) (a : Acc) (s : State) : Home × State :=
  if linePresent s k then (if lineAllows s k a then (.line, s) else (.fail .permission, s))
  else match translate k a true s with
    | (.ok pa nc, s) =>
      if placeOf s pa = .peer then
        (if a = .write || !peersUp s then (.direct pa, s)
         else
           let s := { s with sent := s.sent ++ [.peerRead (spaceOf k).world pa] }
           if Config.peerRefuses s.draws then (.fail .permission, s.draw) else (.direct pa, s))
      else if nc then (.direct pa, s)
      else (.line, fillLine k pa s)
    | (x, s) => (.fail x, s)

/-- A gang's version holds a granule without poison (R363). -/
def clearedBy (s : State) (g : Option Nat) (j : Nat) : Bool :=
  match g with
  | some u => Store.get false (s.gang u).cleared j
  | none => false

/-- The shadow line of a gang's version holds an uncorrectable error in a granule (R362). -/
def shadowBad (s : State) (g : Option Nat) (j : Nat) : Bool :=
  match g with
  | some u => Store.get false (s.gang u).badVersion j
  | none => false

/-- Whether some byte of a range holds poison, as a party reads it: a gang's member does not meet the mark of a granule that one of the gang's own stores has covered, and meets the errors of its shadow line (R147, R362, R363). -/
def poisonedAt (s : State) (g : Option Nat) (h : Home) (k n : Nat) : Bool :=
  match h with
  | .line => (granulesOf k n).any fun j => (Store.get false s.mem.poisonL2 j && !clearedBy s g j) || shadowBad s g j
  | .direct pa =>
    if placeOf s pa = .peer then !peersUp s || Config.peerPoison s.draws
    else if !hostUp s && decide (0x100000000000 ≤ pa) then true
    else (granulesOf pa n).any fun j => Store.get false s.mem.poisonDram j
  | .fail _ => false

/-- A byte as a gang's member reads it at the home slice: the gang's shadow, else the committed line (R147). -/
def homeByte (s : State) (g : Option Nat) (k : Nat) : Byte :=
  match g with
  | some u => match Store.get none (s.gang u).version k with
    | some b => b
    | none => s.mem.l2.byte k
  | none => s.mem.l2.byte k

/-- Bytes read at home. -/
def homeRead (s : State) (g : Option Nat) (h : Home) (k n : Nat) : List Byte :=
  match h with
  | .line => (List.range n).map fun j => homeByte s g (k + j)
  | .direct pa => physRead s (spaceOf k).world pa n
  | .fail _ => []

/-! ## Writes at home -/

/-- Lines of a residency's source range overlap a byte range: its tiles' bytes, and its seal entries (R180, R300, R385). -/
def Residency.covers (r : Residency) (va n : Nat) : Bool :=
  let touches (a len : Nat) : Bool := decide (a / 128 * 128 < va + n) && decide (va < (a + len + 127) / 128 * 128)
  r.live && r.watched && (touches r.base.toNat (2048 * r.tiles) || (r.key != 0 && touches r.table.toNat (32 * r.tiles)))

/-- The watch bit of some line that a write of `n` bytes reaches: of a line in L2, or of the DRAM line itself (R300). -/
def watchedAt (s : State) (h : Home) (k n : Nat) : Bool :=
  match h with
  | .line => s.mem.lines.any fun e => e.2.watch && decide (k / 128 ≤ e.1) && decide (e.1 ≤ (k + n - 1) / 128)
  | .direct pa => (List.range ((pa + n - 1) / 128 + 1 - pa / 128)).any fun j => Store.get false s.mem.watch (pa / 128 + j)
  | .fail _ => false

/-- The residencies of a context whose source range holds a byte range become stale (R180). DEDUCED (log 24): the ranges decide, which are the watch bits of R300 wherever the line had a place when RES.LOAD issued; a line whose page was absent or moving then had no bit to set, and R180 excepts no such write. -/
def markStale (k n : Nat) (s : State) : State :=
  let sp := spaceOf k
  let va := vaOf k
  let mark (r : Nat × Residency) : Nat × Residency := (r.1, { r.2 with stale := true, hit := true })
  let stale (c : Ctx) : Ctx :=
    { c with residencies := mapIf (fun r => r.2.covers va n) mark c.residencies }
  let mine (c : Nat × Ctx) : Bool := c.2.valid && c.2.asid.toNat == sp.asid && c.2.world.toNat == sp.world
  { s with ctxs := mapIf mine (fun c => (c.1, stale c.2)) s.ctxs }

/-- A write clears the guards of the words it touches (R285 rule 4). -/
def clearGuards (k n : Nat) (s : State) : State :=
  { s with mem := { s.mem with guards := s.mem.guards.filter fun g => !(decide (k / 4 ≤ g.word) && decide (g.word ≤ (k + n - 1) / 4)) } }

/-- Revoke the ownership of the words other cores hold (R296). -/
def revoke (core : Option Nat) (k n : Nat) (s : State) : State :=
  let lose (c : CoreCache) : CoreCache :=
    let hit (e : Nat × Option L1Word) : Bool := decide (k / 4 ≤ e.1) && decide (e.1 ≤ (k + n - 1) / 4)
    { c with l1 := mapIf hit (fun e => (e.1, e.2.map fun w => { w with owned := false })) c.l1 }
  { s with caches := mapIf (fun c => some c.1 != core) (fun c => (c.1, lose c.2)) s.caches }

/-- Write bytes on the committed line (R235): the line becomes dirty, whole granules lose their poison. -/
def commitBytes (k : Nat) (bs : List Byte) (s : State) : State :=
  let s := markStale k bs.length s
  { s with mem := { s.mem.cleanL2 (wholeGranules k bs.length) with
      l2 := s.mem.l2.setBytes k bs
      lines := mapIf (fun e => e.1 == k / 128) (fun e => (e.1, { e.2 with dirty := true })) s.mem.lines } }

/-! ## Versions (R147, R237, R299) -/

/-- The lines of a version that have left L2 are brought in again; one whose page can no longer be reached takes its bytes with it (R299; log 61). -/
def bringLines : List Nat → State → State
  | [], s => s
  | l :: ls, s => bringLines ls (reach (l * 128) .write s).2

/-- A word that an L1 holds for another gang is no longer its latest write: it stays valid and unowned, and serves the committing gang no longer, whose threads have written the later value or read it (R235, R237, R296). -/
def revokeOthers (u : Nat) (v : Store (Option Byte)) (s : State) : State :=
  let lose (e : Nat × Option L1Word) : Nat × Option L1Word :=
    (e.1, e.2.map fun w =>
      if w.gang != some u && (v.any fun b => b.1 / 4 == e.1) then { w with owned := false, behind := u :: w.behind.filter (· != u) } else w)
  let clean (c : Nat × CoreCache) : Nat × CoreCache := (c.1, { c.2 with l1 := c.2.l1.map lose })
  { s with caches := s.caches.map clean }

/-- Write one byte of a version, if its line is in L2. -/
def commitByte (e : Nat × Option Byte) (s : State) : State :=
  match e.2 with
  | some b => if linePresent s e.1 then commitBytes e.1 [b] s else s
  | none => s

/-- The errors of a shadow line become poison of the committed one (R362, R363). -/
def poisonFrom (bad : Store Bool) (m : Mem) : Mem :=
  let js := (bad.filter fun e => m.lines.any fun l => l.1 == e.1 / 16).map Prod.fst
  { m with
    poisonL2 := each js m.poisonL2 fun j x => Store.put false x j true
    notedL2 := each js m.notedL2 fun j x => Store.put false x j false
    cameL2 := each js m.cameL2 fun j x => Store.put 0 x j 0 }

/-- A version's bytes, each written as one byte in rising order, and the poison its stores cleared or its lines took on (R237, R363). -/
def commitVersion (u : Nat) (s : State) : State :=
  let v := (s.gang u).version
  let gs := (s.gang u).cleared
  let bad := (s.gang u).badVersion
  let s := revokeOthers u v (bringLines (s.gang u).shadows s)
  let s := each v s commitByte
  let s := { s with mem := poisonFrom bad (s.mem.cleanL2 (gs.map Prod.fst)) }
  s.onGang u fun g => { g with version := [], cleared := [], badVersion := [] }

/-- Discard a gang's version (R237): no L1 serves its bytes any more. -/
def discardVersion (u : Nat) (s : State) : State :=
  let keep (e : Nat × Option L1Word) : Bool := !e.2.any fun w => w.gang == some u
  let clean (c : Nat × CoreCache) : Nat × CoreCache := (c.1, { c.2 with l1 := c.2.l1.filter keep })
  let s := { s with caches := s.caches.map clean }
  s.onGang u fun g => { g with version := [], cleared := [], badVersion := [] }

/-- Set containment (R269). -/
def setContain (u : Nat) (c : Bool) (s : State) : State :=
  s.onGang u fun g => { g with retained := { g.retained with contain := c } }

/-- A release other than SEAL: commit, then EXPOSED (R147, R237). -/
def release (u : Nat) (s : State) : State := setContain u false (commitVersion u s)

/-- A plain store at the home slice: into the gang's version, whose ways may overflow, or onto the committed line for a party outside every gang (R147, R299, R305). -/
def homeStore (g : Option Nat) (core : Option Nat) (h : Home) (k : Nat) (bs : List Byte) (s : State) : State :=
  let s := clearGuards k bs.length (revoke core k bs.length s)
  match h, g with
  | .direct pa, g =>
    let s := markStale k bs.length (physWrite (spaceOf k).world pa bs s)
    match g with
    | some u => setContain u false s
    | none => s
  | .line, none => commitBytes k bs s
  | .line, some u =>
    if decide (k / 128 ∈ (s.gang u).shadows) || shadowsInSet s (setOf k) < 4 then
      let s := if decide (k / 128 ∈ (s.gang u).shadows) then s else makeRoom (setOf k) (k / 128) s
      let s := markStale k bs.length s
      s.onGang u fun x =>
        { x with
          version := (each ((List.range bs.length).zip bs) x.version fun e m => Store.put none m (k + e.1) (some e.2))
          cleared := each (wholeGranules k bs.length) x.cleared fun j m => Store.put false m j true
          badVersion := each (wholeGranules k bs.length) x.badVersion fun j m => Store.put false m j false }
    else commitBytes k bs (bringLines [k / 128] (release u s))
  | .fail _, _ => s

/-- A write on the committed line that every shadow of it follows: atomics and the store of a release (R147, R155). -/
def homeUpdate (core : Option Nat) (h : Home) (k : Nat) (bs : List Byte) (s : State) : State :=
  let s := clearGuards k bs.length (revoke core k bs.length s)
  match h with
  | .direct pa => markStale k bs.length (physWrite (spaceOf k).world pa bs s)
  | .line =>
    let s := commitBytes k bs s
    let follow (g : Gang) : Gang :=
      let hit (e : Nat × Option Byte) : Bool := decide (k ≤ e.1) && decide (e.1 < k + bs.length)
      { g with version := mapIf hit (fun e => (e.1, some (bs.getD (e.1 - k) 0))) g.version }
    { s with gangs := s.gangs.map follow }
  | .fail _ => s

/-! ## L1 (R296) -/

def State.cache (s : State) (c : Nat) : CoreCache := Store.get {} s.caches c
def State.onCache (s : State) (c : Nat) (f : CoreCache → CoreCache) : State :=
  { s with caches := Store.put {} s.caches c (f (s.cache c)) }

/-- The word of a location in a core's L1, when valid. -/
def CoreCache.word (c : CoreCache) (k : Nat) : Option L1Word := Store.get none c.l1 (k / 4)

/-- Every byte of a range is valid in L1. -/
def CoreCache.holds (c : CoreCache) (k n : Nat) : Bool :=
  Store.get false c.lines (k / 128) &&
    (List.range ((k + n - 1) / 4 + 1 - k / 4)).all fun j => (Store.get none c.l1 (k / 4 + j)).isSome

def CoreCache.bytesAt (c : CoreCache) (k n : Nat) : List Byte :=
  (List.range n).map fun j => match c.word (k + j) with
    | some w => BitVec.ofNat 8 (w.data.toNat / 2 ^ (8 * ((k + j) % 4)))
    | none => 0

/-- Put words of a line, from a location on: each with its owned bit and the gang whose uncommitted bytes it holds. -/
def CoreCache.putWords (c : CoreCache) (k : Nat) (bs : List Byte) (owned : Bool) (mine : Nat → Option Nat) : CoreCache :=
  let put (j : Nat) (m : Store (Option L1Word)) : Store (Option L1Word) :=
    Store.put none m (k / 4 + j)
      (some { data := BitVec.ofNat 32 (natOfBytes ((bs.drop (4 * j)).take 4)), owned, gang := mine (k / 4 + j) })
  { c with l1 := each (List.range ((bs.length + 3) / 4)) c.l1 put }

/-- The line of a location leaves a core's L1. -/
def CoreCache.dropLine (k : Nat) (c : CoreCache) : CoreCache :=
  { c with
    l1 := Store.drop c.l1 (fun j => j / 32 == k / 128)
    lines := Store.put false c.lines (k / 128) false
    bank := Store.drop c.bank fun j => j == k / 128 }

/-- The L1 lines held in a bank go. -/
def CoreCache.dropBank (b : Nat) (c : CoreCache) : CoreCache :=
  let here (j : Nat) : Bool := Store.get false c.lines j && Store.get 0 c.bank j == b
  { c with l1 := Store.drop c.l1 (fun j => here (j / 32)), lines := Store.drop c.lines here, bank := Store.drop c.bank here }

/-- A bank of 32 KiB holds 256 lines: a full one gives up a line, a free choice (R294; log 8). -/
def CoreCache.bankRoom (b pick : Nat) (c : CoreCache) : CoreCache :=
  if c.lines.length < 256 then c
  else
    let here := c.lines.filter fun e => Store.get 0 c.bank e.1 == b
    if here.length < 256 then c
    else match here[pick % max 1 here.length]? with
      | some e => c.dropLine (128 * e.1)
      | none => c

/-- The bank in which a line is put: one of those that serve, in the order from a free choice on (R294; log 40). -/
def bankFor (banks : List Nat) (k : Nat) : Nat :=
  (banks.find? fun b => decide (Config.cacheBank (k / 128) % 32 ≤ b)).getD (banks.headD 0)

/-- Fill a line from the home slice into a bank: every word valid, none owned. -/
def CoreCache.fill (c : CoreCache) (bank k : Nat) (bs : List Byte) (mine : Nat → Option Nat) : CoreCache :=
  ({ c with
      lines := Store.put false c.lines (k / 128) true
      bank := Store.put 0 c.bank (k / 128) bank }).putWords (k / 128 * 128) bs false mine

/-- A store updates a line that is present: each word it writes holds what the home slice holds of it, and is owned. Where it writes part of a word of which the copy lacks a later write to the rest, the line's other words that are not owned leave, so that the line never shows a later write beside an older one (R146, R235, R242, R296; log 7). -/
def CoreCache.store (c : CoreCache) (k n : Nat) (bs : List Byte) (mine : Nat → Option Nat) : CoreCache :=
  if !Store.get false c.lines (k / 128) then c
  else
    let rest (w : Nat) : List Nat := (List.range 4).filter fun j => w * 4 + j < k || k + n ≤ w * 4 + j
    let fresh (w : Nat) : Bool := match Store.get none c.l1 w with
      | some x => !x.owned && (rest w).any fun j =>
          BitVec.ofNat 8 (x.data.toNat / 2 ^ (8 * j)) != bs.getD (w * 4 + j - k / 4 * 4) 0
      | none => rest w != []
    let words := (List.range ((k + n - 1) / 4 + 1 - k / 4)).map (k / 4 + ·)
    let stays (e : Nat × Option L1Word) : Bool := e.1 / 32 != k / 128 || e.2.any fun x => x.owned
    let kept := if words.any fresh then c.l1.filter stays else c.l1
    { c with l1 := kept }.putWords (k / 4 * 4) bs true mine

/-- The gang whose open version has written a byte of a word, if it is the reader's own: its bytes serve that gang alone (R147). -/
def wordGang (s : State) (g : Option Nat) (w : Nat) : Option Nat :=
  match g with
  | some u => if (List.range 4).any fun b => (Store.get none (s.gang u).version (4 * w + b)).isSome then some u else none
  | none => none

/-- Valid words of a core's L1 serve a gang: they hold its own bytes, or committed ones where it has written none (R147, R296). -/
def State.l1Serves (s : State) (c : Nat) (g : Option Nat) (k n : Nat) : Bool :=
  (s.cache c).holds k n && (List.range ((k + n - 1) / 4 + 1 - k / 4)).all fun j =>
    match Store.get none (s.cache c).l1 (k / 4 + j) with
    | some w => if w.gang.isSome then w.gang == g else wordGang s g (k / 4 + j) == none && !(g.any fun u => w.behind.contains u)
    | none => false

/-- Every word of a range is owned by the core. -/
def CoreCache.owns (c : CoreCache) (k n : Nat) : Bool :=
  (List.range ((k + n - 1) / 4 + 1 - k / 4)).all fun j => (Store.get none c.l1 (k / 4 + j)).any fun w => w.owned

/-- The acquire invalidation of a core: words it does not own become invalid (R147, R296). -/
def acquire (core : Nat) (s : State) : State :=
  s.onCache core fun c => { c with l1 := c.l1.filter fun e => match e.2 with
    | some w => w.owned
    | none => false }

/-! ## Accesses of a thread -/

/-- Who accesses: space, gang, core and launch. -/
structure Party where
  sp : Space
  gang : Option Nat
  core : Option Nat
  launch : Nat
  /-- The granules an engine's scout has had refused (R310). -/
  refused : List Nat := []
  deriving DecidableEq, Repr

def State.party (s : State) (w : Warp) : Party :=
  { sp := s.space w, gang := some w.gang, core := some (s.warpCore w), launch := (s.warpLaunch w).uid }

/-- What a read answers. -/
inductive Got
  | bytes (bs : List Byte)
  | fail (x : Xlat)
  | poison
  deriving DecidableEq, Repr

/-- A read at the home slice, bypassing L1: engines and outsiders (R192). -/
def readHome (p : Party) (va n : Nat) (s : State) : Got × State :=
  let k := p.sp.loc va
  match reach k .read s with
  | (.fail x, s) => (.fail x, s)
  | (h, s) =>
    if poisonedAt s p.gang h k n then (.poison, s)
    else
      let mgmtBad := match h with
        | .direct pa => (match placeOf s pa with
          | .mgmt off => (mgmtRead s off n).isNone
          | _ => false)
        | _ => false
      if mgmtBad then (.fail .permission, s) else (.bytes (homeRead s p.gang h k n), s.draw)

/-- A load of a thread through its core's L1, within one line (R145, R296). -/
def readL1 (p : Party) (va n : Nat) (s : State) : Got × State :=
  match p.core with
  | none => readHome p va n s
  | some c =>
    let k := p.sp.loc va
    if s.l1Serves c p.gang k n then (.bytes ((s.cache c).bytesAt k n), s)
    else
      let base := k / 128 * 128
      match reach k .read s with
      | (.fail x, s) => (.fail x, s)
      | (.direct _, s) => readHome p va n s
      | (.line, s) =>
        if poisonedAt s p.gang .line k n then (.poison, s)
        else
          let banks := s.l1Banks c p.sp.world (s.launch p.launch).record.root
          let out := homeRead s p.gang .line k n
          if banks = [] || poisonedAt s p.gang .line base 128 then (.bytes out, s)
          else
            let bank := bankFor banks k
            let put (x : CoreCache) : CoreCache :=
              (x.bankRoom bank (Config.leaves s.draws)).fill bank k (homeRead s p.gang .line base 128) (wordGang s p.gang)
            (.bytes out, (s.onCache c put).draw)

/-- An acquire's own load: a word that the core does not own is read anew, so that it may return no older value than the home slice holds (R147, R237). -/
def readAcquire (p : Party) (va n : Nat) (s : State) : Got × State :=
  match p.core with
  | none => readHome p va n s
  | some c =>
    let k := p.sp.loc va
    if (s.cache c).owns k n then readL1 p va n s
    else
      let stale (e : Nat × Option L1Word) : Bool := decide (k / 4 ≤ e.1) && decide (e.1 ≤ (k + n - 1) / 4)
      readL1 p va n (s.onCache c fun x => { x with l1 := x.l1.filter fun e => !stale e })

/-- Several accesses that may cross lines: one per line, the first failure standing. -/
def readMany (rd : Nat → Nat → State → Got × State) : Nat → Nat → Nat → State → Got × State
  | 0, _, _, s => (.bytes [], s)
  | fuel + 1, va, n, s =>
    if n = 0 then (.bytes [], s)
    else
      let m := min n (128 - va % 128)
      match rd va m s with
      | (.bytes bs, s) => match readMany rd fuel (va + m) (n - m) s with
        | (.bytes cs, s) => (.bytes (bs ++ cs), s)
        | x => x
      | x => x

/-- Bytes an engine reads at home (R192). -/
def readEngine (p : Party) (va n : Nat) (s : State) : Got × State := readMany (readHome p) (n / 128 + 2) va n s

/-- The store's core updates its copy of the line, once the home slice holds the store (R296). -/
def storeL1 (p : Party) (h : Home) (k n : Nat) (s : State) : State :=
  match p.core, h with
  | some c, .line =>
    let bs := homeRead s p.gang .line (k / 4 * 4) (((k + n - 1) / 4 + 1 - k / 4) * 4)
    s.onCache c fun x => x.store k n bs (wordGang s p.gang)
  | _, _ => s

/-- A plain store of a party (R147): ownership, version, L1 copy. -/
def writeStore (p : Party) (va : Nat) (bs : List Byte) (s : State) : Option Xlat × State :=
  let k := p.sp.loc va
  match reach k .write s with
  | (.fail x, s) => (some x, s)
  | (h, s) =>
    (none, storeL1 p h k bs.length (homeStore p.gang p.core h k bs s))

/-- An access of `n` bytes at a physical address reaches no management register (R399). -/
def noRegister (s : State) (pa n : Nat) : Bool :=
  match placeOf s pa with
  | .mgmt off => (mgmtRead s off n).isNone
  | _ => false

/-- Whether `n` bytes at a location can be reached for an access; nothing is performed. A peer's home turns a write away here (R144, R410). -/
def probe (k n : Nat) (a : Acc) (s : State) : Option Xlat × State :=
  if linePresent s k then (if lineAllows s k a then none else some .permission, s)
  else match translate k a false s with
    | (.ok pa _, s) =>
      if noRegister s pa n then (some .permission, s)
      else if a = .write && placeOf s pa = .peer then (if Config.peerRefuses s.draws then some .permission else none, s.draw)
      else (none, s)
    | (x, s) => (some x, s)

/-- Stores that may cross lines, each probed before it is performed. -/
def writeMany (p : Party) : Nat → Nat → List Byte → State → Option Xlat × State
  | 0, _, _, s => (none, s)
  | fuel + 1, va, bs, s =>
    if bs = [] then (none, s)
    else
      let m := min bs.length (128 - va % 128)
      match probe (p.sp.loc va) m .write s with
      | (some x, s) => (some x, s)
      | (none, s) => match writeStore p va (bs.take m) s with
        | (none, s) => writeMany p fuel (va + m) (bs.drop m) s
        | x => x

/-- Bytes an engine writes with plain stores (R192). -/
def writeEngine (p : Party) (va : Nat) (bs : List Byte) (s : State) : Option Xlat × State :=
  writeMany p (bs.length / 128 + 2) va bs s

/-! ## Scratchpad (R26) -/

/-- Bytes of a block's scratchpad (sr.scrsize). -/
def State.scrSize (s : State) (g : Nat) : Nat := (s.launch (s.gang g).launch).record.scratch.toNat

/-- The block rank and offset that a scratchpad address of a warp reaches with `n` bytes; none where R26 says BOUNDS. -/
def scrTarget (s : State) (w : Warp) (a n : Nat) : Option (Nat × Nat) :=
  let size := s.scrSize w.gang
  if a + n ≤ size then some (w.rank, a)
  else if 0x02000000 ≤ a && a < 0x04000000 then
    let r := nbits a 24 20
    let o := a % 2 ^ 20
    if r < (s.gang w.gang).blocks.length && o + n ≤ size then some (r, o) else none
  else none

def scrRead (s : State) (g : Nat) (t : Nat × Nat) (n : Nat) : List Byte := (s.block g t.1).scratch.bytes t.2 n
/-- Bytes put into a block's scratchpad; the errors there stay. -/
def scrPut (g : Nat) (t : Nat × Nat) (bs : List Byte) (s : State) : State :=
  s.onBlock g t.1 fun b => { b with scratch := b.scratch.setBytes t.2 bs }
/-- A write of scratchpad: a granule of 8 bytes written whole loses its error (R362, R363). -/
def scrWrite (g : Nat) (t : Nat × Nat) (bs : List Byte) (s : State) : State :=
  (scrPut g t bs s).onBlock g t.1 fun b =>
    { b with badScratch := Store.drop b.badScratch fun j => decide (t.2 ≤ j * 8) && decide (j * 8 + 8 ≤ t.2 + bs.length) }

end Sys2Proof.Machine
end

