-- ==== Sys2Proof/Machine/Flags.lean ====
section
/-! DEFINITION. Predicates (R17) and the sticky conversion flags (R29): every flag an instruction writes goes through here. -/

namespace Sys2Proof.Machine

/-- Predicate k of a thread; `pt` (7) reads 1 (R17). -/
def Thread.pred (t : Thread) (k : Nat) : Bool := k = 7 || t.preds.getLsbD k

/-- Write predicate k, 0 to 6. -/
def Thread.setPred (t : Thread) (k : Nat) (v : Bool) : Thread :=
  { t with preds := (t.preds &&& ~~~(1#7 <<< k)) ||| (if v then 1#7 <<< k else 0) }

/-- The guard of R42 and R57: predicate GP, negated by GN. -/
def Thread.guard (t : Thread) (gn : Bool) (gp : BitVec 3) : Bool := t.pred gp.toNat != gn

/-- OR conversion events into the sticky bits (R29). -/
def Thread.orFlags (t : Thread) (ev : BitVec 5) : Thread := { t with cvtflags := t.cvtflags ||| ev }

/-- Advance the stochastic seed by one step (R82), here the step function is given. -/
def Thread.stepSeed (t : Thread) (f : BitVec 16 → BitVec 16) : Thread := { t with seed := f t.seed }

/-- A seed written by WRSR: 0 stores 1 (R82). -/
def seedOf (x : BitVec 16) : BitVec 16 := if x = 0 then 1 else x

def Warp.pred (w : Warp) (l k : Nat) : Bool := (w.thread l).pred k
def Warp.setPred (w : Warp) (l k : Nat) (v : Bool) : Warp := w.onThread l fun t => t.setPred k v

end Sys2Proof.Machine
end

