-- ==== Sys2Proof/Machine/Operands.lean ====
section
/-! DEFINITION. Operand forms (R53, R54): the registers an instruction names, their limits (R13, R15, R18), their full/empty state (R21, R22, R58), the values read and written per lane. -/

namespace Sys2Proof.Machine

/-- One register use of an instruction: field of R50, full/empty mode, what it does, kind, first index, number of registers. -/
structure Use where
  field : Nat
  fe : Bool
  reads : Bool
  writes : Bool
  kind : Kind
  idx : Nat
  count : Nat
  deriving DecidableEq, Repr

def useOf (k : Nat) (fe : Bool) (p : Pos) (o : Operand) : List Use :=
  if o.kind = .vec || o.kind = .uni || o.kind = .acc then
    [{ field := k, fe, reads := p.reads, writes := p.writes, kind := o.kind, idx := o.val.toNat, count := p.count }]
  else []

/-- The register uses of one half of a paired word, with the fields R63 gives them. -/
def halfUses (fd fs : Nat) (fea feb : Bool) (h : Half) : List Use :=
  [{ field := fd, fe := false, reads := false, writes := true, kind := .vec, idx := h.d.toNat, count := 1 },
   { field := fs, fe := fea, reads := true, writes := false, kind := .vec, idx := h.a.toNat, count := 1 },
   { field := fs, fe := feb, reads := true, writes := false, kind := .vec, idx := h.b.toNat, count := 1 }]

/-- The registers an instruction uses, in field order. -/
def uses (i : Instr) : List Use :=
  match i with
  | .pairedWord h x y => halfUses 0 1 h.fexa h.fexb x ++ halfUses 2 3 h.feya h.feyb y
  | i => match raw i with
    | none => []
    | some r =>
      let sh := shape i
      useOf 0 false sh.d r.d ++ useOf 1 r.h.fea sh.a r.a ++
        (if sh.fmt = .i32 then [] else useOf 2 r.h.feb sh.b r.b) ++
        (if sh.fmt = .ops then useOf 3 r.h.fec sh.c r.c else [])

/-- The limit a register index breaks at step 3 (R13, R15, R18), `k` the accumulator count. -/
def Use.outside (u : Use) (w : Warp) (k : Nat) : Bool :=
  match u.kind with
  | .vec => w.nv < u.idx + u.count
  | .uni => w.nu < u.idx + u.count
  | .acc => k ≤ u.idx
  | _ => false

/-- Some register of the use is empty, in lane l. -/
def Use.empty (u : Use) (w : Warp) (b : Block) (l : Nat) : Bool :=
  match u.kind with
  | .vec => (List.range u.count).any fun k => !(w.vreg (u.idx + k) l).full
  | .uni => (List.range u.count).any fun k => !(w.ureg (u.idx + k)).full
  | .acc => Store.get false b.accEmpty (w.part * 4 + u.idx)
  | _ => false

/-- Some register of the use is owed by an older operation: empty and not held (R22, R59). -/
def Use.owed (u : Use) (w : Warp) (b : Block) (l : Nat) : Bool :=
  match u.kind with
  | .vec => (List.range u.count).any fun k => !(w.vreg (u.idx + k) l).full && !(w.vreg (u.idx + k) l).held
  | .uni => (List.range u.count).any fun k => !(w.ureg (u.idx + k)).full && !(w.ureg (u.idx + k)).held
  | .acc => Store.get false b.accEmpty (w.part * 4 + u.idx)
  | _ => false

/-! ## What is being issued -/

/-- An instruction that has passed steps 1 to 6 of R55: its warp, the lanes of its bundle, the active lanes and its PC. -/
structure Act where
  i : Instr
  r : Raw
  sh : Shape
  u : Nat
  lanes : List Nat
  act : List Nat
  pc : Word
  deriving DecidableEq, Repr

/-- A paired word has no fields of R50. -/
def noRaw : Raw :=
  { op := 0, sub := 0,
    h := { gn := false, gp := 7, fec := false, feb := false, fea := false, heat := 0, div := false, wbl := false,
           wbe := false, emk := false },
    d := .zero, a := .zero, b := .zero, c := .zero }

/-- Guard of an instruction. -/
def guardOf (i : Instr) : Bool × BitVec 3 :=
  match i with
  | .pairedWord h _ _ => (h.gn, h.gp)
  | i => match raw i with
    | some r => (r.h.gn, r.h.gp)
    | none => (false, 7)

/-- A uniform instruction: no operand or destination is per thread, and its entry makes no exception (R41). -/
def Act.uniform (x : Act) : Bool :=
  let per (p : Pos) (o : Operand) : Bool := p.role != .unused && (o.kind = .vec || o.kind = .prd)
  !x.sh.perLane && !(per x.sh.d x.r.d || per x.sh.a x.r.a ||
    (x.sh.fmt != .i32 && per x.sh.b x.r.b) || (x.sh.fmt = .ops && per x.sh.c x.r.c))

/-- The lowest active lane; every value of a uniform operand is read in it. -/
def Act.first (x : Act) : Nat := x.act.headD 0

/-- Lanes that perform: one for a uniform instruction (R41). -/
def Act.runs (x : Act) : List Nat := if x.uniform then x.act.take 1 else x.act

/-- Value of an operand of `n` registers in lane l (R16, R53, R54). -/
def Warp.operand (w : Warp) (n : Nat) (o : Operand) (l : Nat) : Nat :=
  match o.kind with
  | .zr => 0
  | .vec => w.vval o.val.toNat l n
  | .uni => w.uval o.val.toNat n
  | .prd => if w.pred l o.val.toNat then 1 else 0
  | .imm => (o.val.toInt % (2 ^ (32 * n) : Int)).toNat
  | .cnv | .acc | .spc => o.val.toNat

/-- Bit pattern of an integer of the short-immediate range in FP32 (one register) or FP64 (a pair), both exact. -/
def floatOfInt (n : Nat) (v : Int) : Nat :=
  let m := v.natAbs
  let s := if v < 0 then 1 else 0
  if m = 0 then 0
  else if n = 1 then s * 2 ^ 31 + (m.log2 + 127) * 2 ^ 23 + (m * 2 ^ (23 - m.log2) - 2 ^ 23)
  else s * 2 ^ 63 + (m.log2 + 1023) * 2 ^ 52 + (m * 2 ^ (52 - m.log2) - 2 ^ 52)

/-- The FP32 and FP64 instructions, in whose source positions a short immediate stands for its integer value (R54, R118). -/
def floatSources : Instr → Bool
  | .fadd .. | .fmul .. | .ffma .. | .fmin .. | .fmax .. | .fsetp .. | .fcmp .. | .frnd .. | .fclass ..
  | .dadd .. | .dmul .. | .dfma .. | .rcp .. | .rsq .. | .sqrt .. | .exp2 .. | .log2 .. | .sin .. | .cos .. | .tanh .. => true
  | _ => false

/-- The FP32 and FP64 atomics, whose operand C likewise stands for its integer value (R54, R152). -/
def floatOperand : Instr → Bool
  | .atom _ _ t _ _ | .atoms _ _ t _ | .red _ _ t _ _ => t = .f32 || t = .f64
  | _ => false

/-- Value of a source field of `n` registers in lane l, as its instruction reads it (R54). -/
def Act.source (x : Act) (w : Warp) (n : Nat) (o : Operand) (l : Nat) : Nat :=
  if floatSources x.i && decide (o.kind = .imm) then floatOfInt n o.val.toInt else w.operand n o l

/-- Values of the four fields in lane l. -/
def Act.valD (x : Act) (w : Warp) (l : Nat) : Nat := w.operand x.sh.d.regs x.r.d l
def Act.valA (x : Act) (w : Warp) (l : Nat) : Nat := x.source w x.sh.a.regs x.r.a l
def Act.valB (x : Act) (w : Warp) (l : Nat) : Nat := x.source w x.sh.b.regs x.r.b l
def Act.valC (x : Act) (w : Warp) (l : Nat) : Nat :=
  if floatOperand x.i && decide (x.r.c.kind = .imm) then floatOfInt x.sh.c.regs x.r.c.val.toInt
  else x.source w x.sh.c.regs x.r.c l

/-- Register k of field C's span, for entries that name a row of uniform registers. -/
def Warp.row (w : Warp) (o : Operand) (n : Nat) : List Word := (List.range n).map fun k => (w.ureg (o.val.toNat + k)).val

/-- Write a value of `n` registers to an operand in lane l (R16: `zr` discards). -/
def Warp.write (w : Warp) (n : Nat) (o : Operand) (l v : Nat) : Warp :=
  match o.kind with
  | .vec => w.putV o.val.toNat l n v
  | .uni => w.putU o.val.toNat n v
  | .prd => w.setPred l o.val.toNat (v % 2 = 1)
  | .zr | .cnv | .acc | .spc | .imm => w

/-- Mark an operand's registers empty, held or owed (R21, R59). -/
def Warp.markEmpty (w : Warp) (n : Nat) (o : Operand) (held : Bool) (l : Nat) : Warp :=
  match o.kind with
  | .vec => w.emptyV o.val.toNat l held n
  | .uni => w.emptyU o.val.toNat held n
  | .zr | .prd | .cnv | .acc | .spc | .imm => w

/-- Return an operand's registers to full with their old value (R143). -/
def Warp.unmark (w : Warp) (n : Nat) (o : Operand) (l : Nat) : Warp :=
  match o.kind with
  | .vec => w.refillV o.val.toNat l n
  | .uni => w.refillU o.val.toNat n
  | .zr | .prd | .cnv | .acc | .spc | .imm => w

/-- Write field D in the lanes given with their values, or hold it empty under EMK (R59). -/
def Act.writeD (x : Act) (vals : List (Nat × Nat)) (w : Warp) : Warp :=
  each vals w fun e w =>
    if x.r.h.emk then w.markEmpty x.sh.d.regs x.r.d true e.1 else w.write x.sh.d.regs x.r.d e.1 e.2

/-- Mark field D empty in the performing lanes: an operation owes the write, unless EMK holds it (R21, R59). -/
def Act.oweD (x : Act) (w : Warp) : Warp :=
  each x.runs w fun l w => w.markEmpty x.sh.d.regs x.r.d x.r.h.emk l

/-- EMK on an instruction whose field D is a source or a name (TCOPY, COLL, WDQ): D becomes held in the active lanes (R59). -/
def Act.holdD (x : Act) (w : Warp) : Warp :=
  if x.r.h.emk then each x.act w fun l w => w.markEmpty x.sh.d.regs x.r.d true l else w

/-- The bundle is not issued after all: its lanes are BLOCKED at its PC until what it waits for has come about (R9, R261). -/
def Act.park (x : Act) (w : Warp) : Warp :=
  x.lanes.foldl (fun w l => w.onThread l fun t => { t with pc := x.pc, status := .blocked (.issue (x.lanes.headD 0)) }) w

/-- Whether an operation writes field D when it completes. -/
def Act.owes (x : Act) : Bool := !x.r.h.emk

end Sys2Proof.Machine
end

