-- ==== Sys2Proof/Machine/Issue.lean ====
section
/-! DEFINITION. From decode to effect (R55, R58, R261): the waits of single instructions, the checks of steps 3 to 6, and the one path every instruction word is issued by. -/

namespace Sys2Proof.Machine

/-! ## Classes of instructions -/

/-- The counter an operation counts in (R24, R163, R184, R212). -/
def ctrOf : Instr → Option Ctr
  | .ld .. | .ldAcq .. | .st .. | .stRel .. | .lds .. | .sts .. | .ldc .. | .ldb .. | .pref .. | .atom .. | .atoms ..
  | .red .. | .atomAgg .. | .baroInit .. | .baroArrive .. => some .mem
  | .tcopyG2s .. | .tcopyS2g .. | .tcopyG2g .. => some .copy
  | .mma .. | .mmaS .. | .resLoad .. | .accld .. | .accst .. => some .mat
  | .collAllreduce .. | .collAllgather .. | .collRedscat .. | .collBcast .. | .wdq .. => some .coll
  | .emit .. | .frame .. | .cut .. => some .edge
  | _ => none

/-- Instructions whose issue adds an entry to the in-flight record at once: those that count, but for MMA, which counts when its collective issues (R169). -/
def countsAtIssue (i : Instr) : Bool :=
  match i with
  | .mma .. | .mmaS .. => false
  | i => (ctrOf i).isSome

def isPrefetch (i : Instr) : Bool :=
  match i with
  | .pref .. => true
  | _ => false

def isQuery (i : Instr) : Bool :=
  match i with
  | .baroQuery .. => true
  | _ => false

/-- Texture instructions read memory as plain loads, and count in no counter (R211). -/
def isTexture (i : Instr) : Bool :=
  match i with
  | .tex .. | .texv .. | .tld .. => true
  | _ => false

/-- Reads and writes of memory or scratchpad by a thread; a prefetch orders nothing (R151). A BARO.QUERY reads its object without counting. -/
def isMemOp (i : Instr) : Bool := (ctrOf i = some .mem && !isPrefetch i) || isQuery i

/-- The memory events of a thread (R236): its reads and writes, and the loads of its texture instructions. -/
def isMemEvent (i : Instr) : Bool := isMemOp i || isTexture i

/-- Older memory operations of some of the lanes that have not been performed: what a release, a FENCE and a barrier arrival wait for (R147, R157, R159, R211, R236; log 23). -/
def Warp.pendingMem (w : Warp) (lanes : List Nat) (before : Nat) : Bool :=
  w.ops.any fun o => !o.performed && isMemEvent o.ins && decide (o.id < before) && lanes.any fun l => o.lanes.getLsbD l

/-- Instructions of R229, which commit and expose first. -/
def exposes : Instr → Bool
  | .wassign .. | .scrub .. | .keyrel .. | .certw .. | .halt .. => true
  | .mext _ f => f.b.kind != .zr
  | _ => false

/-! ## Barrier objects (R160) -/

structure Baro where
  bitmap : Word
  phase : Word
  due : DWord
  pending : Word
  expected : Word
  deriving DecidableEq, Repr

def Baro.ofBytes (bs : List Byte) : Baro :=
  let x := natOfBytes bs
  { bitmap := .ofNat 32 (nbits x 191 160), phase := .ofNat 32 (nbits x 159 128), due := .ofNat 64 (nbits x 127 64),
    pending := .ofNat 32 (nbits x 63 32), expected := .ofNat 32 (nbits x 31 0) }

/-- Bits 191:0 of the object; bits 255:192 are left as they are but by INIT. -/
def Baro.bytes (b : Baro) : List Byte :=
  bytesOfNat 24 (b.bitmap.toNat * 2 ^ 160 + b.phase.toNat * 2 ^ 128 + b.due.toNat * 2 ^ 64 + b.pending.toNat * 2 ^ 32 +
    b.expected.toNat)

/-- The completion test (R160): when nothing is pending or due, the next phase opens. -/
def Baro.test (b : Baro) : Baro :=
  if b.pending = 0 && b.due = 0 then { b with phase := b.phase + 1, pending := b.expected, bitmap := 0 } else b

def baroAt (s : State) (g : Nat) (t : Nat × Nat) : Baro := .ofBytes (scrRead s g t 24)
def onBaro (g : Nat) (t : Nat × Nat) (f : Baro → Baro) (s : State) : State :=
  scrPut g t (f (baroAt s g t)).bytes s

/-- A BARO operation or an engine operation has named an object: its bytes are one from then on (R160; log 62). -/
def nameObject (g : Nat) (t : Nat × Nat) (s : State) : State :=
  s.onBlock g t.1 fun b => { b with objects := Store.put false b.objects t.2 true }

/-- Whatever writes an object and leaves nothing pending or due completes its phase at that moment (R160). -/
def storeObject (g : Nat) (t : Nat × Nat) (s : State) : State :=
  let a := t.2 / 32 * 32
  if Store.get false (s.block g t.1).objects a then onBaro g (t.1, a) Baro.test s else s

/-- Older accesses of some of the lanes to the words of a barrier object that have not been performed: what a read of the object waits for (R236, same word). -/
def Warp.pendingObject (w : Warp) (s : State) (lanes : List Nat) (a : Nat) : Bool :=
  let object (q : Nat) : Option (Nat × Nat) := (scrTarget s w q 1).map fun t => (t.1, t.2 / 32)
  w.ops.any fun o => !o.performed && (match o.ins with
    | .sts .. | .atoms .. | .baroArrive .. | .baroQuery .. => true
    | _ => false) && (lanes.any fun l => o.lanes.getLsbD l) && o.slots.any fun x => object x.addr == object a

/-! ## Addresses -/

/-- Address of a global access (R142): base pair plus offset; a register offset is zero-extended, an immediate sign-extended. -/
def Act.globalAddr (x : Act) (w : Warp) (l : Nat) : Nat :=
  let off := if x.r.b.kind = .imm then (x.r.b.val.toInt % (2 ^ 64 : Int)).toNat else x.valB w l
  (x.valA w l + off) % 2 ^ 64

/-- Address of a scratchpad access (R142). -/
def Act.scrAddr (x : Act) (w : Warp) (l : Nat) : Nat := (x.valA w l + x.valB w l) % 2 ^ 32

/-! ## Residencies -/

/-- The slot and index a handle names for a warp (R166). -/
def State.resOf (s : State) (w : Warp) (handle : Nat) : Option (Nat × Nat) :=
  let sp := s.space w
  match s.ctxSlot sp.asid with
  | none => none
  | some c =>
    let r := Store.get {} (s.ctx c).residencies (handle % 4096)
    if r.live && r.gen.toNat = nbits handle 31 16 && nbits handle 15 12 = sp.world && handle != 0 then
      some (c, handle % 4096) else none

def State.res (s : State) (x : Nat × Nat) : Residency := Store.get {} (s.ctx x.1).residencies x.2
def State.onRes (s : State) (x : Nat × Nat) (f : Residency → Residency) : State :=
  s.onCtx x.1 fun c => { c with residencies := Store.put {} c.residencies x.2 (f (Store.get {} c.residencies x.2)) }

/-- Number of a warp's partition in the part. -/
def State.partNo (s : State) (w : Warp) : Nat := s.warpCore w * 32 + w.part

/-- Tiles of a partition's residency store in use. -/
def State.tilesUsed (s : State) (p : Nat) : Nat :=
  (s.ctxs.map fun c => (c.2.residencies.map fun r => if r.2.live && r.2.home = some p then r.2.tiles else 0).sum).sum

/-- The residency store of a partition has room for `n` more tiles. -/
def State.storeRoom (s : State) (p n : Nat) : Bool := s.tilesUsed p + n ≤ Config.residencyTiles

/-- A residency must be brought into the issuing partition first (R178). -/
def State.homeless (s : State) (w : Warp) (x : Nat × Nat) : Bool := (s.res x).home != some (s.partNo w)

/-- A form that needs a rehoming waits for it where the partition has room; without room it traps (R178). -/
def State.awaitsHome (s : State) (w : Warp) (x : Nat × Nat) : Bool :=
  s.homeless w x && s.storeRoom (s.partNo w) (s.res x).tiles

/-- A matrix operation or load holds a residency: words 5 of an MMA's and the handle of a RES.LOAD stand in the operation's registers (R178). -/
def holdsRes (s : State) (x : Nat × Nat) (w : Warp) (o : Op) : Bool :=
  !o.finished && (match o.ins with
    | .mma .. => s.resOf w ((o.regs.getD 5 0).toNat) = some x
    | .resLoad .. => s.resOf w ((o.regs.getD 2 0).toNat) = some x
    | _ => false)

/-- A queued or running operation holds it: what REVOKE waits for. -/
def State.resHeld (s : State) (x : Nat × Nat) : Bool := s.warps.any fun w => !w.retired && (s.gang w.gang).state == .placed && w.ops.any (holdsRes s x w)

/-- An operation on the home partition holds it: what a rehoming waits for. -/
def State.heldAtHome (s : State) (x : Nat × Nat) : Bool :=
  s.warps.any fun w => !w.retired && (s.gang w.gang).state == .placed && (s.res x).home == some (s.partNo w) && w.ops.any (holdsRes s x w)

/-! ## Waits of single instructions -/

/-- The block of the core that owns the churn slot (R199). -/
def State.churnOwner (s : State) (core : Nat) : Option (Nat × Nat) :=
  (s.gangs.filter fun g => g.state = .placed).findSome? fun g =>
    (g.blocks.find? fun b => b.ownsChurn && !b.retired && coreNo g.cluster b.core == core).map fun b => (g.uid, b.rank)

/-- The block's tag window has no room for `n` more operations beside its pinned entries (R163, R284). -/
def Block.tagsFull (b : Block) (n : Nat) : Bool := 256 < (b.tags.filter fun t => t.pinned).length + n

/-- What an instruction that has passed steps 1 to 6 still waits for before it is issued (R110, R157 to R162, R177, R178, R199, R201, R209, R210, R223 to R229, R236). -/
def mustWait (x : Act) (s : State) : Bool :=
  let w := s.warp x.u
  let l := x.first
  match x.i with
  | .fenceAcq .. | .fenceRel .. | .fenceAcqRel .. | .baroInit .. | .baroArrive .. | .mext .. | .ecsig .. | .trisub .. | .attr .. =>
    w.pendingMem x.act w.nextOp
  | .hashInit .. | .hashUpd .. | .hashFin .. => w.pendingMem x.act w.nextOp || (s.warpBlock w).tagsFull 1
  | .baroWait .. | .baroQuery .. => w.pendingObject s x.act (x.scrAddr w l)
  | .qpop .. | .qpeek .. =>
    let b := s.warpBlock w
    let q := b.queues.getD (x.r.a.val.toNat - 0x80) {}
    b.ownsChurn && (b.tagsFull x.act.length || (decide (q.entries.length < w.width / 16) && !q.closed))
  | .churnStart .. =>
    (s.warpBlock w).tagsFull 1 || (match s.churnOwner (s.warpCore w) with
      | some o => if o = (w.gang, w.rank) then ((s.warpBlock w).churn.any fun c => c.running) else true
      | none => false)
  | .scld .. => (s.warps.any fun v => v.gang == w.gang && v.rank == w.rank && v.part == w.part &&
      v.ops.any fun o => !o.finished && (match o.ins with
        | .mma .. | .mmaS .. => true
        | _ => false)) || w.pendingMem x.act w.nextOp
  | .resLoad .. => (match s.resOf w (x.valB w l) with
      | some r => s.awaitsHome w r
      | none => false)
  | .resPin .. | .resUnpin .. => (match s.resOf w (x.valA w l) with
      | some r => s.awaitsHome w r
      | none => false)
  | .resRevoke .. => (match s.resOf w (x.valA w l) with
      | some r => s.resHeld r
      | none => false)
  | i => exposes i && w.pendingMem x.act w.nextOp

/-! ## The checks -/

/-- Outcome of steps 3 to 6. -/
inductive Issue
  /-- BOUNDS at step 3, with its field. -/
  | bounds (field : Nat)
  /-- No active lane: the instruction retires (R55). -/
  | skip
  /-- EMPTY-READ, with the reporting lane and the field (R58). -/
  | empty (lane field : Nat)
  /-- A source holds an uncorrectable error (R364). -/
  | consumed
  | wait
  | go (act : List Nat)
  deriving DecidableEq, Repr

/-- First use, in lane-major order, that satisfies `p`. -/
def findUse (us : List Use) (lanes : List Nat) (p : Use → Nat → Bool) : Option (Nat × Nat) :=
  lanes.findSome? fun l => (us.find? fun u => p u l).map fun u => (l, u.field)

/-- Some register of a source holds an uncorrectable error; accumulators are read element by element, by their instructions. -/
def Use.bad (u : Use) (w : Warp) (l : Nat) : Bool :=
  match u.kind with
  | .vec => (List.range u.count).any fun k => (w.vreg (u.idx + k) l).bad
  | .uni => (List.range u.count).any fun k => (w.ureg (u.idx + k)).bad
  | _ => false

/-- What is being issued, with its active lanes. -/
def actOf (i : Instr) (b : Bundle) (act : List Nat) : Act :=
  { i, r := (raw i).getD noRaw, sh := shape i, u := b.warp, lanes := lanesOf b.lanes, act, pc := b.pc }

/-- Steps 3 to 6 of R55 for a bundle. -/
def check (i : Instr) (b : Bundle) (s : State) : Issue :=
  let w := s.warp b.warp
  let blk := s.warpBlock w
  let us := uses i
  let k := (s.warpLaunch w).record.accs.toNat
  match us.find? fun u => u.outside w k with
  | some u => .bounds u.field
  | none =>
    let (gn, gp) := guardOf i
    let act := (lanesOf b.lanes).filter fun l => (w.thread l).guard gn gp
    if act = [] then .skip
    else match findUse us act fun u l => u.reads && u.fe && u.empty w blk l with
      | some (l, f) => .empty l f
      | none =>
        if (findUse us act fun u l => u.reads && u.empty w blk l).isSome then .wait
        else if (findUse us act fun u l => u.writes && u.owed w blk l).isSome then .wait
        else if countsAtIssue i && decide (64 ≤ w.counted) then .wait
        else if mustWait (actOf i b act) s then .wait
        else if (findUse us act fun u l => u.reads && u.bad w l).isSome then .consumed
        else .go act

/-- The unit word of a warp's partition (R221). -/
def State.unitWord (s : State) (w : Warp) : Nat := s.partNo w

/-! ## Shadow warps (R366 to R369; log 29) -/

/-- What a thread computes beside the registers. -/
def Thread.computed (t : Thread) : Calc := { preds := t.preds, seed := t.seed, cvtflags := t.cvtflags }

/-- The shadow's PC of a lane came out otherwise than the warp's. -/
def Warp.strays (w : Warp) (l : Nat) : Bool := (Store.get none w.shadowT l).any fun c => c.astray

/-- The warp as its shadow holds it. -/
def Warp.asShadow (w : Warp) : Warp :=
  let v (e : Nat × Option Word) (m : Store Reg) : Store Reg :=
    match e.2 with
    | some x => Store.put {} m e.1 { Store.get {} m e.1 with val := x }
    | none => m
  let own (e : Nat × Option Calc) (w : Warp) : Warp :=
    match e.2 with
    | some c => w.onThread e.1 fun t => { t with preds := c.preds, seed := c.seed, cvtflags := c.cvtflags }
    | none => w
  let vs : Store Reg := each w.shadowV w.vregs v
  let us : Store Reg := each w.shadowU w.uregs v
  each w.shadowT { w with vregs := vs, uregs := us } own

/-- The shadow holds something else than its warp. -/
def Warp.diverged (w : Warp) : Bool := w.shadowV != [] || w.shadowU != [] || w.shadowT != []

/-- Differences of two register stores: what the second holds. -/
def regDiff (a b : Store Reg) : Store (Option Word) :=
  each ((a.map Prod.fst ++ b.map Prod.fst).eraseDups) [] fun k m =>
    if (Store.get {} a k).val = (Store.get {} b k).val then m else Store.put none m k (some (Store.get {} b k).val)

/-- The warp after both have executed an instruction: main `w`, shadow `v`; a late result keeps the shadow's operands. -/
def Warp.withShadow (w v : Warp) (old : Nat) : Warp :=
  let late (o : Op) : Op :=
    match v.op o.id with
    | some q => if decide (old ≤ o.id) && q.slots != o.slots then { o with shadow := q.slots } else o
    | none => o
  let theirs (l : Nat) : Calc :=
    { (v.thread l).computed with astray := w.strays l || (w.thread l).pc != (v.thread l).pc }
  let ts := (List.range w.width).foldl (fun m l =>
    if theirs l = (w.thread l).computed then m else Store.put none m l (some (theirs l))) []
  { w with
    shadowV := regDiff w.vregs v.vregs, shadowU := regDiff w.uregs v.uregs, shadowT := ts, ops := w.ops.map late }

/-- Requests that leave the warp, and EXIT: held until the shadow has issued its copy, and compared (R368). -/
def leavesWarp : Instr → Bool
  | .exit .. | .decl .. | .cvsign .. | .role .. | .fenceAcq .. | .fenceRel .. | .fenceAcqRel .. | .sealVersion .. | .bar .. | .gbar ..
  | .baroWait .. | .baroQuery .. | .accz .. | .accrd .. | .accwr .. | .scld .. | .resAlloc .. | .resPin .. | .resUnpin ..
  | .resRevoke .. | .resQuery .. | .leave .. | .churnStart .. | .churnStop .. | .qpush .. | .qpop .. | .qpeek .. | .rechdr ..
  | .trisub .. | .mbin .. | .attr .. | .tex .. | .texv .. | .tld .. | .beacon .. | .wassign .. | .scrub .. | .hashInit ..
  | .hashUpd .. | .hashFin .. | .mext .. | .ecsig .. | .keyrel .. | .certw .. | .halt .. | .mma .. | .mmaS .. => true
  | i => (ctrOf i).isSome

/-- Requests that stand in the in-flight record until they are performed, and are held there; every other one acts at its issue, which is held itself (R368; log 29). -/
def heldInRecord : Instr → Bool
  | .ld .. | .ldAcq .. | .st .. | .stRel .. | .lds .. | .sts .. | .ldc .. | .ldb .. | .pref .. | .atom .. | .atoms .. | .red ..
  | .atomAgg .. | .baroArrive .. | .baroQuery .. | .tcopyG2s .. | .tcopyS2g .. | .tcopyG2g .. | .accld .. | .accst .. | .wdq ..
  | .emit .. | .tex .. | .texv .. | .tld .. => true
  | _ => false

/-- Values that an instruction brings into a warp's registers from outside it, in so many lanes (R367). -/
def outsideValues (i : Instr) (lanes : Nat) : Nat :=
  let one (u : Use) : Nat := if !u.writes then 0 else match u.kind with
    | .vec => u.count * lanes
    | .uni => u.count
    | _ => 0
  let outside := leavesWarp i || (match i with
    | .rdsr .. => true
    | _ => false)
  if outside then ((uses i).map one).sum else 0

/-- Some register read differs between two warps. -/
def Use.differs (u : Use) (w v : Warp) (l : Nat) : Bool :=
  u.reads && (match u.kind with
    | .vec => (List.range u.count).any fun k => (w.vreg (u.idx + k) l).val != (v.vreg (u.idx + k) l).val
    | .uni => (List.range u.count).any fun k => (w.ureg (u.idx + k)).val != (v.ureg (u.idx + k)).val
    | _ => false)

/-- A destination written from outside the warp is the same in the shadow. -/
def Use.agree (u : Use) (act : List Nat) (w : Warp) : Warp :=
  if !u.writes then w
  else match u.kind with
    | .vec =>
      let kept := Store.drop w.shadowV fun k =>
        decide (u.idx ≤ k / 64) && decide (k / 64 < u.idx + u.count) && act.contains (k % 64)
      { w with shadowV := kept }
    | .uni =>
      let kept := Store.drop w.shadowU fun k => decide (u.idx ≤ k) && decide (k < u.idx + u.count)
      { w with shadowU := kept }
    | _ => w

/-- Predicates that an instruction names in fields of a kind. -/
def predsOf (i : Instr) (p : Pos → Bool) : List Nat :=
  match raw i with
  | none => []
  | some r =>
    let sh := shape i
    (([(sh.d, r.d), (sh.a, r.a), (sh.b, r.b), (sh.c, r.c)] : List (Pos × Operand)).filter fun e =>
      p e.1 && decide (e.2.kind = .prd)).map fun e => e.2.val.toNat

/-- Predicates written from outside the warp are the same in the shadow. -/
def Warp.agreePreds (i : Instr) (act : List Nat) (w : Warp) : Warp :=
  let same (t : Thread) (c : Calc) (p : Nat) : Calc :=
    { c with preds := (c.preds &&& ~~~(1#7 <<< p)) ||| (t.preds &&& (1#7 <<< p)) }
  let lane (m : Store (Option Calc)) (l : Nat) : Store (Option Calc) :=
    match Store.get none m l with
    | none => m
    | some c =>
      let c := (predsOf i Pos.writes).foldl (same (w.thread l)) c
      Store.put none m l (if c = (w.thread l).computed then none else some c)
  { w with shadowT := act.foldl lane w.shadowT }

/-- What an instruction takes from outside the warp's own registers enters the shadow too (R367). -/
def Warp.agree (i : Instr) (act : List Nat) (w : Warp) : Warp :=
  ((uses i).foldl (fun w u => u.agree act w) w).agreePreds i act

/-- The shadow's copy of a request differs from its warp's: another word, other active lanes, or another operand (R368). -/
def Warp.copyDiffers (i : Instr) (lanes act : List Nat) (w : Warp) : Bool :=
  let v := w.asShadow
  let (gn, gp) := guardOf i
  (lanes.filter fun l => (v.thread l).guard gn gp) != act || lanes.any w.strays ||
    (act.any fun l => ((uses i).any fun u => u.differs w v l) ||
      (predsOf i Pos.reads).any fun p => (w.thread l).pred p != (v.thread l).pred p)

/-- The registers of a warp's partition (R373). -/
def regWhere (s : State) (w : Warp) : ErrWhere :=
  { addr := 0, pa := false, source := 0x01, ltype := 0, loc := .ofNat 28 (s.unitWord w) }

/-- Where a shadow mismatch is reported (R368, R373). -/
def mismatchWhere (s : State) (w : Warp) : ErrWhere :=
  { addr := 0, pa := false, source := 0x0E, ltype := 0, loc := .ofNat 28 (s.unitWord w) }

/-- The trap state of a warp's threads, as R368 compares it. -/
def Warp.trapState (w : Warp) : List (Status × Bool × Word) := w.threads.map fun t => (t.status, t.handler, t.trapcause)

/-- The comparison fails: the request is not sent, the trap not taken, and the gang consumes an uncorrectable error (R368). -/
def shadowMismatch (u : Nat) (s : State) : State :=
  { s with agenda := s.agenda ++ [.uncorrectableConsumed (s.warp u).gang (mismatchWhere s (s.warp u))] }

/-- Execution by a warp and by a shadow that differs from it. -/
def shadowed (i : Instr) (body : Act → State → State) (x : Act) (b : Bundle) (s : State) : State :=
  let w := s.warp b.warp
  if leavesWarp i then
    (if w.copyDiffers i x.lanes x.act then shadowMismatch b.warp s
     else (body x s).onWarp b.warp (Warp.agree i x.act))
  else
    let s1 := body x s
    let v := ((body x (s.onWarp b.warp fun _ => w.asShadow)).warp b.warp)
    if (s1.warp b.warp).trapState != v.trapState then shadowMismatch b.warp s
    else match i with
      | .rdsr .. => s1.onWarp b.warp (Warp.agree i x.act)
      | _ => s1.onWarp b.warp fun m => m.withShadow v w.nextOp

/-- The shadow does not come to what its warp comes to before step 7: to the trap of some lanes, or to no active lane (R368). -/
def Warp.sees (w : Warp) (i : Instr) (lanes : List Nat) (out : Issue) : Bool :=
  let (gn, gp) := guardOf i
  let mine := lanes.filter fun l => (w.thread l).guard gn gp
  w.diverged && match out with
    | .bounds _ => lanes.any w.strays
    | .skip => leavesWarp i && w.copyDiffers i lanes []
    | .empty .. => w.copyDiffers i lanes mine
    | _ => false

/-- Issue of an instruction for a bundle: the traps of steps 3 and 5, or its effect. -/
def issueAt (i : Instr) (body : Act → State → State) (b : Bundle) (s : State) : State :=
  let w := s.warp b.warp
  let lanes := lanesOf b.lanes
  if w.asyncTrap.isSome then reportAsync b.warp s
  else if w.sees i lanes (check i b s) then shadowMismatch b.warp s
  else match check i b s with
    | .bounds f =>
      takeTrap b.warp (lanes.map fun l => (l, b.pc)) (lanes.headD 0) { cause := causeBounds, info := .ofNat 32 (f * 256) } s
    | .skip => s.advance b.warp lanes b.pc
    | .empty l f =>
      let (gn, gp) := guardOf i
      let act := lanes.filter fun l => (w.thread l).guard gn gp
      bundleTrap b.warp lanes act b.pc l { cause := causeEmptyRead, info := .ofNat 32 (f * 256) }
        (s.advance b.warp lanes b.pc)
    | .consumed => { s with agenda := s.agenda ++ [.uncorrectableConsumed w.gang (regWhere s w)] }
    | .wait => s.blockLanes b.warp lanes (.issue (lanes.headD 0))
    | .go act =>
      if w.diverged then shadowed i body (actOf i b act) b (s.advance b.warp lanes b.pc)
      else body (actOf i b act) (s.advance b.warp lanes b.pc)

/-- Execution of an instruction word: the bundle being issued takes it through steps 3 to 7. -/
def issue (i : Instr) (body : Act → State → State) (s : State) : Host.Outcome State Fault Refusal :=
  match s.cur with
  | none => .fault .noBundle
  | some b => .next (issueAt i body b s)

/-- A trap of step 7: it enters in the active lanes, a fatal one stops the whole bundle, and nothing else happens (R216, R270). -/
def Act.trap (x : Act) (rep : Nat) (t : TrapInfo) (s : State) : State := bundleTrap x.u x.lanes x.act x.pc rep t s

/-- An event that the state enables is performed; one it does not enable faults. -/
def event (enabled : Bool) (effect : State → State) (s : State) : Host.Outcome State Fault Refusal :=
  if enabled then .next (effect s) else .fault .notEnabled

/-! ## The shared effect of operations on registers -/

/-- D := g(a, b, c, old d) in every active lane; every lane is read before any is written (R58). -/
def alu (g : Nat → Nat → Nat → Nat → Nat) (x : Act) (s : State) : State :=
  let w := s.warp x.u
  let outs := x.act.map fun l => (l, g (x.valA w l) (x.valB w l) (x.valC w l) (x.valD w l))
  s.onWarp x.u (x.writeD outs)

def alu1 (g : Nat → Nat) : Act → State → State := alu fun a _ _ _ => g a
def alu2 (g : Nat → Nat → Nat) : Act → State → State := alu fun a b _ _ => g a b
def alu3 (g : Nat → Nat → Nat → Nat) : Act → State → State := alu fun a b c _ => g a b c

/-- Active lanes move to a PC of their own (R107). -/
def jump (target : Warp → Nat → Word) (x : Act) (s : State) : State :=
  let w := s.warp x.u
  let ts := x.act.map fun l => (l, target w l)
  s.onWarp x.u fun w => each ts w fun e w => w.onThread e.1 fun t => { t with pc := e.2 }

end Sys2Proof.Machine
end

