-- ==== Sys2Proof/Machine/Engine.lean ====
section
/-! DEFINITION. What the operations of the in-flight record share (R24, R143, R144, R160, R236, R273, R276, R282 to R284): finding and finishing an operation, its order among the warp's operations, its faults, tags and the counts on a barrier object. -/

namespace Sys2Proof.Machine

def State.opOf (s : State) (r : OpRef) : Option Op := (s.warp r.warp).op r.op
def State.onOp (s : State) (r : OpRef) (f : Op → Op) : State := s.onWarp r.warp fun w => w.onOp r.op f
def State.addOp (s : State) (u : Nat) (o : Op) : State := s.onWarp u fun w => w.addOp o

/-- The lanes of an instruction as a mask. -/
def Act.mask (x : Act) : Mask := maskOf x.act

/-- The record entry of an instruction being issued. -/
def Act.op (x : Act) (slots : List Slot) (regs : List Word) : Op :=
  { id := 0, ins := x.i, pc := x.pc, lanes := x.mask, ctr := ctrOf x.i, slots, regs }

/-- A gang consumes an uncorrectable error (R364). -/
def consume (g : Nat) (w : ErrWhere) (s : State) : State := { s with agenda := s.agenda ++ [.uncorrectableConsumed g w] }

/-- The first marked granule of a 128-byte line from an address on, as the address of its first byte behind it. -/
def markFrom (marks : Store Bool) (a : Nat) : Nat :=
  max a (8 * (((List.range 16).map (a / 8 + ·)).find? fun j => j / 16 == a / 128 && Store.get false marks j).getD (a / 8))

/-- Where the error lies that an access from a location on meets (R372, R373): in the line of L2 or where that was filled from, in memory for an uncached access, or in a table entry. -/
def poisonWhere (s : State) (k : Nat) : ErrWhere :=
  if linePresent s k then
    let j := markFrom s.mem.poisonL2 k / 8
    if Store.get false s.mem.poisonL2 j then granuleWhere s j else l2Where k
  else match (translate k .read false s).1 with
    | .poisoned pe => dramWhere pe
    | .ok pa _ => memWhere s k (markFrom s.mem.poisonDram pa)
    | _ => l2Where k

/-- An operation of a warp completes: its units of heavy issue return (R266), its record entry leaves (R24). -/
def State.finishOp (s : State) (r : OpRef) : State :=
  let give (c : Cluster) : Cluster :=
    { c with
      held := c.held - ((c.holders.filter fun h => h.1 == r).map Prod.snd).sum
      holders := c.holders.filter fun h => h.1 != r }
  let s := s.onWarp r.warp fun w => w.finish r.op
  { s with clusters := s.clusters.map give }

/-! ## Order of a warp's operations -/

/-- Scratchpad operations of a thread. -/
def isScratchOp : Instr → Bool
  | .lds .. | .sts .. | .atoms .. | .baroInit .. | .baroArrive .. | .baroQuery .. => true
  | _ => false

/-- An acquire among the memory operations (R147, R155). -/
def isAcquire : Instr → Bool
  | .ldAcq .. => true
  | .atom _ _ _ k _ => k = .acq || k = .acqRel
  | _ => false

/-- A release among the memory operations. -/
def isRelease : Instr → Bool
  | .stRel .. => true
  | .atom _ _ _ k _ => k = .rel || k = .acqRel
  | .red _ _ _ r _ => r
  | _ => false

/-- A plain load, which an older acquire of its warp holds back (R147). -/
def isLoad : Instr → Bool
  | .ld .. | .ldAcq .. | .lds .. | .ldc .. | .ldb .. => true
  | _ => false

/-- Operations that read or write for their thread after its older accesses: the engines' (R192, R236), and texture fetches, whose words are ordered by the same-word link of R236. -/
def isEngineOp : Instr → Bool
  | .tcopyG2s .. | .tcopyS2g .. | .tcopyG2g .. | .collAllreduce .. | .collAllgather .. | .collRedscat .. | .collBcast ..
  | .mma .. | .mmaS .. | .accst .. | .accld .. | .resLoad .. | .tex .. | .texv .. | .tld .. => true
  | _ => false

/-- Bytes from a slot's address on that its lines are told by: a gather may meet two lines, an aligned access never does. -/
def spanOf : Instr → Nat
  | .ldb _ z .. => z.bytes
  | _ => 1

/-- The lines a slot of an operation reaches: 0 and a line of global memory, or the block and the line of scratchpad. -/
def slotLines (s : State) (w : Warp) (o : Op) (x : Slot) : List (Nat × Nat) :=
  if isScratchOp o.ins then
    (match scrTarget s w x.addr 1 with
      | some t => [(1 + t.1, t.2 / 128)]
      | none => [])
  else ([x.addr / 128, (x.addr + spanOf o.ins - 1) / 128].eraseDups).map fun k => (0, k)

/-- Every line an operation reaches. -/
def opLines (s : State) (w : Warp) (o : Op) : List (Nat × Nat) := (o.slots.map (slotLines s w o)).flatten

/-- Two operations reach a common line. -/
def sameLine (s : State) (w : Warp) (p o : Op) : Bool := (opLines s w p).any fun k => (opLines s w o).contains k

/-- Two operations reach a common destination: a home slice, or a scratchpad bank of a block (R285). -/
def sameDestination (s : State) (w : Warp) (p o : Op) : Bool :=
  let dest (l : Nat × Nat) : Nat × Nat := if l.1 = 0 then (0, sliceOf (128 * l.2)) else (l.1, l.2 / 256)
  (opLines s w p).any fun k => (opLines s w o).any fun l => dest k == dest l

/-- A texture operation reads bytes that another operation of its warp reaches: those of its descriptor, or any of the image the descriptor tells of (log 12). -/
def textureMeets (s : State) (w : Warp) (p o : Op) : Bool :=
  let d := (o.regs.getD 0 0).toNat + (o.regs.getD 1 0).toNat * 2 ^ 32
  let image : Nat × Nat := match (readL1 (s.party w) d 64 s).1 with
    | .bytes bs => ((TexDesc.ofNat (natOfBytes bs)).base, (TexDesc.ofNat (natOfBytes bs)).length)
    | _ => (0, 0)
  !isScratchOp p.ins && p.slots.any fun x =>
    ([(d, 64), image] : List (Nat × Nat)).any fun r => decide (x.addr < r.1 + r.2) && decide (r.1 < x.addr + 16)

/-- A replayed request is performed before a younger one of its warp to the same destination, unless it waits at its page; a query is, replayed or not (R285 rule 2; log 12). -/
def sentBefore (s : State) (w : Warp) (o p : Op) : Bool :=
  (p.replay && p.state != .faulted && p.mig = [] && isMemOp p.ins && isMemOp o.ins && sameDestination s w p o) ||
    (match p.ins, o.ins with
      | .wdq .., .wdq .. => true
      | _, _ => false)

/-- An older operation `p` of the warp must be performed before `o` (R147, R157, R211, R236, R276, R285). -/
def holdsBack (s : State) (w : Warp) (o p : Op) : Bool :=
  decide (p.id < o.id) && !p.performed && !p.finished &&
    ((isMemOp p.ins && isMemOp o.ins && sameLine s w p o) || sentBefore s w o p ||
      (isAcquire p.ins && isLoad o.ins) ||
      (isMemEvent p.ins && (isRelease o.ins || isEngineOp o.ins) && (p.lanes &&& o.lanes) != 0) ||
      (isTexture p.ins && isMemOp o.ins && (p.lanes &&& o.lanes) != 0 && textureMeets s w o p) ||
      (isMemOp p.ins && (match o.ins with
        | .mma .. | .mmaS .. => true
        | _ => false)))

/-- A request is held at the partition until the shadow has issued its own copy (R368). -/
def Warp.holdsRequest (w : Warp) (o : Op) : Bool :=
  match w.lag with
  | [] => false
  | n :: _ => decide (n ≤ o.id)

/-- An operation of a warp that runs may be performed. -/
def opReady (s : State) (r : OpRef) (o : Op) : Bool :=
  let w := s.warp r.warp
  !w.retired && !w.stopped && !o.performed && o.mig = [] && !w.holdsRequest o && o.state != .faulted && (s.gang w.gang).state = .placed &&
    !w.ops.any (holdsBack s w o)

/-- An access meets a page in migration (R273, R304). -/
def migrating (s : State) (k : Nat) (a : Acc) : Bool := !linePresent s k && (translate k a false s).1 = .migrating

/-- An operation has met a page in migration: it waits for a shootdown that covers the page (R304). -/
def State.awaitPage (s : State) (r : OpRef) (k : Nat) : State := s.onOp r fun o => { o with mig := k / 65536 :: o.mig }

/-! ## Faults of operations -/

/-- Recoverable faults raise TRANSLATION at once in a context (R273, R274). -/
def fastFault (s : State) (asid : Nat) : Bool := s.mgmt.fqlogn = 0 || s.mgmt.ffast.getLsbD (asid % 32)

/-- An operation stops at a page that is not present (R274 to R276). -/
def opFaulted (r : OpRef) (sp : Space) (va kind : Nat) (s : State) : State :=
  let s := s.onOp r fun o => { o with state := .faulted }
  { s with faults := s.faults ++ [{ op := r, world := sp.world, asid := sp.asid, va, kind }] }

/-- A fatal fault of an operation: reported in a lane, at its PC; asynchronously for an engine (R144, R172, R185). Threads gone since stay so (R9). The operation ends. -/
def opTrap (r : OpRef) (lane : Nat) (async : Bool) (t : TrapInfo) (s : State) : State :=
  match s.opOf r with
  | none => s
  | some o =>
    let s := s.finishOp r
    let live := (lanesOf o.lanes).filter fun l => !((s.warp r.warp).thread l).status.gone
    if async || o.replay || live = [] then asyncTrap r.warp lane o.pc t s
    else takeTrap r.warp (live.map fun l => (l, o.pc)) (if live.contains lane then lane else live.headD lane) t s

/-- A failed translation of an operation (R273). -/
def opFail (r : OpRef) (lane kind va : Nat) (async : Bool) (info : Word) (x : Xlat) (s : State) : State :=
  let w := s.warp r.warp
  let sp := s.space w
  match x with
  | .migrating => s.awaitPage r (sp.loc va)
  | .poisoned _ => consume w.gang (poisonWhere s (sp.loc va)) s
  | .notPresent =>
    if fastFault s sp.asid then opTrap r lane async { cause := causeTranslation, addr := .ofNat 64 va, info } s
    else opFaulted r sp va kind s
  | .permission | .ok .. => opTrap r lane async { cause := causePermission, addr := .ofNat 64 va, info } s

/-- First failing address of a list of accesses, and how; a page in migration is no failure at issue. -/
def probeAll (sp : Space) (n : Nat) (a : Acc) : List (Nat × Nat) → State → Option (Nat × Nat × Xlat) × State
  | [], s => (none, s)
  | (lane, va) :: rest, s =>
    match probe (sp.loc va) n a s with
    | (some .migrating, s) => probeAll sp n a rest s
    | (some x, s) => (some (lane, va, x), s)
    | (none, s) => probeAll sp n a rest s

/-- What the probes at issue come to: the instruction goes on, traps, or its operation starts faulted (R143, R144, R275). -/
def Act.probed (x : Act) (bad : Option (Nat × Nat × Xlat)) (kind : Nat) (go : State → State) (start : State → State)
    (s : State) : State :=
  let w := s.warp x.u
  let sp := s.space w
  match bad with
  | none => go s
  | some (lane, va, .poisoned _) => let _ := lane
    consume w.gang (poisonWhere s (sp.loc va)) s
  | some (lane, va, .notPresent) =>
    if fastFault s sp.asid then x.trap lane { cause := causeTranslation, addr := .ofNat 64 va } s
    else
      let s := start s
      opFaulted { warp := x.u, op := (s.warp x.u).nextOp - 1 } sp va kind s
  | some (lane, va, _) => x.trap lane { cause := causePermission, addr := .ofNat 64 va } s

/-! ## Counts on a barrier object (R160, R192) -/

/-- Declare bytes on an object; then the completion test, which a declaration of no bytes may pass. -/
def baroDeclare (g : Nat) (t : Nat × Nat) (n : Nat) (s : State) : State :=
  onBaro g t (fun b => Baro.test { b with due := b.due + .ofNat 64 n }) (nameObject g t s)

/-- Count bytes down; never below 0; then the completion test. -/
def baroCount (g : Nat) (t : Nat × Nat) (n : Nat) (s : State) : State :=
  onBaro g t (fun b => Baro.test { b with due := if b.due.toNat ≤ n then 0 else b.due - .ofNat 64 n }) s

/-- The object a scratchpad address names for a warp; none for 0 registers (`zr` is told by the operand kind). -/
def baroOf (s : State) (w : Warp) (a : Nat) : Option (Nat × Nat) := if a % 32 = 0 then scrTarget s w a 32 else none

/-! ## Tags (R283, R284) -/

def opSub (i : Instr) : Option (Nat × Nat) := (raw i).map fun r => (r.op, r.sub)

/-- The tag of a lane's operation. -/
def State.tag (s : State) (w : Warp) (lane : Nat) (seq : BitVec 20) : DWord :=
  let g := s.warpGang w
  .ofNat 64 (g.num % 2 ^ 20 * 2 ^ 44 + g.retained.sealNo.toNat % 256 * 2 ^ 36 + w.rank * 2 ^ 31 + w.num * 2 ^ 26 +
    lane * 2 ^ 20 + seq.toNat)

/-- The window entry of a lane's operation. -/
def State.tagEntry (s : State) (w : Warp) (tag : DWord) (i : Instr) (addr : Nat) (result : DWord) :
    TagEntry :=
  let g := s.warpGang w
  let l := s.launch g.launch
  { world := l.record.world.toNat, asid := l.asid.toNat, wave := l.wave.isSome, launch := l.id, gangUid := g.uid,
    tag, ins := i, addr, result, pinned := true, retained := g.retained.contain }

/-- Two entries stand under one key and tag. -/
def TagEntry.sameTag (a b : TagEntry) : Bool :=
  a.world == b.world && a.asid == b.asid && a.wave == b.wave && a.launch == b.launch && a.tag == b.tag

/-- The entry of an operation that a window knows (R283). -/
def tagFind (win : List TagEntry) (e : TagEntry) : Option TagEntry :=
  win.find? fun t => t.sameTag e && opSub t.ins == opSub e.ins && t.addr == e.addr

/-- The remembered result of an operation that a window knows. -/
def tagHit (win : List TagEntry) (e : TagEntry) : Option DWord := (tagFind win e).map fun t => t.result

/-- An entry is retained while its gang is CONTAINED. -/
def TagEntry.kept (s : State) (t : TagEntry) : Bool := t.retained && (s.gang t.gangUid).retained.contain

/-- A window has room for `n` more operations beside its pinned entries (R284). -/
def tagRoom (size : Nat) (win : List TagEntry) (n : Nat) : Bool := (win.filter fun t => t.pinned).length + n ≤ size

/-- The gang with the most retained entries, the one whose oldest entry is oldest among equals. -/
def mostRetained (s : State) (win : List TagEntry) : Option Nat :=
  let kept := win.filter fun t => t.kept s
  let gangs := (kept.map fun t => t.gangUid).eraseDups
  let count (g : Nat) : Nat := (kept.filter fun t => t.gangUid == g).length
  gangs.foldl (fun best g => match best with
    | none => some g
    | some b => if count b < count g then some g else some b) none

/-- An entry that is neither pinned nor retained may be reused (R284). -/
def TagEntry.reusable (s : State) (t : TagEntry) : Bool := !t.pinned && !t.kept s

/-- A window with an entry put behind the others: when it is full, the oldest entry that may be reused leaves. While only pinned entries remain, the operation waits (R284), and no entry is put. -/
def insertTag (s : State) (size : Nat) (win : List TagEntry) (e : TagEntry) : List TagEntry :=
  if win.length < size then win ++ [e]
  else match win.findIdx? fun t => t.reusable s with
    | some k => win.eraseIdx k ++ [e]
    | none => win

/-- A holder releases the retained entries of a gang. -/
def releaseGang (g : Nat) (win : List TagEntry) : List TagEntry :=
  mapIf (fun t => t.gangUid == g) (fun t => { t with retained := false }) win

/-- Gangs lose their retained entries, the one with most first, until an entry is free or only pinned ones remain (R284); fuel: the window's length. -/
def findFree (s : State) (size : Nat) : Nat → List TagEntry → List TagEntry × List Nat
  | 0, win => (win, [])
  | n + 1, win =>
    if win.length < size || win.any fun t => t.reusable s then (win, [])
    else match mostRetained s win with
      | none => (win, [])
      | some g =>
        let (win, gs) := findFree s size n (releaseGang g win)
        (win, g :: gs)

/-- Insert an entry in place of an earlier one under its tag: the window, and the gangs that become EXPOSED because the insertion passes its gang's limit or finds no entry free (R284). -/
def tagPut (s : State) (size limit : Nat) (win : List TagEntry) (e : TagEntry) : List TagEntry × List Nat :=
  let live := win.filter fun t => !t.sameTag e
  let mine := (live.filter fun t => t.kept s && t.gangUid == e.gangUid).length
  let past := if e.retained && decide (limit ≤ mine) then (mostRetained s live).toList else []
  let live := each past live releaseGang
  let (live, more) := findFree s size live.length live
  let gs := past ++ more
  (insertTag s size live { e with retained := e.retained && !gs.contains e.gangUid }, gs)

/-- Every tag window of the part: the entries that stay, each changed by `f`. -/
def State.onTags (keep : TagEntry → Bool) (f : TagEntry → TagEntry) (s : State) : State :=
  let win (l : List TagEntry) : List TagEntry := (l.filter keep).map f
  let keyed (l : List (Nat × TagEntry)) : List (Nat × TagEntry) := (l.filter fun t => keep t.2).map fun t => (t.1, f t.2)
  let block (b : Block) : Block := { b with tags := win b.tags }
  let edge (e : Edge) : Edge := { e with tags := win e.tags }
  let ctx (c : Ctx) : Ctx :=
    { c with
      resTags := win c.resTags
      cutTags := win c.cutTags
      graph := c.graph.map fun g => { g with edges := g.edges.map edge } }
  { s with
    mem := { s.mem with tags := keyed s.mem.tags }
    gangs := s.gangs.map fun g => { g with blocks := g.blocks.map block }
    launches := s.launches.map fun l => { l with tags := win l.tags }
    ctxs := s.ctxs.map fun c => (c.1, ctx c.2)
    measureTags := win s.measureTags
    keyTags := win s.keyTags
    certTags := win s.certTags
    collTags := win s.collTags
    sepTags := keyed s.sepTags }

/-- Gangs lose containment (R284). -/
def exposeGangs (gs : List Nat) (s : State) : State := each gs s fun u s => setContain u false s

/-- The answer has been received: the entries of a warp's operation are no longer pinned. -/
def unpin (s : State) (w : Warp) (o : Op) (win : List TagEntry) : List TagEntry :=
  let mine (t : TagEntry) : Bool := o.slots.any fun x => t.sameTag (s.tagEntry w x.tag o.ins x.addr 0)
  mapIf mine (fun t => { t with pinned := false }) win

/-- Sequence numbers of the active lanes, each advanced by one; a wrap exposes the gang (R283). -/
def takeSeqs (u : Nat) (lanes : List Nat) (s : State) : State :=
  let w := s.warp u
  let wraps := lanes.any fun l => (w.thread l).tagSeq = 0xFFFFF
  let s := s.onWarp u fun w => w.onThreads lanes fun t => { t with tagSeq := t.tagSeq + 1 }
  if wraps then setContain w.gang false s else s

def Warp.seq (w : Warp) (l : Nat) : BitVec 20 := (w.thread l).tagSeq

/-- The entries of the block's scratchpad tag window (R163). -/
def scratchTag (s : State) (g rank : Nat) (e : TagEntry) : State :=
  let (win, gs) := tagPut s 256 128 (s.block g rank).tags e
  exposeGangs gs (s.onBlock g rank fun b => { b with tags := win })

/-- A synchronous operation of every active lane leaves its tags and results in the block's window (R163, R212). -/
def tagLanes (x : Act) (addr : Nat) (results : List (Nat × Nat)) (s : State) : State :=
  let w := s.warp x.u
  let es := results.map fun r => (r.1, { s.tagEntry w (s.tag w r.1 (w.seq r.1)) x.i addr (.ofNat 64 r.2) with pinned := false })
  each es (takeSeqs x.u x.act s) fun e s => scratchTag s w.gang w.rank e.2

/-- A synchronous operation under a tag in the block's window: performed once, its result remembered (R283). -/
def onceInBlock (x : Act) (addr : Nat) (perform : State → DWord × State) (s : State) : DWord × State :=
  let w := s.warp x.u
  let e := s.tagEntry w (s.tag w x.first (w.seq x.first)) x.i addr 0
  let s := takeSeqs x.u x.act s
  match tagHit (s.block w.gang w.rank).tags e with
  | some r => (r, s)
  | none =>
    let (r, s) := perform s
    (r, scratchTag s w.gang w.rank { e with result := r, pinned := false })

end Sys2Proof.Machine
end

