-- ==== Sys2Proof/Machine/Fetch.lean ====
section
/-! DEFINITION. Runs of the PC table (R261), instruction fetch (R51, R107, R415) and what a warp would issue next. -/

namespace Sys2Proof.Machine

/-! ## Runs -/

/-- A run: mode, PC and lanes. -/
structure Run where
  pc : Word
  handler : Bool
  lanes : List Nat
  deriving DecidableEq, Repr

/-- Order of runs: PC ascending, HANDLER first at equal PC (R218, R261). -/
def Run.before (a b : Run) : Bool := a.pc.toNat < b.pc.toNat || (a.pc = b.pc && a.handler && !b.handler)

def insertRun (r : Run) : List Run → List Run
  | [] => [r]
  | x :: xs => if r.before x then r :: x :: xs else x :: insertRun r xs

/-- Add a lane to the run of its PC and mode. -/
def addLane (pc : Word) (handler : Bool) (l : Nat) (rs : List Run) : List Run :=
  if rs.any fun r => r.pc == pc && r.handler == handler then
    mapIf (fun r => r.pc == pc && r.handler == handler) (fun r => { r with lanes := r.lanes ++ [l] }) rs
  else insertRun { pc, handler, lanes := [l] } rs

/-- The runs of a warp in order (R261). -/
def Warp.runs (w : Warp) : List Run :=
  w.running.foldl (fun rs l => addLane (w.thread l).pc (w.thread l).handler l rs) []

/-- The bundle a lane waits to be issued in, by the name it was given when it began to wait (R261). -/
def Warp.waitsIn (w : Warp) (l : Nat) : Option Nat :=
  match (w.thread l).status with
  | .blocked (.issue k) => some k
  | _ => none

/-- The lanes that wait in one bundle; a lane that has ended since is not among them (R9). -/
def Warp.waiters (w : Warp) (k : Nat) : List Nat := (List.range w.width).filter fun l => w.waitsIn l == some k

/-- The bundles that wait to be issued, in the order of their lowest lanes (R9, R261). -/
def Warp.parked (w : Warp) : List Run :=
  ((List.range w.width).filterMap w.waitsIn).eraseDups.map fun k =>
    let lanes := w.waiters k
    let t := w.thread (lanes.headD 0)
    { pc := t.pc, handler := t.handler, lanes }

def Run.bundle (r : Run) (u : Nat) : Bundle := { warp := u, lanes := maskOf r.lanes, pc := r.pc }

/-! ## Code bytes -/

/-- What a fetch comes to. -/
inductive Fetched
  | word (w : IWord)
  /-- ALIGNMENT at fetch. -/
  | misaligned
  /-- BOUNDS at fetch. -/
  | beyond
  | fails (va : Nat) (x : Xlat)
  | poisoned (va : Nat)
  deriving DecidableEq, Repr

/-- Address of a code byte: the first instruction lies at kimg + 64 (R255). -/
def codeVa (l : Launch) (pc : Nat) : Nat := (l.record.kimg.toNat + 64 + pc) % 2 ^ 60

def CoreCache.codeAt (c : CoreCache) (k : Nat) : Option Byte := Store.get none c.code k

/-- A line of code present in L2 fills what the core's instruction cache lacks of it; bytes held stay as they are, old beside new (R415). -/
def fillCode (core k : Nat) (s : State) : State :=
  let base := k / 128 * 128
  let bs := homeRead s none .line base 128
  let lacks := (List.range 128).filter fun j => !poisonedAt s none .line (base + j) 1 && ((s.cache core).codeAt (base + j)).isNone
  s.onCache core fun c =>
    { c with code := each lacks c.code fun j m => Store.put none m (base + j) (some (bs.getD j 0)) }

/-- A code byte through the core's instruction cache, filling what the line lacks (R415; log 56). -/
def fetchByte (core : Nat) (k : Nat) (s : State) : (Option Byte × Option Xlat) × State :=
  match (s.cache core).codeAt k with
  | some b => ((some b, none), s)
  | none =>
    match reach k .fetch s with
    | (.fail x, s) => ((none, some x), s)
    | (.direct pa, s) =>
      if poisonedAt s none (.direct pa) k 1 then ((none, none), s)
      else ((some ((physRead s (spaceOf k).world pa 1).headD 0), none), s)
    | (.line, s) =>
      if poisonedAt s none .line k 1 then ((none, none), s)
      else
        ((some ((homeRead s none .line k 1).headD 0), none), fillCode core k s)

/-- Code bytes from a PC. -/
def fetchBytes (core : Nat) (l : Launch) (sp : Space) : Nat → Nat → State → Except Fetched (List Byte) × State
  | _, 0, s => (.ok [], s)
  | pc, n + 1, s =>
    if l.rom then
      match fetchBytes core l sp (pc + 1) n s with
      | (.ok bs, s) => (.ok (((s.cache core).codeAt (sp.loc (codeVa l pc))).getD (Config.romByte pc) :: bs), s)
      | x => x
    else
      let va := codeVa l pc
      match fetchByte core (sp.loc va) s with
      | ((some b, _), s) => (match fetchBytes core l sp (pc + 1) n s with
        | (.ok bs, s) => (.ok (b :: bs), s)
        | x => x)
      | ((none, some x), s) => (.error (.fails va x), s)
      | ((none, none), s) => (.error (.poisoned va), s)

/-- The byte that memory holds now where a code byte is fetched; none where it cannot be read. -/
def newByte (l : Launch) (sp : Space) (s : State) (pc : Nat) : Option Byte :=
  let k := sp.loc (codeVa l pc)
  match reach k .fetch s with
  | (.line, s) => if poisonedAt s none .line k 1 then none else (homeRead s none .line k 1).head?
  | _ => none

/-- The bytes of a word as a fetch takes them: each that memory holds otherwise by now is the old or the new one, a free choice (R415; log 56). -/
def mixBytes (l : Launch) (sp : Space) (pc : Nat) (bs : List Byte) (s : State) : List Byte × State :=
  if l.rom then (bs, s)
  else
    let new (e : Byte × Nat) : Byte := (newByte l sp s (pc + e.2)).getD e.1
    let now := bs.zipIdx.map new
    if now = bs then (bs, s)
    else ((bs.zip now).zipIdx.map (fun e => if Config.fetchesNew s.draws e.2 then e.1.2 else e.1.1), s.draw)

/-- Step 1 of R55 for a bundle of a warp: the PC checks, then the twelve bytes of the word. A PC that is no multiple of 12 and lies at or above the length raises ALIGNMENT (DESIGN CHOICE, log 59: the spec gives both traps and no order). -/
def fetch (w : Warp) (pc : Word) (s : State) : Fetched × State :=
  let l := s.warpLaunch w
  if pc.toNat % 12 != 0 then (.misaligned, s)
  else if l.len ≤ pc.toNat then (.beyond, s)
  else match fetchBytes (s.warpCore w) l (s.space w) pc.toNat 12 s with
    | (.ok bs, s) =>
      let (bs, s) := mixBytes l (s.space w) pc.toNat bs s
      (.word (wordOfBytes bs), s)
    | (.error e, s) => (e, s)

/-- The instruction a run would issue, when it can be fetched and is one. -/
def peek (s : State) (w : Warp) (pc : Word) : Option Instr :=
  match (fetch w pc s).1 with
  | .word x => (match decode x with
    | .ok i => some i
    | .error _ => none)
  | _ => none

/-- The event a bundle comes to at steps 1 and 2, its instruction, or none when the fetch waits, faults or fails otherwise. -/
def bundleInstr (s : State) (w : Warp) (pc : Word) : Option Instr :=
  match (fetch w pc s).1 with
  | .word x => (match decode x with
    | .ok i => some i
    | .error e => some (.wordNotAnInstruction e.reason e.field))
  | .misaligned => some (.trapAtFetch true)
  | .beyond => some (.trapAtFetch false)
  | .fails .. | .poisoned _ => none

/-- A fetch that fails in translation or reads poison (R144, R273, R275): a trap, a fault of one page, an error consumed, or the wait for a page in migration; an asynchronous trap that stands is reported first (R270), and a trap is taken only where the shadow has come to the same PC (R368). -/
def fetchFails (b : Bundle) (s : State) : State :=
  let w := s.warp b.warp
  if w.asyncTrap.isSome then reportAsync b.warp s
  else
  let lanes := lanesOf b.lanes
  let (r, s) := fetch w b.pc s
  let sp := s.space w
  let trap (c : Word) (va : Nat) : State :=
    if lanes.any w.strays then shadowMismatch b.warp s else takeTrap b.warp (lanes.map fun l => (l, b.pc)) (lanes.headD 0) { cause := c, addr := .ofNat 64 va } s
  match r with
  | .fails va .notPresent =>
    if fastFault s sp.asid then trap causeTranslation va
    else { s with faults := s.faults ++
        [{ op := { warp := b.warp, op := w.nextOp }, world := sp.world, asid := sp.asid, va, kind := 3,
           lane := lanes.headD 0, pc := b.pc }] }
  | .fails va (.poisoned _) => consume w.gang (poisonWhere s (sp.loc va)) s
  | .fails va .permission => trap causePermission va
  | .poisoned va => consume w.gang (poisonWhere s (sp.loc va)) s
  | .fails va .migrating => s.blockLanes b.warp lanes (.migrating (sp.loc va / 65536))
  | _ => s

/-! ## The events of steps 1 and 2 -/

/-- ILLEGAL at decode (R56). -/
def illegalAt (reason field : Nat) (b : Bundle) (s : State) : State :=
  let lanes := lanesOf b.lanes
  takeTrap b.warp (lanes.map fun l => (l, b.pc)) (lanes.headD 0)
    { cause := causeIllegal, info := .ofNat 32 (field * 256 + reason) } s

/-- ALIGNMENT or BOUNDS at fetch (R51, R107). -/
def fetchTrap (misaligned : Bool) (b : Bundle) (s : State) : State :=
  let lanes := lanesOf b.lanes
  takeTrap b.warp (lanes.map fun l => (l, b.pc)) (lanes.headD 0)
    { cause := if misaligned then causeAlignment else causeBounds, addr := b.pc.setWidth 64 } s

/-- A trap of steps 1 and 2, after an asynchronous one that stands, and only where the shadow has come to the same PC (R270, R368). -/
def earlyTrap (trap : Bundle → State → State) (b : Bundle) (s : State) : State :=
  let w := s.warp b.warp
  if w.asyncTrap.isSome then reportAsync b.warp s
  else if (lanesOf b.lanes).any w.strays then shadowMismatch b.warp s
  else trap b s

def execWordNotAnInstruction (reason field : Nat) (s : State) : Host.Outcome State Fault Refusal :=
  match s.cur with
  | none => .fault .noBundle
  | some b => .next (earlyTrap (illegalAt reason field) b s)
def execTrapAtFetch (misaligned : Bool) (s : State) : Host.Outcome State Fault Refusal :=
  match s.cur with
  | none => .fault .noBundle
  | some b => .next (earlyTrap (fetchTrap misaligned) b s)

end Sys2Proof.Machine
end

