-- ==== Sys2Proof/Machine/Crypto.lean ====
section
/-! DEFINITION. The cryptography and the checksums the spec names: SHA-512 and HMAC (R223), HKDF, AES-256, key unwrap (R226), AES-256-GCM (R384), ECDSA on P-521 with the nonce of RFC 6979 (R225), CRC-64 (R193), CRC-32C (R323). -/

namespace Sys2Proof.Machine

/-! ## SHA-512 (FIPS 180-4) -/

/-- The floor of a k-th root below acc + 2^n, bit by bit. -/
def rootOf (k x : Nat) : Nat → Nat → Nat
  | 0, acc => acc
  | n + 1, acc => rootOf k x n (if (acc + 2 ^ n) ^ k ≤ x then acc + 2 ^ n else acc)

/-- The primes below 410, of which there are eighty. -/
def primes : List Nat := (List.range 410).filter fun n => 2 ≤ n && (List.range 21).all fun d => d < 2 || d == n || n % d != 0

/-- The first 64 bits of the fraction of a k-th root. -/
def rootFraction (k n : Nat) : DWord := .ofNat 64 (rootOf k (n * 2 ^ (64 * k)) 72 0)

/-- Three turned copies of a word, or two and a third term. -/
def turned (x : DWord) (i j : Nat) (third : DWord) : DWord := x.rotateRight i ^^^ x.rotateRight j ^^^ third

/-- The word that follows sixteen words of the message schedule, oldest first. -/
def shaNext (w : List DWord) : DWord :=
  let old := w.getD 1 0
  let new := w.getD 14 0
  w.getD 0 0 + turned old 1 8 (old >>> 7) + w.getD 9 0 + turned new 19 61 (new >>> 6)

/-- The eight working words after a round with its constant and its schedule word added up. -/
def shaStep (v : List DWord) (km : DWord) : List DWord :=
  let x (n : Nat) : DWord := v.getD n 0
  let choice := x 6 ^^^ (x 4 &&& (x 5 ^^^ x 6))
  let most := (x 0 &&& (x 1 ||| x 2)) ||| (x 1 &&& x 2)
  let down := km + x 7 + turned (x 4) 14 18 ((x 4).rotateRight 41) + choice
  (down + turned (x 0) 28 34 ((x 0).rotateRight 39) + most) :: v.take 3 ++ (x 3 + down) :: (v.drop 4).take 3

/-- The rounds, one to each prime, over a window of the schedule: the constants are fractions of cube roots. -/
def shaRounds : List Nat → List DWord → List DWord → List DWord
  | [], _, v => v
  | p :: ps, w, v => shaRounds ps (w.drop 1 ++ [shaNext w]) (shaStep v (rootFraction 3 p + w.getD 0 0))

/-- The initial hash value: fractions of the square roots of the first eight primes. -/
def shaInit : List DWord := (primes.take 8).map (rootFraction 2)

/-- `n` chunks of `k` entries. -/
def chunks {α : Type} (k : Nat) : Nat → List α → List (List α)
  | 0, _ => []
  | n + 1, l => l.take k :: chunks k n (l.drop k)

/-- Compress one block of 128 bytes. -/
def shaBlock (h : List DWord) (block : List Byte) : List DWord :=
  List.zipWith (· + ·) h (shaRounds primes ((chunks 8 16 block).map fun b => .ofNat 64 (natOfBE b)) h)

/-- Compress every whole block of a byte list. -/
def shaBlocks (h : List DWord) (bs : List Byte) : List DWord := (chunks 128 (bs.length / 128) bs).foldl shaBlock h

/-- The padding of a message of `n` bytes. -/
def shaPad (n : Nat) : List Byte :=
  0x80 :: (List.replicate ((239 - n % 128) % 128) 0 ++ bytesOfBE 16 (8 * n))

def shaDigest (h : List DWord) : List Byte := (h.map fun x => bytesOfBE 8 x.toNat).flatten

def sha512 (m : List Byte) : List Byte := shaDigest (shaBlocks shaInit (m ++ shaPad m.length))

def xorBytes (a b : List Byte) : List Byte := List.zipWith (· ^^^ ·) a b

def hmac512 (key m : List Byte) : List Byte :=
  let k := if 128 < key.length then sha512 key else key
  let k := k ++ List.replicate (128 - k.length) 0
  sha512 (xorBytes k (List.replicate 128 0x5C) ++ sha512 (xorBytes k (List.replicate 128 0x36) ++ m))

/-- HKDF-SHA-512 with a salt of 64 zero bytes, for at most 64 bytes. -/
def hkdf (ikm info : List Byte) (n : Nat) : List Byte :=
  (hmac512 (hmac512 (List.replicate 64 0) ikm) (info ++ [1])).take n

/-! ## P-521 -/

def pMod : Nat := 2 ^ 521 - 1
def pOrder : Nat :=
  0x1FFFFFFFFFFFFFFFFFFFFFFFFFFFFFFFFFFFFFFFFFFFFFFFFFFFFFFFFFFFFFFFFFFFA51868783BF2F966B7FCC0148F709A5D03BB5C9B8899C47AEBB6FB71E91386409
def pB : Nat :=
  0x051953EB9618E1C9A1F929A21A0B68540EEA2DA725B99B315F3B8B489918EF109E156193951EC7E937B1652C0BD3BB1BF073573DF883D2C34F1EF451FD46B503F00
def pGx : Nat :=
  0xC6858E06B70404E9CD9E3ECB662395B4429C648139053FB521F828AF606B4D3DBAA14B5E77EFE75928FE1DC127A2FFA8DE3348B3C1856A429BF97E7E31C2E5BD66
def pGy : Nat :=
  0x11839296A789A3BC0045C8A5FB42C7D1BD998F54449579B446817AFBD17273E662C97EE72995EF42640C550B9013FAD0761353C7086A272C24088BE94769FD16650

/-- Power modulo m, over the bits of an exponent below 2^fuel. -/
def powMod (m : Nat) : Nat → Nat → Nat → Nat
  | 0, _, _ => 1 % m
  | fuel + 1, b, e =>
    let r := powMod m fuel (b * b % m) (e / 2)
    if e % 2 = 1 then b * r % m else r

/-- Inverse modulo a prime below 2^521. -/
def invMod (m a : Nat) : Nat := powMod m 521 (a % m) (m - 2)

def subP (a b : Nat) : Nat := (a + (pMod - b % pMod)) % pMod

/-- A point in Jacobian coordinates; Z = 0 is the point at infinity. -/
structure Point where
  x : Nat
  y : Nat
  z : Nat
  deriving DecidableEq, Repr

def Point.double (p : Point) : Point :=
  if p.z = 0 || p.y = 0 then { x := 1, y := 1, z := 0 }
  else
    let zz := p.z * p.z % pMod
    let m := 3 * (subP p.x zz * ((p.x + zz) % pMod)) % pMod
    let yy := p.y * p.y % pMod
    let s := 4 * (p.x * yy) % pMod
    let x := subP (m * m % pMod) (2 * s)
    { x, y := subP (m * subP s x % pMod) (8 * (yy * yy % pMod)), z := 2 * (p.y * p.z) % pMod }

def Point.add (p q : Point) : Point :=
  if p.z = 0 then q
  else if q.z = 0 then p
  else
    let z1 := p.z * p.z % pMod
    let z2 := q.z * q.z % pMod
    let u1 := p.x * z2 % pMod
    let u2 := q.x * z1 % pMod
    let s1 := p.y * (z2 * q.z % pMod) % pMod
    let s2 := q.y * (z1 * p.z % pMod) % pMod
    if u1 = u2 then (if s1 = s2 then p.double else { x := 1, y := 1, z := 0 })
    else
      let h := subP u2 u1
      let r := subP s2 s1
      let hh := h * h % pMod
      let hhh := hh * h % pMod
      let v := u1 * hh % pMod
      let x := subP (subP (r * r % pMod) hhh) (2 * v)
      { x, y := subP (r * subP v x % pMod) (s1 * hhh % pMod), z := h * (p.z * q.z % pMod) % pMod }

/-- k times a point, over the low `fuel` bits of k. -/
def Point.times : Nat → Nat → Point → Point
  | 0, _, _ => { x := 1, y := 1, z := 0 }
  | fuel + 1, k, p =>
    let q := Point.times fuel (k / 2) p.double
    if k % 2 = 1 then q.add p else q

/-- The affine x coordinate. -/
def Point.affineX (p : Point) : Nat :=
  let zi := invMod pMod p.z
  p.x * (zi * zi % pMod) % pMod

def baseP : Point := { x := pGx, y := pGy, z := 1 }

/-- A pair of coordinates is a point of P-521. -/
def onCurve (x y : Nat) : Bool :=
  decide (x < pMod) && decide (y < pMod) && y * y % pMod == (x * (x * x % pMod) + pB + 3 * (pMod - x)) % pMod

/-! ## ECDSA (R225) -/

/-- RFC 6979 with SHA-512: the candidates for the nonce, 66 bytes from two outputs of V, the excess seven bits dropped. -/
def nonceFrom (key : Nat) (h : List Byte) : Nat → List Byte → List Byte → Nat
  | 0, _, _ => 1
  | fuel + 1, k, v =>
    let v1 := hmac512 k v
    let v2 := hmac512 k v1
    let t := natOfBE ((v1 ++ v2).take 66) / 2 ^ 7
    if t != 0 && decide (t < pOrder) then t
    else
      let k := hmac512 k (v2 ++ [0])
      nonceFrom key h fuel k (hmac512 k v2)

def nonceOf (key : Nat) (h : List Byte) : Nat :=
  let x := bytesOfBE 66 key ++ bytesOfBE 66 (natOfBE h % pOrder)
  let v := List.replicate 64 (1 : Byte)
  let k := hmac512 (List.replicate 64 0) (v ++ [0] ++ x)
  let v := hmac512 k v
  let k := hmac512 k (v ++ [1] ++ x)
  nonceFrom key h 64 k (hmac512 k v)

/-- The signature of a 64-byte digest: r, then s, 66 bytes big-endian each. -/
def ecdsaSign (key : Nat) (h : List Byte) : List Byte :=
  let k := nonceOf key h
  let r := (Point.times 521 k baseP).affineX % pOrder
  let s := invMod pOrder k * ((natOfBE h + r * key) % pOrder) % pOrder
  bytesOfBE 66 r ++ bytesOfBE 66 s

/-! ## AES-256 -/

/-- Multiplication in GF(2^8). -/
def gmul : Nat → Byte → Byte → Byte
  | 0, _, _ => 0
  | n + 1, a, b =>
    let t := if b.getLsbD 0 then a else 0
    let a2 := (a <<< 1) ^^^ (if a.getLsbD 7 then 0x1B else 0)
    t ^^^ gmul n a2 (b >>> 1)

def gm (a b : Byte) : Byte := gmul 8 a b

/-- x^254, the inverse in GF(2^8). -/
def ginv (x : Byte) : Byte :=
  let x2 := gm x x
  let x4 := gm x2 x2
  let x8 := gm x4 x4
  let x16 := gm x8 x8
  let x32 := gm x16 x16
  let x64 := gm x32 x32
  let x128 := gm x64 x64
  gm x2 (gm x4 (gm x8 (gm x16 (gm x32 (gm x64 x128)))))

def sboxOf (x : Byte) : Byte :=
  let b := ginv x
  b ^^^ b.rotateLeft 1 ^^^ b.rotateLeft 2 ^^^ b.rotateLeft 3 ^^^ b.rotateLeft 4 ^^^ 0x63

def sboxTable : List Byte := (List.range 256).map fun k => sboxOf (BitVec.ofNat 8 k)
def sboxInverse : List Byte := (List.range 256).map fun k =>
  let c : Byte := BitVec.ofNat 8 k
  let b := c.rotateLeft 1 ^^^ c.rotateLeft 3 ^^^ c.rotateLeft 6 ^^^ 0x05
  ginv b

def sub1 (t : List Byte) (b : Byte) : Byte := t.getD b.toNat 0

/-- The words of the AES-256 key schedule, newest first. -/
def aesExpand (t : List Byte) : Nat → Nat → Byte → List (List Byte) → List (List Byte)
  | 0, _, _, ws => ws
  | n + 1, i, rc, ws =>
    let p := ws.headD []
    let x := if i % 8 = 0 then
        (match p with
        | [a, b, c, d] => [sub1 t b ^^^ rc, sub1 t c, sub1 t d, sub1 t a]
        | l => l)
      else if i % 8 = 4 then p.map (sub1 t) else p
    let rc' := if i % 8 = 0 then gm rc 2 else rc
    aesExpand t n (i + 1) rc' (xorBytes (ws.getD 7 []) x :: ws)

/-- The fifteen round keys of 16 bytes. -/
def aesKeys (t : List Byte) (key : List Byte) : List (List Byte) :=
  chunks 16 15 ((aesExpand t 52 8 1 (chunks 4 8 key).reverse).reverse.flatten)

def aesShift (s : List Byte) : List Byte := (List.range 16).map fun k => s.getD ((k + 4 * (k % 4)) % 16) 0
def aesUnshift (s : List Byte) : List Byte := (List.range 16).map fun k => s.getD ((k + 12 * (k % 4)) % 16) 0

def aesMixCol (a b c d : Byte) (s : List Byte) : List Byte :=
  match s with
  | [x, y, z, w] =>
    [gm a x ^^^ gm b y ^^^ gm c z ^^^ gm d w, gm d x ^^^ gm a y ^^^ gm b z ^^^ gm c w,
     gm c x ^^^ gm d y ^^^ gm a z ^^^ gm b w, gm b x ^^^ gm c y ^^^ gm d z ^^^ gm a w]
  | s => s

def aesMix (s : List Byte) : List Byte := ((chunks 4 4 s).map (aesMixCol 2 3 1 1)).flatten
def aesUnmix (s : List Byte) : List Byte := ((chunks 4 4 s).map (aesMixCol 14 11 13 9)).flatten

/-- AES-256 of one block under expanded keys. -/
def aesBlock (t : List Byte) (ks : List (List Byte)) (x : List Byte) : List Byte :=
  let mid := (ks.drop 1).take 13
  let s := mid.foldl (fun s k => xorBytes (aesMix (aesShift (s.map (sub1 t)))) k) (xorBytes x (ks.headD []))
  xorBytes (aesShift (s.map (sub1 t))) (ks.getD 14 [])

def aesUnblock (ti : List Byte) (ks : List (List Byte)) (x : List Byte) : List Byte :=
  let s := (aesUnshift (xorBytes x (ks.getD 14 []))).map (sub1 ti)
  let mid := ((ks.drop 1).take 13).reverse
  let s := mid.foldl (fun s k => (aesUnshift (aesUnmix (xorBytes s k))).map (sub1 ti)) s
  xorBytes s (ks.headD [])

/-! ## Key unwrap (RFC 3394) -/

/-- One step t of the unwrap of four 64-bit blocks. -/
def unwrapStep (ti : List Byte) (ks : List (List Byte)) (st : List Byte × List (List Byte)) (t : Nat) :
    List Byte × List (List Byte) :=
  let i := (t - 1) % 4
  let b := aesUnblock ti ks (xorBytes st.1 (bytesOfBE 8 t) ++ st.2.getD i [])
  (b.take 8, st.2.set i (b.drop 8))

/-- The key of a 40-byte wrapped key; none when the integrity check fails. -/
def keyUnwrap (kek blob : List Byte) : Option (BitVec 256) :=
  let t := sboxTable
  let ks := aesKeys t kek
  let r := ((List.range 24).map fun k => 24 - k).foldl (unwrapStep sboxInverse ks) (blob.take 8, chunks 8 4 (blob.drop 8))
  if r.1 = List.replicate 8 0xA6 then some (BitVec.ofNat 256 (natOfBE r.2.flatten)) else none

/-! ## AES-256-GCM -/

/-- The product of GHASH on 128-bit values, the first bit being the most significant. -/
def ghashMul : Nat → QWord → QWord → QWord
  | 0, _, _ => 0
  | n + 1, x, v =>
    let t := if x.getLsbD n then v else 0
    let v' := (v >>> 1) ^^^ (if v.getLsbD 0 then 0xE1#128 <<< 120 else 0)
    t ^^^ ghashMul n x v'

def ghash (h : QWord) (bs : List Byte) : QWord :=
  (chunks 16 (bs.length / 16) bs).foldl (fun y b => ghashMul 128 (y ^^^ BitVec.ofNat 128 (natOfBE b)) h) 0

def pad16 (bs : List Byte) : List Byte := bs ++ List.replicate ((16 - bs.length % 16) % 16) 0

/-- Authenticated decryption with a 12-byte IV: the plaintext, or none when the tag fails. -/
def gcmOpen (key : BitVec 256) (iv aad ct tag : List Byte) : Option (List Byte) :=
  let t := sboxTable
  let ks := aesKeys t (bytesOfBE 32 key.toNat)
  let h := BitVec.ofNat 128 (natOfBE (aesBlock t ks (List.replicate 16 0)))
  let s := ghash h (pad16 aad ++ pad16 ct ++ bytesOfBE 8 (8 * aad.length) ++ bytesOfBE 8 (8 * ct.length))
  let e0 := aesBlock t ks (iv ++ bytesOfBE 4 1)
  if tag = xorBytes e0 (bytesOfBE 16 s.toNat) then
    let n := (ct.length + 15) / 16
    let stream := ((List.range n).map fun k => aesBlock t ks (iv ++ bytesOfBE 4 (k + 2))).flatten
    some (xorBytes ct stream)
  else none

/-! ## CRCs -/

def crcByte (w : Nat) (poly : BitVec w) : Nat → BitVec w → BitVec w
  | 0, c => c
  | n + 1, c => crcByte w poly n ((c >>> 1) ^^^ (if c.getLsbD 0 then poly else 0))

/-- A reflected CRC with initial value all ones and final inversion. -/
def crc (w : Nat) (poly : BitVec w) (bs : List Byte) : BitVec w :=
  ~~~(bs.foldl (fun c b => crcByte w poly 8 (c ^^^ b.setWidth w)) (BitVec.allOnes w))

/-- CRC-64 of R193. -/
def crc64 (bs : List Byte) : DWord := crc 64 0xC96C5795D7870F42 bs
/-- CRC-32C of R323. -/
def crc32c (bs : List Byte) : Word := crc 32 0x82F63B78 bs

end Sys2Proof.Machine
end

