-- ==== Sys2Proof/Machine/Number.lean ====
section
/-! DEFINITION. Number formats and rounding (R73 to R93): exact values as sign, magnitude and power of two; one rounding into a format; conversions with substitution; the special functions, correctly rounded. -/

namespace Sys2Proof.Machine

/-! ## Formats -/

/-- A floating format: `bits` of magnitude below the sign, precision, bias, code of the largest finite magnitude, code of infinity, the NaN delivered, the magnitude codes from which every code is NaN, and whether it has −0. -/
structure FloatFmt where
  signed : Bool
  bits : Nat
  prec : Nat
  bias : Nat
  maxCode : Nat
  inf : Option Nat
  nan : Nat
  nanFrom : Option Nat
  ieee : Bool
  deriving DecidableEq, Repr

/-- The IEEE format of `e` exponent bits and precision `p` (R73). -/
def ieeeFmt (e p : Nat) : FloatFmt :=
  let inf := (2 ^ e - 1) * 2 ^ (p - 1)
  { signed := true, bits := e + p - 1, prec := p, bias := 2 ^ (e - 1) - 1, maxCode := inf - 1, inf := some inf,
    nan := inf + 2 ^ (p - 2), nanFrom := some (inf + 1), ieee := true }

def f64Fmt : FloatFmt := ieeeFmt 11 53
def f32Fmt : FloatFmt := ieeeFmt 8 24
def f16Fmt : FloatFmt := ieeeFmt 5 11
def bf16Fmt : FloatFmt := ieeeFmt 8 8

/-- The binary8 format of precision p, unsigned or not, with infinities or not (R75 to R78). -/
def b8Fmt (p : Nat) (uns i : Bool) : FloatFmt :=
  if uns then
    { signed := false, bits := 8, prec := p, bias := 2 ^ (8 - p), maxCode := if i then 0xFD else 0xFE,
      inf := if i then some 0xFE else none, nan := 0xFF, nanFrom := none, ieee := false }
  else
    { signed := true, bits := 7, prec := p, bias := 2 ^ (7 - p), maxCode := if i then 0x7E else 0x7F,
      inf := if i then some 0x7F else none, nan := 0x80, nanFrom := none, ieee := false }

/-- The scale format (R79). -/
def e4m3Fmt : FloatFmt :=
  { signed := true, bits := 7, prec := 4, bias := 7, maxCode := 0x7E, inf := none, nan := 0x7F,
    nanFrom := some 0x7F, ieee := false }

/-! ## Exact values -/

/-- An exact value: the magnitude of a finite one is num × 2^exp. -/
inductive Num
  | nan
  | inf (neg : Bool)
  | fin (neg : Bool) (num : Nat) (exp : Int)
  deriving DecidableEq, Repr

/-- Exponent of the format's smallest quantum. -/
def FloatFmt.qmin (f : FloatFmt) : Int := 1 - (f.bias : Int) - ((f.prec : Int) - 1)

/-- The value of a magnitude code (R75). -/
def FloatFmt.magnitude (f : FloatFmt) (mag : Nat) : Nat × Int :=
  let t := 2 ^ (f.prec - 1)
  if mag / t = 0 then (mag % t, f.qmin) else (t + mag % t, f.qmin + (mag / t : Nat) - 1)

def FloatFmt.signOf (f : FloatFmt) (x : Nat) : Bool := f.signed && x / 2 ^ f.bits % 2 = 1

def FloatFmt.isNan (f : FloatFmt) (x : Nat) : Bool :=
  x % 2 ^ (f.bits + 1) = f.nan || (f.nanFrom.any fun k => k ≤ x % 2 ^ f.bits)

/-- The value a code encodes. -/
def FloatFmt.value (f : FloatFmt) (x : Nat) : Num :=
  let mag := x % 2 ^ f.bits
  if f.isNan x then .nan
  else if f.inf = some mag then .inf (f.signOf x)
  else let (n, e) := f.magnitude mag
    .fin (f.signOf x) n e

/-- Power of two of an integer exponent, as numerator and denominator. -/
def pow2 (e : Int) : Nat × Nat := if 0 ≤ e then (2 ^ e.toNat, 1) else (1, 2 ^ (-e).toNat)

/-- The signed integer n × 2^(e−q) of a magnitude, for q at most e. -/
def aligned (neg : Bool) (n : Nat) (e q : Int) : Int :=
  let m : Int := n * 2 ^ (e - q).toNat
  if neg then -m else m

/-- Exact sum. A zero sum of opposite signs is −0 when `down` (R74). -/
def Num.add (down : Bool) : Num → Num → Num
  | .nan, _ | _, .nan => .nan
  | .inf s, .inf t => if s = t then .inf s else .nan
  | .inf s, .fin .. => .inf s
  | .fin .., .inf t => .inf t
  | .fin s m e, .fin t n k =>
    let q := min e k
    let x := aligned s m e q + aligned t n k q
    if x = 0 then .fin (if m = 0 && n = 0 && s = t then s else down) 0 q else .fin (x < 0) x.natAbs q

/-- Exact product. -/
def Num.mul : Num → Num → Num
  | .nan, _ | _, .nan => .nan
  | .inf s, .inf t => .inf (s != t)
  | .inf s, .fin t n _ => if n = 0 then .nan else .inf (s != t)
  | .fin s m _, .inf t => if m = 0 then .nan else .inf (s != t)
  | .fin s m e, .fin t n k => .fin (s != t) (m * n) (e + k)

/-- An integer as a value. -/
def Num.ofInt (x : Int) : Num := .fin (x < 0) x.natAbs 0

/-! ## Rounding -/

/-- floor(log2 (num / den)) of a positive ratio. -/
def ratioLog2 (num den : Nat) : Int :=
  let k : Int := (num.log2 : Int) - (den.log2 : Int)
  let (a, b) := pow2 k
  if num * b < den * a then k - 1 else k

/-- Whether a value between a lower neighbour of parity `odd` and the next goes up: remainder `rem` over `den` (R80, R82). -/
def goesUp (mode : Rnd) (neg odd : Bool) (rem den seed : Nat) : Bool :=
  match mode with
  | .rn => den < 2 * rem || (2 * rem = den && odd)
  | .rz => false
  | .rp => !neg && rem != 0
  | .rm => neg && rem != 0
  | .rs => rem != 0 && decide (seed ≤ 65536 * rem / den)

/-- A magnitude rounded into a format as if its exponents had no upper bound (R81): the code, and whether it is inexact. -/
def FloatFmt.roundMag (f : FloatFmt) (mode : Rnd) (neg : Bool) (num den seed : Nat) : Nat × Bool :=
  if num = 0 then (0, false) else
  let q := max (ratioLog2 num den - ((f.prec : Int) - 1)) f.qmin
  let (a, b) := pow2 q
  let n := num * b
  let d := den * a
  let lo := (q - f.qmin).toNat * 2 ^ (f.prec - 1) + n / d
  let rem := n % d
  (if goesUp mode neg (lo % 2 = 1) rem d seed then lo + 1 else lo, rem != 0)

/-- Sign bit of a code. -/
def FloatFmt.sgn (f : FloatFmt) (neg : Bool) : Nat := if neg && f.signed then 2 ^ f.bits else 0

/-- Whether an overflow gives infinity (R81). -/
def overflowInf (mode : Rnd) (neg : Bool) : Bool :=
  match mode with
  | .rn | .rs => true
  | .rz => false
  | .rp => !neg
  | .rm => neg

/-- Round of an arithmetic instruction into an IEEE format (R74, R81). -/
def FloatFmt.round (f : FloatFmt) (mode : Rnd) : Num → Nat
  | .nan => f.nan
  | .inf s => f.sgn s + f.inf.getD f.maxCode
  | .fin s n e =>
    let (a, b) := pow2 e
    let (c, _) := f.roundMag mode s (n * a) b 0
    f.sgn s + (if f.maxCode < c then (if overflowInf mode s then f.inf.getD f.maxCode else f.maxCode) else c)

/-- Round of a positive or negative ratio (a quotient or a series), never zero by cancellation. -/
def FloatFmt.roundRatio (f : FloatFmt) (mode : Rnd) (neg : Bool) (num den : Nat) : Nat :=
  let (c, _) := f.roundMag mode neg num den 0
  f.sgn neg + (if f.maxCode < c then (if overflowInf mode neg then f.inf.getD f.maxCode else f.maxCode) else c)

/-! ## Conversion events and substitution (R29, R84) -/

abbrev evNan : BitVec 5 := 1
abbrev evInf : BitVec 5 := 2
abbrev evOvf : BitVec 5 := 4
abbrev evUnd : BitVec 5 := 8
abbrev evInx : BitVec 5 := 16

/-- One step of the stochastic seed (R82). -/
def seedStep (s : BitVec 16) : BitVec 16 :=
  let t := s >>> 1
  if s.getLsbD 0 then t ^^^ 0xB400#16 else t

/-- A finite magnitude num/den into a floating target: an overflow follows the table of R81, and where the target cannot encode the infinity of that table, the substitute of R84. -/
def FloatFmt.convFin (f : FloatFmt) (mode : Rnd) (neg : Bool) (num den seed subst : Nat) : Nat × BitVec 5 :=
  let (c, inx) := f.roundMag mode neg num den seed
  let s := if neg && (f.ieee || c != 0) then f.sgn true else 0
  if neg && !f.signed && c != 0 then (subst, evOvf)
  else if f.maxCode < c then
    match f.inf with
    | some i => (s + (if overflowInf mode neg then i else f.maxCode), evInx)
    | none => if overflowInf mode neg then (subst, evOvf) else (s + f.maxCode, evInx)
  else if c = 0 && num != 0 then (s, evUnd ||| evInx)
  else (s + c, if inx then evInx else 0)

/-- A value into a floating target (R84). -/
def FloatFmt.conv (f : FloatFmt) (mode : Rnd) (seed subst : Nat) : Num → Nat × BitVec 5
  | .nan => (f.nan, 0)
  | .inf s =>
    if s && !f.signed then (subst, evInf)
    else match f.inf with
      | some i => (f.sgn s + i, 0)
      | none => (subst, evInf)
  | .fin s n e => let (a, b) := pow2 e
    f.convFin mode s (n * a) b seed subst

/-- Substitutes of an integer target: NaN, ±∞, overflow up and down, negative into unsigned (R127). -/
structure IntSubst where
  nan : Nat
  infPos : Nat
  infNeg : Nat
  high : Nat
  low : Nat
  negative : Nat
  deriving DecidableEq, Repr

/-- A value into an integer of `w` bits (R84). -/
def convInt (w : Nat) (sgn : Bool) (mode : Rnd) (seed : Nat) (u : IntSubst) : Num → Nat × BitVec 5
  | .nan => (u.nan, evNan)
  | .inf s => (if s then u.infNeg else u.infPos, evInf)
  | .fin s n e =>
    let (a, b) := pow2 e
    let num := n * a
    let lo := num / b
    let rem := num % b
    let r := if goesUp mode s (lo % 2 = 1) rem b seed then lo + 1 else lo
    let top := if sgn then 2 ^ (w - 1) else 2 ^ w
    if s && !sgn && r != 0 then (u.negative, evOvf)
    else if !s && top ≤ r then (u.high, evOvf)
    else if s && sgn && top < r then (u.low, evOvf)
    else if r = 0 && num != 0 then (0, evUnd ||| evInx)
    else (if s then (2 ^ w - r) % 2 ^ w else r, if rem != 0 then evInx else 0)

/-! ## Comparison and selection on codes -/

/-- Order key of a code that is not NaN: zeros of both signs are equal. -/
def FloatFmt.key (f : FloatFmt) (x : Nat) : Int :=
  let m : Int := (x % 2 ^ f.bits : Nat)
  if f.signOf x then -m else m

/-- FC conditions (R65, R122). -/
def FloatFmt.holds (f : FloatFmt) (k : FCond) (x y : Nat) : Bool :=
  let un := f.isNan x || f.isNan y
  let a := f.key x
  let b := f.key y
  match k with
  | .eq => !un && decide (a = b)
  | .ne => !un && decide (a ≠ b)
  | .lt => !un && decide (a < b)
  | .le => !un && decide (a ≤ b)
  | .gt => !un && decide (b < a)
  | .ge => !un && decide (b ≤ a)
  | .equ => un || decide (a = b)
  | .neu => un || decide (a ≠ b)
  | .ltu => un || decide (a < b)
  | .leu => un || decide (a ≤ b)
  | .gtu => un || decide (b < a)
  | .geu => un || decide (b ≤ a)
  | .num => !un
  | .nan => un

/-- FMIN and FMAX (R74): the operand that is not NaN; −0 below +0. -/
def FloatFmt.minMax (f : FloatFmt) (big : Bool) (x y : Nat) : Nat :=
  if f.isNan x && f.isNan y then f.nan
  else if f.isNan x then y
  else if f.isNan y then x
  else
    let less := f.key x < f.key y || (f.key x = f.key y && f.signOf x && !f.signOf y)
    if big then (if less then y else x) else (if less then x else y)

/-- FRND (R123). -/
def FloatFmt.integral (f : FloatFmt) (mode : Rnd) (x : Nat) : Nat :=
  match f.value x with
  | .nan => f.nan
  | .inf _ => x
  | .fin s n e =>
    if 0 ≤ e then x else
    let (a, b) := pow2 e
    let num := n * a
    let lo := num / b
    let r := if goesUp mode s (lo % 2 = 1) (num % b) b 0 then lo + 1 else lo
    f.round .rn (.fin s r 0)

/-- FCLASS (R124). -/
def FloatFmt.classOf (f : FloatFmt) (x : Nat) : Nat :=
  let mag := x % 2 ^ f.bits
  let s := f.signOf x
  if f.isNan x then (if mag / 2 ^ (f.prec - 2) % 2 = 1 then 2 ^ 9 else 2 ^ 8)
  else if f.inf = some mag then (if s then 2 ^ 0 else 2 ^ 7)
  else if mag = 0 then (if s then 2 ^ 3 else 2 ^ 4)
  else if mag / 2 ^ (f.prec - 1) = 0 then (if s then 2 ^ 2 else 2 ^ 5)
  else (if s then 2 ^ 1 else 2 ^ 6)

/-- Exact sum rounded once (FADD of R119). -/
def FloatFmt.addR (f : FloatFmt) (mode : Rnd) (x y : Nat) : Nat :=
  f.round mode (Num.add (mode = .rm) (f.value x) (f.value y))
/-- Exact product rounded once. -/
def FloatFmt.mulR (f : FloatFmt) (mode : Rnd) (x y : Nat) : Nat := f.round mode (Num.mul (f.value x) (f.value y))
/-- Exact product and sum, rounded once. -/
def FloatFmt.fmaR (f : FloatFmt) (mode : Rnd) (x y z : Nat) : Nat :=
  f.round mode (Num.add (mode = .rm) (Num.mul (f.value x) (f.value y)) (f.value z))

/-- A function of two halves applied to both (R121). -/
def packed (g : Nat → Nat → Nat) (x y : Nat) : Nat :=
  g (x % 65536) (y % 65536) + 65536 * g (x / 65536 % 65536) (y / 65536 % 65536)

/-! ## Special functions (R131, R132)

Real values are fixed-point integers scaled by 2^512: far more than any FP32 argument needs for one correct rounding. -/

abbrev fixBits : Nat := 512
abbrev fixOne : Nat := 2 ^ fixBits

/-- Σ t(k) for a series whose next term is `t × num / (den × d(k))`; `alt` alternates the sign. The sum is of the terms' absolute values by parity. -/
def series (fuel : Nat) (term mul div : Nat) (d : Nat → Nat) (k : Nat) : Int → Int → Int :=
  fun sgn alt => match fuel with
  | 0 => 0
  | n + 1 => if term = 0 then 0 else
      sgn * ((term / d k : Nat) : Int) + series n (term * mul / div) mul div d (k + 1) (sgn * alt) alt

/-- 2·artanh(a/b), for the logarithms. -/
def artanh2 (a b : Nat) : Nat :=
  (2 * series 400 (fixOne * a / b) (a * a) (b * b) (fun k => 2 * k + 1) 0 1 1).toNat

/-- arctan(1/n). -/
def arctanInv (n : Nat) : Int := series 400 (fixOne / n) 1 (n * n) (fun k => 2 * k + 1) 0 1 (-1)

def ln2Fix : Nat := artanh2 1 3
def piFix : Nat := (16 * arctanInv 5 - 4 * arctanInv 239).toNat

/-- Σ y^k/k! and its alternating even or odd parts: next term is t·y^s / (2^512 ...) by the factorial steps. -/
def expSeries (fuel k : Nat) (term y : Nat) : Nat :=
  match fuel with
  | 0 => 0
  | n + 1 => if term = 0 then 0 else term + expSeries n (k + 1) (term * y / (fixOne * (k + 1))) y

/-- Alternating series with steps of two: Σ ± y^(k+2j)/(k+2j)!. -/
def trigSeries (fuel k : Nat) (term y : Nat) (sgn : Int) : Int :=
  match fuel with
  | 0 => 0
  | n + 1 => if term = 0 then 0 else
      sgn * (term : Int) + trigSeries n (k + 2) (term * y / fixOne * y / (fixOne * ((k + 1) * (k + 2)))) y (-sgn)

/-- exp of a fixed-point value below 1. -/
def expFix (y : Nat) : Nat := expSeries 200 0 fixOne y

/-- The fixed-point value of a finite magnitude, truncated. -/
def toFix (n : Nat) (e : Int) : Nat := let (a, b) := pow2 (e + fixBits)
  n * a / b

/-- RCP, RSQ and SQRT by exact comparison; the others by series; all on FP32 codes. -/
def rcp32 (x : Nat) : Nat :=
  match f32Fmt.value x with
  | .nan => f32Fmt.nan
  | .inf s => f32Fmt.sgn s
  | .fin s n e => if n = 0 then f32Fmt.sgn s + f32Fmt.inf.getD 0 else
      let (a, b) := pow2 e
      f32Fmt.roundRatio .rn s b (n * a)

/-- Root of a positive ratio, rounded to FP32: enough bits of the integer root that a tie or a wrong neighbour cannot occur, with a sticky bit. -/
def rootRatio (num den : Nat) : Nat :=
  let k := 2 * (den.log2 + 64)
  let r := (num * 2 ^ (2 * k) / den).sqrt
  let exact := r * r * den = num * 2 ^ (2 * k)
  f32Fmt.roundRatio .rn false (2 * r + (if exact then 0 else 1)) (2 * 2 ^ k)

def sqrt32 (x : Nat) : Nat :=
  match f32Fmt.value x with
  | .nan => f32Fmt.nan
  | .inf s => if s then f32Fmt.nan else x
  | .fin s n e => if n = 0 then x else if s then f32Fmt.nan else
      let (a, b) := pow2 e
      rootRatio (n * a) b

def rsq32 (x : Nat) : Nat :=
  match f32Fmt.value x with
  | .nan => f32Fmt.nan
  | .inf s => if s then f32Fmt.nan else 0
  | .fin s n e => if n = 0 then f32Fmt.sgn s + f32Fmt.inf.getD 0 else if s then f32Fmt.nan else
      let (a, b) := pow2 e
      rootRatio b (n * a)

/-- 2^(k + y) rounded to FP32 for a fixed-point fraction y below 1. -/
def exp2Parts (k : Int) (y : Nat) : Nat :=
  let m := expFix (y * ln2Fix / fixOne)
  let (a, b) := pow2 k
  f32Fmt.roundRatio .rn false (m * a) (fixOne * b)

def exp232 (x : Nat) : Nat :=
  match f32Fmt.value x with
  | .nan => f32Fmt.nan
  | .inf s => if s then 0 else x
  | .fin s n e =>
    if n = 0 then 0x3F800000
    else if 8 ≤ ratioLog2 (n * (pow2 e).1) (pow2 e).2 then (if s then 0 else f32Fmt.inf.getD 0)
    else
      let y := toFix n e
      if s then
        let k := (y + fixOne - 1) / fixOne
        exp2Parts (-(k : Int)) (k * fixOne - y)
      else exp2Parts (y / fixOne : Nat) (y % fixOne)

def log232 (x : Nat) : Nat :=
  match f32Fmt.value x with
  | .nan => f32Fmt.nan
  | .inf s => if s then f32Fmt.nan else x
  | .fin s n e =>
    if n = 0 then f32Fmt.sgn true + f32Fmt.inf.getD 0
    else if s then f32Fmt.nan
    else
      let p := n.log2
      let frac := artanh2 (n - 2 ^ p) (n + 2 ^ p) * fixOne / ln2Fix
      let v : Int := (e + (p : Int)) * (fixOne : Int) + (frac : Int)
      if v = 0 then 0 else f32Fmt.roundRatio .rn (v < 0) v.natAbs fixOne

/-- sin and cos of a finite argument: quadrant and remainder by π/2, then the series. -/
def sinCos (wantCos : Bool) (s : Bool) (n : Nat) (e : Int) : Int :=
  let y := toFix n e
  let half := piFix / 2
  let k := y / half
  let r := y % half
  let j := (k + (if wantCos then 1 else 0)) % 4
  let v := if j % 2 = 0 then trigSeries 200 1 r r 1 else trigSeries 200 0 fixOne r 1
  let v := if 2 ≤ j then -v else v
  if s && !wantCos then -v else v

def sin32 (x : Nat) : Nat :=
  match f32Fmt.value x with
  | .nan | .inf _ => f32Fmt.nan
  | .fin s n e => if n = 0 then x else
      let v := sinCos false s n e
      f32Fmt.roundRatio .rn (v < 0) v.natAbs fixOne

def cos32 (x : Nat) : Nat :=
  match f32Fmt.value x with
  | .nan | .inf _ => f32Fmt.nan
  | .fin s n e => if n = 0 then 0x3F800000 else
      let v := sinCos true s n e
      f32Fmt.roundRatio .rn (v < 0) v.natAbs fixOne

/-- e^y of a fixed-point value, as m × 2^k with m fixed-point. -/
def expScaled (y : Nat) : Nat × Nat :=
  let k := y / ln2Fix
  (expFix (y % ln2Fix), k)

def tanh32 (x : Nat) : Nat :=
  match f32Fmt.value x with
  | .nan => f32Fmt.nan
  | .inf s => f32Fmt.sgn s + 0x3F800000
  | .fin s n e =>
    if n = 0 then x
    else if 6 ≤ ratioLog2 (n * (pow2 e).1) (pow2 e).2 then f32Fmt.sgn s + 0x3F800000
    else
      let (m, k) := expScaled (2 * toFix n e)
      let v := m * 2 ^ k
      f32Fmt.roundRatio .rn s (v - fixOne) (v + fixOne)

/-! ## Formats of CVT and of the format word -/

/-- The format of a CVT code with its binary8 control; integers have none (R126). -/
def cvtFloat (k : CvtFmt) (ctl : Nat) : Option FloatFmt :=
  match k with
  | .f64 => some f64Fmt
  | .f32 => some f32Fmt
  | .f16 => some f16Fmt
  | .bf16 => some bf16Fmt
  | .b8 => some (b8Fmt (ctl % 8) (ctl / 8 % 2 = 1) (ctl / 16 % 2 = 1))
  | .e4m3 => some e4m3Fmt
  | .i32 | .n32 | .i64 | .n64 => none

/-- Two's-complement or unsigned value of the low w bits. -/
def intOf (sgn : Bool) (w x : Nat) : Int :=
  let y := x % 2 ^ w
  if sgn && 2 ^ (w - 1) ≤ y then (y : Int) - 2 ^ w else y

/-- The w-bit code of an integer, modulo 2^w. -/
def codeOf (w : Nat) (x : Int) : Nat := (x % (2 ^ w : Int)).toNat

/-- The exact value of a code in a CVT format. -/
def cvtValue (k : CvtFmt) (ctl x : Nat) : Num :=
  match cvtFloat k ctl with
  | some f => f.value (x % 2 ^ k.bits)
  | none => .ofInt (intOf k.signedInt k.bits x)

/-- The integer substitutes that field C of CVT gives (R127). -/
def intSubst (k : CvtFmt) (c : Nat) : IntSubst :=
  let w := k.bits
  let sgn := k.signedInt
  if c / 32768 % 2 = 1 then
    let hi := if sgn then 2 ^ (w - 1) - 1 else 2 ^ w - 1
    let lo := if sgn then 2 ^ (w - 1) else 0
    { nan := 0, infPos := hi, infNeg := lo, high := hi, low := lo, negative := 0 }
  else
    let v := if sgn then codeOf w (intOf true 15 c) else c % 32768
    { nan := v, infPos := v, infNeg := v, high := v, low := v, negative := v }

/-- The rounding code in bits 7:5 of a CVT control. -/
def ctlRound (ctl : Nat) : Rnd := (Rnd.ofCode (ctl / 32 % 8)).getD .rn

/-- A conversion (R128): code and events; the seed is that after its step (R82). -/
def convert (y : CvtFmt) (ctl subst : Nat) (seed : BitVec 16) (v : Num) : Nat × BitVec 5 :=
  match cvtFloat y ctl with
  | some f => f.conv (ctlRound ctl) seed.toNat (subst % 256) v
  | none => convInt y.bits y.signedInt (ctlRound ctl) seed.toNat (intSubst y subst) v

/-- An operand format of the format word: its six bits (R86). -/
def fmtWordFloat (x : Nat) : FloatFmt :=
  if x / 32 % 2 = 1 then b8Fmt (x % 8) (x / 8 % 2 = 1) (x / 16 % 2 = 1)
  else match x % 8 with
    | 0 => f32Fmt
    | 1 => f16Fmt
    | _ => bf16Fmt

/-- Bytes of an element of an operand format. -/
def fmtWordBytes (x : Nat) : Nat :=
  if x / 32 % 2 = 1 then 1 else if x % 8 = 0 then 4 else 2

/-- A valid operand format (R87 rows 2 and 3). -/
def fmtFieldOk (x : Nat) : Bool :=
  if x / 32 % 2 = 1 then x % 8 != 0 else x % 8 ≤ 2 && x / 8 % 4 = 0

/-- The rows of R87 for every reader. -/
def fmtWordOk (w : Nat) : Bool :=
  w / 2 ^ 28 = 0 && w / 2 ^ 24 % 16 ≤ 4 && w / 2 ^ 20 % 16 = 0 && w / 2 ^ 16 % 16 ≤ 2 && w / 2 ^ 14 % 4 = 0 &&
    w / 2 ^ 6 % 4 = 0 && fmtFieldOk (w % 64) && fmtFieldOk (w / 256 % 64)

/-- round is 0 to 3. -/
def fmtRoundOk (w : Nat) : Bool := w / 2 ^ 24 % 16 ≤ 3

/-- Every row of R87 for MMA and MMA.S. -/
def fmtWordMma (w : Nat) : Bool :=
  let a := w % 64
  let b := w / 256 % 64
  let a8 := a / 32 % 2 = 1
  let b8 := b / 32 % 2 = 1
  fmtWordOk w && fmtRoundOk w && ((a8 && b8) || (!a8 && !b8 && a % 8 = b % 8 && a % 8 != 0)) &&
    (w / 2 ^ 16 % 16 = 0 || (a8 && b8))

end Sys2Proof.Machine
end

