-- ==== Sys2Proof/Machine/Integer.lean ====
section
/-! DEFINITION. The integer, logic, bit-field, comparison, move and address instructions (R94 to R106). -/

namespace Sys2Proof.Machine

/-- An imm32 extended to the type's width (R95). -/
def extImm (t : ITy) (imm : BitVec 32) : Nat :=
  match t with
  | .i32 | .n32 | .n64 => imm.toNat
  | .i64 => (imm.signExtend 64).toNat
/-- An imm32 extended for a logic form (R95). -/
def extImmW (w : Wd) (imm : BitVec 32) : Nat :=
  match w with
  | .w32 => imm.toNat
  | .w64 => (imm.signExtend 64).toNat

/-- A value read as the type reads it (R94). -/
def tyVal (t : ITy) (x : Nat) : Int := intOf t.signed t.bits x

def iAdd (w a b : Nat) : Nat := (a + b) % 2 ^ w
def iSub (w a b : Nat) : Nat := (a + (2 ^ w - b % 2 ^ w)) % 2 ^ w
def iMul (w a b : Nat) : Nat := a * b % 2 ^ w
def iMin (t : ITy) (a b : Nat) : Nat := if tyVal t b < tyVal t a then b else a
def iMax (t : ITy) (a b : Nat) : Nat := if tyVal t a < tyVal t b then b else a
def iNeg (w a : Nat) : Nat := (2 ^ w - a % 2 ^ w) % 2 ^ w
def iAbs (w a : Nat) : Nat := if intOf true w a < 0 then iNeg w a else a
/-- High half of the exact product (R97). -/
def iMulHi (t : ITy) (a b : Nat) : Nat := codeOf t.bits ((tyVal t a * tyVal t b) / (2 ^ t.bits : Int))
/-- 32-bit values extended to 64 bits (R97). -/
def iMadW (sgn : Bool) (a b c : Nat) : Nat := codeOf 64 (intOf sgn 32 a * intOf sgn 32 b + (c : Int))
/-- Quotient and remainder (R98). -/
def iDiv (t : ITy) (a b : Nat) : Nat :=
  if b = 0 then 2 ^ t.bits - 1 else codeOf t.bits ((tyVal t a).tdiv (tyVal t b))
def iRem (t : ITy) (a b : Nat) : Nat :=
  if b = 0 then a else codeOf t.bits ((tyVal t a).tmod (tyVal t b))

/-- Shifts (R99). -/
def shlV (w a n : Nat) : Nat := if w ≤ n then 0 else a * 2 ^ n % 2 ^ w
def shrV (w a n : Nat) : Nat := if w ≤ n then 0 else a / 2 ^ n
def sarV (w a n : Nat) : Nat := codeOf w (intOf true w a / (2 ^ (min n w) : Int))
def rotV (w a n : Nat) : Nat := let k := n % w
  a * 2 ^ k % 2 ^ w + a / 2 ^ (w - k)

/-- Bit i of a number. -/
def bitOf (x i : Nat) : Nat := x / 2 ^ i % 2

/-- A function of bits applied to w of them. -/
def bitwise (w : Nat) (f : Nat → Nat) : Nat := ((List.range w).map fun i => f i * 2 ^ i).sum

def notV (w a : Nat) : Nat := 2 ^ w - 1 - a % 2 ^ w
/-- BOOL3: the table indexed by A + 2B + 4D (R100). -/
def bool3V (w tab a b d : Nat) : Nat := bitwise w fun i => bitOf tab (bitOf a i + 2 * bitOf b i + 4 * bitOf d i)

/-- Position, and width of the field that the control names within w bits (R101). -/
def fieldPos (c : Nat) : Nat := c % 128
def fieldLen (w c : Nat) : Nat := min (fieldPos c + c / 256 % 128) w - fieldPos c
def bfeV (t : ITy) (a c : Nat) : Nat :=
  let n := fieldLen t.bits c
  if n = 0 then 0 else codeOf t.bits (intOf t.signed n (a / 2 ^ fieldPos c))
def bfiV (w ins base c : Nat) : Nat :=
  let p := fieldPos c
  let n := fieldLen w c
  base - base / 2 ^ p % 2 ^ n * 2 ^ p + ins % 2 ^ n * 2 ^ p

def popcV (w a : Nat) : Nat := ((List.range w).map (bitOf a)).sum
def clzV (w a : Nat) : Nat := if a = 0 then w else w - 1 - a.log2
def brevV (w a : Nat) : Nat := bitwise w fun i => bitOf a (w - 1 - i)

def condHolds (k : Cond) (a b : Int) : Bool :=
  match k with
  | .eq => decide (a = b) | .ne => decide (a ≠ b) | .lt => decide (a < b)
  | .le => decide (a ≤ b) | .gt => decide (b < a) | .ge => decide (b ≤ a)

def psetApply (o : PsetOp) (x y : Bool) : Bool :=
  match o with
  | .and => x && y
  | .or => x || y
  | .xor => x != y

/-- PSET's inversions by the bits of C (R104). -/
def psetV (o : PsetOp) (a b c : Nat) : Nat :=
  if (psetApply o ((a = 1) != (bitOf c 0 = 1)) ((b = 1) != (bitOf c 1 = 1))) != (bitOf c 2 = 1) then 1 else 0

def leaV (s : Nat) (a b : Nat) : Nat := codeOf 64 ((a : Int) + intOf true 32 b * (2 ^ s : Int))

/-! ## Meanings -/

def execNop (h : Hdr) (f : Ops) : State → Host.Outcome State Fault Refusal := issue (.nop h f) fun _ s => s
def execIadd (h : Hdr) (t : ITy) (f : Ops) : State → Host.Outcome State Fault Refusal :=
  issue (.iadd h t f) (alu2 (iAdd t.bits))
def execIaddImm (h : Hdr) (t : ITy) (f : OpsI) : State → Host.Outcome State Fault Refusal :=
  issue (.iaddImm h t f) (alu1 fun a => iAdd t.bits a (extImm t f.imm))
def execIsub (h : Hdr) (t : ITy) (f : Ops) : State → Host.Outcome State Fault Refusal :=
  issue (.isub h t f) (alu2 (iSub t.bits))
def execIsubImm (h : Hdr) (t : ITy) (f : OpsI) : State → Host.Outcome State Fault Refusal :=
  issue (.isubImm h t f) (alu1 fun a => iSub t.bits a (extImm t f.imm))
def execImul (h : Hdr) (t : ITy) (f : Ops) : State → Host.Outcome State Fault Refusal :=
  issue (.imul h t f) (alu2 (iMul t.bits))
def execImulImm (h : Hdr) (t : ITy) (f : OpsI) : State → Host.Outcome State Fault Refusal :=
  issue (.imulImm h t f) (alu1 fun a => iMul t.bits a (extImm t f.imm))
def execImulhi (h : Hdr) (t : ITy) (f : Ops) : State → Host.Outcome State Fault Refusal :=
  issue (.imulhi h t f) (alu2 (iMulHi t))
def execImad (h : Hdr) (t : ITy) (f : Ops) : State → Host.Outcome State Fault Refusal :=
  issue (.imad h t f) (alu3 fun a b c => (a * b + c) % 2 ^ t.bits)
def execImadw (h : Hdr) (sgn : Bool) (f : Ops) : State → Host.Outcome State Fault Refusal :=
  issue (.imadw h sgn f) (alu3 (iMadW sgn))
def execImin (h : Hdr) (t : ITy) (f : Ops) : State → Host.Outcome State Fault Refusal :=
  issue (.imin h t f) (alu2 (iMin t))
def execIminImm (h : Hdr) (t : ITy) (f : OpsI) : State → Host.Outcome State Fault Refusal :=
  issue (.iminImm h t f) (alu1 fun a => iMin t a (extImm t f.imm))
def execImax (h : Hdr) (t : ITy) (f : Ops) : State → Host.Outcome State Fault Refusal :=
  issue (.imax h t f) (alu2 (iMax t))
def execImaxImm (h : Hdr) (t : ITy) (f : OpsI) : State → Host.Outcome State Fault Refusal :=
  issue (.imaxImm h t f) (alu1 fun a => iMax t a (extImm t f.imm))
def execIabs (h : Hdr) (w : Wd) (f : Ops) : State → Host.Outcome State Fault Refusal :=
  issue (.iabs h w f) (alu1 (iAbs w.bits))
def execIneg (h : Hdr) (w : Wd) (f : Ops) : State → Host.Outcome State Fault Refusal :=
  issue (.ineg h w f) (alu1 (iNeg w.bits))
def execShl (h : Hdr) (w : Wd) (f : Ops) : State → Host.Outcome State Fault Refusal :=
  issue (.shl h w f) (alu2 (shlV w.bits))
def execShr (h : Hdr) (w : Wd) (f : Ops) : State → Host.Outcome State Fault Refusal :=
  issue (.shr h w f) (alu2 (shrV w.bits))
def execSar (h : Hdr) (w : Wd) (f : Ops) : State → Host.Outcome State Fault Refusal :=
  issue (.sar h w f) (alu2 (sarV w.bits))
def execRot (h : Hdr) (w : Wd) (f : Ops) : State → Host.Outcome State Fault Refusal :=
  issue (.rot h w f) (alu2 (rotV w.bits))
def execAnd (h : Hdr) (w : Wd) (f : Ops) : State → Host.Outcome State Fault Refusal :=
  issue (.and h w f) (alu2 Nat.land)
def execAndImm (h : Hdr) (w : Wd) (f : OpsI) : State → Host.Outcome State Fault Refusal :=
  issue (.andImm h w f) (alu1 fun a => Nat.land a (extImmW w f.imm))
def execOr (h : Hdr) (w : Wd) (f : Ops) : State → Host.Outcome State Fault Refusal :=
  issue (.or h w f) (alu2 Nat.lor)
def execOrImm (h : Hdr) (w : Wd) (f : OpsI) : State → Host.Outcome State Fault Refusal :=
  issue (.orImm h w f) (alu1 fun a => Nat.lor a (extImmW w f.imm))
def execXor (h : Hdr) (w : Wd) (f : Ops) : State → Host.Outcome State Fault Refusal :=
  issue (.xor h w f) (alu2 Nat.xor)
def execXorImm (h : Hdr) (w : Wd) (f : OpsI) : State → Host.Outcome State Fault Refusal :=
  issue (.xorImm h w f) (alu1 fun a => Nat.xor a (extImmW w f.imm))
def execNot (h : Hdr) (w : Wd) (f : Ops) : State → Host.Outcome State Fault Refusal :=
  issue (.not h w f) (alu1 (notV w.bits))
def execBool3 (h : Hdr) (w : Wd) (f : OpsH) : State → Host.Outcome State Fault Refusal :=
  issue (.bool3 h w f) (alu fun a b _ d => bool3V w.bits f.imm.toNat a b d)
def execBfe (h : Hdr) (t : ITy) (f : Ops) : State → Host.Outcome State Fault Refusal :=
  issue (.bfe h t f) (alu2 (bfeV t))
def execBfi (h : Hdr) (w : Wd) (f : Ops) : State → Host.Outcome State Fault Refusal :=
  issue (.bfi h w f) (alu3 (bfiV w.bits))
def execPopc (h : Hdr) (w : Wd) (f : Ops) : State → Host.Outcome State Fault Refusal :=
  issue (.popc h w f) (alu1 (popcV w.bits))
def execClz (h : Hdr) (w : Wd) (f : Ops) : State → Host.Outcome State Fault Refusal :=
  issue (.clz h w f) (alu1 (clzV w.bits))
def execBrev (h : Hdr) (w : Wd) (f : Ops) : State → Host.Outcome State Fault Refusal :=
  issue (.brev h w f) (alu1 (brevV w.bits))
def execIsetp (h : Hdr) (k : Cond) (t : ITy) (f : Ops) : State → Host.Outcome State Fault Refusal :=
  issue (.isetp h k t f) (alu2 fun a b => if condHolds k (tyVal t a) (tyVal t b) then 1 else 0)
def execIcmp (h : Hdr) (k : Cond) (t : ITy) (f : Ops) : State → Host.Outcome State Fault Refusal :=
  issue (.icmp h k t f) (alu2 fun a b => if condHolds k (tyVal t a) (tyVal t b) then 0xFFFFFFFF else 0)
def execSel (h : Hdr) (w : Wd) (f : Ops) : State → Host.Outcome State Fault Refusal :=
  issue (.sel h w f) (alu3 fun a b c => if c = 1 then a else b)
def execPset (h : Hdr) (o : PsetOp) (f : Ops) : State → Host.Outcome State Fault Refusal :=
  issue (.pset h o f) (alu3 (psetV o))
def execMov (h : Hdr) (w : Wd) (f : Ops) : State → Host.Outcome State Fault Refusal :=
  issue (.mov h w f) (alu1 id)
def execMovi (h : Hdr) (f : OpsI) : State → Host.Outcome State Fault Refusal :=
  issue (.movi h f) (alu1 fun _ => f.imm.toNat)
def execLea (h : Hdr) (k : LeaShift) (f : Ops) : State → Host.Outcome State Fault Refusal :=
  issue (.lea h k f) (alu2 (leaV k.code))

/-! ## Results written later: IDIV, IREM and the special functions (R98, R132) -/

/-- An operation whose result is written by RESULT_WRITTEN: D is marked empty, the operands stand in the record. -/
def oweResult (x : Act) (s : State) : State :=
  let w := s.warp x.u
  let slots := x.runs.map fun l =>
    ({ lane := l, addr := 0, data := BitVec.ofNat 128 (x.valA w l + x.valB w l * 2 ^ 64) } : Slot)
  s.onWarp x.u fun w => (x.oweD w).addOp
    { id := 0, ins := x.i, pc := x.pc, lanes := maskOf x.act, ctr := none, state := .sent, slots }

def execIdiv (h : Hdr) (t : ITy) (f : Ops) : State → Host.Outcome State Fault Refusal := issue (.idiv h t f) oweResult
def execIrem (h : Hdr) (t : ITy) (f : Ops) : State → Host.Outcome State Fault Refusal := issue (.irem h t f) oweResult

end Sys2Proof.Machine
end

