-- ==== Sys2Proof/Machine/MemOps.lean ====
section
/-! DEFINITION. Loads, stores and atomics (R142 to R156): their checks and issue, and the events that perform them. -/

namespace Sys2Proof.Machine

/-! ## Issue -/

/-- Slots of a global instruction: every performing lane with its address and data. -/
def Act.globalSlots (x : Act) (w : Warp) (data : Nat → Nat) : List Slot :=
  x.runs.map fun l =>
    { lane := l, addr := x.globalAddr w l, data := .ofNat 128 (data l), tag := 0 }

/-- Slots of a scratchpad instruction. -/
def Act.scrSlots (x : Act) (w : Warp) (data : Nat → Nat) : List Slot :=
  x.runs.map fun l => { lane := l, addr := x.scrAddr w l, data := .ofNat 128 (data l), tag := 0 }

/-- The first byte of an access that lies outside the canonical addresses; a gather's bytes are accesses of their own (R143, R150). -/
def beyondVa (n align : Nat) (x : Slot) : Option Nat :=
  if !canonical x.addr then some x.addr
  else if align = 1 && !canonical (x.addr + n - 1) then some (2 ^ 60)
  else none

/-- The checks of R143 in their order: the first that some lane fails, the lane, the cause and the address. Check 2 is of the address; an aligned access that begins inside a scratchpad and ends beyond it is BOUNDS too (R26). -/
def addrCheck (s : State) (w : Warp) (global : Bool) (n align : Nat) (slots : List Slot) : Option (Nat × TrapInfo) :=
  let bad (p : Slot → Bool) (c : Word) : Option (Nat × TrapInfo) :=
    (slots.find? p).map fun x => (x.lane, { cause := c, addr := .ofNat 64 x.addr })
  ((if global then slots.findSome? fun x => (beyondVa n align x).map fun a => (x.lane, { cause := causeTranslation, addr := .ofNat 64 a })
    else bad (fun x => (scrTarget s w x.addr 1).isNone) causeBounds)).or
    ((bad (fun x => x.addr % align != 0) causeAlignment).or
      (if global then none else bad (fun x => (scrTarget s w x.addr n).isNone) causeBounds))

/-- Every byte address whose translation an access needs: its first and its last byte. -/
def pagesOf (n : Nat) (slots : List Slot) : List (Nat × Nat) :=
  (slots.map fun x => if x.addr / 65536 = (x.addr + n - 1) / 65536 then [(x.lane, x.addr)]
    else [(x.lane, x.addr), (x.lane, (x.addr + n - 1) / 65536 * 65536)]).flatten

/-- Slots tagged for an I2 operation (R283). -/
def tagged (s : State) (w : Warp) (slots : List Slot) : List Slot :=
  slots.map fun x => { x with tag := s.tag w x.lane (w.seq x.lane) }

/-- The operation enters the record, and field D becomes empty where it has one. -/
def startOp (x : Act) (slots : List Slot) (d : Bool) (s : State) : State :=
  s.onWarp x.u fun w => (if d then x.oweD w else w).addOp (x.op slots [])

/-- Issue of a global access. -/
def globalIssue (acc : Acc) (n align kind : Nat) (d tags : Bool) (data : Warp → Act → Nat → Nat) (cached : State → Act → Nat → Bool)
    (x : Act) (s : State) : State :=
  let w := s.warp x.u
  let slots := x.globalSlots w (data w x)
  match addrCheck s w true n align slots with
  | some (l, t) => x.trap l t s
  | none =>
    let need := pagesOf n (slots.filter fun y => !cached s x y.addr)
    let (bad, s) := probeAll (s.space w) n acc need s
    let slots := if tags then tagged s w slots else slots
    let start (s : State) : State := startOp x slots d (if tags then takeSeqs x.u x.act s else s)
    x.probed bad kind start start s

/-- Issue of a scratchpad access. -/
def scrIssue (n : Nat) (d tags : Bool) (data : Warp → Act → Nat → Nat) (x : Act) (s : State) : State :=
  let w := s.warp x.u
  let slots := x.scrSlots w (data w x)
  match addrCheck s w false n n slots with
  | some (l, t) => x.trap l t s
  | none =>
    let slots := if tags then tagged s w slots else slots
    startOp x slots d (if tags then takeSeqs x.u x.act s else s)

def noData (_ : Warp) (_ : Act) (_ : Nat) : Nat := 0
def dataC (w : Warp) (x : Act) (l : Nat) : Nat := x.valC w l

def uncached (_ : State) (_ : Act) (_ : Nat) : Bool := false

/-! ## Reads -/

/-- The slice nearest a core (R298). -/
def nearSlice (core : Nat) : Nat := core / 32 * 16 + core % 32 % 16

/-- A replica of a launch in a slice (R148). -/
def replicaOf (s : State) (slice launch line : Nat) : Option Replica :=
  s.mem.replicas.find? fun r => r.slice == slice && r.line == line && r.launch == launch

/-- A gang's open version holds a shadow of a line. -/
def gangHolds (s : State) (g : Option Nat) (line : Nat) : Bool :=
  match g with
  | some u => decide (line ∈ (s.gang u).shadows)
  | none => false

/-- Bytes of a replica. -/
def Replica.read (r : Replica) (k n : Nat) : List Byte := (r.bytes.drop (k % 128)).take n

/-- A read with `.near`: from the launch's replica in the nearest slice; when there is none, the home slice makes one or serves the load itself, a free choice while the slice's set has a way for it (R148; log 9). A line the gang has written itself is read as a plain load reads it. -/
def readNear (p : Party) (va n : Nat) (s : State) : Got × State :=
  match p.core with
  | none => readHome p va n s
  | some c =>
    let k := p.sp.loc va
    let slice := nearSlice c
    if s.l1Serves c p.gang k n || slice = sliceOf k || gangHolds s p.gang (k / 128) then readL1 p va n s
    else match replicaOf s slice p.launch (k / 128) with
      | some r => if (granulesOf (k % 128) n).any fun j => r.bad.contains j then (.poison, s) else (.bytes (r.read k n), s)
      | none =>
        match reach k .read s with
        | (.line, s) =>
          let r : Replica := { slice, line := k / 128, launch := p.launch, bytes := homeRead s none .line (k / 128 * 128) 128 }
          if poisonedAt s none .line (k / 128 * 128) 128 || 11 ≤ (s.mem.replicas.filter fun q => q.set == r.set).length then readL1 p va n s
          else if !Config.replicates s.draws then readL1 p va n s.draw
          else
            let s := makeRoom r.set (k / 128) s.draw
            (.bytes (r.read k n), { s with mem := { s.mem with replicas := s.mem.replicas ++ [r] } })
        | (_, s) => readL1 p va n s

/-- Where an error lies that an access from a location on meets, be it in the replica of its launch (R362, R373). -/
def nearWhere (s : State) (w : Warp) (k : Nat) : ErrWhere :=
  match replicaOf s (nearSlice (s.warpCore w)) (s.warpLaunch w).uid (k / 128) with
  | some r => if r.bad != [] then { l2Where k with loc := .ofNat 28 r.slice } else poisonWhere s k
  | none => poisonWhere s k

/-- A line is in a core's constant cache. -/
def CoreCache.hasConst (c : CoreCache) (k : Nat) : Bool := (Store.get none c.consts k).isSome

/-- The constant cache of 64 KiB holds 512 lines: a full one gives up a line, a free choice (R297; log 8). -/
def CoreCache.constRoom (pick : Nat) (c : CoreCache) : CoreCache :=
  if c.consts.length < 65536 then c
  else
    let gone := ((c.consts[pick % max 1 c.consts.length]?).map fun e => e.1 / 128).getD 0
    { c with consts := Store.drop c.consts fun j => j / 128 == gone }

/-- A read of the constant cache (R149, R297): a line that is absent is filled from the home slice (log 10); one that the gang has written is read there each time. -/
def readConst (p : Party) (va n : Nat) (s : State) : Got × State :=
  match p.core with
  | none => readHome p va n s
  | some c =>
    let k := p.sp.loc va
    let held (s : State) : List Byte := (List.range n).map fun j => (Store.get none (s.cache c).consts (k + j)).getD 0
    if gangHolds s p.gang (k / 128) then readHome p va n s
    else if (s.cache c).hasConst k then (.bytes (held s), s)
    else match reach k .read s with
      | (.line, s) =>
        if poisonedAt s p.gang .line k n then (.poison, s)
        else if poisonedAt s p.gang .line (k / 128 * 128) 128 then (.bytes (homeRead s p.gang .line k n), s)
        else
          let base := k / 128 * 128
          let bs := homeRead s p.gang .line base 128
          let put (e : Nat × Byte) (m : Store (Option Byte)) : Store (Option Byte) := Store.put none m (base + e.1) (some e.2)
          let fill (x : CoreCache) : CoreCache :=
            let y := x.constRoom (Config.leaves s.draws)
            { y with consts := each ((List.range 128).zip bs) y.consts put }
          let s := (s.onCache c fill).draw
          (.bytes (held s), s)
      | (.fail x, s) => (.fail x, s)
      | (.direct _, s) => readHome p va n s

/-- A gather: every byte its own access (R150). -/
def readEach (p : Party) : Nat → Nat → State → Got × State
  | _, 0, s => (.bytes [], s)
  | va, n + 1, s =>
    match readL1 p va 1 s with
    | (.bytes b, s) => (match readEach p (va + 1) n s with
      | (.bytes bs, s) => (.bytes (b ++ bs), s)
      | x => x)
    | x => x

/-- How a load instruction reads one lane. -/
def loadOf (i : Instr) (p : Party) (va n : Nat) (s : State) : Got × State :=
  match i with
  | .ld _ _ near _ _ => if near then readNear p va n s else readL1 p va n s
  | .ldc .. => readConst p va n s
  | .ldb .. => readEach p va n s
  | .ldAcq .. => readAcquire p va n s
  | _ => readL1 p va n s

/-- A load finds its bytes in its core's caches or in a replica, and needs no translation (R305). -/
def served (i : Instr) (p : Party) (va n : Nat) (s : State) : Bool :=
  match p.core with
  | none => false
  | some c =>
    let k := p.sp.loc va
    let l1 : Bool := s.l1Serves c p.gang k n
    match i with
    | .ld _ _ near _ _ => l1 || (near && nearSlice c != sliceOf k && !gangHolds s p.gang (k / 128) &&
        (replicaOf s (nearSlice c) p.launch (k / 128)).isSome)
    | .ldAcq .. => l1 && (s.cache c).owns k n
    | .ldc .. => (s.cache c).hasConst k && !gangHolds s p.gang (k / 128)
    | .pref .. => false
    | .ldb .. => (List.range n).all fun j => s.l1Serves c p.gang (k + j) 1
    | _ => l1

/-- Access size of a load or store. -/
def sizeOf (i : Instr) : Nat :=
  match i with
  | .ld _ z _ _ _ | .ldAcq _ z _ _ | .st _ z _ | .stRel _ z _ | .lds _ z _ _ | .sts _ z _ | .ldc _ z _ | .ldb _ z _ =>
    z.bytes
  | .pref .. => 1
  | _ => 0

def signExtended (i : Instr) : Bool :=
  match i with
  | .ld _ _ _ sx _ | .ldAcq _ _ sx _ | .lds _ _ sx _ => sx
  | _ => false

/-- The register value of n loaded bytes (R145). -/
def loadValue (sx : Bool) (n x : Nat) : Nat := if sx && n < 4 then codeOf 32 (intOf true (8 * n) x) else x

/-- Write field D of an operation in its lanes when it completes (R21), unless EMK holds it (R59). -/
def Op.writeD (o : Op) (vals : List (Nat × Nat)) (w : Warp) : Warp :=
  match raw o.ins with
  | none => w
  | some r => if r.h.emk then w else each vals w fun e w => w.write (shape o.ins).d.regs r.d e.1 e.2

/-- Read every lane of a load: the values, or the first lane that fails. -/
def loadLanes (rd : Slot → State → Got × State) : List Slot → State → List (Nat × Nat) × Option (Slot × Got) × State
  | [], s => ([], none, s)
  | x :: xs, s =>
    match rd x s with
    | (.bytes bs, s) =>
      let (vs, bad, s) := loadLanes rd xs s
      ((x.lane, natOfBytes bs) :: vs, bad, s)
    | (g, s) => ([], some (x, g), s)

/-- The scratchpad bytes hold an uncorrectable error (R362). -/
def scrBad (s : State) (g : Nat) (t : Nat × Nat) (n : Nat) : Bool :=
  (List.range ((t.2 + n - 1) / 8 + 1 - t.2 / 8)).any fun j => Store.get false (s.block g t.1).badScratch (t.2 / 8 + j)

/-- Where an uncorrectable error of scratchpad lies (R373). -/
def scrWhere (s : State) (g : Nat) (t : Nat × Nat) : ErrWhere :=
  let b := s.block g t.1
  { addr := .ofNat 64 t.2, pa := false, source := 0x05, ltype := 1,
    loc := .ofNat 28 (coreNo (s.gang g).cluster b.core * 32 + b.banks.getD (t.2 / Config.bankBytes) 0) }

/-- One lane of a scratchpad read. -/
def readScr (s : State) (w : Warp) (a n : Nat) : Got :=
  match scrTarget s w a n with
  | none => .fail .permission
  | some t => if scrBad s w.gang t n then .poison else .bytes (scrRead s w.gang t n)

/-- A byte that a failed access names: the first that cannot be reached (R144). -/
def firstBad (s : State) (sp : Space) (a : Acc) (va n : Nat) : Nat :=
  ((List.range n).find? fun j => (probe (sp.loc (va + j)) n a s).1.isSome).map (va + ·) |>.getD va

/-- The line that a bundle of loads or stores covers, every byte once: it is performed as one event (R146). -/
def coveredLine (o : Op) : Option Nat :=
  let n := sizeOf o.ins
  let spans : Bool := match o.ins with
    | .ld .. | .ldAcq .. | .st .. | .stRel .. | .lds .. | .sts .. => true
    | _ => false
  match o.slots with
  | [] => none
  | x :: _ =>
    let line := x.addr / 128
    if spans && o.slots.length * n = 128 && (List.range (128 / n)).all (fun j => o.slots.any fun y => y.addr == 128 * line + j * n)
    then some line else none

/-- A slot of a load waits on a page in migration (R273, R304, R305). -/
def slotWaits (s : State) (p : Party) (o : Op) (x : Slot) : Bool :=
  !isScratchOp o.ins && !served o.ins p x.addr (sizeOf o.ins) s &&
    (pagesOf (sizeOf o.ins) [x]).any fun a => migrating s (p.sp.loc a.2) .read

/-- A load may be performed. -/
def loadReady (s : State) (r : OpRef) : Bool :=
  match s.opOf r with
  | none => false
  | some o => (isLoad o.ins || isPrefetch o.ins) && opReady s r o && !o.slots.any (slotWaits s (s.party (s.warp r.warp)) o)

/-- Bytes of a load's lane that were read ahead of the others. -/
def Slot.ahead (x : Slot) : Nat := (x.answer.map fun v => v.toNat).getD 0

/-- A lane's `n` bytes: those read ahead, then the rest. -/
def Slot.joined (x : Slot) (n : Nat) (rest : List Byte) : List Byte := (bytesOfNat n x.data.toNat).take x.ahead ++ rest

/-- Read a lane of a load: what it has gathered already, and the rest of its bytes (R146, R150). -/
def readSlot (w : Warp) (p : Party) (o : Op) (x : Slot) (s : State) : Got × State :=
  let n := sizeOf o.ins
  let got := x.ahead
  if n ≤ got then (.bytes (bytesOfNat n x.data.toNat), s)
  else
    let rest := if isScratchOp o.ins then (readScr s w (x.addr + got) (n - got), s) else loadOf o.ins p (x.addr + got) (n - got) s
    match rest with
    | (.bytes bs, s) => (.bytes (x.joined n bs), s)
    | g => g

/-- Read every lane of a load: a bundle that covers a line reads it once (R146). -/
def readSlots (w : Warp) (p : Party) (o : Op) (s : State) : List (Nat × Nat) × Option (Slot × Got) × State :=
  match coveredLine o, isScratchOp o.ins with
  | some line, false =>
    (match loadOf o.ins p (128 * line) 128 s with
    | (.bytes bs, s) => loadLanes (fun x s => (.bytes (x.joined (sizeOf o.ins) ((bs.drop (x.addr % 128 + x.ahead)).take (sizeOf o.ins - x.ahead))), s)) o.slots s
    | (g, s) => ([], o.slots.head?.map fun x => (x, g), s))
  | _, _ => loadLanes (readSlot w p o) o.slots s

/-- A lane of a memory operation cannot be performed: a translation that fails, or an uncorrectable error met (R144, R364). -/
def laneFails (r : OpRef) (kind n : Nat) (x : Slot) (g : Got) (s : State) : State :=
  match s.opOf r with
  | none => s
  | some o =>
    let w := s.warp r.warp
    let sp := s.space w
    match g with
    | .bytes _ => s
    | .fail e => opFail r x.lane kind (firstBad s sp (if kind = 0 then .read else .write) x.addr n) false 0 e s
    | .poison =>
      let s := s.finishOp r
      if isScratchOp o.ins then consume w.gang (scrWhere s w.gang ((scrTarget s w x.addr n).getD (0, 0))) s
      else consume w.gang (nearWhere s w (sp.loc x.addr)) s

/-- The slot of a lane has been changed. -/
def State.onSlot (s : State) (r : OpRef) (lane : Nat) (f : Slot → Slot) : State :=
  s.onOp r fun o => { o with slots := mapIf (fun x => x.lane == lane) f o.slots }

/-- One lane of a load is performed ahead of the others; of a gather, its next byte (R146, R150). -/
def loadPart (r : OpRef) (lane : Nat) (s : State) : State :=
  match s.opOf r with
  | none => s
  | some o =>
    match o.slots.find? fun x => x.lane == lane with
    | none => s
    | some x =>
      let w := s.warp r.warp
      let n := sizeOf o.ins
      let got := x.ahead
      let m := match o.ins with
        | .ldb .. => 1
        | _ => n - got
      let rd := if isScratchOp o.ins then (readScr s w (x.addr + got) m, s) else loadOf o.ins (s.party w) (x.addr + got) m s
      match rd with
      | (.bytes bs, s) => s.onSlot r lane fun x =>
          { x with
            answer := some (.ofNat 64 (got + m))
            data := .ofNat 128 (x.data.toNat % 256 ^ got + natOfBytes bs * 256 ^ got) }
      | (g, s) => laneFails r 0 n x g s

/-- The lanes of a load that may be performed ahead. -/
def loadParts (s : State) (r : OpRef) : List (Nat × Nat) :=
  match s.opOf r with
  | none => []
  | some o =>
    if !(isLoad o.ins && opReady s r o) || (coveredLine o).isSome then []
    else
      let n := sizeOf o.ins
      let more (x : Slot) : Bool := decide (x.ahead < n)
      let several : Bool := decide (1 < o.slots.length) || (match o.ins with
        | .ldb .. => true
        | _ => false)
      if several then
        (o.slots.filter fun x => more x && !slotWaits s (s.party (s.warp r.warp)) o x).map fun x => (x.lane, 3)
      else []

/-- The data of a load arrives (R21, R145, R147, R363); a prefetch brings its lines to their home slices, or drops (R151). -/
def loadArrive (r : OpRef) (s : State) : State :=
  match s.opOf r with
  | none => s
  | some o =>
    let w := s.warp r.warp
    let p := s.party w
    let n := sizeOf o.ins
    if isPrefetch o.ins then (each o.slots s fun x s => (reach (p.sp.loc x.addr) .read s).2).finishOp r
    else match readSlots w p o s with
    | (_, some (x, g), s) => laneFails r 0 n x g s
    | (vs, none, s) =>
      let s := s.onWarp r.warp (o.writeD (vs.map fun v => (v.1, loadValue (signExtended o.ins) n v.2)))
      let s := s.finishOp r
      if isAcquire o.ins then acquire (s.warpCore w) s else s

/-! ## Stores -/

/-- The response to the request the DOE interface delivered has been sent: the hold of a certificate slot ends (R227, R395). -/
def certRelease (s : State) : State :=
  match s.spdm.held with
  | none => s
  | some k =>
    let free (c : CertSlot) : CertSlot := { chain := c.staged.getD c.chain, staged := none, hold := false }
    { s with certs := mapAt free s.certs k, spdm := { s.spdm with held := none } }

/-- The location of the root mailbox, when its context is registered in world 0 (R395). -/
def mailbox (s : State) : Option Nat :=
  let x := s.mgmt.spdmbox.toNat
  let c := s.ctx (x % 256)
  if c.valid && c.world = 0 then some (({ world := 0, asid := c.asid.toNat } : Space).loc (x / 4096 % 2 ^ 48 * 4096)) else none

/-- A release store to rsseq sends the response it numbers. -/
def responseSent (k n v : Nat) (s : State) : State :=
  match mailbox s with
  | some m => if k = m + 8 && n = 4 && v = s.spdm.delivered.toNat then certRelease s else s
  | none => s

/-- A word still stands under the guard of an operation (R285 rule 4). -/
def guarded (s : State) (r : OpRef) (word : Nat) : Bool := s.mem.guards.any fun g => g.word == word && g.op == r

/-- What a slot of a store writes, by offset: its whole datum, or at a replay the words whose guards still stand (R285 rule 4). -/
def storePieces (s : State) (r : OpRef) (o : Op) (k : Nat) (bs : List Byte) : List (Nat × List Byte) :=
  if o.state != .sent then [(0, bs)]
  else ((List.range ((bs.length + 3) / 4)).filter fun j => guarded s r (k / 4 + j)).map fun j => (4 * j, (bs.drop (4 * j)).take 4)

/-- A store may be performed. -/
def storeReady (s : State) (r : OpRef) : Bool :=
  match s.opOf r with
  | none => false
  | some o =>
    let sp := s.space (s.warp r.warp)
    (match o.ins with
      | .st .. | .stRel .. => !(o.slots.any fun x => migrating s (sp.loc x.addr) .write)
      | .sts .. => true
      | _ => false) && opReady s r o

/-- A word that an atomic or another party has written leaves a core's own L1 copy. -/
def dropL1 (core k n : Nat) (s : State) : State :=
  s.onCache core fun c =>
    { c with l1 := Store.drop c.l1 fun w => decide (k / 4 ≤ w) && decide (w ≤ (k + n - 1) / 4) }

/-- Perform a release store of one lane on the committed line (R147). -/
def storeCommitted (p : Party) (va : Nat) (bs : List Byte) (s : State) : State :=
  let k := p.sp.loc va
  match reach k .write s with
  | (.fail _, s) => s
  | (h, s) => responseSent k bs.length (natOfBytes bs) (storeL1 p h k bs.length (homeUpdate p.core h k bs s))

/-- Perform one lane of a scratchpad store (R26, R145). -/
def storeScratch (w : Warp) (x : Slot) (bs : List Byte) (s : State) : State :=
  match scrTarget s w x.addr bs.length with
  | some t => scrWrite w.gang t bs s
  | none => s

/-- The barrier objects that some slots of a store bundle write. -/
def objectsOf (s : State) (w : Warp) (o : Op) (slots : List Slot) : List (Nat × Nat) :=
  ((slots.filterMap fun x => scrTarget s w x.addr (sizeOf o.ins)).map fun t => (t.1, t.2 / 32 * 32)).eraseDups

/-- Slots of a scratchpad store are performed; a barrier object written is tested then (R160). -/
def storeSlots (w : Warp) (o : Op) (slots : List Slot) (s : State) : State :=
  let s := each slots s fun x s => storeScratch w x (bytesOfNat (sizeOf o.ins) x.data.toNat) s
  each (objectsOf s w o slots) s fun t s => storeObject w.gang t s

/-- Perform one lane of a store that has translated: a plain store registers, a release store commits its gang's version first (R144 to R147, R296, R299). -/
def storeLane (w : Warp) (p : Party) (o : Op) (e : Slot × List (Nat × List Byte)) (s : State) : State :=
  if isRelease o.ins then
    each e.2 (release w.gang s) fun q s => storeCommitted p (e.1.addr + q.1) q.2 s
  else each e.2 s fun q s => (writeStore p (e.1.addr + q.1) q.2 s).2

/-- The lanes of a store not performed yet, with what each writes. -/
def storeRest (s : State) (r : OpRef) (o : Op) : List (Slot × List (Nat × List Byte)) :=
  let sp := s.space (s.warp r.warp)
  (o.slots.filter fun x => x.answer.isNone).map fun x =>
    (x, storePieces s r o (sp.loc x.addr) (bytesOfNat (sizeOf o.ins) x.data.toNat))

/-- A store registers (R144 to R147, R296, R299): nothing is written until every page has translated. -/
def storeRegisters (r : OpRef) (s : State) : State :=
  match s.opOf r with
  | none => s
  | some o =>
    let w := s.warp r.warp
    let p := s.party w
    let n := sizeOf o.ins
    if isScratchOp o.ins then
      (storeSlots w o (o.slots.filter fun x => x.answer.isNone) s).finishOp r
    else
      match probeAll p.sp n .write (pagesOf n o.slots) s with
      | (some (l, va, e), s) => opFail r l 1 va false 0 e s
      | (none, s) =>
        let s := each (storeRest s r o) s fun e s => storeLane w p o e s
        let s := { s with mem := { s.mem with guards := s.mem.guards.filter fun g => g.op != r } }
        s.finishOp r

/-- One lane of a store is performed ahead of the others (R146). -/
def storePart (r : OpRef) (lane : Nat) (s : State) : State :=
  match s.opOf r with
  | none => s
  | some o =>
    let w := s.warp r.warp
    let p := s.party w
    let n := sizeOf o.ins
    let mark (s : State) : State := s.onSlot r lane fun x => { x with answer := some 0 }
    if isScratchOp o.ins then
      mark (storeSlots w o (o.slots.filter fun x => x.lane == lane) s)
    else
      match probeAll p.sp n .write (pagesOf n o.slots) s with
      | (some _, s) => s
      | (none, s) => mark (each ((storeRest s r o).filter fun e => e.1.lane == lane) s fun e s => storeLane w p o e s)

/-- The lanes of a store that may be performed ahead: none that shares bytes with a lower lane still to come, none of a bundle that covers a line, and at a replay none that shares a word with another. -/
def storeParts (s : State) (r : OpRef) : List (Nat × Nat) :=
  match s.opOf r with
  | none => []
  | some o =>
    if !storeReady s r || (coveredLine o).isSome || o.slots.length < 2 then []
    else
      let unit := if o.state = .sent then 4 else 1
      let n := sizeOf o.ins
      let rest := o.slots.filter fun x => x.answer.isNone
      let meets (x y : Slot) : Bool := decide (x.addr / unit ≤ (y.addr + n - 1) / unit) && decide (y.addr / unit ≤ (x.addr + n - 1) / unit)
      (rest.filter fun x => !rest.any fun y => meets x y && (decide (y.lane < x.lane) || (unit = 4 && y.lane != x.lane))).map
        fun x => (x.lane, 3)

/-! ## Atomics -/

/-- The float format of an atomic type. -/
def atomFloat : AtomTy → FloatFmt
  | .f64 => f64Fmt
  | .f16x2 => f16Fmt
  | .bf16x2 => bf16Fmt
  | .i32 | .n32 | .i64 | .n64 | .f32 => f32Fmt

/-- Bits of an atomic's value. -/
def atomBits (t : AtomTy) : Nat := 32 * t.regs

/-- ADD, MIN and MAX by type (R153). -/
def atomArith (o : AtomOp) (t : AtomTy) (a b : Nat) : Nat :=
  let f := atomFloat t
  let flt (x y : Nat) : Nat := match o with
    | .add => f.addR .rn x y
    | .min => f.minMax false x y
    | _ => f.minMax true x y
  let int (ty : ITy) : Nat := match o with
    | .add => iAdd ty.bits a b
    | .min => iMin ty a b
    | _ => iMax ty a b
  match t with
  | .i32 => int .i32
  | .n32 => int .n32
  | .i64 => int .i64
  | .n64 => int .n64
  | .f32 | .f64 => flt a b
  | .f16x2 | .bf16x2 => packed flt a b

/-- The new value of an atomic (R152). -/
def atomNew (o : AtomOp) (t : AtomTy) (old c : Nat) : Nat :=
  let w := atomBits t
  match o with
  | .add | .min | .max => atomArith o t old (c % 2 ^ w)
  | .and => Nat.land old c % 2 ^ w
  | .or => Nat.lor old (c % 2 ^ w)
  | .xor => Nat.xor old (c % 2 ^ w)
  | .exch => c % 2 ^ w
  | .cas => if old = c % 2 ^ w then c / 2 ^ w % 2 ^ w else old

/-- What an atomic instruction does to a value, and its width in bytes. -/
def atomStep (i : Instr) : Option ((Nat → Nat → Nat) × Nat) :=
  match i with
  | .atom _ o t _ _ | .atoms _ o t _ | .red _ o t _ _ => some (atomNew o t, 4 * t.regs)
  | .atomAgg _ t _ => some (iAdd t.bits, 4 * t.regs)
  | _ => none

def isAtomic (i : Instr) : Bool := (atomStep i).isSome

/-- The tag window of a slice. -/
def sliceTags (s : State) (slice : Nat) : List TagEntry := (s.mem.tags.filter fun t => t.1 == slice).map Prod.snd

def setSliceTags (slice : Nat) (win : List TagEntry) (s : State) : State :=
  { s with mem := { s.mem with tags := (s.mem.tags.filter fun t => t.1 != slice) ++ win.map fun t => (slice, t) } }

/-- The atomic updates two halves as two events (R153). -/
def isPacked (i : Instr) : Bool :=
  match i with
  | .atom _ _ t _ _ | .atoms _ _ t _ | .red _ _ t _ _ => t = .f16x2 || t = .bf16x2
  | _ => false

/-- A word whose halves `m` (1 the low one, 2 the high one) come from `new` and the rest from `old`; 3 takes the value whole. -/
def mixHalves (m new old : Nat) : Nat :=
  match m with
  | 0 => old
  | 1 => new % 2 ^ 16 + old / 2 ^ 16 * 2 ^ 16
  | 2 => old % 2 ^ 16 + new / 2 ^ 16 * 2 ^ 16
  | _ => new

/-- The bytes that hold some halves, and their offset. -/
def halfBytes (m : Nat) (bs : List Byte) : Nat × List Byte :=
  match m with
  | 1 => (0, bs.take 2)
  | 2 => (2, bs.drop 2)
  | _ => (0, bs)

/-- What remains of an atomic step under its tag: the halves asked that have not been performed, and the old value remembered. -/
def tagLeft (win : List TagEntry) (e : TagEntry) (ask : Nat) : Nat × Nat :=
  match tagFind win e with
  | some t => (Nat.land ask (3 - t.halves), t.result.toNat)
  | none => (ask, 0)

/-- The entry an atomic step leaves, in place of a step of its other half or new, and the gangs that become EXPOSED. -/
def tagStep (s : State) (size limit : Nat) (win : List TagEntry) (e : TagEntry) (ask old : Nat) : List TagEntry × List Nat :=
  match tagFind win e with
  | some t => (mapIf (fun x => x.sameTag e) (fun x => { x with result := .ofNat 64 old, halves := Nat.lor t.halves ask }) win, [])
  | none => tagPut s size limit win { e with result := .ofNat 64 old, halves := ask }

/-- Perform the halves `ask` of one lane of a global atomic under its tag (R153 to R155, R283): the old value, or how it fails. -/
def atomGlobal (w : Warp) (p : Party) (i : Instr) (f : Nat → Nat → Nat) (n ask : Nat) (x : Slot) (s : State) : Got × State :=
  let k := p.sp.loc x.addr
  let e := s.tagEntry w x.tag i x.addr 0
  let (todo, was) := tagLeft (sliceTags s (sliceOf k)) e ask
  if todo = 0 then (.bytes (bytesOfNat n was), s)
  else
    match reach k .write s with
    | (.fail v, s) => (.fail v, s)
    | (h, s) =>
      if poisonedAt s none h k n then (.poison, s)
      else
        let now := natOfBytes (homeRead s none h k n)
        let old := mixHalves todo now was
        let (off, bs) := halfBytes todo (bytesOfNat n (f now x.data.toNat))
        let s := homeUpdate none h (k + off) bs s
        let s := match p.core with
          | some c => dropL1 c k n s
          | none => s
        let (win, gs) := tagStep s 4096 1024 (sliceTags s (sliceOf k)) e todo old
        (.bytes (bytesOfNat n old), exposeGangs gs (setSliceTags (sliceOf k) win s))

/-- Perform the halves `ask` of one lane of a scratchpad atomic under its tag in the block's window (R163). -/
def atomScratch (w : Warp) (i : Instr) (f : Nat → Nat → Nat) (n ask : Nat) (x : Slot) (s : State) : Got × State :=
  let e := s.tagEntry w x.tag i x.addr 0
  let (todo, was) := tagLeft (s.block w.gang w.rank).tags e ask
  if todo = 0 then (.bytes (bytesOfNat n was), s)
  else
    match scrTarget s w x.addr n, readScr s w x.addr n with
    | some t, .bytes bs =>
      let now := natOfBytes bs
      let old := mixHalves todo now was
      let (off, out) := halfBytes todo (bytesOfNat n (f now x.data.toNat))
      let s := storeObject w.gang t (scrWrite w.gang (t.1, t.2 + off) out s)
      let (win, gs) := tagStep s 256 128 (s.block w.gang w.rank).tags e todo old
      (.bytes (bytesOfNat n old), exposeGangs gs (s.onBlock w.gang w.rank fun b => { b with tags := win }))
    | _, g => (g, s)

/-- The window that remembers a slot of an atomic, and its size. -/
def atomWindow (s : State) (w : Warp) (o : Op) (x : Slot) : List TagEntry × Nat :=
  if isScratchOp o.ins then ((s.block w.gang w.rank).tags, 256) else (sliceTags s (sliceOf ((s.space w).loc x.addr)), 4096)

/-- Every window has room for the lanes it does not know yet (R284). -/
def atomRoom (s : State) (w : Warp) (o : Op) : Bool :=
  let fresh (x : Slot) : Bool := (tagFind (atomWindow s w o x).1 (s.tagEntry w x.tag o.ins x.addr 0)).isNone
  let place (x : Slot) : Nat := if isScratchOp o.ins then 0 else sliceOf ((s.space w).loc x.addr)
  o.slots.all fun x => tagRoom (atomWindow s w o x).2 (atomWindow s w o x).1
    (o.slots.filter fun y => fresh y && place y == place x).length

/-- An atomic may be performed. -/
def atomReady (s : State) (r : OpRef) : Bool :=
  match s.opOf r with
  | none => false
  | some o =>
    let w := s.warp r.warp
    let sp := s.space w
    isAtomic o.ins && opReady s r o && atomRoom s w o &&
      (isScratchOp o.ins || !o.slots.any fun x => migrating s (sp.loc x.addr) .write)

/-- One lane of an atomic: what its slot has remembered, or the halves not performed yet. -/
def atomLane (w : Warp) (p : Party) (o : Op) (f : Nat → Nat → Nat) (n ask : Nat) (x : Slot) (s : State) : Got × State :=
  let todo := Nat.land ask (3 - x.half)
  let was := (x.answer.map fun v => v.toNat).getD 0
  if todo = 0 then (.bytes (bytesOfNat n was), s)
  else
    let s := if isRelease o.ins then release w.gang s else s
    match if isScratchOp o.ins then atomScratch w o.ins f n todo x s else atomGlobal w p o.ins f n todo x s with
    | (.bytes bs, s) => (.bytes bs, if isAcquire o.ins then acquire (s.warpCore w) s else s)
    | g => g

/-- The steps of an atomic bundle at one address, of one half where the type is packed, are performed ahead of the others (R146, R153, R154). -/
def atomPart (r : OpRef) (lane half : Nat) (s : State) : State :=
  match s.opOf r with
  | none => s
  | some o =>
    match atomStep o.ins, o.slots.find? fun x => x.lane == lane with
    | some (f, n), some x =>
      let w := s.warp r.warp
      let p := s.party w
      let bad := if isScratchOp o.ins then (none, s) else probeAll p.sp n .write (pagesOf n o.slots) s
      match bad with
      | (some _, s) => s
      | (none, s) =>
        match loadLanes (atomLane w p o f n half) (o.slots.filter fun y => y.addr == x.addr) s with
        | (_, some (y, g), s) => laneFails r 2 n y g s
        | (vs, none, s) => each vs s fun v s => s.onSlot r v.1 fun y =>
            { y with answer := some (.ofNat 64 v.2), half := Nat.lor y.half half }
    | _, _ => s

/-- The steps of an atomic bundle not performed yet: the lane first at each address, and the halves (R153, R154). -/
def atomSteps (s : State) (r : OpRef) : List (Nat × Nat) :=
  match s.opOf r with
  | none => []
  | some o =>
    let firsts := o.slots.filter fun x => !o.slots.any fun y => y.addr == x.addr && decide (y.lane < x.lane)
    let halves := if isPacked o.ins then [1, 2] else [3]
    (firsts.map fun x => (halves.filter fun m => Nat.land m (3 - x.half) != 0).map fun m => (x.lane, m)).flatten

/-- The steps that may be performed ahead of others: none of a bundle of one step. -/
def atomParts (s : State) (r : OpRef) : List (Nat × Nat) :=
  match s.opOf r with
  | none => []
  | some o =>
    let agg : Bool := match o.ins with
      | .atomAgg .. => true
      | _ => false
    let one := o.slots.all fun x => o.slots.all fun y => x.addr == y.addr
    if !atomReady s r || agg || (one && !isPacked o.ins) then [] else atomSteps s r

/-- Old values of the lanes of ATOM.AGG: the base plus the counts of the lanes before (R156). -/
def aggSlots (t : ITy) (old : Nat) : List (Nat × Nat) → List (Nat × Nat)
  | [] => []
  | (l, n) :: rest => (l, old) :: aggSlots t (iAdd t.bits old n) rest

/-- The steps of an atomic bundle, in lane order (R154). -/
def atomPerforms (r : OpRef) (s : State) : State :=
  match s.opOf r with
  | none => s
  | some o =>
    match atomStep o.ins with
    | none => s
    | some (f, n) =>
      let w := s.warp r.warp
      let p := s.party w
      let scr := isScratchOp o.ins
      let bad := if scr then (none, s) else probeAll p.sp n .write (pagesOf n o.slots) s
      match bad with
      | (some (l, va, e), s) => opFail r l 2 va false 0 e s
      | (none, s) =>
        match loadLanes (atomLane w p o f n 3) o.slots s with
        | (_, some (x, g), s) => laneFails r 2 n x g s
        | (vs, none, s) =>
          let vals := match o.ins with
            | .atomAgg _ t _ => aggSlots t ((vs.map Prod.snd).headD 0) ((lanesOf o.lanes).zipIdx.map fun e =>
                (e.1, joinRegs (fun j => o.regs.getD j 0) (2 * e.2) 2))
            | _ => vs
          let s := s.onWarp r.warp (o.writeD vals)
          let s := if scr then s.onBlock w.gang w.rank fun b => { b with tags := unpin s w o b.tags }
            else each ((o.slots.map fun x => sliceOf (p.sp.loc x.addr)).eraseDups) s fun sl s =>
              setSliceTags sl (unpin s w o (sliceTags s sl)) s
          s.finishOp r

/-! ## Arrivals at barrier objects (R160, R161, R163) -/

/-- A count of BARO.INIT or BARO.ARRIVE (R161). -/
def countOk (n : Nat) : Bool := 1 ≤ n && n ≤ 2 ^ 20

def isArrive (i : Instr) : Bool :=
  match i with
  | .baroArrive .. => true
  | _ => false

/-- The object after an arrival of `n` by warp `k` of its block. -/
def Baro.arrive (b : Baro) (n k : Nat) : Baro :=
  Baro.test { b with pending := b.pending - .ofNat 32 n, bitmap := b.bitmap ||| (1#32 <<< k) }

/-- What the block's window remembers of an arrival. -/
def arriveKnown (s : State) (w : Warp) (o : Op) (x : Slot) : Option DWord :=
  tagHit (s.block w.gang w.rank).tags (s.tagEntry w x.tag o.ins x.addr 0)

/-- An arrival may be performed. -/
def arriveReady (s : State) (r : OpRef) : Bool :=
  match s.opOf r with
  | none => false
  | some o =>
    let w := s.warp r.warp
    isArrive o.ins && opReady s r o &&
      o.slots.all fun x => (arriveKnown s w o x).isSome || tagRoom 256 (s.block w.gang w.rank).tags 1

/-- An arrival that the window does not know would make `pending` negative (R161). -/
def arriveFails (s : State) (w : Warp) (o : Op) (x : Slot) (t : Nat × Nat) : Bool :=
  (arriveKnown s w o x).isNone && decide ((baroAt s w.gang t).pending.toNat < x.data.toNat)

/-- The arrival at its object, once under its tag: the phase before it (R283). -/
def arriveOnce (w : Warp) (o : Op) (x : Slot) (t : Nat × Nat) (s : State) : Nat × State :=
  match arriveKnown s w o x with
  | some v => (v.toNat, s)
  | none =>
    let v := (baroAt s w.gang t).phase
    let s := onBaro w.gang t (fun b => b.arrive x.data.toNat w.num) s
    (v.toNat, scratchTag s w.gang w.rank (s.tagEntry w x.tag o.ins x.addr (v.setWidth 64)))

/-- An arrival is performed: D, or the trap of a count the object does not owe (R161; log 65). -/
def arrivePerforms (r : OpRef) (s : State) : State :=
  match s.opOf r with
  | none => s
  | some o =>
    let w := s.warp r.warp
    match o.slots.head?.bind fun x => (scrTarget s w x.addr 32).map fun t => (x, t) with
    | none => s
    | some (x, t) =>
      if scrBad s w.gang t 24 then consume w.gang (scrWhere s w.gang t) (s.finishOp r)
      else if arriveFails s w o x t then opTrap r x.lane false { cause := causeBounds } s
      else
        let (v, s) := arriveOnce w o x t s
        let s := s.onBlock w.gang w.rank fun b => { b with tags := unpin s w o b.tags }
        (s.onWarp r.warp (o.writeD [(x.lane, v)])).finishOp r

/-- An I2 operation of a slice or a scratchpad window is performed. -/
def taggedPerforms (r : OpRef) (s : State) : State := if arriveReady s r then arrivePerforms r s else atomPerforms r s

/-! ## Lanes performed ahead (R146, R150, R153) -/

/-- The parts of an operation that may be performed ahead of the rest: a lane, and the halves of a packed atomic. -/
def opParts (s : State) (r : OpRef) : List (Nat × Nat) := loadParts s r ++ storeParts s r ++ atomParts s r

/-- One part of an operation is performed. -/
def performPart (r : OpRef) (lane half : Nat) (s : State) : State :=
  match s.opOf r with
  | none => s
  | some o => if isLoad o.ins then loadPart r lane s else if isAtomic o.ins then atomPart r lane half s else storePart r lane s

/-! ## Meanings -/

/-- The load being issued finds a lane's bytes without a translation. -/
def servedAt (n : Nat) (s : State) (x : Act) (a : Nat) : Bool := served x.i (s.party (s.warp x.u)) a n s

def execLd (h : Hdr) (z : Size) (near sx : Bool) (f : Ops) : State → Host.Outcome State Fault Refusal :=
  issue (.ld h z near sx f) (globalIssue .read z.bytes z.bytes 0 true false noData (servedAt z.bytes))
def execLdAcq (h : Hdr) (z : Size) (sx : Bool) (f : Ops) : State → Host.Outcome State Fault Refusal :=
  issue (.ldAcq h z sx f) (globalIssue .read z.bytes z.bytes 0 true false noData (servedAt z.bytes))
def execLoadDataArrival (o : OpRef) (s : State) : Host.Outcome State Fault Refusal :=
  event (loadReady s o) (loadArrive o) s
def execSt (h : Hdr) (z : Size) (f : Ops) : State → Host.Outcome State Fault Refusal :=
  issue (.st h z f) (globalIssue .write z.bytes z.bytes 1 false false dataC uncached)
def execStRel (h : Hdr) (z : Size) (f : Ops) : State → Host.Outcome State Fault Refusal :=
  issue (.stRel h z f) (globalIssue .write z.bytes z.bytes 1 false false dataC uncached)
def execStoreRegister (o : OpRef) (s : State) : Host.Outcome State Fault Refusal :=
  event (storeReady s o) (storeRegisters o) s
def execLds (h : Hdr) (z : Size) (sx : Bool) (f : Ops) : State → Host.Outcome State Fault Refusal :=
  issue (.lds h z sx f) (scrIssue z.bytes true false noData)
def execSts (h : Hdr) (z : Size) (f : Ops) : State → Host.Outcome State Fault Refusal :=
  issue (.sts h z f) (scrIssue z.bytes false false dataC)
def execLdc (h : Hdr) (z : Size) (f : Ops) : State → Host.Outcome State Fault Refusal :=
  issue (.ldc h z f) (globalIssue .read z.bytes z.bytes 0 true false noData (servedAt z.bytes))
def execLdb (h : Hdr) (z : Size) (f : Ops) : State → Host.Outcome State Fault Refusal :=
  issue (.ldb h z f) (globalIssue .read z.bytes 1 0 true false noData (servedAt z.bytes))

/-- PREF (R151): an operation of the record, and nothing else; an address that is not canonical is dropped. -/
def prefetch (x : Act) (s : State) : State :=
  s.onWarp x.u fun w => w.addOp (x.op ((x.globalSlots w fun _ => 0).filter fun y => canonical y.addr) [])

def execPref (h : Hdr) (f : Ops) : State → Host.Outcome State Fault Refusal := issue (.pref h f) prefetch
def execAtom (h : Hdr) (o : AtomOp) (t : AtomTy) (k : AtomOrd) (f : Ops) : State → Host.Outcome State Fault Refusal :=
  issue (.atom h o t k f) (globalIssue .write (4 * t.regs) (4 * t.regs) 2 true true dataC uncached)
def execAtomicPerform (o : OpRef) (s : State) : Host.Outcome State Fault Refusal :=
  event (atomReady s o || arriveReady s o) (taggedPerforms o) s
def execAtoms (h : Hdr) (o : AtomOp) (t : AtomTy) (f : Ops) : State → Host.Outcome State Fault Refusal :=
  issue (.atoms h o t f) (scrIssue (4 * t.regs) true true dataC)
def execRed (h : Hdr) (o : AtomOp) (t : AtomTy) (rel : Bool) (f : Ops) : State → Host.Outcome State Fault Refusal :=
  issue (.red h o t rel f) (globalIssue .write (4 * t.regs) (4 * t.regs) 2 false true dataC uncached)

/-- ATOM.AGG (R156): one slot with the sum of the counts, every lane's count in the record's registers. -/
def aggIssue (t : ITy) (x : Act) (s : State) : State :=
  let w := s.warp x.u
  let l := x.first
  let counts := x.act.map fun k => x.valC w k
  let slot : Slot := { lane := l, addr := x.globalAddr w l, data := .ofNat 128 (counts.sum % 2 ^ t.bits) }
  match addrCheck s w true (4 * t.regs) (4 * t.regs) [slot] with
  | some (l, t) => x.trap l t s
  | none =>
    let (bad, s) := probeAll (s.space w) (4 * t.regs) .write (pagesOf (4 * t.regs) [slot]) s
    let slots := tagged s w [slot]
    let start (s : State) : State :=
      (takeSeqs x.u x.act s).onWarp x.u fun w => (x.oweD w).addOp
        { (x.op slots ((counts.map fun c => [BitVec.ofNat 32 c, BitVec.ofNat 32 (c / 2 ^ 32)]).flatten)) with lanes := maskOf x.act }
    x.probed bad 2 start start s

def execAtomAgg (h : Hdr) (t : ITy) (f : Ops) : State → Host.Outcome State Fault Refusal := issue (.atomAgg h t f) (aggIssue t)

end Sys2Proof.Machine
end

