-- ==== Sys2Proof/Machine/Residency.lean ====
section
/-! DEFINITION. Residencies (R166, R167, R178 to R181, R384, R385, R387): reading a source, sealed or not, rehoming, quotas, and the RES forms. -/

namespace Sys2Proof.Machine

/-! ## Sources -/

/-- A key slot holds a key bound to a world. -/
def KeySlot.serves (k : KeySlot) (world : Nat) : Bool :=
  match k.key with
  | some (_, w) => w.toNat == world && world != 0
  | none => false

/-- The additional data of a chunk (R384). -/
def sealAad (i : Nat) : List Byte := [0x4F, 0x56, 0x53, 0x4D] ++ bytesOfBE 4 i

/-- Decipher chunk i of a slot: its plaintext, none where the tag fails. -/
def openChunk (k : KeySlot) (i : Nat) (ct entry : List Byte) : Option (List Byte) :=
  match k.key with
  | some (key, _) => gcmOpen key (entry.take 12) (sealAad i) ct (entry.drop 16)
  | none => none

/-- What a residency's source gives. -/
inductive Source
  | bytes (bs : List Byte)
  | tagFails
  | fail (va : Nat) (x : Xlat)
  | poison (va : Nat)
  deriving DecidableEq, Repr

/-- An engine read whose failure names its address. -/
def readFor (p : Party) (va n : Nat) (s : State) : Source × State :=
  match readEngine p va n s with
  | (.bytes bs, s) => (.bytes bs, s)
  | (.fail x, s) => (.fail (firstBad s p.sp .read va n) x, s)
  | (.poison, s) => (.poison va, s)

/-- Read `tiles` chunks through a key slot, from chunk `i` on. -/
def readSealed (p : Party) (k : KeySlot) (i : Nat) : Nat → State → Source × State
  | 0, s => (.bytes [], s)
  | n + 1, s =>
    match readFor p (k.skbase.toNat + 2048 * i) 2048 s with
    | (.bytes ct, s) =>
      (match readFor p (k.sktab.toNat + 32 * i) 32 s with
      | (.bytes e, s) =>
        (match openChunk k i ct e with
        | none => (.tagFails, s)
        | some pt =>
          (match readSealed p k (i + 1) n s with
          | (.bytes rest, s) => (.bytes (pt ++ rest), s)
          | x => x))
      | x => x)
    | x => x

/-- Read a residency's source range (R178, R385). -/
def readSource (p : Party) (base tiles key : Nat) (s : State) : Source × State :=
  if key = 0 then readFor p base (2048 * tiles) s
  else
    let k := s.keySlots.getD key {}
    readSealed p k ((base - k.skbase.toNat) / 2048) tiles s

/-! ## Watches (R300) -/

/-- Lines of a range of addresses. -/
def linesOf (sp : Space) (va n : Nat) : List Nat :=
  (List.range ((va + n + 127) / 128 - va / 128)).map fun j => sp.loc (va / 128 * 128) / 128 + j

/-- The lines a residency watches. -/
def Residency.watches (r : Residency) (sp : Space) : List Nat :=
  if !r.watched then []
  else linesOf sp r.base.toNat (2048 * r.tiles) ++ (if r.key = 0 then [] else linesOf sp r.table.toNat (32 * r.tiles))

/-- Set or clear the watch bit of a line where it is: in L2, or in the DRAM line its page lies in. -/
def setWatch (v : Bool) (k : Nat) (s : State) : State :=
  if linePresent s (128 * k) then
    { s with mem := { s.mem with lines := mapIf (fun e => e.1 == k) (fun e => (e.1, { e.2 with watch := v })) s.mem.lines } }
  else match (translate (128 * k) .read false s).1 with
    | .ok pa _ => { s with mem := { s.mem with watch := Store.put false s.mem.watch (pa / 128) v } }
    | _ => s

def setWatches (ls : List Nat) (v : Bool) (s : State) : State := each ls s (setWatch v)

/-- Clear the watches of lines that no live residency of the context covers any more. -/
def dropWatches (c : Nat) (ls : List Nat) (s : State) : State :=
  let x := s.ctx c
  let sp : Space := { world := x.world.toNat, asid := x.asid.toNat }
  let still := ((x.residencies.filter fun r => r.2.live).map fun r => r.2.watches sp).flatten
  setWatches (ls.filter fun k => !still.contains k) false s

/-! ## Quotas and homes -/

/-- Tiles of a context that count against allocq and pinq (R167). -/
def Ctx.allocated (c : Ctx) : Nat := ((c.residencies.filter fun r => r.2.live).map fun r => r.2.tiles).sum
def Ctx.pinnedTiles (c : Ctx) : Nat := ((c.residencies.filter fun r => r.2.live && r.2.pinned).map fun r => r.2.tiles).sum
def Ctx.allocq (c : Ctx) : Nat := c.resq.toNat % 65536
def Ctx.pinq (c : Ctx) : Nat := c.resq.toNat / 65536

/-- Reload a residency from its source: its contents, or unloaded where they cannot be had (R387; log 24). A page that is absent or in migration changes nothing yet, and is answered (R273). -/
def reloadRes (x : Nat × Nat) (p : Party) (s : State) : Option (Nat × Xlat) × State :=
  let r := s.res x
  let k := s.keySlots.getD r.key {}
  let gone (s : State) : State := s.onRes x fun r => { r with loaded := false, sealed := false, data := [] }
  if r.key != 0 && (k.gen != r.keyGen || !k.serves p.sp.world) then (none, gone s)
  else match readSource p r.base.toNat r.tiles r.key s with
    | (.bytes bs, s) => (none, s.onRes x fun r => { r with loaded := true, data := Memory.setBytes [] 0 bs, bad := [] })
    | (.fail va .notPresent, s) => (some (va, .notPresent), s)
    | (.fail va .migrating, s) => (some (va, .migrating), s)
    | (.poison va, s) =>
      let s := match p.gang with
        | some g => consume g (poisonWhere s (p.sp.loc va)) s
        | none => s
      (none, s.onRes x fun r => { r with loaded := false, data := [] })
    | (_, s) => (none, gone s)

/-- Rehome a residency into a partition (R178; its marks stay: log 24): a pinned one keeps its tiles, a loaded unpinned one is reloaded. -/
def rehome (x : Nat × Nat) (part : Nat) (p : Party) (s : State) : Option (Nat × Xlat) × State :=
  let r := s.res x
  match if r.pinned || !r.loaded then (none, s) else reloadRes x p s with
  | (none, s) => (none, s.onRes x fun r => { r with home := some part })
  | stop => stop

/-! ## Issue of the RES forms -/

/-- The handle of an index (R166). -/
def handleOf (gen : BitVec 16) (world index : Nat) : Nat := gen.toNat * 65536 + world * 4096 + index

def nextGen (g : BitVec 16) : BitVec 16 := if g = 0xFFFF then 1 else g + 1

/-- The slot of the context of a warp. -/
def State.ctxOf (s : State) (w : Warp) : Nat := (s.ctxSlot (s.space w).asid).getD 0

/-- A window entry in the context's residency table (R181). -/
def onceInCtx (x : Act) (addr : Nat) (perform : State → DWord × State) (s : State) : DWord × State :=
  let w := s.warp x.u
  let c := s.ctxOf w
  let e := s.tagEntry w (s.tag w x.first (w.seq x.first)) x.i addr 0
  let s := takeSeqs x.u x.act s
  match tagHit (s.ctx c).resTags e with
  | some r => (r, s)
  | none =>
    let (r, s) := perform s
    let (win, gs) := tagPut s 64 32 (s.ctx c).resTags { e with result := r, pinned := false }
    (r, exposeGangs gs (s.onCtx c fun y => { y with resTags := win }))

/-- The context's window knows the operation being issued (R181, R283). -/
def knownInCtx (x : Act) (addr : Nat) (s : State) : Bool :=
  let w := s.warp x.u
  (tagHit (s.ctx (s.ctxOf w)).resTags (s.tagEntry w (s.tag w x.first (w.seq x.first)) x.i addr 0)).isSome

/-- Write a value to field D of a uniform instruction, in its first active lane. -/
def Act.give (x : Act) (v : Nat) (s : State) : State := s.onWarp x.u (x.writeD [(x.first, v)])

/-- RES.ALLOC (R178). DESIGN CHOICE (log 66): a store without room is reported before a table without a free index, which the rule leaves unordered. -/
def resAllocate (reload : Bool) (x : Act) (s : State) : State :=
  let w := s.warp x.u
  let n := x.valA w x.first
  let c := s.ctxOf w
  let part := s.partNo w
  let free := (List.range 4096).find? fun k => !(Store.get {} (s.ctx c).residencies k).live
  if knownInCtx x n s then (let (v, s) := onceInCtx x n (fun s => (0, s)) s
    x.give v.toNat s)
  else if n < 1 || 16 < n then x.trap x.first { cause := causeBounds } s
  else if (s.ctx c).allocq < (s.ctx c).allocated + n then x.trap x.first { cause := causeQuota, info := 0 } s
  else if !s.storeRoom part n then x.trap x.first { cause := causeQuota, info := 2 } s
  else match free with
    | none => x.trap x.first { cause := causeQuota, info := 1 } s
    | some k =>
      let make (s : State) : DWord × State :=
        let gen := nextGen (Store.get {} (s.ctx c).residencies k).gen
        let fresh : Residency := { live := true, gen, tiles := n, reload, home := some part }
        (.ofNat 64 (handleOf gen (s.space w).world k), s.onRes (c, k) fun _ => fresh)
      let (v, s) := onceInCtx x n make s
      x.give v.toNat s

/-- A handle that names no live residency raises BOUNDS; a residency that has to be rehomed and finds no room raises QUOTA 2 (R178). -/
def withRes (x : Act) (handle : Nat) (homed : Bool) (f : Nat × Nat → State → State) (s : State) : State :=
  let w := s.warp x.u
  match s.resOf w handle with
  | none => x.trap x.first { cause := causeBounds } s
  | some r => if homed && s.homeless w r then x.trap x.first { cause := causeQuota, info := 2 } s else f r s

/-- RES.LOAD at issue (R178, R385). DESIGN CHOICE (log 66): its checks are made in the order translation of the base, handle, room to rehome, key slot, alignment; no rule orders them. -/
def resLoadIssue (x : Act) (s : State) : State :=
  let w := s.warp x.u
  let l := x.first
  let base := x.valA w l
  let handle := x.valB w l
  let key := x.valC w l
  let sp := s.space w
  if !canonical base then x.trap l { cause := causeTranslation, addr := .ofNat 64 base } s
  else withRes x handle true (fun r s =>
    let k := s.keySlots.getD key {}
    let n := (s.res r).tiles
    let inRange := decide (k.skbase.toNat ≤ base) && (base - k.skbase.toNat) % 2048 = 0 &&
      decide ((base - k.skbase.toNat) / 2048 + n ≤ k.sklen.toNat)
    if key != 0 && (15 < key || !k.serves sp.world || !inRange) then x.trap l { cause := causeBounds } s
    else if base % 128 != 0 then x.trap l { cause := causeAlignment, addr := .ofNat 64 base } s
    else
      let old := (s.res r).watches sp
      let table := k.sktab.toNat + 32 * ((base - k.skbase.toNat) / 2048)
      let s := s.onRes r fun q => { q with
        base := .ofNat 64 base, key, keyGen := k.gen, table := if key = 0 then 0 else .ofNat 64 table,
        watched := true, hit := false }
      let s := setWatches ((s.res r).watches sp) true (dropWatches r.1 old s)
      s.addOp x.u (x.op [] [.ofNat 32 base, .ofNat 32 (base / 2 ^ 32), .ofNat 32 handle, .ofNat 32 key])) s

/-- The residency a RES.LOAD operation names. -/
def loadTarget (s : State) (r : OpRef) : Option (Op × (Nat × Nat)) :=
  match s.opOf r with
  | none => none
  | some o => (s.resOf (s.warp r.warp) (o.regs.getD 2 0).toNat).map fun x => (o, x)

def isResLoad (i : Instr) : Bool :=
  match i with
  | .resLoad .. => true
  | _ => false

/-- A RES.LOAD may complete: one of its warp's operations, its residency at home in the warp's partition (R285 rule 5). -/
def resLoadReady (s : State) (r : OpRef) : Bool :=
  match s.opOf r with
  | none => false
  | some o => isResLoad o.ins && opReady s r o && (match loadTarget s r with
      | some (_, x) => !(s.homeless (s.warp r.warp) x && s.heldAtHome x)
      | none => true)

/-- RES.LOAD completes (R178, R180, R385). -/
def resLoadDone (r : OpRef) (s : State) : State :=
  match loadTarget s r with
  | none => s.finishOp r
  | some (o, x) =>
    let w := s.warp r.warp
    let p := { s.party w with core := none }
    let base := joinRegs (fun k => o.regs.getD k 0) 0 2
    let key := (o.regs.getD 3 0).toNat
    let lane := (lanesOf o.lanes).headD 0
    if s.homeless w x && !s.storeRoom (s.partNo w) (s.res x).tiles then
      asyncTrap r.warp lane o.pc { cause := causeQuota, info := 2 } (s.finishOp r)
    else
    let s := s.onRes x fun q => { q with home := some (s.partNo w) }
    match readSource p base (s.res x).tiles key s with
    | (.fail va e, s) => opFail r lane 4 va true 0xFFFF e s
    | (.poison va, s) => consume w.gang (poisonWhere s (p.sp.loc va)) (s.finishOp r)
    | (.tagFails, s) =>
      (s.onRes x fun q => { q with data := [], loaded := false, sealed := false, bad := [] }).finishOp r
    | (.bytes bs, s) =>
      let s := s.onRes x fun q => { q with data := Memory.setBytes [] 0 bs, loaded := true, sealed := key != 0,
                                           stale := q.hit, bad := [] }
      (setWatches ((s.res x).watches p.sp) true s).finishOp r

/-- RES.PIN (R178, R181): a repeated one returns what it returned. -/
def resPinIssue (x : Act) (s : State) : State :=
  let w := s.warp x.u
  let h := x.valA w x.first
  if knownInCtx x h s then (let (v, s) := onceInCtx x h (fun s => (0, s)) s
    x.give v.toNat s)
  else withRes x h true (fun r s =>
    let pin (s : State) : DWord × State :=
      let q := s.res r
      let c := s.ctx r.1
      if q.pinned then (1, s)
      else if c.pinnedTiles + q.tiles ≤ c.pinq then (1, s.onRes r fun q => { q with pinned := true })
      else (0, s)
    let (v, s) := onceInCtx x h pin s
    x.give v.toNat s) s

def resUnpinIssue (x : Act) (s : State) : State :=
  let w := s.warp x.u
  let h := x.valA w x.first
  if knownInCtx x h s then (onceInCtx x h (fun s => (0, s)) s).2
  else withRes x h true (fun r s => (onceInCtx x h (fun s => (0, s.onRes r fun q => { q with pinned := false })) s).2) s

/-- A residency ends: tiles, watches and quota are given back, and the handle names nothing (R178). -/
def endRes (r : Nat × Nat) (s : State) : State :=
  let c := s.ctx r.1
  let old := (s.res r).watches { world := c.world.toNat, asid := c.asid.toNat }
  dropWatches r.1 old (s.onRes r fun q => { ({} : Residency) with gen := q.gen })

def resRevokeIssue (x : Act) (s : State) : State :=
  let w := s.warp x.u
  let h := x.valA w x.first
  if knownInCtx x h s then (onceInCtx x h (fun s => (0, s)) s).2
  else withRes x h false (fun r s => (onceInCtx x h (fun s => (0, endRes r s)) s).2) s

/-- The status word (R179). -/
def resStatus (q : Residency) : Nat :=
  let b (v : Bool) (k : Nat) : Nat := if v then 2 ^ k else 0
  let h := q.home.getD 0
  2 ^ 31 + b q.home.isSome 30 + b q.pinned 29 + b q.stale 28 + b q.sealed 27 + b q.reload 26 + b q.loaded 25 +
    q.tiles * 2 ^ 20 + h / 1024 % 4 * 2 ^ 18 + h / 32 % 32 * 2 ^ 13 + h % 32 * 2 ^ 8

def resQueryIssue (x : Act) (s : State) : State :=
  let w := s.warp x.u
  let v := match s.resOf w (x.valA w x.first) with
    | some r => resStatus (s.res r)
    | none => 0
  x.give v s

/-! ## Meanings -/

def execResAlloc (h : Hdr) (reload : Bool) (f : Ops) : State → Host.Outcome State Fault Refusal :=
  issue (.resAlloc h reload f) (resAllocate reload)
def execResLoad (h : Hdr) (f : Ops) : State → Host.Outcome State Fault Refusal := issue (.resLoad h f) resLoadIssue
def execResLoadComplete (o : OpRef) (s : State) : Host.Outcome State Fault Refusal :=
  event (resLoadReady s o) (resLoadDone o) s
def execResPin (h : Hdr) (f : Ops) : State → Host.Outcome State Fault Refusal := issue (.resPin h f) resPinIssue
def execResUnpin (h : Hdr) (f : Ops) : State → Host.Outcome State Fault Refusal := issue (.resUnpin h f) resUnpinIssue
def execResRevoke (h : Hdr) (f : Ops) : State → Host.Outcome State Fault Refusal := issue (.resRevoke h f) resRevokeIssue
def execResQuery (h : Hdr) (f : Ops) : State → Host.Outcome State Fault Refusal := issue (.resQuery h f) resQueryIssue

end Sys2Proof.Machine
end

