-- ==== Sys2Proof/Machine/Matrix.lean ====
section
/-! DEFINITION. The matrix array (R165, R168 to R177, R182, R183, R266, R267): collectives, their checks, the array's rows, accumulator and scale instructions, leave. -/

namespace Sys2Proof.Machine

/-! ## Heavy-issue units (R266, R267, R413) -/

/-- The budget a steward grants under. -/
def State.budget (s : State) (c : Nat) : Nat :=
  let b := max 16 (min 4095 (s.cluster c).hbudget.toNat)
  if s.mgmt.thermst = 1 then max 16 (b / 2) else b

/-- Insert a request by priority class, then by arrival. -/
def insertRequest (prio : Nat) (q : LeaveFor) : List (Nat × LeaveFor) → List (Nat × LeaveFor)
  | [] => [(prio, q)]
  | x :: xs => if prio < x.1 then (prio, q) :: x :: xs else x :: insertRequest prio q xs

def State.requestLeave (s : State) (w : Warp) (q : LeaveFor) : State :=
  s.onCluster (s.warpGang w).cluster fun c => { c with requests := insertRequest (s.warpBlock w).prio q c.requests }

def LeaveFor.units : LeaveFor → Nat
  | .pool _ n => n
  | .collective _ _ n => n
  | .engine _ n => n

/-- Units of pool requests that wait for a warp. -/
def Cluster.asked (c : Cluster) (u : Nat) : Nat :=
  (c.requests.map fun r => match r.2 with
    | .pool v n => if v = u then n else 0
    | .collective .. | .engine .. => 0).sum

/-- An operation holds units until it completes. -/
def State.holdUnits (s : State) (c : Nat) (r : OpRef) (n fresh : Nat) : State :=
  s.onCluster c fun x => { x with held := x.held + fresh, holders := x.holders ++ [(r, n)] }

/-! ## The operand words of a collective (R170) -/

/-- What the eight words say. -/
structure MmaWords where
  isS : Bool
  tile : Nat
  a : Nat
  aStride : Nat
  shape : Nat
  fmt : Nat
  handle : Nat
  bStride : Nat
  b : Nat
  deriving DecidableEq, Repr

def isMmaS (i : Instr) : Bool :=
  match i with
  | .mmaS .. => true
  | _ => false

def isMma (i : Instr) : Bool :=
  match i with
  | .mma .. | .mmaS .. => true
  | _ => false

def mmaWords (i : Instr) (ws : List Word) : MmaWords :=
  let g (k : Nat) : Nat := (ws.getD k 0).toNat
  { isS := isMmaS i, tile := ((raw i).map fun r => r.d.val.toNat).getD 0, a := g 0 + g 1 * 2 ^ 32, aStride := g 2,
    shape := g 3, fmt := g 4, handle := g 5, bStride := g 5, b := g 6 + g 7 * 2 ^ 32 }

def MmaWords.nrows (m : MmaWords) : Nat := m.shape % 64
def MmaWords.t0 (m : MmaWords) : Nat := nbits m.shape 11 8
def MmaWords.nt (m : MmaWords) : Nat := nbits m.shape 20 16
def MmaWords.blk (m : MmaWords) : Nat := nbits m.fmt 19 16
/-- Bytes of an element, and tiles of a K-tile. -/
def MmaWords.esize (m : MmaWords) : Nat := if nbits m.fmt 5 5 = 1 then 1 else 2

/-- Step 3 of R169, `tiles` the residency's count where the handle is live. -/
def MmaWords.shapeOk (m : MmaWords) (tiles : Option Nat) : Bool :=
  let rsv := nbits m.shape 7 6 = 0 && nbits m.shape 15 12 = 0 && m.shape / 2 ^ 21 = 0
  rsv && decide (1 ≤ m.nrows) && decide (m.nrows ≤ 32) && decide (1 ≤ m.nt) && decide (m.nt ≤ 16) &&
    (m.blk = 0 || m.nt = 1) && decide (64 * m.nt * m.esize ≤ m.aStride) &&
    (if m.isS then m.t0 = 0 && decide (32 * m.esize ≤ m.bStride)
     else m.b = 0 && (match tiles with
      | some n => decide (m.t0 + m.nt * m.esize ≤ n)
      | none => true))

/-- Step 4 of R169: TRANSLATION for A and B, then ALIGNMENT of each address and stride. -/
def MmaWords.addrTrap (m : MmaWords) : Option TrapInfo :=
  let pairs := (m.a, m.aStride) :: (if m.isS then [(m.b, m.bStride)] else [])
  let bad := (pairs.find? fun p => p.1 = 0 || !canonical p.1).map fun p =>
    ({ cause := causeTranslation, addr := .ofNat 64 p.1 } : TrapInfo)
  bad.or ((pairs.find? fun p => p.1 % 64 != 0 || p.2 % 64 != 0).map fun p =>
    ({ cause := causeAlignment, addr := .ofNat 64 p.1, info := if p.1 % 64 != 0 then 0 else .ofNat 32 p.2 } : TrapInfo))

/-- The first word in which some signer differs from the last one; 8 stands for OP, SUB and D (R169 step 1). -/
def signersDiffer (ref : Signer) (ss : List Signer) : Option Nat :=
  let head (x : Signer) : Option (Nat × Nat × Operand) := (raw x.ins).map fun r => (r.op, r.sub, r.d)
  (List.range 9).find? fun k => ss.any fun x =>
    if k = 8 then head x != head ref else x.words.getD k 0 != ref.words.getD k 0

/-! ## Scale lines (R88, R165) -/

/-- Line `n` of a partition's scale store. -/
def scaleLine (b : Block) (part n : Nat) : List Byte := b.scale.bytes (part * 4096 + 64 * n) 64

/-- The set bits of a line's bitmap, bit 0 forced. -/
def lineStarts (line : List Byte) : List Nat :=
  let m := natOfBytes (line.take 8)
  (List.range 64).filter fun k => k = 0 || m / 2 ^ k % 2 = 1

/-- The first scale line of an MMA that is not usable (R165, step 6 of R169; log 25). -/
def badLine (b : Block) (part : Nat) (m : MmaWords) : Option Nat :=
  if m.blk = 0 then none
  else (List.range m.nrows ++ (List.range 32).map (32 + ·)).find? fun n => decide (56 < (lineStarts (scaleLine b part n)).length)

/-! ## The steps of R169 -/

/-- The warp of a convergence register. -/
def cvWarp (s : State) (g rank cv : Nat) : Warp :=
  let n := ((s.block g rank).cv.getD cv {}).warp
  (s.warps.find? fun w => w.gang == g && w.rank == rank && w.num == n).getD noWarp

def onCv (g rank cv : Nat) (f : CvReg → CvReg) (s : State) : State :=
  s.onBlock g rank fun b => { b with cv := mapAt f b.cv cv }

/-- A register is complete (R113). -/
def CvReg.complete (c : CvReg) : Bool := !c.idle && c.declared &&& ~~~c.signed = 0

/-- A failing step: reported in the last signer; every signer enters or stops at its own instruction (R168, R216), but for one that has been discarded meanwhile (R9). Where that is the last signer, the first that is left in the order of signing reports: DESIGN CHOICE (log 59; the spec is silent). -/
def colTrap (g rank cv : Nat) (t : TrapInfo) (s : State) : State :=
  let c := (s.block g rank).cv.getD cv {}
  let w := cvWarp s g rank cv
  let ss := c.signers.filter fun x => !(w.thread x.lane).status.gone
  let rep := if ss.any (fun x => x.lane == c.last) then c.last else (ss.head?.map fun x => x.lane).getD c.last
  takeTrap w.uid (ss.map fun x => (x.lane, x.pc)) rep t (onCv g rank cv (fun c => { c with tried := true }) s)

/-- Units of a collective (R266). -/
def colCost (s : State) (g : Nat) (m : MmaWords) : Nat := min (if m.isS then 2 * m.nt else m.nt) (s.budget (s.gang g).cluster)

/-- Step 8 of R169: the operation is queued, the register opens its next generation, the signers go on. -/
def colIssue (g rank cv cost fresh : Nat) (s : State) : State :=
  let c := (s.block g rank).cv.getD cv {}
  let w := cvWarp s g rank cv
  match c.signers.find? fun x => x.lane == c.last with
  | none => s
  | some ref =>
    let m := mmaWords ref.ins ref.words
    let o : Op :=
      { id := 0, ins := ref.ins, pc := ref.pc, lanes := maskOf (c.signers.map fun x => x.lane), ctr := some .mat,
        regs := ref.words ++ [.ofNat 32 c.last], data := c.contents, stamp := s.nextOrder }
    let s := { s with nextOrder := s.nextOrder + 1 }
    let s := s.onBlock g rank fun b => { b with accEmpty := Store.put false b.accEmpty (w.part * 4 + m.tile) true }
    let s := onCv g rank cv (fun c =>
      { c with signed := 0, gen := c.gen + 1, signers := [], leave := false, paid := 0, contents := [], tried := false }) s
    let s := s.onWarp w.uid fun w => each c.signers (w.addOp o) fun x w =>
      w.onThread x.lane fun t => if t.status.gone then t else { t with status := .running, pc := x.pc + 12 }
    s.holdUnits (s.gang g).cluster { warp := w.uid, op := w.nextOp } cost fresh

/-- The tile that a collective writes is empty: an older operation still owes it, and the collective waits (R22, R177). -/
def tileOwed (b : Block) (part : Nat) (m : MmaWords) : Bool := Store.get false b.accEmpty (part * 4 + m.tile)

/-- Steps 6 and 7. -/
def colLeave (g rank cv : Nat) (m : MmaWords) (weights : List Byte) (s : State) : State :=
  let w := cvWarp s g rank cv
  let b := s.block g rank
  if tileOwed b w.part m then s
  else match badLine b w.part m with
  | some n => colTrap g rank cv { cause := causeBounds, info := .ofNat 32 n } s
  | none =>
    let scale := if m.blk = 0 then [] else b.scale.bytes (w.part * 4096) 4096
    let s := onCv g rank cv (fun c => { c with contents := scale ++ weights }) s
    let cost := colCost s g m
    let paid := min cost w.pool
    let s := s.onWarp w.uid fun w => { w with pool := w.pool - paid }
    if paid = cost then colIssue g rank cv cost 0 s
    else
      let s := onCv g rank cv (fun c => { c with leave := true, paid }) s
      s.requestLeave w (.collective w.uid cv (cost - paid))

/-- A reload that no operation of the record makes meets an absent page: a fault of an engine's read, for a lane and its PC (R273, R274). -/
def State.reloadFault (s : State) (w : Warp) (lane : Nat) (pc : Word) (va : Nat) : State :=
  let sp := s.space w
  { s with faults := s.faults ++
      [{ op := { warp := w.uid, op := w.nextOp }, world := sp.world, asid := sp.asid, va, kind := 4, lane, pc }] }

/-- A fault of the warp is being serviced (R276). -/
def State.faulting (s : State) (w : Warp) : Bool := w.batch.isSome || s.faults.any fun f => f.op.warp == w.uid

/-- Step 5 for MMA: the residency is at home, loaded, and not stale or reloaded (R178, R180). -/
def colResidency (g rank cv : Nat) (m : MmaWords) (s : State) : State :=
  let w := cvWarp s g rank cv
  let h : Word := .ofNat 32 m.handle
  let stale : State → State := colTrap g rank cv { cause := causeStale, info := h }
  let use (x : Nat × Nat) (s : State) : State :=
    colLeave g rank cv m ((s.res x).data.bytes (2048 * m.t0) (2048 * (m.nt * m.esize))) s
  match s.resOf w m.handle with
  | none => colTrap g rank cv { cause := causeBounds, info := h } s
  | some x =>
    if s.awaitsHome w x then s
    else if s.homeless w x then colTrap g rank cv { cause := causeQuota, info := 2 } s
    else
      let r := s.res x
      if !r.loaded then stale s
      else if !r.stale then use x s
      else if !r.reload then stale s
      else
        match reloadRes x { s.party w with core := none } s with
        | (none, s) => if (s.res x).loaded then use x (s.onRes x fun r => { r with stale := false }) else stale s
        | (some (va, .notPresent), s) =>
          if fastFault s (s.space w).asid then colTrap g rank cv { cause := causeTranslation, addr := .ofNat 64 va } s
          else
            let c := (s.block g rank).cv.getD cv {}
            s.reloadFault w c.last (((c.signers.find? fun y => y.lane == c.last).map fun y => y.pc).getD 0) va
        | (some _, s) => s

/-- The steps of R169 for a register, when it is complete and tied and they have not been taken. -/
def collective (g rank cv : Nat) (s : State) : State :=
  let c := (s.block g rank).cv.getD cv {}
  let w := cvWarp s g rank cv
  if !c.complete || c.signers = [] || c.leave || c.tried || w.retired || w.stopped || s.faulting w || 64 ≤ w.counted then s
  else match c.signers.find? fun x => x.lane == c.last with
    | none => s
    | some ref =>
      let m := mmaWords ref.ins ref.words
      match signersDiffer ref c.signers with
      | some k => colTrap g rank cv { cause := causeDivergence, info := .ofNat 32 (k * 256 + cv) } s
      | none =>
        if !fmtWordMma m.fmt then colTrap g rank cv { cause := causeArith, info := .ofNat 32 m.fmt } s
        else if !m.shapeOk (if m.isS then none else (s.resOf w m.handle).map fun x => (s.res x).tiles) then
          colTrap g rank cv { cause := causeBounds, info := .ofNat 32 m.shape } s
        else match m.addrTrap with
          | some t => colTrap g rank cv t s
          | none => if m.isS then colLeave g rank cv m [] s else colResidency g rank cv m s

/-- Every register of a block. -/
def collectives (g rank : Nat) (s : State) : State := each (List.range 16) s fun k s => collective g rank k s

/-- A bundle signs the register its MMA names (R168). -/
def mmaIssue (x : Act) (s : State) : State :=
  let w := s.warp x.u
  let k := x.r.a.val.toNat
  let c := (s.warpBlock w).cv.getD k {}
  let undeclared := x.act.find? fun l => !c.declared.getLsbD l
  if (s.warpLaunch w).record.accs = 0 then x.trap x.first { cause := causeBounds } s
  else if c.idle || c.warp != w.num then x.trap x.first { cause := causeDivergence, info := .ofNat 32 k } s
  else match undeclared with
    | some l => x.trap l { cause := causeDivergence, info := .ofNat 32 k } s
    | none =>
      let words (l : Nat) : List Word :=
        (List.range 4).map (fun j => BitVec.ofNat 32 (x.valB w l / 2 ^ (32 * j))) ++
          (List.range 4).map fun j => BitVec.ofNat 32 (x.valC w l / 2 ^ (32 * j))
      let mine : List Signer := x.act.map fun l => { lane := l, ins := x.i, words := words l, pc := x.pc }
      let s := onCv w.gang w.rank k (fun c => { c with
        signed := c.signed ||| maskOf x.act, last := x.first, tried := false,
        signers := (c.signers.filter fun y => !x.act.contains y.lane) ++ mine }) s
      let s := s.onWarp x.u fun w => w.onThreads x.act fun t => { t with pc := x.pc, status := .blocked (.signer k) }
      collectives w.gang w.rank s

/-! ## The array (R90, R171, R172) -/

/-- Blocks of a row or column: first element and scale (R88). -/
def scaleBlocks (blk : Nat) (line : List Byte) : List (Nat × Num) :=
  let sc (k : Nat) : Num := e4m3Fmt.value (line.getD k 0).toNat
  if blk = 1 then [(0, sc 8), (32, sc 9)]
  else if blk = 2 then (lineStarts line).zipIdx.map fun e => (e.1, sc (8 + e.2))
  else [(0, .fin false 1 0), (32, .fin false 1 0)]

/-- The scale of the block that holds element k. -/
def blockScale (bs : List (Nat × Num)) (k : Nat) : Num :=
  bs.foldl (fun acc e => if e.1 ≤ k then e.2 else acc) (.fin false 1 0)

/-- A product in the wide sum: an exact zero leaves the sum as it is. -/
def addProduct (acc a b : Num) : Num :=
  match Num.mul a b with
  | .fin _ 0 _ => acc
  | p => Num.add false acc p

/-- One K-tile of one accumulator element (R90). -/
def kTile (c : Nat) (as bs : List Num) (sa sb : List (Nat × Num)) : Nat :=
  let cuts := (List.range 64).filter fun k => (sa.any fun e => e.1 == k) || (sb.any fun e => e.1 == k)
  let ends := cuts.drop 1 ++ [64]
  (cuts.zip ends).foldl (fun c seg =>
    let n := seg.2 - seg.1
    let p := (((as.drop seg.1).take n).zip ((bs.drop seg.1).take n)).foldl (fun acc e => addProduct acc e.1 e.2)
      (.fin false 0 0)
    let t := Num.mul (Num.mul p (blockScale sa seg.1)) (blockScale sb seg.1)
    f32Fmt.round .rn (Num.add false (f32Fmt.value c) t)) c

/-- Elements of a byte run in a format. -/
def elems (f : FloatFmt) (e n : Nat) (bs : List Byte) : List Num := (chunks e n bs).map fun b => f.value (natOfBytes b)

/-- Column j of a weight K-tile: 64 rows of 32 elements. -/
def column (f : FloatFmt) (e j : Nat) (tile : List Byte) : List Num :=
  (List.range 64).map fun k => f.value (natOfBytes ((tile.drop (e * (32 * k + j))).take e))

/-- The 32 elements of an accumulator row after all K-tiles. -/
def mmaRow (m : MmaWords) (scale : List Byte) (i : Nat) (row : List Nat) (a weights : List Byte) : List Nat :=
  let e := m.esize
  let fa := fmtWordFloat (m.fmt % 64)
  let fb := fmtWordFloat (nbits m.fmt 13 8)
  let line (n : Nat) : List Byte := (scale.drop (64 * n)).take 64
  let sa := scaleBlocks m.blk (line i)
  (List.range 32).map fun j =>
    let sb := scaleBlocks m.blk (line (32 + j))
    (List.range m.nt).foldl (fun c t =>
      let as := elems fa e 64 ((a.drop (64 * e * t)).take (64 * e))
      kTile c as (column fb e j ((weights.drop (2048 * e * t)).take (2048 * e))) sa sb) (row.getD j 0)

def accKey (part tile elem : Nat) : Nat := (part * 4 + tile) * 1024 + elem
def accElem (b : Block) (part tile e : Nat) : Nat := (Store.get 0 b.acc (accKey part tile e)).toNat
def Block.setAcc (b : Block) (part tile e v : Nat) : Block :=
  { b with acc := Store.put 0 b.acc (accKey part tile e) (.ofNat 32 v),
           badAcc := Store.put false b.badAcc (accKey part tile e) false }

/-- The tile becomes full. -/
def fillTile (g rank part tile : Nat) (s : State) : State :=
  s.onBlock g rank fun b => { b with accEmpty := Store.put false b.accEmpty (part * 4 + tile) false }

/-- Rows of B that an MMA.S reads, one after another. -/
def readRows (p : Party) (m : MmaWords) : Nat → Nat → State → Source × State
  | _, 0, s => (.bytes [], s)
  | k, n + 1, s =>
    match readFor p (m.b + k * m.bStride) (32 * m.esize) s with
    | (.bytes bs, s) => (match readRows p m (k + 1) n s with
      | (.bytes rest, s) => (.bytes (bs ++ rest), s)
      | x => x)
    | x => x

/-- The array's rows from `i` on: what stopped it, if anything (R171, R172). -/
def mmaRows (r : OpRef) (m : MmaWords) (o : Op) (w : Warp) : Nat → Nat → State → Option Source × State
  | _, 0, s => (none, s)
  | i, n + 1, s =>
    let p := { s.party w with core := none }
    let scale := if m.blk = 0 then [] else o.data.take 4096
    let held := if m.blk = 0 then o.data else o.data.drop 4096
    match readFor p (m.a + i * m.aStride) (64 * m.nt * m.esize) s with
    | (.bytes a, s) =>
      (match (if m.isS then readRows p m 0 (64 * m.nt) s else (.bytes held, s)) with
      | (.bytes ws, s) =>
        let b := s.block w.gang w.rank
        let row := (List.range 32).map fun j => accElem b w.part m.tile (32 * i + j)
        let out := mmaRow m scale i row a ws
        let s := s.onBlock w.gang w.rank fun b => each out.zipIdx b fun e b => b.setAcc w.part m.tile (32 * i + e.2) e.1
        mmaRows r m o w (i + 1) n (s.onOp r fun o => { o with prog := i + 1 })
      | (x, s) => (some x, s))
    | (x, s) => (some x, s)

/-- An operation is the oldest of its partition's array (R171). -/
def oldestOnArray (s : State) (w : Warp) (o : Op) : Bool :=
  !(s.warps.any fun v => !v.retired && (s.gang v.gang).state == .placed && s.partNo v == s.partNo w &&
    v.ops.any fun p => isMma p.ins && !p.finished && decide (p.stamp < o.stamp))

/-- Units the array needs before a replayed operation starts (R267). -/
def holdsUnits (s : State) (r : OpRef) : Bool :=
  (s.cluster (s.gang (s.warp r.warp).gang).cluster).holders.any fun h => h.1 == r

/-- A replayed MMA has given up its weights and takes them from its residency anew (R173). -/
def needsWeights (m : MmaWords) (o : Op) : Bool :=
  o.replay && !m.isS && decide (o.data.length ≤ if m.blk = 0 then 0 else 4096)

def mmaReady (s : State) (r : OpRef) : Bool :=
  match s.opOf r with
  | none => false
  | some o =>
    let w := s.warp r.warp
    let m := mmaWords o.ins o.regs
    isMma o.ins && opReady s r o && oldestOnArray s w o && holdsUnits s r &&
      !(needsWeights m o && (match s.resOf w m.handle with
        | some x => s.homeless w x && s.heldAtHome x
        | none => false))

/-- Some element the rows read holds an uncorrectable error: accumulator, scale line or residency (R362). -/
def mmaBad (s : State) (w : Warp) (m : MmaWords) : Option ErrWhere :=
  let b := s.block w.gang w.rank
  let at' (src : BitVec 8) : ErrWhere := { addr := 0, pa := false, source := src, ltype := 0, loc := .ofNat 28 (s.partNo w) }
  let res := if m.isS then none else s.resOf w m.handle
  if (List.range (32 * m.nrows)).any fun e => Store.get false b.badAcc (accKey w.part m.tile e) then some (at' 0x02)
  else if m.blk != 0 && b.badScale.any fun e => e.1 / 512 == w.part && (e.1 % 512 / 8 < m.nrows || 32 ≤ e.1 % 512 / 8) then some (at' 0x04)
  else match res with
    | some x => if (s.res x).bad.any fun e => decide (256 * m.t0 ≤ e.1) && decide (e.1 < 256 * (m.t0 + m.nt * m.esize)) then
        some (at' 0x03) else none
    | none => none

/-- A replayed MMA takes its weights: its residency is rehomed and reloaded as at step 5 of R169; every trap is asynchronous (R173). Whether the array goes on to the rows, with the state. -/
def takeWeights (r : OpRef) (o : Op) (s : State) : Bool × State :=
  let w := s.warp r.warp
  let m := mmaWords o.ins o.regs
  let lane := (o.regs.getD 8 0).toNat
  let p := { s.party w with core := none }
  let fails (cause : Word) (addr : DWord) (info : Word) (s : State) : Bool × State :=
    (false, asyncTrap r.warp lane o.pc { cause, addr, info } ((fillTile w.gang w.rank w.part m.tile s).finishOp r))
  let stops (va : Nat) (e : Xlat) (s : State) : Bool × State :=
    if e != .notPresent then (false, s)
    else if fastFault s p.sp.asid then fails causeTranslation (.ofNat 64 va) 0 s
    else (false, opFaulted r p.sp va 4 s)
  match s.resOf w m.handle with
  | none => fails causeBounds 0 (.ofNat 32 m.handle) s
  | some x =>
    if s.homeless w x && !s.storeRoom (s.partNo w) (s.res x).tiles then fails causeQuota 0 2 s
    else match if s.homeless w x then rehome x (s.partNo w) p s else (none, s) with
      | (some (va, e), s) => stops va e s
      | (none, s) =>
        match if (s.res x).stale && (s.res x).reload then reloadRes x p s else (none, s) with
        | (some (va, e), s) => stops va e s
        | (none, s) =>
          let s := s.onRes x fun q => if q.reload && q.loaded then { q with stale := false } else q
          let q := s.res x
          if !q.loaded || q.stale then fails causeStale 0 (.ofNat 32 m.handle) s
          else
            let weights := q.data.bytes (2048 * m.t0) (2048 * (m.nt * m.esize))
            (true, s.onOp r fun o => { o with data := o.data ++ weights })

/-- The array finishes an operation, or stops at a row (R171, R172). -/
def mmaRun (r : OpRef) (s : State) : State :=
  match s.opOf r with
  | none => s
  | some o =>
    let w := s.warp r.warp
    let m := mmaWords o.ins o.regs
    let lane := (o.regs.getD 8 0).toNat
    let done (s : State) : State := (fillTile w.gang w.rank w.part m.tile s).finishOp r
    match mmaBad s w m with
    | some e =>
      let s := if e.source = 0x03 then (match s.resOf w m.handle with
        | some x => s.onRes x fun q => { q with stale := true }
        | none => s) else s
      consume w.gang e (done s)
    | none =>
      match mmaRows r m o w o.prog (m.nrows - o.prog) s with
      | (none, s) => done s
      | (some (.fail va .notPresent), s) =>
        if fastFault s (s.space w).asid then
          asyncTrap r.warp lane o.pc { cause := causeTranslation, addr := .ofNat 64 va } (done s)
        else opFaulted r (s.space w) va 4 s
      | (some (.fail va .migrating), s) => s.awaitPage r ((s.space w).loc va)
      | (some (.fail va (.poisoned _)), s) => consume w.gang (poisonWhere s ((s.space w).loc va)) (done s)
      | (some (.fail va _), s) => asyncTrap r.warp lane o.pc { cause := causePermission, addr := .ofNat 64 va } (done s)
      | (some (.poison va), s) => consume w.gang (poisonWhere s ((s.space w).loc va)) (done s)
      | (some _, s) => s

/-- The array runs an operation, a replayed one once it has its weights. -/
def mmaComplete (r : OpRef) (s : State) : State :=
  match s.opOf r with
  | none => s
  | some o =>
    if needsWeights (mmaWords o.ins o.regs) o then
      match takeWeights r o s with
      | (true, s) => mmaRun r s
      | (false, s) => s
    else mmaRun r s

/-! ## Accumulator and scale instructions (R175 to R177) -/

/-- Issue the bundle again from its own PC: it reads memory at issue and has to wait. -/
def Act.again (x : Act) (s : State) : State := s.onWarp x.u fun w => w.onThreads x.lanes fun t => { t with pc := x.pc }

/-- A read made at issue fails: the bundle traps, or waits for the page and is issued again (R144, R273, R275). -/
def Act.readFails (x : Act) (kind : Nat) (r : Source) (s : State) : State :=
  let w := s.warp x.u
  let sp := s.space w
  match r with
  | .fail va .notPresent =>
    if fastFault s sp.asid then x.trap x.first { cause := causeTranslation, addr := .ofNat 64 va } s
    else x.again { s with faults := s.faults ++ [{ op := { warp := x.u, op := w.nextOp }, world := sp.world, asid := sp.asid, va, kind, lane := x.first, pc := x.pc }] }
  | .fail va .migrating =>
    s.onWarp x.u fun w => w.onThreads x.lanes fun t => { t with pc := x.pc, status := .blocked (.migrating (sp.loc va / 65536)) }
  | .fail va (.poisoned _) | .poison va => consume w.gang (poisonWhere s (sp.loc va)) s
  | .fail va _ => x.trap x.first { cause := causePermission, addr := .ofNat 64 va } s
  | .bytes _ | .tagFails => s

def acczIssue (x : Act) (s : State) : State :=
  let w := s.warp x.u
  let t := x.r.d.val.toNat
  s.onBlock w.gang w.rank fun b =>
    { b with
      acc := Store.drop b.acc fun k => k / 1024 == w.part * 4 + t
      badAcc := Store.drop b.badAcc fun k => k / 1024 == w.part * 4 + t }

/-- The checks of R177 on an element index. -/
def elemOk (w : Warp) (e : Nat) : Bool := e % 16 = 0 && e + w.width ≤ 1024

def accwrIssue (x : Act) (s : State) : State :=
  let w := s.warp x.u
  let e := x.valB w x.first
  let t := x.r.d.val.toNat
  if !elemOk w e then x.trap x.first { cause := causeBounds } s
  else s.onBlock w.gang w.rank fun b => each x.act b fun l b => b.setAcc w.part t (e + l) (x.valA w l)

/-- The scaled and narrowed value of an element (R84, R92, R176). -/
def accOut (fw tA tB subst c : Nat) : Nat :=
  let y := f32Fmt.round .rn (Num.mul (Num.mul (f32Fmt.value c) (f32Fmt.value tA)) (f32Fmt.value tB))
  if fw % 64 = 0 then y
  else ((fmtWordFloat (fw % 64)).conv ((Rnd.ofCode (nbits fw 27 24)).getD .rn) 0 subst (f32Fmt.value y)).1

/-- The format word of ACCRD and ACCST is valid (R87). -/
def accFmtOk (fw : Nat) : Bool := fmtWordOk fw && fmtRoundOk fw

/-- Word k of the uniform quad in field B. -/
def Act.quadB (x : Act) (w : Warp) (k : Nat) : Nat := nbits (x.valB w x.first) (32 * k + 31) (32 * k)

/-- Some of the elements read hold an uncorrectable error, and where it lies (R362, R373). -/
def accBad (b : Block) (w : Warp) (tile : Nat) (es : List Nat) : Bool :=
  es.any fun e => Store.get false b.badAcc (accKey w.part tile e)
def accWhere (s : State) (w : Warp) : ErrWhere :=
  { addr := 0, pa := false, source := 0x02, ltype := 0, loc := .ofNat 28 (s.partNo w) }

def accrdIssue (x : Act) (s : State) : State :=
  let w := s.warp x.u
  let e := x.quadB w 0
  let fw := x.quadB w 1
  let t := x.r.a.val.toNat
  let b := s.warpBlock w
  if !elemOk w e then x.trap x.first { cause := causeBounds } s
  else if !accFmtOk fw then x.trap x.first { cause := causeArith, info := .ofNat 32 fw } s
  else if accBad b w t (x.act.map (e + ·)) then consume w.gang (accWhere s w) s
  else s.onWarp x.u (x.writeD (x.act.map fun l =>
    (l, accOut fw (x.quadB w 2) (x.quadB w 3) (x.valC w l) (accElem b w.part t (e + l)))))

/-- TRANSLATION for the base, then ALIGNMENT of base and stride (R177). -/
def accAddr (base stride : Nat) : Option TrapInfo :=
  if !canonical base then some { cause := causeTranslation, addr := .ofNat 64 base }
  else if base % 128 != 0 || stride % 128 != 0 || stride < 128 then some { cause := causeAlignment, addr := .ofNat 64 base }
  else none

def accldIssue (x : Act) (s : State) : State :=
  let w := s.warp x.u
  let base := x.valA w x.first
  let stride := x.valB w x.first
  match accAddr base stride with
  | some t => x.trap x.first t s
  | none =>
    let s := s.onBlock w.gang w.rank fun b =>
      { b with accEmpty := Store.put false b.accEmpty (w.part * 4 + x.r.d.val.toNat) true }
    s.addOp x.u (x.op [] [.ofNat 32 base, .ofNat 32 (base / 2 ^ 32), .ofNat 32 stride])

/-- ACCST reads the tile at issue; its rows of narrowed bytes stand in the record (R58, R176). -/
def accstIssue (x : Act) (s : State) : State :=
  let w := s.warp x.u
  let base := x.valA w x.first
  let stride := x.quadB w 0
  let fw := x.quadB w 1
  let b := s.warpBlock w
  let t := x.r.d.val.toNat
  match accAddr base stride with
  | some t => x.trap x.first t s
  | none =>
    if !accFmtOk fw then x.trap x.first { cause := causeArith, info := .ofNat 32 fw } s
    else if accBad b w t (List.range 1024) then consume w.gang (accWhere s w) s
    else
      let size := fmtWordBytes (fw % 64)
      let out := (List.range 1024).map fun e =>
        bytesOfNat size (accOut fw (x.quadB w 2) (x.quadB w 3) (x.valC w x.first) (accElem b w.part t e))
      s.addOp x.u { (x.op [] [.ofNat 32 base, .ofNat 32 (base / 2 ^ 32), .ofNat 32 stride]) with data := out.flatten }

def isAccOp (i : Instr) : Bool :=
  match i with
  | .accld .. | .accst .. => true
  | _ => false

def accReady (s : State) (r : OpRef) : Bool :=
  match s.opOf r with
  | none => false
  | some o => isAccOp o.ins && opReady s r o

/-- Rows of an ACCLD: the values, or what stopped it. -/
def accRows (p : Party) (base stride : Nat) : Nat → Nat → State → Source × State
  | _, 0, s => (.bytes [], s)
  | i, n + 1, s =>
    match readFor p (base + i * stride) 128 s with
    | (.bytes bs, s) => (match accRows p base stride (i + 1) n s with
      | (.bytes rest, s) => (.bytes (bs ++ rest), s)
      | x => x)
    | x => x

/-- Rows of an ACCST: plain stores (R147). -/
def accStores (p : Party) (base stride : Nat) : List (List Byte) → Nat → State → Option (Nat × Xlat) × State
  | [], _, s => (none, s)
  | row :: rest, i, s =>
    match writeEngine p (base + i * stride) row s with
    | (none, s) => accStores p base stride rest (i + 1) s
    | (some x, s) => (some (base + i * stride, x), s)

/-- ACCLD or ACCST finishes (R176). -/
def accComplete (r : OpRef) (s : State) : State :=
  match s.opOf r with
  | none => s
  | some o =>
    let w := s.warp r.warp
    let p := { s.party w with core := none }
    let base := joinRegs (fun k => o.regs.getD k 0) 0 2
    let stride := (o.regs.getD 2 0).toNat
    let tile := ((raw o.ins).map fun x => x.d.val.toNat).getD 0
    let lane := (lanesOf o.lanes).headD 0
    match o.ins with
    | .accld .. =>
      (match accRows p base stride 0 32 s with
      | (.bytes bs, s) =>
        let s := s.onBlock w.gang w.rank fun b => each ((chunks 4 1024 bs).zipIdx) b fun e b =>
          b.setAcc w.part tile e.2 (natOfBytes e.1)
        (fillTile w.gang w.rank w.part tile s).finishOp r
      | (.fail va x, s) => opFail r lane 4 va true 0 x s
      | (.poison va, s) => consume w.gang (poisonWhere s (p.sp.loc va)) (s.finishOp r)
      | (.tagFails, s) => s.finishOp r)
    | _ =>
      let size := o.data.length / 1024
      let pages := (List.range 32).map fun i => (lane, base + i * stride)
      (match probeAll p.sp 4 .write pages s with
      | (some (l, va, x), s) => opFail r l 5 va true 0 x s
      | (none, s) =>
        match accStores p base stride (chunks (32 * size) 32 o.data) 0 s with
        | (none, s) => s.finishOp r
        | (some (va, x), s) => opFail r lane 5 va true 0 x s)

/-- SCLD (R176, R177). -/
def scldIssue (x : Act) (s : State) : State :=
  let w := s.warp x.u
  let base := x.valA w x.first
  let first := x.valB w x.first
  let count := x.valC w x.first
  if (s.warpLaunch w).record.accs = 0 then x.trap x.first { cause := causeBounds } s
  else if !canonical base then x.trap x.first { cause := causeTranslation, addr := .ofNat 64 base } s
  else if base % 64 != 0 then x.trap x.first { cause := causeAlignment, addr := .ofNat 64 base } s
  else if 63 < first || count < 1 || 64 < count || 64 < first + count then x.trap x.first { cause := causeBounds } s
  else match readFor { s.party w with core := none } base (64 * count) s with
    | (.bytes bs, s) => s.onBlock w.gang w.rank fun b =>
        { b with
          scale := b.scale.setBytes (w.part * 4096 + 64 * first) bs
          badScale := Store.drop b.badScale fun k =>
            decide (w.part * 512 + 8 * first ≤ k) && decide (k < w.part * 512 + 8 * (first + count)) }
    | (e, s) => x.readFails 0 e s

/-- FMTW (R182). -/
def fmtwIssue (x : Act) (s : State) : State :=
  let w := s.warp x.u
  s.onWarp x.u (x.writeD (x.act.map fun l => (l, if fmtWordMma (x.valA w l) then 1 else 0)))

/-- LEAVE (R183, R267). -/
def leaveIssue (x : Act) (s : State) : State :=
  let w := s.warp x.u
  let n := x.valA w x.first
  if n < 1 || 64 < n then x.trap x.first { cause := causeBounds } s
  else
    let c := s.cluster (s.warpGang w).cluster
    let m := min n (64 - (w.pool + c.asked w.uid))
    if m = 0 then s else s.requestLeave w (.pool w.uid m)

/-! ## Grants -/

/-- The collective of a register may be issued: the record has a place for its operation, and no older one owes its tile (R22, R25). -/
def colClear (s : State) (u cv : Nat) : Bool :=
  let w := s.warp u
  let c := (s.warpBlock w).cv.getD cv {}
  decide (w.counted < 64) && (match c.signers.find? fun x => x.lane == c.last with
    | some ref => !tileOwed (s.warpBlock w) w.part (mmaWords ref.ins ref.words)
    | none => true)

/-- The head request is covered by the free units (R267), and a collective may be issued. -/
def leaveReady (s : State) (k : Nat) : Bool :=
  let c := s.cluster k
  match c.requests with
  | [] => false
  | r :: _ => decide (c.held + min r.2.units (s.budget k) ≤ s.budget k) && (match r.2 with
      | .collective u cv _ => colClear s u cv
      | .pool .. | .engine .. => true)

/-- Grant the head request. -/
def leaveGrants (k : Nat) (s : State) : State :=
  match (s.cluster k).requests with
  | [] => s
  | r :: rest =>
    let n := min r.2.units (s.budget k)
    let s := s.onCluster k fun c => { c with requests := rest }
    match r.2 with
    | .pool u _ => (s.onWarp u fun w => { w with pool := w.pool + n }).onCluster k fun c => { c with held := c.held + n }
    | .engine o _ => s.holdUnits k o n n
    | .collective u cv _ =>
      let w := s.warp u
      colIssue w.gang w.rank cv (n + ((s.warpBlock w).cv.getD cv {}).paid) n s

/-! ## Rehoming (R178) -/

/-- The handle of a RES form that acts only on a residency at home. -/
def homeHandle (i : Instr) (w : Warp) (l : Nat) : Option Nat :=
  match i with
  | .resLoad _ f => some (w.operand 1 f.b l)
  | .resPin _ f | .resUnpin _ f => some (w.operand 1 f.a l)
  | _ => none

/-- A run of a warp waits at a RES form for nothing but the rehoming of a residency. -/
def runAsks (s : State) (w : Warp) (x : Nat × Nat) (r : Run) : Bool :=
  match peek s w r.pc with
  | none => false
  | some i =>
    match homeHandle i w (r.lanes.headD 0) with
    | none => false
    | some h => s.resOf w h == some x && s.awaitsHome w x &&
        (match check i (r.bundle w.uid) (s.onRes x fun q => { q with home := some (s.partNo w) }) with
          | .go _ => true
          | _ => false)

/-- A complete collective of a warp waits before step 5 of R169 for the rehoming of a residency. -/
def collectiveAsks (s : State) (w : Warp) (x : Nat × Nat) : Bool :=
  (List.range 16).any fun cv =>
    let c := (s.warpBlock w).cv.getD cv {}
    c.warp == w.num && c.complete && !c.leave && !c.tried && (match c.signers.find? fun y => y.lane == c.last with
      | none => false
      | some ref =>
        let m := mmaWords ref.ins ref.words
        !m.isS && s.resOf w m.handle == some x && s.awaitsHome w x)

/-- The bundle or collective of a warp that waits for a residency, by its reporting lane and PC. -/
def askPlace (s : State) (w : Warp) (x : Nat × Nat) : Option (Nat × Word) :=
  match (w.parked ++ w.runs).find? (runAsks s w x) with
  | some r => some (r.lanes.headD 0, r.pc)
  | none => if collectiveAsks s w x then some (w.live.headD 0, (w.thread (w.live.headD 0)).pc) else none

/-- A placed warp of a partition waits for a residency to be rehomed there. -/
def asksHome (s : State) (x : Nat × Nat) (part : Nat) (w : Warp) : Bool :=
  !w.retired && !w.stopped && s.partNo w == part && (s.gang w.gang).state == .placed && s.ctxSlot (s.space w).asid == some x.1 &&
    !s.faulting w && (askPlace s w x).isSome

/-- The residency may be rehomed: it is asked for, and no operation on its home partition holds it. -/
def rehomeReady (s : State) (slot index part : Nat) : Bool :=
  let r := s.res (slot, index)
  r.live && r.home != some part && !s.heldAtHome (slot, index) && s.storeRoom part r.tiles && s.warps.any (asksHome s (slot, index) part)

/-- The residency is rehomed for the first warp of the partition that asks for it; a source page that is absent is serviced first (R273). -/
def rehomeFor (slot index part : Nat) (s : State) : State :=
  match s.warps.find? (asksHome s (slot, index) part) with
  | some w =>
    let (lane, pc) := (askPlace s w (slot, index)).getD (0, 0)
    match rehome (slot, index) part { s.party w with core := none } s with
    | (some (va, .notPresent), s) =>
      if fastFault s (s.space w).asid then asyncTrap w.uid lane pc { cause := causeTranslation, addr := .ofNat 64 va } s
      else s.reloadFault w lane pc va
    | (_, s) => s
  | none => s

/-! ## Meanings -/

def execFmtw (h : Hdr) (f : Ops) : State → Host.Outcome State Fault Refusal := issue (.fmtw h f) fmtwIssue
def execMma (h : Hdr) (f : Ops) : State → Host.Outcome State Fault Refusal := issue (.mma h f) mmaIssue
def execMmaS (h : Hdr) (f : Ops) : State → Host.Outcome State Fault Refusal := issue (.mmaS h f) mmaIssue
def execMmaOperationComplete (o : OpRef) (s : State) : Host.Outcome State Fault Refusal :=
  event (mmaReady s o) (mmaComplete o) s
def execAccz (h : Hdr) (f : Ops) : State → Host.Outcome State Fault Refusal := issue (.accz h f) acczIssue
def execAccld (h : Hdr) (f : Ops) : State → Host.Outcome State Fault Refusal := issue (.accld h f) accldIssue
def execAccst (h : Hdr) (f : Ops) : State → Host.Outcome State Fault Refusal := issue (.accst h f) accstIssue
def execAccrd (h : Hdr) (f : Ops) : State → Host.Outcome State Fault Refusal := issue (.accrd h f) accrdIssue
def execAccwr (h : Hdr) (f : Ops) : State → Host.Outcome State Fault Refusal := issue (.accwr h f) accwrIssue
def execAccumulatorLoadStoreComplete (o : OpRef) (s : State) : Host.Outcome State Fault Refusal :=
  event (accReady s o) (accComplete o) s
def execScld (h : Hdr) (f : Ops) : State → Host.Outcome State Fault Refusal := issue (.scld h f) scldIssue
def execResidencyRehome (slot index part : Nat) (s : State) : Host.Outcome State Fault Refusal :=
  event (rehomeReady s slot index part) (rehomeFor slot index part) s
def execLeave (h : Hdr) (f : Ops) : State → Host.Outcome State Fault Refusal := issue (.leave h f) leaveIssue
def execLeaveGrant (k : Nat) (s : State) : Host.Outcome State Fault Refusal := event (leaveReady s k) (leaveGrants k) s

end Sys2Proof.Machine
end

