-- ==== Sys2Proof/Machine/Settle.lean ====
section
/-! DEFINITION. What waiting threads, blocks and gangs come to without an instruction of their own: exits (R111, R113), barriers (R159), role changes (R115), tied collectives (R169) and retirement (R9, R18, R199, R237). -/

namespace Sys2Proof.Machine

/-! ## Exits -/

/-- Outstanding operations of a warp older than `n` that have not completed (R24). -/
def Warp.outstanding (w : Warp) (n : Nat) : Bool := w.ops.any fun o => o.ctr.isSome && !o.finished && decide (o.id < n)

/-- The wait of an EXIT is over (R111). -/
def exitDone (w : Warp) (l : Nat) : Bool :=
  match (w.thread l).status with
  | .blocked (.exit n) => !w.outstanding n
  | _ => false

/-- Leaving lanes drop from a register's declared mask; an emptied register is IDLE (R19, R111, R113). -/
def CvReg.undeclare (c : CvReg) (num : Nat) (lanes : Mask) : CvReg :=
  if c.idle || c.warp != num || c.declared &&& lanes = 0 then c
  else if c.declared &&& ~~~lanes = 0 then { gen := c.gen }
  else { c with declared := c.declared &&& ~~~lanes }

/-- The registers of a warp that leaving lanes empty. -/
def emptied (b : Block) (num : Nat) (lanes : Mask) : List Nat :=
  (List.range b.cv.length).filter fun k =>
    let c := b.cv.getD k {}
    !c.idle && (c.undeclare num lanes).idle

/-- A collective whose register is emptied is given up: its request for leave is withdrawn, and what the pool had paid for it goes back to the steward (R113, R183, R267): DESIGN CHOICE (log 59; the spec does not say which of the two has it). -/
def abandonLeave (u : Nat) (cvs : List Nat) (s : State) : State :=
  let w := s.warp u
  let paid := (cvs.map fun k => ((s.warpBlock w).cv.getD k {}).paid).sum
  let mine (q : Nat × LeaveFor) : Bool := match q.2 with
    | .collective v k _ => v == u && cvs.contains k
    | .pool .. | .engine .. => false
  s.onCluster (s.warpGang w).cluster fun c => { c with held := c.held - paid, requests := c.requests.filter fun q => !mine q }

/-- Threads end in a state: EXITED or DISCARDED. -/
def endThreads (u : Nat) (lanes : List Nat) (x : Status) (s : State) : State :=
  if lanes = [] then s
  else
    let w := s.warp u
    let s := abandonLeave u (emptied (s.warpBlock w) w.num (maskOf lanes)) s
    let s := s.onWarp u fun w => w.onThreads lanes fun t => { t with status := x, handler := false }
    s.onBlock w.gang w.rank fun b => { b with cv := b.cv.map fun c => c.undeclare w.num (maskOf lanes) }

/-- The exits of a warp that wait for nothing more. -/
def settleExit (u : Nat) (s : State) : State :=
  let w := s.warp u
  if w.stopped then s else endThreads u ((List.range w.width).filter (exitDone w)) .exited s

/-! ## Barriers -/

/-- A thread has arrived at a barrier and its arrival counts (R159; log 23). -/
def arrived (gang : Bool) (w : Warp) (l : Nat) : Bool :=
  match (w.thread l).status with
  | .blocked (.bar n) => !gang && !w.pendingMem [l] n
  | .blocked (.gbar n) => gang && !w.pendingMem [l] n
  | _ => false

/-- Every live thread of some warps has arrived, and there is one. -/
def allArrived (gang : Bool) (ws : List Warp) : Bool :=
  ws.any (fun w => w.live != []) && ws.all fun w => w.live.all (arrived gang w)

/-- A barrier completes: acquire on every core, the threads RUNNING, escalations cleared (R159, R289). -/
def completeBarrier (ws : List Warp) (s : State) : State :=
  each ws s fun w s =>
    let s := acquire (s.warpCore w) s
    let s := s.wakeLanes w.uid w.live
    s.onBlock w.gang w.rank fun b => { b with escalations := 0 }

def settleBar (g rank : Nat) (s : State) : State :=
  let ws := (s.blockWarps g rank).filter fun w => !w.retired
  if allArrived false ws then completeBarrier ws s else s

def settleGbar (g : Nat) (s : State) : State :=
  let ws := (s.gangWarps g).filter fun w => !w.retired
  if allArrived true ws then completeBarrier ws s else s

/-! ## Waits for a counter, an object or a record (R158, R161, R162) -/

/-- The counter a thread waits for has fallen to its threshold, or the phase it waits for has ended. -/
def waitOver (s : State) (w : Warp) (l : Nat) : Bool :=
  match (w.thread l).status with
  | .blocked (.count c n) => w.count c ≤ n
  | .blocked (.baro r o p) => (baroAt s w.gang (r, o)).phase.toNat != p
  | _ => false

/-- Such threads perform the acquire and go on. -/
def settleCounts (u : Nat) (s : State) : State :=
  let w := s.warp u
  let ls := (List.range w.width).filter (waitOver s w)
  if w.stopped || ls = [] then s else (acquire (s.warpCore w) s).wakeLanes u ls

/-- A SEAL frees the retained entries of a gang in every window of the part (R284). -/
def freeTags (u : Nat) (s : State) : State :=
  s.onTags (fun _ => true) fun t => if t.gangUid = u then { t with retained := false } else t

/-- The threads of a gang start their sequence numbers anew (R158, R283). -/
def resetSeqs (u : Nat) (s : State) : State :=
  let z (t : Thread) : Thread := { t with tagSeq := 0 }
  { s with warps := mapIf (fun w => w.gang == u) (fun w => { w with threads := w.threads.map z }) s.warps }

/-- The effect of SEAL on a gang (R158). -/
def sealRecord (g : Nat) (rpc : Word) (vals : List Word) (s : State) : State :=
  let s := (commitVersion g s).onGang g fun g =>
    { g with retained := { g.retained with vals, rpc, sealNo := g.retained.sealNo + 1, since := 0, contain := true } }
  resetSeqs g (freeTags g s)

/-- A waiting SEAL, by the lowest of its lanes that have not ended since: it records, or finds the seal count used up meanwhile. -/
def settleSeal (u l : Nat) (s : State) : State :=
  let w := s.warp u
  match (w.thread l).status with
  | .blocked (.sealing lead before pc rpc vals) =>
    let mine := (List.range w.width).filter fun k => match (w.thread k).status with
      | .blocked (.sealing j ..) => j == lead
      | _ => false
    if w.stopped || mine.headD l != l || w.pendingMem (List.range 64) before then s
    else if (s.warpGang w).retained.sealNo = 0xFFFFFFFF then
      takeTrap u (mine.map fun k => (k, pc)) l { cause := causeBounds } s
    else sealRecord w.gang rpc vals (s.wakeLanes u mine)
  | _ => s

/-- The waits of a warp's threads that are over. -/
def settleWaits (u : Nat) (s : State) : State :=
  each (List.range (s.warp u).width) (settleCounts u s) (settleSeal u)

/-! ## Role changes (R115) -/

/-- The role a thread has arrived for. -/
def roleOf (w : Warp) (l : Nat) : Option Nat :=
  match (w.thread l).status with
  | .blocked (.role n) => some n
  | _ => none

/-- Keep the registers below the new allotments; those above come back as 0 and full when a role grows. -/
def Warp.takeRole (w : Warp) (r : Role) : Warp :=
  { w with
    vregs := Store.drop w.vregs fun k => decide (min w.nv r.nv ≤ k / 64)
    uregs := Store.drop w.uregs fun k => decide (min w.nu r.nu ≤ k)
    nv := r.nv
    nu := r.nu
    threads := w.threads.map fun t => if t.status.gone then t else { t with status := .running, pc := r.entry } }

/-- A role begins once every live thread of the block has arrived at the same one (R115). A late result still owed to a register that the role drops lands where the register was when it is written: DESIGN CHOICE (log 59; the spec does not say what becomes of it). -/
def settleRole (g rank : Nat) (s : State) : State :=
  let ws := (s.blockWarps g rank).filter fun w => !w.retired
  let arrivals := (ws.map fun w => w.live.map (roleOf w)).flatten
  match arrivals.head? with
  | some (some n) =>
    if arrivals.all (fun a => a == some n) && !(ws.any fun w => w.outstanding w.nextOp) then
      let r := (s.launch (s.gang g).launch).roles.getD n {}
      let s := each ws s fun w s => s.onWarp w.uid fun w => w.takeRole r
      s.onBlock g rank fun b => { b with prio := r.prio, role := n }
    else s
  | _ => s

/-! ## Retirement -/

/-- Give a warp's pool back to the steward and withdraw its requests (R183, R267). -/
def withdrawLeave (u : Nat) (s : State) : State :=
  let w := s.warp u
  let mine (q : Nat × LeaveFor) : Bool := match q.2 with
    | .pool v _ => v == u
    | .collective v _ _ => v == u
    | .engine o _ => o.warp == u
  let paid := (((s.warpBlock w).cv.filter fun c => c.warp == w.num).map fun c => c.paid).sum
  let s := s.onCluster (s.warpGang w).cluster fun c =>
    { c with held := c.held - (w.pool + paid), requests := c.requests.filter fun q => !mine q }
  let s := s.onBlock w.gang w.rank fun b => { b with cv := mapIf (fun c => c.warp == w.num) (fun c => { c with paid := 0 }) b.cv }
  s.onWarp u fun w => { w with pool := 0 }

/-- A warp retires when its threads are EXITED or DISCARDED and its counters read 0 (R9). -/
def settleWarp (u : Nat) (s : State) : State :=
  let w := s.warp u
  if w.retired || w.live != [] || w.counted != 0 then s
  else (withdrawLeave u s).onWarp u fun w => { w with retired := true, served := false, shadowServed := false, lag := [], queued := [], copy := none }

/-- What a block's retirement ends: accumulators and scale stores scrubbed, the churn slot and queues released (R18, R165, R199). -/
def Block.retire (b : Block) : Block :=
  { rank := b.rank, core := b.core, prio := b.prio, cv := [], retired := true }

def settleBlock (g rank : Nat) (s : State) : State :=
  let b := s.block g rank
  let ws := s.blockWarps g rank
  if b.retired || ws.any fun w => !w.retired then s else s.onBlock g rank Block.retire

/-- A record leaves its local ring when the gang that received it retires (R322). -/
def leaveRing (l : Launch) (num : Nat) (s : State) : State :=
  match l.wave with
  | some v =>
    (match v.edge with
    | some e =>
      let n := v.rings.getD num 0
      s.onCtx l.slot fun c => { c with graph := c.graph.map fun gr =>
          { gr with edges := mapAt (fun x => { x with occupied := x.occupied - n }) gr.edges e } }
    | none => s)
  | none => s

/-- A gang retires with its last block: its version is committed (R237), its warps leave. -/
def settleRetire (g : Nat) (s : State) : State :=
  let x := s.gang g
  if x.state != .placed || x.blocks.any fun b => !b.retired then s
  else
    let s := commitVersion g s
    let s := leaveRing (s.launch x.launch) x.num s
    let s := s.onGang g fun x => { x with state := .retired, blocks := [] }
    { s with warps := s.warps.filter fun w => w.gang != g }

/-- A gang is about to be relaunched or killed for an uncorrectable error that one of its operations has met (R364). -/
def consuming (s : State) (g : Nat) : Bool :=
  s.agenda.any fun i => match i with
    | .uncorrectableConsumed x _ => x == g
    | _ => false

/-- Everything a placed gang's waits may come to, once; nothing of a gang that has met an uncorrectable error goes on (R364). -/
def settleGang (g : Nat) (s : State) : State :=
  if (s.gang g).state != .placed || consuming s g then s
  else
    let ranks := List.range (s.gang g).blocks.length
    let us := (s.gangWarps g).map fun w => w.uid
    let s := each us (each us s settleWaits) settleExit
    let s := each ranks s fun r s => settleRole g r (settleBar g r s)
    let s := settleGbar g s
    let s := each ranks s fun r s => collectives g r s
    let s := each us s settleWarp
    let s := each ranks s fun r s => settleBlock g r s
    settleRetire g s

/-- Settle every gang of the part. -/
def settle (s : State) : State := each (s.gangs.map fun g => g.uid) s settleGang

end Sys2Proof.Machine
end

