-- ==== Sys2Proof/Machine/Control.lean ====
section
/-! DEFINITION. Control: branches, calls and loops (R107 to R109), waits and ends (R110, R111), convergence registers (R112, R113), roles (R115), special registers (R27 to R30, R116) and discard (R9, R19). -/

namespace Sys2Proof.Machine

/-! ## Transfers -/

def branch (d : Word) (x : Act) (s : State) : State := jump (fun _ _ => x.pc + d) x s
def branchReg (x : Act) (s : State) : State := jump (fun w l => .ofNat 32 (x.valA w l)) x s

/-- The link of a call in every active lane (R108). -/
def Act.link (x : Act) (s : State) : State :=
  s.onWarp x.u (x.writeD (x.act.map fun l => (l, (x.pc + 12).toNat)))

/-- CALL.reg reads its targets before the link is written (R58). -/
def callReg (x : Act) (s : State) : State :=
  let w := s.warp x.u
  let ts := x.act.map fun l => (l, BitVec.ofNat 32 (x.valA w l))
  (x.link s).onWarp x.u fun w => each ts w fun e w => w.onThread e.1 fun t => { t with pc := e.2 }

/-- LOOP (R109): one counter for a uniform form, one per lane otherwise. -/
def loopBack (imm : BitVec 16) (x : Act) (s : State) : State :=
  let w := s.warp x.u
  let count (l : Nat) : Nat := (x.valA w l + 2 ^ 32 - 1) % 2 ^ 32
  let back : Word := x.pc + 12 * imm.signExtend 32
  let cs := x.act.map fun l => (l, if x.uniform then count x.first else count l)
  let s := s.onWarp x.u (x.writeD cs)
  s.onWarp x.u fun w => each cs w fun e w =>
    w.onThread e.1 fun t => { t with pc := if e.2 != 0 then back else x.pc + 12 }

/-! ## Waits and ends -/

/-- YIELD (R110, R264). -/
def yieldIssue (x : Act) (s : State) : State := s.onWarp x.u fun w => { w with demote := true, progress := 0 }

def napIssue (n : BitVec 16) (x : Act) (s : State) : State :=
  if n = 0 then s
  else s.onWarp x.u fun w => w.onThreads x.act fun t => { t with status := .blocked .nap, nap := n.toNat }

/-- A thread whose nap has been counted (R110). -/
def napDone (s : State) (u lane : Nat) : Bool :=
  let w := s.warp u
  let t := w.thread lane
  !w.retired && !w.stopped && (s.gang w.gang).state == .placed && t.status == .blocked .nap && t.nap == 0

def exitIssue (x : Act) (s : State) : State :=
  let w := s.warp x.u
  settleGang w.gang (settleExit x.u (s.blockLanes x.u x.act (.exit w.nextOp)))

/-! ## Convergence registers -/

/-- A convergence trap of R112 names the register. -/
def cvTrap (x : Act) (lane cv : Nat) (s : State) : State :=
  x.trap lane { cause := causeDivergence, info := .ofNat 32 cv } s

def declIssue (x : Act) (s : State) : State :=
  let w := s.warp x.u
  let k := x.r.d.val.toNat
  let c := (s.warpBlock w).cv.getD k {}
  let m : Mask := .ofNat 64 (x.valA w x.first) &&& maskOf w.live
  if !c.idle && (c.signed != 0 || c.warp != w.num) then cvTrap x x.first k s
  else onCv w.gang w.rank k (fun c =>
    if m = 0 then { c with idle := true, declared := 0 } else { c with idle := false, declared := m, warp := w.num }) s

def cvsignIssue (x : Act) (s : State) : State :=
  let w := s.warp x.u
  let k := x.r.d.val.toNat
  let c := (s.warpBlock w).cv.getD k {}
  if c.idle || c.warp != w.num then cvTrap x x.first k s
  else match x.act.find? fun l => !c.declared.getLsbD l with
    | some l => cvTrap x l k s
    | none => collectives w.gang w.rank (onCv w.gang w.rank k (fun c => { c with signed := c.signed ||| maskOf x.act }) s)

/-! ## Roles -/

/-- ROLE (R115): the active lanes wait for the block. BOUNDS and COLLECTIVE-DIVERGENCE write 0 into sr.trapinfo: DESIGN CHOICE (log 59; R115 and R214 give no detail for them). -/
def roleIssue (imm : BitVec 16) (x : Act) (s : State) : State :=
  let w := s.warp x.u
  let n := imm.toNat % 8
  let others := ((s.blockWarps w.gang w.rank).map fun v => v.live.filterMap (roleOf v)).flatten
  if !((s.warpLaunch w).roles.getD n {}).valid then x.trap x.first { cause := causeBounds } s
  else if others.any fun m => m != n then x.trap x.first { cause := causeDivergence } s
  else settleGang w.gang (s.blockLanes x.u x.act (.role n))

/-! ## Special registers -/

/-- Key of a unit: kind, cluster, core, index (R221). -/
def unitKey (bank : Bool) (cluster core index : Nat) : Nat :=
  (if bank then 2 ^ 15 else 0) + cluster * 1024 + core * 32 + index

/-- A partition, a core, a cluster is present (R3). -/
def State.partPresent (s : State) (cl c p : Nat) : Bool := !Store.get false s.absent (unitKey false cl c p)
def State.corePresent (s : State) (cl c : Nat) : Bool := (List.range 32).any fun p => s.partPresent cl c p
def State.clusterPresent (s : State) (cl : Nat) : Bool := (List.range 32).any fun c => s.corePresent cl c

/-- The bits that satisfy a predicate. -/
def bitsOf (n : Nat) (p : Nat → Bool) : Nat := ((List.range n).map fun k => if p k then 2 ^ k else 0).sum

/-- sr.domainpart and sr.domainsize (R408). -/
def State.domainPart (s : State) : Nat := if s.mgmt.domcfg.toNat / 2 ^ 31 % 2 = 1 then s.mgmt.domcfg.toNat % 64 else 0
def State.domainSize (s : State) : Nat :=
  if s.mgmt.domcfg.toNat / 2 ^ 31 % 2 = 1 then nbits s.mgmt.domcfg.toNat 13 8 + 1 else 1

/-- Rows completed by the warp's current MMA (R27, R172). -/
def Warp.rowProg (w : Warp) : Nat := ((w.ops.find? fun o => isMma o.ins && !o.finished).map fun o => o.prog).getD 0

/-- The value of a special register in lane l (R27). -/
def readSpecial (s : State) (w : Warp) (l k : Nat) : Nat :=
  let g := s.warpGang w
  let b := s.warpBlock w
  let la := s.warpLaunch w
  let r := la.record
  let t := w.thread l
  match k with
  | 0x00 => l
  | 0x01 => w.num
  | 0x02 => r.nwarps.toNat
  | 0x03 => w.width
  | 0x04 => g.num * r.gangsize.toNat + w.rank
  | 0x05 => g.num
  | 0x06 => w.rank
  | 0x07 => r.gangsize.toNat
  | 0x08 => r.gangs.toNat
  | 0x09 => w.part
  | 0x0A => b.core
  | 0x0B => g.cluster
  | 0x0C => s.domainPart
  | 0x0D => s.domainSize
  | 0x0E => r.world.toNat
  | 0x0F => la.asid.toNat
  | 0x10 => (s.cluster g.cluster).clock.toNat
  | 0x11 => b.prio
  | 0x12 => b.role
  | 0x13 => r.scratch.toNat
  | 0x14 => min g.retained.relaunch 255
  | 0x15 => g.retained.sealNo.toNat
  | 0x16 => if g.retained.contain then 1 else 0
  | 0x17 => (la.wave.map fun v => v.frame.toNat).getD 0
  | 0x18 => w.rowProg
  | 0x19 => t.cvtflags.toNat
  | 0x1A => t.seed.toNat
  | 0x1B => t.trapcause.toNat
  | 0x1C => t.trappc.toNat
  | 0x1D => t.trapaddr.toNat
  | 0x1E => t.trapinfo.toNat
  | 0x1F => bitsOf 32 fun c => s.corePresent g.cluster c
  | 0x20 => bitsOf 32 fun p => s.partPresent g.cluster b.core p
  | 0x21 => bitsOf 4 fun c => s.clusterPresent c
  | 0x22 => la.id.toNat
  | 0x23 => r.accs.toNat
  | 0x40 => w.count .mem
  | 0x41 => w.count .copy
  | 0x42 => w.count .mat
  | 0x43 => w.count .coll
  | 0x44 => w.count .edge
  | _ => 0

def rdsrIssue (x : Act) (s : State) : State :=
  let w := s.warp x.u
  s.onWarp x.u (x.writeD (x.act.map fun l => (l, readSpecial s w l x.r.a.val.toNat)))

/-- A thread's special register after WRSR (R27, R29, R82, R217). -/
def Thread.writeSpecial (k v : Nat) (t : Thread) : Thread :=
  match k with
  | 0x19 => { t with cvtflags := .ofNat 5 v }
  | 0x1A => { t with seed := seedOf (.ofNat 16 v) }
  | 0x1B => { t with trapcause := .ofNat 32 v }
  | 0x1C => { t with trappc := .ofNat 64 (v % 2 ^ 39) }
  | 0x1D => { t with trapaddr := .ofNat 64 v }
  | 0x1E => { t with trapinfo := .ofNat 32 v }
  | _ => t

/-- Special registers that only a handler writes (R28). -/
def handlerOnly (k : Nat) : Bool := 0x1B ≤ k && k ≤ 0x1E

def wrsrIssue (x : Act) (s : State) : State :=
  let w := s.warp x.u
  let k := x.r.d.val.toNat
  if handlerOnly k && !(w.thread x.first).handler then x.trap x.first { cause := causePermission } s
  else s.onWarp x.u fun w => each x.act w fun l w => w.onThread l fun t => t.writeSpecial k (x.valA w l)

/-! ## Discard (R9, R19) -/

def discards (s : State) (u lane : Nat) : Bool :=
  let w := s.warp u
  !w.retired && decide (lane < w.width) && !(w.thread lane).status.gone && (s.gang w.gang).state == .placed

/-! ## The progress limit (R264) -/

/-- PLIM of a warp's cluster; a value below 4 is taken as 4. -/
def plimOf (s : State) (w : Warp) : Nat := max 4 (s.cluster (s.warpGang w).cluster).plim.toNat

/-- The progress count of a warp has reached PLIM. -/
def demotionDue (s : State) (u : Nat) : Bool :=
  let w := s.warp u
  s.hasWarp u && !w.demote && decide (plimOf s w ≤ w.progress)

/-- The warp's next issue is a demotion issue. -/
def demoteNext (u : Nat) (s : State) : State := s.onWarp u fun w => { w with demote := true }

/-! ## Meanings -/

def execProgressLimitDemotion (warp : Nat) (s : State) : Host.Outcome State Fault Refusal :=
  event (demotionDue s warp) (demoteNext warp) s

def execBra (h : Hdr) (f : OpsI) : State → Host.Outcome State Fault Refusal := issue (.bra h f) (branch f.imm)
def execBrx (h : Hdr) (f : Ops) : State → Host.Outcome State Fault Refusal := issue (.brx h f) branchReg
def execCall (h : Hdr) (f : OpsI) : State → Host.Outcome State Fault Refusal :=
  issue (.call h f) fun x s => branch f.imm x (x.link s)
def execCallReg (h : Hdr) (f : Ops) : State → Host.Outcome State Fault Refusal := issue (.callReg h f) callReg
def execRet (h : Hdr) (f : Ops) : State → Host.Outcome State Fault Refusal := issue (.ret h f) branchReg
def execExit (h : Hdr) (f : Ops) : State → Host.Outcome State Fault Refusal := issue (.exit h f) exitIssue
def execLoop (h : Hdr) (f : OpsH) : State → Host.Outcome State Fault Refusal := issue (.loop h f) (loopBack f.imm)
def execYield (h : Hdr) (f : Ops) : State → Host.Outcome State Fault Refusal := issue (.yield h f) yieldIssue
def execNap (h : Hdr) (f : OpsH) : State → Host.Outcome State Fault Refusal := issue (.nap h f) (napIssue f.imm)
def execNapExpiry (u lane : Nat) (s : State) : Host.Outcome State Fault Refusal :=
  event (napDone s u lane) (fun s => s.wakeLanes u [lane]) s
def execDecl (h : Hdr) (f : Ops) : State → Host.Outcome State Fault Refusal := issue (.decl h f) declIssue
def execCvsign (h : Hdr) (f : Ops) : State → Host.Outcome State Fault Refusal := issue (.cvsign h f) cvsignIssue
def execRole (h : Hdr) (f : OpsH) : State → Host.Outcome State Fault Refusal := issue (.role h f) (roleIssue f.imm)
def execRdsr (h : Hdr) (f : Ops) : State → Host.Outcome State Fault Refusal := issue (.rdsr h f) rdsrIssue
def execWrsr (h : Hdr) (f : Ops) : State → Host.Outcome State Fault Refusal := issue (.wrsr h f) wrsrIssue
def execDiscard (u lane : Nat) (s : State) : Host.Outcome State Fault Refusal :=
  event (discards s u lane) (fun s => settleGang (s.warp u).gang (endThreads u [lane] .discarded s)) s

end Sys2Proof.Machine
end

