-- ==== Sys2Proof/Machine/Float.lean ====
section
/-! DEFINITION. The floating-point, conversion, quantising and special-function instructions (R118 to R132) and the paired word (R61 to R63). -/

namespace Sys2Proof.Machine

def fmtOf (dbl : Bool) : FloatFmt := if dbl then f64Fmt else f32Fmt
def halfFmt (bf : Bool) : FloatFmt := if bf then bf16Fmt else f16Fmt

def packed3 (g : Nat → Nat → Nat → Nat) (x y z : Nat) : Nat :=
  g (x % 65536) (y % 65536) (z % 65536) + 65536 * g (x / 65536 % 65536) (y / 65536 % 65536) (z / 65536 % 65536)

/-! ## Meanings of R119 to R124 -/

def execFadd (h : Hdr) (r : RndA) (f : Ops) : State → Host.Outcome State Fault Refusal :=
  issue (.fadd h r f) (alu2 (f32Fmt.addR r.full))
def execFmul (h : Hdr) (r : RndA) (f : Ops) : State → Host.Outcome State Fault Refusal :=
  issue (.fmul h r f) (alu2 (f32Fmt.mulR r.full))
def execFfma (h : Hdr) (r : RndA) (f : Ops) : State → Host.Outcome State Fault Refusal :=
  issue (.ffma h r f) (alu3 (f32Fmt.fmaR r.full))
def execFmin (h : Hdr) (f : Ops) : State → Host.Outcome State Fault Refusal :=
  issue (.fmin h f) (alu2 (f32Fmt.minMax false))
def execFmax (h : Hdr) (f : Ops) : State → Host.Outcome State Fault Refusal :=
  issue (.fmax h f) (alu2 (f32Fmt.minMax true))
def execFsetp (h : Hdr) (dbl : Bool) (k : FCond) (f : Ops) : State → Host.Outcome State Fault Refusal :=
  issue (.fsetp h dbl k f) (alu2 fun a b => if (fmtOf dbl).holds k a b then 1 else 0)
def execFcmp (h : Hdr) (dbl : Bool) (k : FCond) (f : Ops) : State → Host.Outcome State Fault Refusal :=
  issue (.fcmp h dbl k f) (alu2 fun a b => if (fmtOf dbl).holds k a b then 0xFFFFFFFF else 0)
def execFrnd (h : Hdr) (r : RndA) (f : Ops) : State → Host.Outcome State Fault Refusal :=
  issue (.frnd h r f) (alu1 (f32Fmt.integral r.full))
def execFclass (h : Hdr) (dbl : Bool) (f : Ops) : State → Host.Outcome State Fault Refusal :=
  issue (.fclass h dbl f) (alu1 (fmtOf dbl).classOf)
def execDadd (h : Hdr) (r : RndA) (f : Ops) : State → Host.Outcome State Fault Refusal :=
  issue (.dadd h r f) (alu2 (f64Fmt.addR r.full))
def execDmul (h : Hdr) (r : RndA) (f : Ops) : State → Host.Outcome State Fault Refusal :=
  issue (.dmul h r f) (alu2 (f64Fmt.mulR r.full))
def execDfma (h : Hdr) (r : RndA) (f : Ops) : State → Host.Outcome State Fault Refusal :=
  issue (.dfma h r f) (alu3 (f64Fmt.fmaR r.full))
def execHadd2 (h : Hdr) (bf : Bool) (r : RndA) (f : Ops) : State → Host.Outcome State Fault Refusal :=
  issue (.hadd2 h bf r f) (alu2 (packed ((halfFmt bf).addR r.full)))
def execHmul2 (h : Hdr) (bf : Bool) (r : RndA) (f : Ops) : State → Host.Outcome State Fault Refusal :=
  issue (.hmul2 h bf r f) (alu2 (packed ((halfFmt bf).mulR r.full)))
def execHfma2 (h : Hdr) (bf : Bool) (r : RndA) (f : Ops) : State → Host.Outcome State Fault Refusal :=
  issue (.hfma2 h bf r f) (alu3 (packed3 ((halfFmt bf).fmaR r.full)))

/-! ## CVT (R125 to R128) -/

/-- What one lane's conversion writes: code, events, and the seed after it (R82, R83). -/
structure Converted where
  lane : Nat
  code : Nat
  events : BitVec 5
  seed : BitVec 16
  deriving DecidableEq, Repr

/-- Write the results of conversions: D, sticky flags and seeds in one pass (R83). -/
def writeConverted (x : Act) (rs : List Converted) (s : State) : State :=
  s.onWarp x.u fun w => each rs (x.writeD (rs.map fun r => (r.lane, r.code)) w) fun r w =>
    w.onThread r.lane fun t => { t.orFlags r.events with seed := r.seed }

def cvtLane (x y : CvtFmt) (ctl subst : Nat) (l : Nat) (seed : BitVec 16) (a : Nat) : Converted :=
  let seed := if ctlRound ctl = .rs then seedStep seed else seed
  let r := convert y ctl subst seed (cvtValue x ctl a)
  { lane := l, code := r.1, events := r.2, seed }

/-- CVT (R128). A uniform one converts once and its events reach every active lane (R41). The one stochastic conversion that D = zr lets be uniform draws from the seed of the lowest active lane, and every active lane's own seed steps: DESIGN CHOICE (log 59; no rule says whose seed steps). -/
def execCvt (h : Hdr) (src dst : CvtFmt) (f : OpsH) : State → Host.Outcome State Fault Refusal :=
  issue (.cvt h src dst f) fun x s =>
    let w := s.warp x.u
    let ctl := if f.b.kind = .imm then f.b.val.toNat else 0
    let lane (l : Nat) : Converted := cvtLane src dst ctl f.imm.toNat l (w.thread l).seed (x.valA w l)
    let once (l : Nat) : Converted := { lane l with code := (lane x.first).code, events := (lane x.first).events }
    writeConverted x (x.act.map (if x.uniform then once else lane)) s

/-! ## QUANT (R89, R129, R130) -/

/-- floor(log2 |x|) of a finite non-zero value. -/
def Num.exponent : Num → Option Int
  | .fin _ n e => if n = 0 then none else some ((n.log2 : Int) + e)
  | .nan | .inf _ => none

/-- R89 step 1: for each element whether it starts a block; `m` the running maximum, `len` the elements of the open block. -/
def blockStarts (t : Nat) : List Num → Option Int → Nat → List Bool
  | [], _, _ => []
  | v :: vs, m, len =>
    let e := v.exponent
    let far := match e, m with
      | some x, some y => decide ((t : Int) < ((x - y).natAbs : Int))
      | _, _ => false
    if len = 0 || len = 64 || far then true :: blockStarts t vs e 1
    else false :: blockStarts t vs (match e, m with
      | some x, some y => some (max x y)
      | some x, none => some x
      | none, m => m) (len + 1)

/-- Magnitude of a finite value as a ratio. -/
def Num.ratio : Num → Nat × Nat
  | .fin _ n e => (n * (pow2 e).1, (pow2 e).2)
  | .nan | .inf _ => (0, 1)

/-- The larger of two ratios. -/
def maxRatio (x y : Nat × Nat) : Nat × Nat := if x.1 * y.2 < y.1 * x.2 then y else x

/-- R89 step 2: the scale of a block. -/
def quantScale (q : Nat × Nat) (vs : List Num) : Nat :=
  let a := vs.foldl (fun m v => maxRatio m v.ratio) (0, 1)
  if a.1 = 0 then 0x38
  else min 0x7E (e4m3Fmt.roundMag .rp false (a.1 * q.2) (a.2 * q.1) 0).1

/-- The elements grouped into blocks by their starts. -/
def intoBlocks {α : Type} : List (α × Bool) → List (List (α × Bool))
  | [] => []
  | x :: xs => match intoBlocks xs with
    | [] => [[x]]
    | b :: bs => match b with
      | (_, true) :: _ => [x] :: b :: bs
      | _ => (x :: b) :: bs

/-- R89 step 3: one element over its scale. -/
def quantElem (f : FloatFmt) (mode : Rnd) (subst scale : Nat) (seed : BitVec 16) (v : Num) : Nat × BitVec 5 :=
  match v with
  | .fin s n e =>
    let (sn, sd) := (e4m3Fmt.value scale).ratio
    f.convFin mode s (n * (pow2 e).1 * sd) ((pow2 e).2 * sn) seed.toNat subst
  | v => f.conv mode seed.toNat subst v

/-- A format word that QUANT takes (R129). -/
def quantWordOk (w : Nat) : Bool := fmtWordOk w && w / 32 % 2 = 0 && w / 256 / 32 % 2 = 1

def execQuant (h : Hdr) (r : Rnd) (f : Ops) : State → Host.Outcome State Fault Refusal :=
  issue (.quant h r f) fun x s =>
    let w := s.warp x.u
    let fw := x.valC w x.first
    if !quantWordOk fw then x.trap x.first { cause := causeArith, info := .ofNat 32 fw } s
    else
      let b := x.valB w x.first
      let src := fmtWordFloat (fw % 64)
      let dst := fmtWordFloat (fw / 256 % 64)
      let q := (Num.ratio (let m := dst.magnitude dst.maxCode
        Num.fin false m.1 m.2))
      let vals := x.act.map fun l => (l, src.value (x.valA w l % 2 ^ (8 * fmtWordBytes (fw % 64))))
      let blocks := intoBlocks (vals.zip (blockStarts (b % 256) (vals.map Prod.snd) none 0))
      let out := blocks.map fun blk =>
        let sc := quantScale q (blk.map fun e => e.1.2)
        blk.map fun e =>
          let l := e.1.1
          let old := (w.thread l).seed
          let seed := if r = .rs then seedStep old else old
          let c := quantElem dst r (b / 256 % 256) sc seed e.1.2
          ({ lane := l, code := (if e.2 then 65536 else 0) + sc * 256 + c.1, events := c.2, seed } : Converted)
      writeConverted x out.flatten s

/-! ## Special functions (R131, R132) -/

def execRcp (h : Hdr) (f : Ops) : State → Host.Outcome State Fault Refusal := issue (.rcp h f) oweResult
def execRsq (h : Hdr) (f : Ops) : State → Host.Outcome State Fault Refusal := issue (.rsq h f) oweResult
def execSqrt (h : Hdr) (f : Ops) : State → Host.Outcome State Fault Refusal := issue (.sqrt h f) oweResult
def execExp2 (h : Hdr) (f : Ops) : State → Host.Outcome State Fault Refusal := issue (.exp2 h f) oweResult
def execLog2 (h : Hdr) (f : Ops) : State → Host.Outcome State Fault Refusal := issue (.log2 h f) oweResult
def execSin (h : Hdr) (f : Ops) : State → Host.Outcome State Fault Refusal := issue (.sin h f) oweResult
def execCos (h : Hdr) (f : Ops) : State → Host.Outcome State Fault Refusal := issue (.cos h f) oweResult
def execTanh (h : Hdr) (f : Ops) : State → Host.Outcome State Fault Refusal := issue (.tanh h f) oweResult

/-- The value an operation of this kind writes (R98, R132). -/
def lateResult (i : Instr) (a b : Nat) : Nat :=
  match i with
  | .idiv _ t _ => iDiv t a b
  | .irem _ t _ => iRem t a b
  | .rcp .. => rcp32 a
  | .rsq .. => rsq32 a
  | .sqrt .. => sqrt32 a
  | .exp2 .. => exp232 a
  | .log2 .. => log232 a
  | .sin .. => sin32 a
  | .cos .. => cos32 a
  | .tanh .. => tanh32 a
  | _ => 0

/-! ## The paired word (R61 to R63, R71) -/

/-- The single operation beside each code of the pairable list. -/
def pairApply (o : PairOp) (a b : Nat) : Nat :=
  match o with
  | .iadd => iAdd 32 a b
  | .isub => iSub 32 a b
  | .imul => iMul 32 a b
  | .imin => iMin .i32 a b
  | .imax => iMax .i32 a b
  | .iminN => iMin .n32 a b
  | .imaxN => iMax .n32 a b
  | .and => Nat.land a b
  | .or => Nat.lor a b
  | .xor => Nat.xor a b
  | .not => notV 32 a
  | .shl => shlV 32 a b
  | .shr => shrV 32 a b
  | .sar => sarV 32 a b
  | .mov => a
  | .popc => popcV 32 a
  | .fadd => f32Fmt.addR .rn a b
  | .fmul => f32Fmt.mulR .rn a b
  | .fmin => f32Fmt.minMax false a b
  | .fmax => f32Fmt.minMax true a b
  | .hadd2 => packed (f16Fmt.addR .rn) a b
  | .hmul2 => packed (f16Fmt.mulR .rn) a b
  | .hadd2bf => packed (bf16Fmt.addR .rn) a b
  | .hmul2bf => packed (bf16Fmt.mulR .rn) a b
  | .iabs => iAbs 32 a
  | .ineg => iNeg 32 a
  | .clz => clzV 32 a
  | .brev => brevV 32 a

def execPairedWord (h : PairHdr) (x y : Half) : State → Host.Outcome State Fault Refusal :=
  issue (.pairedWord h x y) fun act s =>
    let w := s.warp act.u
    let val (p : Half) (l : Nat) : Nat := pairApply p.op (w.vval p.a.toNat l 1) (w.vval p.b.toNat l 1)
    let outs := act.act.map fun l => (l, val x l, val y l)
    s.onWarp act.u fun w => each outs w fun o w =>
      (w.putV x.d.toNat o.1 1 o.2.1).putV y.d.toNat o.1 1 o.2.2

end Sys2Proof.Machine
end

