-- ==== Sys2Proof/Machine/Sync.lean ====
section
/-! DEFINITION. Fences, seals, barriers, barrier objects and counter waits (R157 to R162). -/

namespace Sys2Proof.Machine

/-! ## Fences (R157, R238) -/

/-- The acquire invalidation on the core of the issuing warp. -/
def Act.acquire (x : Act) (s : State) : State := Machine.acquire (s.warpCore (s.warp x.u)) s
/-- The release of the issuing warp's gang. -/
def Act.release (x : Act) (s : State) : State := Machine.release (s.warp x.u).gang s

/-! ## SEAL (R158) -/

/-- SEAL (R158): the record is made once the warp's older memory operations have been performed; until then the bundle is BLOCKED with what it has read. -/
def sealIssue (x : Act) (s : State) : State :=
  let w := s.warp x.u
  let pc := x.valA w x.first
  let vals := w.row x.r.b 16
  if pc % 12 != 0 || (s.warpLaunch w).len ≤ pc || (s.warpGang w).retained.sealNo = 0xFFFFFFFF then
    x.trap x.first { cause := causeBounds } s
  else if w.pendingMem (List.range 64) w.nextOp then
    s.blockLanes x.u x.act (.sealing x.first w.nextOp x.pc (.ofNat 32 pc) vals)
  else sealRecord w.gang (.ofNat 32 pc) vals s

/-! ## Barriers (R159) -/

def barIssue (gang : Bool) (x : Act) (s : State) : State :=
  let w := s.warp x.u
  let s := s.blockLanes x.u x.act (if gang then .gbar w.nextOp else .bar w.nextOp)
  settleGang w.gang s

/-! ## Barrier objects (R160, R161) -/

/-- The object an instruction names: its block and offset, or the trap. -/
def Act.baro (x : Act) (s : State) : Except TrapInfo (Nat × Nat) :=
  let w := s.warp x.u
  let a := x.scrAddr w x.first
  if (scrTarget s w a 1).isSome && a % 32 != 0 then .error { cause := causeAlignment, addr := .ofNat 64 a }
  else match scrTarget s w a 32 with
    | none => .error { cause := causeBounds, addr := .ofNat 64 a }
    | some t => .ok t

/-- Read the object an instruction names, which may hold an uncorrectable error (R364), and which it has named then. -/
def Act.onObject (x : Act) (s : State) (effect : Nat × Nat → State → State) : State :=
  let g := (s.warp x.u).gang
  match x.baro s with
  | .error t => x.trap x.first t s
  | .ok t => if scrBad s g t 24 then consume g (scrWhere s g t) s else effect t (nameObject g t s)

/-- The object a BARO.INIT leaves. -/
def Baro.fresh (n : Nat) : Baro :=
  { bitmap := 0, phase := 0, due := 0, pending := .ofNat 32 n, expected := .ofNat 32 n }

def baroInitIssue (x : Act) (s : State) : State :=
  let w := s.warp x.u
  let n := x.valC w x.first
  match x.baro s with
  | .error t => x.trap x.first t s
  | .ok t =>
    if !countOk n then x.trap x.first { cause := causeBounds } s
    else
      let s := nameObject w.gang t (scrWrite w.gang t ((Baro.fresh n).bytes ++ List.replicate 8 0) s)
      s.onWarp x.u fun w => w.addDone (x.op [] [])

/-- BARO.ARRIVE at issue: an operation of the record that owes D (R161, R163, R293). -/
def baroArriveIssue (x : Act) (s : State) : State :=
  let w := s.warp x.u
  let n := x.valC w x.first
  match x.baro s with
  | .error t => x.trap x.first t s
  | .ok t =>
    if !countOk n then x.trap x.first { cause := causeBounds } s
    else
      let slot : Slot :=
        { lane := x.first, addr := x.scrAddr w x.first, data := .ofNat 128 n, tag := s.tag w x.first (w.seq x.first) }
      startOp x [slot] true (takeSeqs x.u x.act (nameObject w.gang t s))

/-- BARO.WAIT: the bundle is BLOCKED while the phase is the one awaited, read at issue; then the acquire (R161). -/
def baroWaitIssue (x : Act) (s : State) : State :=
  let w := s.warp x.u
  x.onObject s fun t s =>
    let c := BitVec.ofNat 32 (x.valC w x.first)
    if (baroAt s w.gang t).phase = c then s.blockLanes x.u x.act (.baro t.1 t.2 c.toNat) else x.acquire s

/-- BARO.QUERY owes D: the phase is read when the result is written, which no acquire and no wait orders with the thread's other words (R161, R245; log 23). -/
def baroQueryIssue (x : Act) (s : State) : State :=
  let w := s.warp x.u
  match x.baro s with
  | .error t => x.trap x.first t s
  | .ok t =>
    let slot : Slot := { lane := x.first, addr := x.scrAddr w x.first, data := .ofNat 128 (x.valC w x.first) }
    startOp x [slot] true (nameObject w.gang t s)

/-! ## WAITC (R162) -/

/-- The counter a special register of WAITC reads. -/
def counterOf (k : Nat) : Ctr :=
  match k with
  | 0x40 => .mem
  | 0x41 => .copy
  | 0x42 => .mat
  | 0x43 => .coll
  | _ => .edge

/-- WAITC: the active lanes are BLOCKED until the counter reads the threshold or less, both read at issue; then the acquire. -/
def waitcIssue (x : Act) (s : State) : State :=
  let w := s.warp x.u
  let c := counterOf x.r.a.val.toNat
  let n := min 64 (x.valB w x.first)
  if w.count c ≤ n then x.acquire s else s.blockLanes x.u x.act (.count c n)

/-! ## Meanings -/

def execFenceAcq (h : Hdr) (f : Ops) : State → Host.Outcome State Fault Refusal :=
  issue (.fenceAcq h f) fun x s => x.acquire s
def execFenceRel (h : Hdr) (f : Ops) : State → Host.Outcome State Fault Refusal :=
  issue (.fenceRel h f) fun x s => x.release s
def execFenceAcqRel (h : Hdr) (f : Ops) : State → Host.Outcome State Fault Refusal :=
  issue (.fenceAcqRel h f) fun x s => x.acquire (x.release s)
def execSealVersion (h : Hdr) (f : Ops) : State → Host.Outcome State Fault Refusal := issue (.sealVersion h f) sealIssue
def execBar (h : Hdr) (f : Ops) : State → Host.Outcome State Fault Refusal := issue (.bar h f) (barIssue false)
def execGbar (h : Hdr) (f : Ops) : State → Host.Outcome State Fault Refusal := issue (.gbar h f) (barIssue true)
def execBaroInit (h : Hdr) (f : Ops) : State → Host.Outcome State Fault Refusal := issue (.baroInit h f) baroInitIssue
def execBaroArrive (h : Hdr) (f : Ops) : State → Host.Outcome State Fault Refusal :=
  issue (.baroArrive h f) baroArriveIssue
def execBaroWait (h : Hdr) (f : Ops) : State → Host.Outcome State Fault Refusal := issue (.baroWait h f) baroWaitIssue
def execBaroQuery (h : Hdr) (f : Ops) : State → Host.Outcome State Fault Refusal := issue (.baroQuery h f) baroQueryIssue
def execWaitc (h : Hdr) (f : Ops) : State → Host.Outcome State Fault Refusal := issue (.waitc h f) waitcIssue

end Sys2Proof.Machine
end

