-- ==== Sys2Proof/Machine/Copy.lean ====
section
/-! DEFINITION. The tensor copy engine (R185, R186, R188 to R194, R310 to R313, R386): shape records, their checks, the element order, conversion, CRCs, bricks and the scout. -/

namespace Sys2Proof.Machine

/-! ## Shape records (R186) -/

/-- Bits of the shape record. -/
def shapeBits (bs : List Byte) (hi lo : Nat) : Nat := nbits (natOfBytes bs) hi lo

/-- What a shape record says. -/
structure ShapeRec where
  done : Nat
  side : Nat
  crcorg : Nat
  npart : Nat
  root : Nat
  seed : Nat
  subst : Nat
  ctl : Nat
  sfmt : Nat
  gfmt : Nat
  conv : Bool
  crc : Nat
  bk1 : Bool
  cop : Nat
  scout : Nat
  ndims : Nat
  strides : List Nat
  boxes : List Nat
  extents : List Nat
  deriving DecidableEq, Repr

def ShapeRec.ofBytes (bs : List Byte) : ShapeRec :=
  let g := shapeBits bs
  let dim (hi lo d : Nat) : Nat := g (512 + 128 * d + hi) (512 + 128 * d + lo)
  let nd := g 3 0
  let conv := g 76 76 = 1
  { done := g 511 448, side := g 447 384, crcorg := g 383 320, npart := g 319 288, root := g 287 256,
    seed := if g 127 112 = 0 then 1 else g 127 112, subst := g 111 96, ctl := g 95 88,
    sfmt := if conv then g 87 84 else g 83 80, gfmt := g 83 80, conv, crc := g 75 74, bk1 := g 73 73 = 1,
    cop := g 72 70, scout := if g 69 64 = 0 then 4 else g 69 64, ndims := nd,
    strides := (List.range nd).map (dim 127 64)
    boxes := (List.range nd).map (dim 63 32)
    extents := (List.range nd).map (dim 31 0) }

/-- The CVT formats of a record. -/
def ShapeRec.gf (r : ShapeRec) : CvtFmt := (CvtFmt.ofCode r.gfmt).getD .f32
def ShapeRec.sf (r : ShapeRec) : CvtFmt := (CvtFmt.ofCode r.sfmt).getD .f32

/-- Elements of the box. -/
def ShapeRec.count (r : ShapeRec) : Nat := r.boxes.foldl (· * ·) 1

/-- The control is valid for the binary8 side, if any (R126). -/
def ShapeRec.ctlOk (r : ShapeRec) : Bool :=
  r.ctl / 32 ≤ 4 && (if r.gfmt = 8 || r.sfmt = 8 then r.ctl % 8 != 0 else r.ctl % 32 = 0)

/-- The first field that breaks R186 or R189's first two checks: its byte offset, all of them BOUNDS. No rule names a trap for `done`, `side` or `crcorg` that is not the multiple R186 gives; none is raised: DESIGN CHOICE (log 60). -/
def ShapeRec.badField (r : ShapeRec) (bs : List Byte) : Option Nat :=
  let g := shapeBits bs
  let spare := (List.range 8).findSome? fun d =>
    if d < r.ndims then
      (if r.boxes.getD d 0 < 1 || 65536 < r.boxes.getD d 0 then some (64 + 16 * d + 4)
       else if r.extents.getD d 0 = 0 then some (64 + 16 * d) else none)
    else if g (639 + 128 * d) (512 + 128 * d) != 0 then some (64 + 16 * d) else none
  if g 63 4 != 0 then some 0
  else if g 79 77 != 0 then some 9
  else if g 255 128 != 0 then some 16
  else if r.ndims < 1 || 8 < r.ndims then some 0
  else spare.or (if 9 < r.gfmt || 9 < r.sfmt then some 10 else if !r.ctlOk then some 11 else none)

/-! ## A copy -/

inductive CopyForm | g2s | s2g | g2g
  deriving DecidableEq, Repr

/-- A copy with its record and operands. -/
structure Copy where
  form : CopyForm
  r : ShapeRec
  obj : Option Nat
  a : Nat
  base : Nat
  recAt : Nat
  coords : List Nat
  deriving DecidableEq, Repr

def copyForm : Instr → Option CopyForm
  | .tcopyG2s .. => some .g2s
  | .tcopyS2g .. => some .s2g
  | .tcopyG2g .. => some .g2g
  | _ => none

/-- Number made of two registers of an operation. -/
def Op.pair (o : Op) (k : Nat) : Nat := joinRegs (fun j => o.regs.getD j 0) k 2
/-- The barrier object of an engine operation: registers 0 and 1 of its block. -/
def Op.obj (o : Op) : Option Nat := if o.regs.getD 0 0 = 0 then none else some (o.regs.getD 1 0).toNat

def Op.copy (o : Op) : Copy :=
  { form := (copyForm o.ins).getD .g2s, r := .ofBytes o.data, obj := o.obj, a := o.pair 2, base := o.pair 4, recAt := o.pair 6,
    coords := (List.range 8).map fun d => (o.regs.getD (8 + d) 0).toNat }

/-- Bytes of an element on the packed side. -/
def Copy.psize (c : Copy) : Nat := c.r.sf.bytes

/-- The indices of element e, dimension 0 fastest (R190). -/
def indices : List Nat → Nat → List Nat
  | [], _ => []
  | b :: bs, e => (e % b) :: indices bs (e / b)

/-- Position of element e in the tensor. -/
def Copy.pos (c : Copy) (e : Nat) : List Nat := List.zipWith (· + ·) c.coords (indices c.r.boxes e)

def Copy.inside (c : Copy) (e : Nat) : Bool := ((c.pos e).zip c.r.extents).all fun p => decide (p.1 < p.2)

/-- Global address of element e. -/
def Copy.gaddr (c : Copy) (e : Nat) : Nat := (c.base + (List.zipWith (· * ·) (c.pos e) c.r.strides).sum) % 2 ^ 64

/-- Address of element e on the packed side. -/
def Copy.paddr (c : Copy) (e : Nat) : Nat := (c.a + e * c.psize) % 2 ^ 64

/-- Bytes of the elements below e that the copy writes (R160, R192). -/
def Copy.written (c : Copy) (e : Nat) : Nat :=
  if c.form = .s2g then ((List.range e).filter c.inside).length * c.r.gf.bytes else e * c.psize

def Copy.bytes (c : Copy) : Nat := c.written c.r.count

/-- Destination addresses, one per element written. -/
def Copy.dests (c : Copy) : List Nat :=
  if c.form = .s2g then ((List.range c.r.count).filter c.inside).map c.gaddr
  else (List.range c.r.count).map c.paddr

/-- The 4 KiB blocks a copy writes. -/
def Copy.blocks (c : Copy) : List Nat := (c.dests.map fun a => a / 4096).eraseDups

/-- Every block written is written whole and lies at or above the origin (R189): a packed destination is one run of bytes; elements of an `.s2g` copy lie on multiples of their size. -/
def Copy.whole (c : Copy) : Bool :=
  if c.form = .s2g then
    let ds := c.dests.eraseDups
    c.blocks.all fun b => decide (c.r.crcorg ≤ b * 4096) &&
      (ds.filter fun a => a / 4096 == b).length * c.r.gf.bytes == 4096
  else c.a % 4096 == 0 && c.r.count * c.psize % 4096 == 0 && decide (c.r.crcorg ≤ c.a)

/-- The checks of R189 after those of the record's own fields: cause, offset of the field, and the address. A block that is not written whole names the offset of `crcorg`, 40: DESIGN CHOICE (log 60). -/
def Copy.check (s : State) (w : Warp) (c : Copy) : Option TrapInfo :=
  let r := c.r
  let bounds (off : Nat) : Option TrapInfo := some { cause := causeBounds, info := .ofNat 32 off }
  let at' (cause : Word) (a : Nat) : Option TrapInfo := some { cause, addr := .ofNat 64 a, info := 0xFFFF }
  let badStride := (List.range r.ndims).find? fun d => !r.bk1 && r.strides.getD d 0 % r.gf.bytes != 0
  let badBox := (List.range 3).find? fun d => r.boxes.getD d 0 % 8 != 0
  if c.base % r.gf.bytes != 0 then at' causeAlignment c.base
  else match badStride with
    | some d => some { cause := causeAlignment, info := .ofNat 32 (64 + 16 * d + 8) }
    | none =>
      if c.form != .g2g && (scrTarget s w c.a (r.count * c.psize)).isNone then at' causeBounds c.a
      else if (r.crc = 1 && c.form = .g2s) || (r.crc = 2 && c.form = .s2g) || (r.crc = 3 && c.form != .g2g) then bounds 9
      else if r.crc % 2 = 1 && !c.whole then bounds 40
      else if !r.bk1 then none
      else if c.form = .s2g then bounds 9
      else if r.gfmt != 5 then bounds 10
      else if r.ndims != 3 then bounds 0
      else match badBox with
        | some d => bounds (64 + 16 * d + 4)
        | none =>
          if (c.coords.take 3).any fun x => x % 8 != 0 then some { cause := causeBounds, info := 0xFFFF }
          else if c.base % 16 != 0 then at' causeAlignment c.base
          else none

/-! ## Stops of an engine -/

/-- Why an engine stops. -/
inductive Stop
  /-- A page that cannot be reached. -/
  | page (va kind : Nat) (x : Xlat)
  | trap (t : TrapInfo)
  | poison (w : ErrWhere)
  deriving DecidableEq, Repr

/-- The pending batches and reports of a granule found by an operation's own scout (R310). -/
def scoutPending (s : State) (r : OpRef) (va : Nat) : Bool :=
  let page := va / 65536 * 65536
  (s.faults.any fun f => f.op == r && f.kind == 6 && f.va / 65536 * 65536 == page) ||
    s.batches.any fun b => decide (r ∈ b.ops) && b.pages.any fun p => p.2.2.1 / 65536 * 65536 == page && p.2.2.2.1 == 6

/-- An engine operation stops: it waits, faults, ends in an asynchronous trap, or consumes an error (R185, R192, R310). -/
def engineStops (r : OpRef) (x : Stop) (s : State) : State :=
  match s.opOf r with
  | none => s
  | some o =>
    let w := s.warp r.warp
    let lane := (lanesOf o.lanes).headD 0
    match x with
    | .trap t => asyncTrap r.warp lane o.pc t (s.finishOp r)
    | .poison e => consume w.gang e (s.finishOp r)
    | .page va kind .notPresent =>
      if decide (va / 65536 * 65536 ∈ o.run.refused) then
        asyncTrap r.warp lane o.pc { cause := causeTranslation, addr := .ofNat 64 va } (s.finishOp r)
      else if scoutPending s r va then s.onOp r fun o => { o with run := { o.run with waiting := some (va / 65536 * 65536) } }
      else opFail r lane kind va true 0 .notPresent s
    | .page va kind e => opFail r lane kind va true 0 e s

/-- The first address of each 64 KiB page that `n` bytes from `va` touch. -/
def pageStarts (va n : Nat) : List Nat :=
  (List.range ((va + n - 1) / 65536 + 1 - va / 65536)).map fun j => if j = 0 then va else (va / 65536 + j) * 65536

/-- What stops an engine's access before it is made: an address that is not canonical, or a granule its scout has had refused, present by now or not (R106, R310). -/
def engineBars (p : Party) (va n kind : Nat) : Option Stop :=
  if !canonical va || !canonical (va + n - 1) then
    some (.trap { cause := causeTranslation, addr := .ofNat 64 (if canonical va then 2 ^ 60 else va) })
  else if p.refused = [] then none
  else ((pageStarts va n).find? fun a => p.refused.contains (a / 65536 * 65536)).map fun a => .page a kind .notPresent

/-- Engine reads. -/
def engineRead (p : Party) (va n : Nat) (s : State) : Except Stop (List Byte) × State :=
  match engineBars p va n 4 with
  | some x => (.error x, s)
  | none => match readFor p va n s with
    | (.bytes bs, s) => (.ok bs, s)
    | (.fail a x, s) => (.error (.page a 4 x), s)
    | (.poison a, s) => (.error (.poison (poisonWhere s (p.sp.loc a))), s)
    | (.tagFails, s) => (.ok [], s)

/-- Engine writes: plain stores, once every page has translated. -/
def engineWrite (p : Party) (va : Nat) (bs : List Byte) (s : State) : Option Stop × State :=
  match engineBars p va bs.length 5 with
  | some x => (some x, s)
  | none =>
    match probeAll p.sp bs.length .write ((pageStarts va bs.length).map fun a => (0, a)) s with
    | (some (_, a, x), s) => (some (.page a 5 x), s)
    | (none, s) => match writeEngine p va bs s with
      | (none, s) => (none, s)
      | (some x, s) => (some (.page va 5 x), s)

/-- The party of an engine that works for a warp's operation. -/
def State.engineParty (s : State) (w : Warp) (o : Op) : Party := { s.party w with core := none, refused := o.run.refused }

/-! ## Sources -/

/-- What the engine keeps at hand: chunks deciphered and bricks decoded. -/
structure CopyHand where
  chunks : List (Nat × List Byte) := []
  bricks : List (Nat × List Nat) := []
  deriving DecidableEq, Repr

/-- The key slot whose sealed range holds an address (R386). -/
def sealedSlot (s : State) (world va : Nat) : Option Nat :=
  (List.range 16).find? fun k =>
    let x := s.keySlots.getD k {}
    k != 0 && x.serves world && decide (x.skbase.toNat ≤ va) && decide (va < x.skbase.toNat + 2048 * x.sklen.toNat)

/-- Source bytes of a copy, deciphered where they are sealed (R386). -/
def sourceBytes (p : Party) (va n : Nat) (h : CopyHand) (s : State) : Except Stop (List Byte × CopyHand) × State :=
  match sealedSlot s p.sp.world va with
  | none => (match engineRead p va n s with
    | (.ok bs, s) => (.ok (bs, h), s)
    | (.error x, s) => (.error x, s))
  | some k =>
    let slot := s.keySlots.getD k {}
    let i := (va - slot.skbase.toNat) / 2048
    let chunk := slot.skbase.toNat + 2048 * i
    match h.chunks.find? fun c => c.1 == chunk with
    | some c => (.ok ((c.2.drop (va - chunk)).take n, h), s)
    | none =>
      match engineRead p chunk 2048 s with
      | (.error x, s) => (.error x, s)
      | (.ok ct, s) => (match engineRead p (slot.sktab.toNat + 32 * i) 32 s with
        | (.error x, s) => (.error x, s)
        | (.ok e, s) => (match openChunk slot i ct e with
          | none => (.error (.trap { cause := causePermission, addr := .ofNat 64 chunk, info := .ofNat 32 k }), s)
          | some pt => (.ok ((pt.drop (va - chunk)).take n, { h with chunks := (chunk, pt) :: h.chunks }), s)))

/-- Source bytes that may reach over several chunks, sixteen at a time. -/
def sourceRange (p : Party) : Nat → Nat → CopyHand → State → Except Stop (List Byte × CopyHand) × State
  | _, 0, h, s => (.ok ([], h), s)
  | va, n + 1, h, s =>
    match sourceBytes p va 16 h s with
    | (.error x, s) => (.error x, s)
    | (.ok (bs, h), s) => match sourceRange p (va + 16) n h s with
      | (.ok (rest, h), s) => (.ok (bs ++ rest, h), s)
      | x => x

/-- Address of the sidecar entry of a block (R193). A checked source block that lies below `crcorg` has the entry that the arithmetic modulo 2^64 gives, and `badblk` its number likewise: DESIGN CHOICE (log 60). -/
def Copy.sidecar (c : Copy) (block : Nat) : Nat :=
  (c.r.side + 8 * ((block * 4096 + 2 ^ 64 - c.r.crcorg) % 2 ^ 64 / 4096)) % 2 ^ 64

/-- Check the CRC of a source block that is touched for the first time (R193). -/
def checkBlock (p : Party) (c : Copy) (va : Nat) (run : CopyRun) (h : CopyHand) (s : State) :
    Except Stop (CopyRun × CopyHand) × State :=
  let b := va / 4096
  if c.r.crc < 2 || decide (b ∈ run.seen) then (.ok (run, h), s)
  else match sourceBytes p (b * 4096) 2048 h s with
    | (.error x, s) => (.error x, s)
    | (.ok (lo, h), s) => (match sourceBytes p (b * 4096 + 2048) 2048 h s with
      | (.error x, s) => (.error x, s)
      | (.ok (hi, h), s) => (match engineRead p (c.sidecar b) 8 s with
        | (.error x, s) => (.error x, s)
        | (.ok e, s) =>
          let ok := (crc64 (lo ++ hi)).toNat == natOfBytes e
          let idx := (b * 4096 + 2 ^ 64 - c.r.crcorg) % 2 ^ 64 / 4096
          let run := { run with
            seen := b :: run.seen
            crcBad := if ok then run.crcBad else min (run.crcBad + 1) 0xFFFFFFFF
            badBlk := if ok then run.badBlk else some (run.badBlk.getD idx) }
          (.ok (run, h), s)))

/-- Check every block of a range of source bytes. -/
def checkBlocks (p : Party) (c : Copy) : List Nat → CopyRun → CopyHand → State → Except Stop (CopyRun × CopyHand) × State
  | [], run, h, s => (.ok (run, h), s)
  | va :: vas, run, h, s =>
    match checkBlock p c va run h s with
    | (.ok (run, h), s) => checkBlocks p c vas run h s
    | x => x

/-! ## Bricks (R194, R311 to R313) -/

/-- The 512 voxels of coded deltas. -/
def brickVoxels (base wd : Nat) (bs : List Byte) : List Nat :=
  let x := natOfBytes bs
  (List.range 512).map fun v => codeOf 32 ((base : Int) + intOf true wd (x / 2 ^ (wd * v) % 2 ^ wd))

/-- The brick at a table address: its voxels, or canonical NaN where it is malformed. -/
def readBrick (p : Party) (c : Copy) (entry : Nat) (run : CopyRun) (h : CopyHand) (s : State) :
    Except Stop (List Nat × CopyRun × CopyHand) × State :=
  match h.bricks.find? fun b => b.1 == entry with
  | some b => (.ok (b.2, run, h), s)
  | none =>
    match sourceBytes p entry 16 h s with
    | (.error x, s) => (.error x, s)
    | (.ok (e, h), s) =>
      let x := natOfBytes e
      let wd := nbits x 31 26
      let base := nbits x 63 32
      let addr := nbits x 127 64
      let keep (run : CopyRun) (h : CopyHand) (vs : List Nat) (s : State) :
          Except Stop (List Nat × CopyRun × CopyHand) × State :=
        (.ok (vs, run, { h with bricks := (entry, vs) :: h.bricks }), s)
      if 32 < wd || nbits x 25 0 != 0 || (wd != 0 && (!canonical addr || addr % 16 != 0)) then
        keep { run with badBricks := if entry ∈ run.badBricks then run.badBricks else entry :: run.badBricks } h
          (List.replicate 512 0x7FC00000) s
      else if wd = 0 then keep run h (List.replicate 512 base) s
      else match checkBlocks p c ((List.range (64 * wd)).map fun j => addr + j) run h s with
        | (.error x, s) => (.error x, s)
        | (.ok (run, h), s) => match sourceRange p addr (4 * wd) h s with
          | (.error x, s) => (.error x, s)
          | (.ok (bs, h), s) => keep run h (brickVoxels base wd bs) s

/-- The table entry of the brick that holds an element (R194). -/
def Copy.brickEntry (c : Copy) (e : Nat) : Nat :=
  let q (d : Nat) : Nat := (c.pos e).getD d 0
  let nb (d : Nat) : Nat := (c.r.extents.getD d 0 + 7) / 8
  (c.base + 16 * (q 0 / 8 + nb 0 * (q 1 / 8 + nb 1 * (q 2 / 8)))) % 2 ^ 64

/-- Source value of an element inside the tensor. -/
def sourceElem (p : Party) (c : Copy) (e : Nat) (run : CopyRun) (h : CopyHand) (s : State) :
    Except Stop (Nat × CopyRun × CopyHand) × State :=
  if c.r.bk1 then
    let q (d : Nat) : Nat := (c.pos e).getD d 0
    match readBrick p c (c.brickEntry e) run h s with
    | (.error x, s) => (.error x, s)
    | (.ok (vs, run, h), s) => (.ok (vs.getD (q 0 % 8 + 8 * (q 1 % 8) + 64 * (q 2 % 8)) 0, run, h), s)
  else
    match checkBlocks p c [c.gaddr e] run h s with
    | (.error x, s) => (.error x, s)
    | (.ok (run, h), s) => match sourceBytes p (c.gaddr e) c.r.gf.bytes h s with
      | (.error x, s) => (.error x, s)
      | (.ok (bs, h), s) => (.ok (natOfBytes bs, run, h), s)

/-- Convert an element (R190): the code, and the run with its seed and flags. Between two binary8 codes the bits stay, and under `.rs` the seed steps as for every converted element (R83). -/
def Copy.convert (c : Copy) (x y : CvtFmt) (v : Nat) (run : CopyRun) : Nat × CopyRun :=
  let seed := if ctlRound c.r.ctl = .rs then seedStep run.seed else run.seed
  if !c.r.conv then (v, run)
  else if x = .b8 && y = .b8 then (v, { run with seed })
  else
    let r := Machine.convert y c.r.ctl c.r.subst seed (cvtValue x c.r.ctl v)
    (r.1, { run with seed, flags := run.flags ||| r.2 })

/-- Count bytes down on the object of an operation, up to a total (R192, R285 rule 5). -/
def countTo (r : OpRef) (total : Nat) (s : State) : State :=
  match s.opOf r with
  | none => s
  | some o =>
    let w := s.warp r.warp
    if total ≤ o.prog then s
    else
      let s := s.onOp r fun o => { o with prog := total }
      match o.obj.bind fun a => baroOf s w a with
      | some t => baroCount w.gang t (total - o.prog) s
      | none => s

/-- Write one element of the destination; the bytes are kept for the CRCs. -/
def putElem (p : Party) (w : Warp) (c : Copy) (e v : Nat) (run : CopyRun) (s : State) : Option Stop × CopyRun × State :=
  let n := if c.form = .s2g then c.r.gf.bytes else c.psize
  let bs := bytesOfNat n v
  match c.form with
  | .g2s =>
    (match scrTarget s w (c.a + e * n) n with
    | some t => (none, run, scrWrite w.gang t bs s)
    | none => (some (.trap { cause := causeBounds, addr := .ofNat 64 c.a, info := 0xFFFF }), run, s))
  | _ =>
    let a := if c.form = .s2g then c.gaddr e else c.paddr e
    match engineWrite p a bs s with
    | (some x, s) => (some x, run, s)
    | (none, s) => (none, if c.r.crc % 2 = 1 then { run with out := run.out.setBytes a bs } else run, s)

/-- The packed element of an `.s2g` copy. -/
def packedElem (s : State) (w : Warp) (c : Copy) (e : Nat) : Except Stop Nat :=
  match scrTarget s w (c.a + e * c.psize) c.psize with
  | none => .error (.trap { cause := causeBounds, addr := .ofNat 64 c.a, info := 0xFFFF })
  | some t =>
    if scrBad s w.gang t c.psize then .error (.poison (scrWhere s w.gang t))
    else .ok (natOfBytes (scrRead s w.gang t c.psize))

/-- One element (R190). One outside the extent of an `.s2g` copy steps the seed and has no events. -/
def copyElem (p : Party) (w : Warp) (c : Copy) (e : Nat) (run : CopyRun) (h : CopyHand) (s : State) :
    Option Stop × CopyRun × CopyHand × State :=
  match c.form with
  | .s2g =>
    (match packedElem s w c e with
    | .error x => (some x, run, h, s)
    | .ok v =>
      let (v, next) := c.convert c.r.sf c.r.gf v run
      if !c.inside e then (none, { next with flags := run.flags }, h, s)
      else match putElem p w c e v next s with
        | (some x, _, s) => (some x, run, h, s)
        | (none, next, s) => (none, next, h, s))
  | _ =>
    if !c.inside e then
      match putElem p w c e 0 run s with
      | (some x, _, s) => (some x, run, h, s)
      | (none, run, s) => (none, run, h, s)
    else match sourceElem p c e run h s with
      | (.error x, s) => (some x, run, h, s)
      | (.ok (v, run, h), s) =>
        let (v, next) := c.convert c.r.gf c.r.sf v run
        match putElem p w c e v next s with
        | (some x, _, s) => (some x, run, h, s)
        | (none, next, s) => (none, next, h, s)

/-- The elements from `run.elem` on; bytes are counted down as they are in place, but for the last element's (R191, R192). -/
def copyElems (r : OpRef) (p : Party) (w : Warp) (c : Copy) : Nat → CopyRun → CopyHand → State → Option Stop × State
  | 0, run, _, s => (none, s.onOp r fun o => { o with run })
  | n + 1, run, h, s =>
    match copyElem p w c run.elem run h s with
    | (some x, run, _, s) => (some x, s.onOp r fun o => { o with run })
    | (none, run, h, s) =>
      let s := if n = 0 then s else countTo r (c.written (run.elem + 1)) s
      copyElems r p w c n { run with elem := run.elem + 1 } h s

/-! ## Start -/

/-- Units a copy holds (R192, R266): 0 for one that is not wide. -/
def Copy.units (s : State) (cluster : Nat) (c : Copy) : Nat :=
  let n := c.r.count * c.r.gf.bytes
  if n ≤ 65536 then 0 else min (min ((n + 65535) / 65536) 64) (s.budget cluster)

/-- The declaration on the object, once (R160). -/
def declareOn (r : OpRef) (n : Nat) (s : State) : State :=
  match s.opOf r with
  | none => s
  | some o =>
    let w := s.warp r.warp
    if o.decl then s
    else
      let s := s.onOp r fun o => { o with decl := true }
      match o.obj.bind fun a => baroOf s w a with
      | some t => baroDeclare w.gang t n s
      | none => s

/-- An engine reads its shape record: its 192 bytes, or why not; a record that reaches beyond the canonical addresses faults at the first of those (R106, R189). -/
def readRecord (p : Party) (a : Nat) (s : State) : Except Stop (List Byte) × State :=
  if a % 64 != 0 then (.error (.trap { cause := causeAlignment, addr := .ofNat 64 a, info := 0xFFFF }), s)
  else if 2 ^ 60 < a + 192 then (.error (.trap { cause := causeTranslation, addr := .ofNat 64 (2 ^ 60), info := 0xFFFF }), s)
  else match readFor p a 192 s with
    | (.bytes bs, s) => (.ok bs, s)
    | (.fail va x, s) =>
      (match x with
      | .notPresent | .migrating => (.error (.page va 4 x), s)
      | .poisoned _ => (.error (.poison (poisonWhere s (p.sp.loc va))), s)
      | _ => (.error (.trap { cause := causePermission, addr := .ofNat 64 va, info := 0xFFFF }), s))
    | (.poison va, s) => (.error (.poison (poisonWhere s (p.sp.loc va))), s)
    | (.tagFails, s) => (.ok [], s)

/-- A record's fault in a context that takes TRANSLATION at once names the record (R189). -/
def recordStops (r : OpRef) (x : Stop) (s : State) : State :=
  match x with
  | .page va _ .notPresent =>
    if fastFault s (s.space (s.warp r.warp)).asid then
      engineStops r (.trap { cause := causeTranslation, addr := .ofNat 64 va, info := 0xFFFF }) s
    else engineStops r x s
  | .page va kind e => (match s.opOf r with
    | some o => opFail r ((lanesOf o.lanes).headD 0) kind va true 0xFFFF e s
    | none => s)
  | x => engineStops r x s

/-- The engine reads and checks the record, declares, and asks for leave (R189, R192). -/
def copyStart (r : OpRef) (s : State) : State :=
  match s.opOf r with
  | none => s
  | some o =>
    let w := s.warp r.warp
    match readRecord (s.engineParty w o) o.copy.recAt s with
    | (.error x, s) => recordStops r x s
    | (.ok bs, s) =>
      let c := { o with data := bs }.copy
      match (c.r.badField bs).map (fun f => ({ cause := causeBounds, info := .ofNat 32 f } : TrapInfo)) |>.or (c.check s w) with
      | some t => engineStops r (.trap t) s
      | none =>
        let s := s.onOp r fun o => { o with data := bs, run := { o.run with seed := .ofNat 16 c.r.seed } }
        let s := declareOn r c.bytes s
        let n := c.units s (s.warpGang w).cluster
        if n = 0 then s else s.requestLeave w (.engine r n)

/-- A request for units, or units held, stand for an operation. -/
def unitsAsked (s : State) (r : OpRef) : Bool :=
  holdsUnits s r || s.clusters.any fun c => c.requests.any fun q => match q.2 with
    | .engine o _ => o == r
    | .pool .. | .collective .. => false

/-! ## The engine's events -/

/-- What an operation waits for of its scout's batches has been decided (R310). -/
def scoutDecided (s : State) (r : OpRef) (o : Op) : Bool :=
  match o.run.waiting with
  | some p => !scoutPending s r p
  | none => true

/-- An engine operation may act: its order allows it and what it waited for has been decided. -/
def engineReady (s : State) (r : OpRef) (o : Op) : Bool := opReady s r o && scoutDecided s r o

def copyReady (s : State) (r : OpRef) : Bool :=
  match s.opOf r with
  | none => false
  | some o =>
    (copyForm o.ins).isSome && engineReady s r o &&
      (o.data = [] || (decide (o.run.elem < o.copy.r.count) &&
        (o.copy.units s (s.gang (s.warp r.warp).gang).cluster = 0 || holdsUnits s r)))

/-- The engine reads the record when it has not yet, then moves elements until it stops or is done. -/
def copyRuns (r : OpRef) (s : State) : State :=
  match s.opOf r with
  | none => s
  | some o =>
    if o.data = [] then copyStart r s
    else
      let w := s.warp r.warp
      let run := { o.run with waiting := none }
      match copyElems r (s.engineParty w o) w o.copy (o.copy.r.count - o.run.elem) run {} s with
      | (none, s) => s
      | (some x, s) => engineStops r x s

def copyDone (s : State) (r : OpRef) : Bool :=
  match s.opOf r with
  | none => false
  | some o => (copyForm o.ins).isSome && engineReady s r o && o.data != [] && decide (o.copy.r.count ≤ o.run.elem)

/-- Sidecar entries of the blocks written. -/
def putSidecar (p : Party) (c : Copy) (out : Memory) : List Nat → State → Option Stop × State
  | [], s => (none, s)
  | b :: bs, s =>
    match engineWrite p (c.sidecar b) (bytesOfNat 8 (crc64 (out.bytes (b * 4096) 4096)).toNat) s with
    | (none, s) => putSidecar p c out bs s
    | x => x

/-- The completion record (R191). -/
def copyRecord (run : CopyRun) : List Byte :=
  bytesOfNat 16 (run.seed.toNat * 2 ^ 112 + min run.badBricks.length 65535 * 2 ^ 96 + min run.crcBad 0xFFFFFFFF * 2 ^ 64 +
    run.badBlk.getD 0xFFFFFFFF % 2 ^ 32 * 2 ^ 32 + run.flags.toNat)

/-- Sidecar and completion record, then the final count-down and the retirement of oc.copy (R191 to R193). -/
def copyCompletes (r : OpRef) (s : State) : State :=
  match s.opOf r with
  | none => s
  | some o =>
    let w := s.warp r.warp
    let p := s.engineParty w o
    let c := o.copy
    match putSidecar p c o.run.out (if c.r.crc % 2 = 1 then c.blocks else []) s with
    | (some x, s) => engineStops r x s
    | (none, s) =>
      match (if c.r.done = 0 then (none, s) else engineWrite p c.r.done (copyRecord o.run) s) with
      | (some x, s) => engineStops r x s
      | (none, s) => (countTo r c.bytes s).finishOp r

/-! ## Issue -/

/-- Checks on operands of engines (R143, R189): global addresses; then of the scratchpad addresses with their sizes and alignments, that each lies in scratchpad, its alignment, and that its last byte does. -/
def engineCheck (s : State) (w : Warp) (globals : List Nat) (scr : List (Nat × Nat × Nat)) : Option TrapInfo :=
  let bad (p : Nat × Nat × Nat → Bool) (cause : Word) : Option TrapInfo :=
    (scr.find? p).map fun x => { cause, addr := .ofNat 64 x.1 }
  ((globals.find? fun a => !canonical a).map fun a => ({ cause := causeTranslation, addr := .ofNat 64 a } : TrapInfo)).or
    ((bad (fun x => (scrTarget s w x.1 1).isNone) causeBounds).or
      ((bad (fun x => x.1 % x.2.2 != 0) causeAlignment).or (bad (fun x => (scrTarget s w x.1 x.2.1).isNone) causeBounds)))

/-- A barrier object named by an operand: its address, none for `zr`. -/
def objOf (o : Operand) (v : Nat) : Option Nat := if o.kind = .zr then none else some v

/-- Registers 0 and 1 of an engine's operand block. -/
def objRegs (o : Option Nat) : List Word := match o with
  | some a => [1, .ofNat 32 a]
  | none => [0, 0]

def pairRegs (v : Nat) : List Word := [.ofNat 32 v, .ofNat 32 (v / 2 ^ 32)]

/-- The engine takes an operation just issued at once when its order allows it. -/
def startNow (start : OpRef → State → State) (u : Nat) (s : State) : State :=
  let r : OpRef := { warp := u, op := (s.warp u).nextOp - 1 }
  match s.opOf r with
  | some o => if opReady s r o then start r s else s
  | none => s

/-- TCOPY at issue (R185, R188, R189). -/
def copyIssue (form : CopyForm) (x : Act) (s : State) : State :=
  let w := s.warp x.u
  match x.act with
  | [l] =>
    let obj := objOf x.r.d (x.valD w l)
    let a := x.valA w l
    let base := x.valB w l
    let regs := w.row x.r.c 10
    let recAt := joinRegs (fun j => regs.getD j 0) 0 2
    let scr := (obj.map fun b => (b, 32, 32)).toList ++ (if form = .g2g then [] else [(a, 1, 16)])
    (match engineCheck s w (base :: recAt :: (if form = .g2g then [a] else [])) scr with
    | some t => x.trap l t s
    | none =>
      let s := (s.addOp x.u (x.op [] (objRegs obj ++ pairRegs a ++ pairRegs base ++ regs))).onWarp x.u x.holdD
      startNow copyStart x.u s)
  | _ :: second :: _ => x.trap second { cause := causeBounds, info := 1 } s
  | [] => s

/-! ## The scout (R310) -/

/-- Granules in the order of first touch by a list of addresses. -/
def granules (as : List Nat) : List Nat := (as.map fun a => a / 65536 * 65536).eraseDups

/-- Addresses that a read of source bytes touches: where they are sealed, their chunk and its entry (R386). -/
def sealTouches (s : State) (world va : Nat) : List Nat :=
  match sealedSlot s world va with
  | none => [va]
  | some k =>
    let slot := s.keySlots.getD k {}
    let i := (va - slot.skbase.toNat) / 2048
    [slot.skbase.toNat + 2048 * i, (slot.sktab.toNat + 32 * i) % 2 ^ 64]

/-- Addresses that the check of a source byte's block touches (R193). -/
def Copy.checkTouches (c : Copy) (s : State) (world va : Nat) : List Nat :=
  if c.r.crc < 2 then []
  else sealTouches s world (va / 4096 * 4096) ++ sealTouches s world (va / 4096 * 4096 + 2048) ++ [c.sidecar (va / 4096)]

/-- Addresses that reading a brick touches: its table entry and, where that can be read, its deltas. -/
def Copy.brickTouches (c : Copy) (p : Party) (entry : Nat) (s : State) : List Nat :=
  let deltas := match (sourceBytes p entry 16 {} s).1 with
    | .ok (e, _) =>
      let x := natOfBytes e
      let wd := nbits x 31 26
      let addr := nbits x 127 64
      if wd = 0 || 32 < wd then [] else c.checkTouches s p.sp.world addr ++ sealTouches s p.sp.world addr ++ sealTouches s p.sp.world (addr + 64 * wd - 1)
    | .error _ => []
  sealTouches s p.sp.world entry ++ deltas

/-- Addresses of global memory that an element reads. -/
def Copy.sources (c : Copy) (p : Party) (e : Nat) (s : State) : List Nat :=
  if c.form = .s2g || !c.inside e then []
  else if c.r.bk1 then c.brickTouches p (c.brickEntry e) s
  else c.checkTouches s p.sp.world (c.gaddr e) ++ sealTouches s p.sp.world (c.gaddr e)

/-- Addresses of global memory that an element touches, the source before the destination. -/
def Copy.touches (c : Copy) (p : Party) (e : Nat) (s : State) : List Nat :=
  c.sources p e s ++ (match c.form with
    | .g2s => []
    | .s2g => if c.inside e then [c.gaddr e] else []
    | .g2g => [c.paddr e])

/-- Granules a copy still has to touch, in the order of first touch: its elements', then those of the sidecar entries and of the completion record. -/
def Copy.ahead (c : Copy) (p : Party) (e : Nat) (s : State) : List Nat :=
  granules (((List.range (c.r.count - e)).map fun j => c.touches p (e + j) s).flatten ++
    (if c.r.crc % 2 = 1 then c.blocks.map c.sidecar else []) ++ (if c.r.done = 0 then [] else [c.r.done]))

/-- The granules a scout may probe for a copy: at most `scout` ahead. -/
def copyScouts (s : State) (w : Warp) (o : Op) : List Nat :=
  if o.data = [] then []
  else ((o.copy.ahead (s.engineParty w o) o.run.elem s).take (o.copy.r.scout + 1)).filter fun g => !o.run.scouted.contains g

/-- A copy uses a key slot: some source byte that it still has to read lies in the slot's sealed range; one that has not read its record may (R226, R386). -/
def copyUsesKey (s : State) (k : Nat) (w : Warp) (o : Op) : Bool :=
  let p := s.engineParty w o
  let c := o.copy
  !o.finished && (match copyForm o.ins with
    | none | some .s2g => false
    | some _ => (s.keySlots.getD k {}).serves p.sp.world && (o.data = [] ||
        (List.range (c.r.count - o.run.elem)).any fun j =>
          (c.sources p (o.run.elem + j) s).any fun a => sealedSlot s p.sp.world a == some k))

def isEmit (i : Instr) : Bool :=
  match i with
  | .emit .. => true
  | _ => false

/-- A probe (R310): a granule that is not present is reported in a batch of one; the engine goes on. -/
def scoutProbes (r : OpRef) (va : Nat) (s : State) : State :=
  match s.opOf r with
  | none => s
  | some _ =>
    let sp := s.space (s.warp r.warp)
    let s := s.onOp r fun o => { o with run := { o.run with scouted := va :: o.run.scouted } }
    if !canonical va then s
    else match translate (sp.loc va) .read false s with
      | (.notPresent, s) =>
        if fastFault s sp.asid then s
        else { s with faults := s.faults ++ [{ op := r, world := sp.world, asid := sp.asid, va, kind := 6 }] }
      | (_, s) => s

/-! ## Meanings -/

def execTcopyG2s (h : Hdr) (f : Ops) : State → Host.Outcome State Fault Refusal := issue (.tcopyG2s h f) (copyIssue .g2s)
def execTcopyS2g (h : Hdr) (f : Ops) : State → Host.Outcome State Fault Refusal := issue (.tcopyS2g h f) (copyIssue .s2g)
def execTcopyG2g (h : Hdr) (f : Ops) : State → Host.Outcome State Fault Refusal := issue (.tcopyG2g h f) (copyIssue .g2g)
def execCopyEngineRun (o : OpRef) (s : State) : Host.Outcome State Fault Refusal := event (copyReady s o) (copyRuns o) s
def execCopyComplete (o : OpRef) (s : State) : Host.Outcome State Fault Refusal := event (copyDone s o) (copyCompletes o) s

end Sys2Proof.Machine
end

