-- ==== Sys2Proof/Machine/Lane.lean ====
section
/-! DEFINITION. The cross-lane instructions (R133 to R140): the participating lanes are the active lanes of the bundle. -/

namespace Sys2Proof.Machine

/-- Source lane of lane l in segments of ws (R134). -/
def laneSource (k : LaneFn) (ws l b : Nat) : Nat :=
  let pos := l % ws
  let base := l - pos
  match k with
  | .pick => base + b % ws
  | .rot => base + (pos + b) % ws
  | .lo => if pos < b then l else l - b
  | .hi => if ws - pos ≤ b then l else l + b
  | .xor => base + Nat.xor pos (b % ws)
  | .rev => base + ws - 1 - pos

def execXlane (h : Hdr) (k : LaneFn) (f : Ops) : State → Host.Outcome State Fault Refusal :=
  issue (.xlane h k f) fun x s =>
    let w := s.warp x.u
    let ws := if f.c.kind = .zr then w.width else min f.c.val.toNat w.width
    let outs := x.act.map fun l =>
      let m := laneSource k ws l (x.valB w l)
      (l, if decide (m ∈ x.act) then x.valA w m else x.valA w l)
    s.onWarp x.u (x.writeD outs)

/-- The value POLL gives every participating lane (R135). -/
def pollValue (k : PollOp) (ps : List (Nat × Bool)) : Nat :=
  let all := ps.all Prod.snd
  let some' := ps.any Prod.snd
  match k with
  | .and => if all then 1 else 0
  | .or => if some' then 1 else 0
  | .eq => if all || !some' then 1 else 0
  | .mask => (maskOf ((ps.filter Prod.snd).map Prod.fst)).toNat
  | .cnt => (ps.filter Prod.snd).length

def execPoll (h : Hdr) (k : PollOp) (f : Ops) : State → Host.Outcome State Fault Refusal :=
  issue (.poll h k f) fun x s =>
    let w := s.warp x.u
    let v := pollValue k (x.act.map fun l => (l, x.valA w l = 1))
    s.onWarp x.u (x.writeD (x.act.map fun l => (l, v)))

/-- One node's operation (R136, R137). -/
def redApply (o : RedOp) (t : RedTy) (a b : Nat) : Nat :=
  match t, o with
  | .f32, .add => f32Fmt.addR .rn a b
  | .f32, .min => f32Fmt.minMax false a b
  | .f32, .max => f32Fmt.minMax true a b
  | .i32, .min => iMin .i32 a b
  | .i32, .max => iMax .i32 a b
  | .n32, .min => iMin .n32 a b
  | .n32, .max => iMax .n32 a b
  | .i32, .add | .n32, .add => iAdd 32 a b
  | _, .and => Nat.land a b
  | _, .or => Nat.lor a b
  | _, .xor => Nat.xor a b

/-- Combine two nodes, either of which may be absent. -/
def redJoin (g : Nat → Nat → Nat) : Option Nat → Option Nat → Option Nat
  | none, y => y
  | some x, none => some x
  | some x, some y => some (g x y)

/-- The fixed tree of R137 over 2^d leaves from `lo`. -/
def redTree (g : Nat → Nat → Nat) (leaf : Nat → Option Nat) : Nat → Nat → Option Nat
  | 0, lo => leaf lo
  | d + 1, lo => redJoin g (redTree g leaf d lo) (redTree g leaf d (lo + 2 ^ d))

/-- The tree over the lanes of a warp, with a set of lanes as leaves. -/
def redLanes (o : RedOp) (t : RedTy) (width : Nat) (set : List (Nat × Nat)) : Option Nat :=
  redTree (redApply o t) (fun l => (set.find? fun e => e.1 == l).map Prod.snd) width.log2 0

/-- The identity of a SCAN over no lane (R138). -/
def redIdentity (o : RedOp) (t : RedTy) : Nat :=
  match o, t with
  | .add, _ => 0
  | .min, .i32 => 0x7FFFFFFF
  | .min, .n32 => 0xFFFFFFFF
  | .min, .f32 => 0x7F800000
  | .max, .i32 => 0x80000000
  | .max, .n32 => 0
  | .max, .f32 => 0xFF800000
  | .and, _ => 0xFFFFFFFF
  | .or, _ | .xor, _ => 0

def execRedux (h : Hdr) (o : RedOp) (t : RedTy) (f : Ops) : State → Host.Outcome State Fault Refusal :=
  issue (.redux h o t f) fun x s =>
    let w := s.warp x.u
    let v := (redLanes o t w.width (x.act.map fun l => (l, x.valA w l))).getD 0
    s.onWarp x.u (x.writeD (x.act.map fun l => (l, v)))

def execScan (h : Hdr) (o : RedOp) (t : RedTy) (excl : Bool) (f : Ops) : State → Host.Outcome State Fault Refusal :=
  issue (.scan h o t excl f) fun x s =>
    let w := s.warp x.u
    let vals := x.act.map fun l => (l, x.valA w l)
    let outs := x.act.map fun l =>
      let set := vals.filter fun e => if excl then decide (e.1 < l) else decide (e.1 ≤ l)
      (l, (redLanes o t w.width set).getD (redIdentity o t))
    s.onWarp x.u (x.writeD outs)

def execMatchLanes (h : Hdr) (wd : Wd) (f : Ops) : State → Host.Outcome State Fault Refusal :=
  issue (.matchLanes h wd f) fun x s =>
    let w := s.warp x.u
    let outs := x.act.map fun l => (l, (maskOf (x.act.filter fun m => x.valA w m == x.valA w l)).toNat)
    s.onWarp x.u (x.writeD outs)

def execElect (h : Hdr) (f : Ops) : State → Host.Outcome State Fault Refusal :=
  issue (.elect h f) fun x s =>
    s.onWarp x.u (x.writeD (x.act.map fun l => (l, if l = x.first then 1 else 0)))

end Sys2Proof.Machine
end

