-- ==== Sys2Proof/Machine/Collective.lean ====
section
/-! DEFINITION. The collective engine (R195, R196) and the work distributor (R197, R198, R265). -/

namespace Sys2Proof.Machine

/-! ## COLL -/

inductive CollForm | allreduce | allgather | redscat | bcast
  deriving DecidableEq, Repr

/-- Form and domain scope of a COLL. -/
def collForm : Instr → Option (CollForm × Bool)
  | .collAllreduce _ d _ => some (.allreduce, d)
  | .collAllgather _ d _ => some (.allgather, d)
  | .collRedscat _ d _ => some (.redscat, d)
  | .collBcast _ d _ => some (.bcast, d)
  | _ => none

def CollForm.reduces : CollForm → Bool
  | .allreduce | .redscat => true
  | .allgather | .bcast => false

/-- A collective operation with its record and operands. -/
structure Coll where
  form : CollForm
  dom : Bool
  r : ShapeRec
  dst : Nat
  src : Nat
  recAt : Nat
  /-- Participants, and the issuing block's rank (R195). -/
  parts : Nat
  rank : Nat
  /-- Ranks of this part: first and number. -/
  first : Nat
  mine : Nat
  deriving DecidableEq, Repr

def collOf (s : State) (w : Warp) (o : Op) : Coll :=
  let (form, dom) := (collForm o.ins).getD (.bcast, false)
  let r := (s.warpLaunch w).record
  let g := r.gangs.toNat * r.gangsize.toNat
  let blk := (s.warpGang w).num * r.gangsize.toNat + w.rank
  let first := if dom then s.domainPart * g else 0
  { form, dom, r := .ofBytes o.data, dst := o.pair 2, src := o.pair 4, recAt := o.pair 6,
    parts := if dom then s.domainSize * g else g, rank := first + blk, first, mine := g }

/-- Elements of a contribution. -/
def Coll.n (c : Coll) : Nat := c.r.boxes.headD 0
def Coll.esize (c : Coll) : Nat := c.r.gf.bytes

/-- Bytes of the destination of a rank (R196). -/
def Coll.bytes (c : Coll) : Nat :=
  c.esize * (match c.form with
    | .allreduce | .bcast => c.n
    | .allgather => c.parts * c.n
    | .redscat => c.n / c.parts)

/-- The checks of R189 that apply and those of R196: the trap. The codes 3 to 7 of `cop` in a reducing form, which the spec names no operation for, raise BOUNDS too: DESIGN CHOICE (log 60). -/
def Coll.check (c : Coll) (bs : List Byte) : Option TrapInfo :=
  let r := c.r
  let bounds (off : Nat) : Option TrapInfo := some { cause := causeBounds, info := .ofNat 32 off }
  let align (a : Nat) : Option TrapInfo := some { cause := causeAlignment, addr := .ofNat 64 a, info := 0xFFFF }
  match r.badField bs with
  | some f => bounds f
  | none =>
    if c.src % c.esize != 0 then align c.src
    else if c.dst % c.esize != 0 then align c.dst
    else if r.strides.headD 0 % c.esize != 0 then some { cause := causeAlignment, info := 72 }
    else if r.ndims != 1 then bounds 0
    else if c.n != r.extents.headD 0 then bounds 68
    else if r.strides.headD 0 != c.esize then bounds 72
    else if r.conv || r.crc != 0 || r.bk1 then bounds 9
    else if r.npart != c.parts then bounds 36
    else if c.form.reduces && (r.cop > 2) then bounds 8
    else if c.form.reduces && !(r.gfmt = 0 || r.gfmt = 1 || r.gfmt = 5 || r.gfmt = 6 || r.gfmt = 7) then bounds 10
    else if c.form = .redscat && c.n % c.parts != 0 then bounds 68
    else if c.form = .bcast && c.parts ≤ r.root then bounds 32
    else none

/-! ### Instances -/

/-- The first instance of a record that a rank has not joined, or a new one (R196). -/
def joinInstance (launch recAt rank : Nat) (r : OpRef) : List CollInstance → List CollInstance
  | [] => [{ launch, record := recAt, given := [(rank, r)] }]
  | i :: is =>
    if i.launch == launch && i.record == recAt && i.results = [] && !(i.given.any fun g => g.1 == rank) then
      { i with given := i.given ++ [(rank, r)] } :: is
    else i :: joinInstance launch recAt rank r is

/-- The collective engine of a record's home slice keeps tags (R212). -/
def collSlice (s : State) (w : Warp) (recAt : Nat) : Nat := sliceOf ((s.space w).loc recAt)

/-- The tag entry of a COLL or WDQ operation: its only slot. -/
def Op.entry (s : State) (w : Warp) (o : Op) : TagEntry :=
  match o.slots with
  | x :: _ => s.tagEntry w x.tag o.ins x.addr 0
  | [] => s.tagEntry w 0 o.ins 0 0

/-- Entries of the window at one slice: those whose record has its home there. -/
def collWindow (s : State) (w : Warp) (slice : Nat) : List TagEntry × List TagEntry :=
  s.collTags.partition fun t => collSlice s w t.addr == slice

/-- The engine takes a COLL: it reads and checks the record, declares, and asks for leave, or answers a known tag (R196, R266, R283). One that fails stands in the instance it has joined, which then never completes. -/
def collStart (r : OpRef) (s : State) : State :=
  match s.opOf r with
  | none => s
  | some o =>
    let w := s.warp r.warp
    match readRecord (s.engineParty w o) (o.pair 6) s with
    | (.error x, s) => recordStops r x s
    | (.ok bs, s) =>
      let o := { o with data := bs }
      let c := collOf s w o
      match c.check bs with
      | some t => engineStops r (.trap t) s
      | none =>
        let s := s.onOp r fun o => { o with data := bs }
        let s := declareOn r c.bytes s
        let l := (s.warpLaunch w).uid
        match tagFind s.collTags (o.entry s w) with
        | some t => { s with colls := s.colls ++ [{ launch := l, record := c.recAt, results := [(r, t.data)] }] }
        | none => s.requestLeave w (.engine r (min 4 (s.budget (s.warpGang w).cluster)))

/-- A rank's contribution is ready to be sent: its order allows it, and the units are held. -/
def giveReady (s : State) (r : OpRef) : Bool :=
  match s.opOf r with
  | none => false
  | some o => o.data != [] && engineReady s r o && holdsUnits s r

/-- Every rank of this part has contributed. -/
def CollInstance.full (s : State) (i : CollInstance) : Bool :=
  match i.given with
  | [] => false
  | g :: _ => (match s.opOf g.2 with
    | some o =>
      let c := collOf s (s.warp g.2.warp) o
      i.given.length == c.mine && i.given.all fun g => giveReady s g.2
    | none => false)

/-- An instance can go on: it is full, or a destination can be written. -/
def collReady (s : State) (k : Nat) : Bool :=
  match s.colls[k]? with
  | none => false
  | some i =>
    if i.results = [] then i.full s
    else i.results.any fun x => match s.opOf x.1 with
      | some o => engineReady s x.1 o
      | none => true

/-- The sources of an instance's ranks, read as plain loads: by rank, or what stopped a rank. A broadcast reads the root's alone. -/
def readGiven (s : State) : List (Nat × OpRef) → Except (OpRef × Stop) (List (Nat × List Byte)) × State
  | [] => (.ok [], s)
  | g :: gs =>
    let w := s.warp g.2.warp
    match s.opOf g.2 with
    | none => readGiven s gs
    | some o =>
      let c := collOf s w o
      if c.form = .bcast && c.rank != c.r.root then readGiven s gs
      else match engineRead (s.engineParty w o) c.src (c.n * c.esize) s with
      | (.error x, s) => (.error (g.2, x), s)
      | (.ok bs, s) => match readGiven s gs with
        | (.ok rest, s) => (.ok ((g.1, bs) :: rest), s)
        | x => x

/-- The source of a rank: a rank of another part gives free bytes (log 15). -/
def sourceOf (s : State) (srcs : List (Nat × List Byte)) (n rank : Nat) : List Byte :=
  match srcs.find? fun x => x.1 == rank with
  | some x => x.2
  | none => (List.range n).map fun j => Config.peerByte ((s.draws * 2 ^ 20 + rank) * 2 ^ 40 + j)

/-- One node of the reduction (R196): integers wrap, floats round to nearest in gfmt. -/
def collNode (gfmt cop a b : Nat) : Nat :=
  let int (t : ITy) : Nat := match cop with
    | 0 => iAdd 32 a b
    | 1 => iMin t a b
    | _ => iMax t a b
  let flt (f : FloatFmt) : Nat := match cop with
    | 0 => f.addR .rn a b
    | 1 => f.minMax false a b
    | _ => f.minMax true a b
  match gfmt with
  | 0 => int .i32
  | 1 => int .n32
  | 5 => flt f32Fmt
  | 6 => flt f16Fmt
  | _ => flt bf16Fmt

/-- Element k of the reduction over all ranks, by the tree of R137. -/
def collReduce (c : Coll) (srcs : List (List Byte)) (k : Nat) : List Byte :=
  let leaf (q : Nat) : Option Nat := (srcs[q]?).map fun bs => natOfBytes ((bs.drop (k * c.esize)).take c.esize)
  let depth := if c.parts ≤ 1 then 0 else (c.parts - 1).log2 + 1
  bytesOfNat c.esize ((redTree (collNode c.r.gfmt c.r.cop) leaf depth 0).getD 0)

/-- The destination of a rank (R196). -/
def collResult (c : Coll) (srcs : List (List Byte)) : List Byte :=
  match c.form with
  | .allreduce => ((List.range c.n).map (collReduce c srcs)).flatten
  | .allgather => srcs.flatten
  | .redscat =>
    let m := c.n / c.parts
    ((List.range m).map fun j => collReduce c srcs (c.rank * m + j)).flatten
  | .bcast => srcs.getD c.r.root []

/-- Write one destination, count it down, and retire the operation, its tag remembered (R160, R196, R212). -/
def collWrite (x : OpRef × List Byte) (s : State) : Bool × State :=
  match s.opOf x.1 with
  | none => (true, s)
  | some o =>
    if !engineReady s x.1 o then (false, s)
    else
      let w := s.warp x.1.warp
      let c := collOf s w o
      match engineWrite (s.engineParty w o) c.dst x.2 s with
      | (some e, s) =>
        let s := engineStops x.1 e (s.onOp x.1 fun o => { o with run := { o.run with waiting := none } })
        ((s.opOf x.1).isNone, s)
      | (none, s) =>
        let e := { o.entry s w with data := x.2, pinned := false }
        let (here, others) := collWindow s w (collSlice s w c.recAt)
        let (win, gs) := tagPut s 64 32 here e
        let s := exposeGangs gs { s with collTags := others ++ win }
        (true, (countTo x.1 x.2.length s).finishOp x.1)

def collWrites : List (OpRef × List Byte) → State → List (OpRef × List Byte) × State
  | [], s => ([], s)
  | x :: xs, s =>
    let (done, s) := collWrite x s
    let (left, s) := collWrites xs s
    (if done then left else x :: left, s)

def setColl (k : Nat) (i : Option CollInstance) (s : State) : State :=
  match i with
  | some i => { s with colls := mapAt (fun _ => i) s.colls k }
  | none => { s with colls := s.colls.eraseIdx k }

/-- An instance completes: destinations are written, counted down and retired (R196). -/
def collCompletes (k : Nat) (s : State) : State :=
  match s.colls[k]? with
  | none => s
  | some i =>
    let finish (i : CollInstance) (s : State) : State :=
      let (left, s) := collWrites i.results s
      setColl k (if left = [] then none else some { i with results := left }) s
    if i.results != [] then finish i s
    else match readGiven s i.given with
      | (.error (r, x), s) =>
        engineStops r x s
      | (.ok srcs, s) =>
        let results := i.given.filterMap fun g => (s.opOf g.2).map fun o =>
          let c := collOf s (s.warp g.2.warp) o
          let all := (List.range c.parts).map (sourceOf s srcs (c.n * c.esize))
          (g.2, collResult c all)
        finish { i with results, given := [] } s.draw

/-- A COLL joins the instance of its record as it issues, so that the k-th a rank issues joins the k-th; one whose tag is known has given already (R196, R283). -/
def collJoins (r : OpRef) (s : State) : State :=
  match s.opOf r with
  | none => s
  | some o =>
    let w := s.warp r.warp
    let c := collOf s w o
    if (tagFind s.collTags (o.entry s w)).isSome then s
    else { s with colls := joinInstance (s.warpLaunch w).uid c.recAt c.rank r s.colls }

/-- COLL at issue (R185, R189, R195). -/
def collIssue (x : Act) (s : State) : State :=
  let w := s.warp x.u
  match x.act with
  | [l] =>
    let obj := objOf x.r.d (x.valD w l)
    let dst := x.valA w l
    let src := x.valB w l
    let recAt := x.valC w l
    (match engineCheck s w [dst, src, recAt] (obj.map fun b => (b, 32, 32)).toList with
    | some t => x.trap l t s
    | none =>
      let slot : Slot := { lane := l, addr := recAt, tag := s.tag w l (w.seq l) }
      let s := (takeSeqs x.u x.act s).addOp x.u (x.op [slot] (objRegs obj ++ pairRegs dst ++ pairRegs src ++ pairRegs recAt))
      startNow collStart x.u (collJoins { warp := x.u, op := (s.warp x.u).nextOp - 1 } (s.onWarp x.u x.holdD)))
  | _ :: second :: _ => x.trap second { cause := causeBounds, info := 1 } s
  | [] => s

/-- A COLL whose record has not been read yet is taken when its order allows it. -/
def collWaits (s : State) (r : OpRef) : Bool :=
  match s.opOf r with
  | none => false
  | some o => (collForm o.ins).isSome && o.data = [] && engineReady s r o

def isWdq (i : Instr) : Bool :=
  match i with
  | .wdq .. => true
  | _ => false

/-- An engine operation that names an object and has not declared on it yet: its warp issues nothing before it has (R160). -/
def Warp.undeclared (w : Warp) : Bool :=
  w.ops.any fun o => !o.finished && !o.decl && ((((copyForm o.ins).isSome || (collForm o.ins).isSome) && o.data = []) ||
    (isWdq o.ins && o.obj.isSome))

/-! ## The work distributor -/

/-- WDQ at issue (R197). -/
def wdqIssue (x : Act) (s : State) : State :=
  let w := s.warp x.u
  let l := x.first
  let r := (s.warpLaunch w).record
  let slot := x.valD w l
  let obj := objOf x.r.a (x.valA w l)
  if r.gx = 0 || r.gy = 0 then x.trap l { cause := causeBounds } s
  else match engineCheck s w [] ((slot, 16, 16) :: (obj.map fun b => (b, 32, 32)).toList) with
    | some t => x.trap l t s
    | none =>
      let q : Slot := { lane := l, addr := slot, tag := s.tag w l (w.seq l) }
      ((takeSeqs x.u x.act s).addOp x.u (x.op [q] (objRegs obj ++ [.ofNat 32 slot]))).onWarp x.u x.holdD

def wdqReady (s : State) (r : OpRef) : Bool :=
  match s.opOf r with
  | none => false
  | some o => isWdq o.ins && (o.decl || o.obj.isNone) && opReady s r o && tagRoom 4096 (s.warpLaunch (s.warp r.warp)).tags 1

/-- A query's declaration on its object is due; the query is sent with it (R160, R293). -/
def wdqDeclares (s : State) (r : OpRef) : Bool :=
  match s.opOf r with
  | none => false
  | some o =>
    let w := s.warp r.warp
    isWdq o.ins && !o.decl && o.obj.isSome && !w.retired && !w.stopped && !w.holdsRequest o && (s.gang w.gang).state = .placed

/-- The answer to query number `k` of a gx × gy grid (R197, R198). -/
def tileAnswer (gx gy k : Nat) : Nat :=
  k % 2 ^ 32 * 2 ^ 64 + (if k < gx * gy then k / gx * 2 ^ 16 + k % gx else 2 ^ 32 + 0xFFFFFFFF)

/-- The distributor takes a query: the tile it hands out, or the one it has handed out under the query's tag (R265, R283). -/
def takeTile (w : Warp) (o : Op) (s : State) : List Byte × State :=
  let l := s.warpLaunch w
  let e := o.entry s w
  match tagFind l.tags e with
  | some t => (t.data, s)
  | none =>
    let ans := bytesOfNat 16 (tileAnswer l.record.gx.toNat l.record.gy.toNat l.answers)
    let (win, gs) := tagPut s 4096 2048 l.tags { e with data := ans }
    (ans, exposeGangs gs (s.onLaunch l.uid fun l => { l with answers := l.answers + 1, tags := win }))

/-- The distributor answers: the slot is written, 16 bytes are counted down, oc.coll retires (R198). -/
def wdqAnswer (r : OpRef) (s : State) : State :=
  match s.opOf r with
  | none => s
  | some o =>
    let w := s.warp r.warp
    let (ans, s) := takeTile w o s
    let s := s.onLaunch (s.warpLaunch w).uid fun l => { l with tags := unpin s w o l.tags }
    let s := match scrTarget s w (o.regs.getD 2 0).toNat 16 with
      | some t => scrWrite w.gang t ans s
      | none => s
    (countTo r 16 s).finishOp r

/-! ## Meanings -/

def execCollAllreduce (h : Hdr) (dom : Bool) (f : Ops) : State → Host.Outcome State Fault Refusal :=
  issue (.collAllreduce h dom f) collIssue
def execCollAllgather (h : Hdr) (dom : Bool) (f : Ops) : State → Host.Outcome State Fault Refusal :=
  issue (.collAllgather h dom f) collIssue
def execCollRedscat (h : Hdr) (dom : Bool) (f : Ops) : State → Host.Outcome State Fault Refusal :=
  issue (.collRedscat h dom f) collIssue
def execCollBcast (h : Hdr) (dom : Bool) (f : Ops) : State → Host.Outcome State Fault Refusal :=
  issue (.collBcast h dom f) collIssue
def execCollInstanceComplete (k : Nat) (s : State) : Host.Outcome State Fault Refusal :=
  event (collReady s k) (collCompletes k) s
def execWdq (h : Hdr) (f : Ops) : State → Host.Outcome State Fault Refusal := issue (.wdq h f) wdqIssue
def execWorkDistributorAnswer (o : OpRef) (s : State) : Host.Outcome State Fault Refusal :=
  event (wdqReady s o) (wdqAnswer o) s

end Sys2Proof.Machine
end

