-- ==== Sys2Proof/Machine/Churn.lean ====
section
/-! DEFINITION. The churn slot and the queues (R20, R199 to R201). A churn program is issued through a warp of its own, number 0, that stands among the warps for the length of one step. -/

namespace Sys2Proof.Machine

/-! ## The program as a warp -/

abbrev churnUid : Nat := 0

/-- The warp of a churn program: 16 lanes, v0 to v63, s0 to s31 (R199). -/
def churnWarp (g rank part : Nat) (c : Churn) : Warp :=
  { uid := churnUid, gang := g, rank, num := 32, part, slot := 0, width := 16, nv := 64, nu := 32,
    threads := (List.range 16).map fun l =>
      { status := if c.done.getD l false then .exited else .running, pc := c.pc.getD l 0, preds := Store.get 0 c.preds l,
        seed := c.seeds.getD l 1 }
    vregs := c.vregs.filterMap fun e => if e.2 = 0 then none else some (e.1, { val := e.2 })
    uregs := c.uregs.filterMap fun e => if e.2 = 0 then none else some (e.1, { val := e.2 }) }

/-- The program as its warp left it. Of its registers the values are kept: full/empty state and held marks last for one instruction of the program, and every register is full for the next (DESIGN CHOICE, log 28). -/
def Churn.ofWarp (c : Churn) (w : Warp) : Churn :=
  let lanes := List.range 16
  { c with
    pc := lanes.map fun l => (w.thread l).pc
    done := lanes.map fun l => (w.thread l).status.gone
    vregs := w.vregs.map fun e => (e.1, e.2.val)
    uregs := w.uregs.map fun e => (e.1, e.2.val)
    preds := each lanes [] fun l m => Store.put 0 m l (w.thread l).preds
    seeds := lanes.map fun l => (w.thread l).seed }

/-- The program CHURN.START begins (R199). -/
def churnStarts (entry : Word) (params : List Word) (warp lane : Nat) : Churn :=
  { running := true, pc := List.replicate 16 entry, done := List.replicate 16 false
    uregs := each ((List.range 16).zip params) [] fun e m => Store.put 0 m e.1 e.2
    seeds := (List.range 16).map fun l => .ofNat 16 (l + 1)
    warp, lane }

def noChurn : Churn := { running := false, pc := [], done := [], warp := 0, lane := 0 }

/-- Words a churn program may contain (R200). -/
def churnAllows : Instr → Bool
  | .nop .. | .iadd .. | .iaddImm .. | .isub .. | .isubImm .. | .imul .. | .imulImm .. | .imulhi .. | .imad .. | .imadw ..
  | .imin .. | .iminImm .. | .imax .. | .imaxImm .. | .iabs .. | .ineg .. | .shl .. | .shr .. | .sar .. | .rot .. | .and ..
  | .andImm .. | .or .. | .orImm .. | .xor .. | .xorImm .. | .not .. | .bool3 .. | .bfe .. | .bfi .. | .popc .. | .clz ..
  | .brev .. | .isetp .. | .icmp .. | .sel .. | .pset .. | .mov .. | .movi .. | .lea .. | .loop .. | .exit .. | .cvt ..
  | .ld .. | .lds .. | .qpush .. => true
  | _ => false

/-! ## Queues -/

/-- Queues of a block; four empty ones where none has been opened. -/
def noQueues : List Queue := List.replicate 4 {}

def closeQueues (qs : List Queue) : List Queue := qs.map fun q => { q with closed := true }

/-- The program ends: its queues close, their entries remain (R199). -/
def endChurn (g rank : Nat) (s : State) : State :=
  s.onBlock g rank fun b => { b with churn := b.churn.map fun c => { c with running := false }, queues := closeQueues b.queues }

/-- A stop of R200: reported asynchronously in the warp that issued START. -/
def stopChurn (g rank : Nat) (pc cause : Word) (addr : DWord) (s : State) : State :=
  match (s.block g rank).churn with
  | none => s
  | some c => asyncTrap c.warp c.lane pc { cause, addr, info := cause &&& 0xFF } (endChurn g rank s)

/-- A full queue holds a QPUSH with an active lane back (R55, R201). -/
def queueFull (s : State) (w : Warp) (i : Instr) : Bool :=
  match i with
  | .qpush _ f => decide (32 ≤ ((s.warpBlock w).queues.getD (f.d.val.toNat - 0x80) {}).entries.length)
  | _ => false

/-- QPUSH (R201): one entry from the churn program, word l the value of churn lane l, active or not (log 28); any other issuer raises BOUNDS. -/
def qpushIssue (x : Act) (s : State) : State :=
  let w := s.warp x.u
  if x.u != churnUid then x.trap x.first { cause := causeBounds } s
  else
    let entry := (List.range 16).map fun l => BitVec.ofNat 32 (x.valA w l)
    s.onBlock w.gang w.rank fun b =>
      { b with queues := mapAt (fun q => { q with entries := q.entries ++ [entry] }) b.queues (x.r.d.val.toNat - 0x80) }

/-- QPOP and QPEEK (R201): k entries of 16 words, the word and its predicate in every active lane. -/
def qread (pop : Bool) (x : Act) (s : State) : State :=
  let w := s.warp x.u
  let b := s.warpBlock w
  let k := x.r.a.val.toNat - 0x80
  let q := b.queues.getD k {}
  if !b.ownsChurn then x.trap x.first { cause := causeBounds } s
  else
    let e := min (w.width / 16) q.entries.length
    let word (l : Nat) : Nat := (((q.entries.getD (l / 16) []).getD (l % 16) 0)).toNat
    let outs := x.act.map fun l => if l / 16 < e then (l, word l, true) else (l, 0, false)
    let s := s.onWarp x.u fun w =>
      each outs (x.writeD (outs.map fun o => (o.1, o.2.1)) w) fun o w => w.setPred o.1 x.r.b.val.toNat o.2.2
    if pop then
      let s := tagLanes x k (outs.map fun o => (o.1, o.2.1 + (if o.2.2 then 2 ^ 32 else 0))) s
      s.onBlock w.gang w.rank fun b => { b with queues := mapAt (fun q => { q with entries := q.entries.drop e }) b.queues k }
    else s

/-! ## CHURN -/

/-- CHURN.START, once the slot is free or its own program has ended (R199). -/
def churnStartIssue (x : Act) (s : State) : State :=
  let w := s.warp x.u
  let entry := x.valA w x.first
  if entry % 12 != 0 || (s.warpLaunch w).len ≤ entry then x.trap x.first { cause := causeBounds } s
  else
    let start (s : State) : DWord × State :=
      (0, s.onBlock w.gang w.rank fun b =>
        { b with ownsChurn := true, queues := noQueues,
                 churn := some (churnStarts (.ofNat 32 entry) (w.row x.r.b 16) x.u x.first) })
    (onceInBlock x entry start s).2

/-- CHURN.STOP of the block that owns the slot (R199); of another block it does nothing, which the spec does not say: DESIGN CHOICE (log 28). -/
def churnStopIssue (x : Act) (s : State) : State :=
  let w := s.warp x.u
  s.onBlock w.gang w.rank fun b => { b with ownsChurn := false, churn := none, queues := [] }

/-! ## A step of the program -/

/-- The program waits for a fault of its own to be decided. -/
def churnRef (c : Churn) : OpRef := { warp := c.warp, op := 2 ^ 32 }
def churnFaulted (s : State) (c : Churn) : Bool :=
  s.faults.any (fun f => f.op == churnRef c) || s.batches.any fun b => decide (churnRef c ∈ b.ops)

/-- The step's warp stands among the warps. -/
def churnEnter (g rank : Nat) (s : State) : State :=
  let c := ((s.block g rank).churn).getD noChurn
  { s with warps := churnWarp g rank (s.warp c.warp).part c :: s.warps }

/-- The step's warp leaves. -/
def churnLeave (s : State) : State := { s with warps := s.warps.filter fun w => w.uid != churnUid }

/-- What the step leaves: a trap stops the program, a page fault becomes one of kind 7, a load's data is written, and the last EXIT ends the program. -/
def churnSettle (g rank : Nat) (s0 s : State) : State :=
  let c := ((s0.block g rank).churn).getD noChurn
  let failed := (s.reports.find? fun r => r.warp == churnUid)
  let faults := s.faults.map fun f => if f.op.warp = churnUid then { f with op := churnRef c, kind := 7 } else f
  let stuck := s.faults.any fun f => f.op.warp == churnUid
  let s := { s with reports := s.reports.filter (fun r => r.warp != churnUid), faults }
  match failed with
  | some r => stopChurn g rank r.pc r.trap.cause r.trap.addr (churnLeave s)
  | none =>
    if stuck then churnLeave s
    else
      let w := s.warp churnUid
      let s := (churnLeave s).onBlock g rank fun b => { b with churn := b.churn.map fun c => c.ofWarp w }
      if w.live = [] then endChurn g rank s else s

/-- After the instruction: a load it issued is performed at once. -/
def churnAfter (g rank : Nat) (s0 s : State) : State :=
  match (s.warp churnUid).ops with
  | [] => churnSettle g rank s0 s
  | o :: _ =>
    if o.state = .faulted then churnSettle g rank s0 s
    else
      let r : OpRef := { warp := churnUid, op := o.id }
      if loadReady s r then churnSettle g rank s0 (loadArrive r s) else churnLeave { s0 with cur := none }

/-- Steps 3 to 6 pass with an active lane. -/
def passes (i : Instr) (b : Bundle) (s : State) : Bool :=
  match check i b s with
  | .go _ => true
  | _ => false

/-- The instruction the program would issue, and its bundle; a word that is none or not allowed stops it (R200). -/
inductive ChurnNext
  | run (i : Instr) (b : Bundle)
  | stop (pc cause : Word)
  | fetch (b : Bundle)
  | idle
  deriving DecidableEq, Repr

def churnNext (g rank : Nat) (s : State) : ChurnNext :=
  match (s.block g rank).churn with
  | none => .idle
  | some c =>
    let s := churnEnter g rank s
    let w := s.warp churnUid
    if !c.running || churnFaulted s c || (s.gang g).state != .placed then .idle
    else match w.runs with
      | [] => .idle
      | r :: _ =>
        let b := r.bundle churnUid
        match bundleInstr s w r.pc with
        | none => .fetch b
        | some (.wordNotAnInstruction ..) => .stop r.pc causeIllegal
        | some (.trapAtFetch m) => .stop r.pc (if m then causeAlignment else causeBounds)
        | some i =>
          if !churnAllows i then .stop r.pc causeIllegal
          else if queueFull s w i && passes i b s then .idle
          else .run i b

/-! ## Meanings -/

def execChurnStart (h : Hdr) (f : Ops) : State → Host.Outcome State Fault Refusal := issue (.churnStart h f) churnStartIssue
def execChurnStop (h : Hdr) (f : Ops) : State → Host.Outcome State Fault Refusal :=
  issue (.churnStop h f) fun x s => if (s.warpBlock (s.warp x.u)).ownsChurn then churnStopIssue x s else s
def execQpush (h : Hdr) (f : Ops) : State → Host.Outcome State Fault Refusal := issue (.qpush h f) qpushIssue
def execQpop (h : Hdr) (f : Ops) : State → Host.Outcome State Fault Refusal := issue (.qpop h f) (qread true)
def execQpeek (h : Hdr) (f : Ops) : State → Host.Outcome State Fault Refusal := issue (.qpeek h f) (qread false)

end Sys2Proof.Machine
end

