-- ==== Sys2Proof/Machine/Launch.lean ====
section
/-! DEFINITION. Launches and their placement: queues (R252, R253), launch records and their checks (R254 to R256), completion entries (R257), dependences (R258), placement (R259, R260, R32), the ends of gangs, launches and contexts (R269, R272, R416). -/

namespace Sys2Proof.Machine

/-! ## What the command processor reads and writes (R252; log 20) -/

def Ctx.space (c : Ctx) : Space := { world := c.world.toNat, asid := c.asid.toNat }

/-- The part's own accesses in a context: outside every gang. -/
def Ctx.party (c : Ctx) : Party := { sp := c.space, gang := none, core := none, launch := 0 }

/-- The first location of a context's range that lies on a page in migration (R304). -/
def cpMoves (s : State) (slot va n : Nat) (a : Acc) : Option Nat :=
  if !canonical va then none
  else (((List.range (n / 65536 + 2)).map fun j => (s.ctx slot).space.loc (min (va + 65536 * j) (va + n - 1))).find?
    fun k => migrating s k a)

/-- Bytes of a context's memory; none where they cannot be read, and where a page is in migration, which is noted (R304). -/
def cpRead (slot va n : Nat) (s : State) : Option (List Byte) × State :=
  if !canonical va then (none, s)
  else match cpMoves s slot va n .read with
  | some k => (none, { s with stall := some (s.stall.getD k) })
  | none => match readEngine (s.ctx slot).party va n s with
    | (.bytes bs, s) => (some bs, s)
    | (_, s) => (none, s)

/-- Bytes written to a context's memory; lost where they cannot be written, and owed while a page is in migration (R304). -/
def cpWrite (slot va : Nat) (bs : List Byte) (s : State) : State :=
  if !canonical va then s
  else match cpMoves s slot va bs.length .write with
  | some k => { s with owed := s.owed ++ [(k, .bytes slot va bs)] }
  | none => (writeEngine (s.ctx slot).party va bs s).2

/-- What the command processor does for a register write or a doorbell, unless it meets a page in migration: then `waiting` is all that is done, and the rest is done after a shootdown has covered the page (R273, R304). A later write of the same register takes its place. -/
def orLater (i : Instr) (same : Instr → Bool) (waiting f : State → State) (s : State) : State :=
  let s := { s with waiters := s.waiters.filter fun x => !same x.2.2 }
  let t := f s
  match t.stall with
  | none => t
  | some k => let s := waiting s
    { s with waiters := s.waiters ++ [(0, k, i)] }

/-- An event of the part that reads a context's memory comes about while no page it needs is in migration (R304). -/
def eventUnmoved (enabled : Bool) (f : State → State) (s : State) : Host.Outcome State Fault Refusal :=
  event (enabled && (f s).stall.isNone) f s

/-! ## Queue descriptors (R252) -/

structure QDesc where
  ring : Nat
  cring : Nat
  tail : Nat
  head : Nat
  ctail : Nat
  logn : Nat
  ok : Bool
  deriving DecidableEq, Repr

def QDesc.ofBytes (bs : List Byte) : QDesc :=
  let x := natOfBytes bs
  let ring := nbits x 511 448
  let cring := nbits x 447 384
  let logn := nbits x 259 256
  { ring, cring, tail := nbits x 383 352, head := nbits x 351 320, ctail := nbits x 319 288, logn
    ok := decide (4 ≤ logn) && decide (logn ≤ 12) && canonical ring && canonical cring && ring % 4096 == 0 &&
      cring % 4096 == 0 && nbits x 287 260 == 0 && nbits x 255 0 == 0 }

def Ctx.queue (c : Ctx) (q : Nat) : LaunchQueue := Store.get {} c.queues q
def Ctx.onQueue (c : Ctx) (q : Nat) (f : LaunchQueue → LaunchQueue) : Ctx :=
  { c with queues := Store.put {} c.queues q (f (c.queue q)) }

/-- The descriptor of a registered queue. -/
def readQueue (slot q : Nat) (s : State) : Option QDesc × State :=
  let va := ((s.ctx slot).queue q).qdesc.toNat
  if va = 0 || va % 64 != 0 then (none, s)
  else match cpRead slot va 64 s with
    | (some bs, s) =>
      let d := QDesc.ofBytes bs
      (if d.ok then some d else none, s)
    | (none, s) => (none, s)

/-- ctxst after a descriptor check: code 3 with the queue, or accepted (R252, R402). -/
def setCtxst (slot : Nat) (v : Word) (s : State) : State := s.onCtx slot fun c => { c with ctxst := v }

/-! ## Completion entries (R257) -/

def Completion.bytes (e : Completion) : List Byte :=
  bytesOfNat 4 e.id.toNat ++ bytesOfNat 4 e.status ++ bytesOfNat 4 (if e.wave then 1 else 0) ++
    bytesOfNat 4 e.relaunches ++ bytesOfNat 4 e.cause.toNat ++ bytesOfNat 4 e.gang ++ bytesOfNat 4 e.sealNo.toNat ++
    bytesOfNat 4 e.pc.toNat

/-- Write a completion entry, then advance ctail and raise vector 0 (R257, R404). -/
def writeCompletion (slot q : Nat) (e : Completion) (s : State) : State :=
  let owe (k : Nat) (s : State) : State := { s with owed := s.owed ++ [(k, .completion slot q e)] }
  match cpMoves s slot ((s.ctx slot).queue q).qdesc.toNat 64 .write with
  | some k => owe k s
  | none => match readQueue slot q s with
  | (none, s) => s
  | (some d, t) => match cpMoves s slot (d.cring + 32 * (d.ctail % 2 ^ d.logn)) 32 .write with
    | some k => owe k s
    | none =>
      let s := cpWrite slot (d.cring + 32 * (d.ctail % 2 ^ d.logn)) e.bytes t
      interrupt 0 (cpWrite slot (((s.ctx slot).queue q).qdesc.toNat + 36) (bytesOfNat 4 ((d.ctail + 1) % 2 ^ 32)) s)

/-- What the command processor owes is done in order, as far as pages in migration allow (R304). -/
def payOwed (covered : Nat → Bool) (s : State) : State :=
  let pay (x : Nat × Owed) (s : State) : State :=
    match x.2 with
    | .bytes slot va bs => cpWrite slot va bs s
    | .completion slot q e => writeCompletion slot q e s
  each (s.owed.filter fun x => covered x.1) { s with owed := s.owed.filter fun x => !covered x.1 } pay

/-! ## Launch records (R254, R255) -/

def LaunchRec.ofNat (x : Nat) : LaunchRec where
  kimg := .ofNat 64 (nbits x 511 448)
  params := .ofNat 64 (nbits x 447 384)
  dep1 := .ofNat 32 (nbits x 383 352)
  dep0 := .ofNat 32 (nbits x 351 320)
  gy := .ofNat 16 (nbits x 319 304)
  gx := .ofNat 16 (nbits x 303 288)
  hpc := .ofNat 32 (nbits x 287 256)
  hmask := .ofNat 32 (nbits x 255 224)
  entry := .ofNat 32 (nbits x 223 192)
  scratch := .ofNat 32 (nbits x 191 160)
  gangs := .ofNat 32 (nbits x 159 128)
  seed := .ofNat 16 (nbits x 127 112)
  nparam := .ofNat 9 (nbits x 111 103)
  world := .ofNat 4 (nbits x 95 92)
  prio := .ofNat 2 (nbits x 91 90)
  debug := nbits x 89 89 == 1
  shadow := nbits x 88 88 == 1
  contain := nbits x 87 87 == 1
  pack := nbits x 86 86 == 1
  root := nbits x 85 85 == 1
  accs := .ofNat 3 (nbits x 82 80)
  uregs := .ofNat 10 (nbits x 79 70)
  vregs := .ofNat 9 (nbits x 69 61)
  width := .ofNat 2 (nbits x 60 59)
  nwarps := .ofNat 6 (nbits x 53 48)
  gangsize := .ofNat 6 (nbits x 47 42)

/-- The reserved bits of a record are 0. -/
def recordRsv (x : Nat) : Bool :=
  nbits x 102 96 == 0 && nbits x 84 83 == 0 && nbits x 58 54 == 0 && nbits x 41 0 == 0

def LaunchRec.lanes (r : LaunchRec) : Nat := 16 * 2 ^ r.width.toNat

/-- Role r of a kernel header, 1 to 7. -/
def roleAt (x r : Nat) : Role :=
  let y := nbits x (64 * r + 63) (64 * r)
  { entry := .ofNat 32 (nbits y 63 32), prio := nbits y 31 30, nu := nbits y 29 20, nv := nbits y 19 11, valid := y % 2 == 1 }

def LaunchRec.role0 (r : LaunchRec) : Role :=
  { entry := r.entry, prio := r.prio.toNat, nu := r.uregs.toNat, nv := r.vregs.toNat, valid := true }

/-- The reserved bits of a header are 0. -/
def headerRsv (x : Nat) : Bool :=
  nbits x 63 32 == 0 && (List.range 7).all fun k => nbits x (64 * k + 74) (64 * k + 65) == 0

/-- The allotment a placement gives: the largest over the role table (R114, R259). -/
def Launch.maxN (l : Launch) : Nat := ((l.roles.filter fun r => r.valid).map fun r => r.nv).foldl max 0
def Launch.maxU (l : Launch) : Nat := ((l.roles.filter fun r => r.valid).map fun r => r.nu).foldl max 0

/-! ## Units as the dispatcher sees them (R259, R260) -/

def isRootPart (cl c p : Nat) : Bool := cl = 0 && c = 0 && p = 31
def isRootBank (cl c b : Nat) : Bool := cl = 0 && c = 0 && decide (28 ≤ b)

/-- Warps that occupy a slot of some partition: of placed gangs outside `excl`, not retired. -/
def State.seated (s : State) (excl : List Nat) : List Warp :=
  s.warps.filter fun w => w.uid != 0 && !w.retired && (s.gang w.gang).state == .placed && !excl.contains w.gang

/-- What a gang asks of a cluster. -/
structure Need where
  world : Nat
  root : Bool
  pack : Bool
  accs : Nat
  banks : Nat
  words : Nat
  uwords : Nat
  slots : Nat
  /-- Warps of each block in groups that stay together; none for a retired block. -/
  blocks : List (Option (List (List Nat)))
  /-- Groups share no partition (R281). -/
  grouped : Bool
  deriving DecidableEq, Repr

/-- A partition as the dispatcher fills it. -/
structure Seat where
  idx : Nat
  ok : Bool
  taken : List Nat
  words : Nat
  uwords : Nat
  owned : Bool
  used : Bool := false
  deriving DecidableEq, Repr

/-- Conditions on a unit (R259): present on a running core; and, for a placement now, scrubbed and of the world. -/
def unitFits (s : State) (world k core : Nat) (now : Bool) : Bool :=
  s.unitPresent k && !Store.get false s.haltedCores core && !s.haltedPart &&
    (!now || (s.unitWorld k = world && s.scrubComplete k))

/-- The partitions of a core; `now` is false for check 14 of R256. A warp's registers stay reserved until its block retires (R114). -/
def seatsOf (s : State) (n : Need) (excl : List Nat) (now : Bool) (cl c : Nat) : List Seat :=
  let core := coreNo cl c
  let here := if now then (s.seated excl).filter fun w => s.warpCore w == core else []
  let all := if now then s.warps.filter fun w => w.uid != 0 && (s.gang w.gang).state == .placed &&
    !excl.contains w.gang && s.warpCore w == core && !(s.warpBlock w).retired else []
  (List.range 32).map fun p =>
    let mine := here.filter fun w => w.part == p
    let kept := all.filter fun w => w.part == p
    let per (w : Warp) : Nat := if (s.warpLaunch w).record.shadow then 2 else 1
    { idx := p
      ok := unitFits s n.world (unitKey false cl c p) core now && isRootPart cl c p == n.root
      taken := (mine.map fun w => (List.range (per w)).map fun k => w.slot + k).flatten
      words := (kept.map fun w => (s.warpLaunch w).maxN * w.width * per w).sum
      uwords := (kept.map fun w => (s.warpLaunch w).maxU * per w).sum
      owned := kept.any fun w => (s.warpLaunch w).record.accs != 0 }

/-- The lowest slot with `per` free slots from it on. -/
def takeSlot (per : Nat) (taken : List Nat) : Option Nat :=
  (List.range 16).find? fun k => (List.range per).all fun j => decide (k + j < 16) && !taken.contains (k + j)

/-- Slots for `m` warps. -/
def takeSlots (per : Nat) : Nat → List Nat → Option (List Nat × List Nat)
  | 0, taken => some ([], taken)
  | m + 1, taken =>
    match takeSlot per taken with
    | none => none
    | some k => match takeSlots per m ((List.range per).map (k + ·) ++ taken) with
      | some (ks, t) => some (k :: ks, t)
      | none => none

/-- A partition takes `m` more warps. -/
def Seat.fits (n : Need) (m : Nat) (x : Seat) : Bool :=
  x.ok && (takeSlots n.slots m x.taken).isSome && decide (x.words + m * n.words ≤ 8192) &&
    decide (x.uwords + m * n.uwords ≤ 4096) && (n.accs = 0 || !x.owned) && !(n.grouped && x.used)

/-- The partition R260 picks for `m` warps. -/
def pickSeat (n : Need) (m : Nat) (xs : List Seat) : Option Seat :=
  let el := xs.filter (Seat.fits n m)
  if n.pack then el.head?
  else el.foldl (fun best x => match best with
    | none => some x
    | some b => if x.taken.length < b.taken.length then some x else some b) none

/-- Place the groups of a block on the partitions of a core: number, partition and slot of each warp. -/
def placeGroups (n : Need) : List (List Nat) → List Seat → Option (List (Nat × Nat × Nat))
  | [], _ => some []
  | g :: gs, xs =>
    match pickSeat n g.length xs with
    | none => none
    | some x =>
      match takeSlots n.slots g.length x.taken with
      | none => none
      | some (ks, taken) =>
        let y := { x with taken, words := x.words + g.length * n.words, uwords := x.uwords + g.length * n.uwords, used := true }
        match placeGroups n gs (mapIf (fun z => z.idx == x.idx) (fun _ => y) xs) with
        | none => none
        | some rest => some (((g.zip ks).map fun e => (e.1, x.idx, e.2)) ++ rest)

/-- The free banks of a core that a gang may be given (R259, R294). -/
def freeBanks (s : State) (n : Need) (excl : List Nat) (now : Bool) (cl c : Nat) : List Nat :=
  let used := if now then s.usedBanks excl cl c else []
  (List.range 32).filter fun b =>
    unitFits s n.world (unitKey true cl c b) (coreNo cl c) now && isRootBank cl c b == n.root && !used.contains b

/-- A block fits a core: its banks and its warps' places. -/
def fitCore (s : State) (n : Need) (excl : List Nat) (now : Bool) (cl c : Nat) (groups : List (List Nat)) :
    Option (List Nat × List (Nat × Nat × Nat)) :=
  let banks := freeBanks s n excl now cl c
  if !s.corePresent cl c || banks.length < n.banks + 2 then none
  else (placeGroups n groups (seatsOf s n excl now cl c)).map fun ws => (banks.take n.banks, ws)

/-- Where a gang's blocks go: core, banks and warps of each; none for a retired block. -/
abbrev Plan := List (Option (Nat × List Nat × List (Nat × Nat × Nat)))

/-- Place blocks in rank order, each on the lowest core not yet used that can hold it. -/
def fitBlocks (s : State) (n : Need) (excl : List Nat) (now : Bool) (cl : Nat) :
    List (Option (List (List Nat))) → List Nat → Option Plan
  | [], _ => some []
  | none :: bs, used => (fitBlocks s n excl now cl bs used).map fun p => none :: p
  | some gs :: bs, used =>
    match (List.range 32).findSome? fun c =>
        if used.contains c then none else (fitCore s n excl now cl c gs).map fun x => (c, x.1, x.2) with
    | none => none
    | some x => (fitBlocks s n excl now cl bs (x.1 :: used)).map fun p => some x :: p

/-- Free partitions of a cluster: present, of the world, without a warp (R260). -/
def freeParts (s : State) (world : Nat) (excl : List Nat) (cl : Nat) : Nat :=
  let ws := (s.seated excl).filter fun w => (s.warpGang w).cluster == cl
  ((List.range 1024).filter fun k =>
    let u := unitKey false cl (k / 32) (k % 32)
    s.unitPresent u && s.unitWorld u = world && !ws.any fun w => s.partNo w == u).length

/-- Insert a cluster by falling number of free partitions, the lower number first among equals. -/
def insertCluster (x : Nat × Nat) : List (Nat × Nat) → List (Nat × Nat)
  | [] => [x]
  | y :: ys => if y.2 < x.2 then x :: y :: ys else y :: insertCluster x ys

/-- The clusters in the order R260 tries them. -/
def clusterOrder (s : State) (world : Nat) (excl : List Nat) : List Nat :=
  ((List.range 4).foldl (fun l cl => insertCluster (cl, freeParts s world excl cl) l) []).map Prod.fst

/-- The place R259 and R260 give a gang. -/
def fitOn (s : State) (n : Need) (excl clusters : List Nat) (now : Bool) : Option (Nat × Plan) :=
  clusters.findSome? fun cl => (fitBlocks s n excl now cl n.blocks []).map fun p => (cl, p)

/-- What a launch's gang asks, with its blocks. -/
def Launch.need (l : Launch) (blocks : List (Option (List (List Nat)))) (grouped : Bool) : Need :=
  let per := if l.record.shadow then 2 else 1
  { world := l.record.world.toNat, root := l.record.root, pack := l.record.pack, accs := l.record.accs.toNat
    banks := (l.record.scratch.toNat + 32767) / 32768, words := l.maxN * l.record.lanes * per, uwords := l.maxU * per
    slots := per, blocks, grouped }

/-- A new gang of a launch: every warp by itself. -/
def Launch.fresh (l : Launch) : Need :=
  l.need (List.replicate l.record.gangsize.toNat (some ((List.range l.record.nwarps.toNat).map fun k => [k]))) false

/-! ## The checks of R256 -/

abbrev seqRing : Nat := 2 ^ 28 - 1

/-- Sequence number of the latest record taken from a queue; 0 when none has been. -/
def Ctx.latest (c : Ctx) (q : Nat) : Nat :=
  let t := (c.queue q).taken
  if t = 0 then 0 else (t - 1) % seqRing + 1

/-- A sequence number lies ahead of L: n − L is 1 to 2^26 on the ring; before any record, n is 1 to 2^26 (R258). -/
def notYetTaken (latest n : Nat) : Bool :=
  if latest = 0 then n ≤ 2 ^ 26
  else
    let a := (n + seqRing - latest % seqRing) % seqRing
    1 ≤ a && a ≤ 2 ^ 26

/-- Check 13 of a dep. -/
def depOk (l : Launch) (dep : Word) : Bool :=
  let n := dep.toNat % 2 ^ 28
  dep = 0 || (dep != l.id && n != 0 &&
    !(l.queue = some (dep.toNat / 2 ^ 28) && notYetTaken (l.id.toNat % 2 ^ 28) n))

/-- Scratchpad bytes a wave's descriptor and records take (R321). -/
def Wave.covers (v : Wave) (c : Ctx) : Nat :=
  match c.graph with
  | none => 0
  | some g =>
    let st := g.stages.getD v.stage {}
    match v.edge with
    | none => st.inoff.toNat + 64
    | some e => st.inoff.toNat + 64 + st.batch.toNat * (g.edges.getD e {}).recsz.toNat * 16

/-- The first failing check of R256, 0 when all pass. -/
def checkCode (s : State) (l : Launch) (rsv header params : Bool) : Nat :=
  let r := l.record
  let roles := l.roles.filter fun x => x.valid
  let pcOk (x : Word) : Bool := x.toNat % 12 == 0 && decide (x.toNat < l.len)
  let cover := match l.wave with
    | none => 0
    | some v => v.covers (s.ctx l.slot)
  let checks : List Bool :=
    [rsv && header && l.len % 12 == 0 && decide (12 ≤ l.len),
     r.width.toNat ≤ 2,
     roles.all fun x => x.nv % 8 == 0 && decide (8 ≤ x.nv) && decide (x.nv ≤ 256) && decide (x.nv * r.lanes ≤ 8192),
     roles.all fun x => x.nu % 8 == 0 && decide (8 ≤ x.nu) && decide (x.nu ≤ 512),
     r.accs.toNat ≤ 4,
     r.scratch.toNat % 128 == 0 && decide (r.scratch.toNat ≤ 983040) && decide (cover ≤ r.scratch.toNat),
     r.nparam.toNat ≤ 256 && decide (r.nparam.toNat ≤ r.uregs.toNat) && params,
     decide (1 ≤ r.nwarps.toNat) && decide (r.nwarps.toNat ≤ 32) && decide (1 ≤ r.gangsize.toNat) &&
       decide (r.gangsize.toNat ≤ 32),
     decide (1 ≤ r.gangs.toNat) && decide (r.gangs.toNat ≤ 2 ^ 20),
     (r.gx = 0) == (r.gy = 0),
     r.world = (s.ctx l.slot).world && (!r.root || (r.world = 0 && r.gangs = 1 && r.gangsize = 1 && r.nwarps = 1 &&
       decide (r.scratch.toNat ≤ 65536))),
     pcOk r.entry && pcOk r.hpc && (roles.all fun x => pcOk x.entry) && r.hmask &&& ~~~0x00010DA0 = 0,
     depOk l r.dep0 && depOk l r.dep1]
  match (checks.zipIdx.find? fun c => !c.1).map Prod.snd with
  | some k => k + 1
  | none => if (fitOn s l.fresh [] [0, 1, 2, 3] false).isSome then 0 else 14

/-- A record becomes a launch: its header and parameters are read, and the checks made. -/
def readLaunch (slot : Nat) (queue : Option Nat) (wave : Option Wave) (id : Word) (r : LaunchRec) (rsv : Bool) (s : State) :
    Nat × Launch × State :=
  let kimg := r.kimg.toNat
  let (h, s) := if kimg % 128 = 0 then cpRead slot kimg 64 s else (none, s)
  let x := (h.map natOfBytes).getD 0
  let np := r.nparam.toNat
  let (ps, s) := if np = 0 then (some [], s)
    else if r.params.toNat % 4 != 0 || 256 < np then (none, s)
    else cpRead slot r.params.toNat (4 * np) s
  let words (bs : List Byte) : List Word := (List.range np).map fun k => .ofNat 32 (natOfBytes ((bs.drop (4 * k)).take 4))
  let l : Launch :=
    { uid := s.nextLaunch, id, slot, queue, wave, asid := (s.ctx slot).asid, record := r, len := nbits x 31 0
      roles := r.role0 :: (List.range 7).map fun k => roleAt x (k + 1), params := (ps.map words).getD [] }
  (checkCode s l (rsv && headerRsv x) h.isSome ps.isSome, l, s)

/-! ## Taking gangs down -/

/-- Operations sent and not yet performed are performed or dropped: a free choice each (R272). One whose performing would commit a line of the gang's version, or expose the gang, is dropped: the end of a gang discards its version and leaves `contain` as it is (R237, R246, R269). -/
def performOrDrop (r : OpRef) (s : State) : State :=
  let g := s.gang (s.warp r.warp).gang
  let go := Config.turn s.draws % 2 = 1 && !(s.opOf r).any fun o => isRelease o.ins
  let s := s.draw
  let t := if go && storeReady s r then storeRegisters r s else if go && atomReady s r then atomPerforms r s else s
  let h := t.gang g.uid
  if h.retained.contain = g.retained.contain && g.shadows.all h.shadows.contains then t else s

def sentOps (u : Nat) (s : State) : State :=
  each ((s.warp u).ops.map fun o => ({ warp := u, op := o.id } : OpRef)) s performOrDrop

/-- Drop what the part keeps for the operations of a gang: units, requests, faults, batches, reports, joined collectives. A gang placed `again` keeps the triangles a separator has taken from it, with the faults they have met: their tags stand, and no replayed TRISUB is taken (R347, R350). -/
def dropGangOps (again : Bool) (g : Nat) (s : State) : State :=
  let us := (s.gangWarps g).map fun w => w.uid
  let mine (o : OpRef) : Bool := us.contains o.warp && !(again && decide (2 ^ 33 ≤ o.op))
  let asks (q : Nat × LeaveFor) : Bool := match q.2 with
    | .pool w _ => us.contains w
    | .collective w _ _ => us.contains w
    | .engine o _ => mine o
  let pool := ((s.gangWarps g).map fun w => w.pool).sum + ((s.gang g).blocks.map fun b => (b.cv.map fun c => c.paid).sum).sum
  let home := (s.gang g).cluster
  let clean (e : Cluster × Nat) : Cluster :=
    let c := e.1
    { c with
      held := c.held - ((c.holders.filter fun h => mine h.1).map Prod.snd).sum - (if e.2 = home then pool else 0)
      holders := c.holders.filter fun h => !mine h.1
      requests := c.requests.filter fun q => !asks q }
  let coll (c : CollInstance) : CollInstance :=
    { c with given := c.given.filter fun x => !mine x.2, results := c.results.filter fun x => !mine x.1 }
  { s with
    clusters := s.clusters.zipIdx.map clean
    faults := s.faults.filter fun f => !mine f.op
    batches := (s.batches.filter fun b => b.ops = [] || b.ops.any fun o => !mine o).map fun b => { b with ops := b.ops.filter fun o => !mine o }
    reports := s.reports.filter fun r => r.gang != g
    tris := s.tris.filter fun t => again || t.gang != g
    colls := s.colls.map coll }

/-- Stop a gang where it stands (R269, R272): its version is discarded, its blocks retire scrubbed, its warps leave. -/
def stopGang (state : GangState) (g : Nat) (s : State) : State :=
  let s := if (s.gang g).state = .placed then each ((s.gangWarps g).map fun w => w.uid) s sentOps else s
  let s := discardVersion g (dropGangOps (state == .relaunching) g s)
  let s := s.onGang g fun x => { x with state, blocks := [], order := s.nextOrder }
  { s with nextOrder := s.nextOrder + 1, warps := s.warps.filter fun w => w.gang != g }

/-! ## Ends of launches (R257, R416, R417) -/

def LaunchState.live : LaunchState → Bool
  | .waiting | .running => true
  | .ended _ => false

def Completion.of (l : Launch) (status : Nat) : Completion :=
  { id := l.id, status, wave := l.wave.isSome, relaunches := l.relaunches }

/-- A stage after its wave has ended: a last wave that completed lets the next frame begin (R320). -/
def Stage.waveEnds (v : Wave) (status : Nat) (st : Stage) : Stage :=
  if v.last && !v.pred then
    { st with lastOut := false, lastDone := if status = 0 then v.frame else st.lastDone }
  else st

/-- The state region of a stage as its last wave of a frame left it (R339). -/
def snapshot (slot : Nat) (v : Wave) (s : State) : State :=
  match (s.ctx slot).graph with
  | none => s
  | some g =>
    let st := g.stages.getD v.stage {}
    if g.role = 2 then s
    else
      let (bs, s) := cpRead slot st.state.toNat st.ssize.toNat s
      let cut : Cut := { g.cut with snapshots := Store.put [] g.cut.snapshots (v.frame.toNat * 32 + v.stage) (bs.getD []) }
      s.onCtx slot fun c => { c with graph := some { g with cut } }

/-- A launch ends: its gangs leave, its tags go from every window (R272), its replicas are dropped (R148), and its entry is written. -/
def endLaunch (u : Nat) (e : Completion) (s : State) : State :=
  let l := s.launch u
  if !l.state.live then s
  else
    let mine := (s.gangs.filter fun g => g.launch == u).map fun g => g.uid
    let s := (s.onTags (fun t => !mine.contains t.gangUid) id).onLaunch u fun l => { l with state := .ended e.status, tags := [], params := [] }
    let s := { s with
      gangs := s.gangs.filter fun g => g.launch != u
      mem := { s.mem with replicas := s.mem.replicas.filter fun r => r.launch != u } }
    match l.wave with
    | none => match l.queue with
      | some q => writeCompletion l.slot q e s
      | none => s
    | some v =>
      let s := s.onCtx l.slot fun c => { c with graph := c.graph.map fun g =>
        { g with stages := mapAt (Stage.waveEnds v e.status) g.stages v.stage } }
      if e.status = 5 then writeCompletion l.slot 0 e s
      else if e.status = 0 && v.last && !v.pred then snapshot l.slot v s
      else s

/-- Gangs of a launch. -/
def State.gangsOf (s : State) (u : Nat) : List Nat := (s.gangs.filter fun g => g.launch == u).map fun g => g.uid

/-- Stop every gang of a launch and end it. -/
def stopLaunch (u : Nat) (e : Completion) (s : State) : State :=
  if (s.launch u).state.live then endLaunch u e (each (s.gangsOf u) s (stopGang .killed)) else s

/-- Kill a context (R416): every launch of it ends with status 3. -/
def killContext (slot : Nat) (s : State) : State :=
  let s := s.onCtx slot fun c => { c with killed := true }
  let mine := (s.launches.filter fun l => l.slot == slot && l.state.live).map fun l => l.uid
  each mine s fun u s => stopLaunch u (.of (s.launch u) 3) s

/-! ## Taking records (R252, R253) -/

/-- Take the record at head. -/
def takeRecord (slot q : Nat) (d : QDesc) (s : State) : State :=
  let (bs, s) := cpRead slot (d.ring + 64 * (d.head % 2 ^ d.logn)) 64 s
  let x := (bs.map natOfBytes).getD 0
  let s := cpWrite slot (((s.ctx slot).queue q).qdesc.toNat + 40) (bytesOfNat 4 ((d.head + 1) % 2 ^ 32)) s
  let s := s.onCtx slot fun c => c.onQueue q fun k => { k with taken := k.taken + 1 }
  let id : Word := .ofNat 32 (q * 2 ^ 28 + (s.ctx slot).latest q)
  let (code, l, s) := readLaunch slot (some q) none id (.ofNat x) (recordRsv x && bs.isSome) s
  let s := { s with launches := s.launches ++ [l], nextLaunch := s.nextLaunch + 1 }
  if (s.ctx slot).killed then endLaunch l.uid (.of l 3) s
  else if code != 0 then endLaunch l.uid { Completion.of l 1 with cause := .ofNat 32 code } s
  else s

/-- Take records from head onward, `n` at most. -/
def takeRecords (slot q : Nat) (d : QDesc) : Nat → State → State
  | 0, s => s
  | n + 1, s => takeRecords slot q { d with head := d.head + 1 } n (takeRecord slot q d s)

/-- A doorbell reaches the command processor (R252). -/
def ringQueue (slot q : Nat) (s : State) : State :=
  let c := s.ctx slot
  if !c.valid || (c.queue q).qdesc = 0 || (c.queue q).stopped then s
  else match readQueue slot q s with
    | (none, s) => setCtxst slot (.ofNat 32 (3 + 16 * q)) s
    | (some d, s) =>
      let n := (d.tail + 2 ^ 32 - d.head) % 2 ^ 32
      if 2 ^ d.logn < n then
        writeCompletion slot q { id := 0, status := 6 } (s.onCtx slot fun c => c.onQueue q fun k => { k with stopped := true })
      else takeRecords slot q d n s

/-- A write of qdesc (R252, R402): the descriptor is checked, and a stopped queue takes its records again. -/
def writeQdesc (slot q : Nat) (v : DWord) (s : State) : State :=
  let was := ((s.ctx slot).queue q).stopped
  let s := s.onCtx slot fun c => c.onQueue q fun k => { k with qdesc := v, stopped := false }
  if v = 0 || !(s.ctx slot).valid then s
  else match readQueue slot q s with
    | (none, s) => setCtxst slot (.ofNat 32 (3 + 16 * q)) s
    | (some _, s) =>
      let s := setCtxst slot 0 s
      if was then ringQueue slot q s else s

/-! ## Dependences (R258) -/

inductive Dep | ok | waits | failed
  deriving DecidableEq, Repr

/-- What a dep of a context's launch comes to. -/
def depOf (s : State) (slot : Nat) (dep : Word) : Dep :=
  let n := dep.toNat % 2 ^ 28
  let q := dep.toNat / 2 ^ 28
  let latest := (s.ctx slot).latest q
  if dep = 0 then .ok
  else if latest = 0 then (if n ≤ 2 ^ 26 then .waits else .ok)
  else if notYetTaken latest n then .waits
  else if (latest + seqRing - n % seqRing) % seqRing < 2 ^ 27 then
    match s.launches.reverse.find? fun l => l.slot == slot && l.queue == some q && l.id == dep with
    | none => .ok
    | some l => match l.state with
      | .ended st => if st = 0 then .ok else .failed
      | _ => .waits
  else .ok

def depFails (s : State) (l : Launch) : Bool :=
  depOf s l.slot l.record.dep0 = .failed || depOf s l.slot l.record.dep1 = .failed

/-- A predictor wave waits until its stage has done the frames below (R320). -/
def waveWaits (s : State) (l : Launch) : Bool :=
  match l.wave with
  | none => false
  | some v => v.pred && (match (s.ctx l.slot).graph with
    | none => true
    | some g => decide ((g.stages.getD v.stage {}).lastDone.toNat + 1 < v.frame.toNat))

/-- A launch has a gang to be placed, its deps are done, and no earlier launch of its queue has one left (R258). -/
def launchReady (s : State) (l : Launch) : Bool :=
  l.state.live && decide (l.placed < l.record.gangs.toNat) && !waveWaits s l &&
    (l.queue = none || (depOf s l.slot l.record.dep0 = .ok && depOf s l.slot l.record.dep1 = .ok &&
      !(s.launches.any fun e => e.slot == l.slot && e.queue == l.queue && decide (e.uid < l.uid) && e.state.live &&
        decide (e.placed < e.record.gangs.toNat))))

/-! ## Blocks and warps as R32 starts them -/

/-- sr.seed at launch (R32). -/
def seedAt (seed : BitVec 16) (block warp lane : Nat) : BitVec 16 :=
  let x : BitVec 16 := seed + 0x9E37 * BitVec.ofNat 16 (block * 2048 + warp * 64 + lane)
  if x = 0 then 1 else x

/-- Uniform registers at launch: the parameters; at a seal entry, s0 to s15 are those of the seal (R32). -/
def startUniforms (l : Launch) (r : Retained) : Store Reg :=
  let ps := l.params.zipIdx.map fun e => (e.2, e.1)
  let vs := r.vals.zipIdx.map fun e => (e.2, e.1)
  let all := if r.sealNo = 0 then ps else (ps.filter fun e => 16 ≤ e.1) ++ vs
  each all [] fun e m => Store.put {} m e.1 (fullReg e.2)

/-- A warp as R32 starts it. -/
def newWarp (l : Launch) (g : Gang) (uid rank num part slot : Nat) : Warp :=
  let r := l.record
  let entry := if g.retained.sealNo = 0 then r.entry else g.retained.rpc
  { uid, gang := g.uid, rank, num, part, slot, width := r.lanes, nv := r.vregs.toNat, nu := r.uregs.toNat
    threads := (List.range r.lanes).map fun k =>
      { pc := entry, seed := seedAt r.seed (g.num * r.gangsize.toNat + rank) num k }
    uregs := startUniforms l g.retained }

/-- The wave descriptor and the records of a gang, as they stand from inoff on (R321). -/
def waveBytes (s : State) (l : Launch) (v : Wave) (num : Nat) : List Byte :=
  let g := (s.ctx l.slot).graph.getD {}
  let st := g.stages.getD v.stage {}
  let recs := v.batches.getD num []
  let x := st.state.toNat * 2 ^ 448 + st.ssize.toNat * 2 ^ 416 + v.firsts.getD num 0 * 2 ^ 392 + recs.length * 2 ^ 384 +
    v.edge.getD 0xFF * 2 ^ 376 + (if v.pred then 2 ^ 372 else 0) + (if v.last then 2 ^ 371 else 0) + v.frame.toNat * 2 ^ 320
  bytesOfNat 64 x ++ recs.flatten

/-- Addresses and headers of the records of a gang (R207). -/
def waveHeaders (s : State) (l : Launch) (v : Wave) (num : Nat) : Store QWord :=
  let g := (s.ctx l.slot).graph.getD {}
  let at0 := (g.stages.getD v.stage {}).inoff.toNat + 64
  (v.batches.getD num []).zipIdx.map fun e => (at0 + e.2 * e.1.length, .ofNat 128 (natOfBytes (e.1.take 16)))

/-- A block as R32 starts it, on its core, with the wave's records delivered (R207, R321). -/
def newBlock (s : State) (l : Launch) (num rank core : Nat) (banks : List Nat) : Block :=
  let b : Block := { rank, core, banks, prio := l.record.prio.toNat, cv := List.replicate 16 {} }
  match l.wave with
  | none => b
  | some v =>
    let inoff := (((s.ctx l.slot).graph.getD {}).stages.getD v.stage {}).inoff.toNat
    { b with scratch := Memory.setBytes [] inoff (waveBytes s l v num), records := waveHeaders s l v num }

/-- Build a gang's blocks and warps by a plan. -/
def buildGang (u : Nat) (plan : Plan) (s : State) : State :=
  let g := s.gang u
  let l := s.launch g.launch
  let blocks := plan.zipIdx.map fun e => match e.1 with
    | some (core, banks, _) => newBlock s l g.num e.2 core banks
    | none => noBlock
  let seats := (plan.zipIdx.map fun e => match e.1 with
    | some (_, _, ws) => ws.map fun w => (e.2, w)
    | none => []).flatten
  let ws := seats.zipIdx.map fun e => newWarp l g (s.nextWarp + e.2) e.1.1 e.1.2.1 e.1.2.2.1 e.1.2.2.2
  { (s.onGang u fun g => { g with blocks }) with warps := s.warps ++ ws, nextWarp := s.nextWarp + ws.length }

/-- Power up the units of a plan that are gated (R379; log 20). -/
def powerUp (k : Nat) (s : State) : State :=
  let clock := (s.cluster (nbits k 11 10)).clock.toNat
  { s with units := Store.put {} s.units k { Store.get {} s.units k with gated := false, idle := clock, unscrubbed := false } }

/-- A gang stands placed: the caches of another launch's core are emptied, the placement acquire is performed, and L1 leaves the banks that become scratchpad (R239, R294, R297, R415). -/
def seatGang (u cluster : Nat) (plan : Plan) (s : State) : State :=
  let l := (s.gang u).launch
  let cores := plan.filterMap fun b => b.map fun x => x.1
  let enter (c : Nat) (s : State) : State :=
    let s := s.onCache (coreNo cluster c) fun x => if x.launch = l then x else { x with consts := [], code := [], launch := l }
    acquire (coreNo cluster c) s
  let evict (e : Nat × List Nat) (s : State) : State := s.onCache (coreNo cluster e.1) fun x => e.2.foldl (fun x b => x.dropBank b) x
  let taken := plan.filterMap fun b => b.map fun x => (x.1, x.2.1)
  let used := (plan.filterMap fun b => b.map fun x =>
    (x.2.1.map fun k => unitKey true cluster x.1 k) ++ (x.2.2.map fun w => unitKey false cluster x.1 w.2.1)).flatten
  let s := each taken (each cores s enter) evict
  let s := each used s powerUp
  let s := s.onGang u fun g => { g with cluster, state := .placed, order := s.nextOrder }
  { s with nextOrder := s.nextOrder + 1 }

/-- A new gang of a launch, not yet seated. -/
def newGang (l : Launch) (uid : Nat) : Gang :=
  { uid, launch := l.uid, num := l.placed, cluster := 0, blocks := []
    retained := { vals := List.replicate 16 0, rpc := l.record.entry, contain := l.record.contain } }

/-- Place the next gang of a launch. -/
def placeNew (u cluster : Nat) (plan : Plan) (s : State) : State :=
  let l := s.launch u
  let k := s.nextGang
  let s := { s with gangs := s.gangs ++ [newGang l k], nextGang := k + 1 }
  let s := s.onLaunch u fun l => { l with placed := l.placed + 1, state := .running }
  seatGang k cluster plan (buildGang k plan s)

/-- Place a gang that is relaunched. -/
def placeAgain (g cluster : Nat) (plan : Plan) (s : State) : State := seatGang g cluster plan (buildGang g plan s)

end Sys2Proof.Machine
end

