-- ==== Sys2Proof/Machine/Preempt.lean ====
section
/-! DEFINITION. The dispatcher (R259, R260), eviction and restore (R278 to R281, R285, R286), and the completion of launches (R257, R258). -/

namespace Sys2Proof.Machine

/-! ## Candidates for placement (R259, R269, R281) -/

inductive Cand
  /-- A gang relaunched under R269. -/
  | again (g : Nat)
  /-- An evicted gang. -/
  | back (g : Nat)
  /-- The next gang of a launch. -/
  | fresh (l : Nat)
  deriving DecidableEq, Repr

/-- A candidate with its class, its place in the class and its order there. -/
structure Bid where
  prio : Nat
  rank : Nat
  order : Nat
  cand : Cand
  deriving DecidableEq, Repr

def Bid.before (a b : Bid) : Bool :=
  a.prio < b.prio || (a.prio = b.prio && (a.rank < b.rank || (a.rank = b.rank && a.order < b.order)))

def gangPrio (s : State) (g : Gang) : Nat := (s.launch g.launch).record.prio.toNat

def bids (s : State) : List Bid :=
  let gs (st : GangState) : List Gang := s.gangs.filter fun g => g.state == st
  ((gs .relaunching).map fun g => { prio := gangPrio s g, rank := 0, order := g.order, cand := .again g.uid }) ++
  ((gs .evicted).map fun g => { prio := gangPrio s g, rank := 1, order := g.order, cand := .back g.uid }) ++
  ((s.launches.filter (launchReady s)).map fun l =>
    { prio := l.record.prio.toNat, rank := 2, order := l.uid, cand := .fresh l.uid })

/-- The first candidate of the most urgent class: it is placed next, or holds back the rest. -/
def headBid (s : State) : Option Bid :=
  if s.haltedPart then none
  else (bids s).foldl (fun best b => match best with
    | none => some b
    | some a => if b.before a then some b else some a) none

/-- Live warps of a block in groups by partition, lowest number first (R281). -/
def groupsOf (ws : List Warp) : List (List Nat) :=
  ((ws.map fun w => w.part).eraseDups).map fun p => (ws.filter fun w => w.part == p).map fun w => w.num

/-- What a candidate asks. DESIGN CHOICE (log 30): a gang that comes back asks for its live warps only; R280 has freed the registers of those retired, and R281 does not say that they are placed again. -/
def Cand.need (s : State) : Cand → Need
  | .fresh l => (s.launch l).fresh
  | .again g => (s.launch (s.gang g).launch).fresh
  | .back g =>
    let x := s.gang g
    let l := s.launch x.launch
    let block (b : Block) : Option (List (List Nat)) :=
      let ws := (s.blockWarps g b.rank).filter fun w => !w.retired
      if b.retired then none else some (if l.record.accs = 0 then ws.map fun w => [w.num] else groupsOf ws)
    l.need (x.blocks.map block) (l.record.accs != 0)

/-- Where a candidate fits now, with some gangs taken away. -/
def Cand.fit (s : State) (excl clusters : List Nat) (c : Cand) : Option (Nat × Plan) :=
  fitOn s (c.need s) excl clusters true

def Cand.place (s : State) (c : Cand) : Option (Nat × Plan) :=
  c.fit s [] (clusterOrder s (c.need s).world [])

/-! ## Save areas (R279) -/

/-- The pinned residencies of a gang's context on the gang's partitions. -/
def pinnedOn (s : State) (g : Gang) : List Residency :=
  let parts := ((s.gangWarps g.uid).filter fun w => !w.retired).map fun w => s.partNo w
  (((s.ctx (s.launch g.launch).slot).residencies.map Prod.snd).filter fun r =>
    r.live && r.pinned && match r.home with
      | some p => parts.contains p
      | none => false)

/-- A warp as it would be saved. -/
def savedWarp (s : State) (w : Warp) : SavedWarp :=
  let l := s.warpLaunch w
  { warp := w, part := s.partNo w, world := l.record.world.toNat, nv := l.maxN, nu := l.maxU }

/-- A block as it would be saved. -/
def savedBlock (s : State) (g : Gang) (b : Block) : SavedBlock :=
  let l := s.launch g.launch
  { gang := g.uid, block := b, core := coreNo g.cluster b.core, parts := ((s.blockWarps g.uid b.rank).map fun w => w.part).eraseDups
    world := l.record.world.toNat, size := l.record.scratch.toNat, tiles := l.record.accs.toNat }

/-- The images of a gang: its warps', its blocks', and the contents of its pinned residencies. -/
def gangImages (s : State) (stamp : Nat) (g : Gang) : List Image :=
  (((s.gangWarps g.uid).filter fun w => !w.retired).map fun w => (savedWarp s w).image stamp) ++
    ((g.blocks.filter fun b => !b.retired).map fun b => (savedBlock s g b).image stamp) ++
    (pinnedOn s g).map fun r =>
      { world := (s.launch g.launch).record.world.toNat, length := 2048 * r.tiles, byte := fun _ k => r.data.byte k }

/-- Bytes a gang takes in the save area. -/
def saveBytes (s : State) (g : Gang) : Nat := ((gangImages s 0 g).map Image.length).sum

/-- Space of a context's save area taken by evicted gangs. -/
def savedIn (s : State) (slot : Nat) : Nat :=
  ((s.gangs.filter fun g => g.state == .evicted && (s.launch g.launch).slot == slot).map fun g => g.saved).sum

/-- A gang's state fits what is left of its context's save area, beside `extra` bytes. -/
def saveFits (s : State) (g : Gang) (extra : Nat) : Bool :=
  let slot := (s.launch g.launch).slot
  decide (savedIn s slot + extra + saveBytes s g ≤ (s.ctx slot).savesize.toNat)

/-! ## Victims (R278) -/

/-- Order of victims: the least urgent class first, then the most recently placed. -/
def victimBefore (s : State) (a b : Gang) : Bool :=
  gangPrio s b < gangPrio s a || (gangPrio s a = gangPrio s b && b.order < a.order)

def insertVictim (s : State) (g : Gang) : List Gang → List Gang
  | [] => [g]
  | x :: xs => if victimBefore s g x then g :: x :: xs else x :: insertVictim s g xs

/-- Gangs a candidate of class `prio` and world `world` may displace on a cluster, in order. -/
def victimsOn (s : State) (prio world cl : Nat) : List Gang :=
  ((s.gangs.filter fun g => g.state == .placed && g.cluster == cl && decide (prio < gangPrio s g) &&
    (s.launch g.launch).record.world.toNat == world).foldl (fun l g => insertVictim s g l) [])

/-- Add victims until the candidate fits; gangs without room in their save area are passed over. -/
def gather (s : State) (c : Cand) (cl : Nat) : List Gang → List Gang → Option (List Gang)
  | [], _ => none
  | g :: gs, chosen =>
    let slot (x : Gang) : Nat := (s.launch x.launch).slot
    let extra := ((chosen.filter fun x => slot x == slot g).map fun x => saveBytes s x).sum
    if !saveFits s g extra then gather s c cl gs chosen
    else
      let more := chosen ++ [g]
      if (c.fit s (more.map fun x => x.uid) [cl]).isSome then some more else gather s c cl gs more

/-- Partitions the victims occupy. -/
def victimParts (s : State) (vs : List Gang) : Nat :=
  ((vs.map fun g => ((s.gangWarps g.uid).filter fun w => !w.retired).map fun w => s.partNo w).flatten).eraseDups.length

/-- The gangs the dispatcher evicts for its head candidate, when that does not fit. -/
def victims (s : State) : List Nat :=
  match headBid s with
  | none => []
  | some b =>
    if (b.cand.place s).isSome then []
    else
      let world := (b.cand.need s).world
      let sets := (List.range 4).filterMap fun cl => gather s b.cand cl (victimsOn s b.prio world cl) []
      let best := sets.foldl (fun best vs => match best with
        | none => some vs
        | some x => if victimParts s vs < victimParts s x then some vs else some x) none
      (best.getD []).map fun g => g.uid

/-! ## Eviction (R280) -/

/-- The words that a store has still to write: of a replay, those whose guards stand (R285 rule 4). -/
def storeWords (s : State) (r : OpRef) (o : Op) : List Nat :=
  ((storeRest s r o).map fun e => (e.2.map fun q =>
    let k := (s.space (s.warp r.warp)).loc (e.1.addr + q.1)
    (List.range ((k + q.2.length - 1) / 4 + 1 - k / 4)).map fun j => k / 4 + j).flatten).flatten.eraseDups

/-- A plain store that was sent: performed or dropped, with its guards standing behind it (R280 step 3, R285 rule 4). -/
def sendStore (r : OpRef) (s : State) : State :=
  match s.opOf r with
  | none => s
  | some o =>
    let words := storeWords s r o
    let perform := Config.turn s.draws % 2 = 1
    let s := s.draw
    let s := if perform then each (storeRest s r o) s fun e s => storeLane (s.warp r.warp) (s.party (s.warp r.warp)) o e s else s
    let others := s.mem.guards.filter fun g => g.op != r
    { s.onOp r (fun o => { o with state := .sent }) with
      mem := { s.mem with guards := others ++ words.map fun k => { word := k, op := r } } }

/-- Every page of a store translates. -/
def storeGoes (s : State) (r : OpRef) : Bool :=
  match s.opOf r with
  | none => false
  | some o => storeReady s r && (probeAll (s.space (s.warp r.warp)) (sizeOf o.ins) .write (pagesOf (sizeOf o.ins) o.slots) s).1.isNone

/-- An atomic that was sent: each of its steps not performed yet is performed under its tag, or left for the replay, a free choice each (R153, R164, R280 step 3); the answers are dropped. -/
def sendAtomic (r : OpRef) (s : State) : State :=
  let step (x : Nat × Nat) (s : State) : State :=
    let go := Config.turn s.draws % 2 = 1
    if go then atomPart r x.1 x.2 s.draw else s.draw
  (each (atomSteps s r) s step).onOp r fun o => { o with state := .sent }

/-- An arrival that was sent is performed under its tag; the answer is dropped (R293). -/
def sendArrive (r : OpRef) (s : State) : State :=
  match s.opOf r with
  | none => s
  | some o =>
    let w := s.warp r.warp
    match o.slots.head?.bind fun x => (scrTarget s w x.addr 32).map fun t => (x, t) with
    | none => s
    | some (x, t) =>
      if scrBad s w.gang t 24 || arriveFails s w o x t then s
      else (arriveOnce w o x t s).2.onOp r fun o => { o with state := .sent }

/-- A query that was sent declares its bytes; the distributor hands out its tile, and the tag keeps the dropped answer (R160, R293). -/
def sendQuery (r : OpRef) (s : State) : State :=
  let s := declareOn r 16 s
  match s.opOf r with
  | none => s
  | some o => if wdqReady s r then (takeTile (s.warp r.warp) o s).2.onOp r fun o => { o with state := .sent } else s

/-- Steps 3 and 4 for one operation: whether one that may be performed had been sent is a free choice, but for one that some lane of has been performed. One that an older operation of its thread holds back, or that waits at a page, was not sent. -/
def freezeOp (r : OpRef) (s : State) : State :=
  match s.opOf r with
  | none => s
  | some o =>
    let was := Config.turn s.draws % 2 = 1 || o.slots.any fun x => x.answer.isSome
    let s := s.draw
    if !was || !opReady s r o then s
    else match o.ins with
      | .st .. | .stRel .. => if storeGoes s r then sendStore r s else s
      | .sts .. => storeRegisters r s
      | .wdq .. => sendQuery r s
      | .baroArrive .. => if arriveReady s r then sendArrive r s else s
      | _ => if atomReady s r then sendAtomic r s else s.onOp r fun o => { o with state := .sent }

/-- The physical place of a byte of a save area, whose pages carry the attribute sv (R279, R302). -/
def savePa (s : State) (slot va : Nat) : Option Nat :=
  match walk s va (s.ctx slot).ptroot.toNat 5 0 with
  | .ok (_, e, lvl) => if nbits e 5 5 = 1 then some (nbits e 51 16 * 65536 + va % 2 ^ levelShift lvl) else none
  | .error _ => none

/-- One line of a save area is written, under the key of the context's world (R280 steps 5 and 6, R381). -/
def saveLine (slot va : Nat) (bs : List Byte) (s : State) : State :=
  match savePa s slot (va % 2 ^ 60) with
  | some pa => if placeOf s pa = .dram then dramWrite (s.ctx slot).world.toNat pa bs s else s
  | none => s

/-- The images of an evicted gang are written into its context's save area, line by line, from `first` on (R279 to R281; log 30). -/
def writeSave (slot first : Nat) (images : List Image) (s : State) : State :=
  let size := (images.map Image.length).sum
  let base := (s.ctx slot).savebase.toNat + first
  let put (line : Nat) (s : State) : State :=
    let lo := max base line
    let hi := min (base + size) (line + 128)
    if hi ≤ lo || (savePa s slot (line % 2 ^ 60)).isNone then s
    else saveLine slot lo ((List.range (hi - lo)).map fun k => imagesByte (fun _ => false) 0 images (lo - base + k)) s
  { s with mem := (each ((List.range (size / 128 + 2)).map fun j => base / 128 * 128 + 128 * j) s put).mem }

/-- Every residency on the partitions the gang leaves becomes absent (R180, R280 step 6). -/
def leaveHomes (g : Nat) (s : State) : State :=
  let parts := ((s.gangWarps g).filter fun w => !w.retired).map fun w => s.partNo w
  let away (r : Nat × Residency) : Nat × Residency :=
    if r.2.live && (match r.2.home with
      | some p => parts.contains p
      | none => false) then (r.1, { r.2 with home := none }) else r
  let leave (c : Nat × Ctx) : Nat × Ctx := (c.1, { c.2 with residencies := c.2.residencies.map away })
  { s with ctxs := s.ctxs.map leave }

/-- Uncorrectable errors that stand in a warp's registers and have no record yet (R364). -/
def Warp.badRegs (w : Warp) : Nat := ((w.vregs ++ w.uregs).filter fun e => e.2.bad && !e.2.noted).length

def Warp.noteBad (w : Warp) : Warp :=
  let note (r : Nat × Reg) : Nat × Reg := (r.1, if r.2.bad then { r.2 with noted := true } else r.2)
  { w with vregs := w.vregs.map note, uregs := w.uregs.map note }

/-- Eviction saves registers that hold an error: it is recorded, and consumed by nobody yet (R363, R364). -/
def saveBad (u : Nat) (s : State) : State :=
  let w := s.warp u
  let new : List ErrRec := List.replicate w.badRegs { w := regWhere s w, action := 1 }
  { s with found := s.found ++ new }.onWarp u Warp.noteBad

/-- The same of a block's accumulators, scale stores and scratchpad. -/
def saveBlockBad (g rank : Nat) (s : State) : State :=
  let b := s.block g rank
  let x := s.gang g
  let part (source : BitVec 8) (p : Nat) : ErrRec :=
    { w := { addr := 0, pa := false, source, ltype := 0, loc := .ofNat 28 (coreNo x.cluster b.core * 32 + p) }, action := 1 }
  let new (bad noted : Store Bool) : List Nat := (bad.filter fun e => !Store.get false noted e.1).map Prod.fst
  let found := (new b.badAcc b.notedAcc).map (fun k => part 0x02 (k / 4096)) ++
    (new b.badScale b.notedScale).map (fun k => part 0x04 (k / 512)) ++
    (new b.badScratch b.notedScratch).map fun k => { w := scrWhere s g (rank, 8 * k), action := 1 }
  { s with found := s.found ++ found }.onBlock g rank fun b =>
    { b with notedAcc := b.badAcc, notedScale := b.badScale, notedScratch := b.badScratch }

/-- A convergence register whose collective waits for leave takes its steps again after restore. -/
def CvReg.unask (c : CvReg) : CvReg := { c with leave := false, paid := 0 }

/-- Eviction of a placed gang, in the steps of R280. -/
def evictGang (g : Nat) (s : State) : State :=
  let slot := (s.launch (s.gang g).launch).slot
  let first := savedIn s slot
  let us := (s.gangWarps g).map fun w => w.uid
  let frozen := (us.map fun u => (s.warp u).ops.map fun o => ({ warp := u, op := o.id } : OpRef)).flatten
  let s := each us (each frozen s freezeOp) fun u s => s.onWarp u Warp.enterRecord
  let images := gangImages s s.draws (s.gang g)
  let s : State := each us (each us (leaveHomes g s) withdrawLeave) saveBad
  let s : State := each ((s.gang g).blocks.map fun b => b.rank) s (saveBlockBad g)
  let mine (o : OpRef) : Bool := us.contains o.warp
  let give (c : Cluster) : Cluster :=
    { c with held := c.held - ((c.holders.filter fun h => mine h.1).map Prod.snd).sum
             holders := c.holders.filter fun h => !mine h.1 }
  let forget (b : Batch) : Batch := { b with ops := b.ops.filter fun o => !mine o }
  let unask (b : Block) : Block := { b with cv := b.cv.map CvReg.unask }
  let s := { s with
    clusters := s.clusters.map give
    faults := s.faults.filter fun f => !mine f.op
    batches := s.batches.map forget }
  let s := s.onGang g fun x => { x with
    state := .evicted, order := s.nextOrder, saved := (images.map Image.length).sum
    blocks := x.blocks.map unask }
  writeSave slot first images { s.draw with
    nextOrder := s.nextOrder + 1
    warps := mapIf (fun w => w.gang == g) (fun w => { w with batch := none, lag := [], queued := [], copy := none }) s.warps }

/-! ## Restore (R281, R285) -/

/-- Keys of a store that are ordered by partition move with their partition; those of no live group are dropped. -/
def rekey {α : Type} [DecidableEq α] (d : α) (per : Nat) (dest : List (Nat × Nat)) (m : Store α) : Store α :=
  each m [] fun e acc => match (dest.find? fun x => x.1 == e.1 / per).map Prod.snd with
    | some p => Store.put d acc (p * per + e.1 % per) e.2
    | none => acc

/-- A block on its new core, with its accumulators and scale stores moved. -/
def Block.moved (b : Block) (core : Nat) (banks : List Nat) (dest : List (Nat × Nat)) : Block :=
  { b with
    core, banks
    acc := rekey 0 4096 dest b.acc
    accEmpty := rekey false 4 dest b.accEmpty
    scale := rekey 0 4096 dest b.scale
    badAcc := rekey false 4096 dest b.badAcc
    badScale := rekey false 512 dest b.badScale
    notedAcc := rekey false 4096 dest b.notedAcc
    notedScale := rekey false 512 dest b.notedScale
    beacon := b.beacon.map fun x => { x with left := x.interval } }

/-- An operation of the record as it is reissued: a load reads anew, an atomic asks its tags, and a store keeps the lanes it has performed (R283, R285). -/
def Op.reissued (o : Op) : Op :=
  let again : CopyRun := if (copyForm o.ins).isSome && o.data != [] then { seed := .ofNat 16 o.copy.r.seed } else {}
  let anew (x : Slot) : Slot :=
    if isLoad o.ins then { x with answer := none, data := 0 } else if isAtomic o.ins then { x with answer := none, half := 0 } else x
  { o with
    replay := true, opblk := none, run := again, shadow := [], slots := o.slots.map anew
    state := if o.state = .faulted then .notSent else o.state }

/-- An MMA gives up its weights: it takes them from its residency again before it goes on (R173). -/
def Op.dropWeights (o : Op) : Op :=
  let m := mmaWords o.ins o.regs
  if isMma o.ins && !m.isS then { o with data := if m.blk = 0 then [] else o.data.take 4096 } else o

/-- Units a replayed engine operation asks for again (R267). -/
def reaskUnits (r : OpRef) (s : State) : State :=
  match s.opOf r with
  | none => s
  | some o =>
    let w := s.warp r.warp
    let cl := (s.warpGang w).cluster
    let n := if isMma o.ins then colCost s w.gang (mmaWords o.ins o.regs)
      else if (copyForm o.ins).isSome then (if o.data = [] then 0 else o.copy.units s cl)
      else if (collForm o.ins).isSome then (if o.data = [] then 0 else min 4 (s.budget cl))
      else 0
    if n = 0 || o.finished then s else s.requestLeave w (.engine r n)

/-- Replay of one entry of the record, as far as it acts before the entry's own event. -/
def replayOp (r : OpRef) (s : State) : State :=
  reaskUnits r (s.onOp r fun o => o.reissued.dropWeights)

/-- An evicted gang stands on its new place (a block that owns a churn slot keeps it there, even on a core where another block owns the slot, a case the spec does not speak of: log 59): state written back, placement acquire, records replayed. -/
def restoreGang (g cluster : Nat) (plan : Plan) (s : State) : State :=
  let place (w : Warp) : Warp :=
    match (plan.getD w.rank none).bind fun b => b.2.2.find? fun e => e.1 == w.num with
    | some e => { w with part := e.2.1, slot := e.2.2, shadowV := [], shadowU := [], shadowT := [] }
    | none => w
  let move (s : State) (b : Block) : Block :=
    match plan.getD b.rank none with
    | some (core, banks, ws) =>
      let old (num : Nat) : Option Nat := ((s.blockWarps g b.rank).find? fun w => w.num == num).map fun w => w.part
      b.moved core banks (ws.filterMap fun e => (old e.1).map fun p => (p, e.2.1))
    | none => b
  let s := s.onGang g fun x => { x with blocks := x.blocks.map (move s), saved := 0 }
  let s := { s with warps := mapIf (fun w => w.gang == g) place (s.warps.filter fun w => w.gang != g || !w.retired) }
  let s := seatGang g cluster plan s
  let us := (s.gangWarps g).map fun w => w.uid
  let refs := (us.map fun u => (s.warp u).ops.map fun o => ({ warp := u, op := o.id } : OpRef)).flatten
  each refs s replayOp

/-! ## Completion -/

/-- A launch whose last gang has retired, or one whose dep has failed (R257, R258). -/
def launchDone (s : State) (u : Nat) : Bool :=
  let l := s.launch u
  l.state.live && ((decide (l.record.gangs.toNat ≤ l.placed) && (s.gangs.filter fun g => g.launch == u).all fun g => g.state == .retired) ||
    (l.state = .waiting && l.queue.isSome && depFails s l))

def launchEnds (u : Nat) (s : State) : State :=
  let l := s.launch u
  endLaunch u (.of l (if l.state = .waiting && l.queue.isSome && depFails s l then 2 else 0)) s

/-! ## Meanings -/

/-- Place the head candidate where it fits. -/
def dispatch (s : State) : State :=
  match headBid s with
  | none => s
  | some b => match b.cand.place s, b.cand with
    | some (cl, plan), .fresh l => settle (placeNew l cl plan s)
    | some (cl, plan), .again g => settle (placeAgain g cl plan s)
    | some (cl, plan), .back g => settle (restoreGang g cl plan s)
    | none, _ => s

def isBack : Cand → Bool
  | .back _ => true
  | .again _ | .fresh _ => false

/-- The head candidate fits, and is an evicted gang or not. -/
def headFits (s : State) (back : Bool) : Bool :=
  match headBid s with
  | none => false
  | some b => isBack b.cand == back && (b.cand.place s).isSome

def execGangDispatch (s : State) : Host.Outcome State Fault Refusal := event (headFits s false) dispatch s
def execGangRestore (s : State) : Host.Outcome State Fault Refusal := event (headFits s true) dispatch s
def execPreemptEvict (g : Nat) (s : State) : Host.Outcome State Fault Refusal :=
  event ((s.gang g).state == .placed && saveFits s (s.gang g) 0) (evictGang g) s
def execQbell (slot queue : Nat) (s : State) : Host.Outcome State Fault Refusal :=
  event (decide (slot < 256) && decide (queue < 16)) (orLater (.qbell slot queue) (· == .qbell slot queue) id (ringQueue slot queue)) s
/-- A write of one queue's descriptor register. -/
def writesQdesc (slot queue : Nat) : Instr → Bool
  | .qdescWrite a b _ => a == slot && b == queue
  | _ => false

def execQdescWrite (slot queue : Nat) (v : DWord) (s : State) : Host.Outcome State Fault Refusal :=
  event (decide (slot < 256) && decide (queue < 16)) (orLater (.qdescWrite slot queue v) (writesQdesc slot queue)
    (fun s => s.onCtx slot fun c => c.onQueue queue fun k => { k with qdesc := v }) (writeQdesc slot queue v)) s
/-- A write of `evict` (R278): every placed gang of the context is to be evicted, as far as its save area holds it. -/
def execEvictWrite (v : Word) (s : State) : Host.Outcome State Fault Refusal :=
  let asid := v.toNat % 65536
  .next { s with agenda := s.agenda ++ ((s.gangs.filter fun g =>
    g.state == .placed && (s.launch g.launch).asid.toNat == asid).map fun g => .preemptEvict g.uid) }

end Sys2Proof.Machine
end

