-- ==== Sys2Proof/Machine/Faults.lean ====
section
/-! DEFINITION. Error records (R371 to R374), uncorrectable errors consumed (R269, R364), fatal traps (R271, R272), recoverable faults and replies (R274 to R277, R310), keepers (R287 to R290), and what a halt stops (R228). -/

namespace Sys2Proof.Machine

/-! ## The error ring (R371, R372) -/

def erSize (s : State) : Nat := 2 ^ (max 4 (min 16 s.mgmt.erlogn.toNat))

def erRoom (s : State) : Bool := (s.mgmt.ertail.toNat + 2 ^ 32 - s.mgmt.erhead.toNat) % 2 ^ 32 < erSize s

def ErrRec.bytes (e : ErrRec) : List Byte :=
  bytesOfNat 32 (e.w.addr.toNat * 2 ^ 192 + e.asid.toNat * 2 ^ 176 + e.world.toNat * 2 ^ 172 + e.action.toNat * 2 ^ 168 +
    e.w.source.toNat * 2 ^ 160 + e.launch.toNat * 2 ^ 128 + e.gang.toNat * 2 ^ 96 + e.w.ltype.toNat * 2 ^ 92 +
    e.w.loc.toNat * 2 ^ 64 + e.count.toNat * 2 ^ 32 + (if e.w.pa then 1 else 0))

/-- Write a record, then ertail, and raise vector 2. -/
def putErr (e : ErrRec) (s : State) : State :=
  let i := s.mgmt.ertail.toNat % erSize s
  let s := physWrite 0 (s.mgmt.erbase.toNat / 4096 * 4096 + 32 * i) e.bytes s
  interrupt 2 { s with mgmt := { s.mgmt with ertail := s.mgmt.ertail + 1 } }

/-- One pending record for each source and location. -/
def ErrRec.samePlace (a b : ErrRec) : Bool := a.w.source == b.w.source && a.w.ltype == b.w.ltype && a.w.loc == b.w.loc

def satAdd (a b : Word) : Word := if 2 ^ 32 ≤ a.toNat + b.toNat then 0xFFFFFFFF else a + b

/-- Merge an event into the pending records. -/
def mergeErr (e : ErrRec) (l : List ErrRec) : List ErrRec :=
  if l.any (ErrRec.samePlace e) then mapIf (ErrRec.samePlace e) (fun x => { x with count := satAdd x.count e.count }) l
  else l ++ [e]

/-- An event writes its record, or joins the pending ones while the ring is full. -/
def writeErr (e : ErrRec) (s : State) : State :=
  if s.mgmt.erlogn = 0 then s
  else if erRoom s && s.pendingErrs = [] then putErr e s
  else { s with pendingErrs := mergeErr e s.pendingErrs, mgmt := { s.mgmt with erovf := 1 } }

/-- Pending records go into the room there is. -/
def flushErrs : Nat → State → State
  | 0, s => s
  | n + 1, s =>
    match s.pendingErrs with
    | [] => s
    | e :: es => if s.mgmt.erlogn != 0 && erRoom s then flushErrs n (putErr e { s with pendingErrs := es }) else s

/-! ## Retirement (R374, R375) -/

def errKey (w : ErrWhere) : Nat := w.ltype.toNat * 2 ^ 28 + w.loc.toNat

/-- Units that a retirement list may hold. -/
def retirable (ltype : Nat) : Bool := ltype = 0 || ltype = 1 || ltype = 3 || ltype = 4 || ltype = 5

/-- A retirement becomes pending, with a record of action 7. -/
def retirePending (w : ErrWhere) (s : State) : State :=
  let s := if retirable w.ltype.toNat then { s with retire := Store.put false s.retire (errKey w) true } else s
  writeErr { w, action := 7 } s

/-- A correctable error (R362, R374): counted, recorded with action 0. -/
def noteCorrected (w : ErrWhere) (s : State) : State :=
  let n := Store.get 0 s.ceCount (errKey w) + 1
  let s := writeErr { w, action := 0 } { s with ceCount := Store.put 0 s.ceCount (errKey w) n }
  let listed := retirable w.ltype.toNat && Store.get false s.retire (errKey w)
  if s.mgmt.cethr != 0 && (n = s.mgmt.cethr.toNat || (s.mgmt.cethr.toNat < n && retirable w.ltype.toNat && !listed)) then retirePending w s else s

/-- An uncorrectable error at a location: the second makes its retirement pending. -/
def noteUncorrectable (e : ErrRec) (s : State) : State :=
  let n := Store.get 0 s.ueCount (errKey e.w) + 1
  let s := writeErr e { s with ueCount := Store.put 0 s.ueCount (errKey e.w) n }
  if n = 2 then retirePending e.w s else s

/-! ## Uncorrectable errors consumed (R269, R364) -/

/-- The granule in which a consumed error lies has its record (R372). -/
def noteGranule (sp : Space) (w : ErrWhere) (s : State) : State :=
  let granule (marks : Store Bool) (a : Nat) : Nat :=
    (((List.range 16).map (a / 8 + ·)).find? fun j => j / 16 == a / 128 && Store.get false marks j).getD (a / 8)
  let k := sp.loc (w.addr.toNat % 2 ^ 60)
  if w.source = 0x07 then
    { s with mem := { s.mem with notedL2 := Store.put false s.mem.notedL2 (granule s.mem.poisonL2 k) true } }
  else if w.source = 0x09 || w.source = 0x0A || w.source = 0x0C then
    { s with mem := { s.mem with noted := Store.put false s.mem.noted (granule s.mem.poisonDram w.addr.toNat) true } }
  else s

/-- A gang is about to consume an error that lies in the granule of a place. -/
def aboutToConsume (s : State) (p : ErrWhere) : Bool :=
  s.agenda.any fun i => match i with
    | .uncorrectableConsumed _ w => w.source == p.source && w.addr.toNat / 8 == p.addr.toNat / 8
    | _ => false

/-- The errors found that nobody consumes are recorded (R364). -/
def recordFound (s : State) : State :=
  each (s.found.filter fun e => !aboutToConsume s e.w) { s with found := [] } noteUncorrectable

/-- A gang is relaunched, or its context killed. -/
def consumed (g : Nat) (w : ErrWhere) (s : State) : State :=
  let s := noteGranule { world := (s.launch (s.gang g).launch).record.world.toNat, asid := (s.launch (s.gang g).launch).asid.toNat } w s
  let x := s.gang g
  let l := s.launch x.launch
  if !s.hasGang g || !(x.state == .placed || x.state == .evicted) || !l.state.live then s
  else
    let e : ErrRec := { w, asid := l.asid, world := l.record.world, action := 3, launch := l.id, gang := .ofNat 32 x.num }
    if x.retained.contain && decide (x.retained.since < 15) then
      let s := stopGang .relaunching g s
      let s := s.onGang g fun x => { x with retained := { x.retained with
        relaunch := x.retained.relaunch + 1, since := x.retained.since + 1 } }
      let s := s.onLaunch x.launch fun l => { l with relaunches := l.relaunches + 1 }
      noteUncorrectable { e with action := 2 } s
    else noteUncorrectable e (killContext l.slot s)

/-! ## Fatal traps (R271, R272) -/

/-- The command processor takes the k-th report: the first of a launch ends it. -/
def fatal (k : Nat) (s : State) : State :=
  match s.reports[k]? with
  | none => s
  | some r =>
    let s := { s with reports := s.reports.eraseIdx k }
    let g := s.gang r.gang
    let l := s.launch g.launch
    if !s.hasGang r.gang then s
    else stopLaunch g.launch { Completion.of l 5 with
      cause := r.trap.cause, gang := g.num, sealNo := g.retained.sealNo, pc := r.pc } s

/-! ## The fault ring (R274) -/

def fqSize (s : State) : Nat := 2 ^ (max 6 (min 16 s.mgmt.fqlogn.toNat))

/-- Free entries of the ring. -/
def fqRoom (s : State) : Nat := fqSize s - (s.mgmt.fqtail.toNat + 2 ^ 32 - s.mgmt.fqhead.toNat) % 2 ^ 32

/-- Entry `idx` of a batch. -/
def Batch.entry (b : Batch) (idx : Nat) (p : Nat × Nat × Nat × Nat × Bool) : List Byte :=
  let (world, asid, va, kind, ahead) := p
  bytesOfNat 32 (va / 65536 * 65536 * 2 ^ 192 + asid * 2 ^ 176 + world * 2 ^ 172 + kind * 2 ^ 168 + b.pages.length * 2 ^ 162 +
    idx * 2 ^ 156 + (if ahead then 2 ^ 128 else 0) + b.ident.toNat * 2 ^ 96 + b.launch.toNat * 2 ^ 64 + b.gang.toNat * 2 ^ 32)

/-- The entries of a batch not written yet, then fqtail, then the interrupt. -/
def putBatch (b : Batch) (s : State) : State :=
  let base := s.mgmt.fqbase.toNat / 4096 * 4096
  let tail := s.mgmt.fqtail.toNat
  let s := each (b.pages.zipIdx.drop b.out).zipIdx s fun e s =>
    physWrite 0 (base + 32 * ((tail + e.2) % 2 ^ 32 % fqSize s)) (b.entry e.1.2 e.1.1) s
  interrupt 1 { s with mgmt := { s.mgmt with fqtail := s.mgmt.fqtail + .ofNat 32 (b.pages.length - b.out) } }

/-- Waiting entries are written in order as long as they fit. -/
def flushBatches : List Batch → State → State
  | [], s => s
  | b :: bs, s =>
    if b.pages.length ≤ b.out then flushBatches bs s
    else if s.mgmt.fqlogn = 0 || fqRoom s < b.pages.length - b.out then s
    else
      let mark (x : Batch) : Batch := if x.ident = b.ident then { x with out := x.pages.length } else x
      flushBatches bs (putBatch b { s with batches := s.batches.map mark })

/-! ## Recoverable faults (R275, R276) -/

/-- A fault of a thread's access lets the warp run ahead and is joined by further ones; every other is a batch of one page. -/
def FaultReport.joins (f : FaultReport) : Bool := f.ahead || decide (f.kind ≤ 2)

def FaultReport.page (f : FaultReport) : Nat × Nat × Nat × Nat × Bool := (f.world, f.asid, f.va, f.kind, f.ahead)

/-- Pages put to those of a batch, each once, 33 at most. -/
def addPages (l : List (Nat × Nat × Nat × Nat × Bool)) : List (Nat × Nat × Nat × Nat × Bool) → List (Nat × Nat × Nat × Nat × Bool)
  | [] => l
  | p :: ps =>
    if decide (33 ≤ l.length) || (l.any fun q => q.1 == p.1 && q.2.1 == p.2.1 && q.2.2.1 / 65536 == p.2.2.1 / 65536) then addPages l ps
    else addPages (l ++ [p]) ps

def nextIdent (b : Nat) : Nat := if b = 2 ^ 32 - 1 then 1 else b + 1

/-- The batch of a warp that a further fault joins. -/
def joinBatch (s : State) (f : FaultReport) : Option Batch :=
  if !f.joins then none
  else s.batches.find? fun b => (s.warp f.op.warp).batch == some b.ident && (b.pages.head?.any fun p => decide (p.2.2.2.1 ≤ 2)) &&
    decide (b.pages.length < 33)

/-- The part forms the batch of the k-th fault, with the warp's further ones, or puts them to its pending batch; the entries are written when the ring has room. -/
def formBatch (k : Nat) (s : State) : State :=
  match s.faults[k]? with
  | none => s
  | some f =>
    let w := s.warp f.op.warp
    let also := if f.joins then (s.faults.eraseIdx k).filter fun x => x.op.warp == f.op.warp && x.joins else []
    let mine := f :: also
    let ops := (mine.filter fun x => !x.ahead).map fun x => x.op
    let s := { s with faults := (s.faults.eraseIdx k).filter fun x => !also.contains x }
    match joinBatch s f with
    | some b =>
      let join (x : Batch) : Batch :=
        if x.ident = b.ident then { x with ops := x.ops ++ ops, pages := addPages x.pages (mine.map FaultReport.page) } else x
      let s := { s with batches := s.batches.map join }
      flushBatches s.batches s
    | none =>
      let b : Batch :=
        { ident := .ofNat 32 s.nextBatch, ops, pages := addPages [] (mine.map FaultReport.page), launch := (s.warpLaunch w).id
          gang := .ofNat 32 (s.warpGang w).num, lane := f.lane, pc := f.pc }
      let s := { s with batches := s.batches ++ [b], nextBatch := nextIdent s.nextBatch }
      let s := if f.kind ≤ 5 then s.onWarp f.op.warp fun w => { w with batch := some b.ident } else s
      flushBatches s.batches s

/-! ## Replies (R277) -/

def State.batch (s : State) (b : Word) : Option Batch := s.batches.find? fun x => x.ident == b

/-- What a request from outside completes with when it cannot be served (R407, R410). -/
def refusal : Instr → Outward
  | .peerRequest _ => .peerError
  | _ => .hostAbort

/-- A request from outside is refused: it completes with an error; of the DOE interface, with the Error bit, and the requests behind one under way are taken anew (R395, R407, R410). -/
def refuseWaiter (i : Instr) (s : State) : State :=
  let errors : List (Option (List Byte)) := s.spdm.responses ++ [none]
  match i with
  | .doeRequest _ => { s with spdm := { s.spdm with responses := errors } }
  | .doeResponseCollect =>
    { s with
      agenda := s.spdm.waiting.map Instr.doeRequest ++ s.agenda
      spdm := { s.spdm with responses := errors, awaiting := false, waiting := [] } }
  | _ => { s with sent := s.sent ++ [refusal i] }

/-- Requests from outside that wait for a batch are made again, ahead of what arrived after them; where the reply refuses, the one that met the page is refused, and those behind it are made again (R248, R249, R410). -/
def wakeWaiters (b : Word) (refuse : Bool) (s : State) : State :=
  let mine := (s.waiters.filter fun x => x.1 == b).map fun x => x.2.2
  let s := { s with waiters := s.waiters.filter fun x => x.1 != b }
  match mine, refuse with
  | i :: rest, true => refuseWaiter i { s with agenda := rest ++ s.agenda }
  | _, _ => { s with agenda := mine ++ s.agenda }

/-- The warps of a batch resume; its operations may be reissued. -/
def resumeBatch (b : Batch) (s : State) : State :=
  let fresh (o : Op) (x : Slot) : Slot := if isLoad o.ins then { x with answer := none, data := 0 } else x
  let again (o : Op) : Op :=
    if o.state = .faulted then { o with state := .notSent, replay := true, slots := o.slots.map (fresh o) } else o
  let resume (w : Warp) : Warp :=
    let w := if w.batch = some b.ident then { w with batch := none } else w
    each (b.ops.filter fun o => o.warp == w.uid) w fun o w => w.onOp o.op again
  { s with batches := s.batches.filter (fun x => x.ident != b.ident), warps := s.warps.map resume }

def replyRetry (b : Word) (s : State) : State :=
  match s.batch b with
  | none => s
  | some x => wakeWaiters b false (resumeBatch x s)

/-- The churn program that waits for a batch. -/
def churnOf (s : State) (r : OpRef) : Option (Nat × Nat) :=
  s.gangs.findSome? fun g => (g.blocks.find? fun b => b.churn.any fun c => churnRef c == r).map fun b => (g.uid, b.rank)

/-- The lane whose access reaches a page. -/
def laneAt (o : Op) (va : Nat) : Nat :=
  ((o.slots.find? fun x => x.addr / 65536 == va / 65536 || (x.addr + sizeOf o.ins - 1) / 65536 == va / 65536).map
    fun x => x.lane).getD ((lanesOf o.lanes).headD 0)

/-- The record of a copy or collective has not been read yet: its faults report 0xFFFF (R189). -/
def unreadRecord (o : Op) : Bool := ((copyForm o.ins).isSome || (collForm o.ins).isSome) && o.data == []

/-- A refused batch raises TRANSLATION asynchronously for its first page; a scout's batch marks the granule instead (R277, R310). -/
def replyRefuse (b : Word) (s : State) : State :=
  match s.batch b with
  | none => s
  | some x =>
    let s := wakeWaiters b true (resumeBatch x s)
    match x.ops.head?, x.pages.head? with
    | some r, some (_, _, va, kind, _) =>
      let t (info : Word) : TrapInfo := { cause := causeTranslation, addr := .ofNat 64 va, info }
      if kind = 6 then
        s.onOp r fun o => { o with run := { o.run with refused := va / 65536 * 65536 :: o.run.refused, waiting := none } }
      else if kind = 7 then
        match churnOf s r with
        | some (g, rank) =>
          let pc := ((s.block g rank).churn.bind fun c =>
            ((churnWarp g rank 0 c).runs.head?).map fun r => r.pc).getD 0
          stopChurn g rank pc causeTranslation (.ofNat 64 va) s
        | none => s
      else match s.opOf r with
        | some o => opTrap r (laneAt o va) true (t (if isResLoad o.ins || unreadRecord o then 0xFFFF else 0)) s
        | none => asyncTrap r.warp x.lane x.pc (t 0) s
    | _, _ => s

/-! ## Scout probes of every engine (R310) -/

/-- Ring granules the records of an EMIT still to be performed will take, four ahead of the first at most. -/
def emitScouts (s : State) (r : OpRef) (o : Op) : List Nat :=
  let l := s.warpLaunch (s.warp r.warp)
  match (s.ctx l.slot).graph with
  | none => []
  | some g =>
    let x := g.edges.getD (o.regs.getD 0 0).toNat {}
    let size := x.recsz.toNat * 16
    let at' (j : Nat) : Nat := x.ring.toNat + (x.ringAt + x.heldOut.length + j) % x.cap.toNat * size
    if (l.wave.any fun v => v.pred) || g.role != 2 && g.cut.mask.getLsbD (o.regs.getD 0 0).toNat then []
    else ((granules ((List.range (o.slots.length - o.recs)).map fun j => [at' j, at' j + size - 1]).flatten).take 5).filter fun a =>
      !o.run.scouted.contains a

/-- The granules a collective touches, in the order of first touch: its source, which only the root of a broadcast reads, then its destination. -/
def Coll.granules (c : Coll) : List Nat × List Nat :=
  let span (a n : Nat) : List Nat := if n = 0 then [] else Machine.granules (pageStarts a n)
  let src := if c.form = .bcast && c.rank != c.r.root then [] else span c.src (c.n * c.esize)
  (src, (span c.dst c.bytes).filter fun g => !src.contains g)

/-- The granules a collective's scout may probe: `scout` at most beyond those its data may have reached, which are the ones before the first that does not translate, the destination's only once every rank has given (R310). -/
def collScouts (s : State) (r : OpRef) (o : Op) : List Nat :=
  let w := s.warp r.warp
  let c := collOf s w o
  let (src, dst) := c.granules
  let goes (g : Nat) : Bool := match (translate ((s.space w).loc g) .read false s).1 with
    | .ok .. => true
    | _ => false
  let given := s.colls.any fun i => i.results.any fun x => x.1 == r
  let reached := if given then ((src ++ dst).takeWhile goes).length else if giveReady s r then (src.takeWhile goes).length else 0
  ((src ++ dst).take (reached + c.r.scout + 1)).filter fun g => !o.run.scouted.contains g

/-- The next granules the scout of an operation may probe: of a copy, of a collective's own source and destination, or of an edge's ring. -/
def scoutNext (s : State) (r : OpRef) : List Nat :=
  match s.opOf r with
  | none => []
  | some o =>
    if o.finished || o.state = .faulted then []
    else if (copyForm o.ins).isSome then copyScouts s (s.warp r.warp) o
    else if isEmit o.ins then emitScouts s r o
    else if (collForm o.ins).isSome && o.data != [] then collScouts s r o
    else []

/-! ## What a halt stops (R228, R416) -/

/-- Contexts of some gangs are reported lost and killed. -/
def loseContexts (gs : List Gang) (s : State) : State :=
  each ((gs.map fun g => (s.launch g.launch).slot).eraseDups) s killContext

/-- The placed gangs with a block on a core. -/
def gangsOnCore (s : State) (core : Nat) : List Gang :=
  s.gangs.filter fun g => g.state == .placed && g.blocks.any fun b => !b.retired && coreNo g.cluster b.core == core

/-- What a halt captures of some placed gangs: the warps and blocks on the cores that stop. -/
def capture (s : State) (gs : List Gang) (stops : Nat → Bool) : Capture :=
  { stamp := s.draws
    warps := ((s.seated []).filter fun w => stops (s.warpCore w)).map (savedWarp s)
    blocks := (gs.map fun g => (g.blocks.filter fun b => !b.retired && stops (coreNo g.cluster b.core)).map (savedBlock s g)).flatten }

/-- The captured state of a further halt stands behind what is captured already. -/
def Capture.append (a b : Capture) : Capture := { stamp := b.stamp, warps := a.warps ++ b.warps, blocks := a.blocks ++ b.blocks }

def haltCore (core : Nat) (s : State) : State :=
  let lost := gangsOnCore s core
  let s := { s with
    haltedCores := Store.put false s.haltedCores core true
    capture := s.capture.append (capture s lost fun c => c == core) }
  loseContexts lost s.draw

/-- The part halts as HALT 1 does: each context that held a stopped gang is reported lost (R228, R412, R413). -/
def haltPart (s : State) : State :=
  let lost := s.gangs.filter fun g => g.state == .placed
  let s := { s with haltedPart := true, capture := s.capture.append (capture s lost fun _ => true) }
  loseContexts lost s.draw

/-- The part halts for want of an agreeing pair of copies: every context is reported lost (R360, R362). -/
def haltVoted (s : State) : State :=
  let s := haltPart s
  each ((s.ctxs.filter fun c => c.2.valid).map Prod.fst) s killContext

/-! ## Keepers (R287 to R290) and beacons (R220) -/

/-- The limit of a warp's keeper has been reached. -/
def keeperDue (s : State) (u : Nat) : Bool :=
  let w := s.warp u
  let lim := (s.cluster (s.warpGang w).cluster).wklim.toNat
  !w.retired && (s.warpGang w).state == .placed && lim != 0 && decide (lim ≤ w.keeper)

/-- A warp escalates; at the cluster's limit it raises KEEPER (R289). -/
def keeperExpires (u : Nat) (s : State) : State :=
  let w := s.warp u
  let cl := s.cluster (s.warpGang w).cluster
  let n := (s.warpBlock w).escalations + 1
  let s := s.onWarp u fun w => { w with keeper := 0 }
  let s := s.onBlock w.gang w.rank fun b => { b with escalations := n }
  if max 1 (min 255 cl.cklim.toNat) ≤ n then
    match w.live.head? with
    | some l => reportAsync u (asyncTrap u l (w.thread l).pc { cause := causeKeeper, info := 1 } s)
    | none => s
  else s

/-- A stage's last wave has retired without closing its frame, which leaves outgoing edges open: the stage stalls. A stage with no outgoing edge has nothing to close (R320; log 64). -/
def Graph.stalls (g : Graph) (st : Nat) : Bool :=
  let x := g.stages.getD st {}
  (g.edges.any fun e => e.valid && e.source == st) && decide (x.closed.toNat < x.lastDone.toNat)

/-- The last wave with which a stage stalled (R320). -/
def stalledWave (s : State) (l : Launch) : Bool :=
  let g := (s.ctx l.slot).graph.getD {}
  match l.wave with
  | some v => v.last && l.state == .ended 0 && g.stalls v.stage && v.frame == (g.stages.getD v.stage {}).lastDone
  | none => false

/-- The oldest ready launch of a queue with a gang not yet placed (R290); for queue 0 without one, the wave of a stalled stage (R320, R417; log 64). -/
def keeperLaunch (s : State) (slot q : Nat) : Option Launch :=
  (s.launches.find? fun l => l.slot == slot && l.queue == some q && launchReady s l).or
    (if q = 0 then s.launches.find? fun l => l.slot == slot && stalledWave s l else none)

/-- The queues a keeper watches: those of the launches, and queue 0 of a context with waves. -/
def watchedQueues (s : State) : List (Nat × Nat) :=
  (s.launches.filterMap fun l => if l.wave.isSome then some (l.slot, 0) else l.queue.map fun q => (l.slot, q)).eraseDups

/-- The command processor's clock is that of cluster 0 in this model (log 3). -/
def queueKeeperDue (s : State) (slot q : Nat) : Bool :=
  let lim := (s.cluster 0).qklim.toNat
  lim != 0 && decide (lim ≤ ((s.ctx slot).queue q).keeper) && (keeperLaunch s slot q).isSome

/-- A keeper notice to world 0 (R290, R401). -/
def keeperNotice (slot q : Nat) (s : State) : State :=
  match keeperLaunch s slot q with
  | none => s
  | some l =>
    let s := s.onCtx slot fun c => c.onQueue q fun k => { k with keeper := 0 }
    interrupt 3 { s with mgmt := { s.mgmt with
      knote := .ofNat 64 (l.id.toNat + q % 16 * 2 ^ 32 + slot % 256 * 2 ^ 36 + 2 ^ 63) } }

/-- A beacon's count has run out. -/
def beaconDue (s : State) (g rank : Nat) : Bool :=
  let b := s.block g rank
  (s.gang g).state == .placed && !b.retired && b.beacon.any fun x => x.left == 0

/-- A miss; the second in a row halts the block's core (R220, R289). -/
def beaconMissed (g rank : Nat) (s : State) : State :=
  let misses := (((s.block g rank).beacon.map fun x => x.misses).getD 0) + 1
  let s := s.onBlock g rank fun b => { b with beacon := b.beacon.map fun x => { x with left := x.interval, misses } }
  if 2 ≤ misses then haltCore (coreNo (s.gang g).cluster (s.block g rank).core) s else s

/-! ## Meanings -/

def execFatalTrap (k : Nat) (s : State) : Host.Outcome State Fault Refusal :=
  event (decide (k < s.reports.length)) (fatal k) s
def execUncorrectableConsumed (g : Nat) (w : ErrWhere) (s : State) : Host.Outcome State Fault Refusal :=
  event (s.hasGang g) (consumed g w) s
def execRecoverableFault (k : Nat) (s : State) : Host.Outcome State Fault Refusal :=
  event (decide (k < s.faults.length)) (formBatch k) s
/-- A reply for a batch that is not pending is ignored (R274). -/
def execFqreplyRetry (b : Word) (s : State) : Host.Outcome State Fault Refusal := .next (replyRetry b s)
def execFqreplyRefuse (b : Word) (s : State) : Host.Outcome State Fault Refusal := .next (replyRefuse b s)
def execScoutProbe (o : OpRef) (va : DWord) (s : State) : Host.Outcome State Fault Refusal :=
  event (decide (va.toNat ∈ scoutNext s o)) (scoutProbes o va.toNat) s
def execWarpKeeperExpiry (u : Nat) (s : State) : Host.Outcome State Fault Refusal := event (keeperDue s u) (keeperExpires u) s
def execCommandKeeperExpiry (slot queue : Nat) (s : State) : Host.Outcome State Fault Refusal :=
  event (queueKeeperDue s slot queue) (keeperNotice slot queue) s
def execBeaconMiss (g rank : Nat) (s : State) : Host.Outcome State Fault Refusal :=
  event (beaconDue s g rank) (beaconMissed g rank) s
/-- World 0 advances fqhead (R274): waiting batches are written into the room that appears. -/
def execFqheadWrite (v : Word) (s : State) : Host.Outcome State Fault Refusal :=
  let s := { s with mgmt := { s.mgmt with fqhead := v } }
  .next (flushBatches s.batches s)
/-- World 0 advances erhead (R372): pending records are written into the room that appears. -/
def execErheadWrite (v : Word) (s : State) : Host.Outcome State Fault Refusal :=
  let s := { s with mgmt := { s.mgmt with erhead := v } }
  .next (flushErrs s.pendingErrs.length s)

end Sys2Proof.Machine
end

