-- ==== Sys2Proof/Machine/System.lean ====
section
/-! DEFINITION. System, trap and security instructions (R213 to R230, R414, R418). -/

namespace Sys2Proof.Machine

/-! ## Who may execute, and the checks in their order (R213, R418) -/

/-- The root partition: partition 31 of core 0 of cluster 0. -/
def onRoot (s : State) (w : Warp) : Bool :=
  isRootPart (s.warpGang w).cluster (s.warpBlock w).core w.part

/-- Scratchpad ranges and alignments of R418: address, length and alignment of each; a range of length 0 is not checked. -/
def spanCheck (s : State) (w : Warp) (spans : List (Nat × Nat × Nat)) : Option TrapInfo :=
  let spans := spans.filter fun x => x.2.1 != 0
  ((spans.find? fun x => (scrTarget s w x.1 x.2.1).isNone).map fun x => { cause := causeBounds, addr := .ofNat 64 x.1 }).or
    ((spans.find? fun x => x.1 % x.2.2 != 0).map fun x => { cause := causeAlignment, addr := .ofNat 64 x.1 })

def boundsUnless (ok : Bool) : Option TrapInfo := if ok then none else some { cause := causeBounds }

/-- The scratchpad ranges an instruction reads: address and length. -/
def Act.scrSources (x : Act) (w : Warp) : List (Nat × Nat) :=
  let a := x.valA w x.first
  let b := x.valB w x.first
  match x.i with
  | .hashUpd .. => [(a, 256), (b, x.valC w x.first)]
  | .hashFin .. => [(a, 256)]
  | .mext .. => [(b, if x.r.b.kind = .zr then 0 else 64)]
  | .ecsig .. => [(a, 64)]
  | .keyrel .. => [(a, if x.r.a.kind = .zr then 0 else 176)]
  | _ => []

/-- Where the first range that holds an uncorrectable error starts. -/
def scrFound (s : State) (w : Warp) (spans : List (Nat × Nat)) : Option (Nat × Nat) :=
  (spans.filter fun x => x.2 != 0).findSome? fun x => (scrTarget s w x.1 x.2).filter fun t => scrBad s w.gang t x.2

/-- Step 7 of an instruction of R213: PERMISSION, then the checks, then the effect; an uncorrectable error among what it reads is consumed instead (R364). -/
def sysIssue (root : Bool) (check : Act → State → Option TrapInfo) (effect : Act → State → State) (x : Act) (s : State) : State :=
  let w := s.warp x.u
  if (s.warpLaunch w).record.world != 0 || (root && !onRoot s w) then x.trap x.first { cause := causePermission } s
  else match check x s with
    | some t => x.trap x.first t s
    | none => match scrFound s w (x.scrSources w) with
      | some t => consume w.gang (scrWhere s w.gang t) s
      | none => effect x s

/-- The commit of R229. -/
def Act.expose (x : Act) (s : State) : State := Machine.release (s.warp x.u).gang s

/-- Bytes at a scratchpad address of the issuing warp. -/
def Act.scr (x : Act) (a n : Nat) (s : State) : List Byte :=
  let w := s.warp x.u
  match scrTarget s w a n with
  | some t => scrRead s w.gang t n
  | none => []
def Act.putScr (x : Act) (a : Nat) (bs : List Byte) (s : State) : State :=
  let w := s.warp x.u
  match scrTarget s w a bs.length with
  | some t => scrWrite w.gang t bs s
  | none => s

/-! ## TRAP, TRET, BKPT (R219, R414) -/

def trapIssue (imm : BitVec 16) (x : Act) (s : State) : State :=
  x.trap x.first { cause := causeSoftware, info := imm.setWidth 32 } s

def tretIssue (x : Act) (s : State) : State :=
  let w := s.warp x.u
  if !(w.thread x.first).handler then x.trap x.first { cause := causePermission } s
  else
    let ts := x.act.map fun l => (l, BitVec.ofNat 32 (x.valA w l))
    s.onWarp x.u fun w => each ts w fun e w => w.onThread e.1 fun t => t.leaveHandler e.2

/-- Debugging is allowed in a world (R376, R383). -/
def debugWorld (s : State) (w : Nat) : Bool := w = 1 || (2 ≤ w && s.mgmt.wpol.getLsbD w)

/-- Post a debug event for a warp: dbgev and vector 5 (R401, R414). -/
def postDebug (u : Nat) (s : State) : State :=
  let w := s.warp u
  let g := s.warpGang w
  let v := (s.warpLaunch w).id.toNat + g.num % 2 ^ 20 * 2 ^ 32 + w.rank * 2 ^ 52 + w.num * 2 ^ 57 + 2 ^ 63
  interrupt 5 { s with mgmt := { s.mgmt with dbgev := .ofNat 64 v } }

def bkptIssue (x : Act) (s : State) : State :=
  let w := s.warp x.u
  let r := (s.warpLaunch w).record
  if r.debug && debugWorld s r.world.toNat then
    let hold (t : Thread) : Thread := { t with pc := x.pc, status := .blocked .debug }
    let s := s.onWarp x.u fun w => { w.onThreads x.act hold with stopped := true }
    if s.mgmt.dbgev.getLsbD 63 then s else postDebug x.u s
  else x.trap x.first { cause := causeBreakpoint, info := .ofNat 32 (x.valC w x.first) &&& 0xFFFF } s

/-- Lanes held at a BKPT. -/
def Warp.held (w : Warp) : List Nat := (List.range w.width).filter fun l => (w.thread l).status = .blocked .debug

/-- The warp that dbgev names. -/
def debugged (s : State) : Option Warp :=
  let x := s.mgmt.dbgev.toNat
  s.warps.find? fun w =>
    let g := s.warpGang w
    w.held != [] && (s.warpLaunch w).id.toNat == x % 2 ^ 32 && g.num == nbits x 51 32 && w.rank == nbits x 56 52 &&
      w.num == nbits x 61 57

/-- A dbgctl resume (R401, R414): the warp of dbgev goes on behind its BKPT, valid clears, and a warp stopped meanwhile posts its event (log 32). -/
def debugResume (v : Word) (s : State) : State :=
  if !v.getLsbD 0 || !s.mgmt.dbgev.getLsbD 63 then s
  else
    let go (t : Thread) : Thread := { t with status := .running, pc := t.pc + 12 }
    let u := (debugged s).map fun w => w.uid
    let s := match debugged s with
      | some w => s.onWarp w.uid fun w => { w.onThreads w.held go with stopped := false }
      | none => s
    let s := { s with mgmt := { s.mgmt with dbgev := 0 } }
    match s.warps.find? fun w => some w.uid != u && w.held != [] with
    | some w => postDebug w.uid s
    | none => s

/-! ## BEACON (R220) -/

/-- A beacon of a block clears both counts of its keeper (R289). -/
def Block.sounded (b : Block) (interval : Nat) : Block :=
  { b with beacon := some { interval, left := interval }, escalations := 0 }

def beaconIssue (x : Act) (s : State) : State :=
  let w := s.warp x.u
  let n := x.valA w x.first
  if 1 ≤ n && n ≤ 4095 then x.trap x.first { cause := causeBounds } s
  else s.onBlock w.gang w.rank fun b =>
    if n = 0xFFFFFFFF then { b with beacon := none }
    else if n = 0 then (match b.beacon with
      | some k => b.sounded k.interval
      | none => b)
    else b.sounded n

/-! ## WASSIGN and SCRUB (R221, R222, R379) -/

/-- A unit word without reserved bits is the key of the unit. -/
def unitWordOk (k : Nat) : Bool := k / 65536 = 0 && nbits k 14 12 = 0

def unitCore (k : Nat) : Nat := k % 4096 / 32
def unitIsBank (k : Nat) : Bool := nbits k 15 15 = 1

/-- Reserved to the root. -/
def unitReserved (k : Nat) : Bool :=
  if unitIsBank k then isRootBank (nbits k 11 10) (nbits k 9 5) (k % 32)
  else isRootPart (nbits k 11 10) (nbits k 9 5) (k % 32)

/-- A partition holds a warp, a residency home or an owned accumulator; a bank holds scratchpad of a placed block. -/
def unitUsed (s : State) (k : Nat) : Bool :=
  if unitIsBank k then (s.usedBanks [] (nbits k 11 10) (nbits k 9 5)).contains (k % 32)
  else
    let homes := s.ctxs.any fun c => c.2.residencies.any fun r => r.2.live && r.2.home == some (k % 4096)
    let owned := s.warps.any fun w => w.uid != 0 && (s.warpGang w).state == .placed && s.partNo w == k % 4096 &&
      !(s.warpBlock w).retired && (!w.retired || (s.warpLaunch w).record.accs != 0)
    homes || owned

def unitStatus (s : State) (k : Nat) : Nat :=
  if unitReserved k then 3
  else if !s.unitPresent k then 2
  else if unitUsed s k || Store.get false s.haltedCores (unitCore k) then 1
  else 0

/-- A scrub of a unit: its bit is set, a gated unit is powered up, and a bank's L1 lines go (R222, R379). -/
def scrubUnit (k : Nat) (s : State) : State :=
  let u : Unit := Store.get {} s.units k
  let u : Unit := { u with unscrubbed := false, gated := false, idle := (s.cluster (nbits k 11 10)).clock.toNat }
  let s := { s with units := Store.put {} s.units k u }
  if unitIsBank k then s.onCache (unitCore k) (CoreCache.dropBank (k % 32)) else s

/-- A unit moves to a world, scrubbed first where R222 says so. -/
def assignUnit (k world : Nat) (s : State) : State :=
  let u : Unit := Store.get {} s.units k
  let s := if u.world.toNat != world || !s.scrubComplete k || u.gated then scrubUnit k s else s
  { s with units := Store.put {} s.units k { Store.get {} s.units k with world := .ofNat 4 world } }

def wassignIssue : Act → State → State :=
  sysIssue false
    (fun x s => boundsUnless (unitWordOk (x.valA (s.warp x.u) x.first) && decide (x.valB (s.warp x.u) x.first ≤ 15)))
    fun x s =>
      let w := s.warp x.u
      let k := x.valA w x.first
      let world := x.valB w x.first
      let s := x.expose s
      let st := unitStatus s k
      x.give st (if st = 0 then assignUnit k world s else s)

def scrubIssue : Act → State → State :=
  sysIssue false (fun x s => boundsUnless (unitWordOk (x.valA (s.warp x.u) x.first)))
    fun x s =>
      let k := x.valA (s.warp x.u) x.first
      let s := x.expose s
      let st := unitStatus s k
      x.give st (if st = 0 then scrubUnit k s else s)

/-! ## HASH (R223) -/

/-- The context of a HASH in scratchpad. -/
structure HashCtx where
  h : List DWord
  len : Nat
  buf : List Byte
  deriving DecidableEq, Repr

def HashCtx.ofBytes (bs : List Byte) : HashCtx :=
  let len := natOfBytes ((bs.drop 64).take 16)
  { h := (List.range 8).map fun k => .ofNat 64 (natOfBytes ((bs.drop (8 * k)).take 8)), len
    buf := (bs.drop 80).take (len % 128) }

/-- The 256 bytes of a context; buffer bytes behind the message bytes are `rest` (log 31). -/
def HashCtx.bytes (c : HashCtx) (rest : Nat → Byte) : List Byte :=
  (c.h.map fun x => bytesOfNat 8 x.toNat).flatten ++ bytesOfNat 16 c.len ++ c.buf ++
    ((List.range (128 - c.buf.length)).map rest) ++ List.replicate 48 0

def HashCtx.fresh : HashCtx := { h := shaInit, len := 0, buf := [] }

/-- Absorb bytes. -/
def HashCtx.absorb (c : HashCtx) (bs : List Byte) : HashCtx :=
  let all := c.buf ++ bs
  { h := shaBlocks c.h all, len := (c.len + bs.length) % 2 ^ 128, buf := all.drop (all.length / 128 * 128) }

/-- The digest of a context. -/
def HashCtx.digest (c : HashCtx) : List Byte := shaDigest (shaBlocks c.h (c.buf ++ shaPad c.len))

def hashCheck (data : Act → Warp → List (Nat × Nat × Nat)) (x : Act) (s : State) : Option TrapInfo :=
  let w := s.warp x.u
  (boundsUnless (decide (x.valC w x.first ≤ 65536))).or (spanCheck s w ((x.valA w x.first, 256, 64) :: data x w))

/-- One indivisible step on a context, under a tag of the block's window (R223, R230). -/
def hashStep (f : Act → State → HashCtx × State) (rest : Nat → Nat → Byte) (x : Act) (s : State) : State :=
  let a := x.valA (s.warp x.u) x.first
  let go (s : State) : DWord × State :=
    let (c, s) := f x s
    (0, x.putScr a (c.bytes (rest s.draws)) s.draw)
  (onceInBlock x a go s).2

def zeroRest (_ _ : Nat) : Byte := 0
def freeRest (d k : Nat) : Byte := Config.hashRest (d * 128 + k)

def hashInitIssue : Act → State → State :=
  sysIssue true (hashCheck fun _ _ => []) (hashStep (fun _ s => (.fresh, s)) zeroRest)

def hashUpdIssue : Act → State → State :=
  sysIssue true (hashCheck fun x w => [(x.valB w x.first, x.valC w x.first, 1)])
    (hashStep (fun x s =>
      let w := s.warp x.u
      ((HashCtx.ofBytes (x.scr (x.valA w x.first) 256 s)).absorb (x.scr (x.valB w x.first) (x.valC w x.first) s), s)) freeRest)

def hashFinIssue : Act → State → State :=
  sysIssue true (hashCheck fun x w => [(x.valB w x.first, 64, 8)])
    (hashStep (fun x s =>
      let w := s.warp x.u
      (.fresh, x.putScr (x.valB w x.first) (HashCtx.ofBytes (x.scr (x.valA w x.first) 256 s)).digest s)) zeroRest)

/-! ## Windows of the root's units (R230) -/

/-- An operation of a window outside the block: performed once, its result and bytes remembered. -/
def onceAt (win : State → List TagEntry) (put : List TagEntry → State → State) (x : Act) (addr : Nat)
    (perform : State → Nat × List Byte × State) (s : State) : Nat × List Byte × State :=
  let w := s.warp x.u
  let e := s.tagEntry w (s.tag w x.first (w.seq x.first)) x.i addr 0
  let s := takeSeqs x.u x.act s
  match tagFind (win s) e with
  | some t => (t.result.toNat, t.data, s)
  | none =>
    let (v, bs, s) := perform s
    let e := { e with result := .ofNat 64 v, data := bs, pinned := false, retained := (s.warpGang w).retained.contain }
    let (l, gs) := tagPut s 64 32 (win s) e
    (v, bs, exposeGangs gs (put l s))

/-! ## MEXT and ECSIG (R224, R225) -/

/-- A measurement register as its 64 bytes. -/
def measureBytes (m : BitVec 512) : List Byte := bytesOfBE 64 m.toNat
def State.measureOf (s : State) (i : Nat) : List Byte := measureBytes (s.measure.getD i 0)

/-- m(i) := SHA-512(m(i) ‖ d). -/
def extend (i : Nat) (d : List Byte) (s : State) : State :=
  { s with measure := s.measure.set i (.ofNat 512 (natOfBE (sha512 (s.measureOf i ++ d)))) }

def mextIssue : Act → State → State :=
  sysIssue true
    (fun x s =>
      let w := s.warp x.u
      let len (o : Operand) : Nat := if o.kind = .zr then 0 else 64
      (boundsUnless (decide (x.valA w x.first ≤ 31))).or
        (spanCheck s w [(x.valB w x.first, len x.r.b, 8), (x.valC w x.first, len x.r.c, 8)]))
    fun x s =>
      let w := s.warp x.u
      let i := x.valA w x.first
      let b := x.valB w x.first
      let c := x.valC w x.first
      let ext := x.r.b.kind != .zr
      let s := if ext then x.expose s else s
      let (_, m, s) := onceAt (fun s => s.measureTags) (fun l s => { s with measureTags := l }) x i
        (fun s =>
          let s := if ext then extend i (x.scr b 64 s) s else s
          (0, s.measureOf i, s)) s
      if x.r.c.kind = .zr then s else x.putScr c m s

def ecsigIssue : Act → State → State :=
  sysIssue true
    (fun x s =>
      let w := s.warp x.u
      spanCheck s w [(x.valA w x.first, 64, 8), (x.valB w x.first, 132, 4)])
    fun x s =>
      let w := s.warp x.u
      x.putScr (x.valB w x.first) (ecdsaSign Config.attestKey (x.scr (x.valA w x.first) 64 s)) s

/-! ## KEYREL (R226) -/

/-- The info string of the key derivation. -/
def keyInfo (world slot : Nat) : List Byte := [0x4F, 0x56, 0x4B, 0x52, .ofNat 8 world, .ofNat 8 slot, 0, 0]

/-- Unwrap a blob: the key, or the status that says why not. -/
def unwrapBlob (blob : List Byte) (world slot : Nat) : Except Nat (BitVec 256) :=
  let px := natOfBE ((blob.drop 1).take 66)
  let py := natOfBE ((blob.drop 67).take 66)
  if blob.headD 0 != 0x04 || !onCurve px py then .error 1
  else
    let z := (Point.times 521 Config.attestKey { x := px, y := py, z := 1 }).affineX
    match keyUnwrap (hkdf (bytesOfBE 66 z) (keyInfo world slot) 32) ((blob.drop 136).take 40) with
    | some k => .ok k
    | none => .error 2

def setKey (slot : Nat) (key : Option (BitVec 256 × BitVec 4)) (s : State) : State :=
  { s with keySlots := mapAt (fun k => { k with key, gen := k.gen + 1 }) s.keySlots slot }

/-- A RES.LOAD uses a key slot. -/
def loadUsesKey (k : Nat) (o : Op) : Bool :=
  !o.finished && (match o.ins with
    | .resLoad .. => (o.regs.getD 3 0).toNat == k
    | _ => false)

/-- A clear waits until no TCOPY or RES.LOAD that uses the slot is running: those of placed gangs (R226). -/
def keyInUse (s : State) (k : Nat) : Bool :=
  s.warps.any fun w => !w.retired && (s.gang w.gang).state == .placed && w.ops.any fun o => loadUsesKey k o || copyUsesKey s k w o

/-- A KEYREL that clears a slot has to wait. -/
def keyrelWaits (x : Act) (s : State) : Bool :=
  x.r.a.kind = .zr && keyInUse s (x.valB (s.warp x.u) x.first)

def keyrelIssue : Act → State → State :=
  sysIssue true
    (fun x s =>
      let w := s.warp x.u
      let b := x.valB w x.first
      let c := x.valC w x.first
      (boundsUnless (decide (1 ≤ b) && decide (b ≤ 15) && decide (1 ≤ c) && decide (c ≤ 15))).or
        (spanCheck s w [(x.valA w x.first, if x.r.a.kind = .zr then 0 else 176, 16)]))
    fun x s =>
      let w := s.warp x.u
      let a := x.valA w x.first
      let slot := x.valB w x.first
      let world := x.valC w x.first
      if keyrelWaits x s then s.onWarp x.u x.park
      else
      let s := x.expose s
      let (st, _, s) := onceAt (fun s => s.keyTags) (fun l s => { s with keyTags := l }) x a
        (fun s =>
          if x.r.a.kind = .zr then (0, [], setKey slot none s)
          else if ((s.keySlots.getD slot {}).key).isSome then (3, [], s)
          else match unwrapBlob (x.scr a 176 s) world slot with
            | .error st => (st, [], s)
            | .ok k => (0, [], setKey slot (some (k, .ofNat 4 world)) s)) s
      x.give st s

/-! ## CERTW (R227) -/

/-- A chain read as plain loads of the issuing thread. -/
def readChain (p : Party) (va n : Nat) (s : State) : Source × State :=
  match readMany (readL1 p) (n / 128 + 2) va n s with
  | (.bytes bs, s) => (.bytes bs, s)
  | (.fail x, s) => (.fail (firstBad s p.sp .read va n) x, s)
  | (.poison, s) => (.poison va, s)

/-- The staged chain replaces the slot's, or waits for the hold to clear. -/
def CertSlot.take (c : CertSlot) (chain : List Byte) : CertSlot :=
  if c.hold then { c with staged := some chain } else { c with chain }

def certwIssue : Act → State → State :=
  sysIssue true
    (fun x s =>
      let w := s.warp x.u
      let a := x.valA w x.first
      let n := x.valB w x.first
      (boundsUnless (decide (n ≤ 65536))).or
        (if n = 0 then none
         else if !canonical a then some { cause := causeTranslation, addr := .ofNat 64 a }
         else if a % 16 != 0 then some { cause := causeAlignment, addr := .ofNat 64 a }
         else none))
    fun x s =>
      let w := s.warp x.u
      let a := x.valA w x.first
      let n := x.valB w x.first
      let slot := x.valC w x.first
      if n != 0 && decide (2 ^ 60 < a + n) then x.trap x.first { cause := causeTranslation, addr := .ofNat 64 (2 ^ 60) } s
      else match readChain (s.party w) a n s with
      | (.bytes bs, s) =>
        let s := x.expose s
        let (st, _, s) := onceAt (fun s => s.certTags) (fun l s => { s with certTags := l }) x a
          (fun s =>
            let held := (s.certs.getD slot {}).hold
            (if held then 1 else 0, [], { s with certs := mapAt (fun c => c.take bs) s.certs slot })) s
        x.give st s
      | (r, s) => x.readFails 0 r s

/-! ## HALT (R228) -/

def haltIssue : Act → State → State :=
  sysIssue false (fun _ _ => none) fun x s =>
    let w := s.warp x.u
    let s := x.expose s
    if x.valA w x.first = 0 then haltCore (s.warpCore w) s else haltPart s

/-! ## Meanings -/

def execTrap (h : Hdr) (f : OpsH) : State → Host.Outcome State Fault Refusal := issue (.trap h f) (trapIssue f.imm)
def execTret (h : Hdr) (f : Ops) : State → Host.Outcome State Fault Refusal := issue (.tret h f) tretIssue
def execBkpt (h : Hdr) (f : Ops) : State → Host.Outcome State Fault Refusal := issue (.bkpt h f) bkptIssue
def execBeacon (h : Hdr) (f : Ops) : State → Host.Outcome State Fault Refusal := issue (.beacon h f) beaconIssue
def execWassign (h : Hdr) (f : Ops) : State → Host.Outcome State Fault Refusal := issue (.wassign h f) wassignIssue
def execScrub (h : Hdr) (f : Ops) : State → Host.Outcome State Fault Refusal := issue (.scrub h f) scrubIssue
def execHashInit (h : Hdr) (f : Ops) : State → Host.Outcome State Fault Refusal := issue (.hashInit h f) hashInitIssue
def execHashUpd (h : Hdr) (f : Ops) : State → Host.Outcome State Fault Refusal := issue (.hashUpd h f) hashUpdIssue
def execHashFin (h : Hdr) (f : Ops) : State → Host.Outcome State Fault Refusal := issue (.hashFin h f) hashFinIssue
def execMext (h : Hdr) (f : Ops) : State → Host.Outcome State Fault Refusal := issue (.mext h f) mextIssue
def execEcsig (h : Hdr) (f : Ops) : State → Host.Outcome State Fault Refusal := issue (.ecsig h f) ecsigIssue
def execKeyrel (h : Hdr) (f : Ops) : State → Host.Outcome State Fault Refusal := issue (.keyrel h f) keyrelIssue
def execCertw (h : Hdr) (f : Ops) : State → Host.Outcome State Fault Refusal := issue (.certw h f) certwIssue
def execHalt (h : Hdr) (f : Ops) : State → Host.Outcome State Fault Refusal := issue (.halt h f) haltIssue
def execDbgctlResume (v : Word) (s : State) : Host.Outcome State Fault Refusal := .next (debugResume v s)

end Sys2Proof.Machine
end

