-- ==== Sys2Proof/Machine/Reliability.lean ====
section
/-! DEFINITION. Upsets, link errors, voted units, patrol reads and the retirement list (R359 to R365, R370, R373 to R375, R401). -/

namespace Sys2Proof.Machine

/-! ## Locations (R373) -/

/-- A partition of a block's core, or of a warp, as the unit word names it. -/
def partWhere (source : BitVec 8) (unit : Nat) : ErrWhere := { addr := 0, pa := false, source, ltype := 0, loc := .ofNat 28 unit }

/-- An engine's byte, or a channel's: no check reports it (R370). -/
def nowhere : ErrWhere := { addr := 0, pa := false, source := 0, ltype := 0, loc := 0 }

def blockPart (s : State) (g rank part : Nat) : Nat := coreNo (s.gang g).cluster (s.block g rank).core * 32 + part

/-- Where an upset is reported. -/
def siteWhere (s : State) : UpsetSite → ErrWhere
  | .vreg u _ _ | .ureg u _ => regWhere s (s.warp u)
  | .accumulator g r p _ _ => partWhere 0x02 (blockPart s g r p)
  | .residency c i _ => partWhere 0x03 ((s.res (c, i)).home.getD 0)
  | .scale g r p _ => partWhere 0x04 (blockPart s g r p)
  | .scratch g r a => scrWhere s g (r, a)
  | .l1 core k => { addr := .ofNat 64 (vaOf k), pa := false, source := 0x06, ltype := 1,
                    loc := .ofNat 28 (core * 32 + Store.get 0 (s.cache core).bank (k / 128)) }
  | .constCache core k => { addr := .ofNat 64 (vaOf k), pa := false, source := 0x06, ltype := 1, loc := .ofNat 28 (core * 32) }
  | .l2 k | .l2shadow _ k => l2Where k
  | .l2replica slice line _ byte => { l2Where (line * 128 + byte) with loc := .ofNat 28 slice }
  | .l2tag sl _ => { addr := 0, pa := false, source := 0x08, ltype := 2, loc := .ofNat 28 sl }
  | .dram pa => dramWhere pa
  | .arith .. | .arithU .. | .arithP .. | .both .. | .bothU .. | .bothP .. | .array .. | .engine .. | .engineScratch .. | .cipher .. =>
    nowhere

/-! ## SOFT_ERROR (R362, R370) -/

/-- The launch of a warp runs in shadow mode (R366). -/
def State.shadowMode (s : State) (u : Nat) : Bool := (s.warpLaunch (s.warp u)).record.shadow

/-- A vector result of a warp comes out wrong: its shadow keeps the right one (R367); without a shadow nothing catches it (R370). -/
def flipResult (u l i : Nat) (flip : Word) (s : State) : State :=
  let shadow := s.shadowMode u
  s.onWarp u fun w =>
    let r := w.vreg i l
    let kept := shadow && (Store.get none w.shadowV (vkey i l)).isNone && flip != 0
    { w.setVreg i l { r with val := r.val ^^^ flip } with
      shadowV := if kept then Store.put none w.shadowV (vkey i l) (some r.val) else w.shadowV }

/-- The same of a uniform result. -/
def flipUniform (u i : Nat) (flip : Word) (s : State) : State :=
  let shadow := s.shadowMode u
  s.onWarp u fun w =>
    let r := w.ureg i
    let kept := shadow && (Store.get none w.shadowU i).isNone && flip != 0
    { w.setUreg i { r with val := r.val ^^^ flip } with
      shadowU := if kept then Store.put none w.shadowU i (some r.val) else w.shadowU }

/-- The same of a predicate. -/
def flipPred (u l p : Nat) (s : State) : State :=
  let shadow := s.shadowMode u
  s.onWarp u fun w =>
    let t := w.thread l
    let kept := shadow && (Store.get none w.shadowT l).isNone && decide (p < 7)
    { w.onThread l fun t => { t with preds := t.preds ^^^ (1#7 <<< p) } with
      shadowT := if kept then Store.put none w.shadowT l (some t.computed) else w.shadowT }

/-- What an uncorrectable error leaves to be found, or an error that nothing finds (R362, R370). -/
def strike (site : UpsetSite) (s : State) : State :=
  match site with
  | .vreg u l i => s.onWarp u fun w => w.setVreg i l { w.vreg i l with bad := true, noted := false }
  | .ureg u i => s.onWarp u fun w => w.setUreg i { w.ureg i with bad := true, noted := false }
  | .accumulator g r p t e => s.onBlock g r fun b =>
      { b with badAcc := Store.put false b.badAcc (accKey p t e) true, notedAcc := Store.put false b.notedAcc (accKey p t e) false }
  | .residency c i byte => s.onRes (c, i) fun q => { q with bad := Store.put false q.bad (byte / 8) true }
  | .scale g r p byte => s.onBlock g r fun b =>
      { b with badScale := Store.put false b.badScale (p * 512 + byte / 8) true
               notedScale := Store.put false b.notedScale (p * 512 + byte / 8) false }
  | .scratch g r a => s.onBlock g r fun b =>
      { b with badScratch := Store.put false b.badScratch (a / 8) true, notedScratch := Store.put false b.notedScratch (a / 8) false }
  | .l1 core k => noteCorrected (siteWhere s site) (s.onCache core (CoreCache.dropLine k))
  | .constCache core k =>
    let drop (c : CoreCache) : CoreCache := { c with consts := Store.drop c.consts fun j => j / 128 == k / 128 }
    noteCorrected (siteWhere s site) (s.onCache core drop)
  | .l2 k =>
    if linePresent s k then
      { s with mem := { s.mem with
          poisonL2 := Store.put false s.mem.poisonL2 (k / 8) true, notedL2 := Store.put false s.mem.notedL2 (k / 8) false } }
    else s
  | .l2shadow g k =>
    if (s.gang g).shadows.contains (k / 128) then
      s.onGang g fun x => { x with badVersion := Store.put false x.badVersion (k / 8) true }
    else s
  | .l2replica slice line launch byte =>
    let hit (r : Replica) : Bool := r.slice == slice && r.line == line && r.launch == launch
    { s with mem := { s.mem with replicas := mapIf hit (fun r => { r with bad := byte % 128 / 8 :: r.bad }) s.mem.replicas } }
  | .l2tag _ both =>
    if both then haltVoted (noteUncorrectable { w := siteWhere s site, action := 4 } s) else noteCorrected (siteWhere s site) s
  | .dram pa =>
    if placeOf s pa = .dram then
      { s with mem := { s.mem with
          poisonDram := Store.put false s.mem.poisonDram (pa / 8) true, noted := Store.put false s.mem.noted (pa / 8) false } }
    else s
  | .arith u l i flip => flipResult u l i flip s
  | .arithU u i flip => flipUniform u i flip s
  | .arithP u l p => flipPred u l p s
  | .both u l i flip => s.onWarp u fun w => w.setVreg i l { w.vreg i l with val := (w.vreg i l).val ^^^ flip }
  | .bothU u i flip => s.onWarp u fun w => w.setUreg i { w.ureg i with val := (w.ureg i).val ^^^ flip }
  | .bothP u l p => s.onWarp u fun w => w.onThread l fun t => { t with preds := t.preds ^^^ (1#7 <<< p) }
  | .array g r p t e flip => s.onBlock g r fun b =>
      { b with acc := Store.put 0 b.acc (accKey p t e) (Store.get 0 b.acc (accKey p t e) ^^^ flip) }
  | .engine k flip =>
    if linePresent s k then { s with mem := { s.mem with l2 := s.mem.l2.setBytes k [s.mem.l2.byte k ^^^ flip] } } else s
  | .engineScratch g r a flip => s.onBlock g r fun b => { b with scratch := b.scratch.setBytes a [b.scratch.byte a ^^^ flip] }
  | .cipher pa flip => { s with mem := { s.mem with dram := s.mem.dram.setBytes pa [s.mem.dram.byte pa ^^^ flip] } }

/-- The gaps of R370, where nothing corrects an error. -/
def unchecked : UpsetSite → Bool
  | .arith .. | .arithU .. | .arithP .. | .both .. | .bothU .. | .bothP .. | .array .. | .engine .. | .engineScratch .. | .cipher .. =>
    true
  | _ => false

/-- An upset: a correctable error is corrected and recorded (log 41); any other is found later, or never. -/
def softError (site : UpsetSite) (correctable : Bool) (s : State) : State :=
  if correctable && !unchecked site then noteCorrected (siteWhere s site) s else strike site s

/-! ## Links (R362, R374) -/

/-- Wodin ports are 0 to 17; 18 stands for the PCIe link. -/
def linkWhere (port lane : Nat) : ErrWhere :=
  if port < 18 then { addr := 0, pa := false, source := 0x0B, ltype := 5, loc := .ofNat 28 (port * 8 + lane % 8) }
  else { addr := 0, pa := false, source := 0x0C, ltype := 6, loc := 0 }

/-- Bytes that the answer of a peer's request holds. -/
def peerAnswers : PeerOp → Nat
  | .read n => n
  | .write _ => 0
  | .atomic _ t _ => 4 * t.regs

/-- A request of the outside in flight on a link that goes down completes poisoned (R362, R410); a host's write is posted and has no completion. -/
def poisonAnswer : Instr → List Outward
  | .hostWindowRead _ _ len => [.hostData (List.replicate len 0) true]
  | .peerRequest r => [.peerData (List.replicate (peerAnswers r.op) 0) true]
  | _ => []

/-- The link over which a request that waits inside the part came: 18 is PCIe. -/
def cameOver : Instr → Option Nat
  | .hostWindowRead .. | .hostWindowWrite .. => some 18
  | .peerRequest r => some r.port
  | _ => none

/-- The requests in flight on a link that carries nothing any more complete poisoned; the part's own requests complete within a step. -/
def linkDown (port : Nat) (s : State) : State :=
  let lost (x : Word × Nat × Instr) : Bool := cameOver x.2.2 == some port
  { s with
    waiters := s.waiters.filter fun x => !lost x
    sent := s.sent ++ ((s.waiters.filter lost).map fun x => poisonAnswer x.2.2).flatten }

/-- A failed flit: retried or retrained, it is corrected; a port that fails to retrain is disabled, and the requests in flight on it complete poisoned (R362, R410). -/
def linkFails (port lane : Nat) (x : LinkOutcome) (s : State) : State :=
  if Store.get false s.deadPorts port then s
  else match x with
    | .retried | .retrained => noteCorrected (linkWhere port lane) s
    | .disabled =>
      noteUncorrectable { w := linkWhere port lane, action := 1 }
        (linkDown port { s with deadPorts := Store.put false s.deadPorts port true })

/-! ## Voted units (R359, R360) -/

/-- Instances of the five voted units, in the order of R359. -/
def votedInstances : Nat → Nat
  | 0 => 2 | 1 => 4 | 2 => 1 | 3 => 1 | 4 => 8 | _ => 0

def votedKey (unit inst copy : Nat) : Nat := (unit * 8 + inst) * 3 + copy

def State.copyOf (s : State) (unit inst copy : Nat) : VotedCopy := Store.get {} s.voted (votedKey unit inst copy)

def State.setCopy (s : State) (unit inst copy : Nat) (v : VotedCopy) : State :=
  { s with voted := Store.put {} s.voted (votedKey unit inst copy) v }

def votedWhere (unit inst copy : Nat) : ErrWhere :=
  { addr := 0, pa := false, source := 0x0D, ltype := 7, loc := .ofNat 28 (unit * 32 + inst * 4 + copy) }

/-- The copies of a unit that vote. -/
def voters (s : State) (unit inst : Nat) : List Nat :=
  (List.range 3).filter fun c => (s.copyOf unit inst c).state == .voting

/-- A copy leaves the vote: the sixteenth time since boot it is FAULTY. -/
def leaveVote (unit inst c : Nat) (s : State) : State :=
  let n := (s.copyOf unit inst c).resyncs + 1
  let s := writeErr { w := votedWhere unit inst c, action := 5 } (s.setCopy unit inst c { state := .resync, resyncs := n })
  if 16 ≤ n then writeErr { w := votedWhere unit inst c, action := 6 } (s.setCopy unit inst c { state := .faulty, resyncs := n })
  else s

/-- In one cycle the copies of a mask disagree with the others (R360). -/
def disagree (unit inst : Nat) (copies : BitVec 3) (s : State) : State :=
  let vs := voters s unit inst
  let out := vs.filter fun c => copies.getLsbD c
  if out = [] || votedInstances unit ≤ inst then s
  else match out with
    | [c] =>
      if vs.length = 3 then leaveVote unit inst c s
      else haltVoted (writeErr { w := votedWhere unit inst c, action := 4 } s)
    | c :: _ => haltVoted (writeErr { w := votedWhere unit inst c, action := 4 } s)
    | [] => s

def resynced (unit inst c : Nat) (s : State) : State :=
  s.setCopy unit inst c { s.copyOf unit inst c with state := .voting }

/-! ## Patrol (R365) -/

/-- A patrol read of the line with that number. -/
def patrol (line : Nat) (x : PatrolFinding) (s : State) : State :=
  match x with
  | .clean => s
  | .corrected => noteCorrected (dramWhere (line * 128)) s
  | .uncorrectable g =>
    let pa := line * 128 + g % 16 * 8
    if Store.get false s.mem.poisonDram (pa / 8) && Store.get false s.mem.noted (pa / 8) then s
    else noteUncorrectable { w := dramWhere pa, action := 1 }
      { s with mem := { s.mem with
          poisonDram := Store.put false s.mem.poisonDram (pa / 8) true, noted := Store.put false s.mem.noted (pa / 8) true } }

/-! ## The retirement list (R374, R375, R401) -/

/-- Where a unit that is never retired is reported: an L2 slice by its data, the PCIe link, a voted unit; other values of ltype name nothing (R373, R375). -/
def neverRetired (ltype : Nat) (loc : BitVec 28) : Option ErrWhere :=
  let at' (source : BitVec 8) : ErrWhere := { addr := 0, pa := false, source, ltype := .ofNat 4 ltype, loc }
  match ltype with
  | 2 => some (at' 0x07)
  | 6 => some (at' 0x0C)
  | 7 => some (at' 0x0D)
  | _ => none

/-- World 0 adds or removes an entry: ltype in bits 3:0, loc in bits 31:4. An added one that names a unit never retired is reported, as a pending entry is, and otherwise ignored (R374, R375). DESIGN CHOICE (log 67): the report is a record of action 7; a loc that names no unit is listed all the same, and at reset takes a channel's share away or is the key of no partition. -/
def retireEdit (add : Bool) (v : Word) (s : State) : State :=
  let ltype := v.toNat % 16
  if retirable ltype then { s with retire := Store.put false s.retire (ltype * 2 ^ 28 + v.toNat / 16) add }
  else match add, neverRetired ltype (.ofNat 28 (v.toNat / 16)) with
    | true, some w => writeErr { w, action := 7 } s
    | _, _ => s

/-! ## Meanings -/

def execSoftError (site : UpsetSite) (correctable : Bool) (s : State) : Host.Outcome State Fault Refusal :=
  .next (softError site correctable s)
def execLinkError (port lane : Nat) (outcome : LinkOutcome) (s : State) : Host.Outcome State Fault Refusal :=
  .next (linkFails port lane outcome s)
def execVoteDisagree (unit inst : Nat) (copies : BitVec 3) (s : State) : Host.Outcome State Fault Refusal :=
  .next (disagree unit inst copies s)
def execResyncComplete (unit inst copy : Nat) (s : State) : Host.Outcome State Fault Refusal :=
  event ((s.copyOf unit inst copy).state == .resync) (resynced unit inst copy) s
def execPatrolRead (line : Nat) (found : PatrolFinding) (s : State) : Host.Outcome State Fault Refusal :=
  event (s.mgmt.patrol != 0 && placeOf s (line * 128) == .dram) (patrol line found) s
def execRetadd (v : Word) (s : State) : Host.Outcome State Fault Refusal := .next (retireEdit true v s)
def execRetdel (v : Word) (s : State) : Host.Outcome State Fault Refusal := .next (retireEdit false v s)

end Sys2Proof.Machine
end

