-- ==== Sys2Proof/Machine/Attest.lean ====
section
/-! DEFINITION. The DOE mailbox and the SPDM responder (R389 to R397), the certificate holds (R227), rekeying (R382) and power gating (R379). -/

namespace Sys2Proof.Machine

/-! ## Requests from outside that meet a page (R248, R273, R410) -/

/-- Pieces of a range, one per line. -/
def linePieces (va n : Nat) : List (Nat × Nat) :=
  ((List.range (n / 128 + 2)).map fun j =>
    let a := max va ((va / 128 + j) * 128)
    (a, min (va + n) ((va / 128 + j + 1) * 128) - a)).filter fun p => p.2 != 0

/-- The first piece that cannot be reached, and why. -/
def outsideBad (s : State) (sp : Space) (a : Acc) (va n : Nat) : Option (Nat × Xlat) :=
  (linePieces va n).findSome? fun p => (probe (sp.loc p.1) p.2 a s).1.map fun x => (p.1, x)

/-- A request waits for a page: as a recoverable fault of this part, or until a shootdown ends (R304, R410). -/
def outsideWaits (i : Instr) (sp : Space) (va kind : Nat) (s : State) : State :=
  let b : Batch := { ident := .ofNat 32 s.nextBatch, ops := [], pages := [(sp.world, sp.asid, va, kind, false)], launch := 0, gang := 0 }
  let s := { s with batches := s.batches ++ [b], nextBatch := nextIdent s.nextBatch, waiters := s.waiters ++ [(b.ident, 0, i)] }
  flushBatches s.batches s

/-! ## The mailbox (R395) -/

def mailSlot (s : State) : Nat := s.mgmt.spdmbox.toNat % 256
def mailBase (s : State) : Nat := nbits s.mgmt.spdmbox.toNat 59 12 * 4096

/-- Boot has failed: the DOE sets its Error bit for every request (R412). -/
def bootFailed (s : State) : Bool := s.mgmt.bootst = 3 || s.mgmt.bootst = 4

/-- The space in which the mailbox lies. -/
def mailSpace (s : State) : Space := (s.ctx (mailSlot s)).space

/-- The first piece of some ranges of the mailbox, by offset and length, that the DOE interface cannot reach. -/
def mailBad (s : State) (a : Acc) (rs : List (Nat × Nat)) : Option (Nat × Xlat) :=
  rs.findSome? fun r => outsideBad s (mailSpace s) a (mailBase s + r.1) r.2

/-- The DOE interface reaches the mailbox: its slot's context is valid and of world 0. -/
def mailOk (s : State) : Bool :=
  let c := s.ctx (mailSlot s)
  c.valid && c.world == 0 && !bootFailed s

def mailRead (off n : Nat) (s : State) : Option (List Byte) × State :=
  let (bs, t) := cpRead (mailSlot s) (mailBase s + off) n s
  (bs, { t with stall := s.stall })
def mailWrite (off : Nat) (bs : List Byte) (s : State) : State := cpWrite (mailSlot s) (mailBase s + off) bs s

/-- rsseq as it stands; none where it cannot be read. -/
def rsseq (s : State) : Option Nat := (mailRead 8 4 s).1.map natOfBytes

/-- A response is sent: the delivered request's number stands in rsseq. -/
def answered (s : State) : Bool := rsseq s == some s.spdm.delivered.toNat

/-! ## The DOE interface -/

/-- The hold of a slot clears: a staged chain replaces the slot's contents (R227). -/
def CertSlot.release (c : CertSlot) : CertSlot := { chain := c.staged.getD c.chain, staged := none, hold := false }

/-- Once the response to the request that holds a slot has been sent, the hold clears. -/
def holdClears (s : State) : State :=
  match s.spdm.held with
  | some k =>
    if answered s then { s with certs := mapAt CertSlot.release s.certs k, spdm := { s.spdm with held := none } } else s
  | none => s

/-- The slot that a delivered CHALLENGE holds. -/
def holdOf (bs : List Byte) : Option Nat :=
  let k := (bs.getD 2 0).toNat
  if bs.getD 1 0 = 0x83 && k < 8 then some k else none

/-- Deliver a request: its bytes, rqlen, then rqseq. -/
def deliver (bs : List Byte) (s : State) : State :=
  let n := s.spdm.delivered + 1
  let s := mailWrite 0 (bytesOfNat 4 n.toNat) (mailWrite 4 (bytesOfNat 4 bs.length) (mailWrite 0x1000 bs s))
  let certs := match holdOf bs with
    | some k => mapAt (fun c : CertSlot => { c with hold := true }) s.certs k
    | none => s.certs
  { s with certs, spdm := { s.spdm with delivered := n, awaiting := true, held := holdOf bs } }

def answerDoe (r : Option (List Byte)) (s : State) : State := { s with spdm := { s.spdm with responses := s.spdm.responses ++ [r] } }

/-- The DOE interface's accesses are host requests of R248: one that meets an absent page is a recoverable fault and waits, one that meets a page in migration waits too, and one that is refused ends the request with the Error bit (R273, R304, R395). -/
def mailAccess (i : Instr) (a : Acc) (rs : List (Nat × Nat)) (refused go : State → State) (s : State) : State :=
  match mailBad s a rs with
  | none => go s
  | some (v, .notPresent) => if fastFault s (mailSpace s).asid then refused s else outsideWaits i (mailSpace s) v (if a = .write then 1 else 0) s
  | some (v, .migrating) => { s with waiters := s.waiters ++ [(0, (mailSpace s).loc v, i)] }
  | some _ => refused s

/-- A request waits for a page of the mailbox: the later ones stay behind it. -/
def doeWaits (s : State) : Option (Word × Nat) :=
  (s.waiters.find? fun x => match x.2.2 with
    | .doeRequest _ => true
    | _ => false).map fun x => (x.1, x.2.1)

/-- A request reaches the DOE interface: delivered, kept until the request before it has been answered, or answered with the Error bit (log 17). -/
def doeTakes (bs : List Byte) (s : State) : State :=
  if bs.length < 4 || 4096 < bs.length || !mailOk s then answerDoe none s
  else if s.spdm.awaiting then { s with spdm := { s.spdm with waiting := s.spdm.waiting ++ [bs] } }
  else match doeWaits s with
    | some (b, k) => { s with waiters := s.waiters ++ [(b, k, .doeRequest bs)] }
    | none => mailAccess (.doeRequest bs) .write [(0x1000, bs.length), (0, 8)] (answerDoe none) (deliver bs) s

/-- The request under way is answered: the next is taken, or all that wait where the mailbox has gone. -/
def doeNext (r : Option (List Byte)) (s : State) : State :=
  let s := answerDoe r { s with spdm := { s.spdm with awaiting := false } }
  match s.spdm.waiting with
  | [] => s
  | bs :: rest =>
    if mailOk s then doeTakes bs { s with spdm := { s.spdm with waiting := rest } }
    else each (bs :: rest) { s with spdm := { s.spdm with waiting := [] } } fun _ s => answerDoe none s

/-- The DOE interface has read rsseq: it reads rslen and the response, and delivers the next request. -/
def doeCollect (s : State) : State :=
  let s := holdClears s
  if !mailOk s then doeNext none s
  else
    let (n, s) := mailRead 12 4 s
    let len := min 4096 ((n.map natOfBytes).getD 0)
    mailAccess .doeResponseCollect .read [(12, 4), (0x2000, len)] (doeNext none) (fun s =>
      let (bs, s) := mailRead 0x2000 len s
      doeNext bs s) s

/-- The responder, or a mailbox that has gone, lets the DOE interface collect, unless it waits for a page. -/
def doeReady (s : State) : Bool :=
  s.spdm.awaiting && (answered s || !mailOk s) && !s.waiters.any fun x => x.2.2 == .doeResponseCollect

/-! ## The responder (R389 to R394, R396) -/

/-- A root launch of software has been placed and has not ended, be it evicted: it is the root firmware that runs, and answers by its own instructions (log 17). -/
def rootProgram (s : State) : Bool :=
  s.gangs.any fun g => (g.state == .placed || g.state == .evicted || g.state == .relaunching) && (s.launch g.launch).record.root && !(s.launch g.launch).rom

/-- The request that waits for an answer by the responder of R389 to R394; root firmware must be running (R412). -/
def spdmRequest (s : State) : Option (List Byte) :=
  if s.spdm.awaiting && mailOk s && !answered s && (s.mgmt.bootst = 2 || s.mgmt.bootst = 5) && !s.haltedPart && !rootProgram s then
    match (mailRead 4 4 s).1 with
    | some n => (mailRead 0x1000 (min 4096 (natOfBytes n)) s).1
    | none => none
  else none

def reqCode (r : List Byte) : Nat := (r.getD 1 0).toNat
def reqVersion (r : List Byte) : Nat := (r.getD 0 0).toNat
def param1 (r : List Byte) : Nat := (r.getD 2 0).toNat
def param2 (r : List Byte) : Nat := (r.getD 3 0).toNat
/-- `n` little-endian bytes of a request at an offset. -/
def reqField (r : List Byte) (o n : Nat) : Nat := natOfBytes ((List.range n).map fun k => r.getD (o + k) 0)

/-- Firmware writes the response and its length, then rsseq: the response is sent. -/
def sendSpdm (bs : List Byte) (s : State) : State :=
  let s := mailWrite 12 (bytesOfNat 4 bs.length) (mailWrite 0x2000 bs s)
  holdClears (mailWrite 8 (bytesOfNat 4 s.spdm.delivered.toNat) s)

/-- ERROR: it changes no state and no transcript (R391). -/
def sendError (code : Byte) (s : State) : State := sendSpdm [0x12, 0x7F, code, 0] s

/-- The answer of a request whose version and state are right: its response, and what follows in the responder; `none` is InvalidRequest. -/
abbrev Answer := List Byte → State → Option (List Byte × State)

/-- The first rows of R396, in order, then the request's own. -/
def spdmAnswer (version : Nat) (accepted : Spdm → Bool) (f : Answer) (s : State) : State :=
  match spdmRequest s with
  | none => s
  | some r =>
    if reqVersion r != version then sendError 0x41 s
    else if !accepted s.spdm then sendError 0x04 s
    else match f r s with
      | none => sendError 0x01 s
      | some (bs, s) => sendSpdm bs s

/-- A request of a code waits for its answer. -/
def spdmDue (code : Nat) (s : State) : Bool := (spdmRequest s).any fun r => reqCode r == code

/-- The codes the responder answers (R389). -/
def spdmCodes : List Nat := [0x84, 0xE1, 0xE3, 0x81, 0x82, 0x83, 0xE0]

def State.onSpdm (s : State) (f : Spdm → Spdm) : State := { s with spdm := f s.spdm }

def versionAnswer : Answer := fun r s =>
  let bs : List Byte := [0x10, 0x04, 0, 0, 0, 1, 0x00, 0x12]
  some (bs, s.onSpdm fun x => { x with state := 1, partialRead := false, a := r ++ bs, b := [], l := [], shown := [] })

/-- CAPABILITIES and ALGORITHMS carry the values of R390. -/
def capabilitiesAnswer : Answer := fun r s =>
  let bs : List Byte := [0x12, 0x61, 0, 0, 0, 0x14, 0, 0] ++ bytesOfNat 4 0x16 ++ bytesOfNat 4 4096 ++ bytesOfNat 4 4096
  some (bs, s.onSpdm fun x => { x with state := 2, a := x.a ++ r ++ bs })

def algorithmsAnswer : Answer := fun r s =>
  if reqField r 8 4 / 256 % 2 = 0 || reqField r 12 4 / 4 % 2 = 0 then none
  else
    let bs : List Byte := [0x12, 0x63, 0, 0, 36, 0, 1, 0] ++ bytesOfNat 4 8 ++ bytesOfNat 4 0x100 ++ bytesOfNat 4 4 ++ List.replicate 16 0
    some (bs, s.onSpdm fun x => { x with state := 3, a := x.a ++ r ++ bs })

def chainOf (s : State) (k : Nat) : List Byte := (s.certs.getD k {}).chain

/-- Slots that hold a chain (R394). -/
def fullSlots (s : State) : List Nat := (List.range 8).filter fun k => chainOf s k != []

def digestsAnswer : Answer := fun r s =>
  let ks := fullSlots s
  let mask := (ks.map fun k => 2 ^ k).sum
  let bs : List Byte := [0x12, 0x01, 0, .ofNat 8 mask] ++ (ks.map fun k => sha512 (chainOf s k)).flatten
  some (bs, s.onSpdm fun x => { x with b := x.b ++ r ++ bs })

/-- A portion of a chain (R391, R396). -/
def certificateAnswer : Answer := fun r s =>
  let c := chainOf s (param1 r)
  let off := reqField r 4 2
  if 8 ≤ param1 r || c.length ≤ off then none
  else
    let n := min (min (reqField r 6 2) (c.length - off)) 4088
    let rest := c.length - off - n
    let bs : List Byte := [0x12, 0x02, .ofNat 8 (param1 r), 0] ++ bytesOfNat 2 n ++ bytesOfNat 2 rest ++ (c.drop off).take n
    some (bs, s.onSpdm fun x =>
      { x with partialRead := decide (rest ≠ 0), b := x.b ++ r ++ bs, shown := Store.put [] x.shown (param1 r) c })

/-- The measurement block of index i + 1 (R388, R393). -/
def measureBlock (s : State) (i : Nat) : List Byte :=
  [.ofNat 8 (i + 1), 0x01, 67, 0, .ofNat 8 (min i 3), 64, 0] ++ s.measureOf i

def measureBlocks (s : State) (is : List Nat) : List Byte := (is.map (measureBlock s)).flatten

def ascii (t : String) : List Byte := t.toList.map fun c => .ofNat 8 c.toNat

/-- The signature over a message under a zero-padded context string (R392). -/
def spdmSign (context : String) (m : List Byte) : List Byte :=
  let pre := (List.replicate 4 (ascii "dmtf-spdm-v1.2.*")).flatten
  let ctx := List.replicate (36 - (ascii context).length) 0 ++ ascii context
  ecdsaSign Config.attestKey (sha512 (pre ++ ctx ++ sha512 m))

/-- The responder's nonce, A0 to BF (R397). -/
def nonce : List Byte := (List.range 32).map fun k => .ofNat 8 (0xA0 + k)

/-- CHALLENGE_AUTH (R392): the digest of the chain, as CERTIFICATE has shown it (R398; log 17), the nonce, the summary, and the signature over A, B and C. -/
def challengeAnswer : Answer := fun r s =>
  let k := param1 r
  let c := chainOf s k
  if 8 ≤ k || c = [] || !(param2 r = 0 || param2 r = 1 || param2 r = 0xFF) then none
  else
    let summary := if param2 r = 0 then [] else sha512 (measureBlocks s (List.range (if param2 r = 1 then 4 else 32)))
    let bs : List Byte := [0x12, 0x03, .ofNat 8 k, .ofNat 8 (2 ^ k)] ++ sha512 (Store.get c s.spdm.shown k) ++ nonce ++ summary ++ [0, 0]
    let sig := spdmSign "responder-challenge_auth signing" (s.spdm.a ++ s.spdm.b ++ r ++ bs)
    some (bs ++ sig, s.onSpdm fun x => { x with b := [] })

/-- MEASUREMENTS (R393), signed where Param1 bit 0 asks for it. -/
def measurementsAnswer : Answer := fun r s =>
  let p := param2 r
  if 33 ≤ p && p != 0xFF then none
  else
    let is := if p = 0 then [] else if p = 0xFF then List.range 32 else [p - 1]
    let bs : List Byte := [0x12, 0x60, if p = 0 then 32 else 0, 0, .ofNat 8 is.length] ++ bytesOfNat 3 (71 * is.length) ++
      measureBlocks s is ++ nonce ++ [0, 0]
    if param1 r % 2 = 0 then some (bs, s.onSpdm fun x => { x with l := x.l ++ r ++ bs })
    else
      let sig := spdmSign "responder-measurements signing" (s.spdm.a ++ s.spdm.l ++ r ++ bs)
      some (bs ++ sig, s.onSpdm fun x => { x with l := [] })

/-! ## Rekeying (R382) -/

/-- A unit or a context of a world remains. -/
def worldInUse (s : State) (w : Nat) : Bool :=
  (s.units.any fun u => u.2.world.toNat == w && s.unitPresent u.1) || s.ctxs.any fun c => c.2.valid && c.2.world.toNat == w

/-- What a core caches of a world is dropped. -/
def CoreCache.rekeyed (w : Nat) (c : CoreCache) : CoreCache :=
  let line (j : Nat) : Bool := (spaceOf (128 * j)).world == w
  { c with
    l1 := Store.drop c.l1 fun j => (spaceOf (4 * j)).world == w
    lines := Store.drop c.lines line
    bank := Store.drop c.bank line
    consts := Store.drop c.consts fun k => (spaceOf k).world == w }

/-- World w, 1 to 15, gets new keys: its cached lines are dropped unwritten, its key slots cleared. -/
def rekeyWorld (v : Word) (s : State) : State :=
  let w := v.toNat
  if w = 0 || 15 < w then s
  else if worldInUse s w then { s with mgmt := { s.mgmt with wrstat := 2 } }
  else
    let clear (k : KeySlot) : KeySlot := if k.key.any fun x => x.2.toNat == w then { k with key := none, gen := k.gen + 1 } else k
    { s with
      mgmt := { s.mgmt with wrstat := 0 }
      caches := (s.caches.map fun c => (c.1, c.2.rekeyed w)).filter fun c => c.2 != {}
      keySlots := s.keySlots.map clear
      rekeys := mapAt (· + 1) s.rekeys w
      mem := { s.mem with
        lines := Store.drop s.mem.lines fun j => (spaceOf (128 * j)).world == w
        l2 := Store.drop s.mem.l2 fun k => (spaceOf k).world == w
        poisonL2 := Store.drop s.mem.poisonL2 fun j => (spaceOf (8 * j)).world == w
        notedL2 := Store.drop s.mem.notedL2 fun j => (spaceOf (8 * j)).world == w
        cameL2 := Store.drop s.mem.cameL2 fun j => (spaceOf (8 * j)).world == w
        replicas := s.mem.replicas.filter fun r => (spaceOf (128 * r.line)).world != w } }

/-! ## Power gating (R379) -/

/-- A captured core's units hold captured state. -/
def unitCaptured (s : State) (k : Nat) : Bool := s.haltedPart || Store.get false s.haltedCores (unitCore k)

/-- A unit may be gated: present, unused, uncaptured and idle for gidle cycles; the root's units stay. -/
def gateable (s : State) (k : Nat) : Bool :=
  let u : Unit := Store.get {} s.units k
  unitWordOk k && decide (unitCore k < 128) && s.unitPresent k && !unitReserved k && !u.gated && !unitUsed s k && !unitCaptured s k &&
    s.mgmt.gidle != 0 && decide (u.idle + s.mgmt.gidle.toNat ≤ (s.cluster (nbits k 11 10)).clock.toNat)

/-- A gated unit loses its contents and keeps its world. -/
def gateUnit (k : Nat) (s : State) : State :=
  let s := { s with units := Store.put {} s.units k { Store.get {} s.units k with gated := true } }
  if unitIsBank k then s.onCache (unitCore k) (CoreCache.dropBank (k % 32)) else s

/-! ## Meanings -/

def execDoeRequest (bytes : List Byte) (s : State) : Host.Outcome State Fault Refusal := .next (doeTakes bytes s)
def execDoeResponseCollect (s : State) : Host.Outcome State Fault Refusal := event (doeReady s) doeCollect s
def execGetVersion (s : State) : Host.Outcome State Fault Refusal :=
  event (spdmDue 0x84 s) (spdmAnswer 0x10 (fun _ => true) versionAnswer) s
def execGetCapabilities (s : State) : Host.Outcome State Fault Refusal :=
  event (spdmDue 0xE1 s) (spdmAnswer 0x12 (fun x => x.state == 1) capabilitiesAnswer) s
def execNegotiateAlgorithms (s : State) : Host.Outcome State Fault Refusal :=
  event (spdmDue 0xE3 s) (spdmAnswer 0x12 (fun x => x.state == 2) algorithmsAnswer) s
def execGetDigests (s : State) : Host.Outcome State Fault Refusal :=
  event (spdmDue 0x81 s) (spdmAnswer 0x12 (fun x => x.state == 3) digestsAnswer) s
def execGetCertificate (s : State) : Host.Outcome State Fault Refusal :=
  event (spdmDue 0x82 s) (spdmAnswer 0x12 (fun x => x.state == 3) certificateAnswer) s
def execChallenge (s : State) : Host.Outcome State Fault Refusal :=
  event (spdmDue 0x83 s) (spdmAnswer 0x12 (fun x => x.state == 3 && !x.partialRead) challengeAnswer) s
def execGetMeasurements (s : State) : Host.Outcome State Fault Refusal :=
  event (spdmDue 0xE0 s) (spdmAnswer 0x12 (fun x => x.state == 3) measurementsAnswer) s
def execSpdmUnsupportedRequest (s : State) : Host.Outcome State Fault Refusal :=
  event ((spdmRequest s).any fun r => !spdmCodes.contains (reqCode r)) (sendError 0x07) s
def execWrekey (v : Word) (s : State) : Host.Outcome State Fault Refusal := .next (rekeyWorld v s)
def execUnitGate (unit : Word) (s : State) : Host.Outcome State Fault Refusal :=
  event (gateable s unit.toNat) (gateUnit unit.toNat) s

end Sys2Proof.Machine
end

