-- ==== Sys2Proof/Machine/Astc.lean ====
section
/-! DEFINITION. ASTC blocks (R354): the Khronos Data Format Specification's decoding under its LDR and HDR profiles (PRESUMED: log 11). -/

namespace Sys2Proof.Machine

/-! ## Integer sequences -/

/-- A quantisation: 2^bits levels, times 3 (trits) or 5 (quints). -/
structure Ise where
  base : Nat
  bits : Nat
  deriving DecidableEq, Repr

/-- Bits that n values take. -/
def Ise.size (q : Ise) (n : Nat) : Nat :=
  n * q.bits + (match q.base with
    | 3 => (8 * n + 4) / 5
    | 5 => (7 * n + 2) / 3
    | _ => 0)

/-- The five trits of eight bits. -/
def tritsOf (t : Nat) : List Nat :=
  let b (hi lo : Nat) : Nat := nbits t hi lo
  let (c, t3, t4) := if b 4 2 = 7 then (b 7 5 * 4 + b 1 0, 2, 2)
    else if b 6 5 = 3 then (b 4 0, b 7 7, 2) else (b 4 0, b 6 5, b 7 7)
  let c' (hi lo : Nat) : Nat := nbits c hi lo
  let low (hi lo : Nat) : Nat := 2 * hi + (if hi = 1 then 0 else lo)
  (if c' 1 0 = 3 then [low (c' 3 3) (c' 2 2), c' 4 4, 2]
    else if c' 3 2 = 3 then [c' 1 0, 2, 2] else [low (c' 1 1) (c' 0 0), c' 3 2, c' 4 4]) ++ [t3, t4]

/-- The three quints of seven bits. -/
def quintsOf (q : Nat) : List Nat :=
  let b (hi lo : Nat) : Nat := nbits q hi lo
  if b 2 1 = 3 && b 6 5 = 0 then [4, 4, 4 * b 0 0 + (if b 0 0 = 1 then 0 else b 4 3)]
  else
    let (c, q2) := if b 2 1 = 3 then (b 4 3 * 8 + (3 - b 6 5) * 2 + b 0 0, 4) else (b 4 0, b 6 5)
    if c % 8 = 5 then [c / 8, 4, q2] else [c % 8, c / 8, q2]

/-- Values to a group, and how many of the group's shared bits follow each value. -/
def Ise.group (q : Ise) : List Nat :=
  match q.base with
  | 3 => [2, 2, 1, 2, 1]
  | 5 => [3, 2, 2]
  | _ => [0]

/-- Value k of n: its trit or quint, and its bits. Bits beyond the sequence are zero. -/
def Ise.value (q : Ise) (n k x : Nat) : Nat × Nat :=
  let g := q.group
  let start := k / g.length * (g.length * q.bits + g.foldl (· + ·) 0)
  let y := x % 2 ^ q.size n / 2 ^ start
  let at' (j : Nat) : Nat := j * q.bits + (g.take j).foldl (· + ·) 0
  let shared := (List.range g.length).foldl (fun (acc : Nat × Nat) j =>
    let w := g.getD j 0
    (acc.1 + y / 2 ^ (at' j + q.bits) % 2 ^ w * 2 ^ acc.2, acc.2 + w)) (0, 0)
  let digits := match q.base with
    | 3 => tritsOf shared.1
    | 5 => quintsOf shared.1
    | _ => [0]
  (digits.getD (k % g.length) 0, y / 2 ^ at' (k % g.length) % 2 ^ q.bits)

/-- b bits repeated to n. -/
def replicateBits (b n v : Nat) : Nat := (List.range n).foldl (fun acc j => 2 * acc + v / 2 ^ (b - 1 - j % b) % 2) 0

/-- A trit or quint and its bits spread to n + 1 bits: D × C + B, turned over by the lowest bit, which becomes the top one. -/
def unspread (n d c b a : Nat) : Nat :=
  let ones := if a = 1 then 2 ^ (n + 1) - 1 else 0
  Nat.lor (Nat.land ones (2 ^ (n - 1))) (Nat.xor (d * c + b) ones / 4)

/-- An endpoint value as eight bits. -/
def Ise.colour (q : Ise) (v : Nat × Nat) : Nat :=
  let h := v.2 / 2
  let go (c b : Nat) : Nat := unspread 8 v.1 c b (v.2 % 2)
  match q.base, q.bits with
  | 3, 1 => go 204 0
  | 3, 2 => go 93 (278 * h)
  | 3, 3 => go 44 (133 * h)
  | 3, 4 => go 22 (65 * h)
  | 3, 5 => go 11 (32 * h + h / 4)
  | 3, _ => go 5 (16 * h + h / 16)
  | 5, 1 => go 113 0
  | 5, 2 => go 54 (268 * h)
  | 5, 3 => go 26 (130 * h + h / 2)
  | 5, 4 => go 13 (64 * h + h / 2)
  | 5, _ => go 6 (32 * h + h / 8)
  | _, b => replicateBits b 8 v.2

/-- A weight as 0 to 64. -/
def Ise.weight (q : Ise) (v : Nat × Nat) : Nat :=
  let h := v.2 / 2
  let go (c b : Nat) : Nat := unspread 6 v.1 c b (v.2 % 2)
  let w := match q.base, q.bits with
    | 3, 0 => [0, 32, 63].getD v.1 0
    | 5, 0 => [0, 16, 32, 47, 63].getD v.1 0
    | 3, 1 => go 50 0
    | 3, 2 => go 23 (69 * h)
    | 3, _ => go 11 (33 * h)
    | 5, 1 => go 28 0
    | 5, _ => go 13 (66 * h)
    | _, b => replicateBits b 6 v.2
  if 32 < w then w + 1 else w

/-! ## Block mode -/

/-- Weight grid, its quantisation and whether there are two planes. -/
structure AstcMode where
  w : Nat
  h : Nat
  q : Ise
  dual : Bool
  deriving DecidableEq, Repr

/-- Quantisations of weights by R2 R1 R0 from 2 on, low then high precision. -/
def weightRanges : List Ise :=
  [⟨1, 1⟩, ⟨3, 0⟩, ⟨1, 2⟩, ⟨5, 0⟩, ⟨3, 1⟩, ⟨1, 3⟩, ⟨5, 1⟩, ⟨3, 2⟩, ⟨1, 4⟩, ⟨5, 2⟩, ⟨3, 3⟩, ⟨1, 5⟩]

/-- The block mode of bits 10:0; none where it is reserved. -/
def AstcMode.of (x : Nat) : Option AstcMode :=
  let b (hi lo : Nat) : Nat := nbits x hi lo
  let a := b 6 5
  let wide := b 1 0 != 0
  let r := if wide then b 1 0 * 2 + b 4 4 else b 3 2 * 2 + b 4 4
  let small := !wide && b 8 7 = 2
  let grid := if wide then (match b 3 2 with
      | 0 => some (b 8 7 + 4, a + 2)
      | 1 => some (b 8 7 + 8, a + 2)
      | 2 => some (a + 2, b 8 7 + 8)
      | _ => if b 8 8 = 0 then some (a + 2, b 7 7 + 6) else some (b 7 7 + 2, a + 2))
    else match b 8 7 with
      | 0 => some (12, a + 2)
      | 1 => some (a + 2, 12)
      | 2 => some (a + 6, b 10 9 + 6)
      | _ => match a with
        | 0 => some (6, 10)
        | 1 => some (10, 6)
        | _ => none
  match grid with
  | none => none
  | some (w, h) =>
    if r < 2 then none
    else some { w := w, h := h, q := weightRanges.getD (r - 2 + (if small then 0 else 6 * b 9 9)) ⟨1, 1⟩, dual := !small && b 10 10 = 1 }

/-- Weights of a block. -/
def AstcMode.count (m : AstcMode) : Nat := m.w * m.h * (if m.dual then 2 else 1)

/-- The low n bits in reverse order: weights are stored from the top of the block down. -/
def reverseBits (n x : Nat) : Nat := (List.range n).foldl (fun acc j => 2 * acc + x / 2 ^ j % 2) 0

/-! ## Partitions -/

/-- The hash of a partition seed, over 32-bit words. -/
def partHash (x : Nat) : Nat :=
  let m := 2 ^ 32
  let down (k p : Nat) : Nat := Nat.xor p (p / 2 ^ k)
  let plus (k p : Nat) : Nat := (p + p * 2 ^ k) % m
  let a := down 15 x
  let b := down 5 (plus 4 (plus 7 ((a * (m + 1 - 2 ^ 17)) % m)))
  let c := down 3 (down 7 (plus 16 b))
  down 17 (Nat.xor c (c * 64 % m))

/-- The partition of texel (x, y): the largest of four hashed planes, the first of equals; a footprint of fewer than 31 texels doubles the coordinates. -/
def partOf (seed parts : Nat) (small : Bool) (x y : Nat) : Nat :=
  let k := if small then 2 else 1
  let s := seed + 1024 * (parts - 1)
  let h := partHash s
  let near := if parts = 3 then 6 else 5
  let far := if s / 2 % 2 = 1 then 4 else 5
  let (odd, even) := if s % 2 = 1 then (far, near) else (near, far)
  let factor (n sh : Nat) : Nat := (h / 2 ^ (4 * n) % 16) ^ 2 / 2 ^ sh
  let plane (n : Nat) : Nat :=
    if parts ≤ n then 0
    else (factor (2 * n) odd * k * x + factor (2 * n + 1) even * k * y + h / 2 ^ (14 - 4 * n)) % 64
  let best := (List.range 4).foldl (fun b n => if plane b < plane n then n else b) 0
  if parts = 1 then 0 else best

/-! ## Endpoints -/

/-- Two endpoints of four channels; the last two say whether colour and alpha are HDR. -/
structure Ends where
  lo : List Int
  hi : List Int
  hdr : Bool
  hdrAlpha : Bool
  deriving DecidableEq, Repr

def clampTo (top x : Int) : Int := max 0 (min top x)

/-- A signed offset and its base, which takes the offset's top bit. -/
def transfer (off base : Nat) : Int × Int :=
  let o := off / 2 % 64
  ((if 32 ≤ o then (o : Int) - 64 else o), ((base / 2 + off / 128 * 128 : Nat) : Int))

/-- Blue contraction: red and green halve their distance to blue. -/
def contract : List Int → List Int
  | [r, g, b, a] => [(r + b) / 2, (g + b) / 2, b, a]
  | c => c

/-- Exchange red with channel k. -/
def exchange (k : Nat) : List Int → List Int
  | [r, g, b, a] => if k = 1 then [g, r, b, a] else if k = 2 then [b, g, r, a] else [r, g, b, a]
  | c => c

/-- Bits gathered into a field: of each entry, the modes it holds for, the source bit and the place. -/
def picked (mode : Nat) (bit : Nat → Nat) (rows : List (Nat × Nat × Nat)) : Nat :=
  rows.foldl (fun acc r => if r.1.testBit mode then acc + bit r.2.1 * 2 ^ r.2.2 else acc) 0

/-- 1.0 as an HDR endpoint. -/
def hdrOne : Int := 0x780

/-- HDR red, green, blue by base and scale (mode 7). -/
def hdrScaled (v : Nat → Nat) : Ends :=
  let sel := v 0 / 64 + v 1 / 128 * 4 + v 2 / 128 * 8
  let (maj, mode) := if sel / 4 != 3 then (sel / 4, sel % 4) else if sel != 15 then (sel % 4, 4) else (0, 5)
  let bit (k : Nat) : Nat := [nbits (v 1) 6 6, nbits (v 1) 5 5, nbits (v 2) 6 6, nbits (v 2) 5 5, nbits (v 3) 7 7, nbits (v 3) 6 6, nbits (v 3) 5 5].getD k 0
  let up := 2 ^ [1, 1, 2, 3, 4, 5].getD mode 1
  let field (low : Nat) (rows : List (Nat × Nat × Nat)) : Int := ((low + picked mode bit rows) * up : Nat)
  let red := field (v 0 % 64) [(0x3B, 4, 6), (0x04, 3, 6), (0x10, 5, 7), (0x0F, 2, 7), (0x05, 1, 8), (0x0A, 0, 8), (0x05, 0, 9), (0x02, 6, 9),
    (0x01, 3, 10), (0x02, 5, 10)]
  let green := field (v 1 % 32) [(0x30, 0, 6), (0x3A, 1, 5)]
  let blue := field (v 2 % 32) [(0x30, 2, 6), (0x3A, 3, 5)]
  let scale := field (v 3 % 32) [(0x3D, 6, 5), (0x2D, 5, 6), (0x04, 4, 7)]
  let top := exchange maj (if mode = 5 then [red, green, blue, 0] else [red, red - green, red - blue, 0])
  let out (d : Int) : List Int := (top.take 3).map (fun x => clampTo 0xFFF (x - d)) ++ [hdrOne]
  { lo := out scale, hi := out 0, hdr := true, hdrAlpha := true }

/-- A field of n bits as a signed number. -/
def signedBits (n x : Nat) : Int := if (x % 2 ^ n).testBit (n - 1) then ((x % 2 ^ n : Nat) : Int) - (2 ^ n : Nat) else ((x % 2 ^ n : Nat) : Int)

/-- HDR red, green, blue directly (mode 11). -/
def hdrDirect (v : Nat → Nat) : Ends :=
  let maj := v 4 / 128 + v 5 / 128 * 2
  if maj = 3 then
    let out (k : Nat) : List Int := [((v k * 16 : Nat) : Int), ((v (k + 2) * 16 : Nat) : Int), ((v (k + 4) % 128 * 32 : Nat) : Int), hdrOne]
    { lo := out 0, hi := out 1, hdr := true, hdrAlpha := true }
  else
    let mode := v 1 / 128 + v 2 / 128 * 2 + v 3 / 128 * 4
    let bit (k : Nat) : Nat := [nbits (v 2) 6 6, nbits (v 3) 6 6, nbits (v 4) 6 6, nbits (v 5) 6 6, nbits (v 4) 5 5, nbits (v 5) 5 5].getD k 0
    let up := 2 ^ Nat.xor (mode / 2) 3
    let field (low : Nat) (rows : List (Nat × Nat × Nat)) : Int := ((low + picked mode bit rows) * up : Nat)
    let width := [7, 6, 7, 6, 5, 6, 5, 6].getD mode 7
    let a := field (v 0 + nbits (v 1) 6 6 * 256) [(0xA4, 0, 9), (0x08, 2, 9), (0x50, 4, 9), (0x50, 5, 10), (0xA0, 1, 10), (0xC0, 2, 11)]
    let b0 := field (v 2 % 64) [(0x5B, 0, 6), (0x12, 2, 7)]
    let b1 := field (v 3 % 64) [(0x5B, 1, 6), (0x12, 3, 7)]
    let c := field (v 1 % 64) [(0x04, 1, 6), (0xE8, 3, 6), (0x20, 2, 7)]
    let d0 := signedBits width (v 4 % 128) * (up : Nat)
    let d1 := signedBits width (v 5 % 128) * (up : Nat)
    let out (xs : List Int) : List Int := exchange maj (xs.map (clampTo 0xFFF) ++ [hdrOne])
    { lo := out [a - c, a - b0 - c - d0, a - b1 - c - d1], hi := out [a, a - b0, a - b1], hdr := true, hdrAlpha := true }

/-- HDR alpha of two values (mode 15). -/
def hdrAlphas (p q : Nat) : Int × Int :=
  let sel := p / 128 + q / 128 * 2
  let p' := p % 128
  let q' := q % 128
  if sel = 3 then (((p' * 32 : Nat) : Int), ((q' * 32 : Nat) : Int))
  else
    let up := 2 ^ (4 - sel)
    let base := p' + Nat.land (q' * 2 ^ (sel + 1)) 0x780
    let off := signedBits (6 - sel) q'
    (((base * up : Nat) : Int), clampTo 0xFFF (((base * up : Nat) : Int) + off * (up : Nat)))

/-- LDR endpoints; `swap` says whether they are exchanged and contracted. -/
def ldrEnds (lo hi : List Int) (swap : Bool) : Ends :=
  let out (c : List Int) : List Int := c.map (clampTo 255)
  if swap then { lo := out (contract hi), hi := out (contract lo), hdr := false, hdrAlpha := false }
  else { lo := out lo, hi := out hi, hdr := false, hdrAlpha := false }

/-- The endpoints of an endpoint mode from its values. -/
def endsOf (cem : Nat) (v : Nat → Nat) : Ends :=
  let n (k : Nat) : Int := ((v k : Nat) : Int)
  let t (k : Nat) : Int × Int := transfer (v (k + 1)) (v k)
  let grey (l a : Int) : List Int := [l, l, l, a]
  let hdrGrey (a b : Nat) : Ends :=
    { lo := grey a hdrOne, hi := grey (min 0xFFF b : Nat) hdrOne, hdr := true, hdrAlpha := true }
  let direct (a0 a1 : Int) : Ends :=
    ldrEnds [n 0, n 2, n 4, a0] [n 1, n 3, n 5, a1] (decide (v 1 + v 3 + v 5 < v 0 + v 2 + v 4))
  let offset (a0 a1 : Int) : Ends :=
    ldrEnds [(t 0).2, (t 2).2, (t 4).2, a0] [(t 0).2 + (t 0).1, (t 2).2 + (t 2).1, (t 4).2 + (t 4).1, a1] (decide ((t 0).1 + (t 2).1 + (t 4).1 < 0))
  let scaled (a0 a1 : Int) : Ends :=
    ldrEnds [((v 0 * v 3 / 256 : Nat) : Int), ((v 1 * v 3 / 256 : Nat) : Int), ((v 2 * v 3 / 256 : Nat) : Int), a0] [n 0, n 1, n 2, a1] false
  match cem with
  | 0 => ldrEnds (grey (n 0) 255) (grey (n 1) 255) false
  | 1 =>
    let l := v 0 / 4 + v 1 / 64 * 64
    ldrEnds (grey l 255) (grey ((l + v 1 % 64 : Nat) : Int) 255) false
  | 2 => if v 0 ≤ v 1 then hdrGrey (v 0 * 16) (v 1 * 16) else hdrGrey (v 1 * 16 + 8) (v 0 * 16 - 8)
  | 3 =>
    if 128 ≤ v 0 then
      let y := v 1 / 32 * 512 + v 0 % 128 * 4
      hdrGrey y (y + v 1 % 32 * 4)
    else
      let y := v 1 / 16 * 256 + v 0 % 128 * 2
      hdrGrey y (y + v 1 % 16 * 2)
  | 4 => ldrEnds (grey (n 0) (n 2)) (grey (n 1) (n 3)) false
  | 5 => ldrEnds (grey (t 0).2 (t 2).2) (grey ((t 0).2 + (t 0).1) ((t 2).2 + (t 2).1)) false
  | 6 => scaled 255 255
  | 7 => hdrScaled v
  | 8 => direct 255 255
  | 9 => offset 255 255
  | 10 => scaled (n 4) (n 5)
  | 11 => hdrDirect v
  | 12 => direct (n 6) (n 7)
  | 13 => offset (t 6).2 ((t 6).2 + (t 6).1)
  | 14 =>
    let e := hdrDirect v
    { e with lo := e.lo.take 3 ++ [n 6], hi := e.hi.take 3 ++ [n 7], hdrAlpha := false }
  | _ =>
    let e := hdrDirect v
    let a := hdrAlphas (v 6) (v 7)
    { e with lo := e.lo.take 3 ++ [a.1], hi := e.hi.take 3 ++ [a.2] }

/-! ## Layout of a block -/

/-- Quantisations of endpoint values, widest first. -/
def colourRanges : List Ise :=
  [⟨1, 8⟩, ⟨3, 6⟩, ⟨5, 5⟩, ⟨1, 7⟩, ⟨3, 5⟩, ⟨5, 4⟩, ⟨1, 6⟩, ⟨3, 4⟩, ⟨5, 3⟩, ⟨1, 5⟩, ⟨3, 3⟩, ⟨5, 2⟩, ⟨1, 4⟩, ⟨3, 2⟩, ⟨5, 1⟩, ⟨1, 3⟩, ⟨3, 1⟩]

/-- Where the parts of a block stand: partitions, seed, endpoint modes, first endpoint bit, second plane's channel and endpoint quantisation. -/
structure AstcBlock where
  mode : AstcMode
  parts : Nat
  seed : Nat
  cems : List Nat
  first : Nat
  plane : Nat
  q : Ise
  deriving DecidableEq, Repr

/-- Endpoint values of a mode. -/
def cemValues (cem : Nat) : Nat := 2 * (cem / 4) + 2

/-- The layout of a block under a footprint; none where the block is illegal. -/
def AstcBlock.of (x fw fh : Nat) : Option AstcBlock :=
  match AstcMode.of x with
  | none => none
  | some m =>
    let parts := nbits x 12 11 + 1
    let wb := m.q.size m.count
    let shared := parts = 1 || nbits x 24 23 = 0
    let extra := if shared then 0 else 3 * parts - 4
    let top := 128 - wb - extra
    let sel := nbits x 28 23 + x / 2 ^ top % 2 ^ extra * 64
    let cem (k : Nat) : Nat :=
      if parts = 1 then nbits x 16 13
      else if shared then nbits x 28 25
      else (sel % 4 - 1 + sel / 2 ^ (2 + k) % 2) * 4 + sel / 2 ^ (2 + parts + 2 * k) % 4
    let cems := (List.range parts).map cem
    let values := (cems.map cemValues).foldl (· + ·) 0
    let first := if parts = 1 then 17 else 29
    let room := top - (if m.dual then 2 else 0) - first
    if 64 < m.count || wb < 24 || 96 < wb || fw < m.w || fh < m.h || (m.dual && parts = 4) || 18 < values then none
    else match colourRanges.find? fun q => decide (q.size values ≤ room) with
      | none => none
      | some q => some { mode := m, parts := parts, seed := nbits x 22 13, cems := cems, first := first, plane := x / 2 ^ (top - 2) % 4, q := q }

/-- The weight of a texel in a plane, interpolated from the grid. -/
def AstcBlock.weight (b : AstcBlock) (x fw fh px py plane : Nat) : Nat :=
  let m := b.mode
  let step (size n p : Nat) : Nat := ((1024 + size / 2) / (size - 1) * p * (n - 1) + 32) / 64
  let gs := step fw m.w px
  let gt := step fh m.h py
  let fs := gs % 16
  let ft := gt % 16
  let both := (fs * ft + 8) / 16
  let stored := reverseBits 128 x
  let at' (dx dy : Nat) : Nat :=
    let k := gs / 16 + dx + (gt / 16 + dy) * m.w
    m.q.weight (m.q.value m.count (if m.dual then 2 * k + plane else k) stored)
  let one (dx dy f : Nat) : Nat := if f = 0 then 0 else at' dx dy * f
  (one 0 0 (16 + both - fs - ft) + one 1 0 (fs - both) + one 0 1 (ft - both) + one 1 1 both + 8) / 16

/-! ## Delivery -/

/-- A 16-bit UNORM as FP16: 65,535 is 1.0, any other divided by 65,536 toward zero. -/
def unorm16Half (c : Nat) : Nat := if c = 65535 then 0x3C00 else f16Fmt.roundRatio .rz false c 65536

/-- An interpolated HDR value as FP16: a piecewise linear mantissa, at most the largest finite. -/
def hdrHalf (c : Nat) : Nat :=
  let m := c % 2048
  let mt := if m < 512 then 3 * m else if m < 1536 then 4 * m - 512 else 5 * m - 2048
  min 0x7BFF (c / 2048 * 1024 + mt / 8)

/-- A channel of a decoded texel: FP16, or eight bits under sRGB; none is the illegal block's. -/
inductive AstcOut
  | half (code : Nat)
  | byte (code : Nat)
  | bad
  deriving DecidableEq, Repr

/-- A void-extent block: four constants; the extents must be ordered or all ones. -/
def astcVoid (x : Nat) (srgb hdr : Bool) (c : Nat) : AstcOut :=
  let s := (nbits x 24 12, nbits x 37 25)
  let t := (nbits x 50 38, nbits x 63 51)
  let v := x / 2 ^ (64 + 16 * c) % 65536
  if nbits x 11 10 != 3 || (nbits x 9 9 = 1 && !hdr) then .bad
  else if nbits x 63 12 != 2 ^ 52 - 1 && (decide (s.2 ≤ s.1) || decide (t.2 ≤ t.1)) then .bad
  else if nbits x 9 9 = 1 then .half v
  else if srgb then .byte (v / 256) else .half (unorm16Half v)

/-- Channel c of texel (px, py) of a block under a footprint and profile. -/
def astcChannel (x fw fh : Nat) (srgb hdr : Bool) (px py c : Nat) : AstcOut :=
  if nbits x 8 0 = 0x1FC then astcVoid x srgb hdr c
  else match AstcBlock.of x fw fh with
    | none => .bad
    | some b =>
      let k := partOf b.seed b.parts (decide (fw * fh < 31)) px py
      let before := ((b.cems.take k).map cemValues).foldl (· + ·) 0
      let count := (b.cems.map cemValues).foldl (· + ·) 0
      let e := endsOf (b.cems.getD k 0) fun j => b.q.colour (b.q.value count (before + j) (x / 2 ^ b.first))
      if e.hdr && !hdr then .bad
      else
        let i := b.weight x fw fh px py (if b.mode.dual && b.plane = c then 1 else 0)
        let wide := if c = 3 then e.hdrAlpha else e.hdr
        let grow (v : Int) : Nat := if wide then v.toNat * 16 else v.toNat * 256 + (if srgb && c != 3 then 128 else v.toNat)
        let mix := (grow (e.lo.getD c 0) * (64 - i) + grow (e.hi.getD c 0) * i + 32) / 64
        if wide then .half (hdrHalf mix) else if srgb then .byte (mix / 256) else .half (unorm16Half mix)

end Sys2Proof.Machine
end

