-- ==== Sys2Proof/Machine/Edges.lean ====
section
/-! DEFINITION. Stage graphs: the graph record and its checks, cuts, edges at both ends, key caches, status blocks and the Tolver frames sent (R202, R204, R316 to R338). -/

namespace Sys2Proof.Machine

/-- A list cut into pieces of `k`, the last one shorter. -/
def piecesOf {α : Type} (k : Nat) (l : List α) : List (List α) := chunks k ((l.length + k - 1) / k) l

/-! ## The graph record (R316 to R318) -/

def Graph.ofNat (x : Nat) : Graph :=
  let mask : DWord := .ofNat 64 (nbits x 335 272)
  { peer := .ofNat 128 (nbits x 511 384), lport := .ofNat 16 (nbits x 383 368), pport := .ofNat 16 (nbits x 367 352)
    gid := .ofNat 16 (nbits x 351 336), role := .ofNat 2 (nbits x 271 270), port := nbits x 269 269 = 1
    nedges := nbits x 268 262, nstages := nbits x 261 256, hopat := .ofNat 20 (nbits x 255 236)
    stat := .ofNat 64 (nbits x 191 128), cut := { mask } }

/-- The header's own ranges (R316, R319). -/
def graphHeaderOk (x : Nat) : Bool :=
  nbits x 235 192 = 0 && nbits x 127 0 = 0 && nbits x 271 270 ≤ 2 && nbits x 268 262 ≤ 64 &&
    decide (1 ≤ nbits x 261 256) && decide (nbits x 261 256 ≤ 32) && decide (1 ≤ nbits x 255 236) &&
    nbits x 191 128 % 64 == 0

def Stage.ofNat (x : Nat) : Stage :=
  { valid := nbits x 0 0 = 1, launch := .ofNat 64 (nbits x 255 192), state := .ofNat 64 (nbits x 191 128)
    ssize := .ofNat 32 (nbits x 127 96), batch := .ofNat 8 (nbits x 95 88), maxg := .ofNat 8 (nbits x 87 80)
    inoff := .ofNat 32 (nbits x 79 48) }

/-- The ranges and alignments of R317. -/
def Stage.ok (st : Stage) : Bool :=
  st.state.toNat % 128 = 0 && st.ssize.toNat % 128 = 0 && decide (st.ssize.toNat ≤ 2 ^ 24) && decide (1 ≤ st.batch.toNat) &&
    decide (st.batch.toNat ≤ 64) && decide (1 ≤ st.maxg.toNat) && st.inoff.toNat % 64 = 0

def Edge.ofNat (x : Nat) : Edge :=
  { valid := nbits x 0 0 = 1, ring := .ofNat 64 (nbits x 511 448), kc := .ofNat 64 (nbits x 447 384)
    stat := .ofNat 64 (nbits x 383 320), cap := .ofNat 16 (nbits x 319 304), source := nbits x 303 296
    target := nbits x 295 288, recsz := .ofNat 8 (nbits x 287 280), pred := nbits x 279 272
    policy := .ofNat 4 (nbits x 271 268), g := .ofNat 5 (nbits x 267 263), pack := .ofNat 5 (nbits x 262 258)
    patience := .ofNat 20 (nbits x 255 236), kclog := .ofNat 4 (nbits x 235 232) }

/-- Bytes of a record of an edge. -/
def Edge.size (e : Edge) : Nat := e.recsz.toNat * 16

/-- The ranges and alignments of R318, and what R319 asks of an edge's stages. -/
def Edge.ok (e : Edge) (stages : List Stage) : Bool :=
  let is (k : Nat) : Bool := (stages.getD k {}).valid
  e.ring.toNat % 4096 = 0 && e.kc.toNat % 4096 = 0 && e.stat.toNat % 64 = 0 && decide (16 ≤ e.cap.toNat) &&
    decide (2 ≤ e.recsz.toNat) && decide (e.recsz.toNat ≤ 128) && decide (e.policy.toNat ≤ 3) && decide (1 ≤ e.g.toNat) &&
    decide (e.g.toNat ≤ 16) && decide (1 ≤ e.pack.toNat) && decide (e.pack.toNat ≤ 16) &&
    decide (e.pack.toNat * e.size ≤ 8192) && decide (1 ≤ e.patience.toNat) && decide (4 ≤ e.kclog.toNat) &&
    decide (e.kclog.toNat ≤ 12) && decide (e.source < e.target) && is e.source && is e.target &&
    (e.policy != 1 || (is e.pred && decide (e.source < e.pred) && e.pred != e.target))

/-! ## Cuts (R319, R337) -/

/-- The edges that exist, by index. -/
def Graph.live (g : Graph) : List (Nat × Edge) := (g.edges.zipIdx.filter fun e => e.1.valid).map fun e => (e.2, e.1)

/-- Stages that exist. -/
def Graph.present (g : Graph) : List Nat := (List.range g.stages.length).filter fun k => (g.stages.getD k {}).valid

/-- Grow a set of stages along `next`, `n` times. -/
def growStages (next : List Nat → List Nat) : Nat → List Nat → List Nat
  | 0, x => x
  | n + 1, x => growStages next n (x ++ next x).eraseDups

/-- The mask is exactly the edges that leave some set of stages closed under predecessors: the least candidate set decides. -/
def Graph.isCut (g : Graph) (mask : DWord) : Bool :=
  let es := g.live
  let inMask (e : Nat × Edge) : Bool := mask.getLsbD e.1
  let next (x : List Nat) : List Nat :=
    ((es.filter fun e => x.contains e.2.target).map fun e => e.2.source) ++
      ((es.filter fun e => x.contains e.2.source && !inMask e).map fun e => e.2.target)
  let cut := es.filter inMask
  let x := growStages next 32 (cut.map fun e => e.2.source).eraseDups
  (List.range 64).all (fun k => !mask.getLsbD k || (g.edges.getD k {}).valid) && cut.all fun e => !x.contains e.2.target

/-- Stages from which a remote edge is reached backwards: those outside the far set (R319). -/
def Graph.nearSet (g : Graph) (mask : DWord) : List Nat :=
  let next (x : List Nat) : List Nat := (g.live.filter fun e => x.contains e.2.source).map fun e => e.2.target
  growStages next 32 ((g.live.filter fun e => mask.getLsbD e.1).map fun e => e.2.target).eraseDups

def Graph.farSet (g : Graph) (mask : DWord) : List Nat := g.present.filter fun k => !(g.nearSet mask).contains k

/-- The cut that serves a frame (R340, R342). -/
def Graph.maskAt (g : Graph) (f : Word) : DWord :=
  match ((g.cut.since, g.cut.mask) :: g.cut.past).find? fun c => decide (c.1.toNat ≤ f.toNat) with
  | some c => c.2
  | none => g.cut.mask

/-- An edge is remote for a frame. -/
def Graph.remote (g : Graph) (e : Nat) (f : Word) : Bool := g.role != 2 && (g.maskAt f).getLsbD e

/-- This part runs a stage on a frame (R319). -/
def Graph.runs (g : Graph) (st : Nat) (f : Word) : Bool :=
  g.role = 2 || (!(g.nearSet (g.maskAt f)).contains st) == (g.role = 0)

/-- Stages whose side differs between the current cut and another (R337). -/
def Graph.moving (g : Graph) (mask : DWord) : List Nat :=
  g.present.filter fun k => (g.nearSet mask).contains k != (g.nearSet g.cut.mask).contains k

/-- A move is downstream when the moving stages go from near to far (R337). -/
def Graph.isDown (g : Graph) (mask : DWord) : Bool := (g.farSet g.cut.mask).all fun k => (g.farSet mask).contains k

/-- Frame f is local at an edge whose receiver still has remote frames below f to close: it waits (R342). -/
def Graph.waitsLocal (g : Graph) (e : Nat) (f : Word) : Bool :=
  let o := (g.edges.getD e {}).rx.openFrame
  !g.remote e f && decide (o.toNat < f.toNat) && g.role = 1 && g.remote e o

/-- Records that an edge holds back and that will go into its local ring, where each keeps its place (R204, R322, R342). -/
def Graph.heldLocal (g : Graph) (e : Nat) : Nat := ((g.edges.getD e {}).heldOut.filter fun r => !g.remote e r.frame).length

/-- An edge is remote under exactly one of the two cuts of a pending move. -/
def Graph.changes (g : Graph) (e : Nat) : Bool := g.cut.mask.getLsbD e != g.cut.newMask.getLsbD e

/-! ## Access to a context's graph -/

def State.graph (s : State) (slot : Nat) : Graph := (s.ctx slot).graph.getD {}
def State.onGraph (s : State) (slot : Nat) (f : Graph → Graph) : State :=
  s.onCtx slot fun c => { c with graph := c.graph.map f }
def State.edge (s : State) (slot e : Nat) : Edge := (s.graph slot).edges.getD e {}
def State.onEdge (s : State) (slot e : Nat) (f : Edge → Edge) : State :=
  s.onGraph slot fun g => { g with edges := mapAt f g.edges e }
def State.onRx (s : State) (slot e : Nat) (f : Receiver → Receiver) : State := s.onEdge slot e fun x => { x with rx := f x.rx }
def State.stage (s : State) (slot k : Nat) : Stage := (s.graph slot).stages.getD k {}
def State.onStage (s : State) (slot k : Nat) (f : Stage → Stage) : State :=
  s.onGraph slot fun g => { g with stages := mapAt f g.stages k }
def State.onCut (s : State) (slot : Nat) (f : Cut → Cut) : State := s.onGraph slot fun g => { g with cut := f g.cut }

def satInc (x : Word) (n : Nat) : Word := satAdd x (.ofNat 32 n)

/-! ## Status blocks (R336, R338) -/

def Graph.statusBytes (g : Graph) : List Byte :=
  bytesOfNat 64 (g.crcbad.toNat * 2 ^ 192 + g.cut.mask.toNat * 2 ^ 128 + g.cut.since.toNat * 2 ^ 96 +
    g.cut.prop.toNat * 2 ^ 64 + g.cut.outcome.toNat * 2 ^ 56 + g.cut.slides.toNat * 2 ^ 48 + g.bad.toNat * 2 ^ 40)

def graphStatus (slot : Nat) (s : State) : State := cpWrite slot (s.graph slot).stat.toNat (s.graph slot).statusBytes s

def Edge.statusBytes (e : Edge) : List Byte :=
  bytesOfNat 64 (e.lastf.toNat * 2 ^ 224 + e.dropped.toNat * 2 ^ 192 + e.tail.toNat * 2 ^ 160 + e.crcbad.toNat * 2 ^ 128 +
    e.late.toNat * 2 ^ 96 + e.omitted.toNat * 2 ^ 64 + e.subst.toNat * 2 ^ 32 + e.recov.toNat)

def edgeStatus (slot e : Nat) (s : State) : State := cpWrite slot (s.edge slot e).stat.toNat (s.edge slot e).statusBytes s

/-- Change an edge's counters and write its status block. -/
def countEdge (slot e : Nat) (f : Edge → Edge) (s : State) : State := edgeStatus slot e (s.onEdge slot e f)

/-! ## Registration (R319) -/

/-- Read and check the stage entries from index `k` on, all 32 of them; the first failing one. Those from `count` on do not exist, but their reserved bits are checked (log 63). -/
def readStages (slot base world count : Nat) : Nat → Nat → List Stage → State → Except Nat (List Stage) × State
  | 0, _, acc, s => (.ok acc, s)
  | n + 1, k, acc, s =>
    match cpRead slot (base + 64 + 32 * k) 32 s with
    | (none, s) => (.error k, s)
    | (some bs, s) =>
      let x := natOfBytes bs
      let st := Stage.ofNat x
      if nbits x 47 1 != 0 then (.error k, s)
      else if !st.valid || count ≤ k then readStages slot base world count n (k + 1) (acc ++ [{}]) s
      else
        let (t, s) := cpRead slot st.launch.toNat 64 s
        let r := LaunchRec.ofNat ((t.map natOfBytes).getD 0)
        if st.ok && t.isSome && r.gangsize = 1 && r.world.toNat == world then
          readStages slot base world count n (k + 1) (acc ++ [st]) s
        else (.error k, s)

/-- Read and check the edge entries from index `k` on, all 64 of them, likewise. -/
def readEdges (slot base count : Nat) (stages : List Stage) : Nat → Nat → List Edge → State → Except Nat (List Edge) × State
  | 0, _, acc, s => (.ok acc, s)
  | n + 1, k, acc, s =>
    match cpRead slot (base + 1088 + 64 * k) 64 s with
    | (none, s) => (.error (0x80 + k), s)
    | (some bs, s) =>
      let x := natOfBytes bs
      let e := Edge.ofNat x
      let is := e.valid && decide (k < count)
      if nbits x 257 256 != 0 || nbits x 231 1 != 0 || (is && !e.ok stages) then (.error (0x80 + k), s)
      else readEdges slot base count stages n (k + 1) (acc ++ [if is then e else {}]) s

/-- A graph that fails is not registered; its status block reports the first failure (R319, R338). -/
def rejectGraph (slot : Nat) (g : Graph) (bad : Nat) (s : State) : State :=
  let g : Graph := { g with bad := .ofNat 8 bad, cut := { g.cut with outcome := 3 } }
  cpWrite slot g.stat.toNat g.statusBytes s

/-- Ended waves of a slot are forgotten when a graph takes the place of another. -/
def forgetWaves (slot : Nat) (s : State) : State :=
  { s with launches := s.launches.filter fun l => !(l.slot == slot && l.wave.isSome && !l.state.live) }

/-- A write of graphbase: 0 leaves the context without a graph. -/
def registerGraph (slot : Nat) (v : DWord) (s : State) : State :=
  let s := forgetWaves slot (s.onCtx slot fun c => { c with graphbase := v, graph := none })
  if v = 0 || !(s.ctx slot).valid then s
  else match cpRead slot v.toNat 64 s with
    | (none, s) => s
    | (some bs, s) =>
      let x := natOfBytes bs
      let g := Graph.ofNat x
      if v.toNat % 4096 != 0 || !graphHeaderOk x then rejectGraph slot g 0xFF s
      else match readStages slot v.toNat (s.ctx slot).world.toNat g.nstages 32 0 [] s with
        | (.error k, s) => rejectGraph slot g k s
        | (.ok stages, s) => match readEdges slot v.toNat g.nedges stages 64 0 [] s with
          | (.error k, s) => rejectGraph slot g k s
          | (.ok edges, s) =>
            let g := { g with stages, edges }
            if !g.isCut g.cut.mask || (g.role = 2 && g.cut.mask != 0) then rejectGraph slot g 0xFE s
            else graphStatus slot (s.onCtx slot fun c => { c with graph := some g })

/-! ## Records (R202) -/

def recHeader (frame key : Word) (kind : Nat) (origin : Word) (seq : Nat) : List Byte :=
  bytesOfNat 16 (origin.toNat * 2 ^ 96 + seq % 2 ^ 24 * 2 ^ 72 + kind * 2 ^ 64 + key.toNat * 2 ^ 32 + frame.toNat)

def headerOf (bs : List Byte) : Nat := natOfBytes (bs.take 16)
def Rec.key (r : Rec) : Word := .ofNat 32 (nbits (headerOf r.bytes) 63 32)
def Rec.origin (r : Rec) : Word := .ofNat 32 (nbits (headerOf r.bytes) 127 96)

/-! ## The key cache (R334; log 32) -/

def Edge.slotSize (e : Edge) : Nat := 2 * e.size + 16
def Edge.slotOf (e : Edge) (key : Word) : Nat := key.toNat % 2 ^ e.kclog.toNat

/-- The two newest released records with a key, newest first. -/
def Edge.cached (e : Edge) (key : Word) : List Rec := (Store.get [] e.rx.cache (e.slotOf key)).filter fun r => r.key == key

/-- A released record enters its slot. -/
def Edge.cache (e : Edge) (r : Rec) : Edge :=
  let old := (e.cached r.key).filter fun x => x.frame != r.frame
  { e with rx := { e.rx with cache := Store.put [] e.rx.cache (e.slotOf r.key) ((r :: old).take 2) } }

/-- A slot as it stands in memory: its records, newest first, then bytes the spec gives no content. -/
def Edge.slotBytes (e : Edge) (k draw : Nat) : List Byte :=
  let rs := Store.get [] e.rx.cache k
  let one (j : Nat) : List Byte := match rs[j]? with
    | some r => r.bytes
    | none => List.replicate e.size 0
  one 0 ++ one 1 ++ (List.range 16).map fun j => Config.cacheRest (draw * 16 + j)

/-- The slots an edge's key cache uses. -/
def Edge.slots (e : Edge) : List Nat := e.rx.cache.map fun x => x.1

def writeSlot (slot e k : Nat) (s : State) : State :=
  let x := s.edge slot e
  (cpWrite slot (x.kc.toNat + k * x.slotSize) (x.slotBytes k s.draws) s).draw

/-- The records of a slot read back from its bytes; one of frame 0 is absent, since frames count from 1. -/
def slotRecs (size : Nat) (bs : List Byte) : List Rec :=
  let one (j : Nat) : Rec :=
    let b := (bs.drop (j * size)).take size
    { frame := .ofNat 32 (nbits (headerOf b) 31 0), seq := nbits (headerOf b) 95 72, bytes := b }
  [one 0, one 1].filter fun r => r.frame != 0

/-! ## Release to the consumer (R322, R329) -/

/-- A record is released: it waits for a wave, its key and its slot are kept. -/
def releaseRec (slot e : Nat) (r : Rec) (s : State) : State :=
  let s := s.onEdge slot e fun x =>
    let x := x.cache r
    { x with ready := x.ready ++ [r], rx := { x.rx with thisKeys := Store.put none x.rx.thisKeys r.seq (some r.key) } }
  if r.ring then s else writeSlot slot e ((s.edge slot e).slotOf r.key) s

/-- The buoy of a frame is released: its keys become those of the last closed frame (R332). -/
def releaseBuoy (slot e : Nat) (f : Word) (s : State) : State :=
  s.onEdge slot e fun x =>
    { x with buoys := x.buoys ++ [f], lastBuoy := f, rx := { x.rx with lastKeys := x.rx.thisKeys, thisKeys := [] } }

/-- What an edge held back while remote frames were open goes on: a frame's records, its buoy, then the next frame (R342). -/
def freeLocal (send : Rec → State → State) (slot e : Nat) : Nat → Word → State → State
  | 0, _, s => s
  | n + 1, f, s =>
    let x := s.edge slot e
    if (s.graph slot).remote e f || (s.graph slot).waitsLocal e f || (s.stage slot x.source).closed.toNat + 1 < f.toNat then s
    else
      let held := x.heldOut.filter fun r => r.frame == f
      let s := s.onEdge slot e fun y => { y with heldOut := y.heldOut.filter fun r => r.frame != f }
      let s := each held s send
      if x.heldBuoys.contains f then
        freeLocal send slot e n (f + 1) (releaseBuoy slot e f (s.onEdge slot e fun y => { y with heldBuoys := y.heldBuoys.filter fun b => b != f }))
      else s

/-! ## Tolver frames sent (R323 to R327) -/

/-- Type, edge, frame, the fields from seq to count, recsz and aux of R324. -/
def tolverHead (type edge : Nat) (frame : Word) (mid recsz aux : Nat) : List Byte :=
  bytesOfBE 32 (0x4F56 * 2 ^ 240 + 2 ^ 236 + type * 2 ^ 232 + edge * 2 ^ 208 + frame.toNat * 2 ^ 176 + mid + recsz * 2 ^ 88 + aux)

/-- Bits 175 to 98 of frames of an edge. -/
def edgeMid (seq prevcnt grp g gidx count : Nat) : Nat :=
  seq % 2 ^ 24 * 2 ^ 152 + prevcnt % 2 ^ 24 * 2 ^ 128 + grp % 2 ^ 16 * 2 ^ 112 + g * 2 ^ 107 + gidx * 2 ^ 103 + count * 2 ^ 98

/-- Set the graph identifier in a header. -/
def withGid (gid : BitVec 16) (head : List Byte) : List Byte :=
  bytesOfBE 32 (natOfBE head + gid.toNat * 2 ^ 216)

/-- Header, body and CRC. -/
def tolverBytes (gid : BitVec 16) (head body : List Byte) : List Byte :=
  let d := withGid gid head ++ body
  d ++ bytesOfNat 4 (crc32c d).toNat

/-- The one's complement sum of the 16-bit words of some bytes, each with its first byte on top and an odd last byte padded with zero (RFC 768, RFC 8200). -/
def onesSum : List Byte → Nat
  | a :: b :: rest =>
    let x := onesSum rest + a.toNat * 256 + b.toNat
    x % 65536 + x / 65536
  | [a] => a.toNat * 256
  | [] => 0

/-- The UDP checksum over the pseudo-header of IPv6, the UDP header and the payload; a sum of zero is written as all ones (R323). -/
def udpSum (src dst : QWord) (lport pport : BitVec 16) (bytes : List Byte) : BitVec 16 :=
  let n := 8 + bytes.length
  let pseudo := bytesOfNat 16 src.toNat ++ bytesOfNat 16 dst.toNat ++ bytesOfBE 4 n ++ [0, 0, 0, 17]
  let x := 65535 - onesSum (pseudo ++ bytesOfBE 2 lport.toNat ++ bytesOfBE 2 pport.toNat ++ bytesOfBE 2 n ++ [0, 0] ++ bytes)
  .ofNat 16 (if x = 0 then 65535 else x)

/-- The datagram in which a graph's port sends a payload (R323, R411): from ethmac and ethip to the next hop ethnh, hop limit 64, traffic class and flow label 0. -/
def datagramOf (s : State) (g : Graph) (bytes : List Byte) : Datagram :=
  let p := s.ports.getD (if g.port then 1 else 0) {}
  { port := g.port, mac := p.mac, nextHop := p.nh, src := p.ip, dst := g.peer, lport := g.lport, pport := g.pport
    sum := udpSum p.ip g.peer g.lport g.pport bytes, bytes }

/-- A Tolver frame leaves through the graph's port (R323). -/
def sendTolver (slot : Nat) (head body : List Byte) (s : State) : State :=
  let g := s.graph slot
  { s with sent := s.sent ++ [.datagram (datagramOf s g (tolverBytes g.gid head body))] }

/-- Records of the frame before, on the edge. -/
def Edge.prevcnt (e : Edge) (f : Word) : Nat := Store.get 0 e.seqs (f.toNat - 1)

/-- XOR of bodies, each padded with zeros to `n` bytes (R325). -/
def xorBodies (n : Nat) (bs : List (List Byte)) : List Byte :=
  bs.foldl (fun acc b => xorBytes acc (b ++ List.replicate (n - b.length) 0)) (List.replicate n 0)

/-- The parity frame of the members held, and its keys frame where R326 calls for one. -/
def sendParity (slot e : Nat) (f : Word) (s : State) : State :=
  let x := s.edge slot e
  if x.bodies = [] then s
  else
    let counts := x.bodies.map fun m => m.2.length
    let most := counts.foldl max 0
    let body := xorBodies (most * x.size) (x.bodies.map fun m => m.2.flatten)
    let keys := (x.bodies.map fun m => (m.2.map fun r => (r.drop 4).take 4).flatten).flatten
    let aux := (counts.zipIdx.map fun c => (c.1 - 1) * 16 ^ c.2).sum
    let first := (x.bodies.headD (0, [])).1
    let head (type count : Nat) : List Byte :=
      tolverHead type e f (edgeMid first (x.prevcnt f) x.txGroup x.bodies.length 0 count) x.recsz.toNat aux
    let s := if 9114 < body.length + keys.length then sendTolver slot (head 6 0) keys (sendTolver slot (head 1 most) body s)
      else sendTolver slot (head 1 most) (body ++ keys) s
    s.onEdge slot e fun x => { x with bodies := [], txGroup := x.txGroup + 1 }

/-- A data frame of the records packed; the group's parity when it is full. -/
def sendData (slot e : Nat) (f : Word) (s : State) : State :=
  let x := s.edge slot e
  match x.packing with
  | [] => s
  | r :: rs =>
    let recs := (r :: rs).map fun q => q.bytes
    let head := tolverHead 0 e f (edgeMid r.seq (x.prevcnt f) x.txGroup x.g.toNat x.bodies.length recs.length) x.recsz.toNat 0
    let s := sendTolver slot head recs.flatten s
    let s := s.onEdge slot e fun x => { x with packing := [], bodies := x.bodies ++ [(r.seq, recs)] }
    if x.g.toNat ≤ x.bodies.length + 1 then sendParity slot e f s else s

/-- A record goes to its consumer: by Tolver frame, or into the local ring (R322, R327). -/
def sendRec (slot e : Nat) (r : Rec) (s : State) : State :=
  let x := s.edge slot e
  if (s.graph slot).remote e r.frame then
    let s := s.onEdge slot e fun x => { x with packing := x.packing ++ [r] }
    if x.pack.toNat ≤ x.packing.length + 1 then sendData slot e r.frame s else s
  else
    let s := cpWrite slot (x.ring.toNat + x.ringAt % x.cap.toNat * x.size) r.bytes s
    let s := s.onEdge slot e fun x => { x with occupied := x.occupied + 1, ringAt := x.ringAt + 1 }
    releaseRec slot e { r with ring := true } s

/-- The buoy frame, after what is left of the frame's groups (R327). -/
def sendBuoy (slot e : Nat) (f : Word) (s : State) : State :=
  let s := sendParity slot e f (sendData slot e f s)
  let x := s.edge slot e
  let s := sendTolver slot (tolverHead 2 e f (edgeMid (Store.get 0 x.seqs f.toNat) (x.prevcnt f) 0 0 0 0) x.recsz.toNat 0) [] s
  s.onEdge slot e fun x => { x with txGroup := 0 }

end Sys2Proof.Machine
end

