-- ==== Sys2Proof/Machine/Receive.lean ====
section
/-! DEFINITION. Waves, and the receiver of a remote edge: holding, recovery, release, patience, substitution and prediction (R320, R321, R328 to R336, R417). -/

namespace Sys2Proof.Machine

/-! ## Waves (R320, R321, R417) -/

/-- Launch a wave of a stage: its template is read and checked; none where the launch fails and the graph stalls (R321). -/
def startWave (slot : Nat) (v : Wave) (s : State) : Option State :=
  let st := s.stage slot v.stage
  match cpRead slot st.launch.toNat 64 s with
  | (none, _) => none
  | (some bs, s) =>
    let x := natOfBytes bs
    let n := st.waves % (2 ^ 27 - 1) + 1
    let r : LaunchRec := { LaunchRec.ofNat x with gangs := .ofNat 32 (max 1 v.batches.length) }
    match readLaunch slot none (some v) (.ofNat 32 (v.stage * 2 ^ 27 + n)) r (recordRsv x) s with
    | (0, l, s) =>
      some (({ s with launches := s.launches ++ [l], nextLaunch := s.nextLaunch + 1 } : State).onStage slot v.stage fun st =>
        { st with waves := n, lastOut := st.lastOut || (v.last && !v.pred) })
    | _ => none

/-- A wave of records of an edge, by gang. -/
def waveOf (stage edge : Nat) (f : Word) (pred : Bool) (batches : List (List Rec)) : Wave :=
  { stage, frame := f, edge := some edge, pred, last := false
    batches := batches.map fun b => b.map fun r => r.bytes
    firsts := batches.map fun b => ((b.head?).map fun r => r.seq).getD 0
    rings := batches.map fun b => (b.filter fun r => r.ring).length }

/-! ## Holding and recovery (R328) -/

/-- A record is held in its place by frame and seq; a copy of one held or released is dropped. -/
def insertHeld (r : Rec) : List Rec → List Rec
  | [] => [r]
  | h :: hs =>
    if h.frame = r.frame && h.seq == r.seq then h :: hs
    else if r.frame.toNat < h.frame.toNat || (r.frame = h.frame && decide (r.seq < h.seq)) then r :: h :: hs
    else h :: insertHeld r hs

def Receiver.hold (x : Receiver) (r : Rec) : Receiver :=
  if r.frame = x.openFrame && decide (r.seq < x.next) then x else { x with held := insertHeld r x.held }

/-- The records of a body whose first seq is `seq`. -/
def bodyRecs (f : Word) (size seq : Nat) (body : List Byte) : List Rec :=
  (piecesOf size body).zipIdx.map fun b => { frame := f, seq := seq + b.2, bytes := b.1 }

/-- The records of member m of a parity group, from the aux field (R325). -/
def memberCount (aux : DWord) (m : Nat) : Nat := nbits aux.toNat (4 * m + 3) (4 * m) + 1

/-- What parity recovers: the missing member, its first seq and its body. -/
def RxGroup.recovered (gr : RxGroup) (size : Nat) : Option (Nat × Nat × List Byte) :=
  match gr.parity with
  | none => none
  | some (px, aux) =>
    if gr.bodies.length + 1 = gr.members then
      ((List.range gr.members).find? fun m => Store.get [] gr.bodies m = []).map fun m =>
        let first := gr.firstSeq.getD 0 + ((List.range m).map (memberCount aux)).sum
        (m, first, (xorBodies px.length (px :: gr.bodies.map Prod.snd)).take (memberCount aux m * size))
    else none

/-- Recover what a group of the open frame yields. -/
def recoverGroup (slot e : Nat) (gr : RxGroup) (s : State) : State :=
  let x := s.edge slot e
  match gr.recovered x.size with
  | none => s
  | some (m, first, body) =>
    let rs := bodyRecs gr.frame x.size first body
    let fill (y : RxGroup) : RxGroup :=
      if y.frame = gr.frame && y.grp = gr.grp then { y with bodies := Store.put [] y.bodies m body } else y
    countEdge slot e (fun x =>
      let rx := rs.foldl Receiver.hold x.rx
      { x with recov := satInc x.recov rs.length, rx := { rx with groups := rx.groups.map fill } }) s

def recoverGroups (slot e : Nat) (s : State) : State :=
  let x := (s.edge slot e).rx
  each (x.groups.filter fun gr => gr.frame = x.openFrame) s fun gr s => recoverGroup slot e gr s

/-! ## Release and closing (R329, R330) -/

/-- An edge that was local before opens its first remote frame only after the local buoy of the frame before (R330). -/
def gateOpen (s : State) (slot e : Nat) : Bool :=
  let x := s.edge slot e
  decide (x.rx.openFrame.toNat ≤ x.lastBuoy.toNat + 1) ||
    decide (x.rx.openFrame.toNat ≤ (s.stage slot x.target).lastDone.toNat + 1)

/-- The open frame closes: its buoy is released, and the next frame opens. -/
def closeFrame (slot e : Nat) (s : State) : State :=
  let f := (s.edge slot e).rx.openFrame
  let s := releaseBuoy slot e f s
  let n := (s.edge slot e).heldBuoys.length + 1
  freeLocal (sendRec slot e) slot e n (f + 1) <| countEdge slot e (fun x =>
    { x with
      lastf := f
      rx := { x.rx with
        openFrame := f + 1, next := 0, patience := none, predicting := none
        held := x.rx.held.filter fun r => r.frame != f
        groups := x.rx.groups.filter fun gr => gr.frame != f
        counts := Store.put none x.rx.counts f.toNat none } }) s

/-- A seq of the open frame is released with its record. -/
def releaseNext (slot e : Nat) (r : Rec) (s : State) : State :=
  let s := s.onRx slot e fun x =>
    { x with next := r.seq + 1, held := x.held.filter fun h => !(h.frame == r.frame && h.seq == r.seq) }
  releaseRec slot e r s

/-- Recover, release and close as far as the records held go; then patience starts where a Tolver frame has arrived (R331). -/
def advanceRx (slot e : Nat) : Nat → State → State
  | 0, s => s
  | n + 1, s =>
    if (s.edge slot e).rx.predicting.isSome || !gateOpen s slot e then s
    else
      let s := recoverGroups slot e s
      let x := (s.edge slot e).rx
      match x.held.find? fun r => r.frame == x.openFrame && r.seq == x.next with
      | some r => advanceRx slot e n (releaseNext slot e r s)
      | none =>
        let full := match Store.get none x.counts x.openFrame.toNat with
          | some c => decide (c ≤ x.next)
          | none => false
        if full then advanceRx slot e n (closeFrame slot e s)
        else if x.patience = none && decide (x.openFrame.toNat ≤ x.latest.toNat) then
          s.onRx slot e fun x => { x with patience := some 0 }
        else s

/-- As far as it can go: each turn releases a record or closes a frame. -/
def advance (slot e : Nat) (s : State) : State :=
  let x := (s.edge slot e).rx
  advanceRx slot e (x.held.length + 16 * x.groups.length + x.counts.length + 2) s

/-! ## Substitutes (R331 to R335) -/

/-- The key of a missing seq (R332). -/
def Receiver.resolve (x : Receiver) (seq : Nat) : Option Word :=
  let listed := x.groups.findSome? fun gr =>
    match gr.firstSeq with
    | some a => if gr.frame = x.openFrame && decide (a ≤ seq) then gr.keys[seq - a]? else none
    | none => none
  listed.or (Store.get none x.lastKeys seq)

def substRec (f key : Word) (kind : Nat) (origin : Word) (seq : Nat) (payload : List Byte) : Rec :=
  { frame := f, seq, bytes := recHeader f key kind origin seq ++ payload }

/-- What a policy delivers for a missing seq; `pred` is the payload the predictor wave performed for it (R333). -/
def Edge.substitute (x : Edge) (f : Word) (seq : Nat) (key : Option Word) (pred : Option (List Byte)) : Option Rec :=
  let zero (k : Word) : Rec := substRec f k 3 f seq (List.replicate (x.size - 16) 0)
  if x.policy = 3 then none
  else match key with
    | none => some (zero 0)
    | some k =>
      match x.cached k with
      | [] => some (zero k)
      | r :: _ =>
        if x.policy = 0 then some (substRec f k 1 r.origin seq (r.bytes.drop 16))
        else match pred with
          | some p => some (substRec f k 2 (f - 1) seq p)
          | none => some (zero k)

/-- A missing seq of the open frame is substituted or omitted. -/
def substSeq (slot e : Nat) (f : Word) (m : Nat × Option Word) (pred : Option (List Byte)) (s : State) : State :=
  match (s.edge slot e).substitute f m.1 m.2 pred with
  | none =>
    countEdge slot e (fun x => { x with omitted := satInc x.omitted 1, rx := { x.rx with next := m.1 + 1 } }) s
  | some r => releaseNext slot e r (countEdge slot e (fun x => { x with subst := satInc x.subst 1 }) s)

/-- Seqs of the open frame up to `n` are released in order, held or substituted; then the rest, and the frame closes. -/
def finishFrame (slot e n : Nat) (missing : List (Nat × Option Word × Option (List Byte))) (s : State) : State :=
  let f := (s.edge slot e).rx.openFrame
  let next := (s.edge slot e).rx.next
  let one (k : Nat) (s : State) : State :=
    match missing.find? fun m => m.1 == k with
    | some m => substSeq slot e f (m.1, m.2.1) m.2.2 s
    | none =>
      match (s.edge slot e).rx.held.find? fun r => r.frame == f && r.seq == k with
      | some r => releaseNext slot e r s
      | none => s
  let s := each ((List.range (n - next)).map (next + ·)) s one
  let rest := (s.edge slot e).rx.held.filter fun r => r.frame == f
  let s := each rest s fun r s => releaseNext slot e r s
  advance slot e (closeFrame slot e s)

/-- The two records a predictor wave receives for a missing seq (R335). -/
def Edge.predictorRecs (x : Edge) (f : Word) (seq : Nat) (key : Word) : List Rec :=
  let c := x.cached key
  let zero := substRec f key 3 f seq (List.replicate (x.size - 16) 0)
  let plain (r : Rec) : Rec := { r with ring := false }
  [((c.drop 1).head?.map plain).getD zero, (c.head?.map plain).getD zero]

/-- The predictor wave: the records of the missing seqs with a key, as far as its gangs take them. -/
def predictorWave (x : Edge) (e : Nat) (st : Stage) (f : Word) (missing : List (Nat × Option Word)) : Wave :=
  let rs := (missing.map fun m => match m.2 with
    | some k => x.predictorRecs f m.1 k
    | none => []).flatten
  waveOf x.pred e f true ((piecesOf st.batch.toNat rs).take st.maxg.toNat)

/-- Patience has run out for the open frame (R331). -/
def patienceDue (s : State) (slot e : Nat) : Bool :=
  let x := s.edge slot e
  x.valid && x.rx.predicting.isNone && (match x.rx.patience with
    | some t => decide (x.patience.toNat ≤ t)
    | none => false)

def patienceEnds (slot e : Nat) (s : State) : State :=
  let x := s.edge slot e
  let f := x.rx.openFrame
  let known := Store.get none x.rx.counts f.toNat
  let top := ((x.rx.held.filter fun r => r.frame == f).map fun r => r.seq + 1).foldl max x.rx.next
  let n := known.getD top
  let s := if known.isNone then countEdge slot e (fun x => { x with tail := satInc x.tail 1 }) s else s
  let s := s.onRx slot e fun x => { x with patience := none, counts := Store.put none x.counts f.toNat (some n) }
  let held (k : Nat) : Bool := x.rx.held.any fun r => r.frame == f && r.seq == k
  let missing := (((List.range (n - x.rx.next)).map (x.rx.next + ·)).filter fun k => !held k).map fun k => (k, x.rx.resolve k)
  if x.policy = 1 && missing.any fun m => m.2.isSome then
    match startWave slot (predictorWave x e (s.stage slot x.pred) f missing) s with
    | some t => t.onRx slot e fun y => { y with predicting := some { missing, launch := some (t.nextLaunch - 1) } }
    | none => s.onRx slot e fun y => { y with predicting := some { missing } }
  else finishFrame slot e n (missing.map fun m => (m.1, m.2, none)) s

/-- The predictor wave of an edge has retired (R335). -/
def predictorDone (s : State) (slot e : Nat) : Bool :=
  match (s.edge slot e).rx.predicting with
  | some p => (match p.launch with
    | some l => s.hasLaunch l && (s.launch l).state == .ended 0
    | none => false)
  | none => false

/-- Each missing seq with a key takes the wave's record of its number. -/
def pairPredicted : List (Nat × Option Word) → List (List Byte) → List (Nat × Option Word × Option (List Byte))
  | [], _ => []
  | (k, none) :: ms, got => (k, none, none) :: pairPredicted ms got
  | (k, some v) :: ms, got => (k, some v, got.head?) :: pairPredicted ms got.tail

def predictorEnds (slot e : Nat) (s : State) : State :=
  let x := (s.edge slot e).rx
  match x.predicting with
  | none => s
  | some p =>
    let n := (Store.get none x.counts x.openFrame.toNat).getD 0
    finishFrame slot e n (pairPredicted p.missing p.got) (s.onRx slot e fun y => { y with predicting := none })

/-! ## Arrivals (R328, R336) -/

/-- N(f) becomes known. -/
def Receiver.learn (x : Receiver) (f : Nat) (n : Nat) : Receiver :=
  if decide (x.openFrame.toNat ≤ f) && (Store.get none x.counts f).isNone then
    { x with counts := Store.put none x.counts f (some n) }
  else x

def Receiver.arrived (x : Receiver) (f : Word) : Receiver :=
  { x with latest := if x.latest.toNat < f.toNat then f else x.latest }

/-- Change a group of a frame, made where it is new. -/
def Receiver.onGroup (x : Receiver) (f : Word) (grp : BitVec 16) (u : RxGroup → RxGroup) : Receiver :=
  if x.groups.any fun gr => gr.frame = f && gr.grp = grp then
    { x with groups := mapIf (fun gr => gr.frame = f && gr.grp = grp) u x.groups }
  else { x with groups := x.groups ++ [u { frame := f, grp }] }

/-- Records held above the open frame. -/
def Receiver.buffered (x : Receiver) : Nat := (x.held.filter fun r => decide (x.openFrame.toNat < r.frame.toNat)).length

/-- A record for a seq that the predictor's substitute takes the place of (log 34). -/
def Receiver.tooLate (x : Receiver) (r : Rec) : Bool :=
  r.frame = x.openFrame && (match x.predicting with
    | some p => p.missing.any fun m => m.1 == r.seq
    | none => false)

def dataArrives (slot e : Nat) (x : TolverFrame) (s : State) : State :=
  let ed := s.edge slot e
  let n := x.count.toNat
  if x.frame.toNat < ed.rx.openFrame.toNat then countEdge slot e (fun y => { y with late := satInc y.late n }) s
  else if decide (ed.rx.openFrame.toNat < x.frame.toNat) && decide (4 * ed.cap.toNat < ed.rx.buffered + n) then
    advance slot e (countEdge slot e (fun y =>
      { y with dropped := satInc y.dropped 1, rx := y.rx.arrived x.frame }) s)
  else
    let rs := bodyRecs x.frame ed.size x.seq.toNat x.body
    let late := rs.filter fun r => ed.rx.tooLate r
    let s := if late = [] then s else countEdge slot e (fun y => { y with late := satInc y.late late.length }) s
    let s := s.onRx slot e fun y =>
      let y := (y.learn (x.frame.toNat - 1) x.prevcnt.toNat).arrived x.frame
      let y := y.onGroup x.frame x.grp fun gr => { gr with bodies := Store.put [] gr.bodies x.gidx.toNat x.body }
      (rs.filter fun r => !ed.rx.tooLate r).foldl Receiver.hold y
    advance slot e s

/-- The keys a body lists. -/
def keyList (n : Nat) (bs : List Byte) : List Word :=
  if bs.length < 4 * n then [] else (List.range n).map fun k => .ofNat 32 (natOfBytes ((bs.drop (4 * k)).take 4))

/-- Keys of a group, from the aux field of its parity or keys frame. -/
def groupKeys (x : TolverFrame) (bs : List Byte) : List Word :=
  keyList ((List.range x.g.toNat).map (memberCount x.aux)).sum bs

def parityArrives (slot e : Nat) (x : TolverFrame) (s : State) : State :=
  let ed := s.edge slot e
  let n := x.count.toNat * ed.size
  let s := s.onRx slot e fun y => y.learn (x.frame.toNat - 1) x.prevcnt.toNat
  if x.frame.toNat < ed.rx.openFrame.toNat then s
  else
    let keys := groupKeys x (x.body.drop n)
    let upd (gr : RxGroup) : RxGroup :=
      { gr with
        members := x.g.toNat, parity := some (x.body.take n, x.aux), firstSeq := some x.seq.toNat
        keys := if keys = [] then gr.keys else keys }
    advance slot e (s.onRx slot e fun y => (y.arrived x.frame).onGroup x.frame x.grp upd)

def keysArrive (slot e : Nat) (x : TolverFrame) (s : State) : State :=
  if x.frame.toNat < (s.edge slot e).rx.openFrame.toNat then s
  else
    let keys := groupKeys x x.body
    let upd (gr : RxGroup) : RxGroup :=
      { gr with members := x.g.toNat, firstSeq := some x.seq.toNat, keys := if keys = [] then gr.keys else keys }
    advance slot e (s.onRx slot e fun y => (y.arrived x.frame).onGroup x.frame x.grp upd)

def buoyArrives (slot e : Nat) (x : TolverFrame) (s : State) : State :=
  if x.frame.toNat < (s.edge slot e).rx.openFrame.toNat then s
  else advance slot e (s.onRx slot e fun y => (y.learn x.frame.toNat x.seq.toNat).arrived x.frame)

end Sys2Proof.Machine
end

