-- ==== Sys2Proof/Machine/Cut.lean ====
section
/-! DEFINITION. The moving of the cut: proposals, hand-overs and the reliable sub-channel, decision points, activation (R337 to R342). -/

namespace Sys2Proof.Machine

/-! ## The reliable sub-channel (R324, R339) -/

/-- The header of a frame of types 3 to 5. -/
def subHead (type : Nat) (f num : Word) (aux : Nat) : List Byte := tolverHead type 0xFF f (num.toNat * 2 ^ 144) 0 aux

/-- The proposal number in such a header. -/
def numberOf (x : TolverFrame) : Word := .ofNat 32 (x.seq.toNat * 256 + x.prevcnt.toNat / 2 ^ 16)

/-- Send a segment or a propose, and keep it until it is acked. -/
def sendKept (slot key : Nat) (head body : List Byte) (s : State) : State :=
  let s := sendTolver slot head body s
  let bytes := tolverBytes (s.graph slot).gid head body
  s.onCut slot fun c => { c with unacked := Store.put [] c.unacked key bytes, resend := 0 }

def sendAck (slot : Nat) (f num : Word) (complete : Bool) (segment : Nat) (s : State) : State :=
  sendTolver slot (subHead 4 f num ((if complete then 2 ^ 63 else 0) + segment * 2 ^ 32 + num.toNat)) [] s

/-- Everything unacked leaves again. -/
def resendAll (slot : Nat) (s : State) : State :=
  let g := s.graph slot
  let s : State := { s with sent := s.sent ++ g.cut.unacked.map fun u => Outward.datagram (datagramOf s g u.2) }
  s.onCut slot fun c => { c with resend := 0 }

/-! ## The hand-over body (R339) -/

def pad16' (bs : List Byte) : List Byte := bs ++ List.replicate ((16 - bs.length % 16) % 16) 0

/-- A piece: its kind, stage or edge, offset and bytes. -/
def pieceBytes (kind index off : Nat) (bs : List Byte) : List Byte :=
  [.ofNat 8 kind, .ofNat 8 index, 0, 0] ++ bytesOfBE 4 off ++ bytesOfBE 4 bs.length ++ bytesOfBE 4 0 ++ pad16' bs

/-- State regions of the moving stages as their last waves of frame G − 1 left them. -/
def statePieces (slot : Nat) (f : Word) : List Nat → State → List (List Byte) × State
  | [], s => ([], s)
  | k :: ks, s =>
    let st := s.stage slot k
    let (bs, s) := if f.toNat ≤ 1 then
        let (b, s) := cpRead slot st.state.toNat st.ssize.toNat s
        (b.getD [], s)
      else (Store.get [] (s.graph slot).cut.snapshots ((f.toNat - 1) * 32 + k), s)
    let (rest, s) := statePieces slot f ks s
    (pieceBytes 0 k 0 bs :: rest, s)

/-- Key caches of the edges that become remote, slot by slot. -/
def cachePieces (g : Graph) (draw : Nat) : List (List Byte) :=
  let es := g.live.filter fun e => g.cut.newMask.getLsbD e.1 && !g.cut.mask.getLsbD e.1
  (es.map fun e => e.2.slots.map fun k => pieceBytes 1 e.1 (k * e.2.slotSize) (e.2.slotBytes k draw)).flatten

/-- The whole body of HO(G). -/
def handoverBytes (slot : Nat) (f : Word) (s : State) : List Byte × State :=
  let g := s.graph slot
  let (ps, s) := statePieces slot f (g.moving g.cut.newMask) s
  let ps := ps ++ cachePieces g s.draws
  (bytesOfBE 8 g.cut.newMask.toNat ++ bytesOfBE 4 f.toNat ++ bytesOfBE 4 ps.length ++ bytesOfBE 16 0 ++ ps.flatten, s.draw)

/-- The segments of a hand-over leave. -/
def sendHandover (slot : Nat) (f : Word) (s : State) : State :=
  let (bs, s) := handoverBytes slot f s
  let segs := piecesOf 8192 bs
  let num := (s.graph slot).cut.num
  let s := each segs.zipIdx s fun x s =>
    sendKept slot x.2 (subHead 3 f num (x.2 * 2 ^ 48 + segs.length * 2 ^ 32 + num.toNat)) x.1 s
  s.onCut slot fun c => { c with phase := .sent f }

/-- A piece is written: a state region, or key-cache slots. -/
def writePiece (slot kind index off : Nat) (bs : List Byte) (s : State) : State :=
  if kind = 0 then cpWrite slot ((s.stage slot index).state.toNat + off) bs s
  else if kind = 1 then
    let x := s.edge slot index
    let put (c : List Byte × Nat) (y : Edge) : Edge :=
      { y with rx := { y.rx with cache := Store.put [] y.rx.cache (off / x.slotSize + c.2) (slotRecs x.size c.1) } }
    let s := cpWrite slot (x.kc.toNat + off) bs s
    s.onEdge slot index fun y => each (piecesOf x.slotSize bs).zipIdx y put
  else s

/-- Write `n` pieces. -/
def writePieces (slot : Nat) : Nat → List Byte → State → State
  | 0, _, s => s
  | n + 1, bs, s =>
    let len := natOfBE ((bs.drop 8).take 4)
    let s := writePiece slot (bs.getD 0 0).toNat (bs.getD 1 0).toNat (natOfBE ((bs.drop 4).take 4)) ((bs.drop 16).take len) s
    writePieces slot n (bs.drop (16 + (len + 15) / 16 * 16)) s

/-- A hand-over held whole takes effect. -/
def applyHandover (slot : Nat) (bs : List Byte) (s : State) : State := writePieces slot (natOfBE ((bs.drop 12).take 4)) (bs.drop 32) s

/-! ## Activation (R342) -/

/-- The new cut serves the frames from G onward. -/
def activate (slot : Nat) (f : Word) (s : State) : State :=
  let g := s.graph slot
  let moved := g.moving g.cut.newMask
  let fresh := (g.live.filter fun e => g.cut.newMask.getLsbD e.1 && !g.cut.mask.getLsbD e.1).map fun e => e.1
  let s := s.onCut slot fun c =>
    { c with
      past := (c.since, c.mask) :: c.past, mask := c.newMask, since := f, phase := .steady, holding := none, unacked := []
      outcome := 1 }
  let start (k : Nat) (s : State) : State :=
    if (s.graph slot).runs k f then s.onStage slot k fun st => { st with lastDone := f - 1, closed := f - 1, lastOut := false } else s
  let s := each moved s start
  let s := if g.role = 1 then
      each fresh s fun e s =>
        let s := s.onRx slot e fun x =>
          { openFrame := f, cache := x.cache, lastKeys := x.lastKeys, thisKeys := x.thisKeys }
        each (s.edge slot e).slots s fun k s => writeSlot slot e k s
    else s
  graphStatus slot s

/-- A proposal ends without effect, or slides to the next frame (R340, R341). -/
def slide (slot : Nat) (f : Word) (again : CutPhase) (s : State) : State :=
  let c := (s.graph slot).cut
  let s := if f.toNat < c.first.toNat + 63 then
      let keep := c.holding.filter fun h => decide (f.toNat < h.1.toNat)
      s.onCut slot fun c =>
        { c with phase := again, slides := c.slides + 1, holding := keep, unacked := c.unacked.filter fun u => u.1 == 0xFFFF }
    else s.onCut slot fun c => { c with phase := .steady, outcome := 2, holding := none, unacked := [] }
  graphStatus slot s

/-! ## The far part (R340) -/

/-- The frame of the attempt that is pending at the far part. -/
def CutPhase.farFrame : CutPhase → Option Word
  | .waiting g | .sent g | .held g => some g
  | .steady | .prep _ | .ready _ => none

/-- The decision point of the pending frame. -/
def decideCut (slot : Nat) (s : State) : State :=
  let c := (s.graph slot).cut
  match c.phase with
  | .held f => activate slot f s
  | .waiting f =>
    (match c.holding with
    | some (h, bs) => if h = f then activate slot f (applyHandover slot bs s) else slide slot f (.waiting (f + 1)) s
    | none => slide slot f (.waiting (f + 1)) s)
  | .sent f => slide slot f (.waiting (f + 1)) s
  | .steady | .prep _ | .ready _ => s

/-- Decision points that a record or buoy of a frame on an edge brings, frame by frame; the far part alone has them (R340). -/
def decisions (slot e : Nat) (f : Word) : Nat → State → State
  | 0, s => s
  | n + 1, s =>
    let g := s.graph slot
    match g.cut.phase.farFrame.filter fun _ => g.role = 0 with
    | none => s
    | some p => if g.changes e && decide (p.toNat ≤ f.toNat) then decisions slot e f n (decideCut slot s) else s

def decide64 (slot e : Nat) (f : Word) (s : State) : State := decisions slot e f 65 s

/-- The highest frame of which a record or buoy has been performed at an edge. -/
def State.performedTo (s : State) (slot e : Nat) : Word :=
  let x := s.edge slot e
  .ofNat 32 ((x.seqs.map fun q => q.1).foldl max (s.stage slot x.source).closed.toNat)

/-- A CUT is recorded (R206): the number of the proposal. Decision points already past count against it at once (R337, R340). -/
def propose (slot : Nat) (mask : DWord) (f : Word) (s : State) : Nat × State :=
  let g := s.graph slot
  if g.cut.phase != .steady then (0, s)
  else
    let num : Word := if g.cut.prop = 0xFFFFFFFF then 1 else g.cut.prop + 1
    let down := g.isDown mask
    let s := s.onCut slot fun c =>
      { c with prop := num, num, outcome := 0, slides := 0, phase := .waiting f, first := f, newMask := mask, downstream := down }
    let s := graphStatus slot s
    let s := if down then sendKept slot 0xFFFF (subHead 5 f num mask.toNat) [] s else s
    (num.toNat, each g.live s fun e s => decide64 slot e.1 (s.performedTo slot e.1) s)

/-- Moving stages have done the frames below G, and the hand-over is due (R340, R341). -/
def handoverDue (s : State) (slot : Nat) : Option Word :=
  let g := s.graph slot
  let due (f : Word) : Option Word :=
    if (g.moving g.cut.newMask).all fun k => decide (f.toNat ≤ (g.stages.getD k {}).lastDone.toNat + 1) then some f else none
  match g.cut.phase with
  | .waiting f => if g.role = 0 && !g.cut.downstream then due f else none
  | .prep f => if g.role = 1 then due f else none
  | .steady | .sent _ | .held _ | .ready _ => none

/-! ## Performing a record (R204) -/

/-- A record is performed at its edge: its seq is given, decision points are taken, and it goes or is held for a buoy (R204). -/
def performRec (slot e : Nat) (f key : Word) (payload : List Byte) (s : State) : State :=
  let s := decide64 slot e f s
  let x := s.edge slot e
  let n := Store.get 0 x.seqs f.toNat
  let r : Rec := { frame := f, seq := n, bytes := recHeader f key 0 f n ++ payload }
  let s := s.onEdge slot e fun y => { y with seqs := Store.put 0 y.seqs f.toNat (n + 1) }
  if (s.stage slot x.source).closed.toNat + 1 < f.toNat || (s.graph slot).waitsLocal e f then s.onEdge slot e fun y => { y with heldOut := y.heldOut ++ [r] }
  else sendRec slot e r s

/-! ## The near part (R341) -/

/-- A Tolver frame of a frame arrives on an edge. -/
def nearArrival (slot e : Nat) (f : Word) (s : State) : State :=
  let g := s.graph slot
  let c := g.cut
  let onNew := c.newMask.getLsbD e && !c.mask.getLsbD e
  let onOld := c.mask.getLsbD e && !c.newMask.getLsbD e
  if g.role != 1 then s
  else match c.phase with
    | .sent p =>
      if f.toNat < p.toNat then s
      else if onNew then activate slot p s
      else if onOld then slide slot p (.prep (p + 1)) s
      else s
    | .ready p =>
      if f.toNat < p.toNat then s
      else if onNew then
        activate slot p (match c.holding with
          | some h => applyHandover slot h.2 s
          | none => s)
      else if onOld then s.onCut slot fun c => { c with phase := .steady, holding := none }
      else s
    | .steady | .waiting _ | .held _ | .prep _ => s

/-- A propose arrives: acked; a new one opens PREP, and the status block shows what changed (R338, R341). -/
def proposeArrives (slot : Nat) (x : TolverFrame) (s : State) : State :=
  let c := (s.graph slot).cut
  let num := numberOf x
  let opens := c.phase = .steady && num != c.num
  let s := s.onCut slot fun c =>
    if opens then
      { c with
        num, outcome := 0, slides := 0, phase := .prep x.frame, first := x.frame, newMask := x.aux, downstream := true }
    else c
  let s := if num = c.prop && !opens then s else graphStatus slot (s.onCut slot fun c => { c with prop := num })
  sendAck slot x.frame num true 0xFFFF s

/-- The near part has seen a frame at or above G on an edge that leaves the cut: G's decision point is past (log 35). -/
def pastDecision (g : Graph) (mask : DWord) (f : Word) : Bool :=
  g.live.any fun e => g.cut.mask.getLsbD e.1 && !mask.getLsbD e.1 && decide (f.toNat ≤ e.2.rx.latest.toNat)

/-- This part takes up a hand-over of frame f now (R340, R341). -/
def takesHandover (g : Graph) (f num : Word) : Bool :=
  match g.cut.phase with
  | .waiting p => g.role = 0 && g.cut.downstream && decide (p.toNat ≤ f.toNat) && num = g.cut.num
  | .steady => g.role = 1
  | .sent _ | .held _ | .prep _ | .ready _ => false

/-- The segments of a hand-over are acked and kept: at the far part those it can still take, at the near part any (R339). -/
def hearsHandover (g : Graph) (f num : Word) : Bool := g.role = 1 || takesHandover g f num

/-- Every segment of a hand-over is there. -/
def Heard.whole (h : Heard) : Bool := h.segments != [] && decide (h.count ≤ h.segments.length)

/-- The body of a hand-over: its segments in ascending index. -/
def Heard.body (h : Heard) : List Byte := ((List.range h.count).map fun k => Store.get [] h.segments k).flatten

/-- A whole hand-over is taken up, and acked so. The new mask is its header's (R339). -/
def takeHandover (slot : Nat) (h : Heard) (s : State) : State :=
  let near := (s.graph slot).role = 1
  let aux : DWord := .ofNat 64 (2 ^ 63 + h.last * 2 ^ 32 + h.num.toNat)
  let s := s.onCut slot fun c =>
    let c := { c with newMask := .ofNat 64 (natOfBE (h.body.take 8)), holding := some (h.frame, h.body), answered := (h.frame, h.num, aux) :: c.answered }
    if near then { c with num := h.num, outcome := 0, slides := 0, phase := .ready h.frame, first := h.frame, downstream := false }
    else c
  sendAck slot h.frame h.num true h.last (graphStatus slot s)

/-- The first hand-over whose segments are all there and which this part takes is taken up; one whose decision point is past is dropped (R339 to R341). -/
def handoverWhole (slot : Nat) (s : State) : State :=
  let g := s.graph slot
  let past (h : Heard) : Bool := g.role = 1 && pastDecision g (.ofNat 64 (natOfBE (h.body.take 8))) h.frame
  let gone := g.cut.heard.filter fun h => h.whole && takesHandover g h.frame h.num && past h
  let s := if gone = [] then s else s.onCut slot fun c => { c with heard := c.heard.filter fun h => !gone.contains h }
  match (s.graph slot).cut.heard.find? fun h => h.whole && takesHandover g h.frame h.num with
  | some h => takeHandover slot h (s.onCut slot fun c => { c with heard := c.heard.filter (· != h) })
  | none => s

/-- A segment joins those of its hand-over. -/
def hearSegment (x : TolverFrame) (l : List Heard) : List Heard :=
  let num := numberOf x
  let seg := nbits x.aux.toNat 63 48
  let mine (h : Heard) : Bool := h.frame == x.frame && h.num == num
  let add (h : Heard) : Heard := { h with last := seg, segments := Store.put [] h.segments seg x.body }
  if l.any mine then mapIf mine add l
  else l ++ [{ frame := x.frame, num, count := nbits x.aux.toNat 47 32, last := seg, segments := Store.put [] [] seg x.body }]

/-- A segment of a hand-over arrives (R339). -/
def handoverArrives (slot : Nat) (x : TolverFrame) (s : State) : State :=
  let g := s.graph slot
  let num := numberOf x
  let seg := nbits x.aux.toNat 63 48
  let s := if g.role = 1 && num != g.cut.prop then graphStatus slot (s.onCut slot fun c => { c with prop := num }) else s
  match g.cut.answered.find? fun a => a.1 = x.frame && a.2.1 = num with
  | some a => sendAck slot x.frame num true (nbits a.2.2.toNat 47 32) s
  | none =>
    if !hearsHandover g x.frame num then s
    else
      let s := s.onCut slot fun c => { c with heard := hearSegment x c.heard }
      handoverWhole slot (sendAck slot x.frame num false seg s)

/-- An ack arrives (R339, R340). -/
def ackArrives (slot : Nat) (x : TolverFrame) (s : State) : State :=
  let c := (s.graph slot).cut
  let seg := nbits x.aux.toNat 47 32
  if numberOf x != c.num then s
  else if seg = 0xFFFF then s.onCut slot fun c => { c with unacked := c.unacked.filter fun u => u.1 != 0xFFFF }
  else if c.phase != .sent x.frame then s
  else if x.aux.getLsbD 63 then
    s.onCut slot fun c =>
      { c with unacked := c.unacked.filter fun u => u.1 == 0xFFFF
               phase := if (s.graph slot).role = 0 then .held x.frame else c.phase }
  else s.onCut slot fun c => { c with unacked := c.unacked.filter fun u => u.1 != seg }

end Sys2Proof.Machine
end

