-- ==== Sys2Proof/Machine/Raster.lean ====
section
/-! DEFINITION. The raster record, the separator, the fixed rasteriser and the bins (R209, R344 to R352). -/

namespace Sys2Proof.Machine

/-! ## The raster record (R344) -/

def Raster.ofNat (x : Nat) : Raster :=
  { vis := .ofNat 64 (nbits x 511 448), width := .ofNat 16 (nbits x 447 432), height := .ofNat 16 (nbits x 431 416)
    skim := nbits x 415 408, bin := nbits x 407 400 }

/-- The checks of R344 against the context's graph. -/
def Raster.ok (r : Raster) (x : Nat) (g : Graph) : Bool :=
  let edge (k n : Nat) : Bool := (g.edges.getD k {}).valid && (g.edges.getD k {}).recsz.toNat == n
  nbits x 399 0 = 0 && r.vis.toNat % 128 = 0 && decide (1 ≤ r.width.toNat) && decide (r.width.toNat ≤ 16384) &&
    decide (1 ≤ r.height.toNat) && decide (r.height.toNat ≤ 16384) && edge r.skim 5 && edge r.bin 10

/-- A write of rastbase: the record is read and checked; where a check fails rastbase reads 0. -/
def registerRaster (slot : Nat) (v : DWord) (s : State) : State :=
  let none' (s : State) : State := s.onCtx slot fun c => { c with rastbase := 0, raster := none }
  if v = 0 || v.toNat % 64 != 0 || !(s.ctx slot).valid then none' s
  else match cpRead slot v.toNat 64 s with
    | (none, s) => none' s
    | (some bs, s) =>
      let x := natOfBytes bs
      let r := Raster.ofNat x
      if r.ok x (s.graph slot) then s.onCtx slot fun c => { c with rastbase := v, raster := some r } else none' s

/-! ## Records that wait for room (R347, R352) -/

/-- The head of an edge's waiting records may be performed: the edge is remote for the frame, or its ring has room beside the records held back for it (R322). -/
def pendReady (s : State) (slot e : Nat) : Option Pend :=
  let x := s.edge slot e
  x.pending.head?.filter fun p => (s.graph slot).remote e p.frame || decide (x.occupied + (s.graph slot).heldLocal e < x.cap.toNat)

/-- Perform waiting records while there is room; one that follows its stage's buoy raises BOUNDS as an EMIT does (log 37). -/
def drainEdge (slot e : Nat) : Nat → State → State
  | 0, s => s
  | n + 1, s =>
    match pendReady s slot e with
    | none => s
    | some p =>
      let s := s.onEdge slot e fun x => { x with pending := x.pending.drop 1 }
      let s := if p.frame.toNat ≤ (s.stage slot (s.edge slot e).source).closed.toNat then
          asyncTrap p.warp p.lane p.pc { cause := causeBounds, info := .ofNat 32 e } s
        else performRec slot e p.frame p.key p.payload s
      drainEdge slot e n s

/-- Drain every edge of a context's graph. -/
def drainSlot (slot : Nat) (s : State) : State :=
  let waiting := (s.graph slot).edges.zipIdx.filter fun e => e.1.pending != []
  each waiting s fun e s => drainEdge slot e.2 (e.1.pending.length) s

/-- Drain every graph of the part. -/
def drainAll (s : State) : State :=
  let busy := s.ctxs.filter fun c => match c.2.graph with
    | some g => g.edges.any fun e => e.pending != []
    | none => false
  each (busy.map Prod.fst) s drainSlot

def pendOn (slot e : Nat) (p : Pend) (s : State) : State := s.onEdge slot e fun x => { x with pending := x.pending ++ [p] }

/-- Triangles and records of a stage's frame that its buoy must follow (R350, R352). -/
def stageBusy (s : State) (slot st : Nat) (f : Word) : Bool :=
  (s.tris.any fun t => t.slot == slot && t.stage == st && t.frame == f) ||
    (s.graph slot).live.any fun e => e.2.source == st && e.2.pending.any fun p => p.frame == f

/-! ## The separator (R345 to R347) -/

/-- x / w for w > 0, neither a NaN: correctly rounded. -/
def divPos (x w : Nat) : Nat :=
  let neg := f32Fmt.signOf x
  match f32Fmt.value x, f32Fmt.value w with
  | .fin _ n e, .fin _ m k =>
    if n = 0 || m = 0 then f32Fmt.sgn neg
    else
      let (a, b) := pow2 (e - k)
      f32Fmt.roundRatio .rn neg (n * a) (m * b)
  | .inf _, .fin .. => x
  | .fin .., .inf _ => f32Fmt.sgn neg
  | _, _ => f32Fmt.nan

/-- The FP32 code of n / 2. -/
def halfOf (n : Nat) : Nat := f32Fmt.roundRatio .rn false n 2

/-- A screen coordinate: (a + 1.0) × (size / 2). -/
def toScreen (a size : Nat) : Nat := f32Fmt.mulR .rn (f32Fmt.addR .rn a 0x3F800000) (halfOf size)

/-- A value rounded to the nearest integer, ties to even; none where it is not finite. -/
def nearestInt (v : Num) : Option Int :=
  match v with
  | .fin s n e =>
    let (a, b) := pow2 e
    let q := n * a / b
    let r := n * a % b
    let m := if b < 2 * r || (2 * r = b && q % 2 = 1) then q + 1 else q
    some (if s then -(m : Int) else m)
  | _ => none

/-- A triangle as the separator reads it: four FP32 codes for each vertex. -/
structure Vertex where
  x : Nat
  y : Nat
  z : Nat
  w : Nat
  deriving DecidableEq, Repr

def vertexAt (bs : List Byte) (k : Nat) : Vertex :=
  let word (j : Nat) : Nat := natOfBytes ((bs.drop (16 * k + 4 * j)).take 4)
  { x := word 0, y := word 1, z := word 2, w := word 3 }

/-- A snapped vertex and its depth. -/
structure Snapped where
  x : Int
  y : Int
  d : Nat
  deriving DecidableEq, Repr

/-- R345 for one vertex; coordinates that are not finite snap to open values. -/
def snap (r : Raster) (draw k : Nat) (v : Vertex) : Snapped :=
  let to256 (c : Nat) : Num := Num.mul (f32Fmt.value c) (.fin false 256 0)
  let xs := toScreen (divPos v.x v.w) r.width.toNat
  let ys := toScreen (divPos v.y v.w) r.height.toNat
  let d := divPos v.z v.w
  { x := (nearestInt (to256 xs)).getD (Config.snapOpen draw (2 * k))
    y := (nearestInt (to256 ys)).getD (Config.snapOpen draw (2 * k + 1))
    d := if d = 0x80000000 then 0 else d }

/-- Twice the signed area of three snapped vertices. -/
def detOf (a b c : Snapped) : Int := (b.x - a.x) * (c.y - a.y) - (c.x - a.x) * (b.y - a.y)

/-- What becomes of a triangle (R346). -/
inductive Fate
  | dropped
  | skim (clipped : Bool) (det : Int)
  | cream (a b c : Snapped) (det : Int)
  deriving DecidableEq, Repr

/-- The first row of R346 that applies; `cull` is C. -/
def fateOf (r : Raster) (sepa cull draw : Nat) (bs : List Byte) : Fate :=
  let vs := (List.range 3).map (vertexAt bs)
  let gt (x y : Nat) : Bool := f32Fmt.holds .gt x y
  let neg (x : Nat) : Nat := Nat.xor x 0x80000000
  let outside (c : Vertex → Nat) : Bool := (vs.all fun v => gt (c v) v.w) || vs.all fun v => gt (neg v.w) (c v)
  if vs.any fun v => [v.x, v.y, v.z, v.w].any f32Fmt.isNan then .dropped
  else if outside (fun v => v.x) || outside (fun v => v.y) then .dropped
  else if vs.any fun v => !gt v.w 0 then .skim true 0
  else
    let p (k : Nat) : Snapped := snap r draw k (vertexAt bs k)
    let det := detOf (p 0) (p 1) (p 2)
    if det = 0 then .dropped
    else if (det < 0 && cull % 2 = 1) || (0 < det && cull / 2 % 2 = 1) then .dropped
    else if 131072 * sepa ≤ det.natAbs then .cream (p 0) (p 1) (p 2) det
    else .skim false det

/-- The payload of a skim record (R347). -/
def skimPayload (bs : List Byte) (ident : Nat) (clipped : Bool) (det : Int) : List Byte :=
  bs ++ bytesOfNat 4 ident ++ bytesOfNat 4 (if clipped then 1 else 0) ++ bytesOfNat 8 (codeOf 64 det)

/-! ## The fixed rasteriser (R348, R349) -/

/-- The edge function of a → b at a point. -/
def edgeFn (a b : Snapped) (px py : Int) : Int := (b.x - a.x) * (py - a.y) - (b.y - a.y) * (px - a.x)

/-- Positive, or zero on an edge that owns its points. -/
def edgeCovers (a b : Snapped) (px py : Int) : Bool :=
  let e := edgeFn a b px py
  0 < e || (e = 0 && (0 < b.y - a.y || (b.y - a.y = 0 && b.x - a.x < 0)))

/-- The depth of a covered pixel: rounded once, −0.0 as +0.0. -/
def depthAt (a b c : Snapped) (det : Int) (px py : Int) : Nat :=
  let term (d : Nat) (e : Int) : Num := Num.mul (f32Fmt.value d) (.ofInt e)
  let sum := Num.add false (Num.add false (term a.d (edgeFn b c px py)) (term b.d (edgeFn c a px py)))
    (term c.d (edgeFn a b px py))
  match sum with
  | .fin s n e =>
    let (x, y) := pow2 e
    let code := if n = 0 then 0 else f32Fmt.roundRatio .rn s (n * x) (y * det.natAbs)
    if code = 0x80000000 then 0 else code
  | v => f32Fmt.round .rn v

/-- Pixels from `lo` to `hi` of a side of `size` that a triangle's box can reach. -/
def pixelSpan (lo hi : Int) (size : Nat) : List Nat :=
  let first := (lo / 256 - 1).toNat
  let last := min size ((hi / 256 + 2).toNat)
  (List.range (last - first)).map (first + ·)

/-- The pixel events of a cream triangle: the address and the word of each (R349). -/
def pixelEvents (r : Raster) (ident : Nat) (a b c : Snapped) (det : Int) : List (Nat × DWord) :=
  let (b, c) := if det < 0 then (c, b) else (b, c)
  let xs := [a.x, b.x, c.x]
  let ys := [a.y, b.y, c.y]
  let low (l : List Int) (z : Int) : Int := l.foldl min z
  let high (l : List Int) (z : Int) : Int := l.foldl max z
  let at' (px py : Nat) : Option (Nat × DWord) :=
    let x : Int := 256 * px + 128
    let y : Int := 256 * py + 128
    if edgeCovers a b x y && edgeCovers b c x y && edgeCovers c a x y then
      let dp := depthAt a b c det x y
      if f32Fmt.isNan dp || f32Fmt.holds .lt dp 0 || f32Fmt.holds .gt dp 0x3F800000 then none
      else some (r.vis.toNat + 8 * (px + r.width.toNat * py), .ofNat 64 ((2 ^ 32 - 1 - dp) * 2 ^ 32 + ident))
    else none
  ((pixelSpan (low ys a.y) (high ys a.y) r.height.toNat).map fun py =>
    (pixelSpan (low xs a.x) (high xs a.x) r.width.toNat).filterMap fun px => at' px py).flatten

/-- The operation under which a triangle's faults are reported, in no warp's record. -/
def Tri.ref (t : Tri) : OpRef := { warp := t.warp, op := 2 ^ 33 + t.stamp }

/-- What a pixel event comes to. -/
inductive Pixel
  | done (s : State)
  /-- The page is absent, or in migration: the event is performed later. -/
  | faulted (s : State)
  | waits (page : Nat) (s : State)

/-- The warp in which a triangle's traps are reported: the one that issued it, or another of its gang once that has been placed again. -/
def Tri.reporter (s : State) (t : Tri) : Nat :=
  if s.hasWarp t.warp then t.warp else (((s.gangWarps t.gang).head?).map fun w => w.uid).getD t.warp

/-- One pixel event: the maximum, on the committed line, its page met as an atomic of the issuing warp meets it (R273, R274, R349). -/
def pixelEvent (t : Tri) (va : Nat) (word : DWord) (s : State) : Pixel :=
  let sp := (s.ctx t.slot).space
  let k := sp.loc (va % 2 ^ 60)
  let info (cause : Word) : TrapInfo := { cause, addr := .ofNat 64 va }
  if !canonical va then .done (asyncTrap (t.reporter s) t.lane t.pc (info causeTranslation) s)
  else match reach k .write s with
    | (.fail .notPresent, s) =>
      if fastFault s sp.asid then .done (asyncTrap (t.reporter s) t.lane t.pc (info causeTranslation) s)
      else .faulted { s with faults := s.faults ++
        [{ op := t.ref, world := sp.world, asid := sp.asid, va, kind := 2, lane := t.lane, pc := t.pc }] }
    | (.fail .migrating, s) => .waits (k / 65536) s
    | (.fail (.poisoned _), s) => .done (consume t.gang (poisonWhere s k) s)
    | (.fail _, s) => .done (asyncTrap (t.reporter s) t.lane t.pc (info causePermission) s)
    | (h, s) =>
      if poisonedAt s none h k 8 then .done (consume t.gang (poisonWhere s k) s)
      else
        let old := natOfBytes (homeRead s none h k 8)
        .done (homeUpdate none h k (bytesOfNat 8 (max old word.toNat)) s)

/-- The event of a triangle that is performed next: a free choice among those left (R350). -/
def nextPixel (s : State) (t : Tri) : Nat := Config.turn s.draws % max 1 t.todo.length

def setTri (k : Nat) (t : Option Tri) (l : List Tri) : List Tri :=
  (l.zipIdx.map fun e => if e.2 = k then t else some e.1).filterMap id

/-- A triangle may perform an event: it waits for no fault and for no page in migration. -/
def rasterReady (s : State) (k : Nat) : Bool :=
  match s.tris[k]? with
  | none => false
  | some t => t.mig.isNone && !(s.faults.any fun f => f.op == t.ref) && !s.batches.any fun b => decide (t.ref ∈ b.ops)

def rasterise (k : Nat) (s : State) : State :=
  match s.tris[k]? with
  | none => s
  | some t =>
    let n := nextPixel s t
    let s := s.draw
    match t.todo[n]? with
    | none => { s with tris := setTri k none s.tris }
    | some e =>
      let left := t.todo.eraseIdx n
      match pixelEvent t e.1 e.2 s with
      | .done s => { s with tris := setTri k (if left = [] then none else some { t with todo := left }) s.tris }
      | .faulted s => s
      | .waits page s => { s with tris := setTri k (some { t with mig := some page }) s.tris }

/-! ## TRISUB (R209, R347) -/

/-- The stage a wave issues for, when it is no predictor wave. -/
def waveStage (l : Launch) : Option Wave := l.wave.filter fun v => !v.pred

/-- A separator's tag window. -/
def separatorTags (s : State) (cl : Nat) : List TagEntry := (s.sepTags.filter fun t => t.1 == cl).map Prod.snd
def setSeparatorTags (cl : Nat) (win : List TagEntry) (s : State) : State :=
  { s with sepTags := (s.sepTags.filter fun t => t.1 != cl) ++ win.map fun t => (cl, t) }

/-- One lane of an operation of a holder with 64 entries: performed unless its tag is known. -/
def onceLane (win : State → List TagEntry) (put : List TagEntry → State → State) (t : TagEntry) (perform : State → State)
    (s : State) : State :=
  if (tagHit (win s) t).isSome then s
  else
    let s := perform s
    let (l, gs) := tagPut s 64 32 (win s) { t with pinned := false }
    exposeGangs gs (put l s)

/-- A triangle is accepted and its fate decided. -/
def acceptTri (x : Act) (l : Launch) (v : Wave) (r : Raster) (k : Nat) (bs : List Byte) (s : State) : State :=
  let w := s.warp x.u
  let ident := x.valB w k
  match fateOf r ((s.cluster (s.warpGang w).cluster).sepa.toNat) (x.valC w k) s.draws bs with
  | .dropped => s.draw
  | .skim clipped det =>
    pendOn l.slot r.skim { frame := v.frame, key := .ofNat 32 ident, payload := skimPayload bs ident clipped det
                           warp := x.u, lane := k, pc := x.pc } s.draw
  | .cream a b c det =>
    let t : Tri := { slot := l.slot, stage := v.stage, frame := v.frame, gang := w.gang, warp := x.u, lane := k, pc := x.pc
                     todo := pixelEvents r ident a b c det, stamp := s.draws }
    { s.draw with tris := s.tris ++ [t] }

def trisubIssue (x : Act) (s : State) : State :=
  let w := s.warp x.u
  let l := s.warpLaunch w
  let c := s.ctx l.slot
  let stage := match waveStage l, c.raster with
    | some v, some r => if (s.edge l.slot r.skim).valid && (s.edge l.slot r.skim).source == v.stage then some (v, r) else none
    | _, _ => none
  match stage with
  | none => x.trap x.first { cause := causeBounds } s
  | some (v, r) =>
    let slots : List Slot := x.act.map fun k => { lane := k, addr := x.valA w k }
    match addrCheck s w false 48 16 slots with
    | some (k, t) => x.trap k t s
    | none =>
      match x.act.find? fun k => readScr s w (x.valA w k) 48 = .poison with
      | some k => consume w.gang (scrWhere s w.gang ((scrTarget s w (x.valA w k) 48).getD (w.rank, 0))) (x.again s)
      | none =>
        let cl := (s.warpGang w).cluster
        let one (k : Nat) (s0 : State) : State :=
          let t := s.tagEntry w (s.tag w k (w.seq k)) x.i (x.valA w k) 0
          let bs := match readScr s w (x.valA w k) 48 with
            | .bytes bs => bs
            | _ => []
          onceLane (fun s => separatorTags s cl) (setSeparatorTags cl) t (acceptTri x l v r k bs) s0
        drainSlot l.slot (each x.act (takeSeqs x.u x.act s) one)

/-! ## Bins (R351, R352) -/

/-- Tiles across and in all. -/
def Raster.tilesAcross (r : Raster) : Nat := (r.width.toNat + 31) / 32
def Raster.tiles (r : Raster) : Nat := r.tilesAcross * ((r.height.toNat + 31) / 32)

/-- Bins stand by frame, material and tile. -/
def Bin.before (a b : Bin) : Bool :=
  decide (a.frame.toNat < b.frame.toNat) || (a.frame = b.frame && (decide (a.material < b.material) ||
    (a.material = b.material && decide (a.tile < b.tile))))

def Bin.same (a b : Bin) : Bool := a.frame = b.frame && a.material = b.material && a.tile = b.tile

/-- Set a bin's pixels, a new bin in its place. -/
def addBin (b : Bin) : List Bin → List Bin
  | [] => [b]
  | x :: xs =>
    if b.same x then { x with mask := x.mask ||| b.mask } :: xs
    else if b.before x then b :: x :: xs
    else x :: addBin b xs

/-- The payload of a bin record. -/
def Bin.payload (b : Bin) : List Byte :=
  bytesOfNat 4 b.tile ++ bytesOfNat 4 ((List.range 1024).filter fun p => b.mask.getLsbD p).length ++ bytesOfNat 8 0 ++
    bytesOfNat 128 b.mask.toNat

/-- The scheduler emits the bins it holds, of one frame or all. -/
def flushBins (slot : Nat) (r : Raster) (only : Option Word) (s : State) : State :=
  let mine (b : Bin) : Bool := match only with
    | some f => b.frame = f
    | none => true
  let out := (s.ctx slot).bins.filter mine
  let s := s.onCtx slot fun c => { c with bins := c.bins.filter fun b => !mine b }
  each out s fun b s => pendOn slot r.bin { frame := b.frame, key := .ofNat 32 b.material, payload := b.payload } s

/-- A pixel enters its bin; a new bin that finds the store full flushes it first. -/
def binPixel (slot : Nat) (r : Raster) (b : Bin) (s : State) : State :=
  let bins := (s.ctx slot).bins
  let s := if 65536 ≤ bins.length && !(bins.any b.same) then flushBins slot r none s else s
  s.onCtx slot fun c => { c with bins := addBin b c.bins }

def mbinIssue (x : Act) (s : State) : State :=
  let w := s.warp x.u
  let l := s.warpLaunch w
  let c := s.ctx l.slot
  let tile := x.valC w x.first
  let stage := match waveStage l, c.raster with
    | some v, some r =>
      if (s.edge l.slot r.bin).valid && (s.edge l.slot r.bin).source == v.stage && decide (tile < r.tiles) then some (v, r) else none
    | _, _ => none
  match stage with
  | none => x.trap x.first { cause := causeBounds } s
  | some (v, r) =>
    match x.act.find? fun k => decide (4095 < x.valA w k) || decide (1023 < x.valB w k) with
    | some k => x.trap k { cause := causeBounds } s
    | none =>
      let one (k : Nat) (s0 : State) : State :=
        let t := s.tagEntry w (s.tag w k (w.seq k)) x.i 0 0
        let b : Bin := { frame := v.frame, material := x.valA w k, tile, mask := 1#1024 <<< (x.valB w k) }
        onceLane (fun s => (s.ctx l.slot).cutTags) (fun win s => s.onCtx l.slot fun c => { c with cutTags := win }) t
          (binPixel l.slot r b) s0
      drainSlot l.slot (each x.act (takeSeqs x.u x.act s) one)

/-! ## ATTR (R210) -/

/-- The interpolation: exact, rounded once. -/
def attrValue (a0 a1 a2 b1 b2 : Nat) : Nat :=
  let v := f32Fmt.value
  let neg (x : Num) : Num := Num.mul (.fin true 1 0) x
  let b0 := Num.add false (Num.add false (.fin false 1 0) (neg (v b1))) (neg (v b2))
  f32Fmt.round .rn (Num.add false (Num.add false (Num.mul (v a0) b0) (Num.mul (v a1) (v b1))) (Num.mul (v a2) (v b2)))

def attrIssue (x : Act) (s : State) : State :=
  let w := s.warp x.u
  let addr (k v : Nat) : Nat := (x.valB w k + 128 * v + 4 * x.valC w k) % 2 ^ 32
  let word (k v : Nat) : Got := readScr s w (addr k v) 4
  let bad (p : Got → Bool) : Option (Nat × Nat) :=
    x.act.findSome? fun k => ((List.range 3).find? fun v => p (word k v)).map fun v => (k, addr k v)
  let failed (g : Got) : Bool := match g with
    | .fail _ => true
    | _ => false
  match bad failed with
  | some (k, a) => x.trap k { cause := causeBounds, addr := .ofNat 64 a } s
  | none =>
    match bad fun g => g = .poison with
    | some (_, a) => consume w.gang (scrWhere s w.gang ((scrTarget s w a 4).getD (w.rank, 0))) (x.again s)
    | none =>
      let val (k v : Nat) : Nat := match word k v with
        | .bytes bs => natOfBytes bs
        | _ => 0
      let out (k : Nat) : Nat :=
        let b := x.valA w k
        attrValue (val k 0) (val k 1) (val k 2) (b % 2 ^ 32) (b / 2 ^ 32)
      s.onWarp x.u (x.writeD (x.act.map fun k => (k, out k)))

/-! ## Meanings -/

def execTrisub (h : Hdr) (f : Ops) : State → Host.Outcome State Fault Refusal := issue (.trisub h f) trisubIssue
def execMbin (h : Hdr) (f : Ops) : State → Host.Outcome State Fault Refusal := issue (.mbin h f) mbinIssue
def execAttr (h : Hdr) (f : Ops) : State → Host.Outcome State Fault Refusal := issue (.attr h f) attrIssue
def execTriangleRasterise (k : Nat) (s : State) : Host.Outcome State Fault Refusal := event (rasterReady s k) (rasterise k) s
/-- A write of one context's rastbase. -/
def writesRastbase (slot : Nat) : Instr → Bool
  | .rastbaseWrite a _ => a == slot
  | _ => false

def execRastbaseWrite (slot : Nat) (v : DWord) (s : State) : Host.Outcome State Fault Refusal :=
  event (decide (slot < 256)) (orLater (.rastbaseWrite slot v) (writesRastbase slot)
    (fun s => s.onCtx slot fun c => { c with rastbase := 0, raster := none }) (registerRaster slot v)) s

end Sys2Proof.Machine
end

