-- ==== Sys2Proof/Machine/Texture.lean ====
section
/-! DEFINITION. Texture instructions and the results written late (R21, R98, R132, R211, R353 to R356). -/

namespace Sys2Proof.Machine

/-! ## Descriptors (R353) -/

def fmtKnown (fmt : Nat) : Bool := fmt ≤ 4 || (astcFoot fmt).isSome

/-- What a texture instruction asks of its descriptor: the dimension its modifier names, or a volume. -/
def texType : Instr → Nat
  | .tex _ k _ _ => k.code
  | .tld _ k _ => k.code
  | _ => 2

/-- The first failing check of a descriptor, with the field's byte offset (R353; log 38). -/
def texCheck (i : Instr) (x : Nat) : Option TrapInfo :=
  let t := TexDesc.ofNat x
  let bad : List (Bool × Nat) :=
    [(decide (16384 < t.w), 54), (t.type = 0 && t.h != 1, 52), (t.type != 2 && t.d != 1, 50),
     (decide ((max t.w (max t.h t.d)).log2 < t.lm1), 49), (nbits x 393 392 != 0, 49), (!fmtKnown t.fmt, 48), (t.mip = 3, 46),
     (nbits x 373 0 != 0, 0), (t.type != texType i, 49), ((astcFoot t.fmt).isSome && (t.type = 0 || t.type = 2), 48)]
  match bad.find? fun b => b.1 with
  | some b => some { cause := causeBounds, info := .ofNat 32 b.2 }
  | none => if t.base % 128 != 0 then some { cause := causeAlignment, info := 56 } else none

/-! ## Texels (R353, R354) -/

/-- The IEC 61966-2-1 decoding of an 8-bit code, correctly rounded: c/12.92, or ((c + 0.055)/1.055)^2.4. -/
def srgbDecode (c : Nat) : Nat :=
  if c ≤ 10 then f32Fmt.roundRatio .rn false (c * 100) (255 * 1292)
  else
    let num := 1000 * c + 14025
    let den := 269025
    let root := rootOf 5 (num ^ 12 * 2 ^ 300 / den ^ 12) 62 0
    f32Fmt.roundRatio .rn false (2 * root + (if c = 255 then 0 else 1)) (2 ^ 61)

def unorm8 (c : Nat) : Nat := f32Fmt.roundRatio .rn false c 255

/-- An FP16 code widened. -/
def widen16 (x : Nat) : Nat := f32Fmt.round .rn (f16Fmt.value x)

/-- The four FP32 channels of a texel's bytes, uncompressed formats. -/
def channels (fmt : Nat) (bs : List Byte) : List Nat :=
  let byte (k : Nat) : Nat := (bs.getD k 0).toNat
  let half (k : Nat) : Nat := widen16 (byte (2 * k) + 256 * byte (2 * k + 1))
  let word (k : Nat) : Nat := natOfBytes ((bs.drop (4 * k)).take 4)
  match fmt with
  | 0 => (List.range 4).map fun k => unorm8 (byte k)
  | 1 => [srgbDecode (byte 0), srgbDecode (byte 1), srgbDecode (byte 2), unorm8 (byte 3)]
  | 2 => (List.range 4).map half
  | 3 => [word 0, 0, 0, 0x3F800000]
  | _ => (List.range 4).map word

/-- Why a sample stops: the address that could not be read, and what reading it answered. -/
abbrev TexStop := Nat × Got

/-- Bytes of an image, read as plain loads; an address that is not canonical is not read (R143). -/
def texRead (p : Party) (va n : Nat) (s : State) : Except TexStop (List Byte) × State :=
  if !canonical va then (.error (va, .fail .permission), s)
  else match readL1 p va n s with
    | (.bytes bs, s) => (.ok bs, s)
    | (g, s) => (.error (va, g), s)

/-- A texel of an ASTC block as FP32 codes: FP16 widened, an sRGB code converted as fmt 0x01; an illegal block's constant (R354). -/
def astcTexel (bs : List Byte) (fmt fw fh px py : Nat) : List Nat :=
  (List.range 4).map fun c => match astcChannel (natOfBytes bs) fw fh (fmt / 16 = 2) (fmt / 16 = 3) px py c with
    | .half h => widen16 h
    | .byte b => if c = 3 then unorm8 b else srgbDecode b
    | .bad => if fmt / 16 = 3 then f32Fmt.nan else if c = 1 then 0 else 0x3F800000

/-- The channels of a texel of a level. -/
def texel (p : Party) (t : TexDesc) (k x y z : Nat) (s : State) : Except TexStop (List Nat) × State :=
  let w := levelSize k t.w
  let at0 := t.base + t.levelStart k + z * t.faceBytes k
  match astcFoot t.fmt with
  | some (fw, fh) =>
    (match texRead p (at0 + (y / fh * ((w + fw - 1) / fw) + x / fw) * 16) 16 s with
    | (.ok bs, s) => (.ok (astcTexel bs t.fmt fw fh (x % fw) (y % fh)), s)
    | (.error e, s) => (.error e, s))
  | none =>
    let n := texelBytes t.fmt
    match texRead p (at0 + (y * w + x) * n) n s with
    | (.ok bs, s) => (.ok (channels t.fmt bs), s)
    | (.error e, s) => (.error e, s)

/-! ## Taps (R211, R355) -/

/-- An exact coordinate; none where it is not finite. -/
abbrev Coord := Option (Int × Nat)

def coordOf (code : Nat) : Coord :=
  match f32Fmt.value code with
  | .fin s n e =>
    let (a, b) := pow2 e
    some (if s then -((n * a : Nat) : Int) else ((n * a : Nat) : Int), b)
  | _ => none

/-- Taps of one axis: an index, which may lie outside, and its weight in units of 2^−16. -/
def axisTaps (linear : Bool) (u : Int × Nat) (size : Nat) : List (Int × Nat) :=
  let num := u.1 * size
  if !linear then [(num / (u.2 : Int), 65536)]
  else
    let n := 2 * num - (u.2 : Int)
    let code := if n = 0 then 0 else f32Fmt.roundRatio .rn (n < 0) n.natAbs (2 * u.2)
    match coordOf code with
    | some (a, b) =>
      let i := a / (b : Int)
      let fq := ((a - i * (b : Int)) * 65536 / (b : Int)).toNat
      [(i, 65536 - fq), (i + 1, fq)].filter fun t => t.2 != 0
    | none => []

/-- The index an address mode gives; none for a border tap. -/
def wrapIndex (mode size : Nat) (i : Int) : Option Nat :=
  if 0 ≤ i && decide (i < (size : Int)) then some i.toNat
  else match mode with
    | 0 => some (i % (size : Int)).toNat
    | 1 => let m := (i % (2 * size : Int)).toNat
      some (if m < size then m else 2 * size - 1 - m)
    | 2 => some (if i < 0 then 0 else size - 1)
    | _ => none

/-- The weighted sum of taps: exact, one Num to a channel, weights in units of 2^−16 per axis; −0 to begin with, which is no term (R74). -/
def sumTaps (p : Party) (t : TexDesc) (k : Nat) : List (Option (Nat × Nat × Nat) × Nat) → List Num → State →
    Except TexStop (List Num) × State
  | [], acc, s => (.ok acc, s)
  | (place, wt) :: rest, acc, s =>
    let add (cs : List Nat) : List Num :=
      List.zipWith (fun a c => Num.add false a (Num.mul (.fin false wt (-48)) (f32Fmt.value c))) acc cs
    match place with
    | none => sumTaps p t k rest (add [0, 0, 0, 0]) s
    | some (x, y, z) => match texel p t k x y z s with
      | (.ok cs, s) => sumTaps p t k rest (add cs) s
      | (.error e, s) => (.error e, s)

/-- Four values the spec states no result for (log 36). -/
def openTexel (s : State) : Except TexStop (List Nat) × State :=
  (.ok ((List.range 4).map fun c => (Config.texOpen s.draws c).toNat), s.draw)

/-- Filter one level at exact coordinates; `face` is the cube face. A coordinate whose tap lies beyond FP32 samples open values. -/
def sampleLevel (p : Party) (t : TexDesc) (k : Nat) (linear : Bool) (face : Nat) (modes : List Nat) (us : List (Int × Nat))
    (s : State) : Except TexStop (List Nat) × State :=
  let size (a : Nat) : Nat := levelSize k ([t.w, t.h, t.d].getD a 1)
  let taps (a : Nat) : List (Int × Nat) := match us[a]? with
    | some u => axisTaps linear u (size a)
    | none => [(0, 65536)]
  let at' (a : Nat) (i : Int) : Option Nat := if a < us.length then wrapIndex (modes.getD a 2) (size a) i else some 0
  let all := ((taps 2).map fun c => ((taps 1).map fun b => (taps 0).map fun a =>
    ((match at' 0 a.1, at' 1 b.1, at' 2 c.1 with
      | some x, some y, some z => some (x, y, if t.type = 3 then face else z)
      | _, _, _ => none), a.2 * b.2 * c.2)).flatten).flatten
  if all.isEmpty then openTexel s
  else match sumTaps p t k all (List.replicate 4 (.fin true 0 0)) s with
  | (.ok v, s) => (.ok (v.map (f32Fmt.round .rn)), s)
  | (.error e, s) => (.error e, s)

/-! ## Cube faces (R355; log 39) -/

def neg' (u : Int × Nat) : Int × Nat := (-u.1, u.2)

/-- a / |m| / 2 + 1/2, exactly. -/
def faceCoord (a m : Int × Nat) : Int × Nat :=
  let num := a.1 * (m.2 : Int)
  let den := m.1.natAbs * a.2
  (num + (den : Int), 2 * den)

/-- |a| at least |b|. -/
def magGe (a b : Int × Nat) : Bool := b.1.natAbs * a.2 ≤ a.1.natAbs * b.2

/-- Face and face coordinates; none where every coordinate is zero. -/
def cubeFace (x y z : Int × Nat) : Option (Nat × List (Int × Nat)) :=
  let pick (face : Nat) (m s t : Int × Nat) : Option (Nat × List (Int × Nat)) := some (face, [faceCoord s m, faceCoord t m])
  if x.1 = 0 && y.1 = 0 && z.1 = 0 then none
  else if magGe x y && magGe x z then (if 0 < x.1 then pick 0 x (neg' z) (neg' y) else pick 1 x z (neg' y))
  else if magGe y z then (if 0 < y.1 then pick 2 y x z else pick 3 y x (neg' z))
  else (if 0 < z.1 then pick 4 z x (neg' y) else pick 5 z (neg' x) (neg' y))

/-! ## Levels (R355) -/

def f32sub (a b : Nat) : Nat := f32Fmt.addR .rn a (Nat.xor b 0x80000000)

/-- Word k of a lane's coordinates. -/
def Slot.word (x : Slot) (k : Nat) : Nat := nbits x.data.toNat (32 * k + 31) (32 * k)

/-- Coordinates of an image: one for 1D, two for 2D, three for 3D and cube. -/
def TexDesc.axes (t : TexDesc) : Nat := match t.type with
  | 0 => 1
  | 1 => 2
  | _ => 3

/-- The largest magnitude of the quad's differences, scaled by the level-0 size; NaN where one is. -/
def quadRho (t : TexDesc) (l0 l1 l2 : Slot) : Nat :=
  let size (a : Nat) : Nat := if t.type = 3 then t.w else [t.w, t.h, t.d].getD a 1
  let diff (x : Slot) (a : Nat) : Nat :=
    f32Fmt.mulR .rn (f32sub (x.word a) (l0.word a)) (f32Fmt.round .rn (.fin false (size a) 0)) % 2 ^ 31
  let ds := ((List.range t.axes).map fun a => [diff l1 a, diff l2 a]).flatten
  if ds.any f32Fmt.isNan then f32Fmt.nan else ds.foldl max 0

/-- λ of a lane as an FP32 code, clamped to 0 to lm1; a NaN counts as 0. -/
def texLambda (t : TexDesc) (lod : Bool) (slots : List Slot) (x : Slot) : Nat :=
  let c := x.tag.toNat
  let lane (k : Nat) : Option Slot := slots.find? fun y => y.lane == x.lane / 4 * 4 + k
  let l := if lod then c
    else match lane 0, lane 1, lane 2, lane 3 with
      | some a, some b, some d, some _ => f32Fmt.addR .rn (log232 (quadRho t a b d)) c
      | _, _, _, _ => c
  let top := f32Fmt.round .rn (.fin false t.lm1 0)
  if f32Fmt.isNan l || !f32Fmt.holds .gt l 0 then 0 else if f32Fmt.holds .gt l top then top else l

/-- Levels and the weight of the upper one in units of 1/256: mip 0, 1, 2. -/
def texLevels (t : TexDesc) (lambda : Nat) : Nat × Option (Nat × Nat) :=
  match coordOf lambda with
  | none => (0, none)
  | some (a, b) =>
    let n := a.toNat
    match t.mip with
    | 0 => (0, none)
    | 1 => ((2 * n + b) / (2 * b), none)
    | _ => (n / b, some (min (n / b + 1) t.lm1, n % b * 256 / b))

/-- (1 − f) × lo + f × hi, rounded once per channel. -/
def blend (f : Nat) (lo hi : List Nat) : List Nat :=
  List.zipWith (fun a b => f32Fmt.round .rn (Num.add false (Num.mul (.fin false (256 - f) (-8)) (f32Fmt.value a))
    (Num.mul (.fin false f (-8)) (f32Fmt.value b)))) lo hi

/-! ## Samples -/

/-- Coordinates of a lane on the axes used; none where one is not finite. -/
def laneCoords (n : Nat) (x : Slot) : Option (List (Int × Nat)) := (List.range n).mapM fun k => coordOf (x.word k)

/-- TEX of one lane. -/
def texLane (p : Party) (t : TexDesc) (lod : Bool) (slots : List Slot) (x : Slot) (s : State) : Except TexStop (List Nat) × State :=
  let lambda := texLambda t lod slots x
  let linear := if f32Fmt.holds .gt lambda 0 then t.min else t.mag
  let place := match laneCoords t.axes x with
    | none => none
    | some us => if t.type = 3 then cubeFace (us.getD 0 (0, 1)) (us.getD 1 (0, 1)) (us.getD 2 (0, 1)) else some (0, us)
  match place with
  | none => openTexel s
  | some (face, us) =>
    let modes := if t.type = 3 then [2, 2] else t.modes
    match texLevels t lambda with
    | (k, none) => sampleLevel p t k linear face modes us s
    | (k, some (j, f)) => match sampleLevel p t k linear face modes us s with
      | (.ok lo, s) => (match sampleLevel p t j linear face modes us s with
        | (.ok hi, s) => (.ok (blend f lo hi), s)
        | (.error e, s) => (.error e, s))
      | (.error e, s) => (.error e, s)

/-- TEXV of one lane: level 0, of which D takes channel r; `.nearest` gives the texel itself (R211, R356). -/
def texvLane (p : Party) (t : TexDesc) (tri : Bool) (x : Slot) (s : State) : Except TexStop (List Nat) × State :=
  match laneCoords 3 x with
  | none => openTexel s
  | some us =>
    if tri then sampleLevel p t 0 true 0 t.modes us s
    else
      let at' (a : Nat) : Option Nat :=
        let u := us.getD a (0, 1)
        let size := [t.w, t.h, t.d].getD a 1
        wrapIndex (t.modes.getD a 2) size (u.1 * size / (u.2 : Int))
      match at' 0, at' 1, at' 2 with
      | some i, some j, some k => texel p t 0 i j k s
      | _, _, _ => (.ok [0, 0, 0, 0], s)

/-- TLD of one lane: 0.0 outside the image or level. -/
def tldLane (p : Party) (t : TexDesc) (x : Slot) (s : State) : Except TexStop (List Nat) × State :=
  let k := x.tag.toNat
  let size (a : Nat) : Nat := if t.type = 3 && a = 2 then 6 else levelSize k ([t.w, t.h, t.d].getD a 1)
  let c (a : Nat) : Nat := if a < t.axes then x.word a else 0
  if t.lm1 < k || (List.range t.axes).any fun a => decide (size a ≤ c a) then (.ok [0, 0, 0, 0], s)
  else texel p t k (c 0) (c 1) (c 2) s

def sampleLane (i : Instr) (p : Party) (t : TexDesc) (slots : List Slot) (x : Slot) (s : State) : Except TexStop (List Nat) × State :=
  match i with
  | .tex _ _ lod _ => texLane p t lod slots x s
  | .texv _ tri _ => texvLane p t tri x s
  | _ => tldLane p t x s

/-- Every lane's sample, in lane order: the first that stops ends it. -/
def sampleLanes (i : Instr) (p : Party) (t : TexDesc) (slots : List Slot) : List Slot → State →
    Except (Slot × TexStop) (List (Nat × Nat)) × State
  | [], s => (.ok [], s)
  | x :: xs, s =>
    match sampleLane i p t slots x s with
    | (.error e, s) => (.error (x, e), s)
    | (.ok cs, s) =>
      let v := joinRegs (fun k => .ofNat 32 (cs.getD k 0)) 0 4
      match sampleLanes i p t slots xs s with
      | (.ok vs, s) => (.ok ((x.lane, v) :: vs), s)
      | (.error e, s) => (.error e, s)

/-! ## Issue -/

/-- The operation enters the record: coordinates, C and the descriptor address. -/
def texIssue (x : Act) (s : State) : State :=
  let w := s.warp x.u
  let a := x.valB w x.first
  if !canonical a then x.trap x.first { cause := causeTranslation, addr := .ofNat 64 a } s
  else if a % 64 != 0 then x.trap x.first { cause := causeAlignment, addr := .ofNat 64 a } s
  else
    let slots : List Slot := x.act.map fun k => { lane := k, addr := 0, data := .ofNat 128 (x.valA w k), tag := .ofNat 64 (x.valC w k) }
    s.onWarp x.u fun w => (x.oweD w).addOp (x.op slots [.ofNat 32 a, .ofNat 32 (a / 2 ^ 32)])

/-! ## RESULT_WRITTEN -/

def isLate (i : Instr) : Bool :=
  match i with
  | .idiv .. | .irem .. | .rcp .. | .rsq .. | .sqrt .. | .exp2 .. | .log2 .. | .sin .. | .cos .. | .tanh .. => true
  | i => isTexture i || isQuery i

/-- A texture instruction samples: its destinations are written, or the instruction stops. -/
def textureDone (r : OpRef) (o : Op) (s : State) : State :=
  let w := s.warp r.warp
  let p := s.party w
  let va := o.pair 0
  let lane := (lanesOf o.lanes).headD 0
  let stop (lane : Nat) (e : TexStop) (s : State) : State := match e.2 with
    | .fail x => if canonical e.1 then opFail r lane 0 e.1 false 0 x s
      else opTrap r lane false { cause := causeTranslation, addr := .ofNat 64 e.1 } s
    | .poison => consume w.gang (poisonWhere s (p.sp.loc e.1)) (s.finishOp r)
    | .bytes _ => s
  match texRead p va 64 s with
  | (.error e, s) => stop lane e s
  | (.ok bs, s) =>
    let x := natOfBytes bs
    match texCheck o.ins x with
    | some t => opTrap r lane true t s
    | none => match sampleLanes o.ins p (TexDesc.ofNat x) o.slots o.slots s with
      | (.ok vs, s) => (s.onWarp r.warp (o.writeD vs)).finishOp r
      | (.error (y, e), s) => stop y.lane e s

/-- A late result may be written; a texture instruction reads memory once the warp's older accesses have been performed. -/
def resultReady (s : State) (r : OpRef) : Bool :=
  match s.opOf r with
  | none => false
  | some o =>
    let w := s.warp r.warp
    isLate o.ins && opReady s r o &&
      !(isTexture o.ins && w.ops.any fun p => decide (p.id < o.id) && isMemOp p.ins && !p.performed && !p.finished)

/-- What BARO.QUERY finds: 1 where the object's phase is not the one asked for (R161). -/
def queryResult (s : State) (w : Warp) (x : Slot) : Nat :=
  match scrTarget s w x.addr 32 with
  | some t => if (baroAt s w.gang t).phase.toNat = x.data.toNat then 0 else 1
  | none => 0

def resultDone (r : OpRef) (s : State) : State :=
  match s.opOf r with
  | none => s
  | some o =>
    let w := s.warp r.warp
    let found := if isQuery o.ins then o.slots.findSome? fun x => (scrTarget s w x.addr 32).filter fun t => scrBad s w.gang t 24 else none
    if isTexture o.ins then textureDone r o s
    else match found with
    | some t => consume w.gang (scrWhere s w.gang t) (s.finishOp r)
    | none =>
      let one (x : Slot) : Nat × Nat := (x.lane, if isQuery o.ins then queryResult s (s.warp r.warp) x
        else lateResult o.ins (x.data.toNat % 2 ^ 64) (x.data.toNat / 2 ^ 64))
      let vals := o.slots.map one
      let theirs := o.shadow.map one
      let write (w : Warp) : Warp :=
        let m := o.writeD vals w
        if theirs = [] && !m.diverged then m else m.withShadow (o.writeD (if theirs = [] then vals else theirs) w.asShadow) m.nextOp
      (s.onWarp r.warp write).finishOp r

/-! ## Meanings -/

def execTex (h : Hdr) (d : TexDim) (lod : Bool) (f : Ops) : State → Host.Outcome State Fault Refusal := issue (.tex h d lod f) texIssue
def execTexv (h : Hdr) (tri : Bool) (f : Ops) : State → Host.Outcome State Fault Refusal := issue (.texv h tri f) texIssue
def execTld (h : Hdr) (d : TexDim) (f : Ops) : State → Host.Outcome State Fault Refusal := issue (.tld h d f) texIssue
def execResultWritten (o : OpRef) (s : State) : Host.Outcome State Fault Refusal := event (resultReady s o) (resultDone o) s

end Sys2Proof.Machine
end

