-- ==== Sys2Proof/Machine/Host.lean ====
section
/-! DEFINITION. Host windows, peers, the management space, contexts, shootdowns, power and reset (R306, R307, R309, R362, R382, R399 to R413). -/

namespace Sys2Proof.Machine

/-! ## Requests from outside (R248, R273, R274, R298) -/

/-- Committed bytes, and whether some granule of them is poisoned, which no warp consumes and which is recorded (R363, R364). -/
def outsideRead (sp : Space) (va n : Nat) (s : State) : List Byte × Bool × State :=
  each (linePieces va n) (([] : List Byte), false, s) fun p acc =>
    let k := sp.loc p.1
    let (h, s) := reach k .read acc.2.2
    let s := match h with
      | .line => noticeL2 (granulesOf k p.2) s
      | .direct pa => if placeOf s pa = .peer then s else noticeMem k pa p.2 s
      | .fail _ => s
    (acc.1 ++ homeRead s none h k p.2, acc.2.1 || poisonedAt s none h k p.2, s.draw)

def outsideWrite (sp : Space) (va : Nat) (bs : List Byte) (s : State) : State :=
  (writeEngine { sp, gang := none, core := none, launch := 0 } va bs s).2

/-- A request reaches its bytes, waits, or is turned away. -/
def outside (i : Instr) (sp : Space) (a : Acc) (va n : Nat) (serve : State → State) (s : State) : State :=
  let refuse : State := { s with sent := s.sent ++ [refusal i] }
  if 2 ^ 60 < va + n then refuse
  else match outsideBad s sp a va n with
    | none => serve s
    | some (v, .notPresent) =>
      if fastFault s sp.asid then refuse else outsideWaits i sp v (if a = .write then 1 else 0) s
    | some (v, .migrating) => { s with waiters := s.waiters ++ [(0, sp.loc v, i)] }
    | some _ => refuse

/-! ## Host windows (R383, R406, R407) -/

/-- The lowest-numbered window that holds a BAR2 offset. -/
def windowAt (s : State) (o : Nat) : Option HostWindow :=
  (s.windows.find? fun e => e.2.valid && decide (e.2.baroff.toNat ≤ o / 65536) &&
    decide (o / 65536 < e.2.baroff.toNat + e.2.size.toNat)).map Prod.snd

/-- A window serves a request: of world 1, or over its IDE stream while its world is allowed (log 43). -/
def HostWindow.serves (w : HostWindow) (stream : Nat) (ideworld : Word) : Bool :=
  w.world = 1 || (decide (2 ≤ w.world.toNat) && ideworld.getLsbD w.world.toNat && w.stream != 0 && w.stream.toNat == stream)

/-- A host request already waits: the later ones stay behind it (R248). -/
def hostWaits (s : State) : Option (Word × Nat) :=
  (s.waiters.find? fun x => match x.2.2 with
    | .hostWindowWrite .. | .hostWindowRead .. => true
    | _ => false).map fun x => (x.1, x.2.1)

def hostRequest (i : Instr) (off stream n : Nat) (a : Acc) (serve : Space → Nat → State → State) (s : State) : State :=
  if !hostUp s then s
  else match hostWaits s with
  | some (b, k) => { s with waiters := s.waiters ++ [(b, k, i)] }
  | none =>
    match windowAt s off with
    | none => { s with sent := s.sent ++ [.hostUnsupported] }
    | some w =>
      let sp : Space := { world := w.world.toNat, asid := w.asid.toNat }
      let va := w.vabase.toNat + off - 65536 * w.baroff.toNat
      if !w.serves stream s.mgmt.ideworld then { s with sent := s.sent ++ [.hostAbort] }
      else outside i sp a va n (serve sp va) s

def hostWrites (off stream : Nat) (bs : List Byte) : State → State :=
  hostRequest (.hostWindowWrite off stream bs) off stream bs.length .write fun sp va s => outsideWrite sp va bs s

def hostReads (off stream len : Nat) : State → State :=
  hostRequest (.hostWindowRead (.window off) stream len) off stream len .read fun sp va s =>
    let (bs, poison, s) := outsideRead sp va len s
    { s with sent := s.sent ++ [.hostData bs poison] }

/-- A host's read through BAR0 returns a register, whatever mlock is; one that reaches none is unsupported (R399). -/
def hostReadsReg (off len : Nat) (s : State) : State :=
  if !hostUp s then s
  else match mgmtRead s off len with
    | some v => { s with sent := s.sent ++ [.hostData (bytesOfNat len v) false] }
    | none => { s with sent := s.sent ++ [.hostUnsupported] }

/-! ## Peers (R383, R409, R410) -/

/-- A peer's atomic on the committed line at its home slice (R154, R155, R248): the old value goes back, or poison and nothing is performed (R363). -/
def peerAtomic (o : AtomOp) (t : AtomTy) (data : QWord) (k : Nat) (s : State) : State :=
  let n := 4 * t.regs
  match reach k .write s with
  | (.fail _, s) => { s with sent := s.sent ++ [.peerError] }
  | (h, s) =>
    if poisonedAt s none h k n then { s with sent := s.sent ++ [.peerData (List.replicate n 0) true] }
    else
      let old := homeRead s none h k n
      let s := homeUpdate none h k (bytesOfNat n (atomNew o t (natOfBytes old) data.toNat)) s
      { s with sent := s.sent ++ [.peerData old false] }

/-- The request names a valid export of its own world, from a part of the domain, inside the export. -/
def peerOk (s : State) (r : PeerReq) : Bool :=
  let e : DomExport := Store.get {} s.exports r.exportNo
  let d := s.mgmt.domcfg.toNat
  d / 2 ^ 31 % 2 = 1 && decide (r.source ≤ nbits d 13 8) && r.source != d % 64 && e.valid &&
    decide (r.offset < 65536 * e.size.toNat) && e.world == r.world

def peerServed (r : PeerReq) (s : State) : State :=
  if 18 ≤ r.port || Store.get false s.deadPorts r.port then s
  else if !peerOk s r then { s with sent := s.sent ++ [.peerError] }
  else
    let e : DomExport := Store.get {} s.exports r.exportNo
    let sp : Space := { world := e.world.toNat, asid := e.asid.toNat }
    let va := e.base.toNat + r.offset
    match r.op with
    | .write bs => outside (.peerRequest r) sp .write va bs.length (fun s =>
        let s := outsideWrite sp va bs s
        { s with sent := s.sent ++ [.peerData [] false] }) s
    | .read n => outside (.peerRequest r) sp .read va n (fun s =>
        let (bs, poison, s) := outsideRead sp va n s
        { s with sent := s.sent ++ [.peerData bs poison] }) s
    | .atomic o t data => outside (.peerRequest r) sp .write va (4 * t.regs) (peerAtomic o t data (sp.loc va)) s

/-! ## Write-back and shootdown (R298, R306, R307, R405) -/

/-- The range of a shootdown. -/
structure Range where
  sp : Space
  va : Nat
  len : Nat
  deriving DecidableEq, Repr

def shootRange (s : State) : Range :=
  let m := s.mgmt
  { sp := { world := nbits m.sdasid.toNat 19 16, asid := m.sdasid.toNat % 65536 }, va := m.sdva.toNat / 65536 * 65536
    len := m.sdlen.toNat * 65536 }

def Range.holds (r : Range) (k : Nat) : Bool :=
  spaceOf k = r.sp && decide (r.va ≤ vaOf k) && decide (vaOf k < r.va + r.len)

/-- Step 5: TLB entries of the range. -/
def Range.hitsTlb (r : Range) (key : Nat) : Bool :=
  let lvl := key / 2 ^ 84 % 8
  let start := key % 2 ^ 60 * 2 ^ levelShift lvl
  spaceOf (key % 2 ^ 84) = r.sp && decide (start < r.va + r.len) && decide (r.va < start + 2 ^ levelShift lvl)

/-- The threads of a warp, and its operations, that wait on a page in migration walk again once a shootdown has covered it (R304). -/
def Warp.walkAgain (r : Range) (w : Warp) : Warp :=
  let covers (p : Nat) : Bool := r.holds (p * 65536)
  let thread (t : Thread) : Thread := match t.status with
    | .blocked (.migrating p) => if covers p then { t with status := .running } else t
    | _ => t
  { w with threads := w.threads.map thread, ops := w.ops.map fun o => { o with mig := o.mig.filter fun p => !covers p } }

/-- Requests from outside that wait on such a page are made again, ahead of what arrived after them. -/
def wakeCovered (r : Range) (s : State) : State :=
  let mine (x : Word × Nat × Instr) : Bool := x.1 == 0 && r.holds (x.2.1 / 65536 * 65536)
  { s with
    waiters := s.waiters.filter fun x => !mine x
    agenda := (s.waiters.filter mine).map (fun x => x.2.2) ++ s.agenda }

/-- The command processor's accesses that wait on such a page are made again (R304). -/
def payCovered (r : Range) (s : State) : State := payOwed (fun k => r.holds (k / 65536 * 65536)) s

/-- Steps 5 and 6: translations go; accesses that wait on mig walk again; the interrupt (R404). -/
def shootTlb (r : Range) (s : State) : State :=
  let free (t : Tri) : Tri := { t with mig := t.mig.filter fun p => !r.holds (p * 65536) }
  let s := { s with
    mem := { s.mem with tlb := Store.drop s.mem.tlb r.hitsTlb }
    warps := s.warps.map (Warp.walkAgain r)
    tris := s.tris.map free }
  interrupt 6 (payCovered r (wakeCovered r s))

/-- Steps 2 to 4: versions, committed lines and replicas, and what the cores hold. -/
def shootCaches (r : Range) (s : State) : State :=
  let gs := (s.gangs.filter fun g => g.version.any fun e => r.holds e.1).map fun g => g.uid
  let s := each gs s release
  let ls := (s.mem.lines.filter fun e => r.holds (e.1 * 128)).map Prod.fst
  let s := each ls s fun j s => dropLine j (writeBack j s)
  let core (c : CoreCache) : CoreCache :=
    { c with
      l1 := Store.drop c.l1 fun j => r.holds (4 * j)
      lines := Store.drop c.lines fun j => r.holds (128 * j)
      bank := Store.drop c.bank fun j => r.holds (128 * j)
      consts := Store.drop c.consts r.holds
      code := Store.drop c.code r.holds }
  { s with
    caches := (s.caches.map fun c => (c.1, core c.2)).filter fun c => c.2 != {}
    mem := { s.mem with replicas := s.mem.replicas.filter fun x => !r.holds (x.line * 128) } }

def shootdown (mode1 : Bool) (s : State) : State :=
  let r := shootRange s
  shootTlb r (if mode1 then shootCaches r s else s)

/-- A host snoop (R405): lines of the host line leave L2, dirty ones go to the host first, and no core owns a word of the host line any more, its line being in L2 or not; then the host writes its bytes (R248). -/
def snoop (pa : Nat) (bs : List Byte) (s : State) : State :=
  match placeOf s pa with
  | .host a =>
    let ls := (s.mem.lines.filter fun e => e.2.pa == pa / 128 * 128).map Prod.fst
    let owned := ((s.caches.map fun c => (c.2.l1.filter fun e => e.2.any fun w => w.owned).map fun e => e.1 / 32).flatten.eraseDups).filter
      fun j => match (translate (128 * j) .read false s).1 with
        | .ok p _ => p / 128 == pa / 128
        | _ => false
    let s := each ls s fun j s => dropLine j (writeBack j s)
    let s := each (ls ++ owned) s fun j s => revoke none (j * 128) 128 s
    { s with mem := s.mem.writeHost a bs }
  | _ => s

/-! ## Contexts (R402, R403) -/

/-- Registering a context: its ASID is free and no reserved bit is set. The new context has issued no handle and taken no record (R178, R253, R258). -/
def registerCtx (slot : Nat) (v : Word) (s : State) : State :=
  let asid : BitVec 16 := v.setWidth 16
  let taken := s.ctxs.any fun c => c.1 != slot && c.2.valid && c.2.asid == asid
  if (s.ctx slot).valid then s
  else if taken then setCtxst slot 1 s
  else if nbits v.toNat 30 20 != 0 then setCtxst slot 2 s
  else
    let anew (q : Nat × LaunchQueue) : Nat × LaunchQueue := (q.1, { q.2 with taken := 0, keeper := 0 })
    setCtxst slot 0 (s.onCtx slot fun c =>
      { c with
        valid := true, killed := false, asid, world := .ofNat 4 (nbits v.toNat 19 16)
        residencies := [], queues := c.queues.map anew })

/-- Destroying a context: its launches end with status 3, its residencies as under RES.REVOKE, its tag entries go, its queues stop. -/
def destroyCtx (slot : Nat) (s : State) : State :=
  if !(s.ctx slot).valid then s
  else
    let s := killContext slot s
    let c := s.ctx slot
    let s := each ((c.residencies.filter fun r => r.2.live).map fun r => (slot, r.1)) s endRes
    let mine (t : TagEntry) : Bool := t.world == c.world.toNat && t.asid == c.asid.toNat
    let stop (q : Nat × LaunchQueue) : Nat × LaunchQueue := (q.1, { q.2 with stopped := true })
    let s := s.onCtx slot fun c =>
      { c with
        valid := false, killed := false, resTags := [], cutTags := []
        queues := c.queues.map stop, graph := none, raster := none, bins := [] }
    let ours (x : Nat × Owed) : Bool := match x.2 with
      | .bytes k .. => k == slot
      | .completion k .. => k == slot
    (({ s with launches := s.launches.filter (fun l => l.slot != slot), owed := s.owed.filter fun x => !ours x } : State)).onTags (fun t => !mine t) id

/-! ## Power (R413) -/

def setThermst (v : Word) (s : State) : State :=
  if s.mgmt.thermst = v then s else interrupt 7 { s with mgmt := { s.mgmt with thermst := v } }

/-- A measurement: at 115 °C the part halts, and stays so until a reset; above pmax, or from 105 °C on, budgets are halved. -/
def measured (pwr tcool tjct : Word) (s : State) : State :=
  let s := { s with mgmt := { s.mgmt with pwr, tcool, tjct } }
  if s.mgmt.thermst = 2 then s
  else if 115 ≤ tjct.toNat then haltPart (setThermst 2 s)
  else if s.mgmt.pmax.toNat < pwr.toNat || 105 ≤ tjct.toNat then setThermst 1 s
  else setThermst 0 s

/-! ## Boot (R377, R382, R412) -/

def setBootst (v : Word) (s : State) : State :=
  if s.mgmt.bootst = v then s else interrupt 7 { s with mgmt := { s.mgmt with bootst := v } }

/-- The boot ROM's launch: a root launch of one warp in world 0 and in no context's slot; what it asks for is the model's (log 4). -/
def romLaunch (uid : Nat) : Launch :=
  { uid, id := 0, slot := 256, queue := none, rom := true, asid := 0, len := 0xFFFFFFFC
    roles := [{ entry := 0, prio := 0, nu := 256, nv := 64, valid := true }]
    record := { root := true, uregs := 256, vregs := 64, scratch := 65536, seed := 1 } }

/-- The retirement list names a unit the root needs (R375). -/
def rootRetired (s : State) : Bool :=
  s.retire.any fun e =>
    let loc := e.1 % 2 ^ 28
    (e.1 / 2 ^ 28 = 0 && loc == 31) || (e.1 / 2 ^ 28 = 1 && decide (28 ≤ loc) && decide (loc < 32)) ||
      (e.1 / 2 ^ 28 = 0 && (List.range 32).all fun p => Store.get false s.retire p)

/-- Units the list takes out: partitions, and banks of a core all of whose partitions and banks are listed (R374). -/
def absentUnits (s : State) : Store Bool :=
  let core (c : Nat) : Bool := (List.range 32).all fun p => Store.get false s.retire (c * 32 + p)
  each s.retire [] fun e m =>
    let loc := e.1 % 2 ^ 28
    if e.1 / 2 ^ 28 = 0 then
      let m := Store.put false m loc true
      if core (loc / 32) then Store.put false m (2 ^ 15 + loc / 32 * 32 + loc % 32) true else m
    else if e.1 / 2 ^ 28 = 1 then Store.put false m (2 ^ 15 + loc) true
    else m

/-- Some ranges without `size` bytes from the `off`-th of their bytes on. -/
def cutBytes (off size : Nat) : List (Nat × Nat) → List (Nat × Nat)
  | [] => []
  | r :: rs =>
    let lo := min off r.2
    let hi := min (off + size) r.2
    (([(r.1, lo), (r.1 + hi, r.2 - hi)] : List (Nat × Nat)).filter fun x => x.2 != 0) ++ cutBytes (off - lo) (size - (hi - lo)) rs

/-- The ranges of a tier that stay populated: each retired channel takes its share of the tier, in whole pages, as a hole whose place is free (R3, R301, R374; log 40). -/
def tierLeft (s : State) (ltype channels : Nat) (tier : Nat × Nat) : List (Nat × Nat) :=
  let size := tier.2 / channels / 65536 * 65536
  each (s.retire.filter fun e => e.1 / 2 ^ 28 == ltype) [tier] fun e m =>
    let left := (m.map Prod.snd).sum
    cutBytes (Config.channelHole e.1 % ((left - size) / 65536 + 1) * 65536) size m

/-- What stays populated of HBM4E and of LPDDR6. -/
def populated (s : State) : List (Nat × Nat) :=
  tierLeft s 3 768 (0, 0x8000000000) ++ tierLeft s 4 16 (0x10000000000, 0x10000000000)

/-- Ports with more than four lanes on the list (R374). -/
def deadAtBoot (s : State) : Store Bool :=
  each (List.range 18) [] fun p m =>
    let n := ((List.range 8).filter fun l => Store.get false s.retire (5 * 2 ^ 28 + p * 8 + l)).length
    if 4 < n then Store.put false m p true else m

/-- Reset: the retirement list, memory outside and DRAM's ciphertext stay; keys are drawn anew, units scrubbed, the list applied; then the boot ROM runs (R377, R382, R412). -/
def partReset (s : State) : State :=
  let mem : Mem := { dram := s.mem.dram, lineKey := s.mem.lineKey, poisonDram := s.mem.poisonDram, host := s.mem.host }
  let s : State := { State.reset with
    agenda := s.agenda
    draws := s.draws + 1
    retire := s.retire
    rekeys := s.rekeys.map (· + 1)
    absent := absentUnits s
    deadPorts := deadAtBoot s
    pamap := populated s
    sent := s.sent
    mem
    bootScrubbed := true }
  if rootRetired s then haltPart (setBootst 3 s)
  else
    let l := romLaunch s.nextLaunch
    setBootst 1 { s with launches := [l], nextLaunch := s.nextLaunch + 1 }

/-- What the boot ROM, or root firmware, extends register i with; a register it has extended by its own instructions stays (R388; log 18). -/
def bootExtend (i : Nat) (s : State) : State :=
  if s.measure.getD i 0 != 0 then s
  else extend i (measureBytes (Config.bootDigest i (if i = 0 then 0 else s.draws))) s

/-- Root firmware starts: it extends m3 and writes the part's chain into slot 0 (R394, R412; log 17). -/
def firmwareStarts (s : State) : State :=
  let chain := (List.range (Config.chainLength % 65537)).map Config.chainByte
  let s := bootExtend 3 (setBootst 2 s)
  { s with certs := mapAt (fun c => c.take chain) s.certs 0 }

/-- The boot ROM's launch has ended, with m0 extended: root firmware runs if its signature holds, with m1 and m2 extended before it (R388, R412; log 18). -/
def bootNext (u : Nat) (rom : Bool) (s : State) : State :=
  if rom && s.mgmt.bootst = 1 && (s.launch u).state = .ended 0 then
    let s := bootExtend 0 s
    if Config.imageAuthentic s.draws then (firmwareStarts (bootExtend 2 (bootExtend 1 s))).draw
    else haltPart (setBootst 4 s.draw)
  else s

def completeLaunch (u : Nat) (s : State) : State := bootNext u (s.launch u).rom (launchEnds u s)

/-! ## Management writes (R7, R399 to R402, R404, R407, R409) -/

/-- The event a write causes is performed next. -/
def causes (i : Instr) (s : State) : State := { s with agenda := i :: s.agenda }

def State.onMgmt (s : State) (f : Mgmt → Mgmt) : State := { s with mgmt := f s.mgmt }

def clampW (lo hi v : Nat) : Word := .ofNat 32 (max lo (min hi v))

/-- Only bits `hi` to `lo` of a value are kept: reserved bits are ignored (R7). -/
def field (v hi lo : Nat) : Nat := nbits v hi lo * 2 ^ lo

/-- A write of a context slot's register (R402, R403). -/
def writeSlotReg (slot o v : Nat) (s : State) : State :=
  let c := s.ctx slot
  let put (f : Ctx → Ctx) : State := s.onCtx slot f
  if o = 0x00 then
    (if !c.valid && nbits v 31 31 = 1 then causes (.ctxidRegister slot (.ofNat 32 v)) s
     else if c.valid && nbits v 31 31 = 0 then causes (.ctxidDestroy slot) s
     else if c.valid then s
     else put fun c => { c with asid := .ofNat 16 v, world := .ofNat 4 (nbits v 19 16) })
  else if o = 0x08 then put fun c => { c with ptroot := .ofNat 64 v }
  else if o = 0x10 then put fun c => { c with savebase := .ofNat 64 v }
  else if o = 0x18 then put fun c => { c with savesize := .ofNat 32 v }
  else if o = 0x20 then causes (.graphbaseWrite slot (.ofNat 64 v)) s
  else if o = 0x28 then causes (.gfopenWrite slot (.ofNat 32 v)) s
  else if o = 0x30 then causes (.rastbaseWrite slot (.ofNat 64 v)) s
  else if o = 0x38 then put fun c => { c with resq := .ofNat 32 v }
  else if 0x40 ≤ o && o < 0xC0 then causes (.qdescWrite slot ((o - 0x40) / 8) (.ofNat 64 v)) s
  else s

/-- A write of a cluster's register (R264, R266, R287, R344). -/
def writeCluster (c o v : Nat) (s : State) : State :=
  s.onCluster c fun x => match o / 8 with
    | 0 => { x with sepa := .ofNat 32 v }
    | 1 => { x with plim := .ofNat 16 v }
    | 2 => { x with hbudget := clampW 16 4095 (v % 2 ^ 32) }
    | 3 => { x with wklim := .ofNat 32 v }
    | 4 => { x with cklim := .ofNat 32 v }
    | 5 => { x with qklim := .ofNat 32 v }
    | _ => x

/-- A write of a key slot's range: ignored while the slot holds a key (R384). -/
def writeKeyRange (k o v : Nat) (s : State) : State :=
  let f (x : KeySlot) : KeySlot :=
    if x.key.isSome then x
    else match o / 8 with
      | 0 => { x with skbase := .ofNat 64 v }
      | 1 => { x with sklen := .ofNat 32 (min (v % 2 ^ 32) (2 ^ 24)) }
      | 2 => { x with sktab := .ofNat 64 v }
      | _ => x
  { s with keySlots := mapAt f s.keySlots k }

def HostWindow.ofNat (x : Nat) : HostWindow :=
  { vabase := .ofNat 64 (x / 2 ^ 192), size := .ofNat 24 (x / 2 ^ 160), baroff := .ofNat 24 (x / 2 ^ 136)
    asid := .ofNat 16 (x / 2 ^ 120), world := .ofNat 4 (x / 2 ^ 116), stream := .ofNat 8 (x / 2 ^ 108), valid := nbits x 0 0 == 1 }

def DomExport.ofNat (x : Nat) : DomExport :=
  { base := .ofNat 64 (x / 2 ^ 192), size := .ofNat 24 (x / 2 ^ 160), asid := .ofNat 16 (x / 2 ^ 144)
    world := .ofNat 4 (x / 2 ^ 140), valid := nbits x 0 0 == 1 }

/-- Register `q` of a descriptor of four registers takes a value. -/
def splice (x q v : Nat) : Nat := x - nbits x (64 * q + 63) (64 * q) * 2 ^ (64 * q) + v % 2 ^ 64 * 2 ^ (64 * q)

def writePort (p o v : Nat) (s : State) : State :=
  let f (x : EthPort) : EthPort := match o / 8 with
    | 0 => { x with mac := .ofNat 64 (v % 2 ^ 48) }
    | 1 => { x with nh := .ofNat 64 (v % 2 ^ 48) }
    | 2 => { x with ip := .ofNat 128 (x.ip.toNat / 2 ^ 64 * 2 ^ 64 + v) }
    | 3 => { x with ip := .ofNat 128 (x.ip.toNat % 2 ^ 64 + v * 2 ^ 64) }
    | _ => x
  { s with ports := mapAt f s.ports p }

/-- A write of a single register of the part, by offset. A register the part writes ignores it. -/
def writePart (o v : Nat) (s : State) : State :=
  let w : Word := .ofNat 32 v
  let d : DWord := .ofNat 64 v
  match o with
  | 0x8000 => causes (.intstClear w) s
  | 0x8008 => s.onMgmt fun m => { m with intmask := .ofNat 8 v }
  | 0xC000 => s.onMgmt fun m => { m with fqbase := .ofNat 64 (v / 4096 * 4096) }
  | 0xC008 => let s := s.onMgmt fun m => { m with fqlogn := w }
              flushBatches s.batches s
  | 0xC018 => causes (.fqheadWrite w) s
  | 0xC020 => causes (if nbits v 32 32 = 1 then .fqreplyRefuse w else .fqreplyRetry w) s
  | 0xC028 => s.onMgmt fun m => { m with ffast := w }
  | 0xC040 => s.onMgmt fun m => { m with erbase := .ofNat 64 (v / 4096 * 4096) }
  | 0xC048 => let s := s.onMgmt fun m => { m with erlogn := w }
              flushErrs s.pendingErrs.length s
  | 0xC058 => causes (.erheadWrite w) s
  | 0xC060 => if v = 0 then s.onMgmt fun m => { m with erovf := 0 } else s
  | 0xC068 => s.onMgmt fun m => { m with cethr := w }
  | 0xC070 => s.onMgmt fun m => { m with patrol := w }
  | 0xC080 => s.onMgmt fun m => { m with hqbase := .ofNat 64 (v / 4096 * 4096) }
  | 0xC088 => s.onMgmt fun m => { m with hqlogn := w }
  | 0xC090 => causes (.hqclr w) s
  | 0xC098 => s.onMgmt fun m => { m with hthr0 := .ofNat 32 (field v 7 0) }
  | 0xC0A0 => s.onMgmt fun m => { m with hthr1 := .ofNat 32 (field v 7 0) }
  | 0xC0C0 => s.onMgmt fun m => { m with sdasid := .ofNat 32 (field v 19 0) }
  | 0xC0C8 => s.onMgmt fun m => { m with sdva := d }
  | 0xC0D0 => s.onMgmt fun m => { m with sdlen := w }
  | 0xC0D8 => if nbits v 0 0 = 0 then s else causes (if nbits v 1 1 = 1 then .shootdownMode1 else .shootdownMode0) s
  | 0xC100 => causes (.wrekey (.ofNat 32 (field v 3 0))) s
  | 0xC110 => s.onMgmt fun m => { m with wpol := .ofNat 32 (field v 15 2) }
  | 0xC118 => s.onMgmt fun m => { m with gidle := w }
  | 0xC120 => s.onMgmt fun m => { m with ideworld := .ofNat 32 (field v 15 2) }
  | 0xC140 => if nbits v 0 0 = 1 && s.mgmt.mlock = 0 then setBootst 5 (s.onMgmt fun m => { m with mlock := 1 }) else s
  | 0xC150 => if s.mgmt.domWritten then s
              else s.onMgmt fun m => { m with domWritten := true, domcfg := .ofNat 32 (field v 5 0 + field v 13 8 + field v 31 31) }
  | 0xC158 => causes (.evictWrite w) s
  | 0xC160 => s.onMgmt fun m => { m with spdmbox := .ofNat 64 (field v 59 12 + field v 7 0) }
  | 0xC178 => causes (.dbgctlResume w) s
  | 0xC180 => s.onMgmt fun m => { m with pmax := clampW 1000 2300 (v % 2 ^ 32) }
  | 0xC1A8 => causes (.retadd w) s
  | 0xC1B0 => causes (.retdel w) s
  | 0xC1B8 => s.onMgmt fun m => { m with rlsel := .ofNat 64 (field v 51 0 + field v 63 63) }
  | _ => s

/-- A write of the register at an offset that is a multiple of 8. -/
def writeReg (o v : Nat) (s : State) : State :=
  if o < 0x8000 then causes (.qbell (o / 128) (o % 128 / 8)) s
  else if 0xC200 ≤ o && o < 0xC280 then writePort ((o - 0xC200) / 0x40) ((o - 0xC200) % 0x40) v s
  else if o < 0x10000 then writePart o v s
  else if 0x10000 ≤ o && o < 0x14000 then writeCluster ((o - 0x10000) / 0x1000) (o % 0x1000) v s
  else if 0x20020 ≤ o && o < 0x20200 then writeKeyRange ((o - 0x20000) / 0x20) (o % 0x20) v s
  else if 0x30000 ≤ o && o < 0x30200 then
    let i := (o - 0x30000) / 32
    { s with exports := Store.put {} s.exports i (.ofNat (splice (Store.get {} s.exports i).bits (o % 32 / 8) v)) }
  else if 0x40000 ≤ o && o < 0x40800 then
    let i := (o - 0x40000) / 32
    { s with windows := Store.put {} s.windows i (.ofNat (splice (Store.get {} s.windows i).bits (o % 32 / 8) v)) }
  else if 0x100000 ≤ o && o < 0x140000 then writeSlotReg ((o - 0x100000) / 0x400) (o % 0x400) v s
  else s

/-- The value a register of 8 bytes takes when `size` bytes at `off` are written: the other half of a 64-bit register stays. -/
def merged (s : State) (off size v : Nat) : Nat :=
  let old := (mgmtReg s (off / 8 * 8)).getD 0
  if size = 8 then v
  else if off % 8 = 0 then old / 2 ^ 32 * 2 ^ 32 + v % 2 ^ 32
  else old % 2 ^ 32 + v % 2 ^ 32 * 2 ^ 32

/-- Registers of 64 bits; any other uses its low 4 bytes, and a write of the high 4 does nothing (R399). -/
def wideReg (o : Nat) : Bool :=
  [0xC000, 0xC020, 0xC040, 0xC080, 0xC0C8, 0xC160, 0xC1B8].contains o || (decide (0xC200 ≤ o) && decide (o < 0xC280)) ||
    (decide (0x20000 ≤ o) && decide (o < 0x20200) && o % 0x20 != 8) || (decide (0x30000 ≤ o) && decide (o < 0x50000)) ||
    (decide (0x100000 ≤ o) && [0x08, 0x10, 0x20, 0x30].contains (o % 0x400)) ||
    (decide (0x100000 ≤ o) && decide (0x40 ≤ o % 0x400) && decide (o % 0x400 < 0xC0))

/-- A management write (R399): the lock, the sizes, then the register. -/
def registerWrite (host : Bool) (off size : Nat) (v : DWord) (s : State) : State :=
  if host && !hostUp s then s
  else if (mgmtRead s off size).isNone then (if host then { s with sent := s.sent ++ [.hostUnsupported] } else s)
  else if host && s.mgmt.mlock.getLsbD 0 && 0x8010 ≤ off then s
  else if off % 8 = 4 && !wideReg (off - 4) then s
  else writeReg (off / 8 * 8) (merged s off size v.toNat) s

/-- A write of 1 clears ovf and lost of the notice queue (R309). -/
def clearNotices (v : Word) (s : State) : State :=
  if v = 1 then dramWrite 0 (s.mgmt.hqbase.toNat / 4096 * 4096 + 8) (bytesOfNat 8 0) s else s

/-! ## Meanings -/

def execHostWindowWrite (off stream : Nat) (bytes : List Byte) (s : State) : Host.Outcome State Fault Refusal :=
  .next (hostWrites off stream bytes s)
/-- A host's read, through BAR2's windows or of a register through BAR0 (R399, R407). -/
def execHostWindowRead (place : HostPlace) (stream len : Nat) (s : State) : Host.Outcome State Fault Refusal :=
  .next (match place with
    | .register off => hostReadsReg off len s
    | .window off => hostReads off stream len s)
def execCxlSnoop (pa : Nat) (bytes : List Byte) (s : State) : Host.Outcome State Fault Refusal := .next (snoop pa bytes s)
def execPeerRequest (r : PeerReq) (s : State) : Host.Outcome State Fault Refusal := .next (peerServed r s)
def execPowerMeasurement (pwr tcool tjct : Word) (s : State) : Host.Outcome State Fault Refusal := .next (measured pwr tcool tjct s)
def execHqclr (v : Word) (s : State) : Host.Outcome State Fault Refusal := .next (clearNotices v s)
def execCtxidRegister (slot : Nat) (v : Word) (s : State) : Host.Outcome State Fault Refusal :=
  event (decide (slot < 256)) (registerCtx slot v) s
def execCtxidDestroy (slot : Nat) (s : State) : Host.Outcome State Fault Refusal := event (decide (slot < 256)) (destroyCtx slot) s
/-- A write of 1 clears a bit of intst (R404). -/
def execIntstClear (v : Word) (s : State) : Host.Outcome State Fault Refusal :=
  .next (s.onMgmt fun m => { m with intst := m.intst &&& ~~~(v.setWidth 8) })
def execRegisterWrite (host : Bool) (off size : Nat) (v : DWord) (s : State) : Host.Outcome State Fault Refusal :=
  .next (registerWrite host off size v s)
def execPartReset (s : State) : Host.Outcome State Fault Refusal := .next (partReset s)
def execShootdownMode0 (s : State) : Host.Outcome State Fault Refusal := .next (shootdown false s)
def execShootdownMode1 (s : State) : Host.Outcome State Fault Refusal := .next (shootdown true s)
def execLaunchComplete (u : Nat) (s : State) : Host.Outcome State Fault Refusal := eventUnmoved (launchDone s u) (completeLaunch u) s

end Sys2Proof.Machine
end

