-- ==== Sys2Proof/Machine/Stages.lean ====
section
/-! DEFINITION. Stage-graph instructions and the events of the stage scheduler and of received frames (R203 to R207, R320, R322, R326, R336 to R342). -/

namespace Sys2Proof.Machine

/-! ## EMIT (R203, R204, R322) -/

/-- An edge is an output of the stage of a wave and neither the skim nor the bin edge (R347); a predictor wave has one, the edge it predicts for. -/
def waveOutput (s : State) (l : Launch) (v : Wave) (e : Nat) : Bool :=
  let x := s.edge l.slot e
  let fixed := match (s.ctx l.slot).raster with
    | some r => e == r.skim || e == r.bin
    | none => false
  x.valid && !fixed && (if v.pred then v.edge == some e else x.source == v.stage)

def noEdge : TrapInfo := { cause := causeBounds }

def emitIssue (x : Act) (s : State) : State :=
  let w := s.warp x.u
  let l := s.warpLaunch w
  let e := x.valA w x.first
  match l.wave.filter fun v => waveOutput s l v e with
  | none => x.trap x.first noEdge s
  | some _ =>
    let slots : List Slot := x.act.map fun k => { lane := k, addr := x.valB w k, data := .ofNat 128 (x.valC w k) }
    match addrCheck s w false ((s.edge l.slot e).size - 16) 16 slots with
    | some (k, t) => x.trap k t s
    | none => (takeSeqs x.u x.act s).addOp x.u (x.op (tagged s w slots) [.ofNat 32 e])

/-- The next lane's record of an EMIT can be accepted: its ring, with the records held back for it, and its tag window have room, the lane's older accesses have been performed (R236: same word, same thread), and older EMITs of the warp to the edge are done. -/
def emitReady (s : State) (r : OpRef) (o : Op) : Bool :=
    let w := s.warp r.warp
    let l := s.warpLaunch w
    let e := (o.regs.getD 0 0).toNat
    let x := s.edge l.slot e
    tagRoom 1024 x.tags 1 && !w.pendingMem ((o.slots[o.recs]?).toList.map fun y => y.lane) o.id &&
      !(w.ops.any fun p => isEmit p.ins && !p.finished && decide (p.id < o.id) && p.regs == o.regs) &&
      (match l.wave with
      | some v => v.pred || (s.graph l.slot).remote e v.frame || decide (x.occupied + (s.graph l.slot).heldLocal e < x.cap.toNat)
      | none => true)

/-- The lane's record is done; the EMIT completes with its last. -/
def nextRecord (r : OpRef) (o : Op) (s : State) : State :=
  if o.slots.length ≤ o.recs + 1 then s.finishOp r else s.onOp r fun o => { o with recs := o.recs + 1 }

/-- The tag of a record stays at its edge (R284). -/
def edgeTag (slot e : Nat) (t : TagEntry) (s : State) : State :=
  let (win, gs) := tagPut s 1024 512 (s.edge slot e).tags { t with pinned := false }
  exposeGangs gs (s.onEdge slot e fun y => { y with tags := win })

/-- A predictor wave's record becomes a substitute (R335). -/
def predicted (slot e launch : Nat) (payload : List Byte) (s : State) : State :=
  let add (p : Predicting) : Predicting := if p.launch = some launch then { p with got := p.got ++ [payload] } else p
  s.onRx slot e fun x => { x with predicting := x.predicting.map add }

/-- The ring bytes that a local record would take next must be reachable: an EMIT meets their faults before the record is performed (R310). -/
def ringProbe (s : State) (slot e : Nat) (f : Word) : Option Stop × State :=
  let x := s.edge slot e
  let va := x.ring.toNat + (x.ringAt + (s.graph slot).heldLocal e) % x.cap.toNat * x.size
  if (s.graph slot).remote e f then (none, s)
  else match probeAll (s.ctx slot).space x.size .write ((pageStarts va x.size).map fun a => (0, a)) s with
    | (some (_, a, y), s) => (some (.page a 5 y), s)
    | (none, s) => (none, s)

/-- The next lane's record of an EMIT is performed. -/
def acceptEmit (r : OpRef) (o : Op) (s : State) : State :=
    let w := s.warp r.warp
    let l := s.warpLaunch w
    let e := (o.regs.getD 0 0).toNat
    match o.slots[o.recs]?, l.wave with
    | some x, some v =>
      let t := s.tagEntry w x.tag o.ins x.addr 0
      if (tagHit (s.edge l.slot e).tags t).isSome then nextRecord r o s
      else (match readScr s w x.addr ((s.edge l.slot e).size - 16) with
        | .poison => consume w.gang (scrWhere s w.gang ((scrTarget s w x.addr 1).getD (w.rank, 0))) s
        | .fail _ => nextRecord r o s
        | .bytes p =>
          if v.pred then nextRecord r o (edgeTag l.slot e t (predicted l.slot e l.uid p s))
          else if v.frame.toNat ≤ (s.stage l.slot v.stage).closed.toNat then
            opTrap r x.lane true { cause := causeBounds, info := .ofNat 32 e } s
          else match ringProbe s l.slot e v.frame with
            | (some stop, s) => engineStops r stop s
            | (none, s) => nextRecord r o (edgeTag l.slot e t (performRec l.slot e v.frame (.ofNat 32 x.data.toNat) p s)))
    | _, _ => s.finishOp r

/-! ## FRAME (R205) -/

/-- The buoy of a frame on an edge, then the records held for it (R204). -/
def buoyOut (slot e : Nat) (f : Word) (s : State) : State :=
  let s := decide64 slot e f s
  if (s.graph slot).waitsLocal e f then s.onEdge slot e fun x => { x with heldBuoys := x.heldBuoys ++ [f] } else
  let s := if (s.graph slot).remote e f then sendBuoy slot e f s else advance slot e (releaseBuoy slot e f s)
  let next (r : Rec) : Bool := r.frame = f + 1
  let held := (s.edge slot e).heldOut.filter next
  let s := s.onEdge slot e fun x => { x with heldOut := x.heldOut.filter fun r => !next r }
  each held s fun r s => sendRec slot e r s

/-- Outgoing edges of a stage. -/
def Graph.outputs (g : Graph) (st : Nat) : List Nat := (g.live.filter fun e => e.2.source == st).map fun e => e.1
def Graph.inputs (g : Graph) (st : Nat) : List Nat := (g.live.filter fun e => e.2.target == st).map fun e => e.1

/-- A stage closes a frame. -/
def closeStage (slot st : Nat) (f : Word) (s : State) : State :=
  let s := s.onStage slot st fun x => { x with closed := f }
  each ((s.graph slot).outputs st) s fun e s => buoyOut slot e f s

/-- The buoys of a frame go out under the FRAME's tag. -/
def frameCloses (slot st : Nat) (f : Word) (t : TagEntry) (s : State) : State :=
  if f.toNat ≤ (s.stage slot st).closed.toNat then s
  else each ((s.graph slot).outputs st) (closeStage slot st f s) fun e s => edgeTag slot e t s

/-- At FRAME f of the classification stage the bins of f become records (R352). -/
def flushStage (slot st : Nat) (f : Word) (s : State) : State :=
  match (s.ctx slot).raster with
  | some r => if (s.edge slot r.bin).valid && (s.edge slot r.bin).source == st then drainSlot slot (flushBins slot r (some f) s) else s
  | none => s

/-- FRAME closes at once, or stays in oc.edge while triangles and records of its frame are under way (R205, R350). -/
def frameIssue (x : Act) (s : State) : State :=
  let w := s.warp x.u
  let l := s.warpLaunch w
  let f : Word := .ofNat 32 (x.valA w x.first)
  match l.wave.filter fun v => !v.pred && decide (f.toNat ≤ (s.stage l.slot v.stage).closed.toNat + 1) with
  | none => x.trap x.first noEdge s
  | some v =>
    let tag := s.tag w x.first (w.seq x.first)
    let t := s.tagEntry w tag x.i 0 0
    let s := takeSeqs x.u x.act s
    let counted (s : State) : State := s.onWarp x.u fun w => w.addDone (x.op [] [])
    if f.toNat ≤ (s.stage l.slot v.stage).closed.toNat then counted s
    else
      let s := flushStage l.slot v.stage f s
      if stageBusy s l.slot v.stage f then s.addOp x.u (x.op [{ lane := x.first, addr := 0, tag }] [f])
      else frameCloses l.slot v.stage f t (counted s)

/-- A FRAME that waited goes on. -/
def acceptFrame (r : OpRef) (o : Op) (s : State) : State :=
  let w := s.warp r.warp
  let l := s.warpLaunch w
  match l.wave, o.slots with
  | some v, x :: _ => s.finishOp r |> frameCloses l.slot v.stage (o.regs.getD 0 0) (s.tagEntry w x.tag o.ins 0 0)
  | _, _ => s.finishOp r

/-- An EMIT or a FRAME of a placed warp that its edge can take. -/
def acceptReady (s : State) (r : OpRef) : Bool :=
  match s.opOf r with
  | none => false
  | some o =>
    let w := s.warp r.warp
    let l := s.warpLaunch w
    !o.finished && !w.stopped && !w.retired && !w.holdsRequest o && (s.gang w.gang).state = .placed && o.state != .faulted && o.mig = [] &&
        scoutDecided s r o && (match o.ins with
      | .emit .. => emitReady s r o
      | .frame .. => !stageBusy s l.slot ((l.wave.map fun v => v.stage).getD 0) (o.regs.getD 0 0)
      | _ => false)

def acceptRecord (r : OpRef) (s : State) : State :=
  match s.opOf r with
  | none => s
  | some o => match o.ins with
    | .frame .. => acceptFrame r o s
    | _ => acceptEmit r o s

/-! ## CUT (R206, R337) -/

/-- CUT is accepted: a far wave, a cut that differs from the current one, stages moving one way, a frame still open. -/
def cutOk (s : State) (l : Launch) (v : Wave) (mask : DWord) (f : Word) : Bool :=
  let g := s.graph l.slot
  let sub (a b : List Nat) : Bool := a.all fun k => b.contains k
  let new := g.farSet mask
  let cur := g.farSet g.cut.mask
  !v.pred && g.role = 0 && g.isCut mask && mask != g.cut.mask && (sub cur new || sub new cur) &&
    decide ((s.stage l.slot v.stage).closed.toNat < f.toNat)

def cutIssue (x : Act) (s : State) : State :=
  let w := s.warp x.u
  let l := s.warpLaunch w
  let mask : DWord := .ofNat 64 (x.valA w x.first)
  let f : Word := .ofNat 32 (x.valB w x.first)
  let win (s : State) : List TagEntry := (s.ctx l.slot).cutTags
  let known := (tagFind (win s) (s.tagEntry w (s.tag w x.first (w.seq x.first)) x.i 0 0)).isSome
  match l.wave.filter fun v => known || cutOk s l v mask f with
  | none => x.trap x.first noEdge s
  | some _ =>
    let perform (s : State) : Nat × List Byte × State :=
      let (n, s) := propose l.slot mask f s
      (n, [], s)
    let put (t : List TagEntry) (s : State) : State := s.onCtx l.slot fun c => { c with cutTags := t }
    let (n, _, s) := onceAt win put x 0 perform s
    x.give n (s.onWarp x.u fun w => w.addDone (x.op [] []))

/-! ## RECHDR (R207) -/

def rechdrIssue (x : Act) (s : State) : State :=
  let w := s.warp x.u
  let rs := (s.warpBlock w).records
  let header (k : Nat) : Option QWord := (rs.find? fun r => r.1 == x.valA w k).map Prod.snd
  match x.act.find? fun k => (header k).isNone with
  | some k => x.trap k { cause := causeBounds, addr := .ofNat 64 (x.valA w k) } s
  | none =>
    let hs := x.act.map fun k => (k, ((header k).getD 0).toNat)
    let s := s.onWarp x.u (x.writeD hs)
    s.onWarp x.u fun w => each hs w fun h w => w.setPred h.1 x.r.b.val.toNat (nbits h.2 67 64 != 0)

/-! ## Launching waves (R320) -/

/-- The scheduler may launch a wave of a stage on the frame it works on (R320). -/
def stageOpen (s : State) (slot st : Nat) : Bool :=
  let x := s.stage slot st
  let c := s.ctx slot
  c.valid && !c.killed && c.graph.isSome && x.valid && !x.lastOut && !(s.graph slot).stalls st && (s.graph slot).runs st (x.lastDone + 1)

/-- Records of one key, `batch` at most to a gang (R352). -/
def groupsFrom (batch : Nat) : Nat → List Rec → List (List Rec)
  | 0, _ => []
  | _, [] => []
  | n + 1, r :: rs =>
    let run := (r :: rs).takeWhile fun x => x.key == r.key
    let g := run.take batch
    g :: groupsFrom batch n ((r :: rs).drop g.length)

/-- What the gangs of a record wave receive: on the bin edge one material each (R320, R352). -/
def waveBatches (s : State) (slot e : Nat) (st : Stage) (rs : List Rec) : List (List Rec) :=
  let bin := match (s.ctx slot).raster with
    | some r => e == r.bin
    | none => false
  let groups := if bin then groupsFrom st.batch.toNat rs.length rs else piecesOf st.batch.toNat rs
  groups.take st.maxg.toNat

/-- A record wave: released records of the stage's frame that no wave has received (rule 2). -/
def recordWave (s : State) (slot st e : Nat) : Option State :=
  let x := s.stage slot st
  let ed := s.edge slot e
  let f := x.lastDone + 1
  let groups := waveBatches s slot e x (ed.ready.filter fun r => r.frame == f)
  let rs := groups.flatten
  if !stageOpen s slot st || !ed.valid || ed.target != st || rs = [] then none
  else (startWave slot (waveOf st e f false groups) s).map fun t =>
    t.onEdge slot e fun y => { y with ready := y.ready.filter fun r => !rs.contains r }

/-- Every wave of a frame launched so far has retired. -/
def wavesDone (s : State) (slot st : Nat) (f : Word) : Bool :=
  !(s.launches.any fun l => l.slot == slot && l.state != .ended 0 && (match l.wave with
    | some v => v.stage == st && v.frame == f
    | none => false))

/-- Every input has released the buoy and its records are in waves; a stage without inputs waits for gfopen (rule 3). -/
def inputsDone (s : State) (slot st : Nat) (f : Word) : Bool :=
  let ins := (s.graph slot).inputs st
  if ins = [] then decide (f.toNat ≤ (s.graph slot).gfopen.toNat)
  else ins.all fun e => (s.edge slot e).buoys.contains f && !((s.edge slot e).ready.any fun r => r.frame == f)

def lastWave (s : State) (slot st : Nat) : Option State :=
  let f := (s.stage slot st).lastDone + 1
  if stageOpen s slot st && wavesDone s slot st f && inputsDone s slot st f then
    startWave slot { stage := st, frame := f, edge := none, pred := false, last := true } s
  else none

/-- gfopen takes the next frame only (R320 rule 3). -/
def openFrame (slot : Nat) (v : Word) (s : State) : State :=
  s.onGraph slot fun g => if v.toNat = g.gfopen.toNat + 1 then { g with gfopen := v } else g

/-! ## Received frames -/

/-- A frame that is lost is counted: at its port, at its edge, or in the graph's status block (R323, R336, R411). -/
def dropFrame (why : DropCause) (s : State) : State :=
  let port (p : Bool) : State := { s with ports := mapAt (fun x => { x with drop := satInc x.drop 1 }) s.ports (if p then 1 else 0) }
  match why with
  | .badFcs p | .addressing p => port p
  | .tolver slot type edge =>
    if (s.ctx slot).graph.isNone then s
    else if decide (type ∈ [0, 1, 2, 6]) && (s.edge slot edge).valid then
      countEdge slot edge (fun x => { x with crcbad := satInc x.crcbad 1 }) s
    else graphStatus slot (s.onGraph slot fun g => { g with crcbad := satInc g.crcbad 1 })

/-- A frame of a type fails R324 at the graph of a slot: another graph's identifier, or an edge that does not exist. -/
def misdirected (s : State) (slot type : Nat) (x : TolverFrame) : Bool :=
  x.gid != (s.graph slot).gid || (if type = 3 || type = 4 || type = 5 then x.edge != 0xFF else !(s.edge slot x.edge.toNat).valid)

/-- A frame that has passed its CRC arrives at a graph: one that R324 refuses is counted; `go` takes the others. -/
def arrives (slot type : Nat) (x : TolverFrame) (go : State → State) (s : State) : Host.Outcome State Fault Refusal :=
  event (s.ctx slot).graph.isSome
    (fun s => if misdirected s slot type x then dropFrame (.tolver slot type x.edge.toNat) s else go s) s

/-- The receiver of edge frames is the near part. -/
def nearPart (s : State) (slot : Nat) : Bool := (s.graph slot).role = 1

/-- An arrival on an edge: the near part's transitions first, then the receiver, where the edge is remote for the frame. -/
def onEdgeFrame (slot : Nat) (x : TolverFrame) (f : Nat → Nat → TolverFrame → State → State) (s : State) : State :=
  let e := x.edge.toNat
  let s := handoverWhole slot (nearArrival slot e x.frame s)
  if (s.graph slot).remote e x.frame then f slot e x s else s

/-- A data frame holds count records of the edge. -/
def dataOk (s : State) (slot : Nat) (x : TolverFrame) : Bool :=
  decide (1 ≤ x.count.toNat) && decide (x.count.toNat ≤ 16) && x.recsz = (s.edge slot x.edge.toNat).recsz &&
    x.body.length = x.count.toNat * (s.edge slot x.edge.toNat).size

def parityOk (s : State) (slot : Nat) (x : TolverFrame) : Bool :=
  decide (1 ≤ x.count.toNat) && decide (1 ≤ x.g.toNat) && decide (x.g.toNat ≤ 16) &&
    decide (x.count.toNat * (s.edge slot x.edge.toNat).size ≤ x.body.length)

/-! ## Received datagrams (R323, R324, R411) -/

/-- The fields of a Tolver frame after its header and before its CRC. -/
def TolverFrame.ofBytes (bs : List Byte) : TolverFrame :=
  let h := natOfBE (bs.take 32)
  { gid := .ofNat 16 (nbits h 231 216), edge := .ofNat 8 (nbits h 215 208), frame := .ofNat 32 (nbits h 207 176)
    seq := .ofNat 24 (nbits h 175 152), prevcnt := .ofNat 24 (nbits h 151 128), grp := .ofNat 16 (nbits h 127 112)
    g := .ofNat 5 (nbits h 111 107), gidx := .ofNat 4 (nbits h 106 103), count := .ofNat 5 (nbits h 102 98)
    recsz := .ofNat 8 (nbits h 95 88), aux := .ofNat 64 (nbits h 63 0), body := (bs.drop 32).take (bs.length - 36) }

/-- The CRC of a Tolver frame holds, and magic, version and reserved bits are as R324 gives them. -/
def tolverOk (bs : List Byte) : Bool :=
  let h := natOfBE (bs.take 32)
  decide (36 ≤ bs.length) && crc32c (bs.take (bs.length - 4)) == .ofNat 32 (natOfBytes (bs.drop (bs.length - 4))) &&
    nbits h 255 240 = 0x4F56 && nbits h 239 236 = 1 && nbits h 97 96 = 0 && nbits h 87 64 = 0

/-- The event that a Tolver frame is for the graph of a slot; an unknown type fails the frame (log 63). -/
def tolverEvent (slot : Nat) (bs : List Byte) : Instr :=
  let x := TolverFrame.ofBytes bs
  let type := nbits (natOfBE (bs.take 32)) 235 232
  let lost : Instr := .receivedFrameDropped (.tolver slot type x.edge.toNat)
  if !tolverOk bs then lost
  else match type with
    | 0 => .tolverDataFrame slot x
    | 1 => .tolverParityFrame slot x
    | 2 => .tolverBuoyFrame slot x
    | 3 => .tolverHandoverFrame slot x
    | 4 => .tolverAckFrame slot x
    | 5 => .tolverProposeFrame slot x
    | 6 => .tolverKeysFrame slot x
    | _ => lost

/-- The event a received Ethernet frame is: dropped at its port, or a Tolver frame at the graph whose lport it names. -/
def etherEvent (s : State) (x : EtherFrame) : Instr :=
  let mine (c : Nat × Ctx) : Bool := match c.2.graph with
    | some g => g.port == x.port && g.lport == x.lport
    | none => false
  if !x.fcs then .receivedFrameDropped (.badFcs x.port)
  else if !x.plain || x.dst != (s.ports.getD (if x.port then 1 else 0) {}).ip then .receivedFrameDropped (.addressing x.port)
  else match s.ctxs.find? mine with
    | some c => tolverEvent c.1 x.payload
    | none => .receivedFrameDropped (.addressing x.port)

/-! ## The tiles' clocks (R331; log 33) -/

/-- Some count of ticks runs. -/
def ticking (s : State) : Bool :=
  s.ctxs.any fun c => match c.2.graph with
    | none => false
    | some g => g.cut.unacked != [] || g.edges.any fun e => e.rx.patience.isSome

/-- An I/O tile counts `n` ticks. -/
def tickTiles (n : Nat) (s : State) : State :=
  let edge (e : Edge) : Edge := { e with rx := { e.rx with patience := e.rx.patience.map (· + n) } }
  let graph (g : Graph) : Graph :=
    { g with edges := g.edges.map edge, cut := if g.cut.unacked = [] then g.cut else { g.cut with resend := g.cut.resend + n } }
  { s with ctxs := s.ctxs.map fun c => (c.1, { c.2 with graph := c.2.graph.map graph }) }

/-! ## Meanings -/

def execEmit (h : Hdr) (f : Ops) : State → Host.Outcome State Fault Refusal := issue (.emit h f) emitIssue
def execEdgeRecordAccept (o : OpRef) (s : State) : Host.Outcome State Fault Refusal := event (acceptReady s o) (acceptRecord o) s
def execFrame (h : Hdr) (f : Ops) : State → Host.Outcome State Fault Refusal := issue (.frame h f) frameIssue
def execCut (h : Hdr) (f : Ops) : State → Host.Outcome State Fault Refusal := issue (.cut h f) cutIssue
def execRechdr (h : Hdr) (f : Ops) : State → Host.Outcome State Fault Refusal := issue (.rechdr h f) rechdrIssue
def execRecordWaveLaunch (slot stage edge : Nat) (s : State) : Host.Outcome State Fault Refusal :=
  event (recordWave s slot stage edge).isSome (fun s => (recordWave s slot stage edge).getD s) s
def execLastWaveLaunch (slot stage : Nat) (s : State) : Host.Outcome State Fault Refusal :=
  event (lastWave s slot stage).isSome (fun s => (lastWave s slot stage).getD s) s
def execGfopenWrite (slot : Nat) (v : Word) (s : State) : Host.Outcome State Fault Refusal :=
  event (decide (slot < 256)) (openFrame slot v) s
/-- A write of one context's graphbase. -/
def writesGraphbase (slot : Nat) : Instr → Bool
  | .graphbaseWrite a _ => a == slot
  | _ => false

def execGraphbaseWrite (slot : Nat) (v : DWord) (s : State) : Host.Outcome State Fault Refusal :=
  event (decide (slot < 256)) (orLater (.graphbaseWrite slot v) (writesGraphbase slot)
    (fun s => s.onCtx slot fun c => { c with graphbase := v, graph := none }) (registerGraph slot v)) s
def execTolverDataFrame (slot : Nat) (x : TolverFrame) (s : State) : Host.Outcome State Fault Refusal :=
  arrives slot 0 x (fun s => if nearPart s slot && dataOk s slot x then onEdgeFrame slot x dataArrives s else s) s
def execTolverParityFrame (slot : Nat) (x : TolverFrame) (s : State) : Host.Outcome State Fault Refusal :=
  arrives slot 1 x (fun s => if nearPart s slot && parityOk s slot x then onEdgeFrame slot x parityArrives s else s) s
def execTolverKeysFrame (slot : Nat) (x : TolverFrame) (s : State) : Host.Outcome State Fault Refusal :=
  arrives slot 6 x (fun s => if nearPart s slot then onEdgeFrame slot x keysArrive s else s) s
def execTolverBuoyFrame (slot : Nat) (x : TolverFrame) (s : State) : Host.Outcome State Fault Refusal :=
  arrives slot 2 x (fun s => if nearPart s slot then onEdgeFrame slot x buoyArrives s else s) s
def execTolverHandoverFrame (slot : Nat) (x : TolverFrame) (s : State) : Host.Outcome State Fault Refusal :=
  arrives slot 3 x (handoverArrives slot x) s
def execTolverAckFrame (slot : Nat) (x : TolverFrame) (s : State) : Host.Outcome State Fault Refusal :=
  arrives slot 4 x (ackArrives slot x) s
def execTolverProposeFrame (slot : Nat) (x : TolverFrame) (s : State) : Host.Outcome State Fault Refusal :=
  arrives slot 5 x (fun s => if nearPart s slot then proposeArrives slot x s else s) s
def execPatienceExpiry (slot edge : Nat) (s : State) : Host.Outcome State Fault Refusal :=
  event (patienceDue s slot edge) (patienceEnds slot edge) s
def execPredictorWaveRetire (slot edge : Nat) (s : State) : Host.Outcome State Fault Refusal :=
  event (predictorDone s slot edge) (predictorEnds slot edge) s
def execHandoverSend (slot : Nat) (s : State) : Host.Outcome State Fault Refusal :=
  eventUnmoved (handoverDue s slot).isSome (fun s => match handoverDue s slot with
    | some f => sendHandover slot f s
    | none => s) s
def execSubchannelResend (slot : Nat) (s : State) : Host.Outcome State Fault Refusal :=
  event ((s.graph slot).cut.unacked != [] && decide ((s.graph slot).hopat.toNat ≤ (s.graph slot).cut.resend)) (resendAll slot) s
def execReceivedFrameDropped (why : DropCause) (s : State) : Host.Outcome State Fault Refusal := .next (dropFrame why s)

end Sys2Proof.Machine
end

