-- ==== Sys2Proof/Machine/Dispatch.lean ====
section
/-! DEFINITION. The dispatch of every constructor of Instr to its meaning. -/

namespace Sys2Proof.Machine

def exec (i : Instr) (s : State) : Host.Outcome State Fault Refusal :=
  match i with
  | .nop h f => Sys2Proof.Machine.execNop h f s
  | .iadd h t f => Sys2Proof.Machine.execIadd h t f s
  | .iaddImm h t f => Sys2Proof.Machine.execIaddImm h t f s
  | .isub h t f => Sys2Proof.Machine.execIsub h t f s
  | .isubImm h t f => Sys2Proof.Machine.execIsubImm h t f s
  | .imul h t f => Sys2Proof.Machine.execImul h t f s
  | .imulImm h t f => Sys2Proof.Machine.execImulImm h t f s
  | .imulhi h t f => Sys2Proof.Machine.execImulhi h t f s
  | .imad h t f => Sys2Proof.Machine.execImad h t f s
  | .imadw h sgn f => Sys2Proof.Machine.execImadw h sgn f s
  | .idiv h t f => Sys2Proof.Machine.execIdiv h t f s
  | .irem h t f => Sys2Proof.Machine.execIrem h t f s
  | .imin h t f => Sys2Proof.Machine.execImin h t f s
  | .iminImm h t f => Sys2Proof.Machine.execIminImm h t f s
  | .imax h t f => Sys2Proof.Machine.execImax h t f s
  | .imaxImm h t f => Sys2Proof.Machine.execImaxImm h t f s
  | .iabs h w f => Sys2Proof.Machine.execIabs h w f s
  | .ineg h w f => Sys2Proof.Machine.execIneg h w f s
  | .shl h w f => Sys2Proof.Machine.execShl h w f s
  | .shr h w f => Sys2Proof.Machine.execShr h w f s
  | .sar h w f => Sys2Proof.Machine.execSar h w f s
  | .rot h w f => Sys2Proof.Machine.execRot h w f s
  | .and h w f => Sys2Proof.Machine.execAnd h w f s
  | .andImm h w f => Sys2Proof.Machine.execAndImm h w f s
  | .or h w f => Sys2Proof.Machine.execOr h w f s
  | .orImm h w f => Sys2Proof.Machine.execOrImm h w f s
  | .xor h w f => Sys2Proof.Machine.execXor h w f s
  | .xorImm h w f => Sys2Proof.Machine.execXorImm h w f s
  | .not h w f => Sys2Proof.Machine.execNot h w f s
  | .bool3 h w f => Sys2Proof.Machine.execBool3 h w f s
  | .bfe h t f => Sys2Proof.Machine.execBfe h t f s
  | .bfi h w f => Sys2Proof.Machine.execBfi h w f s
  | .popc h w f => Sys2Proof.Machine.execPopc h w f s
  | .clz h w f => Sys2Proof.Machine.execClz h w f s
  | .brev h w f => Sys2Proof.Machine.execBrev h w f s
  | .isetp h k t f => Sys2Proof.Machine.execIsetp h k t f s
  | .icmp h k t f => Sys2Proof.Machine.execIcmp h k t f s
  | .sel h w f => Sys2Proof.Machine.execSel h w f s
  | .pset h o f => Sys2Proof.Machine.execPset h o f s
  | .mov h w f => Sys2Proof.Machine.execMov h w f s
  | .movi h f => Sys2Proof.Machine.execMovi h f s
  | .lea h k f => Sys2Proof.Machine.execLea h k f s
  | .bra h f => Sys2Proof.Machine.execBra h f s
  | .brx h f => Sys2Proof.Machine.execBrx h f s
  | .call h f => Sys2Proof.Machine.execCall h f s
  | .callReg h f => Sys2Proof.Machine.execCallReg h f s
  | .ret h f => Sys2Proof.Machine.execRet h f s
  | .exit h f => Sys2Proof.Machine.execExit h f s
  | .loop h f => Sys2Proof.Machine.execLoop h f s
  | .yield h f => Sys2Proof.Machine.execYield h f s
  | .nap h f => Sys2Proof.Machine.execNap h f s
  | .napExpiry warp lane => Sys2Proof.Machine.execNapExpiry warp lane s
  | .decl h f => Sys2Proof.Machine.execDecl h f s
  | .cvsign h f => Sys2Proof.Machine.execCvsign h f s
  | .role h f => Sys2Proof.Machine.execRole h f s
  | .rdsr h f => Sys2Proof.Machine.execRdsr h f s
  | .wrsr h f => Sys2Proof.Machine.execWrsr h f s
  | .fadd h r f => Sys2Proof.Machine.execFadd h r f s
  | .fmul h r f => Sys2Proof.Machine.execFmul h r f s
  | .ffma h r f => Sys2Proof.Machine.execFfma h r f s
  | .fmin h f => Sys2Proof.Machine.execFmin h f s
  | .fmax h f => Sys2Proof.Machine.execFmax h f s
  | .fsetp h dbl k f => Sys2Proof.Machine.execFsetp h dbl k f s
  | .fcmp h dbl k f => Sys2Proof.Machine.execFcmp h dbl k f s
  | .frnd h r f => Sys2Proof.Machine.execFrnd h r f s
  | .fclass h dbl f => Sys2Proof.Machine.execFclass h dbl f s
  | .dadd h r f => Sys2Proof.Machine.execDadd h r f s
  | .dmul h r f => Sys2Proof.Machine.execDmul h r f s
  | .dfma h r f => Sys2Proof.Machine.execDfma h r f s
  | .hadd2 h bf r f => Sys2Proof.Machine.execHadd2 h bf r f s
  | .hmul2 h bf r f => Sys2Proof.Machine.execHmul2 h bf r f s
  | .hfma2 h bf r f => Sys2Proof.Machine.execHfma2 h bf r f s
  | .cvt h src dst f => Sys2Proof.Machine.execCvt h src dst f s
  | .quant h r f => Sys2Proof.Machine.execQuant h r f s
  | .rcp h f => Sys2Proof.Machine.execRcp h f s
  | .rsq h f => Sys2Proof.Machine.execRsq h f s
  | .sqrt h f => Sys2Proof.Machine.execSqrt h f s
  | .exp2 h f => Sys2Proof.Machine.execExp2 h f s
  | .log2 h f => Sys2Proof.Machine.execLog2 h f s
  | .sin h f => Sys2Proof.Machine.execSin h f s
  | .cos h f => Sys2Proof.Machine.execCos h f s
  | .tanh h f => Sys2Proof.Machine.execTanh h f s
  | .xlane h k f => Sys2Proof.Machine.execXlane h k f s
  | .poll h k f => Sys2Proof.Machine.execPoll h k f s
  | .redux h o t f => Sys2Proof.Machine.execRedux h o t f s
  | .scan h o t excl f => Sys2Proof.Machine.execScan h o t excl f s
  | .matchLanes h w f => Sys2Proof.Machine.execMatchLanes h w f s
  | .elect h f => Sys2Proof.Machine.execElect h f s
  | .pairedWord h x y => Sys2Proof.Machine.execPairedWord h x y s
  | .ld h z near sx f => Sys2Proof.Machine.execLd h z near sx f s
  | .ldAcq h z sx f => Sys2Proof.Machine.execLdAcq h z sx f s
  | .loadDataArrival o => Sys2Proof.Machine.execLoadDataArrival o s
  | .st h z f => Sys2Proof.Machine.execSt h z f s
  | .stRel h z f => Sys2Proof.Machine.execStRel h z f s
  | .storeRegister o => Sys2Proof.Machine.execStoreRegister o s
  | .lds h z sx f => Sys2Proof.Machine.execLds h z sx f s
  | .sts h z f => Sys2Proof.Machine.execSts h z f s
  | .ldc h z f => Sys2Proof.Machine.execLdc h z f s
  | .ldb h z f => Sys2Proof.Machine.execLdb h z f s
  | .pref h f => Sys2Proof.Machine.execPref h f s
  | .atom h o t k f => Sys2Proof.Machine.execAtom h o t k f s
  | .atomicPerform o => Sys2Proof.Machine.execAtomicPerform o s
  | .atoms h o t f => Sys2Proof.Machine.execAtoms h o t f s
  | .red h o t rel f => Sys2Proof.Machine.execRed h o t rel f s
  | .atomAgg h t f => Sys2Proof.Machine.execAtomAgg h t f s
  | .fenceAcq h f => Sys2Proof.Machine.execFenceAcq h f s
  | .fenceRel h f => Sys2Proof.Machine.execFenceRel h f s
  | .fenceAcqRel h f => Sys2Proof.Machine.execFenceAcqRel h f s
  | .sealVersion h f => Sys2Proof.Machine.execSealVersion h f s
  | .bar h f => Sys2Proof.Machine.execBar h f s
  | .gbar h f => Sys2Proof.Machine.execGbar h f s
  | .baroInit h f => Sys2Proof.Machine.execBaroInit h f s
  | .baroArrive h f => Sys2Proof.Machine.execBaroArrive h f s
  | .baroWait h f => Sys2Proof.Machine.execBaroWait h f s
  | .baroQuery h f => Sys2Proof.Machine.execBaroQuery h f s
  | .waitc h f => Sys2Proof.Machine.execWaitc h f s
  | .fmtw h f => Sys2Proof.Machine.execFmtw h f s
  | .mma h f => Sys2Proof.Machine.execMma h f s
  | .mmaS h f => Sys2Proof.Machine.execMmaS h f s
  | .mmaOperationComplete o => Sys2Proof.Machine.execMmaOperationComplete o s
  | .accz h f => Sys2Proof.Machine.execAccz h f s
  | .accld h f => Sys2Proof.Machine.execAccld h f s
  | .accst h f => Sys2Proof.Machine.execAccst h f s
  | .accrd h f => Sys2Proof.Machine.execAccrd h f s
  | .accwr h f => Sys2Proof.Machine.execAccwr h f s
  | .scld h f => Sys2Proof.Machine.execScld h f s
  | .resAlloc h reload f => Sys2Proof.Machine.execResAlloc h reload f s
  | .resLoad h f => Sys2Proof.Machine.execResLoad h f s
  | .resLoadComplete o => Sys2Proof.Machine.execResLoadComplete o s
  | .resPin h f => Sys2Proof.Machine.execResPin h f s
  | .resUnpin h f => Sys2Proof.Machine.execResUnpin h f s
  | .resRevoke h f => Sys2Proof.Machine.execResRevoke h f s
  | .resQuery h f => Sys2Proof.Machine.execResQuery h f s
  | .residencyRehome slot index part => Sys2Proof.Machine.execResidencyRehome slot index part s
  | .leave h f => Sys2Proof.Machine.execLeave h f s
  | .leaveGrant cluster => Sys2Proof.Machine.execLeaveGrant cluster s
  | .tcopyG2s h f => Sys2Proof.Machine.execTcopyG2s h f s
  | .tcopyS2g h f => Sys2Proof.Machine.execTcopyS2g h f s
  | .tcopyG2g h f => Sys2Proof.Machine.execTcopyG2g h f s
  | .copyEngineRun o => Sys2Proof.Machine.execCopyEngineRun o s
  | .copyComplete o => Sys2Proof.Machine.execCopyComplete o s
  | .collAllreduce h dom f => Sys2Proof.Machine.execCollAllreduce h dom f s
  | .collAllgather h dom f => Sys2Proof.Machine.execCollAllgather h dom f s
  | .collRedscat h dom f => Sys2Proof.Machine.execCollRedscat h dom f s
  | .collBcast h dom f => Sys2Proof.Machine.execCollBcast h dom f s
  | .collInstanceComplete k => Sys2Proof.Machine.execCollInstanceComplete k s
  | .wdq h f => Sys2Proof.Machine.execWdq h f s
  | .workDistributorAnswer o => Sys2Proof.Machine.execWorkDistributorAnswer o s
  | .churnStart h f => Sys2Proof.Machine.execChurnStart h f s
  | .churnStop h f => Sys2Proof.Machine.execChurnStop h f s
  | .qpush h f => Sys2Proof.Machine.execQpush h f s
  | .qpop h f => Sys2Proof.Machine.execQpop h f s
  | .qpeek h f => Sys2Proof.Machine.execQpeek h f s
  | .emit h f => Sys2Proof.Machine.execEmit h f s
  | .edgeRecordAccept o => Sys2Proof.Machine.execEdgeRecordAccept o s
  | .frame h f => Sys2Proof.Machine.execFrame h f s
  | .cut h f => Sys2Proof.Machine.execCut h f s
  | .rechdr h f => Sys2Proof.Machine.execRechdr h f s
  | .trisub h f => Sys2Proof.Machine.execTrisub h f s
  | .triangleRasterise k => Sys2Proof.Machine.execTriangleRasterise k s
  | .attr h f => Sys2Proof.Machine.execAttr h f s
  | .tex h d lod f => Sys2Proof.Machine.execTex h d lod f s
  | .texv h tri f => Sys2Proof.Machine.execTexv h tri f s
  | .tld h d f => Sys2Proof.Machine.execTld h d f s
  | .mbin h f => Sys2Proof.Machine.execMbin h f s
  | .trap h f => Sys2Proof.Machine.execTrap h f s
  | .tret h f => Sys2Proof.Machine.execTret h f s
  | .bkpt h f => Sys2Proof.Machine.execBkpt h f s
  | .beacon h f => Sys2Proof.Machine.execBeacon h f s
  | .beaconMiss gang rank => Sys2Proof.Machine.execBeaconMiss gang rank s
  | .wassign h f => Sys2Proof.Machine.execWassign h f s
  | .scrub h f => Sys2Proof.Machine.execScrub h f s
  | .hashInit h f => Sys2Proof.Machine.execHashInit h f s
  | .hashUpd h f => Sys2Proof.Machine.execHashUpd h f s
  | .hashFin h f => Sys2Proof.Machine.execHashFin h f s
  | .mext h f => Sys2Proof.Machine.execMext h f s
  | .ecsig h f => Sys2Proof.Machine.execEcsig h f s
  | .keyrel h f => Sys2Proof.Machine.execKeyrel h f s
  | .certw h f => Sys2Proof.Machine.execCertw h f s
  | .halt h f => Sys2Proof.Machine.execHalt h f s
  | .progressLimitDemotion warp => Sys2Proof.Machine.execProgressLimitDemotion warp s
  | .qbell slot queue => Sys2Proof.Machine.execQbell slot queue s
  | .launchComplete launch => Sys2Proof.Machine.execLaunchComplete launch s
  | .preemptEvict gang => Sys2Proof.Machine.execPreemptEvict gang s
  | .fatalTrap k => Sys2Proof.Machine.execFatalTrap k s
  | .uncorrectableConsumed gang w => Sys2Proof.Machine.execUncorrectableConsumed gang w s
  | .recoverableFault k => Sys2Proof.Machine.execRecoverableFault k s
  | .fqreplyRetry batch => Sys2Proof.Machine.execFqreplyRetry batch s
  | .fqreplyRefuse batch => Sys2Proof.Machine.execFqreplyRefuse batch s
  | .scoutProbe o va => Sys2Proof.Machine.execScoutProbe o va s
  | .warpKeeperExpiry warp => Sys2Proof.Machine.execWarpKeeperExpiry warp s
  | .commandKeeperExpiry slot queue => Sys2Proof.Machine.execCommandKeeperExpiry slot queue s
  | .recordWaveLaunch slot stage edge => Sys2Proof.Machine.execRecordWaveLaunch slot stage edge s
  | .lastWaveLaunch slot stage => Sys2Proof.Machine.execLastWaveLaunch slot stage s
  | .gfopenWrite slot v => Sys2Proof.Machine.execGfopenWrite slot v s
  | .tolverDataFrame slot x => Sys2Proof.Machine.execTolverDataFrame slot x s
  | .tolverParityFrame slot x => Sys2Proof.Machine.execTolverParityFrame slot x s
  | .tolverKeysFrame slot x => Sys2Proof.Machine.execTolverKeysFrame slot x s
  | .tolverBuoyFrame slot x => Sys2Proof.Machine.execTolverBuoyFrame slot x s
  | .tolverHandoverFrame slot x => Sys2Proof.Machine.execTolverHandoverFrame slot x s
  | .tolverAckFrame slot x => Sys2Proof.Machine.execTolverAckFrame slot x s
  | .tolverProposeFrame slot x => Sys2Proof.Machine.execTolverProposeFrame slot x s
  | .patienceExpiry slot edge => Sys2Proof.Machine.execPatienceExpiry slot edge s
  | .predictorWaveRetire slot edge => Sys2Proof.Machine.execPredictorWaveRetire slot edge s
  | .handoverSend slot => Sys2Proof.Machine.execHandoverSend slot s
  | .subchannelResend slot => Sys2Proof.Machine.execSubchannelResend slot s
  | .doeRequest bytes => Sys2Proof.Machine.execDoeRequest bytes s
  | .hostWindowWrite off stream bytes => Sys2Proof.Machine.execHostWindowWrite off stream bytes s
  | .hostWindowRead place stream len => Sys2Proof.Machine.execHostWindowRead place stream len s
  | .cxlSnoop pa bytes => Sys2Proof.Machine.execCxlSnoop pa bytes s
  | .peerRequest r => Sys2Proof.Machine.execPeerRequest r s
  | .linkError port lane outcome => Sys2Proof.Machine.execLinkError port lane outcome s
  | .voteDisagree unit inst copies => Sys2Proof.Machine.execVoteDisagree unit inst copies s
  | .resyncComplete unit inst copy => Sys2Proof.Machine.execResyncComplete unit inst copy s
  | .patrolRead line found => Sys2Proof.Machine.execPatrolRead line found s
  | .powerMeasurement pwr tcool tjct => Sys2Proof.Machine.execPowerMeasurement pwr tcool tjct s
  | .unitGate unit => Sys2Proof.Machine.execUnitGate unit s
  | .wrekey v => Sys2Proof.Machine.execWrekey v s
  | .hqclr v => Sys2Proof.Machine.execHqclr v s
  | .dbgctlResume v => Sys2Proof.Machine.execDbgctlResume v s
  | .retadd v => Sys2Proof.Machine.execRetadd v s
  | .retdel v => Sys2Proof.Machine.execRetdel v s
  | .ctxidRegister slot v => Sys2Proof.Machine.execCtxidRegister slot v s
  | .ctxidDestroy slot => Sys2Proof.Machine.execCtxidDestroy slot s
  | .qdescWrite slot queue v => Sys2Proof.Machine.execQdescWrite slot queue v s
  | .graphbaseWrite slot v => Sys2Proof.Machine.execGraphbaseWrite slot v s
  | .rastbaseWrite slot v => Sys2Proof.Machine.execRastbaseWrite slot v s
  | .evictWrite v => Sys2Proof.Machine.execEvictWrite v s
  | .intstClear v => Sys2Proof.Machine.execIntstClear v s
  | .registerWrite host off size v => Sys2Proof.Machine.execRegisterWrite host off size v s
  | .discard warp lane => Sys2Proof.Machine.execDiscard warp lane s
  | .wordNotAnInstruction reason field => Sys2Proof.Machine.execWordNotAnInstruction reason field s
  | .trapAtFetch misaligned => Sys2Proof.Machine.execTrapAtFetch misaligned s
  | .resultWritten o => Sys2Proof.Machine.execResultWritten o s
  | .accumulatorLoadStoreComplete o => Sys2Proof.Machine.execAccumulatorLoadStoreComplete o s
  | .fqheadWrite v => Sys2Proof.Machine.execFqheadWrite v s
  | .erheadWrite v => Sys2Proof.Machine.execErheadWrite v s
  | .receivedFrameDropped why => Sys2Proof.Machine.execReceivedFrameDropped why s
  | .softError site correctable => Sys2Proof.Machine.execSoftError site correctable s
  | .gangDispatch => Sys2Proof.Machine.execGangDispatch s
  | .gangRestore => Sys2Proof.Machine.execGangRestore s
  | .doeResponseCollect => Sys2Proof.Machine.execDoeResponseCollect s
  | .getVersion => Sys2Proof.Machine.execGetVersion s
  | .getCapabilities => Sys2Proof.Machine.execGetCapabilities s
  | .negotiateAlgorithms => Sys2Proof.Machine.execNegotiateAlgorithms s
  | .getDigests => Sys2Proof.Machine.execGetDigests s
  | .getCertificate => Sys2Proof.Machine.execGetCertificate s
  | .challenge => Sys2Proof.Machine.execChallenge s
  | .getMeasurements => Sys2Proof.Machine.execGetMeasurements s
  | .spdmUnsupportedRequest => Sys2Proof.Machine.execSpdmUnsupportedRequest s
  | .partReset => Sys2Proof.Machine.execPartReset s
  | .shootdownMode0 => Sys2Proof.Machine.execShootdownMode0 s
  | .shootdownMode1 => Sys2Proof.Machine.execShootdownMode1 s

end Sys2Proof.Machine
end

