-- ==== Sys2Proof/Machine/Ahead.lean ====
section
/-! DEFINITION. Running ahead of a recoverable fault (R275): the warp's instructions on a state of their own, whose only outcome is the further pages that join the batch. -/

namespace Sys2Proof.Machine

/-- What running ahead does with an instruction. -/
inductive AheadKind
  /-- Run-ahead ends before it. -/
  | ends
  /-- A load: performed as a plain read where it hits. -/
  | load
  /-- Addresses are translated and nothing is performed. -/
  | translates
  /-- Nothing is performed. -/
  | quiet
  | plain
  deriving DecidableEq, Repr

def aheadKind : Instr → AheadKind
  | .exit .. | .bar .. | .gbar .. | .baroInit .. | .baroArrive .. | .baroWait .. | .baroQuery .. | .waitc .. | .sealVersion ..
  | .fenceAcq .. | .fenceRel .. | .fenceAcqRel .. | .decl .. | .cvsign .. | .role .. | .mma .. | .mmaS .. | .resAlloc .. | .resLoad ..
  | .resPin .. | .resUnpin .. | .resRevoke .. | .resQuery .. | .churnStart .. | .churnStop .. | .qpop .. | .trap .. | .tret ..
  | .bkpt .. | .beacon .. | .wassign .. | .scrub .. | .hashInit .. | .hashUpd .. | .hashFin .. | .mext .. | .ecsig .. | .keyrel ..
  | .certw .. | .halt .. => .ends
  | .ld .. | .ldAcq .. | .ldc .. | .ldb .. | .lds .. => .load
  | .pref .. | .st .. | .stRel .. | .atom .. | .red .. | .atomAgg ..
  | .tcopyG2s .. | .tcopyS2g .. | .tcopyG2g .. | .collAllreduce .. | .collAllgather .. | .collRedscat .. | .collBcast .. | .accld ..
  | .accst .. | .scld .. => .translates
  | .sts .. | .atoms .. | .tex .. | .texv .. | .tld .. | .leave .. | .emit .. | .frame .. | .cut .. | .wdq .. | .qpush .. | .qpeek ..
  | .rechdr .. | .accz .. | .accrd .. | .accwr .. | .trisub .. | .mbin .. | .attr .. => .quiet
  | _ => .plain

/-- The state a warp runs ahead on, the registers and predicates that are invalid there, and the pages found. -/
structure Ahead where
  s : State
  vecs : List Nat := []
  unis : List Nat := []
  preds : List Nat := []
  found : List FaultReport := []

/-- From the checkpoint: what older operations still owe is invalid. -/
def aheadStart (u : Nat) (s : State) : Ahead :=
  let w := s.warp u
  let missing (m : Store Reg) : List Nat := (m.filter fun e => !e.2.full).map Prod.fst
  let filled (m : Store Reg) : Store Reg := m.map fun e => (e.1, { e.2 with full := true, held := false })
  let free (t : Thread) : Thread := match t.status with
    | .blocked (.issue _) => { t with status := .running }
    | _ => t
  { s := { s with agenda := [], faults := [], reports := [] }.onWarp u fun w =>
      { w with ops := [], vregs := filled w.vregs, uregs := filled w.uregs, threads := w.threads.map free
               shadowV := [], shadowU := [], shadowT := [] }
    vecs := missing w.vregs, unis := missing w.uregs }

/-- The keys of the registers that a use names in a lane: of vector registers, and of uniform ones. -/
def Use.keys (u : Use) (l : Nat) : List Nat × List Nat :=
  match u.kind with
  | .vec => ((List.range u.count).map fun k => vkey (u.idx + k) l, [])
  | .uni => ([], (List.range u.count).map fun k => u.idx + k)
  | _ => ([], [])

/-- A source of an instruction is invalid in a lane. -/
def Ahead.invalid (a : Ahead) (i : Instr) (l : Nat) : Bool :=
  ((uses i).any fun u => u.reads && ((u.keys l).1.any (a.vecs.contains ·) || (u.keys l).2.any (a.unis.contains ·))) ||
    (predsOf i Pos.reads).any fun p => a.preds.contains (l * 8 + p)

/-- The destinations of an instruction in some lanes become valid, or invalid. -/
def Ahead.mark (i : Instr) (lanes : List Nat) (ok : Bool) (a : Ahead) : Ahead :=
  let keys := (lanes.map fun l => ((uses i).filter fun u => u.writes).map fun u => u.keys l).flatten
  let vs := (keys.map Prod.fst).flatten
  let us := (keys.map Prod.snd).flatten
  let ps := (lanes.map fun l => (predsOf i Pos.writes).map fun p => l * 8 + p).flatten
  let put (old new : List Nat) : List Nat := if ok then old.filter fun k => !new.contains k else (new ++ old).eraseDups
  { a with vecs := put a.vecs vs, unis := put a.unis us, preds := put a.preds ps }

/-- The lanes at the instruction move past it and nothing else happens; its destinations are invalid. -/
def Ahead.skips (i : Instr) (b : Bundle) (act : List Nat) (a : Ahead) : Ahead :=
  { a with s := a.s.advance b.warp (lanesOf b.lanes) b.pc }.mark i act false

/-- Addresses, each with the kind of its fault (R274): an absent page joins what has been found; a page that may not be accessed is a trap and ends the run-ahead. -/
def Ahead.translate (u : Nat) (a : Ahead) (vas : List (Nat × Nat)) : Option Ahead :=
  let sp := a.s.space (a.s.warp u)
  let acc (kind : Nat) : Acc := if kind = 0 || kind = 4 then .read else .write
  let outs := vas.map fun e => (e, (probe (sp.loc (e.2 % 2 ^ 60)) 1 (acc e.1) a.s).1)
  if outs.any fun e => !canonical e.1.2 || e.2 = some .permission then none
  else
    let new := (outs.filter fun e => e.2 = some .notPresent).map fun e =>
      ({ op := { warp := u, op := 0 }, world := sp.world, asid := sp.asid, va := e.1.2, kind := e.1.1, ahead := true } : FaultReport)
    some { a with found := a.found ++ new }

/-- One lane of a load that hits, read plainly. -/
def aheadRead (s : State) (w : Warp) (i : Instr) (n : Nat) (y : Slot) : Option Nat :=
  let p := s.party w
  let hits := isScratchOp i || served i p y.addr n s || linePresent s (p.sp.loc y.addr)
  let got := if isScratchOp i then readScr s w y.addr n else (loadOf i p y.addr n s).1
  match got with
  | .bytes bs => if hits then some (loadValue (signExtended i) n (natOfBytes bs)) else none
  | _ => none

/-- A load: lanes that hit have their values, the others are invalid, and absent pages are found. -/
def Ahead.loads (i : Instr) (b : Bundle) (x : Act) (a : Ahead) : Option Ahead :=
  let w := a.s.warp b.warp
  let n := sizeOf i
  let good (y : Slot) : Bool := !a.invalid i y.lane
  let slots := (if isScratchOp i then x.scrSlots w fun _ => 0 else x.globalSlots w fun _ => 0).filter good
  let align := match i with
    | .ldb .. => 1
    | _ => n
  if (addrCheck a.s w (!isScratchOp i) n align slots).isSome then none
  else
    let vals := slots.filterMap fun y => (aheadRead a.s w i n y).map fun v => (y.lane, v)
    let known := vals.map Prod.fst
    let missed := slots.filter fun y => !known.contains y.lane
    let pages := if isScratchOp i then [] else (pagesOf n missed).map Prod.snd
    (a.translate b.warp (pages.map fun va => (0, va))).map fun a =>
      let s := (a.s.advance b.warp (lanesOf b.lanes) b.pc).onWarp b.warp (x.writeD vals)
      ({ a with s }.mark i (x.act.filter fun l => !known.contains l) false).mark i known true

/-- The addresses that an instruction translates, each with the kind of its fault: an engine's reads 4, its writes 5 (R274). -/
def aheadAddrs (i : Instr) (x : Act) (w : Warp) : List (Nat × Nat) :=
  let l := x.first
  let recAt := joinRegs (fun j => (w.row x.r.c 2).getD j 0) 0 2
  let all (kind : Nat) : List (Nat × Nat) := (x.globalSlots w fun _ => 0).map fun y => (kind, y.addr)
  match i with
  | .tcopyG2s .. => [(4, x.valB w l), (4, recAt)]
  | .tcopyS2g .. => [(5, x.valB w l), (4, recAt)]
  | .tcopyG2g .. => [(4, x.valB w l), (4, recAt), (5, x.valA w l)]
  | .collAllreduce .. | .collAllgather .. | .collRedscat .. | .collBcast .. => [(5, x.valA w l), (4, x.valB w l), (4, x.valC w l)]
  | .accld .. | .scld .. => [(4, x.valA w l)]
  | .accst .. => [(5, x.valA w l)]
  | .pref .. => (all 0).filter fun e => canonical e.2
  | .atom .. | .red .. | .atomAgg .. => all 2
  | _ => all 1

/-- The threads of a warp in their handlers. -/
def handlersOf (s : State) (u : Nat) : List Bool := (s.warp u).threads.map fun t => t.handler

/-- An instruction would trap, or end its gang, where the run-ahead has come to. -/
def Ahead.traps (i : Instr) (b : Bundle) (a : Ahead) : Bool :=
  match exec i { a.s with cur := some b } with
  | .next t => t.reports != [] || t.agenda != [] || handlersOf t b.warp != handlersOf a.s b.warp
  | _ => true

/-- Any other instruction is executed on the run-ahead's own state, with its late result at once; a trap ends the run-ahead. An invalid source makes the destinations of its lanes invalid, of every lane where an instruction reads across lanes or once for all. -/
def Ahead.executes (i : Instr) (b : Bundle) (x : Act) (a : Ahead) : Option Ahead :=
  let bad := x.act.filter (a.invalid i)
  let across : Bool := x.uniform || (match i with
    | .xlane .. | .poll .. | .redux .. | .scan .. | .matchLanes .. | .elect .. => true
    | _ => false)
  let lost := if bad != [] && across then x.act else bad
  let transfers : Bool := match i with
    | .brx .. | .callReg .. | .ret .. | .loop .. => true
    | _ => false
  if bad != [] && transfers then none
  else match exec i { a.s with cur := some b } with
    | .next t =>
      if t.reports != [] || t.agenda != [] || handlersOf t b.warp != handlersOf a.s b.warp then (if bad = [] then none else some (a.skips i b x.act))
      else
        let late (o : Op) (t : State) : State := match exec (.resultWritten { warp := b.warp, op := o.id }) t with
          | .next t => t
          | _ => t
        let t := each (t.warp b.warp).ops t late
        some (({ a with s := t.onWarp b.warp fun w => { w with ops := [] } }.mark i x.act true).mark i lost false)
    | _ => none

/-- One instruction of the warp's head run, or the end. -/
def aheadStep (u : Nat) (a : Ahead) : Option Ahead :=
  let w := a.s.warp u
  match w.runs.head? with
  | none => none
  | some r =>
    let b := r.bundle u
    match bundleInstr a.s w r.pc with
    | none | some (.wordNotAnInstruction ..) | some (.trapAtFetch ..) => none
    | some i =>
      let (_, gp) := guardOf i
      if aheadKind i = .ends || (gp != 7 && r.lanes.any fun l => a.preds.contains (l * 8 + gp.toNat)) then none
      else match check i b a.s with
        | .skip => some { a with s := a.s.advance u r.lanes r.pc }
        | .go act =>
          let x := actOf i b act
          (match aheadKind i with
            | .ends => none
            | .load => a.loads i b x
            | .translates =>
              if x.act.any (a.invalid i) then some (a.skips i b act)
              else if a.traps i b then none
              else (a.translate u (aheadAddrs i x w)).map (Ahead.skips i b act)
            | .quiet => if x.act.any (a.invalid i) || !a.traps i b then some (a.skips i b act) else none
            | .plain => a.executes i b x)
        | _ => none

/-- At most so many instructions, and 32 further pages. -/
def aheadLoop (u : Nat) : Nat → Ahead → Ahead
  | 0, a => a
  | n + 1, a =>
    if 32 ≤ (addPages [] (a.found.map FaultReport.page)).length then a
    else match aheadStep u a with
      | some a => aheadLoop u n a
      | none => a

/-- Before a warp's batch is formed it has run ahead, for a free number of instructions up to 512 (the idle clocks of its partition, log 13): the pages it found join the batch. -/
def runAhead (k : Nat) (s : State) : State :=
  match s.faults[k]? with
  | none => s
  | some f =>
    if !f.joins || f.ahead || (s.warp f.op.warp).batch.isSome then s
    else
      let u := f.op.warp
      { s with draws := s.draws + 1, faults := s.faults ++ (aheadLoop u (Config.aheadSteps s.draws % 513) (aheadStart u s)).found }

end Sys2Proof.Machine
end

