-- ==== Sys2Proof/Machine/Sched.lean ====
section
/-! DEFINITION. What acts next: the events the state enables, the issue choice of each partition (R261 to R264), the churn programs (R199), and what every step does beside its event (clocks, naps, keepers, waits that end). Which of several that can act does so is a free choice (log 2). -/

namespace Sys2Proof.Machine

/-! ## Events the state enables -/

/-- Events of one outstanding operation. -/
def opEvents (s : State) (r : OpRef) : List Instr :=
  ([(loadReady s r, .loadDataArrival r), (storeReady s r, .storeRegister r), (atomReady s r || arriveReady s r, .atomicPerform r),
    (mmaReady s r, .mmaOperationComplete r), (accReady s r, .accumulatorLoadStoreComplete r), (resLoadReady s r, .resLoadComplete r),
    (copyReady s r, .copyEngineRun r), (copyDone s r, .copyComplete r), (wdqReady s r, .workDistributorAnswer r),
    (acceptReady s r, .edgeRecordAccept r), (resultReady s r, .resultWritten r)] : List (Bool × Instr)).filterMap
    (fun e => if e.1 then some e.2 else none) ++
  ((scoutNext s r).map fun va => .scoutProbe r (.ofNat 64 va))

/-- The operations of placed warps. -/
def State.allOps (s : State) : List OpRef :=
  ((s.warps.filter fun w => w.ops != [] && (s.gang w.gang).state == .placed).map fun w =>
    w.ops.map fun o => ({ warp := w.uid, op := o.id } : OpRef)).flatten

def napEvents (s : State) : List Instr :=
  (s.warps.map fun w => ((List.range w.width).filter fun l => napDone s w.uid l).map fun l => Instr.napExpiry w.uid l).flatten

def blockEvents (s : State) : List Instr :=
  (s.gangs.map fun g => ((List.range g.blocks.length).filter fun r => beaconDue s g.uid r).map fun r => Instr.beaconMiss g.uid r).flatten

/-- Keepers that have reached their limit. -/
def keeperEvents (s : State) : List Instr :=
  ((s.warps.filter fun w => keeperDue s w.uid).map fun w => .warpKeeperExpiry w.uid) ++
  (((watchedQueues s).filter fun x => queueKeeperDue s x.1 x.2).map
    fun x => .commandKeeperExpiry x.1 x.2)

/-- Rehomings that a waiting RES form or a complete collective asks for (R178). -/
def rehomeEvents (s : State) : List Instr :=
  let placed := s.warps.filter fun w => !w.retired && (s.gang w.gang).state == .placed
  let wanted (w : Warp) : List (Nat × Nat × Nat) :=
    (s.ctx (s.ctxOf w)).residencies.filterMap fun r =>
      if r.2.live && s.homeless w (s.ctxOf w, r.1) then some (s.ctxOf w, r.1, s.partNo w) else none
  (((placed.map wanted).flatten.eraseDups.filter fun x => rehomeReady s x.1 x.2.1 x.2.2)).map
    fun x => .residencyRehome x.1 x.2.1 x.2.2

/-- Waves, patience, predictors and hand-overs of a context's graph. -/
def graphEvents (s : State) (slot : Nat) (g : Graph) : List Instr :=
  let es := List.range g.edges.length
  let sts := List.range g.stages.length
  ((sts.map fun st => (es.filter fun e => (recordWave s slot st e).isSome).map fun e => Instr.recordWaveLaunch slot st e).flatten) ++
  ((sts.filter fun st => (lastWave s slot st).isSome).map fun st => .lastWaveLaunch slot st) ++
  ((es.filter fun e => patienceDue s slot e).map fun e => .patienceExpiry slot e) ++
  ((es.filter fun e => predictorDone s slot e).map fun e => .predictorWaveRetire slot e) ++
  (if (handoverDue s slot).isSome then [.handoverSend slot] else []) ++
  (if g.cut.unacked != [] && decide (g.hopat.toNat ≤ g.cut.resend) then [.subchannelResend slot] else [])

/-- The responder and the DOE interface. -/
def spdmEvents (s : State) : List Instr :=
  if !s.spdm.awaiting then []
  else (if doeReady s then [.doeResponseCollect] else []) ++ (match spdmRequest s with
    | none => []
    | some r => match reqCode r with
      | 0x84 => [.getVersion] | 0xE1 => [.getCapabilities] | 0xE3 => [.negotiateAlgorithms] | 0x81 => [.getDigests]
      | 0x82 => [.getCertificate] | 0x83 => [.challenge] | 0xE0 => [.getMeasurements] | _ => [.spdmUnsupportedRequest])

/-- Units a steward may gate; none before gidle cycles have passed. -/
def gateEvents (s : State) : List Instr :=
  if s.mgmt.gidle = 0 || s.clusters.all (fun c => c.clock.toNat < s.mgmt.gidle.toNat) then []
  else (((List.range 4096) ++ (List.range 4096).map (· + 2 ^ 15)).filter fun k => gateable s k).map fun k => .unitGate (.ofNat 32 k)

/-- Copies that resynchronise. -/
def voteEvents (s : State) : List Instr :=
  (s.voted.filter fun e => e.2.state == .resync).map fun e => .resyncComplete (e.1 / 24) (e.1 / 3 % 8) (e.1 % 3)

/-- Every event of the part that the state enables, beside those of counts that have run out. -/
def events (s : State) : List Instr :=
  (s.allOps.map (opEvents s)).flatten ++ napEvents s ++ rehomeEvents s ++
  (((List.range s.clusters.length).filter (leaveReady s)).map .leaveGrant) ++
  (((List.range s.colls.length).filter (collReady s)).map .collInstanceComplete) ++
  (((List.range s.tris.length).filter (rasterReady s)).map .triangleRasterise) ++
  ((s.ctxs.map fun c => match c.2.graph with
    | some g => graphEvents s c.1 g
    | none => []).flatten) ++
  ((List.range s.reports.length).map .fatalTrap) ++ ((List.range s.faults.length).map .recoverableFault) ++
  (if headFits s false then [.gangDispatch] else []) ++ (if headFits s true then [.gangRestore] else []) ++
  ((victims s).map .preemptEvict) ++ ((s.launches.filter fun l => launchDone s l.uid).map fun l => .launchComplete l.uid) ++
  spdmEvents s ++ gateEvents s ++ voteEvents s

/-! ## The issue units (R261 to R264) -/

/-- A warp that waits for a fault, for its declaration, or on a halted core issues nothing (R160, R228, R275). -/
def Warp.mute (s : State) (w : Warp) : Bool :=
  w.retired || w.stopped || (s.gang w.gang).state != .placed || w.batch.isSome || w.undeclared ||
    (w.ops.any fun o => o.state == .faulted) || (s.faults.any fun f => f.op.warp == w.uid && decide (f.kind ≤ 5)) ||
    Store.get false s.haltedCores (s.warpCore w)

/-- A bundle would not be issued: steps 5 and 6 do not pass, or its instruction waits for something of its own (R261). -/
def issueWaits (i : Instr) (b : Bundle) (s : State) : Bool :=
  match check i b s with
  | .wait => true
  | .go act => (match i with
    | .keyrel .. => keyrelWaits (actOf i b act) s
    | _ => false)
  | _ => false

/-- What a run waits for; none where it would be issued: its word is fetched, and steps 5 and 6 pass. -/
def runWait (s : State) (w : Warp) (r : Run) : Option Wait :=
  match bundleInstr s w r.pc with
  | some (.wordNotAnInstruction ..) | some (.trapAtFetch ..) => none
  | some i => if issueWaits i (r.bundle w.uid) s then some (.issue (r.lanes.headD 0)) else none
  | none => match (fetch w r.pc s).1 with
    | .fails va .migrating => some (.migrating ((s.space w).loc va / 65536))
    | _ => none

def runReady (s : State) (w : Warp) (r : Run) : Bool := (runWait s w r).isNone

/-- The threads of a warp as the issue unit finds them: a bundle whose wait is over is RUNNING again and rejoins the run of its PC; a run that waits is BLOCKED, and the next in order stands in its place (R9, R261). An asynchronous trap needs an issue attempt (R270). -/
def attendWarp (s : State) (w : Warp) : Warp :=
  let wake (w : Warp) (r : Run) : Warp := w.onThreads r.lanes fun t => { t with status := .running }
  let stays (r : Run) : Bool := !w.asyncTrap.isSome && runWait s w r == some (.issue (r.lanes.headD 0))
  let w := (w.parked.filter fun r => !stays r).foldl wake w
  let park (v : Warp) (r : Run) : Warp :=
    match runWait s w r with
    | some x => v.onThreads r.lanes fun t => { t with status := .blocked x }
    | none => v
  if w.asyncTrap.isSome then w else w.runs.foldl park w

def attend (s : State) : State :=
  { s with warps := s.warps.map fun w => if w.mute s then w else attendWarp s w }

/-- A warp waits while 64 values are queued for its shadow, or 16 requests held, or while an instruction that acts at its issue is (R368). -/
def Warp.farAhead (w : Warp) : Bool :=
  w.copy.isSome || decide (64 ≤ w.queued.sum) || decide (16 ≤ (w.ops.filter w.holdsRequest).length)

/-- The runs of a warp that can be issued, in order. -/
def readyRuns (s : State) (w : Warp) : List Run :=
  if w.mute s || w.farAhead then [] else if w.asyncTrap.isSome then w.runs.take 1 else w.runs.filter (runReady s w)

/-- The shadow of a warp has an instruction to copy (R366, R369). -/
def Warp.shadowReady (s : State) (w : Warp) : Bool :=
  !w.retired && !w.stopped && w.lag != [] && (s.gang w.gang).state == .placed && !Store.get false s.haltedCores (s.warpCore w)

/-- Who may take a turn: a warp with its ready runs, or its shadow, in the slot after it (R366). -/
structure Ready where
  warp : Warp
  runs : List Run
  shadow : Bool
  deriving DecidableEq, Repr

def Ready.slot (x : Ready) : Nat := if x.shadow then x.warp.slot + 1 else x.warp.slot
def Ready.served (x : Ready) : Bool := if x.shadow then x.warp.shadowServed else x.warp.served

/-- The turns that a warp and its shadow may take. -/
def turnsOf (s : State) (w : Warp) : List Ready :=
  let rs := readyRuns s w
  (if rs = [] then [] else [{ warp := w, runs := rs, shadow := false }]) ++
    (if w.shadowReady s then [{ warp := w, runs := [], shadow := true }] else [])

def prioOf (s : State) (w : Warp) : Nat := (s.warpBlock w).prio

/-- The ready warps of the lowest priority value on one partition (R263 rule 1). -/
def urgent (s : State) (ws : List Ready) : List Ready :=
  let best := ws.foldl (fun m x => min m (prioOf s x.warp)) (2 ^ 32)
  ws.filter fun x => prioOf s x.warp == best

def lowestSlot (ws : List Ready) : Option Ready :=
  ws.foldl (fun m x => match m with
    | some y => if x.slot < y.slot then some x else m
    | none => some x) none

/-- The warp a partition chooses, and whether `served` is cleared first (R263 rules 2 and 3). -/
def chooseWarp (s : State) (ws : List Ready) : Option (Ready × Bool) :=
  let c := urgent s ws
  match lowestSlot (c.filter fun x => !x.served) with
  | some x => some (x, false)
  | none => (lowestSlot c).map fun x => (x, true)

/-- The greatest age of a run's threads. -/
def runAge (w : Warp) (r : Run) : Nat := r.lanes.foldl (fun m l => max m (w.thread l).age) 0

/-- The run of a demotion issue: of the greatest age outside the head run, the first in order at a tie (R264). -/
def oldestRun (w : Warp) : List Run → Option Run
  | [] => none
  | r :: rs => match oldestRun w rs with
    | some q => if runAge w r < runAge w q then some q else some r
    | none => some r

/-- The run a warp issues, and whether it is a demotion issue. -/
def chooseRun (w : Warp) (rs : List Run) : Option (Run × Bool) :=
  match rs with
  | [] => none
  | r :: rest => if w.demote then (match oldestRun w rest with
      | some q => some (q, true)
      | none => some (r, false))
    else some (r, false)

/-- What an issue unit does. -/
structure IssueChoice where
  warp : Nat
  run : Run
  demotion : Bool
  clear : Bool
  /-- The warp holds other ready runs. -/
  others : Bool
  deriving DecidableEq, Repr

/-- What may act next. -/
inductive Choice
  | event (i : Instr)
  /-- One lane of an operation, or one half of a packed atomic there, is performed ahead of the rest (R146, R153). -/
  | part (o : OpRef) (lane half : Nat)
  | issue (c : IssueChoice)
  /-- The shadow of a warp takes its turn (R366). -/
  | shadow (warp : Nat) (clear : Bool)
  | churn (gang rank : Nat)
  deriving DecidableEq, Repr

/-- The choice of one partition. -/
def issueOf (s : State) (ws : List Ready) : Option Choice :=
  match chooseWarp s ws with
  | none => none
  | some (x, clear) =>
    if x.shadow then some (.shadow x.warp.uid clear)
    else (chooseRun x.warp x.runs).map fun r =>
      .issue { warp := x.warp.uid, run := r.1, demotion := r.2, clear, others := decide (1 < x.runs.length) }

/-- The choices of every partition. -/
def issues (s : State) : List Choice :=
  let ready := (s.warps.map (turnsOf s)).flatten
  let parts := (ready.map fun x => s.partNo x.warp).eraseDups
  parts.filterMap fun p => issueOf s (ready.filter fun x => s.partNo x.warp == p)

/-- The served bits of a warp's class on its partition are cleared (R263 rule 2). -/
def unserve (u : Nat) (s : State) : State :=
  let w := s.warp u
  let mine (v : Warp) : Bool :=
    !v.retired && s.partNo v == s.partNo w && (s.gang v.gang).state == .placed && prioOf s v == prioOf s w
  { s with warps := mapIf mine (fun v => { v with served := false, shadowServed := false }) s.warps }

/-- A shadow's turn: what it issues is the copy that was computed and compared with its warp's issue; the requests of that issue are held no longer (R366, R368). -/
def shadowTurn (u : Nat) (clear : Bool) (s : State) : State :=
  (if clear then unserve u s else s).onWarp u fun w => { w with shadowServed := true, lag := w.lag.drop 1, queued := w.queued.drop 1 }

/-- The counts of R263 and R264 at an issue; an issue of a launch with shadows is one its shadow has to copy (R366). -/
def account (c : IssueChoice) (s : State) : State :=
  let shadow := (s.warpLaunch (s.warp c.warp)).record.shadow
  let s := if c.clear then unserve c.warp s else s
  let step (w : Warp) : Warp :=
    let progress := if w.demote then 0 else if c.others then w.progress + 1 else w.progress
    let w := w.onThreads w.live fun t => { t with age := min 65535 (t.age + 1) }
    let w := w.onThreads c.run.lanes fun t => { t with age := 0 }
    { w with progress, demote := false, served := w.served || !c.demotion, lag := if shadow then w.lag ++ [w.nextOp] else w.lag }
  let s := s.onWarp c.warp step
  if demotionDue s c.warp then { s with agenda := s.agenda ++ [.progressLimitDemotion c.warp] } else s

/-! ## What every step does beside its event -/

/-- Accesses that would be performed and meet a page in migration wait from then on for a shootdown that covers it (R304). -/
def noteMigrating (s : State) : State :=
  let kind (o : Op) : Acc := if isLoad o.ins || isPrefetch o.ins then .read else .write
  let met (w : Warp) (o : Op) (x : Slot) : List Nat :=
    if isLoad o.ins && served o.ins (s.party w) x.addr (sizeOf o.ins) s then []
    else ((pagesOf (sizeOf o.ins) [x]).map fun a => (s.space w).loc a.2).filter fun k => migrating s k (kind o)
  let note (w : Warp) (o : Op) : Op :=
    if (isMemOp o.ins || isPrefetch o.ins) && !isScratchOp o.ins && opReady s { warp := w.uid, op := o.id } o then
      { o with mig := o.mig ++ (o.slots.map fun x => (met w o x).map fun k => k / 65536).flatten }
    else o
  { s with warps := s.warps.map fun w => if w.ops = [] then w else { w with ops := w.ops.map (note w) } }

/-- Units in use are noted with the clock (R379). -/
def touchUnits (s : State) : State :=
  let parts := ((s.seated []).map fun w => s.partNo w).eraseDups
  let banks := ((s.gangs.filter fun g => g.state == .placed).map fun g => ((g.blocks.filter fun b => !b.retired).map fun b =>
    b.banks.map fun k => 2 ^ 15 + coreNo g.cluster b.core * 32 + k).flatten).flatten
  let touch (k : Nat) (m : Store Unit) : Store Unit :=
    Store.put {} m k { Store.get {} m k with idle := (s.cluster (nbits k 11 10)).clock.toNat }
  { s with units := each (parts ++ banks) s.units touch }

/-- A wait in which an instruction has been issued and has not retired: its end is the retirement. The other waits end in the instruction's being issued again, in a reply, or never. -/
def Wait.ofIssued : Wait → Bool
  | .nap | .exit _ | .bar _ | .gbar _ | .count .. | .baro .. | .sealing .. | .role _ | .signer _ | .debug => true
  | .issue _ | .migrating _ | .trapped => false

/-- A thread has come to the end of such a wait, and not by a trap or a discard. -/
def waitEnds (a b : Thread) : Bool :=
  (match a.status with
    | .blocked x => x.ofIssued
    | _ => false) &&
  (match b.status with
    | .running => !b.handler || a.handler
    | .exited => true
    | _ => false)

/-- The issue of a warp retired its instruction at once: it brought no trap, no fault of the instruction's own, and left no lane waiting (R288). -/
def retiresAtOnce (s0 s : State) (u : Nat) : Bool :=
  let a := s0.warp u
  let b := s.warp u
  let waits (t : Thread) : Bool := match t.status with
    | .blocked _ => true
    | _ => false
  let own (x : State) : Nat := (x.faults.filter fun f => f.op.warp == u && ((x.warp u).op f.op.op).isNone).length
  decide (own s ≤ own s0) && (a.stopped || !b.stopped) &&
    (List.range b.width).all fun l => (!waits (b.thread l) || waits (a.thread l)) && (!(b.thread l).handler || (a.thread l).handler)

/-- A warp retired an instruction in a step in which `u` issued: the one it issued, or one whose wait has ended (R288). -/
def retires (s0 s : State) (u v : Nat) : Bool :=
  (v == u && retiresAtOnce s0 s u) ||
    (List.range (s.warp v).width).any fun l => waitEnds ((s0.warp v).thread l) ((s.warp v).thread l)

/-- Cycles that a cluster counts in a step: at least one (R4; log 3). -/
def cyclesOf (s : State) (cl : Nat) : Nat := 1 + Config.cycles cl (s.cluster cl).clock.toNat

/-- A warp's cycles: naps count down, its keeper counts where R288 says so, and starts anew where it has `retired` an instruction. -/
def tickWarp (s : State) (retired : Nat → Bool) (w : Warp) : Warp :=
  if w.retired || (s.gang w.gang).state != .placed then w
  else
    let lim := (s.cluster (s.warpGang w).cluster).wklim
    let n := cyclesOf s (s.warpGang w).cluster
    let waits := w.batch.isSome || (w.ops.any fun o => o.state == .faulted) || s.faults.any fun f => f.op.warp == w.uid
    let live := w.live
    let napping := live.all fun l => (w.thread l).status == .blocked .nap
    let counts := live != [] && !napping && !waits && lim != 0
    let nap (t : Thread) : Thread := if t.status == .blocked .nap then { t with nap := t.nap - n } else t
    { w with threads := w.threads.map nap
             keeper := if retired w.uid then 0 else if counts then w.keeper + n else w.keeper }

/-- The command keepers (R290), by the clock of cluster 0: a queue's count goes on in a step in which its oldest ready launch waits and none of its gangs is placed or retires; the notice alone starts it anew. -/
def tickQueues (s0 s : State) : State :=
  let retired (x : State) (u : Nat) : Nat := (x.gangs.filter fun g => g.launch == u && g.state == .retired).length
  each (watchedQueues s) s fun x s =>
    let on := match keeperLaunch s0 x.1 x.2, keeperLaunch s x.1 x.2 with
      | some a, some b => a.uid == b.uid && a.placed == b.placed && retired s0 a.uid == retired s b.uid
      | _, _ => false
    s.onCtx x.1 fun c => c.onQueue x.2 fun k => { k with keeper := if on then k.keeper + cyclesOf s 0 else k.keeper }

/-- Every cluster counts cycles of its own (R4; log 3); `u` is the warp that issued. -/
def tick (s0 : State) (u : Nat) (s : State) : State :=
  let beat (n : Nat) (b : Block) : Block := { b with beacon := b.beacon.map fun x => { x with left := x.left - n } }
  let gang (g : Gang) : Gang := if g.state == .placed then { g with blocks := g.blocks.map (beat (cyclesOf s g.cluster)) } else g
  let t := tickQueues s0 { s with
    warps := s.warps.map (tickWarp s (retires s0 s u))
    gangs := s.gangs.map gang }
  let count (e : Cluster × Nat) : Cluster := { e.1 with clock := e.1.clock + .ofNat 64 (cyclesOf s e.2) }
  let t := touchUnits { t with clusters := t.clusters.zipIdx.map count }
  if ticking t then tickTiles (Config.tileTicks t.draws) t.draw else t

/-- Collectives whose record may be read are taken (R192). -/
def takeColls (s : State) : State := each (s.allOps.filter (collWaits s)) s collStart

/-! ## Replacement (R296 to R298, R301, R415) -/

/-- A line or a translation that a cache may give up: of a core's L1, constant or instruction cache, of L2, of a TLB. -/
inductive Victim
  | l1 (core line : Nat)
  | consts (core line : Nat)
  | code (core line : Nat)
  /-- One byte of the instruction cache, which is fetched anew while the rest of its line stays (R415; log 56). -/
  | codeByte (core k : Nat)
  /-- A line of code that the instruction cache fetches ahead of any fetch: it takes bytes rather than giving them up (R415; log 56). -/
  | ahead (core k : Nat)
  | l2 (line : Nat)
  | tlb (key : Nat)
  deriving DecidableEq, Repr

/-- What one core's caches may give up; a boot ROM's code comes from no memory and stays. -/
def coreVictims (s : State) (core : Nat) (c : CoreCache) : List Victim :=
  (c.lines.map fun e => Victim.l1 core e.1) ++ ((c.consts.map fun e => e.1 / 128).eraseDups.map fun k => .consts core k) ++
    (if (s.launch c.launch).rom then []
      else ((c.code.map fun e => e.1 / 128).eraseDups.map fun k => .code core k) ++ c.code.map fun e => .codeByte core e.1)

/-- The lines of code that seated warps may have fetched ahead. -/
def codeAhead (s : State) : List Victim :=
  (((s.seated []).filter fun w => !(s.warpLaunch w).rom).map fun w =>
    let l := s.warpLaunch w
    (List.range (l.len / 128 + 1)).map fun j => Victim.ahead (s.warpCore w) ((s.space w).loc (codeVa l (128 * j)) / 128 * 128)).flatten.eraseDups

/-- What may leave a cache at any time. A line whose shadow a gang's version holds stays, as the shadow does (R298). -/
def cacheVictims (s : State) : List Victim :=
  (s.caches.map fun e => coreVictims s e.1 e.2).flatten ++
    ((s.mem.lines.filter fun e => !s.gangs.any fun g => decide (e.1 ∈ g.shadows)).map fun e => .l2 e.1) ++
    (s.mem.tlb.map fun e => .tlb e.1) ++ codeAhead s

/-- A core's caches without a line that leaves them. -/
def CoreCache.without (v : Victim) (core : Nat) (c : CoreCache) : CoreCache :=
  match v with
  | .l1 k line => if k = core then c.dropLine (128 * line) else c
  | .consts k line => if k = core then { c with consts := Store.drop c.consts fun j => j / 128 == line } else c
  | .code k line => if k = core then { c with code := Store.drop c.code fun j => j / 128 == line } else c
  | .codeByte k j => if k = core then { c with code := Store.put none c.code j none } else c
  | .l2 _ | .tlb _ | .ahead .. => c

/-- A line of code enters an instruction cache, as far as it lacks bytes, where it can be read. -/
def fetchAhead (core k : Nat) (s : State) : Store CoreCache :=
  match reach k .fetch s with
  | (.line, t) => (fillCode core k { t with caches := s.caches }).caches
  | _ => s.caches

/-- The caches of the cores when one line is replaced, or fetched ahead. -/
def cachesWithout (v : Victim) (s : State) : Store CoreCache :=
  match v with
  | .ahead core k => fetchAhead core k s
  | v => (s.caches.map fun e => (e.1, e.2.without v e.1)).filter fun e => e.2 != {}

/-- The part when a line of L2 is replaced, after its write-back when it is dirty, or a translation is. -/
def stateWithout (v : Victim) (s : State) : State :=
  match v with
  | .l2 line => dropLine line (writeBack line s)
  | .tlb key => { s with mem := { s.mem with tlb := s.mem.tlb.filter fun e => e.1 != key } }
  | .l1 .. | .consts .. | .code .. | .codeByte .. | .ahead .. => s

/-- What leaves a cache during a step: a free choice, nothing among it (log 8). -/
def victimOf (s : State) : Option Victim :=
  let vs := cacheVictims s
  match Config.leaves s.draws % (vs.length + 1) with
  | 0 => none
  | n + 1 => vs[n]?

/-- Replacement: at most one line or translation leaves its cache; what a write-back changes lies in the memories, in what leaves for another part, in the registers it reaches, and in the errors it finds (R298, R364). -/
def replace (s : State) : State :=
  if cacheVictims s = [] then s
  else
    { s with
      draws := s.draws + 1
      caches := match victimOf s with
        | some v => cachesWithout v s
        | none => s.caches
      mem := match victimOf s with
        | some v => (stateWithout v s).mem
        | none => s.mem
      found := match victimOf s with
        | some v => (stateWithout v s).found
        | none => s.found
      sent := match victimOf s with
        | some v => (stateWithout v s).sent
        | none => s.sent
      agenda := match victimOf s with
        | some v => (stateWithout v s).agenda
        | none => s.agenda }

/-- After an event: what waited and need wait no longer goes on, the errors found are recorded, the clocks advance, and the caches replace. -/
def finish (s0 : State) (u : Nat) (s : State) : State :=
  let s := { s with cur := none }
  let t := if s.haltedPart then s else replace (tick s0 u (recordFound (noteMigrating (holdClears (drainAll (takeColls (settle s)))))))
  { t with stall := none }

/-! ## The step -/

/-- Churn programs that can go on. -/
def churns (s : State) : List (Nat × Nat) :=
  (s.gangs.map fun g => ((g.blocks.filter fun b => b.churn.isSome && !b.retired &&
    churnNext g.uid b.rank s != .idle).map fun b => (g.uid, b.rank))).flatten

/-- Counts that have run out: what they cause comes before anything else (R220, R288, R290). -/
def dueEvents (s : State) : List Instr := keeperEvents s ++ blockEvents s

/-- The parts of operations that may be performed ahead: lanes, halves, and a query's declaration. -/
def partChoices (s : State) : List Choice :=
  (s.allOps.map fun r => (opParts s r ++ if wdqDeclares s r then [(0, 3)] else []).map fun (p : Nat × Nat) => Choice.part r p.1 p.2).flatten

/-- A part of an operation is performed. -/
def performAhead (r : OpRef) (lane half : Nat) (s : State) : State :=
  if wdqDeclares s r then declareOn r 16 s else performPart r lane half s

/-- Every choice; a halted part has none. -/
def choices (s : State) : List Choice :=
  if s.haltedPart then []
  else if dueEvents s != [] then (dueEvents s).map .event
  else (events s).map .event ++ partChoices s ++ issues s ++ (churns s).map fun x => .churn x.1 x.2

/-- The choice taken: the only one, or a free one. -/
def chosen (s : State) (cs : List Choice) : Option Choice :=
  match cs with
  | [] => none
  | [c] => some c
  | c :: _ => some (cs.getD (Config.turn s.draws % cs.length) c)

/-- The outcome of an event with what every step does beside it; an event that is not enabled is dropped. -/
def settled (s0 : State) (u : Nat) : Host.Outcome State Fault Refusal → Host.Outcome State Fault Refusal
  | .next s => .next (finish s0 u s)
  | .fault _ => .next (finish s0 u s0)
  | .refused r => .refused r

/-- Whether a warp takes a trap, or reports one, between two states. -/
def trapTaken (u : Nat) (s t : State) : Bool :=
  let traps (s : State) : List (Bool × Word) := (s.warp u).threads.map fun x => (x.handler, x.trapcause)
  s.reports != t.reports || traps s != traps t

/-- In shadow mode an instruction that acts beyond its warp at its issue, and a trap, are held until the shadow has issued its copy (R368). -/
def issueHeld (b : Bundle) (i : Instr) (s t : State) : Bool :=
  (s.warpLaunch (s.warp b.warp)).record.shadow && ((leavesWarp i && !heldInRecord i) || trapTaken b.warp s t)

/-- Lanes of a bundle whose guard holds. -/
def guardedLanes (w : Warp) (i : Instr) (b : Bundle) : Nat :=
  let (gn, gp) := guardOf i
  ((lanesOf b.lanes).filter fun l => (w.thread l).guard gn gp).length

/-- The values an issue queues for the shadow. -/
def queueValues (b : Bundle) (i : Instr) (n : Nat) (s : State) : State :=
  if (s.warpLaunch (s.warp b.warp)).record.shadow then
    s.onWarp b.warp fun w => { w with queued := w.queued ++ [outsideValues i n] }
  else s

/-- A bundle is issued: fetched, counted, and executed, or held for its shadow. -/
def runIssue (c : IssueChoice) (s : State) : Host.Outcome State Fault Refusal :=
  let w := s.warp c.warp
  let b := c.run.bundle c.warp
  match bundleInstr s w c.run.pc with
  | some i =>
    let t := queueValues b i (guardedLanes w i b) (account c (fetch w c.run.pc s).2)
    (match exec i { t with cur := some b } with
      | .next r => .next (if issueHeld b i t r then t.onWarp c.warp fun v => { v with copy := some (b, i) } else r)
      | x => x)
  | none => .next (fetchFails b ((account c s).onWarp c.warp fun v => { v with lag := w.lag }))

/-- The shadow has issued its copy of what is held at the issue: it is executed now, in the lanes that still stand there (R368). -/
def releaseCopy (u : Nat) (s : State) : Host.Outcome State Fault Refusal :=
  let w := s.warp u
  match w.copy, w.lag with
  | some (b, i), [] =>
    let lanes := (lanesOf b.lanes).filter fun l => (w.thread l).status = .running && (w.thread l).pc = b.pc
    let s := s.onWarp u fun w => { w with copy := none }
    if lanes = [] then .next s else exec i { s with cur := some { b with lanes := maskOf lanes } }
  | _, _ => .next s

/-- A churn program takes its next instruction. -/
def runChurn (g rank : Nat) (s : State) : Host.Outcome State Fault Refusal :=
  match churnNext g rank s with
  | .run i b =>
    let s1 := churnEnter g rank s
    let s2 := (fetch (s1.warp b.warp) b.pc s1).2
    (match exec i { s2 with cur := some b } with
      | .next t => .next (churnAfter g rank s t)
      | o => o)
  | .stop pc cause => .next (stopChurn g rank pc cause 0 s)
  | .fetch b => .next (churnSettle g rank s (fetchFails b (churnEnter g rank s)))
  | .idle => .next s

/-- The state on which an event of the part is performed: a warp has run ahead before its batch is formed (R275). -/
def before (i : Instr) (s : State) : State :=
  match i with
  | .recoverableFault k => runAhead k s
  | _ => s

/-- One step: an event from outside that is due; else a frame received at a port; else one choice among what can act, once the issue units have attended to their warps; else a cycle passes. -/
def advanceMachine (s : State) : Host.Outcome State Fault Refusal :=
  match s.agenda with
  | i :: rest =>
    let s := { s with agenda := rest }
    settled s 0 (exec i s)
  | [] =>
    match s.received with
    | x :: rest =>
      let s := { s with received := rest }
      settled s 0 (exec (etherEvent s x) s)
    | [] =>
    let s := if s.haltedPart then s else attend s
    let cs := choices s
    let s1 := if 1 < cs.length then s.draw else s
    match chosen s cs with
    | none => .next (finish s 0 s)
    | some (.event i) => settled s1 0 (exec i (before i s1))
    | some (.part r lane half) => .next (finish s1 0 (performAhead r lane half s1))
    | some (.issue c) => settled s1 c.warp (runIssue c s1)
    | some (.shadow u clear) => settled s1 u (releaseCopy u (shadowTurn u clear s1))
    | some (.churn g rank) => settled s1 0 (runChurn g rank s1)

/-! ## Placing one instruction where the next fetch finds it (log 4) -/

/-- A root warp stands placed, its code beginning at PC 0. -/
def withRoot (s : State) : State :=
  let l := romLaunch s.nextLaunch
  let s := { s with bootScrubbed := true, launches := s.launches ++ [l], nextLaunch := s.nextLaunch + 1 }
  placeNew l.uid 0 [some (0, [28, 29], [(0, 31, 0)])] s

/-- The warp that fetches next: one that stands placed with a run. -/
def fetcher (s : State) : Option Warp :=
  s.warps.find? fun w => !w.mute s && w.runs != []

/-- Twelve bytes of a word stand where that warp fetches. -/
def placeWord (w : Warp) (bs : List Byte) (s : State) : State :=
  match w.runs with
  | [] => s
  | r :: _ =>
    let l := s.warpLaunch w
    s.onCache (s.warpCore w) fun c =>
      let code := each (List.range bs.length) c.code fun j m =>
        Store.put none m ((s.space w).loc (codeVa l (r.pc.toNat + j))) (some (bs.getD j 0))
      { c with code }

/-- The state with a word placed, and nothing due from outside. -/
def placed (nbits w : Nat) (s : State) : State :=
  let s := { s with agenda := [], received := [] }
  let bs := bytesOfNat 12 (w % 2 ^ nbits)
  match fetcher s with
  | some x => placeWord x bs s
  | none =>
    let s := withRoot s
    match fetcher s with
    | some x => placeWord x bs s
    | none => s

end Sys2Proof.Machine
end

