-- ==== Sys2Proof/Machine/Step.lean ====
section
/-! DEFINITION. The step, and the state with one instruction placed where the step fetches next. -/

namespace Sys2Proof.Machine

/-- One step of the part. -/
def step (s : State) : Host.Outcome State Fault Refusal := advanceMachine s

/-- The state with an instruction of `nbits` bits stored where the step fetches its next one (log 4). -/
def State.withFetchWord (s : State) (nbits w : Nat) : State := placed nbits w s

end Sys2Proof.Machine
end

