-- ==== Sys2Proof/Safety.lean ====
section
/-! DEFINITION. The terms the claims use: an instruction that is issued and goes through, what changes beside a warp, what a destination holds afterwards. -/

namespace Sys2Proof.Machine

/-! ## An instruction that goes through -/

/-- The step has chosen bundle `b`; its warp stands in the state with every lane of the bundle; no asynchronous trap waits to be reported and no shadow differs from the warp (R9, R270, R366). -/
structure Issues (s : State) (b : Bundle) : Prop where
  cur : s.cur = some b
  warp : s.hasWarp b.warp = true
  lanes : ∀ l ∈ lanesOf b.lanes, l < (s.warp b.warp).threads.length
  quiet : (s.warp b.warp).asyncTrap = none
  same : (s.warp b.warp).diverged = false

/-- Instruction `i` is issued for bundle `b` and passes steps 3 to 6 of R55 with active lanes `act`. -/
structure Goes (i : Instr) (s : State) (b : Bundle) (act : List Nat) : Prop extends Issues s b where
  passes : check i b s = .go act

/-! ## What changes beside a warp -/

/-- Nothing but warp `u` differs between two states. -/
structure OnlyWarp (u : Nat) (s t : State) : Prop where
  rest : t = { s with warps := t.warps }
  others : ∀ v, v ≠ u → t.warp v = s.warp v
  uids : (t.warps.map fun w => w.uid) = s.warps.map fun w => w.uid

/-- The warp but for its threads and registers. -/
structure OnlyRegs (w w' : Warp) : Prop where
  rest : w' = { w with threads := w'.threads, vregs := w'.vregs, uregs := w'.uregs }
  count : w'.threads.length = w.threads.length

/-! ## Memories -/

/-- The three memories list addresses in strictly rising order, and no byte equal to what an unlisted address reads as. -/
def Mem.Canonical (m : Mem) : Prop := m.l2.wf = true ∧ m.dram.wf = true ∧ m.host.wf = true

/-! ## Destinations (R13 to R17, R21, R53, R59) -/

/-- Register j of a value that takes several, the lowest first (R14). -/
def wordOf (v j : Nat) : Word := .ofNat 32 (v / 2 ^ (32 * j))

/-- A register after an instruction writes `v` to it: the value, full; under EMK the old value, empty and held (R21, R59). -/
def Reg.written (r : Reg) (emk : Bool) (v : Word) : Reg :=
  if emk then { r with full := false, held := true } else { val := v }

/-- Vector register k of lane l when field D has received `val` in the active lanes. -/
def Act.vregAfter (x : Act) (val : Nat → Nat) (w : Warp) (k l : Nat) : Reg :=
  let d := x.r.d.val.toNat
  if x.r.d.kind = .vec ∧ l ∈ x.act ∧ d ≤ k ∧ k < d + x.sh.d.regs then (w.vreg k l).written x.r.h.emk (wordOf (val l) (k - d))
  else w.vreg k l

/-- Uniform register k when field D has received `val` of the lowest active lane. -/
def Act.uregAfter (x : Act) (val : Nat → Nat) (w : Warp) (k : Nat) : Reg :=
  let d := x.r.d.val.toNat
  if x.r.d.kind = .uni ∧ d ≤ k ∧ k < d + x.sh.d.regs then (w.ureg k).written x.r.h.emk (wordOf (val x.first) (k - d))
  else w.ureg k

/-- Predicate k of lane l when field D has received `val` in the active lanes. -/
def Act.predAfter (x : Act) (val : Nat → Nat) (w : Warp) (k l : Nat) : Bool :=
  if x.r.d.kind = .prd ∧ l ∈ x.act ∧ k = x.r.d.val.toNat then decide (val l % 2 = 1) else (w.thread l).preds.getLsbD k

/-- Field D has received `val`; the lanes of the bundle stand at the next word; nothing else of the warp has changed (R55, R58, R107). `zr` discards (R16). -/
structure Wrote (x : Act) (val : Nat → Nat) (w w' : Warp) : Prop where
  rest : OnlyRegs w w'
  vregs : ∀ k l, l < 64 → w'.vreg k l = x.vregAfter val w k l
  uregs : ∀ k, w'.ureg k = x.uregAfter val w k
  threads : ∀ l, l < w.threads.length →
    w'.thread l = { w.thread l with pc := if l ∈ x.lanes then x.pc + 12 else (w.thread l).pc, preds := (w'.thread l).preds }
  preds : ∀ k l, l < w.threads.length → (w'.thread l).preds.getLsbD k = x.predAfter val w k l

/-- The lanes of a bundle stand at the next word, and nothing else of the warp has changed. -/
def Warp.moved (w : Warp) (lanes : List Nat) (pc : Word) : Warp := w.onThreads lanes fun t => { t with pc := pc + 12 }

/-- What an instruction reads and writes, from its bundle. -/
abbrev actAt (i : Instr) (b : Bundle) (act : List Nat) : Act := actOf i b act

/-- The values of the source fields A, B, C and of the old D in lane l, as the instruction reads them. -/
structure Read where
  a : Nat
  b : Nat
  c : Nat
  d : Nat
  deriving DecidableEq, Repr

def Act.read (x : Act) (w : Warp) (l : Nat) : Read := { a := x.valA w l, b := x.valB w l, c := x.valC w l, d := x.valD w l }

end Sys2Proof.Machine
end

