-- ==== Sys2Proof/Certificates/Slice0/Obligations.lean ====
section
/-! DEFINITION. The statements about the model: what the rules of the spec say that the machine does. Each name says what it states; its docstring cites the rules. -/

open Sys2Proof Sys2Proof.Machine

namespace Sys2Proof.Rule

/-! ## Results that the rules give (R94 to R106) -/

/-- A value read as two's complement of `w` bits. -/
def signedOf (w v : Nat) : Int := if v < 2 ^ (w - 1) then v else (v : Int) - 2 ^ w

/-- A value as an integer type reads it (R94). -/
def valueOf (t : ITy) (v : Nat) : Int := if t = .i32 ∨ t = .i64 then signedOf t.bits v else v

/-- An exact integer wrapped to `w` bits (R95). -/
def wrap (w : Nat) (v : Int) : Nat := (v % (2 ^ w : Int)).toNat

/-- An imm32 extended to the width of a typed form (R95): `.i64` sign-extends, `.n64` zero-extends. -/
def typedImm (t : ITy) (imm : BitVec 32) : Nat := if t = .i64 then wrap 64 (signedOf 32 imm.toNat) else imm.toNat

/-- An imm32 extended for a logic form (R95): `.64` sign-extends. -/
def logicImm (w : Wd) (imm : BitVec 32) : Nat := if w = .w64 then wrap 64 (signedOf 32 imm.toNat) else imm.toNat

/-- The value whose bit i below `w` is `f i`. -/
def ofBitFun : Nat → (Nat → Bool) → Nat
  | 0, _ => 0
  | w + 1, f => (if f w then 2 ^ w else 0) + ofBitFun w f

/-- The ends of the field of a control within `w` bits: its bits p up to but not including the second (R101). -/
def fieldOf (w ctl : Nat) : Nat × Nat := (ctl % 128, min (ctl % 128 + ctl / 256 % 128) w)

/-- The truncated quotient of R98: toward zero. -/
def quotient (a b : Int) : Int := if (a < 0) = (b < 0) then a.natAbs / b.natAbs else -(a.natAbs / b.natAbs : Int)

/-- Conditions of R103. -/
def condition (k : Cond) (a b : Int) : Bool :=
  match k with
  | .eq => a = b | .ne => a ≠ b | .lt => a < b | .le => a ≤ b | .gt => a > b | .ge => a ≥ b

/-- The result of an integer, logic, bit-field, comparison, move or address instruction from the values of its fields, as its entry gives it (R96 to R106). -/
def intResult : Instr → Option (Read → Nat)
  | .iadd _ t _ => some fun v => (v.a + v.b) % 2 ^ t.bits
  | .iaddImm _ t f => some fun v => (v.a + typedImm t f.imm) % 2 ^ t.bits
  | .isub _ t _ => some fun v => wrap t.bits ((v.a : Int) - v.b)
  | .isubImm _ t f => some fun v => wrap t.bits ((v.a : Int) - typedImm t f.imm)
  | .imul _ t _ => some fun v => v.a * v.b % 2 ^ t.bits
  | .imulImm _ t f => some fun v => v.a * typedImm t f.imm % 2 ^ t.bits
  | .imulhi _ t _ => some fun v => wrap t.bits (valueOf t v.a * valueOf t v.b / 2 ^ t.bits)
  | .imad _ t _ => some fun v => (v.a * v.b + v.c) % 2 ^ t.bits
  | .imadw _ true _ => some fun v => wrap 64 (signedOf 32 v.a * signedOf 32 v.b + v.c)
  | .imadw _ false _ => some fun v => (v.a * v.b + v.c) % 2 ^ 64
  | .imin _ t _ => some fun v => if valueOf t v.a ≤ valueOf t v.b then v.a else v.b
  | .iminImm _ t f => some fun v => if valueOf t v.a ≤ valueOf t (typedImm t f.imm) then v.a else typedImm t f.imm
  | .imax _ t _ => some fun v => if valueOf t v.b ≤ valueOf t v.a then v.a else v.b
  | .imaxImm _ t f => some fun v => if valueOf t (typedImm t f.imm) ≤ valueOf t v.a then v.a else typedImm t f.imm
  | .iabs _ w _ => some fun v => if signedOf w.bits v.a < 0 then wrap w.bits (-(v.a : Int)) else v.a
  | .ineg _ w _ => some fun v => wrap w.bits (-(v.a : Int))
  | .shl _ w _ => some fun v => if v.b < w.bits then v.a * 2 ^ v.b % 2 ^ w.bits else 0
  | .shr _ w _ => some fun v => if v.b < w.bits then v.a / 2 ^ v.b else 0
  | .sar _ w _ => some fun v =>
      if v.b < w.bits then wrap w.bits (signedOf w.bits v.a / 2 ^ v.b)
      else if v.a.testBit (w.bits - 1) then 2 ^ w.bits - 1 else 0
  | .rot _ w _ => some fun v => ofBitFun w.bits fun i => v.a.testBit ((i + w.bits - v.b % w.bits) % w.bits)
  | .and _ w _ => some fun v => ofBitFun w.bits fun i => v.a.testBit i && v.b.testBit i
  | .andImm _ w f => some fun v => ofBitFun w.bits fun i => v.a.testBit i && (logicImm w f.imm).testBit i
  | .or _ w _ => some fun v => ofBitFun w.bits fun i => v.a.testBit i || v.b.testBit i
  | .orImm _ w f => some fun v => ofBitFun w.bits fun i => v.a.testBit i || (logicImm w f.imm).testBit i
  | .xor _ w _ => some fun v => ofBitFun w.bits fun i => v.a.testBit i != v.b.testBit i
  | .xorImm _ w f => some fun v => ofBitFun w.bits fun i => v.a.testBit i != (logicImm w f.imm).testBit i
  | .not _ w _ => some fun v => ofBitFun w.bits fun i => !v.a.testBit i
  | .bool3 _ w f => some fun v => ofBitFun w.bits fun i =>
      f.imm.getLsbD ((v.a.testBit i).toNat + 2 * (v.b.testBit i).toNat + 4 * (v.d.testBit i).toNat)
  | .bfe _ t _ => some fun v =>
      let (lo, hi) := fieldOf t.bits v.b
      ofBitFun t.bits fun i =>
        if lo < hi then (if i < hi - lo then v.a.testBit (lo + i) else (t = .i32 || t = .i64) && v.a.testBit (hi - 1)) else false
  | .bfi _ w _ => some fun v =>
      let (lo, hi) := fieldOf w.bits v.c
      ofBitFun w.bits fun i => if lo ≤ i ∧ i < hi then v.a.testBit (i - lo) else v.b.testBit i
  | .popc _ w _ => some fun v => ((List.range w.bits).filter v.a.testBit).length
  | .clz _ w _ => some fun v => ((List.range w.bits).takeWhile fun i => !v.a.testBit (w.bits - 1 - i)).length
  | .brev _ w _ => some fun v => ofBitFun w.bits fun i => v.a.testBit (w.bits - 1 - i)
  | .isetp _ k t _ => some fun v => if condition k (valueOf t v.a) (valueOf t v.b) then 1 else 0
  | .icmp _ k t _ => some fun v => if condition k (valueOf t v.a) (valueOf t v.b) then 0xFFFFFFFF else 0
  | .sel _ _ _ => some fun v => if v.c = 1 then v.a else v.b
  | .pset _ o _ => some fun v =>
      let x := (v.a == 1) != v.c.testBit 0
      let y := (v.b == 1) != v.c.testBit 1
      let z := match o with
        | .and => x && y
        | .or => x || y
        | .xor => x != y
      if z != v.c.testBit 2 then 1 else 0
  | .mov _ _ _ => some fun v => v.a
  | .movi _ f => some fun _ => f.imm.toNat
  | .lea _ k _ => some fun v => wrap 64 ((v.a : Int) + signedOf 32 v.b * 2 ^ k.code)
  | _ => none

end Sys2Proof.Rule

/-! ## Integer instructions -/

/-- R96, R97, R99 to R106 with R16, R21, R58, R59: an integer, logic, bit-field, comparison, move or address instruction that goes through answers a next state in which field D holds the result of its entry in every active lane (EMK holds it empty), its bundle stands at the next word, and nothing else has changed: no other register, predicate, special register, thread, warp, memory or register of the part. -/
def Obligations.IntegerResult : Prop :=
  ∀ (i : Instr) (g : Read → Nat) (s : State) (b : Bundle) (act : List Nat),
    Rule.intResult i = some g → i.wf = true → Goes i s b act →
    ∃ t, exec i s = .next t ∧ OnlyWarp b.warp s t ∧
      Wrote (actAt i b act) (fun l => g ((actAt i b act).read (s.warp b.warp) l)) (s.warp b.warp) (t.warp b.warp)


/-! ## Floating point (R73 to R93, R118 to R132) -/

namespace Sys2Proof.Rule

/-- Order of two exact values; none when either is NaN. Zeros of both signs are equal. -/
def order : Machine.Num → Machine.Num → Option Ordering
  | .nan, _ | _, .nan => none
  | .inf s, .inf t => some (if s = t then .eq else if s then .lt else .gt)
  | .inf s, .fin .. => some (if s then .lt else .gt)
  | .fin .., .inf t => some (if t then .gt else .lt)
  | .fin s m e, .fin t n k =>
    let q := min e k
    some (compare (aligned s m e q) (aligned t n k q))

/-- The FC conditions (R65): the first six are false when either operand is NaN, the six with `u` true. -/
def floatCondition (k : FCond) (o : Option Ordering) : Bool :=
  match k with
  | .eq => o = some .eq | .ne => o = some .lt || o = some .gt | .lt => o = some .lt
  | .le => o = some .lt || o = some .eq | .gt => o = some .gt | .ge => o = some .gt || o = some .eq
  | .equ => o = none || o = some .eq | .neu => o != some .eq | .ltu => o = none || o = some .lt
  | .leu => o != some .gt | .gtu => o = none || o = some .gt | .geu => o != some .lt
  | .num => o != none | .nan => o = none

/-- The format an FP32 or FP64 form computes in. -/
def width (dbl : Bool) : FloatFmt := if dbl then f64Fmt else f32Fmt

/-- FMIN and FMAX (R74, R120): the operand that is not NaN, the canonical NaN when both are, −0.0 below +0.0. -/
def extremum (big : Bool) (a b : Nat) : Nat :=
  match f32Fmt.value a, f32Fmt.value b with
  | .nan, .nan => 0x7FC00000
  | .nan, _ => b
  | _, .nan => a
  | x, y =>
    let below := match order x y with
      | some .lt => true
      | some .eq => a.testBit 31 && !b.testBit 31
      | _ => false
    if below = big then b else a

/-- The class bit of a code of `e` exponent and `p` trailing bits (R124). -/
def classBit (e p x : Nat) : Nat :=
  let neg := x.testBit (e + p)
  let ex := x / 2 ^ p % 2 ^ e
  let tr := x % 2 ^ p
  if ex = 2 ^ e - 1 then
    (if tr = 0 then (if neg then 0 else 7) else if tr.testBit (p - 1) then 9 else 8)
  else if ex = 0 then (if tr = 0 then (if neg then 3 else 4) else if neg then 2 else 5)
  else (if neg then 1 else 6)

/-- FRND (R123): an integral value, an infinity and a magnitude of 2^23 or more unchanged, NaN canonical, a zero result with the sign of the input; else the integer that the mode chooses between the two neighbours. -/
def roundedIntegral (mode : RndA) (x : Nat) : Nat :=
  match f32Fmt.value x with
  | .nan => 0x7FC00000
  | .inf _ => x
  | .fin s n e =>
    if 0 ≤ e ∨ n % 2 ^ (-e).toNat = 0 then x
    else
      let den := 2 ^ (-e).toNat
      let lo := n / den
      let up := match mode with
        | .rn => decide (den < 2 * (n % den)) || (decide (2 * (n % den) = den) && decide (lo % 2 = 1))
        | .rz => false
        | .rp => !s
        | .rm => s
      f32Fmt.round .rn (.fin s (if up then lo + 1 else lo) 0)

/-- A function of FP16 or BF16 values applied to both halves (R121). -/
def halves (g : Nat → Nat → Nat → Nat) (x y z : Nat) : Nat :=
  g (x % 2 ^ 16) (y % 2 ^ 16) (z % 2 ^ 16) + 2 ^ 16 * g (x / 2 ^ 16 % 2 ^ 16) (y / 2 ^ 16 % 2 ^ 16) (z / 2 ^ 16 % 2 ^ 16)

/-- The exact sum, product, and product with addend of codes of a format, rounded once (R74, R119). -/
def sum (f : FloatFmt) (r : RndA) (a b : Nat) : Nat := f.round r.full (Machine.Num.add (r = .rm) (f.value a) (f.value b))
def product (f : FloatFmt) (r : RndA) (a b : Nat) : Nat := f.round r.full (Machine.Num.mul (f.value a) (f.value b))
def fused (f : FloatFmt) (r : RndA) (a b c : Nat) : Nat :=
  f.round r.full (Machine.Num.add (r = .rm) (Machine.Num.mul (f.value a) (f.value b)) (f.value c))

/-- The result of an FP32, FP64 or packed instruction from the values of its fields, as its entry gives it (R119 to R124). -/
def floatResult : Instr → Option (Read → Nat)
  | .fadd _ r _ => some fun v => sum f32Fmt r v.a v.b
  | .fmul _ r _ => some fun v => product f32Fmt r v.a v.b
  | .ffma _ r _ => some fun v => fused f32Fmt r v.a v.b v.c
  | .dadd _ r _ => some fun v => sum f64Fmt r v.a v.b
  | .dmul _ r _ => some fun v => product f64Fmt r v.a v.b
  | .dfma _ r _ => some fun v => fused f64Fmt r v.a v.b v.c
  | .hadd2 _ bf r _ => some fun v => halves (fun a b _ => sum (if bf then bf16Fmt else f16Fmt) r a b) v.a v.b 0
  | .hmul2 _ bf r _ => some fun v => halves (fun a b _ => product (if bf then bf16Fmt else f16Fmt) r a b) v.a v.b 0
  | .hfma2 _ bf r _ => some fun v => halves (fused (if bf then bf16Fmt else f16Fmt) r) v.a v.b v.c
  | .fmin _ _ => some fun v => extremum false v.a v.b
  | .fmax _ _ => some fun v => extremum true v.a v.b
  | .fsetp _ dbl k _ => some fun v => if floatCondition k (order ((width dbl).value v.a) ((width dbl).value v.b)) then 1 else 0
  | .fcmp _ dbl k _ => some fun v =>
      if floatCondition k (order ((width dbl).value v.a) ((width dbl).value v.b)) then 0xFFFFFFFF else 0
  | .frnd _ r _ => some fun v => roundedIntegral r v.a
  | .fclass _ dbl _ => some fun v => 2 ^ (if dbl then classBit 11 52 v.a else classBit 8 23 v.a)
  | _ => none

/-- The single-word instruction beside a half-operation (R63, R71). -/
def single (o : PairOp) : Instr :=
  let h : Hdr := { gn := false, gp := 7, fec := false, feb := false, fea := false, heat := 0, div := false, wbl := false,
                   wbe := false, emk := false }
  let z : Operand := { kind := .zr, val := 0 }
  let f : Ops := { d := z, a := z, b := z, c := z }
  match o with
  | .iadd => .iadd h .i32 f | .isub => .isub h .i32 f | .imul => .imul h .i32 f
  | .imin => .imin h .i32 f | .imax => .imax h .i32 f | .iminN => .imin h .n32 f | .imaxN => .imax h .n32 f
  | .and => .and h .w32 f | .or => .or h .w32 f | .xor => .xor h .w32 f | .not => .not h .w32 f
  | .shl => .shl h .w32 f | .shr => .shr h .w32 f | .sar => .sar h .w32 f | .mov => .mov h .w32 f
  | .popc => .popc h .w32 f | .fadd => .fadd h .rn f | .fmul => .fmul h .rn f | .fmin => .fmin h f | .fmax => .fmax h f
  | .hadd2 => .hadd2 h false .rn f | .hmul2 => .hmul2 h false .rn f
  | .hadd2bf => .hadd2 h true .rn f | .hmul2bf => .hmul2 h true .rn f
  | .iabs => .iabs h .w32 f | .ineg => .ineg h .w32 f | .clz => .clz h .w32 f | .brev => .brev h .w32 f

/-- The result of one half of a paired word in lane l. -/
def halfResult (p : Half) (w : Warp) (l : Nat) : Nat :=
  let v : Read := { a := (w.vreg p.a.toNat l).val.toNat, b := (w.vreg p.b.toNat l).val.toNat, c := 0, d := 0 }
  (((intResult (single p.op)).or (floatResult (single p.op))).map fun g => g v).getD 0

end Sys2Proof.Rule

/-- R119 to R124 with R74: a floating-point instruction that goes through answers a next state in which field D holds the exact result rounded once, the selected operand, the condition or the class, in every active lane; its bundle stands at the next word and nothing else has changed: no flag (R74), register, thread or memory. -/
def Obligations.FloatResult : Prop :=
  ∀ (i : Instr) (g : Read → Nat) (s : State) (b : Bundle) (act : List Nat),
    Rule.floatResult i = some g → i.wf = true → Goes i s b act →
    ∃ t, exec i s = .next t ∧ OnlyWarp b.warp s t ∧
      Wrote (actAt i b act) (fun l => g ((actAt i b act).read (s.warp b.warp) l)) (s.warp b.warp) (t.warp b.warp)

/-- R80 to R82: a magnitude num / den is rounded to one of the two neighbouring codes of a format: the lower one is not above it and the next one is above it, an exact value is kept and reported exact, and the mode chooses: nearest by the distance and then the even code, toward zero, toward +∞ and −∞ by the sign, stochastic by the fraction floor(2^16 × rem) against the seed. -/
def Sys2Proof.Rule.RoundingChoosesNeighbour : Prop :=
  ∀ (f : FloatFmt) (mode : Rnd) (neg : Bool) (num den seed : Nat), 1 ≤ f.prec → 0 < num → 0 < den →
    let lo := (f.roundMag .rz neg num den seed).1
    let val (c : Nat) : ℚ := (f.magnitude c).1 * (2 : ℚ) ^ (f.magnitude c).2
    let x : ℚ := num / den
    let r := f.roundMag mode neg num den seed
    val lo ≤ x ∧ x < val (lo + 1) ∧ (r.2 = true ↔ val lo < x) ∧ (r.1 = lo ∨ r.1 = lo + 1) ∧
      (x = val lo → r.1 = lo) ∧
      (val lo < x → match mode with
        | .rn => (x - val lo < val (lo + 1) - x → r.1 = lo) ∧ (val (lo + 1) - x < x - val lo → r.1 = lo + 1) ∧
            (x - val lo = val (lo + 1) - x → r.1 % 2 = 0)
        | .rz => r.1 = lo
        | .rp => r.1 = if neg then lo else lo + 1
        | .rm => r.1 = if neg then lo + 1 else lo
        | .rs => (r.1 = lo + 1 ↔ (seed : ℤ) ≤ ⌊2 ^ 16 * ((x - val lo) / (val (lo + 1) - val lo))⌋))

/-- R73, R81: an IEEE result keeps a value the format holds: every code of FP64, FP32, FP16 and BF16 that is not NaN is the round of its own value under every mode. -/
def Sys2Proof.Rule.RoundKeepsRepresentable : Prop :=
  ∀ (f : FloatFmt) (mode : Rnd) (c : Nat), f ∈ [f64Fmt, f32Fmt, f16Fmt, bf16Fmt] → mode ≠ .rs → c < 2 ^ (f.bits + 1) →
    f.isNan c = false → f.round mode (f.value c) = c

/-- R61 to R63: a paired word that goes through answers a next state in which both destinations hold in every active lane the results of the single-word instructions of their halves, read before either is written; its bundle stands at the next word and nothing else has changed. -/
def Obligations.PairedWordResult : Prop :=
  ∀ (h : PairHdr) (x y : Half) (s : State) (b : Bundle) (act : List Nat),
    Instr.wf (.pairedWord h x y) = true → Goes (.pairedWord h x y) s b act →
    ∃ t, exec (.pairedWord h x y) s = .next t ∧ OnlyWarp b.warp s t ∧ OnlyRegs (s.warp b.warp) (t.warp b.warp) ∧
      (∀ k l, l < 64 → (t.warp b.warp).vreg k l =
        if l ∈ act ∧ k = x.d.toNat then { val := .ofNat 32 (Rule.halfResult x (s.warp b.warp) l) }
        else if l ∈ act ∧ k = y.d.toNat then { val := .ofNat 32 (Rule.halfResult y (s.warp b.warp) l) }
        else (s.warp b.warp).vreg k l) ∧
      (∀ k, (t.warp b.warp).ureg k = (s.warp b.warp).ureg k) ∧
      ∀ l, (t.warp b.warp).thread l = ((s.warp b.warp).moved (lanesOf b.lanes) b.pc).thread l

/-! ## Conversions -/

/-- R83: a conversion writes D, ORs its events into `sr.cvtflags` and leaves the lane's seed, in one pass; the rest is as for any write of D. -/
def Sys2Proof.Rule.Converts (x : Act) (val : Nat → Nat) (events : Nat → BitVec 5) (seed : Nat → BitVec 16) (w w' : Warp) : Prop :=
  ∃ v, Wrote x val w v ∧ w' = { v with threads := w'.threads } ∧ w'.threads.length = v.threads.length ∧
    ∀ l, w'.thread l = if l ∈ x.act then { v.thread l with cvtflags := (v.thread l).cvtflags ||| events l, seed := seed l } else v.thread l

namespace Sys2Proof.Rule

/-- The magnitude that a code names (R73, R75, R79). -/
def magOf (f : FloatFmt) (c : Nat) : ℚ := (f.magnitude c).1 * (2 : ℚ) ^ (f.magnitude c).2

/-- Whether a magnitude between two neighbours goes to the upper one (R80, R82). -/
def goesToUpper (mode : Rnd) (neg odd : Bool) (lo x hi : ℚ) (seed : Nat) : Prop :=
  lo < x ∧ match mode with
    | .rn => hi - x < x - lo ∨ (hi - x = x - lo ∧ odd = true)
    | .rz => False
    | .rp => neg = false
    | .rm => neg = true
    | .rs => (seed : ℤ) ≤ ⌊2 ^ 16 * ((x - lo) / (hi - lo))⌋

open Classical in
/-- `c` is the code of a magnitude rounded into a format as if its exponents had no upper bound (R80 to R82). -/
def Rounds (f : FloatFmt) (mode : Rnd) (neg : Bool) (x : ℚ) (seed c : Nat) : Prop :=
  ∃ lo, magOf f lo ≤ x ∧ x < magOf f (lo + 1) ∧
    c = if goesToUpper mode neg (lo.testBit 0) (magOf f lo) x (magOf f (lo + 1)) seed then lo + 1 else lo

/-- The overflow table of R81: whether it gives the infinity. -/
def tableInf (mode : Rnd) (neg : Bool) : Prop :=
  match mode with
  | .rn | .rs => True
  | .rz => False
  | .rp => neg = false
  | .rm => neg = true

open Classical in
/-- What a finite value of sign `neg` and magnitude x gives in a floating target, and its events (R81, R84, R85): nansub 1, infsub 2, ovfsub 4, underflow 8, inexact 16 (R29). -/
def Delivers (f : FloatFmt) (mode : Rnd) (neg : Bool) (x : ℚ) (seed subst : Nat) (r : Nat × BitVec 5) : Prop :=
  ∃ c, Rounds f mode neg x seed c ∧
    let sign := if neg = true ∧ f.signed = true ∧ (f.ieee = true ∨ c ≠ 0) then 2 ^ f.bits else 0
    let out : Nat × BitVec 5 :=
      if neg = true ∧ f.signed = false ∧ c ≠ 0 then (subst, 4)
      else if f.maxCode < c then
        (if tableInf mode neg then (match f.inf with
          | some i => (sign + i, 16)
          | none => (subst, 4)) else (sign + f.maxCode, 16))
      else if c = 0 ∧ x ≠ 0 then (sign, 24)
      else (sign + c, if magOf f c = x then 0 else 16)
    r = out

/-- What a value gives in a floating target, and its events (R84). -/
def IntoFloat (f : FloatFmt) (mode : Rnd) (seed subst : Nat) : Machine.Num → Nat × BitVec 5 → Prop
  | .nan, r => r = (f.nan, 0)
  | .inf s, r => r = match f.inf with
      | some i => if s = true ∧ f.signed = false then (subst, 2) else ((if s then 2 ^ f.bits else 0) + i, 0)
      | none => (subst, 2)
  | .fin s n e, r => Delivers f mode s (n * (2 : ℚ) ^ e) seed subst r

/-- The substitute of an integer target, from field C (R127): of an event upward, downward, or without a direction. -/
def intSubstitute (k : CvtFmt) (c : Nat) (up : Option Bool) : Nat :=
  let signed := k = .i32 ∨ k = .i64
  if c.testBit 15 then match up with
    | none => 0
    | some true => if signed then 2 ^ (k.bits - 1) - 1 else 2 ^ k.bits - 1
    | some false => if signed then 2 ^ (k.bits - 1) else 0
  else if signed then wrap k.bits (signedOf 15 (c % 2 ^ 15)) else c % 2 ^ 15

open Classical in
/-- What a value gives in an integer target, and its events (R84, R127, R128). -/
def IntoInt (k : CvtFmt) (mode : Rnd) (seed c : Nat) : Machine.Num → Nat × BitVec 5 → Prop
  | .nan, r => r = (intSubstitute k c none, 1)
  | .inf s, r => r = (intSubstitute k c (some !s), 2)
  | .fin s n e, r =>
    let x : ℚ := n * (2 : ℚ) ^ e
    let lo := ⌊x⌋
    let m : ℤ := if goesToUpper mode s (lo.toNat.testBit 0) lo x (lo + 1) seed then lo + 1 else lo
    let y : ℤ := if s then -m else m
    let signed := k = .i32 ∨ k = .i64
    let least : ℤ := if signed then -2 ^ (k.bits - 1) else 0
    let most : ℤ := if signed then 2 ^ (k.bits - 1) - 1 else 2 ^ k.bits - 1
    let out : Nat × BitVec 5 :=
      if y < 0 ∧ ¬signed then (intSubstitute k c none, 4)
      else if most < y then (intSubstitute k c (some true), 4)
      else if y < least then (intSubstitute k c (some false), 4)
      else if y = 0 ∧ x ≠ 0 then (0, 24)
      else (wrap k.bits y, if m = x then 0 else 16)
    r = out

/-- The rounding mode of a code (R80). -/
def modeOf (c : Nat) : Rnd := if c = 1 then .rz else if c = 2 then .rp else if c = 3 then .rm else if c = 4 then .rs else .rn

/-- What a value gives in a target of CVT, whose control names a binary8 side (R125 to R128). -/
def IntoTarget (k : CvtFmt) (ctl c seed : Nat) (v : Machine.Num) (r : Nat × BitVec 5) : Prop :=
  match k with
  | .f64 => IntoFloat f64Fmt (modeOf (ctl / 32)) seed (c % 256) v r
  | .f32 => IntoFloat f32Fmt (modeOf (ctl / 32)) seed (c % 256) v r
  | .f16 => IntoFloat f16Fmt (modeOf (ctl / 32)) seed (c % 256) v r
  | .bf16 => IntoFloat bf16Fmt (modeOf (ctl / 32)) seed (c % 256) v r
  | .e4m3 => IntoFloat e4m3Fmt (modeOf (ctl / 32)) seed (c % 256) v r
  | .b8 => IntoFloat (b8Fmt (ctl % 8) (ctl.testBit 3) (ctl.testBit 4)) (modeOf (ctl / 32)) seed (c % 256) v r
  | .i32 | .n32 | .i64 | .n64 => IntoInt k (modeOf (ctl / 32)) seed c v r

end Sys2Proof.Rule

/-- R81, R82, R84, R125 to R128, R41: CVT converts the exact value of A in every active lane, or a uniform A once, rounds it once into the target under the mode, with the substitute of field C, ORs the events into the sticky flags of every active lane, and under `.rs` advances each active lane's own seed one step first and otherwise leaves it. The one uniform form under `.rs`, with D = zr, draws from the stepped seed of the lowest active lane: the model's choice (log 59). -/
def Sys2Proof.Rule.CvtResult : Prop :=
  ∀ (h : Hdr) (src dst : CvtFmt) (f : OpsH) (s : State) (b : Bundle) (act : List Nat),
    Instr.wf (.cvt h src dst f) = true → Goes (.cvt h src dst f) s b act →
    let x := actAt (.cvt h src dst f) b act
    let w := s.warp b.warp
    let ctl := f.b.val.toNat
    let next (l : Nat) : BitVec 16 := if ctl / 32 = 4 then seedStep (w.thread l).seed else (w.thread l).seed
    let by' (l : Nat) : Nat := if x.uniform then x.first else l
    ∃ (t : State) (r : Nat → Nat × BitVec 5), exec (.cvt h src dst f) s = .next t ∧ OnlyWarp b.warp s t ∧
      (∀ l ∈ act, Rule.IntoTarget dst ctl f.imm.toNat (next (by' l)).toNat (cvtValue src ctl (x.read w (by' l)).a) (r l)) ∧
      Rule.Converts x (fun l => (r l).1) (fun l => (r l).2) next w (t.warp b.warp)

/-- R82: the step of a stochastic seed keeps it from 0, and is one to one. -/
def Sys2Proof.Rule.SeedStepIsPermutation : Prop :=
  (∀ s : BitVec 16, s ≠ 0 → seedStep s ≠ 0) ∧ ∀ s t : BitVec 16, seedStep s = seedStep t → s = t

namespace Sys2Proof.Rule

/-- The value a lane of QUANT quantises (R129): A in the source format of the format word. -/
def quantValue (fw a : Nat) : Machine.Num :=
  let src := fmtWordFloat (fw % 64)
  src.value (a % 2 ^ (8 * fmtWordBytes (fw % 64)))

/-- The magnitude of a finite value. -/
def finiteMag : Machine.Num → Option ℚ
  | .fin _ n e => some (n * (2 : ℚ) ^ e)
  | .nan | .inf _ => none

/-- R89 step 2: `sc` is the scale of a block, for the largest finite value q of the target. -/
def ScaleOf (q : ℚ) (vs : List Machine.Num) (sc : Nat) : Prop :=
  let ms := vs.filterMap finiteMag
  ((∀ m ∈ ms, m = 0) → sc = 0x38) ∧
  ∀ amax ∈ ms, amax ≠ 0 → (∀ m ∈ ms, m ≤ amax) → ∃ c, Rounds e4m3Fmt .rp false (amax / q) 0 c ∧ sc = min c 0x7E

/-- R89 step 3: an element over its scale, rounded once into the target (R84). -/
def Quantised (f : FloatFmt) (mode : Rnd) (subst sc seed : Nat) (v : Machine.Num) (r : Nat × BitVec 5) : Prop :=
  match v with
  | .fin s n e => Delivers f mode s (n * (2 : ℚ) ^ e / magOf e4m3Fmt sc) seed subst r
  | v => IntoFloat f mode seed subst v r

end Sys2Proof.Rule

/-- R81, R82, R84, R89, R129, R130: QUANT whose format word names an IEEE source and a binary8 target writes in every active lane the start bit, the scale of the lane's block, and the element over that scale, rounded once into the target; flags gather the lane's events; under `.rs` each lane steps its seed once. The blocks are those of R89 over the active lanes in ascending order. -/
def Sys2Proof.Rule.QuantResult : Prop :=
  ∀ (h : Hdr) (r : Rnd) (f : Ops) (s : State) (b : Bundle) (act : List Nat),
    Instr.wf (.quant h r f) = true → Goes (.quant h r f) s b act →
    let x := actAt (.quant h r f) b act
    let w := s.warp b.warp
    let fw := (x.read w x.first).c
    let ctl := (x.read w x.first).b
    let dst := fmtWordFloat (fw / 256 % 64)
    let vals := act.map fun l => (l, Rule.quantValue fw (x.read w l).a)
    let blocks := intoBlocks (vals.zip (blockStarts (ctl % 256) (vals.map Prod.snd) none 0))
    quantWordOk fw = true →
    ∃ t v, exec (.quant h r f) s = .next t ∧ OnlyWarp b.warp s t ∧ Wrote x v w { t.warp b.warp with threads := (w.moved (lanesOf b.lanes) b.pc).threads } ∧
      ∀ blk ∈ blocks, ∃ sc, Rule.ScaleOf (Rule.magOf dst dst.maxCode) (blk.map fun e => e.1.2) sc ∧ ∀ e ∈ blk,
        let l := e.1.1
        let next := if r = .rs then seedStep (w.thread l).seed else (w.thread l).seed
        ∃ c, Rule.Quantised dst r (ctl / 256 % 256) sc next.toNat e.1.2 c ∧
        v l = (if e.2 then 65536 else 0) + sc * 256 + c.1 ∧
        (t.warp b.warp).thread l =
          { w.thread l with pc := b.pc + 12, cvtflags := (w.thread l).cvtflags ||| c.2, seed := next }

/-- R129, R87: QUANT with a format word it does not take raises ARITH before any effect, reported in the lowest active lane with the word in `sr.trapinfo`. -/
def Sys2Proof.Rule.QuantBadWordTraps : Prop :=
  ∀ (h : Hdr) (r : Rnd) (f : Ops) (s : State) (b : Bundle) (act : List Nat), Goes (.quant h r f) s b act →
    let x := actAt (.quant h r f) b act
    let fw := (x.read (s.warp b.warp) x.first).c
    quantWordOk fw = false →
    exec (.quant h r f) s = .next (x.trap x.first { cause := causeArith, info := .ofNat 32 fw } (s.advance b.warp (lanesOf b.lanes) b.pc))

/-! ## Results written later (R98, R132) -/

namespace Sys2Proof.Rule

/-- The quotient and remainder of R98, with its table of cases. -/
def idivResult (t : ITy) (a b : Nat) : Nat :=
  if b = 0 then 2 ^ t.bits - 1
  else if valueOf t a = -2 ^ (t.bits - 1) ∧ valueOf t b = -1 then a
  else wrap t.bits (quotient (valueOf t a) (valueOf t b))
def iremResult (t : ITy) (a b : Nat) : Nat :=
  if b = 0 then a
  else if valueOf t a = -2 ^ (t.bits - 1) ∧ valueOf t b = -1 then 0
  else wrap t.bits (valueOf t a - quotient (valueOf t a) (valueOf t b) * valueOf t b)

/-- The table of special values of R132: what a function gives for −∞, −0, +0, +∞ and NaN. -/
def specialValue (i : Instr) (x : Nat) : Option Nat :=
  let row (nInf nZero pZero pInf : Nat) : Option Nat :=
    if x = 0xFF800000 then some nInf else if x = 0x80000000 then some nZero else if x = 0 then some pZero
    else if x = 0x7F800000 then some pInf else if x / 2 ^ 23 % 256 = 255 then some 0x7FC00000 else none
  match i with
  | .rcp .. => row 0x80000000 0xFF800000 0x7F800000 0
  | .rsq .. => row 0x7FC00000 0xFF800000 0x7F800000 0
  | .sqrt .. => row 0x7FC00000 0x80000000 0 0x7F800000
  | .exp2 .. => row 0 0x3F800000 0x3F800000 0x7F800000
  | .log2 .. => row 0x7FC00000 0xFF800000 0xFF800000 0x7F800000
  | .sin .. => row 0x7FC00000 0x80000000 0 0x7FC00000
  | .cos .. => row 0x7FC00000 0x3F800000 0x3F800000 0x7FC00000
  | .tanh .. => row 0xBF800000 0x80000000 0 0x3F800000
  | _ => none

/-- The instructions whose result is written later (R98, R131). -/
def isLater : Instr → Bool
  | .idiv .. | .irem .. | .rcp .. | .rsq .. | .sqrt .. | .exp2 .. | .log2 .. | .sin .. | .cos .. | .tanh .. => true
  | _ => false

/-- Field D stands empty in the lanes given, owed, or held under EMK; every other register is as it was (R21, R59). -/
def DEmpty (x : Act) (lanes : List Nat) (w w' : Warp) : Prop :=
  let d := x.r.d.val.toNat
  (∀ k l, l < 64 → w'.vreg k l = if x.r.d.kind = .vec ∧ l ∈ lanes ∧ d ≤ k ∧ k < d + x.sh.d.regs
    then { w.vreg k l with full := false, held := x.r.h.emk } else w.vreg k l) ∧
  ∀ k, w'.ureg k = if x.r.d.kind = .uni ∧ d ≤ k ∧ k < d + x.sh.d.regs then { w.ureg k with full := false, held := x.r.h.emk } else w.ureg k

/-- One operation more stands at the end of the record, with the next number (R24, R282). -/
def Recorded (o : Op) (w w' : Warp) : Prop := w'.ops = w.ops ++ [{ o with id := w.nextOp }] ∧ w'.nextOp = w.nextOp + 1

/-- A warp that has issued an operation: its record, its registers, its PCs; the rest as it was. -/
def Owes (x : Act) (o : Op) (w w' : Warp) : Prop :=
  Recorded o w w' ∧ DEmpty x x.runs w w' ∧
    w' = { w.moved x.lanes x.pc with vregs := w'.vregs, uregs := w'.uregs, ops := w'.ops, nextOp := w'.nextOp }

end Sys2Proof.Rule

/-- R21, R98, R131: IDIV, IREM and the special functions issue at once: D stands empty in every lane that performs, the operands stand in the record, the bundle moves on and nothing else changes; the result is written later. -/
def Sys2Proof.Rule.LaterResultOwed : Prop :=
  ∀ (i : Instr) (s : State) (b : Bundle) (act : List Nat), Rule.isLater i = true → i.wf = true → Goes i s b act →
    let x := actAt i b act
    let w := s.warp b.warp
    let slots := x.runs.map fun l => ({ lane := l, addr := 0, data := BitVec.ofNat 128 ((x.read w l).a + (x.read w l).b * 2 ^ 64) } : Slot)
    ∃ t, exec i s = .next t ∧ OnlyWarp b.warp s t ∧
      Rule.Owes x { id := 0, ins := i, pc := b.pc, lanes := maskOf act, ctr := none, state := .sent, slots } w (t.warp b.warp)

/-- R98: the values IDIV and IREM deliver, with division by zero and the most negative value by −1. -/
def Sys2Proof.Rule.DivisionValues : Prop :=
  ∀ (h : Hdr) (t : ITy) (f : Ops) (a b : Nat), a < 2 ^ t.bits → b < 2 ^ t.bits →
    lateResult (.idiv h t f) a b = Rule.idivResult t a b ∧ lateResult (.irem h t f) a b = Rule.iremResult t a b

/-- R132: the special values of RCP, RSQ, SQRT, EXP2, LOG2, SIN, COS and TANH, and NaN for the negative finite arguments of RSQ, SQRT and LOG2. -/
def Sys2Proof.Rule.SpecialFunctionTable : Prop :=
  (∀ (i : Instr) (x y v : Nat), x < 2 ^ 32 → Rule.specialValue i x = some v → lateResult i x y = v) ∧
  ∀ (h : Hdr) (f : Ops) (x : Nat), 0x80000000 < x → x < 0xFF800000 →
    lateResult (.rsq h f) x 0 = 0x7FC00000 ∧ lateResult (.sqrt h f) x 0 = 0x7FC00000 ∧ lateResult (.log2 h f) x 0 = 0x7FC00000

/-- R131: RCP and SQRT are the exact value rounded once to nearest even: the code delivered lies no farther from 1/x, or from the root, than half the gap to either neighbour. For SQRT of the code's value v, with delivered value r and neighbours p and n: (p + r)² ≤ 4v ≤ (r + n)². -/
def Sys2Proof.Rule.ReciprocalAndRootNearest : Prop :=
  ∀ (h : Hdr) (f : Ops) (x : Nat), 0 < x → x < 0x7F800000 →
    let val (c : Nat) : ℚ := (f32Fmt.magnitude c).1 * (2 : ℚ) ^ (f32Fmt.magnitude c).2
    let r := lateResult (.rcp h f) x 0
    let q := lateResult (.sqrt h f) x 0
    (0 < r → r < 0x7F800000 → (val (r - 1) + val r) * val x ≤ 2 ∧ 2 ≤ (val r + val (r + 1)) * val x) ∧
    (0 < q ∧ q < 0x7F800000 ∧ (val (q - 1) + val q) ^ 2 ≤ 4 * val x ∧ 4 * val x ≤ (val q + val (q + 1)) ^ 2)

/-- R21, R98, R131: an operation whose result is written later completes: D holds the result of its operands in every lane of its slots (none under EMK), and the operation leaves the record; registers elsewhere, threads and memory are as they were. -/
def Sys2Proof.Rule.LaterResultWritten : Prop :=
  ∀ (r : OpRef) (o : Op) (s : State), s.opOf r = some o → Rule.isLater o.ins = true → resultReady s r = true → o.shadow = [] →
    (s.warp r.warp).diverged = false →
    ∃ t, exec (.resultWritten r) s = .next t ∧
      t = (s.onWarp r.warp (o.writeD (o.slots.map fun x => (x.lane, lateResult o.ins (x.data.toNat % 2 ^ 64) (x.data.toNat / 2 ^ 64))))).finishOp r ∧
      t.mem = s.mem ∧ t.gangs = s.gangs ∧ ∀ v, v ≠ r.warp → t.warp v = s.warp v

/-! ## Cross-lane instructions (R133 to R140) -/

namespace Sys2Proof.Rule

/-- The source lane of XLANE (R134). -/
def sourceLane (k : LaneFn) (ws l b : Nat) : Nat :=
  let base := l - l % ws
  let pos := l - base
  match k with
  | .pick => base + b % ws
  | .rot => base + (pos + b) % ws
  | .lo => if b > pos then l else l - b
  | .hi => if b ≥ ws - pos then l else l + b
  | .xor => base + (pos ^^^ (b % ws))
  | .rev => base + ws - 1 - pos

/-- The operation of a node (R136, R137): integers exact and wrapping, FP32 addition rounded to nearest. -/
def nodeOp (o : RedOp) (t : RedTy) (a b : Nat) : Nat :=
  let v (x : Nat) : Int := if t = .i32 then signedOf 32 x else x
  match o with
  | .add => if t = .f32 then sum f32Fmt .rn a b else (a + b) % 2 ^ 32
  | .min => if t = .f32 then extremum false a b else if v a ≤ v b then a else b
  | .max => if t = .f32 then extremum true a b else if v b ≤ v a then a else b
  | .and => a &&& b
  | .or => a ||| b
  | .xor => a ^^^ b

/-- The tree of R137 over n = 2^d lanes from `lo`: absent lanes drop out. -/
def node (op : Nat → Nat → Nat) (at? : Nat → Option Nat) (lo : Nat) : Nat → Option Nat
  | 0 => at? lo
  | d + 1 => match node op at? lo d, node op at? (lo + 2 ^ d) d with
    | none, y => y
    | x, none => x
    | some x, some y => some (op x y)

/-- The identities of R138. -/
def identity (o : RedOp) (t : RedTy) : Nat :=
  match o, t with
  | .add, _ | .or, _ | .xor, _ => 0
  | .and, _ => 0xFFFFFFFF
  | .min, .i32 => 0x7FFFFFFF | .min, .n32 => 0xFFFFFFFF | .min, .f32 => 0x7F800000
  | .max, .i32 => 0x80000000 | .max, .n32 => 0 | .max, .f32 => 0xFF800000

/-- What each participating lane of a cross-lane instruction receives, from the values of A and B of every participating lane (R134 to R140); `width` is W. -/
def laneResult (width : Nat) (act : List Nat) (a b : Nat → Nat) : Instr → Option (Nat → Nat)
  | .xlane _ k f => some fun l =>
      let ws := if f.c.kind = .zr then width else min f.c.val.toNat width
      let m := sourceLane k ws l (b l)
      if m ∈ act then a m else a l
  | .poll _ .and _ => some fun _ => if ∀ l ∈ act, a l = 1 then 1 else 0
  | .poll _ .or _ => some fun _ => if ∃ l ∈ act, a l = 1 then 1 else 0
  | .poll _ .eq _ => some fun _ => if ∀ l ∈ act, ∀ m ∈ act, a l = a m then 1 else 0
  | .poll _ .mask _ => some fun _ => ofBitFun 64 fun l => decide (l ∈ act) && a l == 1
  | .poll _ .cnt _ => some fun _ => (act.filter fun l => a l == 1).length
  | .redux _ o t _ => some fun _ => (node (nodeOp o t) (fun l => if l ∈ act then some (a l) else none) 0 width.log2).getD 0
  | .scan _ o t excl _ => some fun l =>
      (node (nodeOp o t) (fun m => if m ∈ act ∧ (if excl then m < l else m ≤ l) then some (a m) else none) 0 width.log2).getD (identity o t)
  | .matchLanes .. => some fun l => ofBitFun 64 fun m => decide (m ∈ act) && a m == a l
  | .elect .. => some fun l => if ∀ m ∈ act, l ≤ m then 1 else 0
  | _ => none

end Sys2Proof.Rule

/-- R133 to R140: a cross-lane instruction that goes through reads its sources in the participating lanes only and writes D in each of them; its bundle stands at the next word and nothing else has changed. -/
def Obligations.CrossLaneResult : Prop :=
  ∀ (i : Instr) (g : Nat → Nat) (s : State) (b : Bundle) (act : List Nat),
    let x := actAt i b act
    let w := s.warp b.warp
    Rule.laneResult w.width act (fun l => (x.read w l).a) (fun l => (x.read w l).b) i = some g → i.wf = true → Goes i s b act →
    ∃ t, exec i s = .next t ∧ OnlyWarp b.warp s t ∧ Wrote x g w (t.warp b.warp)

/-! ## From fetch to issue (R55 to R58, R107, R270) -/

/-- R261, R262, R323, R366, R368, R411: a step. An event that is due from outside is executed first; with none due, the oldest frame received at a port is taken, as the event its bytes stand for; with neither, the issue units find which threads wait (R9), and the bundle that is chosen is fetched from the bytes at its PC, counted, and the instruction that the bytes decode to is executed for it. In a launch with shadows the values it brings into registers are queued, and an instruction that acts beyond its warp at its issue, or takes a trap, is held with its bundle until the shadow has issued its copy (R366, R368; log 29, the model's). `settled` is what every step does beside its event: waits that end, and the cycles of the clocks (log 3, the model's). -/
def Obligations.StepRunsDecoded : Prop :=
  (∀ (s : State) (i : Instr) (rest : List Instr), s.agenda = i :: rest →
    step s = settled { s with agenda := rest } 0 (exec i { s with agenda := rest })) ∧
  (∀ (s : State) (x : EtherFrame) (rest : List EtherFrame), s.agenda = [] → s.received = x :: rest →
    step s = settled { s with received := rest } 0 (exec (etherEvent { s with received := rest } x) { s with received := rest })) ∧
  (∀ (s : State) (c : IssueChoice) (w : IWord), s.agenda = [] → s.received = [] →
    let a := if s.haltedPart then s else attend s
    let a1 := if 1 < (choices a).length then a.draw else a
    let f := fetch (a1.warp c.warp) c.run.pc a1
    let q := account c f.2
    let b : Bundle := { warp := c.warp, lanes := maskOf c.run.lanes, pc := c.run.pc }
    chosen a (choices a) = some (.issue c) → f.1 = .word w →
    ∀ i, (decode w = .ok i ∨ ∃ e, decode w = .error e ∧ i = .wordNotAnInstruction e.reason e.field) →
      ((q.warpLaunch (q.warp c.warp)).record.shadow = false → step s = settled a1 c.warp (exec i { q with cur := some b })) ∧
      ((q.warpLaunch (q.warp c.warp)).record.shadow = true →
        let q1 := q.onWarp c.warp fun v => { v with queued := v.queued ++ [outsideValues i (guardedLanes (a1.warp c.warp) i b)] }
        ∀ r, exec i { q1 with cur := some b } = .next r → step s = settled a1 c.warp (.next
          (if (leavesWarp i && !heldInRecord i) || trapTaken c.warp q1 r then q1.onWarp c.warp fun v => { v with copy := some (b, i) } else r))))

/-- The machine never stops: every step of every state answers a next state. Traps, faults of pages and errors are states of the part (R214, R270, R273), and no instruction is refused. -/
def Sys2Proof.Rule.EveryStepAnswers : Prop := ∀ s : State, ∃ t, step s = .next t

/-- R55 steps 3 to 6, R13, R15, R18, R22, R58: what comes of an instruction word of any kind that does not go through. A register beyond the allotment traps with BOUNDS in every lane of the bundle, with the field; with no lane active the instruction retires without effect; an empty source with FE = 1 traps with EMPTY-READ in the active lanes, the reporter and field as R58 says, the guarded-off lanes moving on when a handler is entered and stopping with the rest of the bundle when the trap is fatal (R270); an empty source with FE = 0, a destination still owed, a full in-flight record (R25) or a wait of its entry makes the lanes BLOCKED at the instruction (R9, R261), and nothing else changes. Which entries wait for what, and a handler's choice for the guarded-off lanes, are the model's readings where the entry does not say (logs 23 and 46). -/
def Sys2Proof.Rule.IssueStops : Prop :=
  ∀ (i : Instr) (s : State) (b : Bundle), i.encoded = true → Issues s b →
    let w := s.warp b.warp
    let blk := s.warpBlock w
    let lanes := lanesOf b.lanes
    let k := (s.warpLaunch w).record.accs.toNat
    let act := lanes.filter fun l => (w.thread l).guard (guardOf i).1 (guardOf i).2
    let sources (p : Use → Nat → Bool) := findUse (uses i) act fun u l => u.reads && p u l && u.empty w blk l
    (∀ u, (uses i).find? (fun u => u.outside w k) = some u →
      exec i s = .next (takeTrap b.warp (lanes.map fun l => (l, b.pc)) (lanes.headD 0) { cause := 0x09, info := .ofNat 32 (u.field * 256) } s)) ∧
    ((uses i).all (fun u => !u.outside w k) = true →
      (act = [] → exec i s = .next (s.advance b.warp lanes b.pc)) ∧
      (act ≠ [] →
        (∀ l f, sources (fun u _ => u.fe) = some (l, f) →
          let cause : Word := if act.any fun l => (w.thread l).handler then 0x0C else 0x05
          let t := s.advance b.warp lanes b.pc
          exec i s = .next (takeTrap b.warp (act.map fun l => (l, b.pc)) l { cause := 0x05, info := .ofNat 32 (f * 256) }
            (if (s.warpLaunch w).admits cause then t
             else t.onWarp b.warp fun v => v.onThreads (lanes.filter fun l => !act.contains l) fun y =>
               { y with pc := b.pc, status := .blocked .trapped }))) ∧
        (sources (fun u _ => u.fe) = none →
          ((sources fun _ _ => true).isSome ∨ (findUse (uses i) act fun u l => u.writes && u.owed w blk l).isSome ∨
            (countsAtIssue i = true ∧ 64 ≤ w.counted) ∨ mustWait (actAt i b act) s = true) →
          exec i s = .next (s.blockLanes b.warp lanes (.issue (lanes.headD 0))))))

/-- R55, R58: exactly when an instruction goes through with active lanes `act`: no register beyond the allotment, `act` the lanes whose guard holds and not none, no source of an active lane empty or in error, no destination of one owed by an older operation, room in the in-flight record for an operation that counts, and no wait of its entry, as log 23 reads the entries. -/
def Sys2Proof.Rule.GoesExactlyWhen : Prop :=
  ∀ (i : Instr) (s : State) (b : Bundle) (act : List Nat), Issues s b →
    let w := s.warp b.warp
    let blk := s.warpBlock w
    (Goes i s b act ↔
      (∀ u ∈ uses i, u.outside w (s.warpLaunch w).record.accs.toNat = false) ∧
      act = (lanesOf b.lanes).filter (fun l => (w.thread l).guard (guardOf i).1 (guardOf i).2) ∧ act ≠ [] ∧
      (∀ l ∈ act, ∀ u ∈ uses i, (u.reads = true → u.empty w blk l = false ∧ u.bad w l = false) ∧
        (u.writes = true → u.owed w blk l = false)) ∧
      (countsAtIssue i = true → w.counted < 64) ∧ mustWait (actAt i b act) s = false)

/-- R364: a source that holds an uncorrectable error is consumed: nothing of the instruction happens, and the gang is due for the event that relaunches or ends it. -/
def Sys2Proof.Rule.BadSourceConsumed : Prop :=
  ∀ (i : Instr) (s : State) (b : Bundle), i.encoded = true → Issues s b → check i b s = .consumed →
    exec i s = .next { s with agenda := s.agenda ++ [.uncorrectableConsumed (s.warp b.warp).gang
      { addr := 0, pa := false, source := 1, ltype := 0, loc := .ofNat 28 (s.unitWord (s.warp b.warp)) }] }

namespace Sys2Proof.Rule

/-- `sr.trappc` (R217): the PC of the thread, the lane of the reporter, and bit 38 in the reporter. -/
def trappc (pc : Word) (rep lane : Nat) : DWord := .ofNat 64 (pc.toNat + rep % 64 * 2 ^ 32 + if lane = rep then 2 ^ 38 else 0)

/-- A thread with the trap registers of R216. -/
def registers (t : Thread) (pc : Word) (rep lane : Nat) (cause : Word) (addr : DWord) (info : Word) : Thread :=
  { t with trapcause := cause, trappc := trappc pc rep lane, trapaddr := addr, trapinfo := info }

/-- The lanes of `set` enter the handler of a launch from `pc` (R216); every other thread is as `rest` has it. -/
def Handled (set : List Nat) (pc hpc : Word) (rep : Nat) (cause : Word) (addr : DWord) (info : Word) (rest : Nat → Thread) (w' : Warp) : Prop :=
  ∀ l, w'.thread l = if l ∈ set then { registers (rest l) pc rep l cause addr info with handler := true, pc := hpc, status := .running }
    else rest l

/-- The lanes of `set` stop at `pc` for a fatal trap, with its registers (log 46), and wait for the command processor (R270). -/
def Stopped (set : List Nat) (pc : Word) (rep : Nat) (cause : Word) (addr : DWord) (info : Word) (rest : Nat → Thread) (w' : Warp) : Prop :=
  ∀ l, w'.thread l = if l ∈ set then { registers (rest l) pc rep l cause addr info with pc := pc, status := .blocked .trapped }
    else rest l

/-- What is left of a state in which one warp's threads have changed and one fatal trap has been reported. -/
def Reported (u : Nat) (r : TrapReport) (s t : State) : Prop :=
  t = { s with warps := t.warps, reports := s.reports ++ [r] } ∧ ∀ v, v ≠ u → t.warp v = s.warp v

end Sys2Proof.Rule

/-- R214 to R219: TRAP. When the launch admits SOFTWARE and no active lane is in handler mode, every active lane enters the handler with the code, the lowest reporting; guarded-off lanes of the bundle move on. When the launch does not admit it, it is fatal: every thread of the bundle stops at the TRAP, and the command processor is told (R270); that every active lane's trap registers are written then too, and that guarded-off lanes stop with the others, is the model's choice (log 46). In handler mode the trap is DOUBLE, with 0x10 as the second cause, and fatal. -/
def Sys2Proof.Rule.TrapInstructionTraps : Prop :=
  ∀ (h : Hdr) (f : OpsH) (s : State) (b : Bundle) (act : List Nat), Goes (.trap h f) s b act →
    let w := s.warp b.warp
    let l := s.warpLaunch w
    let rep := act.headD 0
    let rest (j : Nat) := (w.moved (lanesOf b.lanes) b.pc).thread j
    let stopped (j : Nat) : Thread := if j ∈ lanesOf b.lanes then { rest j with pc := b.pc, status := .blocked .trapped } else rest j
    let info : Word := f.imm.setWidth 32
    let double := ∃ j ∈ act, (w.thread j).handler = true
    ∃ t, exec (.trap h f) s = .next t ∧
      (¬double → l.record.hmask.getLsbD 16 = true → OnlyWarp b.warp s t ∧
        Rule.Handled act b.pc l.record.hpc rep 0x10 0 info rest (t.warp b.warp)) ∧
      (¬double → l.record.hmask.getLsbD 16 = false →
        Rule.Reported b.warp { warp := b.warp, gang := w.gang, pc := b.pc, trap := { cause := 0x10, addr := 0, info } } s t ∧
        Rule.Stopped act b.pc rep 0x10 0 info stopped (t.warp b.warp)) ∧
      (double →
        Rule.Reported b.warp { warp := b.warp, gang := w.gang, pc := b.pc, trap := { cause := 0x0C, addr := 0, info := 0x10 } } s t ∧
        Rule.Stopped act b.pc rep 0x0C 0 0x10 stopped (t.warp b.warp))

/-- R55, R56: a word that is no instruction raises ILLEGAL in every thread of its bundle, reported in the lowest, with reason and field in `sr.trapinfo` and 0 in `sr.trapaddr`; the cause is fatal (R214), and DOUBLE in handler mode. That the trap registers of every thread of the bundle are written is the model's choice (log 46). -/
def Sys2Proof.Rule.IllegalWordTraps : Prop :=
  ∀ (reason field : Nat) (s : State) (b : Bundle), Issues s b → lanesOf b.lanes ≠ [] →
    let w := s.warp b.warp
    let lanes := lanesOf b.lanes
    let double := ∃ j ∈ lanes, (w.thread j).handler = true
    ∃ t, exec (.wordNotAnInstruction reason field) s = .next t ∧
      (¬double → Rule.Reported b.warp { warp := b.warp, gang := w.gang, pc := b.pc, trap := { cause := 0x01, addr := 0, info := .ofNat 32 (field * 256 + reason) } } s t ∧
        Rule.Stopped lanes b.pc (lanes.headD 0) 0x01 0 (.ofNat 32 (field * 256 + reason)) w.thread (t.warp b.warp)) ∧
      (double → Rule.Reported b.warp { warp := b.warp, gang := w.gang, pc := b.pc, trap := { cause := 0x0C, addr := 0, info := 0x01 } } s t ∧
        Rule.Stopped lanes b.pc (lanes.headD 0) 0x0C 0 0x01 w.thread (t.warp b.warp))

/-- R51, R107: a fetch at a PC that is no multiple of 12 raises ALIGNMENT and one at or beyond the end of the code BOUNDS, with the PC in `sr.trapaddr`, reported in the lowest thread of the run; both are fatal, and DOUBLE in handler mode. That a PC which is no multiple of 12 raises ALIGNMENT also where it lies at or beyond the end (log 59), and that the trap registers of every thread of the run are written (log 46), are the model's choices. -/
def Sys2Proof.Rule.FetchTraps : Prop :=
  (∀ (w : Warp) (pc : Word) (s : State), (pc.toNat % 12 ≠ 0 → bundleInstr s w pc = some (.trapAtFetch true)) ∧
    (pc.toNat % 12 = 0 → (s.warpLaunch w).len ≤ pc.toNat → bundleInstr s w pc = some (.trapAtFetch false))) ∧
  ∀ (mis : Bool) (s : State) (b : Bundle), Issues s b → lanesOf b.lanes ≠ [] →
    let w := s.warp b.warp
    let lanes := lanesOf b.lanes
    let cause : Word := if mis then 0x02 else 0x09
    let double := ∃ j ∈ lanes, (w.thread j).handler = true
    ∃ t, exec (.trapAtFetch mis) s = .next t ∧
      (¬double → Rule.Reported b.warp { warp := b.warp, gang := w.gang, pc := b.pc, trap := { cause, addr := b.pc.setWidth 64, info := 0 } } s t ∧
        Rule.Stopped lanes b.pc (lanes.headD 0) cause (b.pc.setWidth 64) 0 w.thread (t.warp b.warp)) ∧
      (double → Rule.Reported b.warp { warp := b.warp, gang := w.gang, pc := b.pc, trap := { cause := 0x0C, addr := b.pc.setWidth 64, info := cause } } s t ∧
        Rule.Stopped lanes b.pc (lanes.headD 0) 0x0C (b.pc.setWidth 64) cause w.thread (t.warp b.warp))

/-- R270, R214: an asynchronous trap found earlier is reported at the warp's next issue attempt, whatever the instruction: the thread it names receives the trap registers with bit 31 of `sr.trapinfo` as it was kept, as DOUBLE with the cause in bits 7:0 where it is in handler mode (R218), the warp stops, the command processor is told, and nothing of the instruction happens. -/
def Sys2Proof.Rule.AsyncTrapReported : Prop :=
  ∀ (i : Instr) (s : State) (b : Bundle) (lane : Nat) (pc : Word) (x : TrapInfo), i.encoded = true → s.cur = some b →
    s.hasWarp b.warp = true → lane < (s.warp b.warp).threads.length → (s.warp b.warp).asyncTrap = some (lane, pc, x) →
    let x := if ((s.warp b.warp).thread lane).handler then { x with cause := 0x0C, info := (x.cause &&& 0xFF) ||| (x.info &&& 0x80000000) } else x
    ∃ t, exec i s = .next t ∧
      Rule.Reported b.warp { warp := b.warp, gang := (s.warp b.warp).gang, pc, trap := x } s t ∧
      (t.warp b.warp).stopped = true ∧ (t.warp b.warp).asyncTrap = none ∧
      ∀ l, (t.warp b.warp).thread l = if l = lane then Rule.registers ((s.warp b.warp).thread l) pc lane l x.cause x.addr x.info
        else (s.warp b.warp).thread l

/-- R219, R216: TRET issued in handler mode returns each active lane to normal mode at the PC its A names; the trap registers keep their values and nothing else changes. Issued in normal mode it raises PERMISSION. -/
def Sys2Proof.Rule.TretReturns : Prop :=
  ∀ (h : Hdr) (f : Ops) (s : State) (b : Bundle) (act : List Nat), Goes (.tret h f) s b act →
    let x := actAt (.tret h f) b act
    let w := s.warp b.warp
    ((w.thread x.first).handler = true → ∃ t, exec (.tret h f) s = .next t ∧ OnlyWarp b.warp s t ∧
      OnlyRegs w (t.warp b.warp) ∧ (t.warp b.warp).vregs = w.vregs ∧ (t.warp b.warp).uregs = w.uregs ∧
      ∀ l, (t.warp b.warp).thread l = if l ∈ act then { w.thread l with handler := false, pc := .ofNat 32 (x.read w l).a }
        else (w.moved (lanesOf b.lanes) b.pc).thread l) ∧
    ((w.thread x.first).handler = false →
      exec (.tret h f) s = .next (x.trap x.first { cause := 0x04 } (s.advance b.warp (lanesOf b.lanes) b.pc)))

/-- R219, R376, R414: BKPT. With the launch's debug flag in a world that may be debugged, the warp stops with the active lanes held at the BKPT, and the debug event is posted where none is pending; else it raises BREAKPOINT with its code. -/
def Sys2Proof.Rule.BreakpointHoldsOrTraps : Prop :=
  ∀ (h : Hdr) (f : Ops) (s : State) (b : Bundle) (act : List Nat), Goes (.bkpt h f) s b act →
    let x := actAt (.bkpt h f) b act
    let w := s.warp b.warp
    let rec' := (s.warpLaunch w).record
    let allowed := rec'.debug = true ∧ (rec'.world = 1 ∨ (2 ≤ rec'.world.toNat ∧ s.mgmt.wpol.getLsbD rec'.world.toNat = true))
    (allowed → ∃ t, exec (.bkpt h f) s = .next t ∧ (t.warp b.warp).stopped = true ∧ t.mgmt.dbgev.getLsbD 63 = true ∧
      (∀ l, (t.warp b.warp).thread l = if l ∈ act then { (w.moved (lanesOf b.lanes) b.pc).thread l with pc := b.pc, status := .blocked .debug }
        else (w.moved (lanesOf b.lanes) b.pc).thread l) ∧
      (s.mgmt.dbgev.getLsbD 63 = true → OnlyWarp b.warp s t) ∧
      (s.mgmt.dbgev.getLsbD 63 = false →
        t.mgmt.dbgev = .ofNat 64 ((s.warpLaunch w).id.toNat + (s.warpGang w).num % 2 ^ 20 * 2 ^ 32 + w.rank * 2 ^ 52 + w.num * 2 ^ 57 + 2 ^ 63) ∧
        t.mgmt.intst.getLsbD 5 = true ∧ t = { s with warps := t.warps, mgmt := t.mgmt, sent := t.sent })) ∧
    (¬allowed → exec (.bkpt h f) s = .next (x.trap x.first
      { cause := 0x0B, info := .ofNat 32 ((x.read w x.first).c % 65536) } (s.advance b.warp (lanesOf b.lanes) b.pc)))

/-! ## Control (R107 to R116, R264) -/

namespace Sys2Proof.Rule

/-- Where an active lane of a transfer goes, from the PC and what its lane reads (R108). -/
def target : Instr → Option (Word → Read → Word)
  | .bra _ f | .call _ f => some fun pc _ => pc + f.imm
  | .brx .. | .callReg .. | .ret .. => some fun _ v => .ofNat 32 v.a
  | _ => none

/-- The calls, which write PC + 12 to D. -/
def links : Instr → Bool
  | .call .. | .callReg .. => true
  | _ => false

end Sys2Proof.Rule

/-- R107, R108: BRA, BRX, CALL, CALL.reg and RET. Each active lane takes its own target, each guarded-off lane of the bundle continues at PC + 12; a call writes PC + 12 to D in every active lane, after the targets have been read; nothing else changes. -/
def Sys2Proof.Rule.TransfersReachTargets : Prop :=
  ∀ (i : Instr) (g : Word → Read → Word) (s : State) (b : Bundle) (act : List Nat), Rule.target i = some g → i.wf = true → Goes i s b act →
    let x := actAt i b act
    let w := s.warp b.warp
    let link (_ : Nat) : Nat := (b.pc + 12).toNat
    ∃ t, exec i s = .next t ∧ OnlyWarp b.warp s t ∧ OnlyRegs w (t.warp b.warp) ∧
      (∀ k l, l < 64 → (t.warp b.warp).vreg k l = if Rule.links i then x.vregAfter link w k l else w.vreg k l) ∧
      (∀ k, (t.warp b.warp).ureg k = if Rule.links i then x.uregAfter link w k else w.ureg k) ∧
      ∀ l, (t.warp b.warp).thread l = { w.thread l with
        pc := if l ∈ act then g b.pc (x.read w l) else if l ∈ lanesOf b.lanes then b.pc + 12 else (w.thread l).pc }

/-- R109: LOOP. In each active lane D receives A − 1, modulo 2^32; a lane whose result is not 0 goes to PC + 12 × imm16, signed, and the others to PC + 12. A uniform form keeps one counter. -/
def Sys2Proof.Rule.LoopCountsAndBranches : Prop :=
  ∀ (h : Hdr) (f : OpsH) (s : State) (b : Bundle) (act : List Nat), (Instr.loop h f).wf = true → Goes (.loop h f) s b act →
    let x := actAt (.loop h f) b act
    let w := s.warp b.warp
    let count (l : Nat) : Nat := Rule.wrap 32 ((x.read w l).a - 1)
    ∃ t, exec (.loop h f) s = .next t ∧ OnlyWarp b.warp s t ∧ OnlyRegs w (t.warp b.warp) ∧
      (∀ k l, l < 64 → (t.warp b.warp).vreg k l = x.vregAfter count w k l) ∧
      (∀ k, (t.warp b.warp).ureg k = x.uregAfter count w k) ∧
      ∀ l, (t.warp b.warp).thread l = { w.thread l with
        pc := if l ∈ act ∧ count l ≠ 0 then b.pc + .ofInt 32 (12 * f.imm.toInt)
          else if l ∈ lanesOf b.lanes then b.pc + 12 else (w.thread l).pc }

/-- R105, R110, R264: NOP only advances. YIELD makes the warp's next issue a demotion issue and restarts its progress count. NAP n makes the active lanes BLOCKED with n to count, and with n = 0 retires at once; a lane whose count has reached 0 runs again. A warp whose progress count has reached PLIM, taken as at least 4, is demoted. -/
def Sys2Proof.Rule.YieldsAndNaps : Prop :=
  (∀ (h : Hdr) (f : Ops) (s : State) (b : Bundle) (act : List Nat), Goes (.nop h f) s b act →
    exec (.nop h f) s = .next (s.onWarp b.warp fun w => w.moved (lanesOf b.lanes) b.pc)) ∧
  (∀ (h : Hdr) (f : Ops) (s : State) (b : Bundle) (act : List Nat), Goes (.yield h f) s b act →
    ∃ t, exec (.yield h f) s = .next t ∧ OnlyWarp b.warp s t ∧
      t.warp b.warp = { (s.warp b.warp).moved (lanesOf b.lanes) b.pc with demote := true, progress := 0 }) ∧
  (∀ (h : Hdr) (f : OpsH) (s : State) (b : Bundle) (act : List Nat), Goes (.nap h f) s b act →
    let w := (s.warp b.warp).moved (lanesOf b.lanes) b.pc
    ∃ t, exec (.nap h f) s = .next t ∧ OnlyWarp b.warp s t ∧ t.warp b.warp = { w with threads := (t.warp b.warp).threads } ∧
      ∀ l, (t.warp b.warp).thread l = if l ∈ act ∧ f.imm ≠ 0 then { w.thread l with status := .blocked .nap, nap := f.imm.toNat }
        else w.thread l) ∧
  (∀ (u l : Nat) (s : State), s.hasWarp u = true → (s.warp u).retired = false → (s.warp u).stopped = false →
    (s.gang (s.warp u).gang).state = .placed → ((s.warp u).thread l).status = .blocked .nap → ((s.warp u).thread l).nap = 0 →
    ∃ t, exec (.napExpiry u l) s = .next t ∧ OnlyWarp u s t ∧ ((t.warp u).thread l).status = .running ∧
      ∀ k, k ≠ l → (t.warp u).thread k = (s.warp u).thread k) ∧
  (∀ (u : Nat) (s : State), s.hasWarp u = true → (s.warp u).demote = false →
    max 4 (s.cluster (s.warpGang (s.warp u)).cluster).plim.toNat ≤ (s.warp u).progress →
    ∃ t, exec (.progressLimitDemotion u) s = .next t ∧ OnlyWarp u s t ∧ t.warp u = { s.warp u with demote := true })

namespace Sys2Proof.Rule

/-- Threads of a warp have ended: they are gone, out of handler mode, and stand in no declared mask of a register their warp declared; a register whose declared lanes all ended is IDLE (R111, R113), its collective's request for leave is withdrawn, and what the pool had paid for it goes back to the steward (the model's choice: log 59). -/
def Ended (u : Nat) (lanes : List Nat) (x : Status) (s t : State) : Prop :=
  let w := s.warp u
  let m := (s.warpGang w).cluster
  let gone := (List.range (s.warpBlock w).cv.length).filter fun k =>
    let c := (s.warpBlock w).cv.getD k {}
    !c.idle && c.warp == w.num && c.declared &&& maskOf lanes != 0 && c.declared &&& ~~~(maskOf lanes) == 0
  (∀ l ∈ lanes, l < w.threads.length → (t.warp u).thread l = { w.thread l with status := x, handler := false }) ∧
  (∀ k, k ≠ m → t.cluster k = s.cluster k) ∧
  (m < s.clusters.length → t.cluster m = { s.cluster m with
    held := (s.cluster m).held - (gone.map fun k => ((s.warpBlock w).cv.getD k {}).paid).sum
    requests := (s.cluster m).requests.filter fun q => !(gone.any fun k => match q.2 with
      | .collective v j _ => v == u && j == k
      | .pool .. | .engine .. => false) }) ∧
  ∀ k, let c := (s.warpBlock w).cv.getD k {}
    let d := (t.block w.gang w.rank).cv.getD k {}
    c.idle = false → c.warp = w.num →
      d.declared &&& maskOf lanes = 0 ∧ (c.declared ≠ 0 → c.declared &&& ~~~(maskOf lanes) = 0 → d.idle = true)

end Sys2Proof.Rule

/-- R111, R113, R9: EXIT. The active lanes wait, BLOCKED, for every older counted operation of their warp; with none outstanding they end at once. What their end completes or retires (barriers, roles, collectives, warps, blocks, the gang) is settled in the same step. DISCARDED threads end likewise. What a register that is emptied so gives back is the model's choice (log 59). -/
def Sys2Proof.Rule.ExitEndsThreads : Prop :=
  (∀ (h : Hdr) (f : Ops) (s : State) (b : Bundle) (act : List Nat), Goes (.exit h f) s b act →
    (s.warp b.warp).threads.length = (s.warp b.warp).width → (s.warp b.warp).stopped = false →
    let w := s.warp b.warp
    let s1 := s.advance b.warp (lanesOf b.lanes) b.pc
    ∃ t, exec (.exit h f) s = .next (settleGang w.gang t) ∧
      t = { s with warps := t.warps, gangs := t.gangs, clusters := t.clusters } ∧
      ((∃ o ∈ w.ops, o.ctr.isSome ∧ o.finished = false ∧ o.id < w.nextOp) →
        t.clusters = s.clusters ∧
          ∀ l ∈ act, (t.warp b.warp).thread l = { (s1.warp b.warp).thread l with status := .blocked (.exit w.nextOp) }) ∧
      (¬(∃ o ∈ w.ops, o.ctr.isSome ∧ o.finished = false ∧ o.id < w.nextOp) →
        Rule.Ended b.warp act .exited s1 t)) ∧
  ∀ (u l : Nat) (s : State), s.hasWarp u = true → (s.warp u).retired = false → l < (s.warp u).width → l < (s.warp u).threads.length →
    ((s.warp u).thread l).status ≠ .exited → ((s.warp u).thread l).status ≠ .discarded → (s.gang (s.warp u).gang).state = .placed →
    ∃ t, exec (.discard u l) s = .next (settleGang (s.warp u).gang t) ∧ Rule.Ended u [l] .discarded s t ∧
      t = { s with warps := t.warps, gangs := t.gangs, clusters := t.clusters } ∧ (∀ v, v ≠ u → t.warp v = s.warp v) ∧
      ∀ k, k ≠ l → (t.warp u).thread k = (s.warp u).thread k

/-- R115, R114: ROLE. To a role the table does not define it raises BOUNDS; where some thread of the block waits for another role, COLLECTIVE-DIVERGENCE, both with 0 in `sr.trapinfo`, which is the model's choice (log 59); else the active lanes are BLOCKED as arrivals with n. When every thread of the block that is left has arrived with n and no operation is outstanding, each warp has the role's allotments, every thread runs from the role's entry, registers below the old and the new allotment keep their values, and the block has the role's priority. -/
def Sys2Proof.Rule.RoleChanges : Prop :=
  (∀ (h : Hdr) (f : OpsH) (s : State) (b : Bundle) (act : List Nat), Goes (.role h f) s b act →
    let x := actAt (.role h f) b act
    let w := s.warp b.warp
    let n := f.imm.toNat % 8
    let s1 := s.advance b.warp (lanesOf b.lanes) b.pc
    let defined := ((s.warpLaunch w).roles.getD n {}).valid = true
    let clash := ∃ v ∈ s.blockWarps w.gang w.rank, ∃ l ∈ v.live, ∃ m, (v.thread l).status = .blocked (.role m) ∧ m ≠ n
    (¬defined → exec (.role h f) s = .next (x.trap x.first { cause := 0x09 } s1)) ∧
    (defined → clash → exec (.role h f) s = .next (x.trap x.first { cause := 0x06 } s1)) ∧
    (defined → ¬clash → exec (.role h f) s = .next (settleGang w.gang (s1.blockLanes b.warp act (.role n))))) ∧
  ∀ (g rank n : Nat) (s : State), (s.warps.map fun w => w.uid).Nodup →
    let ws := (s.blockWarps g rank).filter fun w => !w.retired
    let r := (s.launch (s.gang g).launch).roles.getD n {}
    (∃ w ∈ ws, w.live ≠ []) → (∀ w ∈ ws, ∀ l ∈ w.live, (w.thread l).status = .blocked (.role n)) →
    (∀ w ∈ ws, ∀ o ∈ w.ops, o.ctr.isSome = true → o.id < w.nextOp → o.finished = true) →
    ∀ w ∈ ws, let w' := (settleRole g rank s).warp w.uid
      w'.nv = r.nv ∧ w'.nu = r.nu ∧
      (∀ k l, l < 64 → w'.vreg k l = if k < min w.nv r.nv then w.vreg k l else {}) ∧
      (∀ k, w'.ureg k = if k < min w.nu r.nu then w.ureg k else {}) ∧
      (∀ l, l < w.threads.length → w'.thread l = if (w.thread l).status = .exited ∨ (w.thread l).status = .discarded then w.thread l
        else { w.thread l with status := .running, pc := r.entry }) ∧
      (rank < (s.gang g).blocks.length → ((settleRole g rank s).block g rank).prio = r.prio ∧ ((settleRole g rank s).block g rank).role = n)

/-- R112: DECL and CVSIGN. DECL of a register that is DECLARED and signed, or declared by another warp, and CVSIGN of one that is IDLE, another warp's, or with an active lane not declared, raise COLLECTIVE-DIVERGENCE with the register's number, CVSIGN's in the lowest lane that is not declared; else DECL sets the declared mask and the warp, or IDLE for an empty mask, and CVSIGN adds the active lanes to the signed mask and lets a collective that is tied and complete go on. -/
def Obligations.ConvergenceRegisters : Prop :=
  (∀ (h : Hdr) (f : Ops) (s : State) (b : Bundle) (act : List Nat), Goes (.decl h f) s b act →
    let x := actAt (.decl h f) b act
    let w := s.warp b.warp
    let k := f.d.val.toNat
    let c := (s.warpBlock w).cv.getD k {}
    let s1 := s.advance b.warp (lanesOf b.lanes) b.pc
    let m : Mask := .ofNat 64 (x.read w x.first).a &&& maskOf w.live
    (c.idle = false ∧ (c.signed ≠ 0 ∨ c.warp ≠ w.num) →
      exec (.decl h f) s = .next (x.trap x.first { cause := 0x06, info := .ofNat 32 k } s1)) ∧
    (¬(c.idle = false ∧ (c.signed ≠ 0 ∨ c.warp ≠ w.num)) →
      exec (.decl h f) s = .next (s1.onBlock w.gang w.rank fun blk => { blk with cv := mapAt (fun c =>
        if m = 0 then { c with idle := true, declared := 0 } else { c with idle := false, declared := m, warp := w.num }) blk.cv k }))) ∧
  ∀ (h : Hdr) (f : Ops) (s : State) (b : Bundle) (act : List Nat), Goes (.cvsign h f) s b act →
    let x := actAt (.cvsign h f) b act
    let w := s.warp b.warp
    let k := f.d.val.toNat
    let c := (s.warpBlock w).cv.getD k {}
    let s1 := s.advance b.warp (lanesOf b.lanes) b.pc
    let signed := s1.onBlock w.gang w.rank fun blk => { blk with cv := mapAt (fun c => { c with signed := c.signed ||| maskOf act }) blk.cv k }
    (c.idle = true ∨ c.warp ≠ w.num → exec (.cvsign h f) s = .next (x.trap x.first { cause := 0x06, info := .ofNat 32 k } s1)) ∧
    (¬(c.idle = true ∨ c.warp ≠ w.num) →
      (∀ l ∈ act, c.declared.getLsbD l = false → (∀ m ∈ act, m < l → c.declared.getLsbD m = true) →
        exec (.cvsign h f) s = .next (x.trap l { cause := 0x06, info := .ofNat 32 k } s1)) ∧
      ((∀ l ∈ act, c.declared.getLsbD l = true) →
        exec (.cvsign h f) s = .next (collectives w.gang w.rank signed) ∧
        ((∀ r ∈ (s.warpBlock w).cv, r.signers = []) → exec (.cvsign h f) s = .next signed)))

namespace Sys2Proof.Rule

/-- A thread after WRSR of special register k (R27, R29, R82, R217): each keeps its own width, and a seed of 0 becomes 1. -/
def wrsr (k v : Nat) (t : Thread) : Thread :=
  if k = 0x19 then { t with cvtflags := .ofNat 5 v }
  else if k = 0x1A then { t with seed := if v % 65536 = 0 then 1 else .ofNat 16 v }
  else if k = 0x1B then { t with trapcause := .ofNat 32 v }
  else if k = 0x1C then { t with trappc := .ofNat 64 (v % 2 ^ 39) }
  else if k = 0x1D then { t with trapaddr := .ofNat 64 v }
  else if k = 0x1E then { t with trapinfo := .ofNat 32 v }
  else t

/-- The special registers by number, and what each reads in lane l (R27, R29, R30, R408). -/
def special (s : State) (w : Warp) (l : Nat) : List (Nat × Nat) :=
  let la := s.warpLaunch w
  let r := la.record
  let g := s.warpGang w
  let b := s.warpBlock w
  let t := w.thread l
  let d := s.mgmt.domcfg.toNat
  let has (cl c p : Nat) : Bool := !Store.get false s.absent (unitKey false cl c p)
  [(0x00, l), (0x01, w.num), (0x02, r.nwarps.toNat), (0x03, w.width), (0x04, g.num * r.gangsize.toNat + w.rank), (0x05, g.num),
   (0x06, w.rank), (0x07, r.gangsize.toNat), (0x08, r.gangs.toNat), (0x09, w.part), (0x0A, b.core), (0x0B, g.cluster),
   (0x0C, if d.testBit 31 then d % 64 else 0), (0x0D, if d.testBit 31 then d / 256 % 64 + 1 else 1), (0x0E, r.world.toNat),
   (0x0F, la.asid.toNat), (0x10, (s.cluster g.cluster).clock.toNat), (0x11, b.prio), (0x12, b.role), (0x13, r.scratch.toNat),
   (0x14, min g.retained.relaunch 255), (0x15, g.retained.sealNo.toNat), (0x16, if g.retained.contain then 1 else 0),
   (0x17, (la.wave.map fun v => v.frame.toNat).getD 0),
   (0x18, ((w.ops.find? fun o => isMma o.ins && !o.finished).map fun o => o.prog).getD 0)] ++
  [(0x19, t.cvtflags.toNat), (0x1A, t.seed.toNat), (0x1B, t.trapcause.toNat), (0x1C, t.trappc.toNat), (0x1D, t.trapaddr.toNat),
   (0x1E, t.trapinfo.toNat),
   (0x1F, ofBitFun 32 fun c => (List.range 32).any (has g.cluster c)), (0x20, ofBitFun 32 (has g.cluster b.core)),
   (0x21, ofBitFun 4 fun cl => (List.range 32).any fun c => (List.range 32).any (has cl c)), (0x22, la.id.toNat), (0x23, r.accs.toNat)] ++
  ([Ctr.mem, .copy, .mat, .coll, .edge].zipIdx.map fun c => (0x40 + c.2, (w.ops.filter fun o => o.ctr = some c.1).length))

end Sys2Proof.Rule

/-- R27 to R30, R116: RDSR gives each active lane the value of the special register its number names in the table of R27; WRSR writes `sr.cvtflags`, `sr.seed` or, in handler mode, a trap register of each active lane; outside a handler a trap register raises PERMISSION. -/
def Obligations.SpecialRegistersReadAndWritten : Prop :=
  (∀ (h : Hdr) (f : Ops) (s : State) (b : Bundle) (act : List Nat), (Instr.rdsr h f).wf = true → Goes (.rdsr h f) s b act →
    ∃ t, exec (.rdsr h f) s = .next t ∧ OnlyWarp b.warp s t ∧
      Wrote (actAt (.rdsr h f) b act) (fun l => ((Rule.special s (s.warp b.warp) l).lookup f.a.val.toNat).getD 0) (s.warp b.warp) (t.warp b.warp)) ∧
  ∀ (h : Hdr) (f : Ops) (s : State) (b : Bundle) (act : List Nat), Goes (.wrsr h f) s b act →
    let x := actAt (.wrsr h f) b act
    let w := s.warp b.warp
    let k := f.d.val.toNat
    let trapRegister := 0x1B ≤ k ∧ k ≤ 0x1E
    (trapRegister ∧ (w.thread x.first).handler = false →
      exec (.wrsr h f) s = .next (x.trap x.first { cause := 0x04 } (s.advance b.warp (lanesOf b.lanes) b.pc))) ∧
    (¬(trapRegister ∧ (w.thread x.first).handler = false) →
      ∃ t, exec (.wrsr h f) s = .next t ∧ OnlyWarp b.warp s t ∧
        t.warp b.warp = { w.moved (lanesOf b.lanes) b.pc with threads := (t.warp b.warp).threads } ∧
        ∀ l, (t.warp b.warp).thread l = if l ∈ act then Rule.wrsr k (x.read w l).a ((w.moved (lanesOf b.lanes) b.pc).thread l)
          else (w.moved (lanesOf b.lanes) b.pc).thread l)

/-- R159, R211, R236, R289: BAR and GBAR. The active lanes arrive, BLOCKED, and what their arrival completes is settled. When every thread of the block (of the gang) that is left has arrived and its older memory operations, texture loads among them, have been performed (what an arrival waits for is log 23), all run again, and the blocks' escalation counts are 0. -/
def Sys2Proof.Rule.BarriersHoldAndRelease : Prop :=
  (∀ (h : Hdr) (f : Ops) (s : State) (b : Bundle) (act : List Nat),
    let w := s.warp b.warp
    let s1 := s.advance b.warp (lanesOf b.lanes) b.pc
    (Goes (.bar h f) s b act → exec (.bar h f) s = .next (settleGang w.gang (s1.blockLanes b.warp act (.bar w.nextOp)))) ∧
    (Goes (.gbar h f) s b act → exec (.gbar h f) s = .next (settleGang w.gang (s1.blockLanes b.warp act (.gbar w.nextOp))))) ∧
  ∀ (gang : Bool) (g rank : Nat) (s : State), (s.warps.map fun w => w.uid).Nodup →
    let all := if gang then s.gangWarps g else s.blockWarps g rank
    let ws := all.filter fun w => !w.retired
    let t := if gang then settleGbar g s else settleBar g rank s
    let here (w : Warp) (l : Nat) : Prop := ∃ n, (w.thread l).status = .blocked (if gang then .gbar n else .bar n) ∧
      ∀ o ∈ w.ops, isMemEvent o.ins = true → o.id < n → o.lanes.getLsbD l = true → o.performed = true
    ((∃ w ∈ ws, w.live ≠ []) → (∀ w ∈ ws, ∀ l ∈ w.live, here w l) →
      (∀ w ∈ ws, ∀ l ∈ w.live, l < w.threads.length → ((t.warp w.uid).thread l).status = .running) ∧
      ∀ w ∈ ws, w.rank < (s.gang w.gang).blocks.length → (t.block w.gang w.rank).escalations = 0) ∧
    ((∃ w ∈ ws, ∃ l ∈ w.live, ¬here w l) → t = s)

/-! ## Memory (R142 to R163, R235 to R239, R296 to R300) -/

namespace Sys2Proof.Rule

/-- A plain access: global or scratchpad, its bytes, its alignment, its kind; loads write D, stores read C (R145, R146, R149, R150). -/
structure Access where
  global : Bool
  size : Nat
  align : Nat
  kind : Acc

def access : Instr → Option Access
  | .ld _ z _ _ _ | .ldAcq _ z _ _ | .ldc _ z _ => some { global := true, size := z.bytes, align := z.bytes, kind := .read }
  | .ldb _ z _ => some { global := true, size := z.bytes, align := 1, kind := .read }
  | .st _ z _ | .stRel _ z _ => some { global := true, size := z.bytes, align := z.bytes, kind := .write }
  | .lds _ z _ _ => some { global := false, size := z.bytes, align := z.bytes, kind := .read }
  | .sts _ z _ => some { global := false, size := z.bytes, align := z.bytes, kind := .write }
  | .atom _ _ t _ _ | .red _ _ t _ _ => some { global := true, size := 4 * t.regs, align := 4 * t.regs, kind := .write }
  | .atoms _ _ t _ => some { global := false, size := 4 * t.regs, align := 4 * t.regs, kind := .write }
  | _ => none

/-- Accesses that are sent under a tag (R163). -/
def isTagged : Instr → Bool
  | .atom .. | .red .. | .atoms .. => true
  | _ => false

/-- The accesses that write D when they complete. -/
def hasD : Instr → Bool
  | .atom .. | .atoms .. => true
  | i => isLoad i

/-- The address of R142: for global memory A + B modulo 2^64, B an immediate sign-extended; for scratchpad A + B modulo 2^32. -/
def address (a : Access) (x : Act) (v : Read) : Nat :=
  if a.global then (v.a + if x.r.b.kind = .imm then wrap 64 x.r.b.val.toInt else v.b) % 2 ^ 64 else (v.a + v.b) % 2 ^ 32

/-- The data an access sends: C for a store or an atomic, none for a load. -/
def sends (i : Instr) (v : Read) : Nat := if isLoad i then 0 else v.c

/-- A byte lies in a present line whose rights allow the access. -/
def Reached (s : State) (k : Nat) (a : Acc) : Prop := linePresent s k = true ∧ lineAllows s k a = true

/-- Every byte an access needs can be reached: its scratchpad exists, or its lines are present with the right. -/
def Reaches (a : Access) (s : State) (w : Warp) (va : Nat) : Prop :=
  if a.global then va < 2 ^ 60 ∧ ∀ j < a.size, va + j < 2 ^ 60 ∧ Reached s ((s.space w).loc (va + j)) a.kind
  else (scrTarget s w va a.size).isSome = true

/-- No doubleword of a scratchpad range holds an uncorrectable error (R362). -/
def Sound (s : State) (g : Nat) (p : Nat × Nat) (n : Nat) : Prop := ∀ j < n, Store.get false (s.block g p.1).badScratch ((p.2 + j) / 8) = false

/-- The tag of R283. -/
def tag (s : State) (w : Warp) (l : Nat) : DWord :=
  let g := s.warpGang w
  .ofNat 64 (g.num % 2 ^ 20 * 2 ^ 44 + g.retained.sealNo.toNat % 2 ^ 8 * 2 ^ 36 + w.rank * 2 ^ 31 + w.num * 2 ^ 26 + l * 2 ^ 20 +
    (w.thread l).tagSeq.toNat)

end Sys2Proof.Rule

/-- R21, R24, R142 to R146, R149, R150, R152, R163, R283: a load, store, atomic or reduction of global memory or of scratchpad whose addresses are aligned and can be reached (here: the lines are present at their home slices) issues at once. Its addresses, data and tags stand in the record; its D, where it has one, stands empty in every lane that performs; under a tag each active lane's sequence number goes up by one, and a wrap exposes the gang; the bundle moves on and nothing else changes. -/
def Sys2Proof.Rule.AccessOwed : Prop :=
  ∀ (i : Instr) (a : Rule.Access) (s : State) (b : Bundle) (act : List Nat), Rule.access i = some a → i.wf = true → Goes i s b act →
    let x := actAt i b act
    let w := s.warp b.warp
    let at' (l : Nat) : Nat := Rule.address a x (x.read w l)
    (∀ l ∈ x.runs, at' l % a.align = 0 ∧ Rule.Reaches a s w (at' l)) →
    let slots := x.runs.map fun l => ({ lane := l, addr := at' l, data := BitVec.ofNat 128 (Rule.sends i (x.read w l)),
                                        tag := if Rule.isTagged i then Rule.tag s w l else 0 } : Slot)
    ∃ t, exec i s = .next t ∧
      Rule.Recorded { id := 0, ins := i, pc := b.pc, lanes := maskOf act, ctr := some .mem, slots } w (t.warp b.warp) ∧
      (if Rule.hasD i then Rule.DEmpty x x.runs w (t.warp b.warp)
        else (t.warp b.warp).vregs = w.vregs ∧ (t.warp b.warp).uregs = w.uregs) ∧
      (t.warp b.warp) = { w with threads := (t.warp b.warp).threads, vregs := (t.warp b.warp).vregs, uregs := (t.warp b.warp).uregs,
                                 ops := (t.warp b.warp).ops, nextOp := (t.warp b.warp).nextOp } ∧
      (∀ l, (t.warp b.warp).thread l = { (w.moved (lanesOf b.lanes) b.pc).thread l with
        tagSeq := (w.thread l).tagSeq + if Rule.isTagged i = true ∧ l ∈ act then 1 else 0 }) ∧
      (∀ v, v ≠ b.warp → t.warp v = s.warp v) ∧ t = { s with warps := t.warps, gangs := t.gangs } ∧
      (Rule.isTagged i = false ∨ (∀ l ∈ act, (w.thread l).tagSeq ≠ 0xFFFFF) → t.gangs = s.gangs)

/-- R143, R144, R150, R26: the checks of an access in their order. A global address that is not canonical raises TRANSLATION, as does a gather's byte at an address that is not, and a scratchpad address outside the block and its gang window BOUNDS, in the lowest lane that has one; with every address in range, a misaligned one raises ALIGNMENT; with every address aligned as well, a scratchpad access that runs past the end raises BOUNDS; each with the address in `sr.trapaddr`, a gather's that of its first such byte. -/
def Sys2Proof.Rule.BadAddressTraps : Prop :=
  ∀ (i : Instr) (a : Rule.Access) (s : State) (b : Bundle) (act : List Nat), Rule.access i = some a → i.wf = true → Goes i s b act →
    let x := actAt i b act
    let w := s.warp b.warp
    let at' (l : Nat) : Nat := Rule.address a x (x.read w l)
    let inRange (l : Nat) : Prop := if a.global then at' l < 2 ^ 60 ∧ (a.align = 1 → at' l + a.size ≤ 2 ^ 60)
      else (scrTarget s w (at' l) 1).isSome = true
    let trap (c : Word) (l va : Nat) : State := x.trap l { cause := c, addr := .ofNat 64 va } (s.advance b.warp (lanesOf b.lanes) b.pc)
    (∀ l ∈ x.runs, ¬inRange l → (∀ m ∈ x.runs, m < l → inRange m) →
      exec i s = .next (if a.global then trap 0x03 l (max (at' l) (2 ^ 60)) else trap 0x09 l (at' l))) ∧
    ((∀ l ∈ x.runs, inRange l) → ∀ l ∈ x.runs, at' l % a.align ≠ 0 → (∀ m ∈ x.runs, m < l → at' m % a.align = 0) →
      exec i s = .next (trap 0x02 l (at' l))) ∧
    (a.global = false → (∀ l ∈ x.runs, inRange l ∧ at' l % a.align = 0) → ∀ l ∈ x.runs, scrTarget s w (at' l) a.size = none →
      (∀ m ∈ x.runs, m < l → (scrTarget s w (at' m) a.size).isSome = true) → exec i s = .next (trap 0x09 l (at' l)))

/-- R26: the scratchpad address map: an address below the block's size names the block's own bytes; one in the gang window names the bytes of the block whose rank its bits 24:20 give; any other names nothing. -/
def Sys2Proof.Rule.ScratchpadMap : Prop :=
  ∀ (s : State) (w : Warp) (a n : Nat), 1 ≤ n →
    let size := s.scrSize w.gang
    (a + n ≤ size → scrTarget s w a n = some (w.rank, a)) ∧
    (size < a + n → (a < 0x02000000 ∨ 0x04000000 ≤ a) → scrTarget s w a n = none) ∧
    (size < a + n → 0x02000000 ≤ a → a < 0x04000000 →
      scrTarget s w a n = if a / 2 ^ 20 % 32 < (s.gang w.gang).blocks.length ∧ a % 2 ^ 20 + n ≤ size then some (a / 2 ^ 20 % 32, a % 2 ^ 20) else none)

namespace Sys2Proof.Rule

/-- The number that the bytes `f 0` … `f (n-1)` hold, little-endian. -/
def number (f : Nat → Byte) : Nat → Nat
  | 0 => 0
  | n + 1 => number f n + (f n).toNat * 256 ^ n

/-- The register value of n loaded bytes: zero-extended, or sign-extended to 32 bits (R145). -/
def loaded (sx : Bool) (n v : Nat) : Nat := if sx ∧ n < 4 then wrap 32 (signedOf (8 * n) v) else v

/-- An operation has completed: D received the values given (none under EMK), the record entry is finished, and nothing of the part changed but the warp, what its core's L1 holds, the units of heavy issue the operation held, and how many free values have been drawn. -/
def Arrived (r : OpRef) (o : Op) (vals : List (Nat × Nat)) (s t : State) : Prop :=
  t.warp r.warp = (o.writeD vals (s.warp r.warp)).finish r.op ∧ (∀ v, v ≠ r.warp → t.warp v = s.warp v) ∧
  t = { s with warps := t.warps, caches := t.caches, clusters := t.clusters, draws := t.draws }

/-- The acquire invalidation of a core: of its L1 words only the owned stay valid (R147). -/
def Acquired (core : Nat) (s t : State) : Prop :=
  ∀ k, (t.cache core).word k = match (s.cache core).word k with
    | some x => if x.owned then some x else none
    | none => none

/-- A lane's bytes: those it read ahead of the others (R146), then those that are read now. -/
def joined (x : Slot) (now : Nat → Byte) (j : Nat) : Byte :=
  if j < (x.answer.map BitVec.toNat).getD 0 then .ofNat 8 (x.data.toNat / 256 ^ j) else now j

end Sys2Proof.Rule

/-- R21, R26, R145 to R150, R296, R297: the data of a load arrives. LDS delivers the bytes of the scratchpad. LD and LD.acq deliver what the core's L1 holds where its valid words serve the gang (LD.acq: where the core owns them), and else, with the lines present, without poison and not in L1, the bytes of the home slice as the gang sees them; a lane that was performed ahead of the others keeps what it read (R146); bytes are little-endian, narrow values are extended. LDC delivers what the constant cache holds, and else, with the line present and without poison, the bytes of the home slice as the gang sees them, as it always does for a line the gang has written. LDB gathers its bytes one by one, each from L1 or the home slice. A load with `.near` delivers what L1 serves, else the bytes of its launch's replica in the nearest slice, else those of the home slice. D receives them, the operation leaves the record, no byte of memory changes, and LD.acq ends with the acquire invalidation of the core. -/
def Obligations.LoadDelivers : Prop :=
  (∀ (r : OpRef) (o : Op) (s : State) (h : Hdr) (z : Size) (sx : Bool) (f : Ops), s.opOf r = some o → o.ins = .lds h z sx f →
    loadReady s r = true →
    let w := s.warp r.warp
    let got (x : Slot) : Nat := (x.answer.map BitVec.toNat).getD 0
    ∀ (to' : Slot → Nat × Nat), (∀ x ∈ o.slots, got x < z.bytes →
      scrTarget s w (x.addr + got x) (z.bytes - got x) = some (to' x) ∧ scrBad s w.gang (to' x) (z.bytes - got x) = false) →
    ∃ t, exec (.loadDataArrival r) s = .next t ∧ t.caches = s.caches ∧
      Rule.Arrived r o (o.slots.map fun x => (x.lane, Rule.loaded sx z.bytes
        (Rule.number (Rule.joined x fun j => (s.block w.gang (to' x).1).scratch.byte ((to' x).2 + (j - got x))) z.bytes))) s t) ∧
  (∀ (r : OpRef) (o : Op) (s : State) (z : Size) (sx acq : Bool), s.opOf r = some o →
    (∃ h f, o.ins = if acq then .ldAcq h z sx f else .ld h z false sx f) → loadReady s r = true →
    (∀ x ∈ o.slots, x.addr % z.bytes = 0) → Store.wf none (s.cache (s.warpCore (s.warp r.warp))).l1 = true →
    let w := s.warp r.warp
    let core := s.warpCore w
    let key (x : Slot) : Nat := (s.space w).loc x.addr
    let value (x : Slot) (g : Nat → Byte) : Nat := Rule.loaded sx z.bytes (Rule.number (Rule.joined x g) z.bytes)
    ((∀ x ∈ o.slots, s.l1Serves core (some w.gang) (key x) z.bytes = true ∧ (acq = true → (s.cache core).owns (key x) z.bytes = true)) →
      ∃ t, exec (.loadDataArrival r) s = .next t ∧ (if acq then Rule.Acquired core s t else t.caches = s.caches) ∧
        Rule.Arrived r o (o.slots.map fun x => (x.lane, value x fun j => ((s.cache core).bytesAt (key x + j) 1).headD 0)) s t) ∧
    ((∀ x ∈ o.slots, linePresent s (key x) = true ∧ Store.get false (s.cache core).lines (key x / 128) = false ∧
        poisonedAt s (some w.gang) .line (key x / 128 * 128) 128 = false) →
      ∃ t, exec (.loadDataArrival r) s = .next t ∧
        Rule.Arrived r o (o.slots.map fun x => (x.lane, value x fun j => homeByte s (some w.gang) (key x + j))) s t)) ∧
  (∀ (r : OpRef) (o : Op) (s : State) (h : Hdr) (z : Size) (f : Ops), s.opOf r = some o → o.ins = .ldc h z f → loadReady s r = true →
    (∀ x ∈ o.slots, x.addr % z.bytes = 0) →
    let w := s.warp r.warp
    let core := s.warpCore w
    let key (x : Slot) : Nat := (s.space w).loc x.addr
    let written (x : Slot) : Prop := key x / 128 ∈ (s.gang w.gang).shadows
    let value (x : Slot) (g : Nat → Byte) : Nat := Rule.number (Rule.joined x g) z.bytes
    ((∀ x ∈ o.slots, ¬written x ∧ ∀ j < z.bytes, (Store.get none (s.cache core).consts (key x + j)).isSome = true) →
      ∃ t, exec (.loadDataArrival r) s = .next t ∧ t.caches = s.caches ∧
        Rule.Arrived r o (o.slots.map fun x => (x.lane, value x fun j => (Store.get none (s.cache core).consts (key x + j)).getD 0)) s t) ∧
    ((∀ x ∈ o.slots, linePresent s (key x) = true ∧ poisonedAt s (some w.gang) .line (key x / 128 * 128) 128 = false ∧
        (written x ∨ ∀ j < 128, (Store.get none (s.cache core).consts (key x / 128 * 128 + j)).isSome = false)) →
      Store.wf none (s.cache core).consts = true →
      ∃ t, exec (.loadDataArrival r) s = .next t ∧
        Rule.Arrived r o (o.slots.map fun x => (x.lane, value x fun j => homeByte s (some w.gang) (key x + j))) s t)) ∧
  (∀ (r : OpRef) (o : Op) (s : State) (h : Hdr) (z : Size) (f : Ops), s.opOf r = some o → o.ins = .ldb h z f → loadReady s r = true →
    Store.wf none (s.cache (s.warpCore (s.warp r.warp))).l1 = true →
    let w := s.warp r.warp
    let core := s.warpCore w
    let key (x : Slot) : Nat := (s.space w).loc x.addr
    let value (x : Slot) (g : Nat → Byte) : Nat := Rule.number (Rule.joined x g) z.bytes
    ((∀ x ∈ o.slots, ∀ j < z.bytes, s.l1Serves core (some w.gang) (key x + j) 1 = true) →
      ∃ t, exec (.loadDataArrival r) s = .next t ∧ t.caches = s.caches ∧
        Rule.Arrived r o (o.slots.map fun x => (x.lane, value x fun j => ((s.cache core).bytesAt (key x + j) 1).headD 0)) s t) ∧
    ((∀ x ∈ o.slots, ∀ j < z.bytes, linePresent s (key x + j) = true ∧ Store.get false (s.cache core).lines ((key x + j) / 128) = false ∧
        poisonedAt s (some w.gang) .line ((key x + j) / 128 * 128) 128 = false) →
      ∃ t, exec (.loadDataArrival r) s = .next t ∧
        Rule.Arrived r o (o.slots.map fun x => (x.lane, value x fun j => homeByte s (some w.gang) (key x + j))) s t)) ∧
  ∀ (r : OpRef) (o : Op) (s : State) (h : Hdr) (z : Size) (sx : Bool) (f : Ops), s.opOf r = some o → o.ins = .ld h z true sx f →
    loadReady s r = true → (∀ x ∈ o.slots, x.addr % z.bytes = 0 ∧ x.answer = none) →
    let w := s.warp r.warp
    let core := s.warpCore w
    let key (x : Slot) : Nat := (s.space w).loc x.addr
    let value (g : Nat → Byte) : Nat := Rule.loaded sx z.bytes (Rule.number g z.bytes)
    let away (x : Slot) : Prop := s.l1Serves core (some w.gang) (key x) z.bytes = false ∧ nearSlice core ≠ sliceOf (key x) ∧
      key x / 128 ∉ (s.gang w.gang).shadows
    let copy (x : Slot) : Option Replica := replicaOf s (nearSlice core) (s.warpLaunch w).uid (key x / 128)
    ((∀ x ∈ o.slots, s.l1Serves core (some w.gang) (key x) z.bytes = true) →
      ∃ t, exec (.loadDataArrival r) s = .next t ∧ t.caches = s.caches ∧
        Rule.Arrived r o (o.slots.map fun x => (x.lane, value fun j => ((s.cache core).bytesAt (key x + j) 1).headD 0)) s t) ∧
    (∀ (q : Slot → Replica), (∀ x ∈ o.slots, away x ∧ copy x = some (q x) ∧ (q x).bad = []) →
      ∃ t, exec (.loadDataArrival r) s = .next t ∧ t.caches = s.caches ∧
        Rule.Arrived r o (o.slots.map fun x => (x.lane, value fun j => (q x).bytes.getD (key x % 128 + j) 0)) s t) ∧
    ∀ x, o.slots = [x] → away x → copy x = none → linePresent s (key x) = true → Store.get false (s.cache core).lines (key x / 128) = false →
      poisonedAt s none .line (key x / 128 * 128) 128 = false → poisonedAt s (some w.gang) .line (key x / 128 * 128) 128 = false →
      Store.wf none (s.cache core).l1 = true →
      ∃ t, exec (.loadDataArrival r) s = .next t ∧ (∀ v, v ≠ r.warp → t.warp v = s.warp v) ∧
        t.warp r.warp = (o.writeD [(x.lane, value fun j => homeByte s (some w.gang) (key x + j))] w).finish r.op

namespace Sys2Proof.Rule

/-- The byte that a list of stores of n bytes leaves at a place: that of the last slot that covers it. -/
def stored (n : Nat) (place : Slot → Nat) (slots : List Slot) (k : Nat) : Option Byte :=
  (slots.reverse.find? fun x => decide (place x ≤ k) && decide (k < place x + n)).map fun x =>
    .ofNat 8 (x.data.toNat / 256 ^ (k - place x))

/-- Bytes as they were but for what the slots store. -/
def After (n : Nat) (place : Slot → Nat) (slots : List Slot) (old new : Nat → Byte) : Prop :=
  ∀ k, new k = (stored n place slots k).getD (old k)

end Sys2Proof.Rule

namespace Sys2Proof.Rule

/-- The bytes of a barrier object at `a` of some scratchpad bytes. -/
def baroOf (f : Nat → Byte) (a : Nat) : Baro := .ofBytes ((List.range 24).map fun j => f (a + j))

/-- Scratchpad bytes once each barrier object that has been written (`flag`) and has nothing pending or due has completed its phase (R160). -/
def Tested (flag : Nat → Bool) (mid new : Nat → Byte) : Prop :=
  ∀ a,
    (flag (32 * a) = true ∧ (baroOf mid (32 * a)).pending = 0 ∧ (baroOf mid (32 * a)).due = 0 →
      (∀ j, 24 ≤ j → j < 32 → new (32 * a + j) = mid (32 * a + j)) ∧
      baroOf new (32 * a) = { baroOf mid (32 * a) with
        phase := (baroOf mid (32 * a)).phase + 1, pending := (baroOf mid (32 * a)).expected, bitmap := 0 }) ∧
    (¬(flag (32 * a) = true ∧ (baroOf mid (32 * a)).pending = 0 ∧ (baroOf mid (32 * a)).due = 0) →
      ∀ j < 32, new (32 * a + j) = mid (32 * a + j))

end Sys2Proof.Rule

/-- R144, R146, R147, R160, R235, R237: stores register, in every lane that was not performed ahead of the others. STS writes the low bytes of each lane's C at its target in the scratchpad, lane after lane; a barrier object that it leaves with nothing pending or due completes its phase at that moment; the bytes that a BARO form or an engine operation has named count as an object (log 62). ST writes them into the gang's version: the gang reads them, everyone else and the committed lines are as before. ST.rel first commits the gang's version, then writes the committed lines: afterwards everyone reads what the gang reads, and the gang is EXPOSED. Every byte outside the stored bytes reads as before, and the operation leaves the record. -/
def Obligations.StoresRegister : Prop :=
  (∀ (r : OpRef) (o : Op) (s : State) (h : Hdr) (z : Size) (f : Ops), s.opOf r = some o → o.ins = .sts h z f → storeReady s r = true →
    let w := s.warp r.warp
    let slots := o.slots.filter fun x => x.answer.isNone
    ∀ (to' : Slot → Nat × Nat), (∀ x ∈ o.slots, scrTarget s w x.addr z.bytes = some (to' x)) → (s.hasGang w.gang = true) →
    ∃ t, exec (.storeRegister r) s = .next t ∧ t.mem = s.mem ∧ t.warp r.warp = w.finish r.op ∧ (∀ v, v ≠ r.warp → t.warp v = s.warp v) ∧
      ∀ rank, rank < (s.gang w.gang).blocks.length → ∃ mid,
        Rule.After z.bytes (fun x => (to' x).2) (slots.filter fun x => (to' x).1 == rank) (s.block w.gang rank).scratch.byte mid ∧
        Rule.Tested (fun a => Store.get false (s.block w.gang rank).objects a && slots.any fun x => (to' x).1 == rank && (to' x).2 / 32 * 32 == a)
          mid (t.block w.gang rank).scratch.byte) ∧
  ∀ (r : OpRef) (o : Op) (s : State) (h : Hdr) (z : Size) (f : Ops) (rel : Bool), s.opOf r = some o →
    o.ins = (if rel then .stRel h z f else .st h z f) → storeReady s r = true → o.state ≠ .sent →
    let w := s.warp r.warp
    let g := s.gang w.gang
    let key (x : Slot) : Nat := (s.space w).loc x.addr
    let slots := o.slots.filter fun x => x.answer.isNone
    s.hasGang w.gang = true → (s.gangs.map fun g => g.uid).Nodup → Store.wf none g.version = true →
    (∀ l ∈ g.shadows, linePresent s (128 * l) = true) →
    (∀ x ∈ o.slots, x.addr % z.bytes = 0 ∧ Rule.Reached s (key x) .write ∧
      (key x / 128 ∈ g.shadows ∨ (shadowsInSet s (setOf (key x)) + o.slots.length ≤ 4 ∧ waysUsed s (setOf (key x)) + o.slots.length ≤ 16))) →
    ∃ t, exec (.storeRegister r) s = .next t ∧ t.warp r.warp = w.finish r.op ∧ (∀ v, v ≠ r.warp → t.warp v = s.warp v) ∧
      Rule.After z.bytes key slots (homeByte s (some w.gang)) (homeByte t (some w.gang)) ∧
      (rel = false → t.mem.l2 = s.mem.l2 ∧ t.mem.dram = s.mem.dram ∧ ∀ v, v ≠ w.gang → ∀ k, homeByte t (some v) k = homeByte s (some v) k) ∧
      (rel = true → slots ≠ [] → (∀ k, homeByte t none k = homeByte t (some w.gang) k) ∧ (t.gang w.gang).retained.contain = false)

namespace Sys2Proof.Rule

/-- The new value of an atomic from the old one and C (R152, R153): integers wrap and compare by type, floats round to nearest, packed types act on each half; EXCH stores C; CAS stores C's upper half where the old value is its lower half. -/
def atomic (o : AtomOp) (t : AtomTy) (old c : Nat) : Nat :=
  let w := 32 * t.regs
  let v := c % 2 ^ w
  let signed := t = .i32 ∨ t = .i64
  let int (x : Nat) : Int := if signed then signedOf w x else x
  let flt (f : FloatFmt) (x y : Nat) : Nat := match o with
    | .add => sum f .rn x y
    | .min => f.minMax false x y
    | _ => f.minMax true x y
  match o with
  | .and => old &&& v
  | .or => old ||| v
  | .xor => old ^^^ v
  | .exch => v
  | .cas => if old = v then c / 2 ^ w % 2 ^ w else old
  | _ => match t with
    | .f32 => flt f32Fmt old v
    | .f64 => flt f64Fmt old v
    | .f16x2 => halves (fun x y _ => flt f16Fmt x y) old v 0
    | .bf16x2 => halves (fun x y _ => flt bf16Fmt x y) old v 0
    | _ => match o with
      | .add => (old + v) % 2 ^ w
      | .min => if int old ≤ int v then old else v
      | _ => if int v ≤ int old then old else v

/-- ATOM without release, or RED without it, of an operation and type. -/
def isAtomicOf (i : Instr) (p : AtomOp) (y : AtomTy) : Prop :=
  ∃ h f, (∃ k, (k = .none ∨ k = .acq) ∧ i = .atom h p y k f) ∨ i = .red h p y false f

/-- The steps of an atomic bundle at one address: the old value of each lane, in lane order, and the value left (R154). -/
def steps (f : Nat → Nat → Nat) (old : Nat) : List Slot → List (Nat × Nat) × Nat
  | [] => ([], old)
  | x :: xs => ((x.lane, old) :: (steps f (f old x.data.toNat) xs).1, (steps f (f old x.data.toNat) xs).2)

end Sys2Proof.Rule

/-- R152 to R155, R283: an atomic that is performed at one address, first under its tags, without release. Its lanes act one after another in ascending order, each on the value the one before left; D of each lane receives the value before its own step; the committed line holds the last value, which every gang reads as well, and every other byte reads as before. The two halves of a packed type are events of their own (R153): one half may be updated ahead of the other, whose bytes everyone then reads as before. -/
def Sys2Proof.Rule.AtomicPerforms : Prop :=
  (∀ (r : OpRef) (o : Op) (s : State) (p : AtomOp) (y : AtomTy) (a : Nat), s.opOf r = some o → Rule.isAtomicOf o.ins p y → atomReady s r = true →
    let w := s.warp r.warp
    let n := 4 * y.regs
    let k := (s.space w).loc a
    o.slots ≠ [] → (∀ x ∈ o.slots, x.addr = a) → a % n = 0 → (o.slots.map fun x => x.tag).Nodup →
    (∀ x ∈ o.slots, x.half = 0 ∧ tagFind (sliceTags s (sliceOf k)) (s.tagEntry w x.tag o.ins a 0) = none) →
    Rule.Reached s k .write → poisonedAt s none .line k n = false →
    let old := Rule.number (fun j => homeByte s none (k + j)) n
    let out := Rule.steps (Rule.atomic p y) old o.slots
    ∃ t, exec (.atomicPerform r) s = .next t ∧ t.warp r.warp = (o.writeD out.1 w).finish r.op ∧ (∀ v, v ≠ r.warp → t.warp v = s.warp v) ∧
      (∀ g j, j < n → homeByte t g (k + j) = .ofNat 8 (out.2 / 256 ^ j)) ∧
      ∀ g q, (q < k ∨ k + n ≤ q) → homeByte t g q = homeByte s g q) ∧
  ∀ (r : OpRef) (o : Op) (s : State) (p : AtomOp) (y : AtomTy) (x : Slot) (m : Nat), s.opOf r = some o → Rule.isAtomicOf o.ins p y →
    o.slots = [x] → (y = .f16x2 ∨ y = .bf16x2) → (x.lane, m) ∈ opParts s r →
    let w := s.warp r.warp
    let k := (s.space w).loc x.addr
    x.addr % 4 = 0 → x.half = 0 → tagFind (sliceTags s (sliceOf k)) (s.tagEntry w x.tag o.ins x.addr 0) = none →
    Rule.Reached s k .write → poisonedAt s none .line k 4 = false →
    let old := Rule.number (fun j => homeByte s none (k + j)) 4
    let t := performPart r x.lane m s
    (m = 1 ∨ m = 2) ∧ (∃ v, t.opOf r = some { o with slots := [{ x with answer := some v, half := m }] }) ∧
      (∀ g j, j < 4 → homeByte t g (k + j) = if j / 2 + 1 = m then .ofNat 8 (Rule.atomic p y old x.data.toNat / 256 ^ j) else homeByte s g (k + j)) ∧
      ∀ g q, (q < k ∨ k + 4 ≤ q) → homeByte t g q = homeByte s g q

/-- R152, R160, R163: ATOMS acts on the scratchpad under its tag in the block's window: for one lane, D receives the old value and the bytes at its target the new one; every other byte of every block is as before, but that a barrier object which it leaves with nothing pending or due completes its phase; the bytes that a BARO form or an engine operation has named count as an object (log 62). -/
def Sys2Proof.Rule.ScratchAtomicPerforms : Prop :=
  ∀ (r : OpRef) (o : Op) (s : State) (h : Hdr) (p : AtomOp) (y : AtomTy) (f : Ops) (x : Slot) (to' : Nat × Nat), s.opOf r = some o →
    o.ins = .atoms h p y f → o.slots = [x] → atomReady s r = true →
    let w := s.warp r.warp
    let n := 4 * y.regs
    scrTarget s w x.addr n = some to' → scrBad s w.gang to' n = false → to'.1 < (s.gang w.gang).blocks.length → x.half = 0 →
    tagFind (s.block w.gang w.rank).tags (s.tagEntry w x.tag o.ins x.addr 0) = none →
    let old := Rule.number (fun j => (s.block w.gang to'.1).scratch.byte (to'.2 + j)) n
    ∃ t, exec (.atomicPerform r) s = .next t ∧ t.warp r.warp = (o.writeD [(x.lane, old)] w).finish r.op ∧ t.mem = s.mem ∧
      (∀ rank q, rank ≠ to'.1 → (t.block w.gang rank).scratch.byte q = (s.block w.gang rank).scratch.byte q) ∧
      ∃ mid : Nat → Byte, (∀ j < n, mid (to'.2 + j) = .ofNat 8 (Rule.atomic p y old x.data.toNat / 256 ^ j)) ∧
        (∀ q, (q < to'.2 ∨ to'.2 + n ≤ q) → mid q = (s.block w.gang to'.1).scratch.byte q) ∧
        Rule.Tested (fun a => Store.get false (s.block w.gang to'.1).objects a && to'.2 / 32 * 32 == a) mid (t.block w.gang to'.1).scratch.byte

namespace Sys2Proof.Rule

/-- What a reader sees of a byte once a gang has released (R147, R237). -/
def afterRelease (g : Nat) (s : State) (h : Option Nat) (k : Nat) : Byte :=
  match h with
  | some v => if v = g then homeByte s (some g) k else (Store.get none (s.gang v).version k).getD (homeByte s (some g) k)
  | none => homeByte s (some g) k

/-- ATOM or RED with its ordering bits: release, acquire. -/
def isOrdered (i : Instr) (p : AtomOp) (y : AtomTy) (rel acq : Bool) : Prop :=
  ∃ h f, (∃ k, i = .atom h p y k f ∧ (rel = true ↔ k = .rel ∨ k = .acqRel) ∧ (acq = true ↔ k = .acq ∨ k = .acqRel)) ∨
    (i = .red h p y rel f ∧ acq = false)

end Sys2Proof.Rule

/-- R147, R155, R211: the ordering bits of ATOM and RED. A release is not performed while an older read or write of memory of one of its threads, a texture load among them, has not been. Then it commits the gang's version and exposes the gang, and acts on what the gang read, which everyone reads now; the gang holds no version. An acquire acts on the committed line and ends with the acquire invalidation of its core. Stated for one lane, first under its tag. -/
def Sys2Proof.Rule.OrderedAtomics : Prop :=
  (∀ (r : OpRef) (o q : Op) (s : State) (p : AtomOp) (y : AtomTy) (acq : Bool), s.opOf r = some o → Rule.isOrdered o.ins p y true acq →
    q ∈ (s.warp r.warp).ops → q.id < o.id → q.performed = false → q.finished = false → isMemEvent q.ins = true → q.lanes &&& o.lanes ≠ 0 →
    exec (.atomicPerform r) s = .fault .notEnabled) ∧
  ∀ (r : OpRef) (o : Op) (s : State) (p : AtomOp) (y : AtomTy) (rel acq : Bool) (x : Slot), s.opOf r = some o → Rule.isOrdered o.ins p y rel acq →
    o.slots = [x] → atomReady s r = true →
    let w := s.warp r.warp
    let g := w.gang
    let n := 4 * y.regs
    let k := (s.space w).loc x.addr
    let core := s.warpCore w
    x.addr % n = 0 → x.half = 0 → tagFind (sliceTags s (sliceOf k)) (s.tagEntry w x.tag o.ins x.addr 0) = none →
    Rule.Reached s k .write → poisonedAt s none .line k n = false → (s.gang g).badVersion = [] → s.hasGang g = true →
    Store.wf none (s.gang g).version = true → (∀ l ∈ (s.gang g).shadows, linePresent s (l * 128) = true) → Store.wf none (s.cache core).l1 = true →
    let seen (h : Option Nat) (q : Nat) : Byte := if rel then Rule.afterRelease g s h q else homeByte s h q
    let old := Rule.number (fun j => seen none (k + j)) n
    let new := Rule.atomic p y old x.data.toNat
    ∃ t, exec (.atomicPerform r) s = .next t ∧ t.warp r.warp = (o.writeD [(x.lane, old)] w).finish r.op ∧ (∀ v, v ≠ r.warp → t.warp v = s.warp v) ∧
      (∀ h j, j < n → homeByte t h (k + j) = .ofNat 8 (new / 256 ^ j)) ∧ (∀ h q, (q < k ∨ k + n ≤ q) → homeByte t h q = seen h q) ∧
      (rel = true → (t.gang g).version = [] ∧ (t.gang g).retained.contain = false) ∧
      (acq = true → ∀ q v, (t.cache core).word q = some v → v.owned = true)

/-- R156: ATOM.AGG issues one atomic for its bundle: one slot, of the lowest active lane, with the sum of the counts, under one tag; the counts of the lanes stand in the record, and D stands empty. When it is performed, with the line present, the committed value grows by the sum and each lane receives the old value plus the counts of the lanes below it. -/
def Sys2Proof.Rule.AggregateAppends : Prop :=
  (∀ (h : Hdr) (ty : ITy) (f : Ops) (s : State) (b : Bundle) (act : List Nat), (Instr.atomAgg h ty f).wf = true → Goes (.atomAgg h ty f) s b act →
    let x := actAt (.atomAgg h ty f) b act
    let w := s.warp b.warp
    let a : Rule.Access := { global := true, size := 4 * ty.regs, align := 4 * ty.regs, kind := .write }
    let at' := Rule.address a x (x.read w x.first)
    let counts := act.map fun l => (x.read w l).c
    at' % a.align = 0 → Rule.Reaches a s w at' →
    ∃ t, exec (.atomAgg h ty f) s = .next t ∧
      Rule.Recorded { id := 0, ins := .atomAgg h ty f, pc := b.pc, lanes := maskOf act, ctr := some .mem,
                      slots := [{ lane := x.first, addr := at', data := .ofNat 128 (counts.sum % 2 ^ ty.bits), tag := Rule.tag s w x.first }],
                      regs := (counts.map fun c => [BitVec.ofNat 32 c, BitVec.ofNat 32 (c / 2 ^ 32)]).flatten } w (t.warp b.warp) ∧
      Rule.DEmpty x x.runs w (t.warp b.warp) ∧ t.mem = s.mem ∧ ∀ v, v ≠ b.warp → t.warp v = s.warp v) ∧
  ∀ (r : OpRef) (o : Op) (s : State) (h : Hdr) (ty : ITy) (f : Ops) (x : Slot), s.opOf r = some o → o.ins = .atomAgg h ty f → o.slots = [x] →
    atomReady s r = true →
    let w := s.warp r.warp
    let n := 4 * ty.regs
    let k := (s.space w).loc x.addr
    let count (j : Nat) : Nat := (o.regs.getD (2 * j) 0).toNat + (o.regs.getD (2 * j + 1) 0).toNat * 2 ^ 32
    x.addr % n = 0 → Rule.Reached s k .write → poisonedAt s none .line k n = false → x.half = 0 →
    tagFind (sliceTags s (sliceOf k)) (s.tagEntry w x.tag o.ins x.addr 0) = none →
    let old := Rule.number (fun j => homeByte s none (k + j)) n
    ∃ t, exec (.atomicPerform r) s = .next t ∧
      t.warp r.warp = (o.writeD ((lanesOf o.lanes).zipIdx.map fun e => (e.1, (old + ((List.range e.2).map count).sum) % 2 ^ ty.bits)) w).finish r.op ∧
      ∀ g j, j < n → homeByte t g (k + j) = .ofNat 8 ((old + x.data.toNat) % 2 ^ ty.bits / 256 ^ j)

/-! ## Fences, seals and barrier objects (R147, R151, R157, R158, R160 to R162, R237) -/

namespace Sys2Proof.Rule

/-- A release other than SEAL by a gang: what the gang reads is committed, and everyone reads it; the gang holds no version and is EXPOSED (R147, R237). -/
def Released (g : Nat) (s t : State) : Prop :=
  (∀ h k, homeByte t h k = match h with
    | some v => if v = g then homeByte s (some g) k else (Store.get none (s.gang v).version k).getD (homeByte s (some g) k)
    | none => homeByte s (some g) k) ∧
  (t.gang g).version = [] ∧ (t.gang g).retained.contain = false

/-- An L1 word once a version has been committed: a word of it that the core holds for another gang is no longer owned, and serves the committing gang no longer (R235, R237, R296). -/
def unowned (g : Nat) (s : State) (k : Nat) (x : L1Word) : L1Word :=
  if x.gang ≠ some g ∧ (List.range 4).any (fun j => (Store.get none (s.gang g).version (k / 4 * 4 + j)).isSome) = true then { x with owned := false, behind := g :: x.behind.filter (· != g) } else x

/-- The lines of a gang's version are in L2 (R299). -/
def VersionHome (g : Nat) (s : State) : Prop := ∀ l ∈ (s.gang g).shadows, linePresent s (l * 128) = true

/-- The threads, registers and records of every warp are those after the advance. -/
def OnlyAdvanced (b : Bundle) (s t : State) : Prop := t.warps = (s.advance b.warp (lanesOf b.lanes) b.pc).warps

end Sys2Proof.Rule

/-- R147, R157, R162, R237: FENCE and WAITC that go through. FENCE.rel is a release of the gang; FENCE.acq is the acquire invalidation of the core, as is WAITC of a counter that reads the threshold (at most 64) or less; FENCE.acq.rel is both. WAITC of a counter above it makes the active lanes BLOCKED with the threshold. No register, thread or scratchpad byte changes but for the advance. -/
def Sys2Proof.Rule.FencesOrder : Prop :=
  ∀ (i : Instr) (s : State) (b : Bundle) (act : List Nat), Goes i s b act →
    let w := s.warp b.warp
    let core := s.warpCore w
    let x := actAt i b act
    s.hasGang w.gang = true → Store.wf none (s.gang w.gang).version = true → Rule.VersionHome w.gang s → Store.wf none (s.cache core).l1 = true →
    ((∃ h f, i = .fenceAcq h f) → ∃ t, exec i s = .next t ∧ Rule.OnlyAdvanced b s t ∧
      Rule.Acquired core s t ∧ t = { s with warps := t.warps, caches := t.caches }) ∧
    (∀ h f, i = .waitc h f →
      let c := counterOf f.a.val.toNat
      let n := min 64 (x.read w x.first).b
      (w.count c ≤ n → ∃ t, exec i s = .next t ∧ Rule.OnlyAdvanced b s t ∧ Rule.Acquired core s t ∧ t = { s with warps := t.warps, caches := t.caches }) ∧
      (n < w.count c → exec i s = .next ((s.advance b.warp (lanesOf b.lanes) b.pc).blockLanes b.warp act (.count c n)))) ∧
    ((∃ h f, i = .fenceRel h f) → ∃ t, exec i s = .next t ∧ Rule.OnlyAdvanced b s t ∧ Rule.Released w.gang s t ∧
      (∀ c k, (t.cache c).word k = ((s.cache c).word k).map (Rule.unowned w.gang s k)) ∧ ∀ g r, (t.block g r) = s.block g r) ∧
    ((∃ h f, i = .fenceAcqRel h f) → ∃ t, exec i s = .next t ∧ Rule.OnlyAdvanced b s t ∧ Rule.Released w.gang s t ∧
      (∀ k, (t.cache core).word k = match ((s.cache core).word k).map (Rule.unowned w.gang s k) with
        | some x => if x.owned then some x else none
        | none => none) ∧ ∀ g r, (t.block g r) = s.block g r)

namespace Sys2Proof.Rule

/-- The gang's version is committed and its retained record written (R158, R283). -/
def Sealed (g : Nat) (rpc : Word) (vals : List Word) (s t : State) : Prop :=
  (∀ k, homeByte t none k = homeByte s (some g) k ∧ homeByte t (some g) k = homeByte s (some g) k) ∧ (t.gang g).version = [] ∧
  (t.gang g).retained = { (s.gang g).retained with vals, rpc, sealNo := (s.gang g).retained.sealNo + 1, since := 0, contain := true }

/-- A thread of a warp that waits in the SEAL of a bundle's lowest lane. -/
def sealingWith (w : Warp) (lead l : Nat) : Bool :=
  match (w.thread l).status with
  | .blocked (.sealing j ..) => j == lead
  | _ => false

/-- Reads and writes of memory by the warp's threads older than `n`, texture loads among them, that have not been performed (R211, R236). -/
def Unperformed (w : Warp) (n : Nat) : Prop := ∃ o ∈ w.ops, isMemEvent o.ins = true ∧ o.performed = false ∧ o.id < n ∧ ∃ l < 64, o.lanes.getLsbD l = true

end Sys2Proof.Rule

/-- R158, R283: SEAL. A resume PC that is no multiple of 12 or lies beyond the code, or the last seal number, raises BOUNDS. While the warp's older memory operations have not been performed, the bundle is BLOCKED with the resume PC and the sixteen uniform registers it has read; once they have, and at once where there are none, the version is committed, and the retained record holds those registers, the resume PC, the next seal number and CONTAINED; the gang's sequence numbers start at 0 again. A waiting SEAL outlives the end of some of its lanes (R9): the lowest that is left stands for it. -/
def Sys2Proof.Rule.SealRecordsResume : Prop :=
  (∀ (h : Hdr) (f : Ops) (s : State) (b : Bundle) (act : List Nat), Goes (.sealVersion h f) s b act →
    let x := actAt (.sealVersion h f) b act
    let w := s.warp b.warp
    let g := s.gang w.gang
    let s1 := s.advance b.warp (lanesOf b.lanes) b.pc
    let pc := (x.read w x.first).a
    let vals := (List.range 16).map fun j => (w.ureg (f.b.val.toNat + j)).val
    let bad := pc % 12 ≠ 0 ∨ (s.warpLaunch w).len ≤ pc ∨ g.retained.sealNo = 0xFFFFFFFF
    (bad → exec (.sealVersion h f) s = .next (x.trap x.first { cause := 0x09 } s1)) ∧
    (¬bad → Rule.Unperformed w w.nextOp →
      exec (.sealVersion h f) s = .next (s1.blockLanes b.warp act (.sealing x.first w.nextOp b.pc (.ofNat 32 pc) vals))) ∧
    (¬bad → ¬Rule.Unperformed w w.nextOp → s.hasGang w.gang = true → Store.wf none g.version = true → Rule.VersionHome w.gang s →
      ∃ t, exec (.sealVersion h f) s = .next t ∧ Rule.Sealed w.gang (.ofNat 32 pc) vals s t ∧
        (∀ l, (t.warp b.warp).thread l = if l < w.threads.length then { (w.moved (lanesOf b.lanes) b.pc).thread l with tagSeq := 0 }
          else w.thread l) ∧
        (t.warp b.warp).vregs = w.vregs ∧ (t.warp b.warp).uregs = w.uregs)) ∧
  ∀ (u l lead before : Nat) (pc rpc : Word) (vals : List Word) (s : State), s.hasWarp u = true → (s.warp u).stopped = false →
    ((s.warp u).thread l).status = .blocked (.sealing lead before pc rpc vals) → l < (s.warp u).width →
    (∀ k < l, Rule.sealingWith (s.warp u) lead k = false) →
    let w := s.warp u
    let mine (k : Nat) : Bool := decide (k < w.width) && Rule.sealingWith w lead k
    (Rule.Unperformed w before → settleSeal u l s = s) ∧
    (¬Rule.Unperformed w before → s.hasGang w.gang = true → (s.gang w.gang).retained.sealNo ≠ 0xFFFFFFFF →
      Store.wf none (s.gang w.gang).version = true → Rule.VersionHome w.gang s →
      let t := settleSeal u l s
      Rule.Sealed w.gang rpc vals s t ∧ ∀ k, k < w.threads.length →
        (t.warp u).thread k = { w.thread k with tagSeq := 0, status := if mine k then .running else (w.thread k).status })

namespace Sys2Proof.Rule

/-- A field of the barrier object at a place of scratchpad, by byte offset and bytes (R160). -/
def object (s : State) (g : Nat) (p : Nat × Nat) (off n : Nat) : Nat := number (fun j => (s.block g p.1).scratch.byte (p.2 + off + j)) n

/-- The five fields of a barrier object: expected, pending, bytes due, phase, bitmap of arrivals. -/
structure Object where
  expected : Nat
  pending : Nat
  due : Nat
  phase : Nat
  bitmap : Nat
  deriving DecidableEq, Repr

def objectAt (s : State) (g : Nat) (p : Nat × Nat) : Object :=
  { expected := object s g p 0 4, pending := object s g p 4 4, due := object s g p 8 8, phase := object s g p 16 4, bitmap := object s g p 20 4 }

/-- The completion test of R160. -/
def completed (o : Object) : Object :=
  if o.pending = 0 ∧ o.due = 0 then { o with phase := (o.phase + 1) % 2 ^ 32, pending := o.expected, bitmap := 0 } else o

/-- No scratchpad byte outside n bytes at a place has changed. -/
def ScratchElse (g : Nat) (p : Nat × Nat) (n : Nat) (s t : State) : Prop :=
  ∀ r q, (r ≠ p.1 ∨ q < p.2 ∨ p.2 + n ≤ q) → (t.block g r).scratch.byte q = (s.block g r).scratch.byte q

/-- The bytes at a place count as a barrier object from now on, and no scratchpad byte has changed (log 62). -/
def Named (g : Nat) (p : Nat × Nat) (s t : State) : Prop :=
  Store.get false (t.block g p.1).objects p.2 = true ∧ ∀ h r, (t.block h r).scratch = (s.block h r).scratch

end Sys2Proof.Rule

namespace Sys2Proof.Rule

/-- An operation that is complete as it issues takes the next number of its warp's record; it stays counted exactly while an older one of its class has not finished (R24). -/
def CountedDone (i : Instr) (c : Ctr) (w w' : Warp) : Prop :=
  w'.nextOp = w.nextOp + 1 ∧ (∀ o ∈ w.ops, o.finished = false → o ∈ w'.ops) ∧
  ((∃ o ∈ w.ops, o.ctr = some c ∧ o.finished = false) → ∃ o ∈ w'.ops, o.id = w.nextOp ∧ o.ins = i ∧ o.ctr = some c ∧ o.finished = true) ∧
  ((∀ o ∈ w.ops, o.ctr = some c → o.finished = true) → ∀ o ∈ w'.ops, o ∈ w.ops)

/-- A thread's wait for a counter or for the phase of a barrier object is over (R161, R162). -/
def waitEnds (s : State) (w : Warp) (l : Nat) : Prop :=
  (∃ c n, (w.thread l).status = .blocked (.count c n) ∧ w.count c ≤ n) ∨
  ∃ r a p, (w.thread l).status = .blocked (.baro r a p) ∧ (objectAt s w.gang (r, a)).phase ≠ p

end Sys2Proof.Rule

/-- R24, R160, R161, R162: the BARO forms. The object's address must lie in the block or its gang window (else BOUNDS) and at a multiple of 32 (else ALIGNMENT), the object within the window (else BOUNDS), and a count in 1 to 2^20 (else BOUNDS); that an object's address is checked before its counts, and what the forms wait for, is the model's choice (logs 23 and 55). INIT sets both counts, clears the rest, and counts as a complete memory operation. ARRIVE issues: its operation stands in the record with its count under a tag, and D stands empty. It is performed once under its tag: it takes n off the pending count, adds its warp to the bitmap, opens the next phase when nothing is pending or due, and gives D the phase it arrived in; a count above the pending one raises BOUNDS then (log 65, the model's choice of the moment), and an arrival that the window remembers gives D the same phase and changes nothing. WAIT makes the active lanes BLOCKED while the phase is C's, and is the acquire of its core once it is not. QUERY owes D: when the result is written, D receives 1 where the phase is not C's, else 0. From the first form that names them the bytes count as an object (log 62). A thread BLOCKED for a phase or, by WAITC, for a counter runs again after the acquire once its wait is over, and no sooner. -/
def Sys2Proof.Rule.BarrierObjectsCount : Prop :=
  (∀ (i : Instr) (s : State) (b : Bundle) (act : List Nat), i.wf = true →
    ((∃ h f, i = .baroInit h f) ∨ (∃ h f, i = .baroArrive h f) ∨ (∃ h f, i = .baroWait h f) ∨ ∃ h f, i = .baroQuery h f) → Goes i s b act →
    let x := actAt i b act
    let w := s.warp b.warp
    let s1 := s.advance b.warp (lanesOf b.lanes) b.pc
    let v := x.read w x.first
    let a := (v.a + v.b) % 2 ^ 32
    let counts := (∃ h f, i = .baroInit h f) ∨ ∃ h f, i = .baroArrive h f
    (scrTarget s w a 1 = none ∨ (a % 32 = 0 ∧ scrTarget s w a 32 = none) →
      exec i s = .next (x.trap x.first { cause := 0x09, addr := .ofNat 64 a } s1)) ∧
    ((scrTarget s w a 1).isSome = true → a % 32 ≠ 0 → exec i s = .next (x.trap x.first { cause := 0x02, addr := .ofNat 64 a } s1)) ∧
    ∀ p, scrTarget s w a 32 = some p →
      (a % 32 = 0 → counts → ¬(1 ≤ v.c ∧ v.c ≤ 2 ^ 20) → exec i s = .next (x.trap x.first { cause := 0x09 } s1)) ∧
      (a % 32 = 0 → p.1 < (s.gang w.gang).blocks.length →
        let o := Rule.objectAt s w.gang p
        ((∃ h f, i = .baroInit h f) → 1 ≤ v.c → v.c ≤ 2 ^ 20 → ∃ t, exec i s = .next t ∧ OnlyWarp b.warp { s with gangs := t.gangs } t ∧
          t.warp b.warp = { w.moved (lanesOf b.lanes) b.pc with ops := (t.warp b.warp).ops, nextOp := (t.warp b.warp).nextOp } ∧
          Rule.CountedDone i .mem w (t.warp b.warp) ∧
          Rule.objectAt t w.gang p = { expected := v.c, pending := v.c, due := 0, phase := 0, bitmap := 0 } ∧ Rule.ScratchElse w.gang p 32 s t) ∧
        ((∃ h f, i = .baroArrive h f) → 1 ≤ v.c → v.c ≤ 2 ^ 20 → ∃ t, exec i s = .next t ∧
          Rule.Recorded { id := 0, ins := i, pc := b.pc, lanes := maskOf act, ctr := some .mem,
                          slots := [{ lane := x.first, addr := a, data := .ofNat 128 v.c, tag := Rule.tag s w x.first }] } w (t.warp b.warp) ∧
          Rule.DEmpty x x.runs w (t.warp b.warp) ∧ Rule.Named w.gang p s t ∧ t.mem = s.mem ∧ (∀ u, u ≠ b.warp → t.warp u = s.warp u) ∧
          ∀ l, (t.warp b.warp).thread l = { (w.moved (lanesOf b.lanes) b.pc).thread l with
            tagSeq := (w.thread l).tagSeq + if l ∈ act then 1 else 0 }) ∧
        ((∃ h f, i = .baroWait h f) → Rule.Sound s w.gang p 24 →
          (o.phase = v.c % 2 ^ 32 → ∃ t, exec i s = .next t ∧ Rule.Named w.gang p s t ∧ t = { s with warps := t.warps, gangs := t.gangs } ∧
            t.warps = (s1.blockLanes b.warp act (.baro p.1 p.2 (v.c % 2 ^ 32))).warps) ∧
          (o.phase ≠ v.c % 2 ^ 32 → Store.wf none (s.cache (s.warpCore w)).l1 = true → ∃ t, exec i s = .next t ∧ Rule.OnlyAdvanced b s t ∧
            Rule.Acquired (s.warpCore w) s t ∧ Rule.Named w.gang p s t ∧ t = { s with warps := t.warps, caches := t.caches, gangs := t.gangs })) ∧
        ((∃ h f, i = .baroQuery h f) → ∃ t, exec i s = .next t ∧ OnlyWarp b.warp { s with gangs := t.gangs } t ∧ Rule.Named w.gang p s t ∧
          Rule.Owes x { id := 0, ins := i, pc := b.pc, lanes := maskOf act, ctr := none,
                        slots := [{ lane := x.first, addr := a, data := .ofNat 128 v.c }] } w (t.warp b.warp)))) ∧
  (∀ (r : OpRef) (o : Op) (s : State) (h : Hdr) (f : Ops) (x : Slot) (p : Nat × Nat), s.opOf r = some o → o.ins = .baroQuery h f → o.slots = [x] →
    o.shadow = [] → (s.warp r.warp).diverged = false → resultReady s r = true → scrTarget s (s.warp r.warp) x.addr 32 = some p →
    Rule.Sound s (s.warp r.warp).gang p 24 →
    let w := s.warp r.warp
    ∃ t, exec (.resultWritten r) s = .next t ∧ t = { s with warps := t.warps, clusters := t.clusters } ∧ (∀ v, v ≠ r.warp → t.warp v = s.warp v) ∧
      t.warp r.warp = (o.writeD [(x.lane, if (Rule.objectAt s w.gang p).phase = x.data.toNat then 0 else 1)] w).finish r.op) ∧
  (∀ (r : OpRef) (o : Op) (s : State) (h : Hdr) (f : Ops) (x : Slot) (p : Nat × Nat), s.opOf r = some o → o.ins = .baroArrive h f →
    o.slots = [x] → arriveReady s r = true → scrTarget s (s.warp r.warp) x.addr 32 = some p →
    p.1 < (s.gang (s.warp r.warp).gang).blocks.length → Rule.Sound s (s.warp r.warp).gang p 24 → (s.warp r.warp).num < 32 →
    let w := s.warp r.warp
    let n := x.data.toNat
    let q := Rule.objectAt s w.gang p
    let known := tagHit (s.warpBlock w).tags (s.tagEntry w x.tag o.ins x.addr 0)
    (known = none → q.pending < n → exec (.atomicPerform r) s = .next (opTrap r x.lane false { cause := 0x09 } s)) ∧
    (known = none → n ≤ q.pending → ∃ t, exec (.atomicPerform r) s = .next t ∧
      Rule.objectAt t w.gang p = Rule.completed { q with pending := q.pending - n, bitmap := q.bitmap ||| 2 ^ w.num } ∧
      Rule.ScratchElse w.gang p 32 s t ∧ t.warp r.warp = (o.writeD [(x.lane, q.phase)] w).finish r.op ∧
      (∀ u, u ≠ r.warp → t.warp u = s.warp u) ∧ t.mem = s.mem) ∧
    ∀ v, known = some v → ∃ t, exec (.atomicPerform r) s = .next t ∧ t.warp r.warp = (o.writeD [(x.lane, v.toNat)] w).finish r.op ∧
      (∀ u, u ≠ r.warp → t.warp u = s.warp u) ∧ t.mem = s.mem ∧ ∀ g k, (t.block g k).scratch = (s.block g k).scratch) ∧
  ∀ (u : Nat) (s : State), s.hasWarp u = true → (s.warp u).stopped = false → Store.wf none (s.cache (s.warpCore (s.warp u))).l1 = true →
    let w := s.warp u
    let t := settleCounts u s
    (∀ l, l < w.width → l < w.threads.length → Rule.waitEnds s w l → (t.warp u).thread l = { w.thread l with status := .running }) ∧
    (∀ l, ¬Rule.waitEnds s w l → (t.warp u).thread l = w.thread l) ∧
    ((∃ l < w.width, Rule.waitEnds s w l) → Rule.Acquired (s.warpCore w) s t) ∧ ((∀ l, ¬Rule.waitEnds s w l) → t = s)

/-- R24, R151: PREF never traps and writes no register: it adds a counted operation with the lanes' canonical addresses to the record, and nothing else changes but for the advance. When the operation ends, no register, no L1 cache and no gang has changed, and where its lines were in L2 already, no memory. -/
def Sys2Proof.Rule.PrefetchChangesNoValue : Prop :=
  (∀ (h : Hdr) (f : Ops) (s : State) (b : Bundle) (act : List Nat), (Instr.pref h f).wf = true → Goes (.pref h f) s b act →
    let x := actAt (.pref h f) b act
    let w := s.warp b.warp
    let at' (l : Nat) : Nat := ((x.read w l).a + if x.r.b.kind = .imm then Rule.wrap 64 x.r.b.val.toInt else (x.read w l).b) % 2 ^ 64
    let slots := (x.runs.filter fun l => at' l < 2 ^ 60).map fun l => ({ lane := l, addr := at' l } : Slot)
    ∃ t, exec (.pref h f) s = .next t ∧ OnlyWarp b.warp s t ∧
      Rule.Recorded { id := 0, ins := .pref h f, pc := b.pc, lanes := maskOf act, ctr := some .mem, slots } w (t.warp b.warp) ∧
      t.warp b.warp = { w.moved (lanesOf b.lanes) b.pc with ops := (t.warp b.warp).ops, nextOp := (t.warp b.warp).nextOp }) ∧
  ∀ (r : OpRef) (o : Op) (s : State) (h : Hdr) (f : Ops), s.opOf r = some o → o.ins = .pref h f → loadReady s r = true →
    let w := s.warp r.warp
    ∃ t, exec (.loadDataArrival r) s = .next t ∧ t.warp r.warp = w.finish r.op ∧ (∀ v, v ≠ r.warp → t.warp v = s.warp v) ∧
      t.gangs = s.gangs ∧ t.caches = s.caches ∧ ((∀ x ∈ o.slots, linePresent s ((s.space w).loc x.addr) = true) → t.mem = s.mem)

/-! ## Matrix array and residencies (R87, R165 to R184) -/

namespace Sys2Proof.Rule

/-- A format word is valid for MMA: every row of R87. `field lo n` is the n bits from lo. -/
def formatForMma (w : Nat) : Prop :=
  let field (lo n : Nat) : Nat := w / 2 ^ lo % 2 ^ n
  let operand (lo : Nat) : Prop := if field (lo + 5) 1 = 1 then 1 ≤ field lo 3 else field lo 3 ≤ 2 ∧ field (lo + 3) 2 = 0
  let both8 := field 5 1 = 1 ∧ field 13 1 = 1
  let both16 := field 5 1 = 0 ∧ field 13 1 = 0 ∧ field 0 3 = field 8 3 ∧ (field 0 3 = 1 ∨ field 0 3 = 2)
  w < 2 ^ 28 ∧ field 6 2 = 0 ∧ field 14 2 = 0 ∧ field 20 4 = 0 ∧ field 16 4 ≤ 2 ∧ field 24 4 ≤ 3 ∧ operand 0 ∧ operand 8 ∧
    (both8 ∨ both16) ∧ (1 ≤ field 16 4 → both8)

/-- Element e of accumulator t of a warp's partition. -/
def element (s : State) (w : Warp) (t e : Nat) : Word := Store.get 0 (s.block w.gang w.rank).acc ((w.part * 4 + t) * 1024 + e)

/-- The elements of one tile are `f`; every element of every other tile of the block is as it was. -/
def TileIs (w : Warp) (tile : Nat) (f : Nat → Word) (s t : State) : Prop :=
  (∀ e, e < 1024 → element t w tile e = f e) ∧
  ∀ k, k / 1024 ≠ w.part * 4 + tile → Store.get 0 (t.block w.gang w.rank).acc k = Store.get 0 (s.block w.gang w.rank).acc k

/-- The element of ACCRD and ACCST: c × tA × tB rounded once to FP32, then narrowed to the word's A field with its round field (R84, R92, R176). -/
def narrowed (fw tA tB subst : Nat) (c : Word) : Nat :=
  let y := f32Fmt.round .rn (Machine.Num.mul (Machine.Num.mul (f32Fmt.value c.toNat) (f32Fmt.value tA)) (f32Fmt.value tB))
  if fw % 64 = 0 then y
  else ((fmtWordFloat (fw % 64)).conv (if fw / 2 ^ 24 % 16 = 0 then .rn else if fw / 2 ^ 24 % 16 = 1 then .rz
    else if fw / 2 ^ 24 % 16 = 2 then .rp else .rm) 0 subst (f32Fmt.value y)).1

/-- A 32-bit word of a value. -/
def part32 (v k : Nat) : Nat := v / 2 ^ (32 * k) % 2 ^ 32

/-- Some of the elements of a tile hold an uncorrectable error. -/
def ElementsBad (s : State) (w : Warp) (tile : Nat) (es : List Nat) : Prop :=
  ∃ e ∈ es, Store.get false (s.block w.gang w.rank).badAcc ((w.part * 4 + tile) * 1024 + e) = true

/-- The gang consumes an uncorrectable error of its partition's accumulators (R364, R373). -/
def accConsumed (w : Warp) (s : State) : State :=
  { s with agenda := s.agenda ++ [.uncorrectableConsumed w.gang { addr := 0, pa := false, source := 0x02, ltype := 0, loc := .ofNat 28 (s.partNo w) }] }

/-- Where an element index is allowed (R177). -/
def elementOk (w : Warp) (e : Nat) : Prop := e % 16 = 0 ∧ e + w.width ≤ 1024

end Sys2Proof.Rule

/-- R87, R182: FMTW gives the predicate in each active lane: whether A satisfies every row of R87 that applies to MMA. -/
def Sys2Proof.Rule.FormatWordTested : Prop :=
  (∀ v, v < 2 ^ 32 → (fmtWordMma v = true ↔ Rule.formatForMma v)) ∧
  ∀ (h : Hdr) (f : Ops) (s : State) (b : Bundle) (act : List Nat), (Instr.fmtw h f).wf = true → Goes (.fmtw h f) s b act →
    let x := actAt (.fmtw h f) b act
    ∃ t, exec (.fmtw h f) s = .next t ∧ OnlyWarp b.warp s t ∧
      Wrote x (fun l => if fmtWordMma (x.read (s.warp b.warp) l).a then 1 else 0) (s.warp b.warp) (t.warp b.warp)

/-- R176, R177: ACCZ makes every element of its tile +0.0. ACCWR writes A of each active lane l to element e + l. ACCRD gives each active lane l the element e + l, scaled and narrowed. An index e that is no multiple of 16, or with e + W above 1,024, raises BOUNDS, and a format word of ACCRD that is invalid ARITH with the word; an element read that holds an uncorrectable error is consumed (R364). Nothing else changes. -/
def Sys2Proof.Rule.AccumulatorAccess : Prop :=
  (∀ (h : Hdr) (f : Ops) (s : State) (b : Bundle) (act : List Nat), Goes (.accz h f) s b act →
    let w := s.warp b.warp
    ∃ t, exec (.accz h f) s = .next t ∧ Rule.OnlyAdvanced b s t ∧ t.mem = s.mem ∧
      (w.rank < (s.gang w.gang).blocks.length → Rule.TileIs w f.d.val.toNat (fun _ => 0) s t)) ∧
  (∀ (h : Hdr) (f : Ops) (s : State) (b : Bundle) (act : List Nat), Goes (.accwr h f) s b act →
    let x := actAt (.accwr h f) b act
    let w := s.warp b.warp
    let e := (x.read w x.first).b
    (¬Rule.elementOk w e → exec (.accwr h f) s = .next (x.trap x.first { cause := 0x09 } (s.advance b.warp (lanesOf b.lanes) b.pc))) ∧
    (Rule.elementOk w e → (∀ l ∈ act, l < w.width) → ∃ t, exec (.accwr h f) s = .next t ∧ Rule.OnlyAdvanced b s t ∧ t.mem = s.mem ∧
      (w.rank < (s.gang w.gang).blocks.length → Rule.TileIs w f.d.val.toNat
        (fun k => if e ≤ k ∧ k - e ∈ act then .ofNat 32 (x.read w (k - e)).a else Rule.element s w f.d.val.toNat k) s t))) ∧
  ∀ (h : Hdr) (f : Ops) (s : State) (b : Bundle) (act : List Nat), (Instr.accrd h f).wf = true → Goes (.accrd h f) s b act →
    let x := actAt (.accrd h f) b act
    let w := s.warp b.warp
    let q := (x.read w x.first).b
    let fw := Rule.part32 q 1
    let ok := fmtWordOk fw = true ∧ fw / 2 ^ 24 % 16 ≤ 3
    let s1 := s.advance b.warp (lanesOf b.lanes) b.pc
    (¬Rule.elementOk w (Rule.part32 q 0) → exec (.accrd h f) s = .next (x.trap x.first { cause := 0x09 } s1)) ∧
    (Rule.elementOk w (Rule.part32 q 0) → ¬ok → exec (.accrd h f) s = .next (x.trap x.first { cause := 0x0A, info := .ofNat 32 fw } s1)) ∧
    (Rule.elementOk w (Rule.part32 q 0) → ok → Rule.ElementsBad s w f.a.val.toNat (act.map (Rule.part32 q 0 + ·)) →
      exec (.accrd h f) s = .next (Rule.accConsumed w s1)) ∧
    (Rule.elementOk w (Rule.part32 q 0) → ok → ¬Rule.ElementsBad s w f.a.val.toNat (act.map (Rule.part32 q 0 + ·)) →
      ∃ t, exec (.accrd h f) s = .next t ∧ OnlyWarp b.warp s t ∧
      Wrote x (fun l => Rule.narrowed fw (Rule.part32 q 2) (Rule.part32 q 3) (x.read w l).c (Rule.element s w f.a.val.toNat (Rule.part32 q 0 + l)))
        w (t.warp b.warp))

namespace Sys2Proof.Rule

/-- The bytes of a range can be read by a gang: their lines are present and hold no poison that the gang meets. -/
def Readable (s : State) (w : Warp) (va n : Nat) : Prop :=
  va + n ≤ 2 ^ 60 ∧ ∀ j < n, linePresent s ((s.space w).loc (va + j)) = true ∧
    poisonedAt s (some w.gang) .line ((s.space w).loc (va + j)) 1 = false

/-- The number that n bytes at an address of the gang's memory hold. -/
def memory (s : State) (w : Warp) (va n : Nat) : Nat := number (fun j => homeByte s (some w.gang) ((s.space w).loc (va + j))) n

/-- The checks of the base and the stride of ACCLD and ACCST in order (R177). -/
def accBase (base stride : Nat) : Option TrapInfo :=
  if 2 ^ 60 ≤ base then some { cause := 0x03, addr := .ofNat 64 base }
  else if base % 128 = 0 ∧ stride % 128 = 0 ∧ 128 ≤ stride then none
  else some { cause := 0x02, addr := .ofNat 64 base }

end Sys2Proof.Rule

/-- R176, R177, R184: ACCLD and ACCST. After the checks of the base, the stride and ACCST's format word, the operation stands in the record, counted in `oc.mat`; ACCLD's tile is empty, and ACCST holds its narrowed elements, or consumes the error of one (R364). When an ACCLD completes over readable rows, element (i, j) is the word at base + i × stride + 4j, the tile is full and the operation leaves the record. -/
def Sys2Proof.Rule.AccumulatorLoadsAndStores : Prop :=
  (∀ (h : Hdr) (f : Ops) (s : State) (b : Bundle) (act : List Nat), Goes (.accld h f) s b act →
    let x := actAt (.accld h f) b act
    let w := s.warp b.warp
    let v := x.read w x.first
    (∀ y, Rule.accBase v.a v.b = some y → exec (.accld h f) s = .next (x.trap x.first y (s.advance b.warp (lanesOf b.lanes) b.pc))) ∧
    (Rule.accBase v.a v.b = none → ∃ t, exec (.accld h f) s = .next t ∧
      Rule.Recorded { id := 0, ins := .accld h f, pc := b.pc, lanes := maskOf act, ctr := some .mat,
                      regs := [.ofNat 32 v.a, .ofNat 32 (v.a / 2 ^ 32), .ofNat 32 v.b] } w (t.warp b.warp) ∧
      (w.rank < (s.gang w.gang).blocks.length → Store.get false (t.block w.gang w.rank).accEmpty (w.part * 4 + f.d.val.toNat) = true) ∧
      (t.warp b.warp).vregs = w.vregs ∧ (t.warp b.warp).uregs = w.uregs ∧ t.mem = s.mem)) ∧
  (∀ (h : Hdr) (f : Ops) (s : State) (b : Bundle) (act : List Nat), Goes (.accst h f) s b act →
    let x := actAt (.accst h f) b act
    let w := s.warp b.warp
    let v := x.read w x.first
    let fw := Rule.part32 v.b 1
    let ok := fmtWordOk fw = true ∧ fw / 2 ^ 24 % 16 ≤ 3
    let s1 := s.advance b.warp (lanesOf b.lanes) b.pc
    (∀ y, Rule.accBase v.a (Rule.part32 v.b 0) = some y → exec (.accst h f) s = .next (x.trap x.first y s1)) ∧
    (Rule.accBase v.a (Rule.part32 v.b 0) = none → ¬ok →
      exec (.accst h f) s = .next (x.trap x.first { cause := 0x0A, info := .ofNat 32 fw } s1)) ∧
    (Rule.accBase v.a (Rule.part32 v.b 0) = none → ok → Rule.ElementsBad s w f.d.val.toNat (List.range 1024) →
      exec (.accst h f) s = .next (Rule.accConsumed w s1)) ∧
    (Rule.accBase v.a (Rule.part32 v.b 0) = none → ok → ¬Rule.ElementsBad s w f.d.val.toNat (List.range 1024) →
      ∃ t, exec (.accst h f) s = .next t ∧ t.gangs = s.gangs ∧ t.mem = s.mem ∧
      Rule.Recorded { id := 0, ins := .accst h f, pc := b.pc, lanes := maskOf act, ctr := some .mat,
                      regs := [.ofNat 32 v.a, .ofNat 32 (v.a / 2 ^ 32), .ofNat 32 (Rule.part32 v.b 0)],
                      data := ((List.range 1024).map fun e => bytesOfNat (fmtWordBytes (fw % 64))
                        (Rule.narrowed fw (Rule.part32 v.b 2) (Rule.part32 v.b 3) v.c (Rule.element s w f.d.val.toNat e))).flatten }
        w (t.warp b.warp))) ∧
  ∀ (r : OpRef) (o : Op) (s : State) (h : Hdr) (f : Ops), s.opOf r = some o → o.ins = .accld h f → accReady s r = true →
    let w := s.warp r.warp
    let base := (o.regs.getD 0 0).toNat + (o.regs.getD 1 0).toNat * 2 ^ 32
    let stride := (o.regs.getD 2 0).toNat
    base % 128 = 0 → stride % 128 = 0 → (∀ i < 32, Rule.Readable s w (base + i * stride) 128) → w.rank < (s.gang w.gang).blocks.length →
    ∃ t, exec (.accumulatorLoadStoreComplete r) s = .next t ∧
      Rule.TileIs w f.d.val.toNat (fun e => .ofNat 32 (Rule.memory s w (base + e / 32 * stride + 4 * (e % 32)) 4)) s t ∧
      Store.get false (t.block w.gang w.rank).accEmpty (w.part * 4 + f.d.val.toNat) = false ∧ t.warp r.warp = w.finish r.op ∧ t.mem = s.mem

/-- R165, R176, R177: SCLD. A block without accumulators, a base or a line range that R177 does not allow traps; else the lines from `first` on receive 64 bytes each from the base, and every other byte of the scale store is as it was. -/
def Sys2Proof.Rule.ScaleLinesLoaded : Prop :=
  ∀ (h : Hdr) (f : Ops) (s : State) (b : Bundle) (act : List Nat), Goes (.scld h f) s b act →
    let x := actAt (.scld h f) b act
    let w := s.warp b.warp
    let v := x.read w x.first
    let s1 := s.advance b.warp (lanesOf b.lanes) b.pc
    let none' := (s.warpLaunch w).record.accs = 0
    let lines := v.b ≤ 63 ∧ 1 ≤ v.c ∧ v.c ≤ 64 ∧ v.b + v.c ≤ 64
    (none' → exec (.scld h f) s = .next (x.trap x.first { cause := 0x09 } s1)) ∧
    (¬none' → 2 ^ 60 ≤ v.a → exec (.scld h f) s = .next (x.trap x.first { cause := 0x03, addr := .ofNat 64 v.a } s1)) ∧
    (¬none' → v.a < 2 ^ 60 → v.a % 64 ≠ 0 → exec (.scld h f) s = .next (x.trap x.first { cause := 0x02, addr := .ofNat 64 v.a } s1)) ∧
    (¬none' → v.a < 2 ^ 60 → v.a % 64 = 0 → ¬lines → exec (.scld h f) s = .next (x.trap x.first { cause := 0x09 } s1)) ∧
    (¬none' → v.a < 2 ^ 60 → v.a % 64 = 0 → lines → Rule.Readable s w v.a (64 * v.c) → w.rank < (s.gang w.gang).blocks.length →
      ∃ t, exec (.scld h f) s = .next t ∧ Rule.OnlyAdvanced b s t ∧ t.mem = s.mem ∧
        ∀ k, (t.block w.gang w.rank).scale.byte k =
          if w.part * 4096 + 64 * v.b ≤ k ∧ k < w.part * 4096 + 64 * (v.b + v.c) then
            homeByte s (some w.gang) ((s.space w).loc (v.a + (k - (w.part * 4096 + 64 * v.b))))
          else (s.block w.gang w.rank).scale.byte k)

/-- R183, R266, R267: LEAVE asks for units: a count outside 1 to 64 raises BOUNDS; else the warp's steward holds one request more, of the count as far as the warp's pool and its earlier requests leave room to 64 (none when that is 0), behind every request of its priority class. A head request of a pool that fits the budget is granted: it leaves the queue, and its units, at most the budget, go to the warp and are held. -/
def Sys2Proof.Rule.LeaveAsksAndGrants : Prop :=
  (∀ (h : Hdr) (f : Ops) (s : State) (b : Bundle) (act : List Nat), Goes (.leave h f) s b act →
    let x := actAt (.leave h f) b act
    let w := s.warp b.warp
    let n := (x.read w x.first).a
    let k := (s.gang w.gang).cluster
    let asked := ((s.cluster k).requests.map fun r => match r.2 with
      | .pool v n => if v = w.uid then n else 0
      | _ => 0).sum
    let m := min n (64 - (w.pool + asked))
    (n < 1 ∨ 64 < n → exec (.leave h f) s = .next (x.trap x.first { cause := 0x09 } (s.advance b.warp (lanesOf b.lanes) b.pc))) ∧
    (1 ≤ n → n ≤ 64 → ∃ t, exec (.leave h f) s = .next t ∧ Rule.OnlyAdvanced b s t ∧ t = { s with warps := t.warps, clusters := t.clusters } ∧
      (m = 0 → t.clusters = s.clusters) ∧
      (m ≠ 0 → k < s.clusters.length → ∃ before after, (s.cluster k).requests = before ++ after ∧
        (t.cluster k).requests = before ++ ((s.warpBlock w).prio, .pool w.uid m) :: after ∧
        (∀ r ∈ before, r.1 ≤ (s.warpBlock w).prio) ∧ ∀ r, after.head? = some r → (s.warpBlock w).prio < r.1))) ∧
  ∀ (k u n p : Nat) (rest : List (Nat × LeaveFor)) (s : State), (s.cluster k).requests = (p, .pool u n) :: rest → s.hasWarp u = true →
    let m := min n (s.budget k)
    (s.cluster k).held + m ≤ s.budget k →
    ∃ t, exec (.leaveGrant k) s = .next t ∧ OnlyWarp u s { t with clusters := s.clusters } ∧
      t.warp u = { s.warp u with pool := (s.warp u).pool + m } ∧
      t.cluster k = { s.cluster k with requests := rest, held := (s.cluster k).held + m }

/-- R168, R112: MMA and MMA.S sign. A block without accumulators raises BOUNDS; a register that is IDLE, another warp's, or does not declare an active lane raises COLLECTIVE-DIVERGENCE with its number, in the lowest lane not declared. Else every active lane signs with its eight operand words, stays at the instruction BLOCKED as a signer, and a register that is complete issues its collective. -/
def Sys2Proof.Rule.CollectiveSigned : Prop :=
  ∀ (i : Instr) (s : State) (b : Bundle) (act : List Nat), ((∃ h f, i = .mma h f) ∨ ∃ h f, i = .mmaS h f) → Goes i s b act →
    let x := actAt i b act
    let w := s.warp b.warp
    let k := x.r.a.val.toNat
    let c := (s.warpBlock w).cv.getD k {}
    let s1 := s.advance b.warp (lanesOf b.lanes) b.pc
    let diverges (l : Nat) : State := x.trap l { cause := 0x06, info := .ofNat 32 k } s1
    let none' := (s.warpLaunch w).record.accs = 0
    let words (l : Nat) : List Word := (List.range 8).map fun j =>
      .ofNat 32 (if j < 4 then (x.read w l).b / 2 ^ (32 * j) else (x.read w l).c / 2 ^ (32 * (j - 4)))
    let mine := act.map fun l => ({ lane := l, ins := i, words := words l, pc := b.pc } : Signer)
    let signers := (c.signers.filter fun y => !act.contains y.lane) ++ mine
    (none' → exec i s = .next (x.trap x.first { cause := 0x09 } s1)) ∧
    (¬none' → c.idle = true ∨ c.warp ≠ w.num → exec i s = .next (diverges x.first)) ∧
    (¬none' → c.idle = false → c.warp = w.num →
      (∀ l ∈ act, c.declared.getLsbD l = false → (∀ m ∈ act, m < l → c.declared.getLsbD m = true) → exec i s = .next (diverges l)) ∧
      ((∀ l ∈ act, c.declared.getLsbD l = true) → ∃ t, exec i s = .next (collectives w.gang w.rank t) ∧
        t = { s with warps := t.warps, gangs := t.gangs } ∧ (∀ v, v ≠ b.warp → t.warp v = s.warp v) ∧
        (∀ l, (t.warp b.warp).thread l = if l ∈ act then { (s1.warp b.warp).thread l with pc := b.pc, status := .blocked (.signer k) }
          else (s1.warp b.warp).thread l) ∧
        (t.block w.gang w.rank).cv.getD k {} = { c with signed := c.signed ||| maskOf act, last := x.first, tried := false, signers := signers }))

/-- R169 step 8, R113, R266: a collective issues. Its operation is queued with the words its last signer gave, counted in `oc.mat`; its tile is empty; the register opens its next generation with `signed` 0 and keeps `declared`; every signer that has not been discarded meanwhile (R9) runs again at the instruction after its own. -/
def Sys2Proof.Rule.CollectiveIssues : Prop :=
  ∀ (g rank cv cost fresh : Nat) (s : State) (ref : Signer), (s.warps.map fun w => w.uid).Nodup →
    let c := (s.block g rank).cv.getD cv {}
    let w := cvWarp s g rank cv
    let t := colIssue g rank cv cost fresh s
    w ∈ s.warps → c.signers.find? (fun y => y.lane == c.last) = some ref → cv < (s.block g rank).cv.length →
    (c.signers.map fun y => y.lane).Nodup → (∀ y ∈ c.signers, y.lane < w.threads.length) →
    Rule.Recorded { id := 0, ins := ref.ins, pc := ref.pc, lanes := maskOf (c.signers.map fun y => y.lane), ctr := some .mat,
                    regs := ref.words ++ [.ofNat 32 c.last], data := c.contents, stamp := s.nextOrder } w (t.warp w.uid) ∧
    (∀ y ∈ c.signers, (t.warp w.uid).thread y.lane =
      if (w.thread y.lane).status = .exited ∨ (w.thread y.lane).status = .discarded then w.thread y.lane
      else { w.thread y.lane with status := .running, pc := y.pc + 12 }) ∧
    (t.block g rank).cv.getD cv {} = { c with signed := 0, gen := c.gen + 1, signers := [], leave := false, paid := 0, contents := [], tried := false } ∧
    Store.get false (t.block g rank).accEmpty (w.part * 4 + ((raw ref.ins).map fun r => r.d.val.toNat).getD 0) = true

namespace Sys2Proof.Rule

/-- Element k of operand A in row i and element (k, j) of the weights, by the format's element size (R170, R171). -/
def operandA (s : State) (w : Warp) (m : MmaWords) (i k : Nat) : Machine.Num :=
  (fmtWordFloat (m.fmt % 64)).value (memory s w (m.a + i * m.aStride + k * m.esize) m.esize)
def weight (m : MmaWords) (data : List Byte) (k j : Nat) : Machine.Num :=
  (fmtWordFloat (m.fmt / 256 % 64)).value (number (fun q => data.getD (m.esize * (32 * k + j) + q) 0) m.esize)

/-- One K-tile of an element without block scales (R90): the exact sum of the first 32 products added to c and rounded to FP32, then that of the second 32. -/
def unscaledTile (c : Nat) (a b : Nat → Machine.Num) : Nat :=
  let half (lo : Nat) : Machine.Num := (List.range 32).foldl (fun acc k => addProduct acc (a (lo + k)) (b (lo + k))) (.fin false 0 0)
  let one : Machine.Num := .fin false 1 0
  let add (c : Nat) (p : Machine.Num) : Nat := f32Fmt.round .rn (Machine.Num.add false (f32Fmt.value c) (Machine.Num.mul (Machine.Num.mul p one) one))
  add (add c (half 0)) (half 32)

end Sys2Proof.Rule

/-- R90, R171, for MMA without block scales (blkmode 0): the array computes rows 0 to nrows − 1. Each element of a row is carried through the K-tiles in ascending order, in each the exact sum of 32 products and then of the next 32 added and rounded to FP32; A is read from memory as the gang sees it, the weights are those the operation holds. The exact sum starts from +0, so that zero products of either sign give +0: the model's choice (log 47). Rows from nrows up keep their values, the tile is full again, and nothing but the record and the accumulator changes. -/
def Sys2Proof.Rule.ArrayComputes : Prop :=
  ∀ (r : OpRef) (o : Op) (s : State) (h : Hdr) (f : Ops), s.opOf r = some o → o.ins = .mma h f → o.prog = 0 → mmaReady s r = true →
    let w := s.warp r.warp
    let m := mmaWords o.ins o.regs
    let esize := if m.fmt / 32 % 2 = 1 then 1 else 2
    mmaBad s w m = none → needsWeights m o = false → m.fmt / 2 ^ 16 % 16 = 0 → m.shape % 64 ≤ 32 → w.rank < (s.gang w.gang).blocks.length →
    (∀ i < m.shape % 64, Rule.Readable s w (m.a + i * m.aStride) (64 * (m.shape / 2 ^ 16 % 32) * esize)) →
    let tile := f.d.val.toNat
    let value (i j : Nat) : Nat := (List.range (m.shape / 2 ^ 16 % 32)).foldl (fun c t => Rule.unscaledTile c
      (fun k => Rule.operandA s w m i (64 * t + k)) (fun k => Rule.weight m o.data (64 * t + k) j)) (Rule.element s w tile (32 * i + j)).toNat
    ∃ t, exec (.mmaOperationComplete r) s = .next t ∧ t.mem = s.mem ∧ (t.warp r.warp).vregs = w.vregs ∧ (t.warp r.warp).uregs = w.uregs ∧
      (t.warp r.warp).threads = w.threads ∧ (∀ v, v ≠ r.warp → t.warp v = s.warp v) ∧
      Rule.TileIs w tile (fun e => if e / 32 < m.shape % 64 then .ofNat 32 (value (e / 32) (e % 32)) else Rule.element s w tile e) s t ∧
      Store.get false (t.block w.gang w.rank).accEmpty (w.part * 4 + tile) = false

namespace Sys2Proof.Rule

/-- The residency at an index of a context's table. -/
def residency (s : State) (slot index : Nat) : Residency := Store.get {} (s.ctx slot).residencies index

/-- No residency of the part but one has changed. -/
def OtherResidencies (slot index : Nat) (s t : State) : Prop := ∀ c k, (c ≠ slot ∨ k ≠ index) → residency t c k = residency s c k

/-- The tiles that count against `allocq` and `pinq` (R167). -/
def tilesOf (s : State) (slot : Nat) (pinned : Bool) : Nat :=
  (((s.ctx slot).residencies.filter fun r => r.2.live && (r.2.pinned || !pinned)).map fun r => r.2.tiles).sum

/-- The status word of R179. -/
def status (q : Residency) : Nat :=
  let home := q.home.getD 0
  2 ^ 31 + (if q.home.isSome then 2 ^ 30 else 0) + (if q.pinned then 2 ^ 29 else 0) + (if q.stale then 2 ^ 28 else 0) +
    (if q.sealed then 2 ^ 27 else 0) + (if q.reload then 2 ^ 26 else 0) + (if q.loaded then 2 ^ 25 else 0) + q.tiles * 2 ^ 20 +
    home / 1024 % 4 * 2 ^ 18 + home / 32 % 32 * 2 ^ 13 + home % 32 * 2 ^ 8

/-- A uniform instruction that has written one value to D, under a tag of its own: every register but D, every other warp and every byte of memory is as it was. -/
def GaveUnderTag (x : Act) (val : Nat) (s t : State) : Prop :=
  let w := s.warp x.u
  (∀ k, (t.warp x.u).ureg k = x.uregAfter (fun _ => val) w k) ∧ (∀ v, v ≠ x.u → t.warp v = s.warp v) ∧
  (t.warp x.u) = { w with threads := (t.warp x.u).threads, vregs := (t.warp x.u).vregs, uregs := (t.warp x.u).uregs } ∧
  (∀ l, ((t.warp x.u).thread l).pc = if l ∈ x.lanes then x.pc + 12 else (w.thread l).pc) ∧ t.mem = s.mem ∧ t.caches = s.caches

/-- Memory is as it was but for the watch bits of its lines, in L2 and in DRAM (R300). -/
def OnlyWatches (s t : State) : Prop :=
  let plain (m : Mem) := m.lines.map fun e => (e.1, { e.2 with watch := false })
  t.mem = { s.mem with watch := t.mem.watch, lines := t.mem.lines } ∧ plain t.mem = plain s.mem

/-- The watch bit of a line is set where the line is: in L2, or in the DRAM line its page lies in (R300). -/
def Watched (s t : State) (k : Nat) : Prop :=
  (linePresent s (128 * k) = true → ∀ e ∈ t.mem.lines, e.1 = k → e.2.watch = true) ∧
  (linePresent s (128 * k) = false → ∀ pa nc, (translate (128 * k) .read false s).1 = .ok pa nc → Store.get false t.mem.watch (pa / 128) = true)

end Sys2Proof.Rule

/-- R166, R167, R178, R181: RES.ALLOC, first under its tag. A count outside 1 to 16 raises BOUNDS; a quota that would be exceeded QUOTA 0; a store without room QUOTA 2; a full table QUOTA 1, which is looked at after the store by the model's choice (log 66). Else D receives the handle of the lowest free index: the next generation of that index, the world and the index; the residency is live, unloaded, of n tiles, at home in the issuing partition. -/
def Sys2Proof.Rule.ResidencyAllocated : Prop :=
  ∀ (h : Hdr) (reload : Bool) (f : Ops) (s : State) (b : Bundle) (act : List Nat) (slot : Nat), Goes (.resAlloc h reload f) s b act →
    let x := actAt (.resAlloc h reload f) b act
    let w := s.warp b.warp
    let n := (x.read w x.first).a
    let s1 := s.advance b.warp (lanesOf b.lanes) b.pc
    let quota (d : Nat) : State := x.trap x.first { cause := 0x08, info := .ofNat 32 d } s1
    let exceeds := (s.ctx slot).resq.toNat % 65536 < Rule.tilesOf s slot false + n
    let full := Config.residencyTiles < s.tilesUsed (s.partNo w) + n
    let out (t : Host.Outcome State Fault Refusal) : Prop := exec (.resAlloc h reload f) s = t
    s.ctxSlot (s.space w).asid = some slot → tagHit (s.ctx slot).resTags (s.tagEntry w (Rule.tag s w x.first) (.resAlloc h reload f) n 0) = none →
    (n < 1 ∨ 16 < n → out (.next (x.trap x.first { cause := 0x09 } s1))) ∧
    (1 ≤ n → n ≤ 16 → exceeds → out (.next (quota 0))) ∧
    (1 ≤ n → n ≤ 16 → ¬exceeds → full → out (.next (quota 2))) ∧
    (1 ≤ n → n ≤ 16 → ¬exceeds → ¬full → (∀ k < 4096, (Rule.residency s slot k).live = true) → out (.next (quota 1))) ∧
    ∀ k, 1 ≤ n → n ≤ 16 → ¬exceeds → ¬full → k < 4096 → (Rule.residency s slot k).live = false →
      (∀ j < k, (Rule.residency s slot j).live = true) →
      let gen : BitVec 16 := if (Rule.residency s slot k).gen = 0xFFFF then 1 else (Rule.residency s slot k).gen + 1
      ∃ t, out (.next t) ∧ Rule.GaveUnderTag x (gen.toNat * 2 ^ 16 + (s.space w).world * 2 ^ 12 + k) s t ∧
        Rule.residency t slot k = { live := true, gen, tiles := n, reload, home := some (s.partNo w) } ∧ Rule.OtherResidencies slot k s t

/-- R166, R178, R179, R181: RES.PIN, UNPIN and REVOKE, first under their tags, and RES.QUERY. A handle that names no live residency of the context raises BOUNDS, but QUERY reads 0; PIN and UNPIN of a residency homed elsewhere, without room here, raise QUOTA 2. PIN gives 1 where the residency is pinned or `pinq` allows it, and pins it, else 0; UNPIN clears the pin; REVOKE leaves the index free, its generation kept; QUERY gives the status word. -/
def Sys2Proof.Rule.ResidencyForms : Prop :=
  ∀ (i : Instr) (h : Hdr) (f : Ops) (s : State) (b : Bundle) (act : List Nat),
    (i = .resPin h f ∨ i = .resUnpin h f ∨ i = .resRevoke h f ∨ i = .resQuery h f) → Goes i s b act →
    let x := actAt i b act
    let w := s.warp b.warp
    let v := (x.read w x.first).a
    let s1 := s.advance b.warp (lanesOf b.lanes) b.pc
    let fresh := ∀ slot, s.ctxSlot (s.space w).asid = some slot → tagHit (s.ctx slot).resTags (s.tagEntry w (Rule.tag s w x.first) i v 0) = none
    (s.resOf w v = none → (i = .resQuery h f → ∃ t, exec i s = .next t ∧ Rule.GaveUnderTag x 0 s t) ∧
      (i ≠ .resQuery h f → fresh → (s.ctxSlot (s.space w).asid).isSome = true →
        exec i s = .next (x.trap x.first { cause := 0x09 } s1))) ∧
    ∀ slot k, s.resOf w v = some (slot, k) →
      let q := Rule.residency s slot k
      let away := q.home ≠ some (s.partNo w)
      (i = .resQuery h f → ∃ t, exec i s = .next t ∧ Rule.GaveUnderTag x (Rule.status q) s t ∧ t.ctxs = s.ctxs) ∧
      (i = .resPin h f ∨ i = .resUnpin h f → away → fresh → exec i s = .next (x.trap x.first { cause := 0x08, info := 2 } s1)) ∧
      (i = .resPin h f → ¬away → fresh →
        let ok := q.pinned = true ∨ Rule.tilesOf s slot true + q.tiles ≤ (s.ctx slot).resq.toNat / 65536
        ∃ t, exec i s = .next t ∧ (ok → Rule.GaveUnderTag x 1 s t ∧ Rule.residency t slot k = { q with pinned := true }) ∧
          (¬ok → Rule.GaveUnderTag x 0 s t ∧ Rule.residency t slot k = q) ∧ Rule.OtherResidencies slot k s t) ∧
      (i = .resUnpin h f → ¬away → fresh → ∃ t, exec i s = .next t ∧ Rule.residency t slot k = { q with pinned := false } ∧
        Rule.OtherResidencies slot k s t ∧ t.mem = s.mem) ∧
      (i = .resRevoke h f → fresh → ∃ t, exec i s = .next t ∧ Rule.residency t slot k = { gen := q.gen } ∧
        Rule.OtherResidencies slot k s t ∧ Rule.OnlyWatches s t)

/-- R178, R180, R385: RES.LOAD of plaintext and its completion. A base that is not canonical raises TRANSLATION, a handle that names nothing BOUNDS, a base not aligned to 128 ALIGNMENT, looked at in this order by the model's choice (log 66). Else the operation stands in the record, the residency names its new source, and every line of the source is watched; at its completion over readable memory the residency is at home in the partition, where that has room for it, and holds the bytes of the source as the gang reads them, loaded, not sealed, and stale exactly when a write has reached the source since. -/
def Sys2Proof.Rule.ResidencyLoaded : Prop :=
  (∀ (h : Hdr) (f : Ops) (s : State) (b : Bundle) (act : List Nat), Goes (.resLoad h f) s b act →
    let x := actAt (.resLoad h f) b act
    let w := s.warp b.warp
    let v := x.read w x.first
    let s1 := s.advance b.warp (lanesOf b.lanes) b.pc
    (2 ^ 60 ≤ v.a → exec (.resLoad h f) s = .next (x.trap x.first { cause := 0x03, addr := .ofNat 64 v.a } s1)) ∧
    (v.a < 2 ^ 60 → s.resOf w v.b = none → exec (.resLoad h f) s = .next (x.trap x.first { cause := 0x09 } s1)) ∧
    ∀ slot k, s.resOf w v.b = some (slot, k) → v.a < 2 ^ 60 → v.c = 0 → (Rule.residency s slot k).home = some (s.partNo w) →
      (v.a % 128 ≠ 0 → exec (.resLoad h f) s = .next (x.trap x.first { cause := 0x02, addr := .ofNat 64 v.a } s1)) ∧
      (v.a % 128 = 0 → ∃ t, exec (.resLoad h f) s = .next t ∧
        Rule.Recorded { id := 0, ins := .resLoad h f, pc := b.pc, lanes := maskOf act, ctr := some .mat,
                        regs := [.ofNat 32 v.a, .ofNat 32 (v.a / 2 ^ 32), .ofNat 32 v.b, 0] } w (t.warp b.warp) ∧
        (Rule.residency t slot k).base = .ofNat 64 v.a ∧ (Rule.residency t slot k).key = 0 ∧ (Rule.residency t slot k).hit = false ∧
        (∀ j < 16 * (Rule.residency s slot k).tiles, Rule.Watched s t ((s.space w).loc v.a / 128 + j)) ∧
        Rule.OtherResidencies slot k s t ∧ Rule.OnlyWatches s t)) ∧
  ∀ (r : OpRef) (o : Op) (s : State) (h : Hdr) (f : Ops) (slot k : Nat), s.opOf r = some o → o.ins = .resLoad h f → resLoadReady s r = true →
    s.resOf (s.warp r.warp) (o.regs.getD 2 0).toNat = some (slot, k) → (o.regs.getD 3 0).toNat = 0 →
    let w := s.warp r.warp
    let q := Rule.residency s slot k
    let base := (o.regs.getD 0 0).toNat + (o.regs.getD 1 0).toNat * 2 ^ 32
    base % 128 = 0 → Rule.Readable s w base (2048 * q.tiles) → (q.home = some (s.partNo w) ∨ s.storeRoom (s.partNo w) q.tiles = true) →
    ∃ t, exec (.resLoadComplete r) s = .next t ∧
      (let q' := Rule.residency t slot k
       q' = { q with home := some (s.partNo w), data := q'.data, loaded := true, sealed := false, stale := q.hit, bad := [] } ∧
       ∀ j < 2048 * q.tiles, q'.data.byte j = homeByte s (some w.gang) ((s.space w).loc (base + j))) ∧
      Rule.OtherResidencies slot k s t ∧ t.warp r.warp = w.finish r.op ∧ Rule.OnlyWatches s t

/-- R178: a residency that a waiting form or collective of a partition asks for, and that nothing holds, is rehomed there. A pinned one, and one that is not loaded, keeps everything but its home, its marks too (the model's choice: log 24); one of plaintext whose source the asking warp can read is reloaded from it. No other residency changes. -/
def Sys2Proof.Rule.ResidencyRehomed : Prop :=
  ∀ (slot k part : Nat) (s : State), rehomeReady s slot k part = true →
    let q := Rule.residency s slot k
    ∃ t, exec (.residencyRehome slot k part) s = .next t ∧ Rule.OtherResidencies slot k s t ∧
      (q.pinned = true ∨ q.loaded = false → Rule.residency t slot k = { q with home := some part } ∧ t = { s with ctxs := t.ctxs }) ∧
      ∀ w, s.warps.find? (asksHome s (slot, k) part) = some w → q.pinned = false → q.loaded = true → q.key = 0 →
        q.base.toNat % 128 = 0 → Rule.Readable s w q.base.toNat (2048 * q.tiles) →
        Rule.residency t slot k = { q with home := some part, data := (Rule.residency t slot k).data, bad := [] } ∧
        ∀ j < 2048 * q.tiles, (Rule.residency t slot k).data.byte j = homeByte s (some w.gang) ((s.space w).loc (q.base.toNat + j))

/-! ## Engines, work distributor, churn (R185 to R201, R212) -/

namespace Sys2Proof.Rule

/-- The copies and the collectives: whether the operands beside A, B and the object are a row of ten uniform registers or a record's pair, and which addresses are global. -/
def isEngine : Instr → Bool
  | .tcopyG2s .. | .tcopyS2g .. | .tcopyG2g .. | .collAllreduce .. | .collAllgather .. | .collRedscat .. | .collBcast .. => true
  | _ => false
def isColl : Instr → Bool
  | .collAllreduce .. | .collAllgather .. | .collRedscat .. | .collBcast .. => true
  | _ => false
def isG2g : Instr → Bool
  | .tcopyG2g .. => true
  | _ => false

/-- A 64-bit number as two registers. -/
def pair (v : Nat) : List Word := [.ofNat 32 v, .ofNat 32 (v / 2 ^ 32)]

end Sys2Proof.Rule

namespace Sys2Proof.Rule

/-- A record's bytes (R186) say a shape the checks of R186 and R189 pass: the model's tests of them, each of which a trap names. -/
def ValidCopy (s : State) (w : Warp) (bs : List Byte) (c : Copy) : Prop := c.r.badField bs = none ∧ c.check s w = none

/-- The bytes of a COLL's destination (R196). -/
def collBytes (c : Coll) : Nat :=
  c.esize * match c.form with
    | .allreduce | .bcast => c.n
    | .allgather => c.parts * c.n
    | .redscat => c.n / c.parts

/-- Element e of a box has index e mod b0 in dimension 0, (e / b0) mod b1 in dimension 1, and so on (R190). -/
def index : List Nat → Nat → Nat → Nat
  | [], _, _ => 0
  | b :: _, e, 0 => e % b
  | b :: bs, e, d + 1 => index bs (e / b) d

/-- Global address of element e, and whether it lies in the tensor (R190). -/
def globalOf (c : Copy) (e : Nat) : Nat :=
  (c.base + ((List.range c.r.ndims).map fun d => (c.coords.getD d 0 + index c.r.boxes e d) * c.r.strides.getD d 0).sum) % 2 ^ 64
abbrev inTensor (c : Copy) (e : Nat) : Prop := ∀ d < c.r.ndims, c.coords.getD d 0 + index c.r.boxes e d < c.r.extents.getD d 0

/-- The bytes that the first e elements of a copy write (R160, R190): of an `.s2g` copy those of the elements inside the tensor. -/
def copyBytes (c : Copy) (e : Nat) : Nat :=
  if c.form = .s2g then ((List.range e).filter fun k => decide (inTensor c k)).length * c.r.gf.bytes else e * c.r.sf.bytes

/-- The record that an operation names has been read: it stands with the operation, and its bytes have been declared on the object, whose phase completes if nothing is pending or due (R160). -/
def Declared (r : OpRef) (o : Op) (bs : List Byte) (n : Nat) (s t : State) : Prop :=
  (∃ q, t.opOf r = some q ∧ q.data = bs ∧ q.decl = true ∧ q.prog = o.prog ∧ q.regs = o.regs) ∧ t.mem = s.mem ∧
  ∀ a p, o.obj = some a → a % 32 = 0 → scrTarget s (s.warp r.warp) a 32 = some p → p.1 < (s.gang (s.warp r.warp).gang).blocks.length →
    let g := (s.warp r.warp).gang
    objectAt t g p = completed { objectAt s g p with due := ((objectAt s g p).due + n) % 2 ^ 64 } ∧
    ScratchElse g p 32 s t ∧ Store.get false (t.block g p.1).objects p.2 = true

/-- The bytes at an operation's record as its gang reads them. -/
def recordAt (s : State) (w : Warp) (a : Nat) : List Byte := (List.range 192).map fun j => homeByte s (some w.gang) ((s.space w).loc (a + j))

end Sys2Proof.Rule

/-- R59, R160, R185, R188, R189, R195: TCOPY and COLL at issue. More than one active lane raises BOUNDS with 1 in `sr.trapinfo`, in the second. Of the one active lane, the global addresses must be canonical (TRANSLATION); then the object and a scratchpad side must lie in the block or its window (BOUNDS), the object be aligned to 32 and a scratchpad side to 16 (ALIGNMENT), and the object reach no further than the window (BOUNDS). Else the operation stands in the record with its object, its addresses and its row of registers or its record, and its engine takes it as soon as its order allows; a COLL not known by its tag joins an instance of its record; under EMK the registers of D become held, and no other register changes. An engine that takes it and reads a record that passes its checks keeps the record and declares the operation's bytes on its object: for a copy those it will write, for a COLL those of its rank's destination. That a copy's bytes are declared once its record has been read, and its warp issues nothing before, is the model's reading of the declaration at issue (log 60). -/
def Obligations.EngineOperationsIssue : Prop :=
  (∀ (i : Instr) (s : State) (b : Bundle) (act : List Nat), Rule.isEngine i = true → Goes i s b act →
    let x := actAt i b act
    let w := s.warp b.warp
    let s1 := s.advance b.warp (lanesOf b.lanes) b.pc
    let coll := Rule.isColl i
    (∀ l m rest, act = l :: m :: rest → exec i s = .next (x.trap m { cause := 0x09, info := 1 } s1)) ∧
    ∀ l, act = [l] →
      let v := x.read w l
      let row (j : Nat) : Word := (w.ureg (x.r.c.val.toNat + j)).val
      let recAt := if coll then v.c else (row 0).toNat + (row 1).toNat * 2 ^ 32
      let globals := if coll then [v.a, v.b, recAt] else [v.b, recAt] ++ if Rule.isG2g i then [v.a] else []
      let objects := if x.r.d.kind = .zr then [] else [(v.d, 32, 32)]
      let spans := objects ++ if coll ∨ Rule.isG2g i then [] else [(v.a, 1, 16)]
      let slots : List Slot := if coll then [{ lane := l, addr := recAt, tag := Rule.tag s w l }] else []
      let regs : List Word := (if x.r.d.kind = .zr then [0, 0] else [1, .ofNat 32 v.d]) ++ Rule.pair v.a ++ Rule.pair v.b ++
        if coll then Rule.pair recAt else (List.range 10).map row
      let o' : Op := { id := 0, ins := i, pc := b.pc, lanes := maskOf act, ctr := some (if coll then .coll else .copy), slots, regs }
      let trap (c : Word) (a : Nat) : State := x.trap l { cause := c, addr := .ofNat 64 a } s1
      let begins := spans.all fun p => (scrTarget s w p.1 1).isSome
      let aligned := spans.all fun p => p.1 % p.2.2 == 0
      (∀ a, globals.find? (fun a => decide (2 ^ 60 ≤ a)) = some a → exec i s = .next (trap 0x03 a)) ∧
      ((∀ a ∈ globals, a < 2 ^ 60) →
        (∀ p, spans.find? (fun p => (scrTarget s w p.1 1).isNone) = some p → exec i s = .next (trap 0x09 p.1)) ∧
        (begins = true → ∀ p, spans.find? (fun p => p.1 % p.2.2 != 0) = some p → exec i s = .next (trap 0x02 p.1)) ∧
        (begins = true → aligned = true → ∀ p, spans.find? (fun p => (scrTarget s w p.1 p.2.1).isNone) = some p →
          exec i s = .next (trap 0x09 p.1)) ∧
        (aligned = true → (∀ p ∈ spans, (scrTarget s w p.1 p.2.1).isSome = true) →
          ∃ t, exec i s = .next (startNow (if coll then collStart else copyStart) b.warp t) ∧
          Rule.Recorded o' w (t.warp b.warp) ∧
          (if x.r.h.emk then Rule.DEmpty x act w (t.warp b.warp) else (t.warp b.warp).vregs = w.vregs ∧ (t.warp b.warp).uregs = w.uregs) ∧
          (∀ u, u ≠ b.warp → t.warp u = s.warp u) ∧ t.mem = s.mem ∧
          (coll = true → (∃ e ∈ s.collTags, e.tag = Rule.tag s w l) ∨
            ∃ c ∈ t.colls, c.record = recAt ∧ c.launch = (s.warpLaunch w).uid ∧ c.results = [] ∧
              ∃ g ∈ c.given, g.2 = { warp := b.warp, op := w.nextOp }) ∧
          ((∀ o ∈ w.ops, o.id < w.nextOp) → (∃ o ∈ w.ops, holdsBack s w { o' with id := w.nextOp } o = true) → exec i s = .next t)))) ∧
  (∀ (r : OpRef) (o : Op) (s : State), s.opOf r = some o → (copyForm o.ins).isSome = true → o.data = [] → o.decl = false →
    copyReady s r = true → o.run.refused = [] →
    let w := s.warp r.warp
    let recAt := (o.regs.getD 6 0).toNat + (o.regs.getD 7 0).toNat * 2 ^ 32
    let bs := Rule.recordAt s w recAt
    let c := { o with data := bs }.copy
    recAt % 64 = 0 → Rule.Readable s w recAt 192 → Rule.ValidCopy s w bs c →
    ∃ t, exec (.copyEngineRun r) s = .next t ∧ Rule.Declared r o bs (Rule.copyBytes c c.r.count) s t) ∧
  ∀ (r : OpRef) (o : Op) (s : State), s.opOf r = some o → (collForm o.ins).isSome = true → o.data = [] → o.decl = false →
    o.run.refused = [] →
    let w := s.warp r.warp
    let recAt := (o.regs.getD 6 0).toNat + (o.regs.getD 7 0).toNat * 2 ^ 32
    let bs := Rule.recordAt s w recAt
    let c := collOf s w { o with data := bs }
    recAt % 64 = 0 → Rule.Readable s w recAt 192 → c.check bs = none → Rule.Declared r o bs (Rule.collBytes c) s (collStart r s)

namespace Sys2Proof.Rule

/-- What a copy has done before an element: the gang's bytes by location, the bytes of the packed side's block, seed and events, the blocks checked with the count and the first of those that failed, the malformed bricks, the object, and the bytes written, by address, where their CRCs are wanted. -/
structure Moves where
  glob : Nat → Byte
  scr : Nat → Byte
  seed : BitVec 16
  flags : BitVec 5
  seen : List Nat
  bad : Nat
  badBlk : Option Nat
  bricks : List Nat
  obj : Object
  out : Nat → Byte

/-- One byte function with n bytes of a number written over it at a place. -/
def overlaid (f : Nat → Byte) (at' n v : Nat) (q : Nat) : Byte := if at' ≤ q ∧ q < at' + n then .ofNat 8 (v / 256 ^ (q - at')) else f q

/-- A count-down of n bytes on an object (R160): never below 0; then the completion test. -/
def counted (n : Nat) (o : Object) : Object := completed { o with due := o.due - n }

/-- R193's CRC-64: reflected, all ones first, inverted at the end, bit by bit. -/
def crcBit (c : Nat) : Nat := if c % 2 = 1 then (c / 2) ^^^ 0xC96C5795D7870F42 else c / 2
def crcOf (bs : List Byte) : Nat :=
  (bs.foldl (fun c b => crcBit (crcBit (crcBit (crcBit (crcBit (crcBit (crcBit (crcBit (c ^^^ b.toNat))))))))) (2 ^ 64 - 1)) ^^^ (2 ^ 64 - 1)

/-- Index and address of a block's sidecar entry (R193), above the origin. -/
def blockIndex (c : Copy) (b : Nat) : Nat := (b * 4096 - c.r.crcorg) / 4096
def entryAt (c : Copy) (b : Nat) : Nat := c.r.side + 8 * blockIndex c b

/-- Blocks of 4 KiB checked in order, each once (R193, R191). -/
def checkBlocks (c : Copy) (loc : Nat → Nat) : List Nat → Moves → Moves
  | [], m => m
  | b :: bs, m =>
    if b ∈ m.seen then checkBlocks c loc bs m
    else
      let ok := crcOf ((List.range 4096).map fun j => m.glob (loc (b * 4096 + j))) = number (fun j => m.glob (loc (entryAt c b + j))) 8
      checkBlocks c loc bs { m with
        seen := b :: m.seen
        bad := if ok then m.bad else min (m.bad + 1) 0xFFFFFFFF
        badBlk := if ok then m.badBlk else some (m.badBlk.getD (blockIndex c b)) }

/-- A brick's entry: its address, and what it says (R311). -/
def brickAt (c : Copy) (e : Nat) : Nat :=
  let q (d : Nat) : Nat := c.coords.getD d 0 + index c.r.boxes e d
  let nb (d : Nat) : Nat := (c.r.extents.getD d 0 + 7) / 8
  (c.base + 16 * (q 0 / 8 + nb 0 * (q 1 / 8 + nb 1 * (q 2 / 8)))) % 2 ^ 64

structure Brick where
  addr : Nat
  base : Nat
  wd : Nat
  rsv : Nat

def brickOf (f : Nat → Byte) (loc : Nat → Nat) (a : Nat) : Brick :=
  let x := number (fun j => f (loc (a + j))) 16
  { addr := x / 2 ^ 64, base := x / 2 ^ 32 % 2 ^ 32, wd := x / 2 ^ 26 % 64, rsv := x % 2 ^ 26 }

/-- R313. -/
def Malformed (x : Brick) : Prop := 32 < x.wd ∨ x.rsv ≠ 0 ∨ (0 < x.wd ∧ (2 ^ 60 ≤ x.addr ∨ x.addr % 16 ≠ 0))

/-- The blocks that the source of an element inside the tensor touches, in order of address. -/
def sourceBlocks (c : Copy) (loc : Nat → Nat) (f : Nat → Byte) (e : Nat) : List Nat :=
  if c.r.crc < 2 then []
  else if c.r.bk1 = false then [globalOf c e / 4096]
  else
    let x := brickOf f loc (brickAt c e)
    (List.range (64 * x.wd)).map fun j => (x.addr + j) / 4096

open Classical in
/-- The source value of an element inside the tensor, and the progress its reading makes (R190, R193, R194, R312). -/
noncomputable def source (c : Copy) (loc : Nat → Nat) (e : Nat) (m : Moves) : Nat × Moves :=
  if c.r.bk1 = false then (number (fun j => m.glob (loc (globalOf c e + j))) c.r.gf.bytes, checkBlocks c loc (sourceBlocks c loc m.glob e) m)
  else
    let a := brickAt c e
    let x := brickOf m.glob loc a
    let q (d : Nat) : Nat := (c.coords.getD d 0 + index c.r.boxes e d) % 8
    let v := q 0 + 8 * q 1 + 64 * q 2
    if Malformed x then (0x7FC00000, { m with bricks := if a ∈ m.bricks then m.bricks else a :: m.bricks })
    else if x.wd = 0 then (x.base, m)
    else (wrap 32 (x.base + signedOf x.wd (number (fun j => m.glob (loc (x.addr + j))) (64 * x.wd) / 2 ^ (x.wd * v) % 2 ^ x.wd)),
      checkBlocks c loc (sourceBlocks c loc m.glob e) m)

/-- A converted element: its code, its events and the seed behind it (R82, R83, R190). -/
def Converted (c : Copy) (x y : CvtFmt) (v : Nat) (seed : BitVec 16) (r : Nat × BitVec 5) (next : BitVec 16) : Prop :=
  if c.r.conv = false then r = (v, 0) ∧ next = seed
  else next = (if c.r.ctl / 32 = 4 then seedStep seed else seed) ∧
    if x = .b8 ∧ y = .b8 then r = (v, 0) else IntoTarget y c.r.ctl c.r.subst next.toNat (cvtValue x c.r.ctl v) r

/-- One element of R190, and its count-down unless it is the last (R191, R192). Element e's packed place is `p + e × size`. -/
def Element (c : Copy) (loc : Nat → Nat) (p e : Nat) (m m' : Moves) : Prop :=
  let n := c.r.sf.bytes
  let k := c.r.gf.bytes
  let put (m : Moves) (size : Nat) : Moves := if e + 1 < c.r.count then { m with obj := counted size m.obj } else m
  let wrote (m : Moves) (va n v : Nat) : Moves :=
    { m with glob := overlaid m.glob (loc va) n v, out := if c.r.crc % 2 = 1 then overlaid m.out va n v else m.out }
  match c.form with
  | .s2g => ∃ r next, Converted c c.r.sf c.r.gf (number (fun j => m.scr (p + e * n + j)) n) m.seed r next ∧
      (inTensor c e → m' = put (wrote { m with seed := next, flags := m.flags ||| r.2 } (globalOf c e) k r.1) k) ∧
      (¬inTensor c e → m' = { m with seed := next })
  | form => ∃ v m1 r next, (inTensor c e → (v, m1) = source c loc e m ∧ Converted c c.r.gf c.r.sf v m1.seed r next) ∧
      (¬inTensor c e → v = 0 ∧ m1 = m ∧ r = (0, 0) ∧ next = m.seed) ∧
      let m2 := { m1 with seed := next, flags := m1.flags ||| r.2 }
      m' = put (if form = .g2s then { m2 with scr := overlaid m2.scr (p + e * n) n r.1 } else wrote m2 (c.a + e * n) n r.1) n

/-- Bytes of a range that a gang's plain store can write at once. -/
def Writable (s : State) (w : Warp) (va n : Nat) : Prop :=
  va + n ≤ 2 ^ 60 ∧ ∀ j < n, Reached s ((s.space w).loc (va + j)) .write ∧ (s.space w).loc (va + j) / 128 ∈ (s.gang w.gang).shadows

/-- An operation's progress as its state holds it. -/
def Stands (g : Nat) (p q : Nat × Nat) (s : State) (o : Op) (m : Moves) : Prop :=
  (∀ k, homeByte s (some g) k = m.glob k) ∧ (∀ k, (s.block g p.1).scratch.byte k = m.scr k) ∧ o.run.seed = m.seed ∧ o.run.flags = m.flags ∧
  o.run.crcBad = m.bad ∧ o.run.badBlk = m.badBlk ∧ o.run.badBricks = m.bricks ∧ (o.obj.isSome = true → objectAt s g q = m.obj) ∧
  ∀ k, o.run.out.byte k = m.out k

/-- What one element's reads and writes need: bytes that can be read, or written at once, none of them sealed (R386). -/
def Possible (s : State) (w : Warp) (c : Copy) (e : Nat) : Prop :=
  let f := homeByte s (some w.gang)
  let loc := (s.space w).loc
  let open' (va n : Nat) : Prop := Readable s w va n ∧ ∀ j < n, sealedSlot s (s.space w).world (va + j) = none
  (c.form ≠ .s2g → inTensor c e →
    (if c.r.bk1 = false then open' (globalOf c e) c.r.gf.bytes ∧ globalOf c e % c.r.gf.bytes = 0
      else
        let x := brickOf f loc (brickAt c e)
        open' (brickAt c e) 16 ∧ brickAt c e % 16 = 0 ∧ (¬Malformed x → 0 < x.wd → open' x.addr (64 * x.wd))) ∧
    ∀ b ∈ sourceBlocks c loc f e, open' (b * 4096) 4096 ∧ c.r.crcorg ≤ b * 4096 ∧ Readable s w (entryAt c b) 8 ∧ entryAt c b % 8 = 0) ∧
  (c.form = .s2g → inTensor c e → Writable s w (globalOf c e) c.r.gf.bytes ∧ globalOf c e % c.r.gf.bytes = 0) ∧
  (c.form = .g2g → Writable s w (c.a + e * c.r.sf.bytes) c.r.sf.bytes ∧ c.a % c.r.sf.bytes = 0)

/-- A copy of bricks to global memory writes none of the bytes of its bricks. -/
def Apart (s : State) (w : Warp) (c : Copy) : Prop :=
  let f := homeByte s (some w.gang)
  let loc := (s.space w).loc
  let written (va : Nat) : Prop := c.a ≤ va ∧ va < c.a + c.r.count * c.r.sf.bytes
  c.form = .g2g → c.r.bk1 = true → ∀ e < c.r.count, inTensor c e →
    let x := brickOf f loc (brickAt c e)
    (∀ j < 16, ¬written (brickAt c e + j)) ∧ ∀ j < 64 * x.wd, ¬written (x.addr + j)

end Sys2Proof.Rule

/-- R190 to R194, R311 to R313, R160: a TCOPY that has read its record moves its elements in order, each as R190's pseudocode has it: `.g2s` and `.g2g` from the tensor, or from its BK1 bricks, to the packed side, zeros where an element lies outside; `.s2g` from the packed side to the tensor, and an element outside only read. An element is converted under the record's control, substitute and seed; a checked source block is compared once with its sidecar entry and counted if it differs, and a malformed brick delivers canonical NaN and is counted; each element but the last is counted down on the object. No other byte of memory or scratchpad changes. Stated of copies whose bytes can be read, or written at once, unsealed, and, where it copies bricks to global memory, apart from theirs. With all elements in place the copy completes: the CRC of each block written goes to its sidecar entry, the completion record to `done`, the last bytes are counted down, and the operation leaves the record. -/
def Obligations.CopyMovesElements : Prop :=
  (∀ (r : OpRef) (o : Op) (s : State) (p q : Nat × Nat) (m : Rule.Moves), s.opOf r = some o → (copyForm o.ins).isSome = true → o.data ≠ [] →
    copyReady s r = true → o.run.refused = [] →
    let c := o.copy
    let w := s.warp r.warp
    let g := w.gang
    let len := c.r.count * c.r.sf.bytes
    Rule.ValidCopy s w o.data c → s.scrSize g ≤ 2 ^ 20 → c.a < 2 ^ 60 → s.hasGang g = true → (s.gangs.map fun g => g.uid).Nodup →
    (c.form ≠ .g2g → scrTarget s w c.a len = some p ∧ p.1 < (s.gang g).blocks.length) → (c.form = .s2g → Rule.Sound s g p len) →
    (∀ a, o.obj = some a → a % 32 = 0 ∧ scrTarget s w a 32 = some q ∧ q.1 < (s.gang g).blocks.length ∧
      (c.form ≠ .g2g → q.1 ≠ p.1 ∨ q.2 + 32 ≤ p.2 ∨ p.2 + len ≤ q.2)) →
    o.prog = Rule.copyBytes c o.run.elem → (∀ e < c.r.count, Rule.Possible s w c e) → Rule.Apart s w c →
    Rule.Stands g p q s o m → m.seen = o.run.seen →
    ∃ (t : State) (o' : Op) (ms : Nat → Rule.Moves), exec (.copyEngineRun r) s = .next t ∧ t.opOf r = some o' ∧ o'.run.elem = c.r.count ∧
      ms o.run.elem = m ∧ (∀ e, o.run.elem ≤ e → e < c.r.count → Rule.Element c (s.space w).loc p.2 e (ms e) (ms (e + 1))) ∧
      (∀ k, homeByte t (some g) k = (ms c.r.count).glob k) ∧ o'.run.seed = (ms c.r.count).seed ∧ o'.run.flags = (ms c.r.count).flags ∧
      o'.run.crcBad = (ms c.r.count).bad ∧ o'.run.badBlk = (ms c.r.count).badBlk ∧ o'.run.badBricks = (ms c.r.count).bricks ∧
      (o.obj.isSome = true → Rule.objectAt t g q = (ms c.r.count).obj) ∧ (∀ k, o'.run.out.byte k = (ms c.r.count).out k) ∧
      (∀ k, p.2 ≤ k → k < p.2 + len → c.form = .g2s → (t.block g p.1).scratch.byte k = (ms c.r.count).scr k) ∧
      ∀ b k, ¬(c.form = .g2s ∧ b = p.1 ∧ p.2 ≤ k ∧ k < p.2 + len) → ¬(o.obj.isSome = true ∧ b = q.1 ∧ q.2 ≤ k ∧ k < q.2 + 32) →
        (t.block g b).scratch.byte k = (s.block g b).scratch.byte k) ∧
  (∀ (r : OpRef) (o : Op) (s : State) (q : Nat × Nat), s.opOf r = some o → copyDone s r = true → o.run.refused = [] →
    let c := o.copy
    let w := s.warp r.warp
    let g := w.gang
    let loc := (s.space w).loc
    let made := c.r.crc % 2 = 1
    let blocks (b : Nat) : Prop := ∃ e < c.r.count, (c.form = .s2g → Rule.inTensor c e) ∧
      (if c.form = .s2g then Rule.globalOf c e else (c.a + e * c.r.sf.bytes) % 2 ^ 64) / 4096 = b
    let record : Nat := o.run.flags.toNat + o.run.badBlk.getD 0xFFFFFFFF % 2 ^ 32 * 2 ^ 32 + min o.run.crcBad 0xFFFFFFFF * 2 ^ 64 +
      min o.run.badBricks.length 65535 * 2 ^ 96 + o.run.seed.toNat * 2 ^ 112
    Rule.ValidCopy s w o.data c → s.hasGang g = true → (s.gangs.map fun g => g.uid).Nodup →
    (made → ∀ b, blocks b → c.r.crcorg ≤ b * 4096 ∧ Rule.Writable s w (Rule.entryAt c b) 8 ∧ Rule.entryAt c b % 8 = 0) → (c.r.done ≠ 0 → Rule.Writable s w c.r.done 16) →
    (∀ a, o.obj = some a → a % 32 = 0 ∧ scrTarget s w a 32 = some q ∧ q.1 < (s.gang g).blocks.length) →
    ∃ t, exec (.copyComplete r) s = .next t ∧ (∀ x, (t.warp r.warp).op r.op = some x → x.finished = true) ∧
      t.warp r.warp = (({ s.warp r.warp with ops := (t.warp r.warp).ops } : Warp)) ∧
      (∀ k, loc c.r.done ≤ k → k < loc c.r.done + 16 → c.r.done ≠ 0 → homeByte t (some g) k = .ofNat 8 (record / 256 ^ (k - loc c.r.done))) ∧
      (∀ k, ¬(c.r.done ≠ 0 ∧ loc c.r.done ≤ k ∧ k < loc c.r.done + 16) →
        (∀ b j, made → blocks b → j < 8 → k = loc (Rule.entryAt c b) + j → homeByte t (some g) k =
          .ofNat 8 (Rule.crcOf ((List.range 4096).map fun i => o.run.out.byte (b * 4096 + i)) / 256 ^ j)) ∧
        ((∀ b j, made → blocks b → j < 8 → k ≠ loc (Rule.entryAt c b) + j) → homeByte t (some g) k = homeByte s (some g) k)) ∧
      (o.obj = none → t.gangs.map (fun x => x.blocks.map fun b => b.scratch) = s.gangs.map (fun x => x.blocks.map fun b => b.scratch)) ∧
      (o.obj.isSome = true → Rule.ScratchElse g q 32 s t ∧
        Rule.objectAt t g q = if Rule.copyBytes c c.r.count ≤ o.prog then Rule.objectAt s g q
          else Rule.counted (Rule.copyBytes c c.r.count - o.prog) (Rule.objectAt s g q))) ∧
  Rule.crcOf [0x31, 0x32, 0x33, 0x34, 0x35, 0x36, 0x37, 0x38, 0x39] = 0x995DC9BBDF1939FA

namespace Sys2Proof.Rule

/-- A node of COLL's reduction (R196): integers wrap, floats round to nearest in the record's format. -/
def collNode (fmt : CvtFmt) (op : Nat) (a b : Nat) : Nat :=
  let v (x : Nat) : Int := if fmt = .i32 then signedOf 32 x else x
  let flt (f : FloatFmt) : Nat := if op = 0 then sum f .rn a b else f.minMax (op != 1) a b
  match fmt with
  | .i32 | .n32 => if op = 0 then (a + b) % 2 ^ 32 else if op = 1 then (if v a ≤ v b then a else b) else if v b ≤ v a then a else b
  | .f16 => flt f16Fmt
  | .bf16 => flt bf16Fmt
  | _ => flt f32Fmt

/-- Element k of the reduction of the sources by the tree of R137. -/
def reduced (c : Coll) (srcs : List (List Byte)) (k : Nat) : Nat :=
  (node (collNode c.r.gf c.r.cop) (fun q => (srcs[q]?).map fun bs => number (fun j => bs.getD (k * c.esize + j) 0) c.esize) 0
    (if c.parts ≤ 1 then 0 else (c.parts - 1).log2 + 1)).getD 0

end Sys2Proof.Rule

/-- R196, R137: what COLL delivers to a rank. ALLREDUCE every element of the reduction, REDSCAT the rank's share of them, ALLGATHER the sources in rank order, BCAST the root's source. -/
def Sys2Proof.Rule.CollectiveDelivers : Prop :=
  ∀ (c : Coll) (srcs : List (List Byte)), (∀ bs ∈ srcs, bs.length = c.n * c.esize) → srcs.length = c.parts →
    c.r.gfmt ∈ [0, 1, 5, 6, 7] → c.r.cop ≤ 2 →
    let out := collResult c srcs
    (c.form = .allreduce → out.length = c.n * c.esize ∧ ∀ k < c.n, ∀ j < c.esize,
      out.getD (k * c.esize + j) 0 = .ofNat 8 (Rule.reduced c srcs k / 256 ^ j)) ∧
    (c.form = .redscat → 0 < c.parts → out.length = c.n / c.parts * c.esize ∧ ∀ k < c.n / c.parts, ∀ j < c.esize,
      out.getD (k * c.esize + j) 0 = .ofNat 8 (Rule.reduced c srcs (c.rank * (c.n / c.parts) + k) / 256 ^ j)) ∧
    (c.form = .allgather → out = srcs.flatten) ∧ (c.form = .bcast → out = srcs.getD c.r.root [])

/-- R196, R160: an instance whose results stand writes the destination of an operation whose order allows it: the bytes are the gang's plain stores, and the operation leaves the record; a full instance whose sources can be read first makes the results, from the sources of all ranks. -/
def Sys2Proof.Rule.CollectiveWrites : Prop :=
  (∀ (k : Nat) (inst : CollInstance) (r : OpRef) (bs : List Byte) (o : Op) (s : State), s.colls[k]? = some inst → inst.results = [(r, bs)] →
    s.opOf r = some o → engineReady s r o = true → (collForm o.ins).isSome = true → o.obj = none → o.run.refused = [] →
    let w := s.warp r.warp
    let c := collOf s w o
    bs ≠ [] → c.dst + bs.length ≤ 2 ^ 60 → s.hasGang w.gang = true → (s.gangs.map fun g => g.uid).Nodup →
    (∀ j < bs.length, Rule.Reached s ((s.space w).loc (c.dst + j)) .write ∧ (s.space w).loc (c.dst + j) / 128 ∈ (s.gang w.gang).shadows) →
    ∃ t, exec (.collInstanceComplete k) s = .next t ∧ t.colls = s.colls.eraseIdx k ∧
      (∀ q, homeByte t (some w.gang) q = if (s.space w).loc c.dst ≤ q ∧ q < (s.space w).loc c.dst + bs.length then
        bs.getD (q - (s.space w).loc c.dst) 0 else homeByte s (some w.gang) q) ∧
      ∀ q, (t.warp r.warp).op r.op = some q → q.finished = true) ∧
  ∀ (k : Nat) (inst : CollInstance) (srcs : List (Nat × List Byte)) (s s' : State), s.colls[k]? = some inst → inst.results = [] →
    inst.full s = true → readGiven s inst.given = (.ok srcs, s') →
    ∃ results left t, exec (.collInstanceComplete k) s = .next t ∧ collWrites results s'.draw = left ∧
      results = inst.given.filterMap (fun g => (s'.opOf g.2).map fun o =>
        let c := collOf s' (s'.warp g.2.warp) o
        (g.2, collResult c ((List.range c.parts).map (sourceOf s' srcs (c.n * c.esize))))) ∧
      t = setColl k (if left.1 = [] then none else some { inst with results := left.1, given := [] }) left.2

/-- R197, R198, R160: WDQ asks for a tile: without a grid it raises BOUNDS; else its slot and its object must begin in scratchpad (BOUNDS), be aligned to 16 and to 32 (ALIGNMENT), and end in it (BOUNDS), the slot tested before the object; else its query stands in the record under a tag, with its object. A query that names an object declares 16 bytes on it before it is sent. The distributor answers query k of a gx × gy grid once: the slot receives the tile's y in the upper and x in the lower half of word 0, or all ones with 1 in word 1 when the grid is used up, k in word 2 and 0 in word 3, or again the answer that a known tag had, and no tile; then 16 bytes are counted down on the object, and the operation leaves the record. -/
def Sys2Proof.Rule.WorkDistributed : Prop :=
  (∀ (h : Hdr) (f : Ops) (s : State) (b : Bundle) (act : List Nat), Goes (.wdq h f) s b act →
    let x := actAt (.wdq h f) b act
    let w := s.warp b.warp
    let v := x.read w x.first
    let r := (s.warpLaunch w).record
    let s1 := s.advance b.warp (lanesOf b.lanes) b.pc
    let spans : List (Nat × Nat) := (v.d, 16) :: if f.a.kind = .zr then [] else [(v.a, 32)]
    let trap (c : Word) (a : Nat) : State := x.trap x.first { cause := c, addr := .ofNat 64 a } s1
    (r.gx = 0 ∨ r.gy = 0 → exec (.wdq h f) s = .next (x.trap x.first { cause := 0x09 } s1)) ∧
    (r.gx ≠ 0 → r.gy ≠ 0 →
      (∀ p, spans.find? (fun p => (scrTarget s w p.1 1).isNone) = some p → exec (.wdq h f) s = .next (trap 0x09 p.1)) ∧
      ((∀ p ∈ spans, (scrTarget s w p.1 1).isSome = true) →
        (∀ p, spans.find? (fun p => p.1 % p.2 != 0) = some p → exec (.wdq h f) s = .next (trap 0x02 p.1)) ∧
        ((∀ p ∈ spans, p.1 % p.2 = 0) → ∀ p, spans.find? (fun p => (scrTarget s w p.1 p.2).isNone) = some p →
          exec (.wdq h f) s = .next (trap 0x09 p.1))) ∧
      ((∀ p ∈ spans, p.1 % p.2 = 0 ∧ (scrTarget s w p.1 p.2).isSome = true) →
        ∃ t, exec (.wdq h f) s = .next t ∧ (∀ u, u ≠ b.warp → t.warp u = s.warp u) ∧ t.mem = s.mem ∧
          Rule.Recorded { id := 0, ins := .wdq h f, pc := b.pc, lanes := maskOf act, ctr := some .coll,
                          slots := [{ lane := x.first, addr := v.d, tag := Rule.tag s w x.first }],
                          regs := (if f.a.kind = .zr then [0, 0] else [1, .ofNat 32 v.a]) ++ [.ofNat 32 v.d] }
            w (t.warp b.warp)))) ∧
  (∀ (r : OpRef) (o : Op) (s : State) (h : Hdr) (f : Ops), s.opOf r = some o → o.ins = .wdq h f → o.decl = false →
    Rule.Declared r o o.data 16 s (declareOn r 16 s) ∧ (o.obj.isSome = true → wdqReady s r = false)) ∧
  ∀ (r : OpRef) (o : Op) (s : State) (p q : Nat × Nat), s.opOf r = some o → wdqReady s r = true →
    let w := s.warp r.warp
    let g := w.gang
    let l := s.warpLaunch w
    let k := l.answers
    let more := k < l.record.gx.toNat * l.record.gy.toNat
    scrTarget s w (o.regs.getD 2 0).toNat 16 = some p → p.1 < (s.gang g).blocks.length →
    (∀ e, tagFind l.tags (o.entry s w) = some e → e.data.length = 16 → o.obj = none → ∃ t, exec (.workDistributorAnswer r) s = .next t ∧
      (∀ u, (t.launch u).answers = (s.launch u).answers) ∧ Rule.ScratchElse g p 16 s t ∧
      ∀ j < 16, (t.block g p.1).scratch.byte (p.2 + j) = e.data.getD j 0) ∧
    (tagFind l.tags (o.entry s w) = none → (∀ a, o.obj = some a → o.prog = 0 ∧ a % 32 = 0 ∧ scrTarget s w a 32 = some q ∧ q.1 < (s.gang g).blocks.length ∧
      (q.1 ≠ p.1 ∨ q.2 + 32 ≤ p.2 ∨ p.2 + 16 ≤ q.2)) →
    s.hasLaunch l.uid = true → s.launch l.uid = l →
    ∃ t, exec (.workDistributorAnswer r) s = .next t ∧ (s.launch l.uid).answers + 1 = (t.launch l.uid).answers ∧ t.mem = s.mem ∧
      Rule.object t g p 0 4 = (if more then k / l.record.gx.toNat * 2 ^ 16 + k % l.record.gx.toNat else 2 ^ 32 - 1) % 2 ^ 32 ∧
      Rule.object t g p 4 4 = (if more then 0 else 1) ∧ Rule.object t g p 8 4 = k % 2 ^ 32 ∧ Rule.object t g p 12 4 = 0 ∧
      (o.obj = none → Rule.ScratchElse g p 16 s t) ∧
      (o.obj.isSome = true → Rule.objectAt t g q = Rule.counted 16 (Rule.objectAt s g q) ∧
        ∀ b k, (b ≠ p.1 ∨ k < p.2 ∨ p.2 + 16 ≤ k) → (b ≠ q.1 ∨ k < q.2 ∨ q.2 + 32 ≤ k) →
          (t.block g b).scratch.byte k = (s.block g b).scratch.byte k) ∧
      ∀ x, (t.warp r.warp).op r.op = some x → x.finished = true)

/-- R199 to R201: CHURN.START of a free slot, first under its tag, begins the block's program at its entry with sixteen parameters in s0 to s15 and opens four empty queues; an entry that is no PC of the code raises BOUNDS. CHURN.STOP gives the slot up with its program and queues; of a block that does not own it, nothing changes, which is the model's choice (log 28). QPUSH of a program adds one entry to its queue, word l of lane l, of all sixteen lanes, the inactive ones too: the model's choice (log 28). QPOP and QPEEK give each active lane its word and 1, or 0 and 0 where the queue has none, and QPOP takes the entries off; QPUSH of a warp, and QPOP and QPEEK of a block that owns no slot, raise BOUNDS. -/
def Sys2Proof.Rule.ChurnAndQueues : Prop :=
  (∀ (h : Hdr) (f : Ops) (s : State) (b : Bundle) (act : List Nat), Goes (.churnStart h f) s b act →
    let x := actAt (.churnStart h f) b act
    let w := s.warp b.warp
    let entry := (x.read w x.first).a
    let bad := entry % 12 ≠ 0 ∨ (s.warpLaunch w).len ≤ entry
    (bad → exec (.churnStart h f) s = .next (x.trap x.first { cause := 0x09 } (s.advance b.warp (lanesOf b.lanes) b.pc))) ∧
    (¬bad → w.rank < (s.gang w.gang).blocks.length →
      tagHit (s.warpBlock w).tags (s.tagEntry w (Rule.tag s w x.first) (.churnStart h f) entry 0) = none →
      ∃ t c, exec (.churnStart h f) s = .next t ∧ (t.block w.gang w.rank).churn = some c ∧ (t.block w.gang w.rank).ownsChurn = true ∧
        (t.block w.gang w.rank).queues = [{}, {}, {}, {}] ∧ c.running = true ∧ c.warp = b.warp ∧ c.lane = x.first ∧
        (∀ l < 16, c.pc.getD l 0 = .ofNat 32 entry ∧ c.done.getD l true = false) ∧
        (∀ k < 16, Store.get 0 c.uregs k = (w.ureg (f.b.val.toNat + k)).val) ∧ t.mem = s.mem)) ∧
  (∀ (h : Hdr) (f : Ops) (s : State) (b : Bundle) (act : List Nat), Goes (.churnStop h f) s b act →
    let w := s.warp b.warp
    ∃ t, exec (.churnStop h f) s = .next t ∧ Rule.OnlyAdvanced b s t ∧ t.mem = s.mem ∧
      ((s.warpBlock w).ownsChurn = false → t.gangs = s.gangs) ∧
      ((s.warpBlock w).ownsChurn = true → (t.block w.gang w.rank).ownsChurn = false ∧ (t.block w.gang w.rank).churn = none ∧
        (t.block w.gang w.rank).queues = [])) ∧
  (∀ (h : Hdr) (f : Ops) (s : State) (b : Bundle) (act : List Nat), Goes (.qpush h f) s b act →
    let x := actAt (.qpush h f) b act
    let w := s.warp b.warp
    let k := f.d.val.toNat - 0x80
    (b.warp ≠ 0 → exec (.qpush h f) s = .next (x.trap x.first { cause := 0x09 } (s.advance b.warp (lanesOf b.lanes) b.pc))) ∧
    (b.warp = 0 → ∃ t, exec (.qpush h f) s = .next t ∧ Rule.OnlyAdvanced b s t ∧ t.mem = s.mem ∧
      (k < (s.warpBlock w).queues.length → ((t.block w.gang w.rank).queues.getD k {}).entries =
        ((s.warpBlock w).queues.getD k {}).entries ++ [(List.range 16).map fun l => .ofNat 32 (x.read w l).a]))) ∧
  ∀ (i : Instr) (pop : Bool) (h : Hdr) (f : Ops) (s : State) (b : Bundle) (act : List Nat), i = (if pop then .qpop h f else .qpeek h f) →
    i.wf = true → Goes i s b act →
    let x := actAt i b act
    let w := s.warp b.warp
    let k := f.a.val.toNat - 0x80
    let q := (s.warpBlock w).queues.getD k {}
    let e := min (w.width / 16) q.entries.length
    let word (l : Nat) : Nat := if l / 16 < e then ((q.entries.getD (l / 16) []).getD (l % 16) 0).toNat else 0
    ((s.warpBlock w).ownsChurn = false → exec i s = .next (x.trap x.first { cause := 0x09 } (s.advance b.warp (lanesOf b.lanes) b.pc))) ∧
    ((s.warpBlock w).ownsChurn = true → ∃ t, exec i s = .next t ∧ (∀ u, u ≠ b.warp → t.warp u = s.warp u) ∧ t.mem = s.mem ∧
      (∀ n l, l < 64 → (t.warp b.warp).vreg n l = x.vregAfter word w n l) ∧
      (∀ l ∈ act, ((t.warp b.warp).thread l).preds.getLsbD f.b.val.toNat = decide (f.b.val.toNat < 7 ∧ l / 16 < e)) ∧
      (k < (s.warpBlock w).queues.length → ((t.block w.gang w.rank).queues.getD k {}).entries = if pop then q.entries.drop e else q.entries))

/-! ## Stage graphs and remote edges (R202 to R207, R316 to R342) -/

namespace Sys2Proof.Rule

/-- An edge carries the records that waves of this stage emit (R203, R347): one of the stage's outputs that exists and is not the skim or bin edge; a predictor wave has the edge it predicts for. -/
def isOutput (s : State) (slot : Nat) (v : Wave) (e : Nat) : Prop :=
  (s.edge slot e).valid = true ∧ (∀ r, (s.ctx slot).raster = some r → e ≠ r.skim ∧ e ≠ r.bin) ∧
    if v.pred then v.edge = some e else (s.edge slot e).source = v.stage

/-- The record of R202: frame, key, kind and sequence number, origin, then the payload. -/
def recordOf (f key : Word) (kind seq : Nat) (origin : Word) (payload : List Byte) : Rec :=
  { frame := f, seq,
    bytes := bytesOfNat 16 (f.toNat + key.toNat * 2 ^ 32 + kind * 2 ^ 64 + seq % 2 ^ 24 * 2 ^ 72 + origin.toNat * 2 ^ 96) ++ payload }

/-- Nothing of a context's graph but one edge has changed, and of that edge nothing but what `f` says. -/
def EdgeIs (slot e : Nat) (f : Edge → Edge) (s t : State) : Prop :=
  (t.graph slot) = { s.graph slot with edges := mapAt f (s.graph slot).edges e }

end Sys2Proof.Rule

/-- R203, R204, R283: EMIT outside a wave, or to no output of its stage, raises BOUNDS; else, with every payload in the scratchpad at a multiple of 16, the operation stands in the record, one slot a lane with the payload's address, the key and a tag, counted in `oc.edge`. -/
def Sys2Proof.Rule.EmitRecorded : Prop :=
  ∀ (h : Hdr) (f : Ops) (s : State) (b : Bundle) (act : List Nat), Goes (.emit h f) s b act →
    let x := actAt (.emit h f) b act
    let w := s.warp b.warp
    let l := s.warpLaunch w
    let e := (x.read w x.first).a
    let n := (s.edge l.slot e).size - 16
    let slots := act.map fun k => ({ lane := k, addr := (x.read w k).b, data := .ofNat 128 (x.read w k).c, tag := Rule.tag s w k } : Slot)
    (¬(∃ v, l.wave = some v ∧ Rule.isOutput s l.slot v e) →
      exec (.emit h f) s = .next (x.trap x.first { cause := 0x09 } (s.advance b.warp (lanesOf b.lanes) b.pc))) ∧
    ((∃ v, l.wave = some v ∧ Rule.isOutput s l.slot v e) →
      (∀ k ∈ act, (scrTarget s w (x.read w k).b n).isSome = true ∧ (x.read w k).b % 16 = 0) →
      ∃ t, exec (.emit h f) s = .next t ∧ t.mem = s.mem ∧ t.ctxs = s.ctxs ∧ (∀ u, u ≠ b.warp → t.warp u = s.warp u) ∧
        Rule.Recorded { id := 0, ins := .emit h f, pc := b.pc, lanes := maskOf act, ctr := some .edge, regs := [.ofNat 32 e], slots }
          w (t.warp b.warp))

/-- R202, R204, R322: a record of an EMIT is performed once at its edge. It takes the next sequence number of its frame; on a local edge whose ring can be written at its next place and at the one behind the records held back for it, with its frame not above the one being worked on, no remote frame of the edge still open (R342) and no move of the cut pending, it stands released in the ring with the header of R202, its key and its payload, and the EMIT goes on to its next lane, or leaves the record after its last. -/
def Sys2Proof.Rule.RecordPerformed : Prop :=
  ∀ (r : OpRef) (o : Op) (s : State) (h : Hdr) (f : Ops) (x : Slot) (v : Wave) (bs : List Byte), s.opOf r = some o → o.ins = .emit h f →
    o.slots[o.recs]? = some x → acceptReady s r = true →
    let w := s.warp r.warp
    let l := s.warpLaunch w
    let e := (o.regs.getD 0 0).toNat
    let ed := s.edge l.slot e
    l.wave = some v → v.pred = false → tagHit ed.tags (s.tagEntry w x.tag o.ins x.addr 0) = none →
    readScr s w x.addr (ed.size - 16) = .bytes bs → (s.ctx l.slot).graph.isSome = true → e < (s.graph l.slot).edges.length →
    (s.graph l.slot).cut.phase = .steady → (s.graph l.slot).remote e v.frame = false → ed.source = v.stage →
    v.frame = (s.stage l.slot v.stage).closed + 1 → 0 < v.frame.toNat → (s.graph l.slot).waitsLocal e v.frame = false →
    1 ≤ ed.size → (∀ j < ed.size, Rule.Reached s ((s.ctx l.slot).space.loc (ed.ring.toNat + ed.ringAt % ed.cap.toNat * ed.size + j)) .write ∧
      Rule.Reached s ((s.ctx l.slot).space.loc (ed.ring.toNat + (ed.ringAt + (s.graph l.slot).heldLocal e) % ed.cap.toNat * ed.size + j)) .write) →
    let n := Store.get 0 ed.seqs v.frame.toNat
    ∃ t, exec (.edgeRecordAccept r) s = .next t ∧ Store.get 0 (t.edge l.slot e).seqs v.frame.toNat = n + 1 ∧
      (t.edge l.slot e).occupied = ed.occupied + 1 ∧
      (t.edge l.slot e).ready = ed.ready ++ [{ Rule.recordOf v.frame (.ofNat 32 x.data.toNat) 0 n v.frame bs with ring := true }] ∧
      (o.slots.length ≤ o.recs + 1 → ∀ q, (t.warp r.warp).op r.op = some q → q.finished = true) ∧
      (o.recs + 1 < o.slots.length → (t.opOf r).map (fun q => q.recs) = some (o.recs + 1))

namespace Sys2Proof.Rule

/-- A stage's outgoing edge. -/
def isOut (s : State) (slot st e : Nat) : Prop := (s.edge slot e).valid = true ∧ (s.edge slot e).source = st

/-- The stage's bin edge has no bins of a frame to flush, and no records of the graph wait for room (R352). -/
def NoBins (s : State) (slot st : Nat) (f : Word) : Prop :=
  ∀ r, (s.ctx slot).raster = some r → isOut s slot st r.bin →
    (∀ b ∈ (s.ctx slot).bins, b.frame ≠ f) ∧ ∀ x ∈ (s.graph slot).edges, x.pending = []

/-- Triangles a stage has submitted for a frame have pixel events to perform, or records of the frame wait for room on an edge of it (R350, R352). -/
def Drawing' (s : State) (slot st : Nat) (f : Word) : Prop :=
  (∃ t ∈ s.tris, t.slot = slot ∧ t.stage = st ∧ t.frame = f) ∨
  ∃ x ∈ (s.graph slot).edges, x.valid = true ∧ x.source = st ∧ ∃ p ∈ x.pending, p.frame = f

/-- The near end of an edge holds nothing that a local buoy could set free. -/
def Still (x : Receiver) : Prop := x.held = [] ∧ x.groups = [] ∧ x.counts = []

/-- The buoy frame of R324 and R327: type 2, the edge, the frame, N of it and of the frame before, no body, its CRC. -/
def isBuoy (g : Graph) (x : Edge) (e : Nat) (f : Word) (d : Datagram) : Prop :=
  d.dst = g.peer ∧ d.lport = g.lport ∧ d.pport = g.pport ∧ d.bytes.length = 36 ∧
  natOfBE (d.bytes.take 32) = (0x4F56 * 2 ^ 240 + 2 ^ 236 + 2 * 2 ^ 232 + g.gid.toNat * 2 ^ 216 + e * 2 ^ 208 + f.toNat * 2 ^ 176 +
    Store.get 0 x.seqs f.toNat % 2 ^ 24 * 2 ^ 152 + Store.get 0 x.seqs (f.toNat - 1) % 2 ^ 24 * 2 ^ 128 + x.recsz.toNat * 2 ^ 88) % 2 ^ 256 ∧
  d.bytes.drop 32 = bytesOfNat 4 (crc32c (d.bytes.take 32)).toNat

end Sys2Proof.Rule

/-- R24, R205, R206, R320, R337, R350, R352: FRAME and CUT. FRAME outside a wave, in a predictor wave or above the next frame raises BOUNDS; a frame closed already has no effect but its count. For the next one the bins of the frame, at the classification stage, first become records in their order on the bin edge (here: one that has no room, so that they wait); it then waits in `oc.edge` while triangles or records of the frame are under way; else it makes the frame the stage's last closed one and its buoy goes to every outgoing edge, skim and bin edges too: on a local edge it is released behind the records released before, on a remote one the buoy frame with the edge's counts is sent; no other edge changes (here: no move of the cut pending, no remote frame open below it, and nothing held at the receiving end of the stage's edges). CUT of a wave that may not move the cut raises BOUNDS; else, first under its tag and with no move pending, D receives the number of the proposal, one more than the last, and, where no record or buoy of its frame has been performed on an edge that changes, the far part waits for the frame with the mask; with a move pending, D receives 0. A FRAME and a CUT that are done at issue count in `oc.edge` as complete. -/
def Sys2Proof.Rule.FramesCloseAndCutsAreProposed : Prop :=
  (∀ (h : Hdr) (f : Ops) (s : State) (b : Bundle) (act : List Nat), Goes (.frame h f) s b act →
    let x := actAt (.frame h f) b act
    let w := s.warp b.warp
    let l := s.warpLaunch w
    let n : Word := .ofNat 32 (x.read w x.first).a
    let s1 := s.advance b.warp (lanesOf b.lanes) b.pc
    let ok (v : Wave) : Prop := v.pred = false ∧ n.toNat ≤ (s.stage l.slot v.stage).closed.toNat + 1
    let waiting : Op := { id := 0, ins := .frame h f, pc := b.pc, lanes := maskOf act, ctr := some .edge, regs := [n],
                          slots := [{ lane := x.first, addr := 0, tag := Rule.tag s w x.first }] }
    (¬(∃ v, l.wave = some v ∧ ok v) → exec (.frame h f) s = .next (x.trap x.first { cause := 0x09 } s1)) ∧
    ∀ v, l.wave = some v → ok v →
      (n.toNat ≤ (s.stage l.slot v.stage).closed.toNat → ∃ t, exec (.frame h f) s = .next t ∧ Rule.CountedDone (.frame h f) .edge w (t.warp b.warp) ∧
        (t.warp b.warp).vregs = w.vregs ∧ (t.warp b.warp).uregs = w.uregs ∧ (∀ u, u ≠ b.warp → t.warp u = s.warp u) ∧
        t = { s with warps := t.warps, gangs := t.gangs }) ∧
      ((s.stage l.slot v.stage).closed.toNat < n.toNat → v.stage < (s.graph l.slot).stages.length → (s.ctx l.slot).graph.isSome = true →
        let g := s.graph l.slot
        (Rule.NoBins s l.slot v.stage n → Rule.Drawing' s l.slot v.stage n → ∃ t, exec (.frame h f) s = .next t ∧ (∀ k, t.ctx k = s.ctx k) ∧ t.mem = s.mem ∧
          Rule.Recorded waiting w (t.warp b.warp)) ∧
        (∀ r, (s.ctx l.slot).raster = some r → Rule.isOut s l.slot v.stage r.bin → r.bin < g.edges.length →
          (∀ e, e ≠ r.bin → (s.edge l.slot e).pending = []) → g.remote r.bin n = false →
          (∀ p ∈ (s.edge l.slot r.bin).pending, g.remote r.bin p.frame = false) →
          (s.edge l.slot r.bin).cap.toNat ≤ (s.edge l.slot r.bin).occupied →
          let mine := (s.ctx l.slot).bins.filter fun k => k.frame == n
          mine ≠ [] → ∃ t, exec (.frame h f) s = .next t ∧ Rule.Recorded waiting w (t.warp b.warp) ∧
            (t.ctx l.slot).bins = (s.ctx l.slot).bins.filter (fun k => k.frame != n) ∧ (t.stage l.slot v.stage).closed = (s.stage l.slot v.stage).closed ∧
            (t.edge l.slot r.bin).pending.map (fun p => (p.frame, p.key, p.payload)) =
              (s.edge l.slot r.bin).pending.map (fun p => (p.frame, p.key, p.payload)) ++ mine.map fun k => (n, BitVec.ofNat 32 k.material,
                bytesOfNat 16 (k.tile % 2 ^ 32 + ((List.range 1024).filter k.mask.getLsbD).length * 2 ^ 32) ++ bytesOfNat 128 k.mask.toNat)) ∧
        (Rule.NoBins s l.slot v.stage n → ¬Rule.Drawing' s l.slot v.stage n → g.cut.phase = .steady →
          (∀ e, Rule.isOut s l.slot v.stage e → g.waitsLocal e n = false ∧ Rule.Still (s.edge l.slot e).rx) →
          ∃ t, exec (.frame h f) s = .next t ∧ (t.stage l.slot v.stage).closed = n ∧ Rule.CountedDone (.frame h f) .edge w (t.warp b.warp) ∧
            s.sent.length ≤ t.sent.length ∧ t.sent.take s.sent.length = s.sent ∧
            (∀ e, ¬Rule.isOut s l.slot v.stage e → t.edge l.slot e = s.edge l.slot e) ∧
            ∀ e, Rule.isOut s l.slot v.stage e →
              (g.remote e n = false → (t.edge l.slot e).buoys = (s.edge l.slot e).buoys ++ [n] ∧ (t.edge l.slot e).lastBuoy = n ∧
                (t.edge l.slot e).ready.take (s.edge l.slot e).ready.length = (s.edge l.slot e).ready ∧
                ((∀ q ∈ (s.edge l.slot e).heldOut, q.frame ≠ n + 1) → (t.edge l.slot e).ready = (s.edge l.slot e).ready)) ∧
              (g.remote e n = true → (t.edge l.slot e).buoys = (s.edge l.slot e).buoys ∧ ∃ d, .datagram d ∈ t.sent.drop s.sent.length ∧
                Rule.isBuoy g (s.edge l.slot e) e n d)))) ∧
  ∀ (h : Hdr) (f : Ops) (s : State) (b : Bundle) (act : List Nat) (v : Wave), Goes (.cut h f) s b act →
    let x := actAt (.cut h f) b act
    let w := s.warp b.warp
    let l := s.warpLaunch w
    let g := s.graph l.slot
    let mask : DWord := .ofNat 64 (x.read w x.first).a
    let n : Word := .ofNat 32 (x.read w x.first).b
    let num : Word := if g.cut.prop = 0xFFFFFFFF then 1 else g.cut.prop + 1
    l.wave = some v → tagFind (s.ctx l.slot).cutTags (s.tagEntry w (Rule.tag s w x.first) (.cut h f) 0 0) = none →
    (s.ctx l.slot).graph.isSome = true →
    (cutOk s l v mask n = false → exec (.cut h f) s = .next (x.trap x.first { cause := 0x09 } (s.advance b.warp (lanesOf b.lanes) b.pc))) ∧
    (cutOk s l v mask n = true → ∃ t, exec (.cut h f) s = .next t ∧ Rule.CountedDone (.cut h f) .edge w (t.warp b.warp) ∧
      (∀ k, (t.warp b.warp).ureg k = x.uregAfter (fun _ => if g.cut.phase = .steady then num.toNat else 0) w k) ∧
      (g.cut.phase = .steady → (t.graph l.slot).cut.prop = num) ∧
      (g.cut.phase = .steady → (∀ e ∈ g.live, g.cut.mask.getLsbD e.1 ≠ mask.getLsbD e.1 → (s.performedTo l.slot e.1).toNat < n.toNat) → (t.graph l.slot).cut.phase = .waiting n ∧
        (t.graph l.slot).cut.newMask = mask ∧ (t.graph l.slot).cut.outcome = 0 ∧ (t.graph l.slot).cut.mask = g.cut.mask) ∧
      (g.cut.phase ≠ .steady → (t.graph l.slot).cut = g.cut))

/-- R207: RECHDR gives each active lane the header of the record whose scratchpad address A names, and the predicate B whether the record is a substitute; an address of no record of the block raises BOUNDS with it, in the lowest such lane. -/
def Sys2Proof.Rule.RecordHeaderRead : Prop :=
  ∀ (h : Hdr) (f : Ops) (s : State) (b : Bundle) (act : List Nat), (Instr.rechdr h f).wf = true → Goes (.rechdr h f) s b act →
    let x := actAt (.rechdr h f) b act
    let w := s.warp b.warp
    let header (l : Nat) : Option QWord := ((s.warpBlock w).records.find? fun r => r.1 == (x.read w l).a).map Prod.snd
    (∀ l ∈ act, header l = none → (∀ m ∈ act, m < l → header m ≠ none) → exec (.rechdr h f) s =
      .next (x.trap l { cause := 0x09, addr := .ofNat 64 (x.read w l).a } (s.advance b.warp (lanesOf b.lanes) b.pc))) ∧
    ((∀ l ∈ act, header l ≠ none) → ∃ t, exec (.rechdr h f) s = .next t ∧ OnlyWarp b.warp s t ∧ OnlyRegs w (t.warp b.warp) ∧
      (∀ k l, l < 64 → (t.warp b.warp).vreg k l = x.vregAfter (fun l => ((header l).getD 0).toNat) w k l) ∧
      ∀ l ∈ act, f.b.val.toNat < 7 → ((t.warp b.warp).thread l).preds.getLsbD f.b.val.toNat = decide (((header l).getD 0).toNat / 2 ^ 64 % 2 ^ 4 ≠ 0))

namespace Sys2Proof.Rule

/-- The scheduler may launch a wave of a stage on the frame it works on: the context lives, the stage exists, runs here on that frame, has had no last wave of it, and has not stalled (R319, R320). -/
def StageOpen (s : State) (slot st : Nat) : Prop :=
  let x := s.stage slot st
  (s.ctx slot).valid = true ∧ (s.ctx slot).killed = false ∧ (s.ctx slot).graph.isSome = true ∧ x.valid = true ∧ x.lastOut = false ∧
  (s.graph slot).runs st (x.lastDone + 1) = true ∧ (x.lastDone.toNat ≤ x.closed.toNat ∨ ∀ e, ¬isOut s slot st e)

/-- The records of the stage's frame that stand released on an edge. -/
def Waiting (s : State) (slot st e : Nat) : List Rec := (s.edge slot e).ready.filter fun r => r.frame == (s.stage slot st).lastDone + 1

/-- The bin edge of a context. -/
def isBin (s : State) (slot e : Nat) : Prop := ∃ r, (s.ctx slot).raster = some r ∧ e = r.bin

/-- How a wave takes records: at most maxg gangs, each 1 to batch records, as many as that allows, from the front in their order; on the bin edge one material a gang (R320, R352). -/
def Taken (s : State) (slot st e : Nat) (groups : List (List Rec)) : Prop :=
  let x := s.stage slot st
  let rs := Waiting s slot st e
  groups ≠ [] ∧ groups.length ≤ x.maxg.toNat ∧ (∀ g ∈ groups, g ≠ [] ∧ g.length ≤ x.batch.toNat) ∧
  groups.flatten = rs.take groups.flatten.length ∧ (groups.flatten = rs ∨ groups.length = x.maxg.toNat) ∧
  (¬isBin s slot e → ∀ k, k + 1 < groups.length → (groups.getD k []).length = x.batch.toNat) ∧
  (isBin s slot e → ∀ g ∈ groups, ∀ p ∈ g, ∀ q ∈ g, (natOfBytes (p.bytes.take 16)) / 2 ^ 32 % 2 ^ 32 = natOfBytes (q.bytes.take 16) / 2 ^ 32 % 2 ^ 32)

/-- A stage's template starts a wave: its record can be read, and the launch of it passes the checks of R256 and R321. -/
def Starts (s : State) (slot : Nat) (v : Wave) : Prop := (startWave slot v s).isSome = true

/-- What R316 to R319 ask of a graph that stands registered: the header's, the stages' and the edges' ranges and alignments, and a cut, 0 under role 2. -/
def Fits (g : Graph) : Prop :=
  let is (k : Nat) : Prop := (g.stages.getD k {}).valid = true
  1 ≤ g.nstages ∧ g.nstages ≤ 32 ∧ g.nedges ≤ 64 ∧ g.role.toNat ≤ 2 ∧ 1 ≤ g.hopat.toNat ∧ g.stat.toNat % 64 = 0 ∧
  (∀ x ∈ g.stages, x.valid = true → x.state.toNat % 128 = 0 ∧ x.ssize.toNat % 128 = 0 ∧ x.ssize.toNat ≤ 2 ^ 24 ∧ 1 ≤ x.batch.toNat ∧ x.batch.toNat ≤ 64 ∧
    1 ≤ x.maxg.toNat ∧ x.inoff.toNat % 64 = 0) ∧
  (∀ x ∈ g.edges, x.valid = true → x.ring.toNat % 4096 = 0 ∧ x.kc.toNat % 4096 = 0 ∧ x.stat.toNat % 64 = 0 ∧ 16 ≤ x.cap.toNat ∧
    2 ≤ x.recsz.toNat ∧ x.recsz.toNat ≤ 128 ∧ x.policy.toNat ≤ 3 ∧ 1 ≤ x.g.toNat ∧ x.g.toNat ≤ 16 ∧ 1 ≤ x.pack.toNat ∧ x.pack.toNat ≤ 16 ∧
    x.pack.toNat * x.recsz.toNat * 16 ≤ 8192 ∧ 1 ≤ x.patience.toNat ∧ 4 ≤ x.kclog.toNat ∧ x.kclog.toNat ≤ 12 ∧
    x.source < x.target ∧ is x.source ∧ is x.target ∧ (x.policy = 1 → is x.pred ∧ x.source < x.pred ∧ x.pred ≠ x.target)) ∧
  g.isCut g.cut.mask = true ∧ (g.role = 2 → g.cut.mask = 0)

end Sys2Proof.Rule

/-- R316 to R321, R352: the stage scheduler. A wave is launched for records of the frame that an open stage works on and that stand released on one of its input edges: it carries as many as maxg gangs of batch records take, in their order, one material a gang on the bin edge, and those it carries leave the edge's released records, the others stay. The last wave of a frame comes when its waves have retired and its inputs are done (for a stage without inputs, when gfopen reached it); it has one gang and no records, and closes the stage to more. A wave is a launch of the stage's template, whose launch must pass its checks. gfopen takes only the frame after it. A write of graphbase sets it; 0 leaves a context without a graph, and a graph that it registers holds what R319 asks. -/
def Sys2Proof.Rule.WavesAreLaunched : Prop :=
  (∀ (slot st e : Nat) (s : State), Rule.StageOpen s slot st → (s.edge slot e).valid = true → (s.edge slot e).target = st →
    Rule.Waiting s slot st e ≠ [] → 1 ≤ (s.stage slot st).batch.toNat → 1 ≤ (s.stage slot st).maxg.toNat →
    (∀ n, 1 ≤ n → n ≤ (s.stage slot st).maxg.toNat → Rule.Starts s slot
      { stage := st, frame := (s.stage slot st).lastDone + 1, edge := some e, pred := false, last := false, batches := List.replicate n [] }) →
    ∃ u l v groups, exec (.recordWaveLaunch slot st e) s = .next u ∧ u.launches = s.launches ++ [l] ∧ l.wave = some v ∧ l.slot = slot ∧
      l.record.gangs.toNat = groups.length ∧ v.stage = st ∧ v.frame = (s.stage slot st).lastDone + 1 ∧ v.edge = some e ∧ v.pred = false ∧ v.last = false ∧
      Rule.Taken s slot st e groups ∧ v.batches = groups.map (fun g => g.map fun r => r.bytes) ∧
      v.firsts = groups.map (fun g => ((g.head?).map fun r => r.seq).getD 0) ∧
      (u.edge slot e).ready = (s.edge slot e).ready.filter (fun r => !groups.flatten.contains r) ∧
      (u.stage slot st).lastOut = false ∧ ∀ k, k ≠ e → u.edge slot k = s.edge slot k) ∧
  (∀ (slot st : Nat) (s : State), Rule.StageOpen s slot st → st < (s.graph slot).stages.length →
    let f := (s.stage slot st).lastDone + 1
    let isIn (e : Nat) : Prop := (s.edge slot e).valid = true ∧ (s.edge slot e).target = st
    (∀ l ∈ s.launches, ∀ v, l.slot = slot → l.wave = some v → v.stage = st → v.frame = f → l.state = .ended 0) →
    (∀ e, isIn e → f ∈ (s.edge slot e).buoys ∧ Rule.Waiting s slot st e = []) → ((∀ e, ¬isIn e) → f.toNat ≤ (s.graph slot).gfopen.toNat) →
    Rule.Starts s slot { stage := st, frame := f, edge := none, pred := false, last := true } →
    ∃ u l v, exec (.lastWaveLaunch slot st) s = .next u ∧ u.launches = s.launches ++ [l] ∧ l.wave = some v ∧ l.slot = slot ∧ l.record.gangs = 1 ∧
      v.stage = st ∧ v.frame = f ∧ v.edge = none ∧ v.pred = false ∧ v.last = true ∧ v.batches = [] ∧
      (u.stage slot st).lastOut = true ∧ ∀ k, u.edge slot k = s.edge slot k) ∧
  (∀ (slot : Nat) (v : Word) (s : State), slot < 256 → ∃ t, exec (.gfopenWrite slot v) s = .next t ∧ t = { s with ctxs := t.ctxs } ∧
    ((s.ctx slot).graph.isSome = true →
      (t.graph slot).gfopen = if v.toNat = (s.graph slot).gfopen.toNat + 1 then v else (s.graph slot).gfopen)) ∧
  (∀ (slot : Nat) (s : State), slot < 256 → ∃ t, exec (.graphbaseWrite slot 0) s = .next t ∧
    (t.ctx slot) = { s.ctx slot with graphbase := 0, graph := none } ∧ ∀ k, k ≠ slot → t.ctx k = s.ctx k) ∧
  ∀ (slot : Nat) (v : DWord) (s : State), slot < 256 → ∃ t, exec (.graphbaseWrite slot v) s = .next t ∧ (t.ctx slot).graphbase = v ∧
    ∀ g, (t.ctx slot).graph = some g → v.toNat % 4096 = 0 ∧ v ≠ 0 ∧ (s.ctx slot).valid = true ∧ Rule.Fits g

namespace Sys2Proof.Rule

/-- A receiver once the frame named has arrived, with its N of the frame before known where it was not (R328, R331). -/
def learnt (x : Receiver) (f n : Nat) : Store (Option Nat) :=
  if x.openFrame.toNat ≤ f ∧ Store.get none x.counts f = none then Store.put none x.counts f (some n) else x.counts
def latest (x : Receiver) (f : Word) : Word := if x.latest.toNat < f.toNat then f else x.latest

end Sys2Proof.Rule

/-- R324, R328, R330, R336: Tolver frames of edges at the near part. One of another graph or of no edge is counted at the edge it names, or in the graph's status where there is none; the far part takes none. On an edge that is remote for its frame, with no move of the cut and no hand-over pending: records of a frame below the open one count as late and change nothing else; a data frame above it that would overfill the buffer is dropped, and one that does not hold its count of records has no effect (log 63); else its records are held in their places (a copy of one held or released is not), N of the frame before is learnt, and what can be recovered, released and closed is. Parity, keys and buoy frames below the open frame are ignored; above, a buoy tells N of its frame, a parity frame its group's members, first seq and XOR, a keys frame its keys. -/
def Sys2Proof.Rule.TolverFramesArrive : Prop :=
  (∀ (slot : Nat) (x : TolverFrame) (s : State) (i : Instr), (s.ctx slot).graph.isSome = true →
    i = .tolverDataFrame slot x ∨ i = .tolverParityFrame slot x ∨ i = .tolverKeysFrame slot x ∨ i = .tolverBuoyFrame slot x →
    let e := x.edge.toNat
    let up (v : Word) : Nat := min (2 ^ 32 - 1) (v.toNat + 1)
    (x.gid ≠ (s.graph slot).gid ∨ (s.edge slot e).valid = false → ∃ t, exec i s = .next t ∧ (t.edge slot e).rx = (s.edge slot e).rx ∧
      ((s.edge slot e).valid = true → e < (s.graph slot).edges.length → (t.edge slot e).crcbad.toNat = up (s.edge slot e).crcbad) ∧
      ((s.edge slot e).valid = false → (t.graph slot).crcbad.toNat = up (s.graph slot).crcbad)) ∧
    (x.gid = (s.graph slot).gid → (s.edge slot e).valid = true → (s.graph slot).role ≠ 1 → exec i s = .next s)) ∧
  ∀ (slot : Nat) (x : TolverFrame) (s : State), (s.ctx slot).graph.isSome = true → x.gid = (s.graph slot).gid →
    (s.edge slot x.edge.toNat).valid = true → (s.graph slot).role = 1 → (s.graph slot).cut.phase = .steady →
    (∀ h ∈ (s.graph slot).cut.heard, h.segments.length < h.count) →
    x.edge.toNat < (s.graph slot).edges.length → (s.graph slot).remote x.edge.toNat x.frame = true →
    let e := x.edge.toNat
    let rx := (s.edge slot e).rx
    let old := x.frame.toNat < rx.openFrame.toNat
    (dataOk s slot x = false → exec (.tolverDataFrame slot x) s = .next s) ∧
    (dataOk s slot x = true → 1 ≤ (s.edge slot e).size →
      (old → ∃ t, exec (.tolverDataFrame slot x) s = .next t ∧ (t.edge slot e).rx = rx ∧ (t.edge slot e).ready = (s.edge slot e).ready ∧
        (t.edge slot e).late.toNat = min (2 ^ 32 - 1) ((s.edge slot e).late.toNat + x.count.toNat)) ∧
      (¬old → (rx.openFrame = x.frame ∨ (rx.held.filter fun r => decide (rx.openFrame.toNat < r.frame.toNat)).length + x.count.toNat ≤ 4 * (s.edge slot e).cap.toNat) →
        rx.predicting = none →
        ∃ t, exec (.tolverDataFrame slot x) s = .next (advance slot e t) ∧
          (t.edge slot e).rx.counts = Rule.learnt rx (x.frame.toNat - 1) x.prevcnt.toNat ∧ (t.edge slot e).rx.latest = Rule.latest rx x.frame ∧
          (∀ r ∈ rx.held, r ∈ (t.edge slot e).rx.held) ∧
          ∀ k < x.count.toNat, (∃ r ∈ (t.edge slot e).rx.held, r.frame = x.frame ∧ r.seq = x.seq.toNat + k) ∨
            (x.frame = rx.openFrame ∧ x.seq.toNat + k < rx.next))) ∧
    (parityOk s slot x = true →
      ∃ t, exec (.tolverParityFrame slot x) s = .next (if old then t else advance slot e t) ∧ (t.edge slot e).rx.held = rx.held ∧
        (t.edge slot e).rx.counts = Rule.learnt rx (x.frame.toNat - 1) x.prevcnt.toNat ∧
        (¬old → ∃ g ∈ (t.edge slot e).rx.groups, g.frame = x.frame ∧ g.grp = x.grp ∧ g.members = x.g.toNat ∧ g.firstSeq = some x.seq.toNat ∧
          g.parity = some (x.body.take (x.count.toNat * (s.edge slot e).size), x.aux))) ∧
    (∃ t, exec (.tolverKeysFrame slot x) s = .next (if old then t else advance slot e t) ∧ (t.edge slot e).rx.held = rx.held ∧
      (¬old → ∃ g ∈ (t.edge slot e).rx.groups, g.frame = x.frame ∧ g.grp = x.grp ∧ g.members = x.g.toNat ∧ g.firstSeq = some x.seq.toNat)) ∧
    (old → exec (.tolverBuoyFrame slot x) s = .next s) ∧
    (¬old → ∃ t, exec (.tolverBuoyFrame slot x) s = .next (advance slot e t) ∧ (t.edge slot e).rx.held = rx.held ∧
      (t.edge slot e).rx.counts = Rule.learnt rx x.frame.toNat x.seq.toNat ∧ (t.edge slot e).rx.latest = Rule.latest rx x.frame)

/-- R331 to R335: what stands in for a missing record. The frame is done with the records held and, for each seq that is missing: under policy 3 nothing; with no key known, or nothing cached for it, a record of zeros of kind 3; under policy 0 the newest record with its key, kind 1, with its origin; under policy 1 what the predictor performed for it, kind 2, of the frame before. Patience run out starts the predictor wave where policy 1 has a key, else finishes the frame; a retired predictor wave finishes it. -/
def Sys2Proof.Rule.MissingRecordsSubstituted : Prop :=
  (∀ (x : Edge) (f : Word) (seq : Nat) (key : Option Word) (pred : Option (List Byte)), x.policy = 0 ∨ x.policy = 1 ∨ x.policy = 2 ∨ x.policy = 3 →
    let zero (k : Word) : Rec := Rule.recordOf f k 3 seq f (List.replicate (x.size - 16) 0)
    (x.policy = 3 → x.substitute f seq key pred = none) ∧
    (x.policy ≠ 3 → key = none → x.substitute f seq key pred = some (zero 0)) ∧
    ∀ k, key = some k → x.policy ≠ 3 →
      (x.cached k = [] → x.substitute f seq key pred = some (zero k)) ∧
      ∀ r rest, x.cached k = r :: rest →
        (x.policy = 0 → x.substitute f seq key pred = some (Rule.recordOf f k 1 seq r.origin (r.bytes.drop 16))) ∧
        (x.policy ≠ 0 → ∀ p, pred = some p → x.substitute f seq key pred = some (Rule.recordOf f k 2 seq (f - 1) p)) ∧
        (x.policy ≠ 0 → pred = none → x.substitute f seq key pred = some (zero k))) ∧
  (∀ (slot e : Nat) (s : State), patienceDue s slot e = true → (s.edge slot e).policy ≠ 1 → (s.ctx slot).graph.isSome = true →
    let rx := (s.edge slot e).rx
    let top := ((rx.held.filter fun r => r.frame == rx.openFrame).map fun r => r.seq + 1).foldl max rx.next
    let n := (Store.get none rx.counts rx.openFrame.toNat).getD top
    let missing := ((List.range (n - rx.next)).map (rx.next + ·)).filter fun k => !rx.held.any fun r => r.frame == rx.openFrame && r.seq == k
    ∃ t, exec (.patienceExpiry slot e) s = .next (finishFrame slot e n (missing.map fun k => (k, rx.resolve k, none)) t) ∧
      (t.edge slot e).rx = { rx with patience := none, counts := Store.put none rx.counts rx.openFrame.toNat (some n) } ∧
      (Store.get none rx.counts rx.openFrame.toNat = none → (t.edge slot e).tail.toNat = min (2 ^ 32 - 1) ((s.edge slot e).tail.toNat + 1))) ∧
  ∀ (slot e : Nat) (p : Predicting) (s : State), predictorDone s slot e = true → (s.edge slot e).rx.predicting = some p →
    let rx := (s.edge slot e).rx
    ∃ t, exec (.predictorWaveRetire slot e) s = .next (finishFrame slot e ((Store.get none rx.counts rx.openFrame.toNat).getD 0)
        (pairPredicted p.missing p.got) t) ∧ (t.edge slot e).rx = { rx with predicting := none } ∧ t.mem = s.mem

namespace Sys2Proof.Rule

/-- Type, frame, complete, segment and proposal of an ack's header (R324, R338). -/
def ackFields (h : Nat) : Nat × Nat × Bool × Nat × Nat := (h / 2 ^ 232 % 2 ^ 4, h / 2 ^ 176 % 2 ^ 32, h.testBit 63, h / 2 ^ 32 % 2 ^ 16, h % 2 ^ 32)

end Sys2Proof.Rule

/-- R324, R338 to R341: the sub-channel. A frame of it that names another graph or an edge is counted. A propose at the near part is acked and sets the number that its status shows, and one of a new number with no move pending opens PREP with its frame and mask; an ack of the propose, of a segment, or of the whole takes what it names off what is kept for resending, and the whole puts the far part into HELD; a segment of a hand-over that a far part does not take is ignored, any other is acked and kept with the segments of its frame and number, those of other hand-overs staying as they are; a segment of a hand-over that was completed gets its complete ack again; a resend sends all that is unacked and starts the count anew; a hand-over that is due leaves in segments, with SENT. -/
def Sys2Proof.Rule.CutChannelMoves : Prop :=
  (∀ (slot : Nat) (x : TolverFrame) (s : State) (i : Instr), (s.ctx slot).graph.isSome = true →
    i = .tolverProposeFrame slot x ∨ i = .tolverAckFrame slot x ∨ i = .tolverHandoverFrame slot x →
    x.gid ≠ (s.graph slot).gid ∨ x.edge ≠ 0xFF →
    ∃ t, exec i s = .next t ∧ (t.graph slot).crcbad.toNat = min (2 ^ 32 - 1) ((s.graph slot).crcbad.toNat + 1) ∧ (t.graph slot).cut = (s.graph slot).cut) ∧
  (∀ (slot : Nat) (x : TolverFrame) (s : State), (s.ctx slot).graph.isSome = true → x.gid = (s.graph slot).gid → x.edge = 0xFF →
    let g := s.graph slot
    let num : Word := .ofNat 32 (x.seq.toNat * 256 + x.prevcnt.toNat / 2 ^ 16)
    let seg := x.aux.toNat / 2 ^ 32 % 2 ^ 16
    let kept := g.cut.unacked.filter fun u => u.1 == 0xFFFF
    let answers (done : Bool) (index : Nat) (t : State) : Prop := ∃ before d, t.sent = before ++ [.datagram d] ∧ d.port = g.port ∧ d.dst = g.peer ∧
      d.lport = g.lport ∧ d.pport = g.pport ∧ d.bytes.length = 36 ∧ Rule.ackFields (natOfBE (d.bytes.take 32)) = (4, x.frame.toNat, done, index, num.toNat)
    (g.role = 1 → ∃ t, exec (.tolverProposeFrame slot x) s = .next t ∧ answers true 0xFFFF t ∧
      (g.cut.phase = .steady → num ≠ g.cut.num → (t.graph slot).cut =
        { g.cut with num := num, prop := num, outcome := 0, slides := 0, phase := .prep x.frame, first := x.frame, newMask := x.aux, downstream := true }) ∧
      (g.cut.phase ≠ .steady ∨ num = g.cut.num → (t.graph slot).cut = { g.cut with prop := num })) ∧
    (g.role ≠ 1 → exec (.tolverProposeFrame slot x) s = .next s) ∧
    (num ≠ g.cut.num → exec (.tolverAckFrame slot x) s = .next s) ∧
    (num = g.cut.num → seg = 0xFFFF → ∃ t, exec (.tolverAckFrame slot x) s = .next t ∧ t = { s with ctxs := t.ctxs } ∧
      (t.graph slot).cut = { g.cut with unacked := g.cut.unacked.filter fun u => u.1 != 0xFFFF }) ∧
    (num = g.cut.num → seg ≠ 0xFFFF → g.cut.phase ≠ .sent x.frame → exec (.tolverAckFrame slot x) s = .next s) ∧
    (num = g.cut.num → seg ≠ 0xFFFF → g.cut.phase = .sent x.frame → ∃ t, exec (.tolverAckFrame slot x) s = .next t ∧ t = { s with ctxs := t.ctxs } ∧
      (x.aux.getLsbD 63 = false → (t.graph slot).cut = { g.cut with unacked := g.cut.unacked.filter fun u => u.1 != seg }) ∧
      (x.aux.getLsbD 63 = true → (t.graph slot).cut = { g.cut with unacked := kept, phase := if g.role = 0 then .held x.frame else g.cut.phase })) ∧
    let takes : Prop := g.role = 1 ∨ (g.role = 0 ∧ g.cut.downstream = true ∧ num = g.cut.num ∧ ∃ p, g.cut.phase = .waiting p ∧ p.toNat ≤ x.frame.toNat)
    let count := x.aux.toNat / 2 ^ 32 % 2 ^ 16
    let index := x.aux.toNat / 2 ^ 48
    let mine (h : Heard) : Bool := h.frame == x.frame && h.num == num
    let shown : Word := if g.role = 1 then num else g.cut.prop
    (¬takes → (∀ a ∈ g.cut.answered, ¬(a.1 = x.frame ∧ a.2.1 = num)) → exec (.tolverHandoverFrame slot x) s = .next s) ∧
    (∀ a, g.cut.answered.find? (fun a => decide (a.1 = x.frame ∧ a.2.1 = num)) = some a → ∃ t, exec (.tolverHandoverFrame slot x) s = .next t ∧
      answers true (a.2.2.toNat / 2 ^ 32 % 2 ^ 16) t ∧ (t.graph slot).cut = { g.cut with prop := shown }) ∧
    (takes → (∀ a ∈ g.cut.answered, ¬(a.1 = x.frame ∧ a.2.1 = num)) → (∀ h ∈ g.cut.heard, (h.segments.length < h.count)) →
      (g.cut.heard.filter mine = [] → 1 < count) → (∀ h ∈ g.cut.heard, mine h = true → h.segments.length + 1 < h.count) →
      ∃ t, exec (.tolverHandoverFrame slot x) s = .next t ∧ answers false index t ∧
        (t.graph slot).cut = { g.cut with prop := shown, heard := (t.graph slot).cut.heard } ∧
        (∀ h, mine h = false → (h ∈ (t.graph slot).cut.heard ↔ h ∈ g.cut.heard)) ∧
        ∃ h ∈ (t.graph slot).cut.heard, mine h = true ∧ h.last = index ∧ Store.get [] h.segments index = x.body ∧
          ∀ k, k ≠ index → Store.get [] h.segments k = match g.cut.heard.find? mine with
            | some old => Store.get [] old.segments k
            | none => [])) ∧
  (∀ (slot : Nat) (s : State), let g := s.graph slot
    g.cut.unacked ≠ [] → g.hopat.toNat ≤ g.cut.resend → (s.ctx slot).graph.isSome = true → ∃ t, exec (.subchannelResend slot) s = .next t ∧
      t.sent = s.sent ++ (t.sent.drop s.sent.length) ∧ (t.graph slot).cut = { g.cut with resend := 0 } ∧
      (t.sent.drop s.sent.length).length = g.cut.unacked.length ∧ ∀ (k : Nat) u, g.cut.unacked[k]? = some u → ∃ d, t.sent[s.sent.length + k]? = some (.datagram d) ∧
        d.port = g.port ∧ d.dst = g.peer ∧ d.lport = g.lport ∧ d.pport = g.pport ∧ d.bytes = u.2) ∧
  (∀ (slot : Nat) (f : Word) (s : State), handoverDue s slot = some f → (s.ctx slot).graph.isSome = true → s.stall = none →
    (1 < f.toNat ∨ ∀ k a, migrating s k a = false) →
    ∃ t, exec (.handoverSend slot) s = .next t ∧ (t.graph slot).cut.phase = .sent f ∧ s.sent.length < t.sent.length) ∧
  ∀ (p : Bool) (s : State), s.ports.length = 2 → ∃ t, exec (.receivedFrameDropped (.badFcs p)) s = .next t ∧ t = { s with ports := t.ports } ∧
    ∀ k < 2, (t.ports.getD k {}).drop.toNat = if k = p.toNat then min (2 ^ 32 - 1) ((s.ports.getD k {}).drop.toNat + 1) else (s.ports.getD k {}).drop.toNat

/-! ## The rendering pipeline (R209 to R211, R345 to R356) -/

namespace Sys2Proof.Rule

/-- The wave that a separating or binning stage issues for, and its context's raster record (R347, R351). -/
def Drawing (s : State) (l : Launch) (edge : Raster → Nat) (v : Wave) (r : Raster) : Prop :=
  l.wave = some v ∧ v.pred = false ∧ (s.ctx l.slot).raster = some r ∧ (s.edge l.slot (edge r)).valid = true ∧
    (s.edge l.slot (edge r)).source = v.stage

/-- x > y on FP32 codes (R65). -/
def above (x y : Nat) : Bool := floatCondition .gt (order (f32Fmt.value x) (f32Fmt.value y))

/-- The edge function of p → q at (x, y), and whether the edge covers the point (R348). -/
def edgeFunction (p q : Snapped) (x y : Int) : Int := (q.x - p.x) * (y - p.y) - (q.y - p.y) * (x - p.x)
def Covers (p q : Snapped) (x y : Int) : Prop :=
  0 < edgeFunction p q x y ∨ (edgeFunction p q x y = 0 ∧ (0 < q.y - p.y ∨ (q.y - p.y = 0 ∧ q.x - p.x < 0)))

/-- The payload of a skim record (R347). -/
def skimRecord (bs : List Byte) (ident : Nat) (clipped : Bool) (det : Int) : List Byte :=
  bs ++ bytesOfNat 4 ident ++ bytesOfNat 4 (if clipped then 1 else 0) ++ bytesOfNat 8 (wrap 64 det)

/-- Pixel p of the bin of (material m, tile t) of a frame is set (R351). -/
def inBin (bins : List Bin) (f : Word) (m t p : Nat) : Bool :=
  match bins.find? fun b => b.frame = f && b.material = m && b.tile = t with
  | some b => b.mask.getLsbD p
  | none => false

end Sys2Proof.Rule

/-- R345, R346: the fate of a triangle, by the first row of the table that applies; det is twice the signed area of the snapped vertices. -/
def Sys2Proof.Rule.TriangleFate : Prop :=
  ∀ (r : Raster) (sepa cull draw : Nat) (bs : List Byte),
    let v := vertexAt bs
    let p (k : Nat) : Snapped := snap r draw k (v k)
    let det := ((p 1).x - (p 0).x) * ((p 2).y - (p 0).y) - ((p 2).x - (p 0).x) * ((p 1).y - (p 0).y)
    let nan : Prop := ∃ k < 3, f32Fmt.value (v k).x = .nan ∨ f32Fmt.value (v k).y = .nan ∨ f32Fmt.value (v k).z = .nan ∨ f32Fmt.value (v k).w = .nan
    let minus (c : Nat) : Nat := c ^^^ 2 ^ 31
    let outside (c : Vertex → Nat) : Prop :=
      (∀ k < 3, Rule.above (c (v k)) (v k).w = true) ∨ (∀ k < 3, Rule.above (minus (v k).w) (c (v k)) = true)
    let culled : Prop := (det < 0 ∧ cull % 2 = 1) ∨ (0 < det ∧ cull / 2 % 2 = 1)
    (nan → fateOf r sepa cull draw bs = .dropped) ∧
    (¬nan → outside Vertex.x ∨ outside Vertex.y → fateOf r sepa cull draw bs = .dropped) ∧
    (¬nan → ¬outside Vertex.x → ¬outside Vertex.y →
      ((∃ k < 3, Rule.above (v k).w 0 = false) → fateOf r sepa cull draw bs = .skim true 0) ∧
      ((∀ k < 3, Rule.above (v k).w 0 = true) →
        (det = 0 ∨ culled → fateOf r sepa cull draw bs = .dropped) ∧
        (det ≠ 0 → ¬culled → fateOf r sepa cull draw bs =
          if 131072 * (sepa : Int) ≤ |det| then .cream (p 0) (p 1) (p 2) det else .skim false det)))

/-- R348, R349: the pixel events of a cream triangle, one for each pixel that is covered and whose depth lies from 0 to 1. With the vertices in the order that makes the area positive, a pixel inside the target is covered when each edge covers its centre; its event is at vis + 8 × (px + width × py), with the depth's complement above the identifier. -/
def Sys2Proof.Rule.CoveredPixelsAreDrawn : Prop :=
  ∀ (r : Raster) (ident : Nat) (a b c : Snapped) (det : Int), det = (b.x - a.x) * (c.y - a.y) - (c.x - a.x) * (b.y - a.y) → det ≠ 0 →
    let q := if det < 0 then c else b
    let u := if det < 0 then b else c
    let x (px : Nat) : Int := 256 * px + 128
    let depth (px py : Nat) : Nat := depthAt a q u det (x px) (x py)
    let drawn (px py : Nat) : Prop := Rule.Covers a q (x px) (x py) ∧ Rule.Covers q u (x px) (x py) ∧ Rule.Covers u a (x px) (x py) ∧
      f32Fmt.value (depth px py) ≠ .nan ∧ Rule.above 0 (depth px py) = false ∧ Rule.above (depth px py) 0x3F800000 = false
    let place (px py : Nat) : Nat := r.vis.toNat + 8 * (px + r.width.toNat * py)
    let word (px py : Nat) : DWord := .ofNat 64 ((2 ^ 32 - 1 - depth px py) * 2 ^ 32 + ident)
    (∀ px py, px < r.width.toNat → py < r.height.toNat → ∀ wd, (place px py, wd) ∈ pixelEvents r ident a b c det ↔ drawn px py ∧ wd = word px py) ∧
    (∀ e ∈ pixelEvents r ident a b c det, ∃ px py, px < r.width.toNat ∧ py < r.height.toNat ∧ e.1 = place px py) ∧
    ((pixelEvents r ident a b c det).map Prod.fst).Nodup

/-- R209, R212, R347: TRISUB outside a wave of the skim edge's stage raises BOUNDS, and so does an address beyond the scratchpad; a misaligned one raises ALIGNMENT. Else each active lane's triangle is accepted, in ascending order: a cream one stands with the rasteriser with its pixel events, a skim one is performed as a record on the skim edge (here: local, with room for all, the frame being worked on), with its sequence number and payload. -/
def Sys2Proof.Rule.TrianglesAreAccepted : Prop :=
  ∀ (h : Hdr) (f : Ops) (s : State) (b : Bundle) (act : List Nat), Goes (.trisub h f) s b act →
    let x := actAt (.trisub h f) b act
    let w := s.warp b.warp
    let l := s.warpLaunch w
    let cl := (s.warpGang w).cluster
    let addr (k : Nat) : Nat := (x.read w k).a
    let inside (k : Nat) : Prop := (scrTarget s w (addr k) 48).isSome = true
    let s1 := s.advance b.warp (lanesOf b.lanes) b.pc
    let drawing : Prop := ∃ v r, Rule.Drawing s l Raster.skim v r
    (¬drawing → exec (.trisub h f) s = .next (x.trap x.first { cause := 0x09 } s1)) ∧
    (drawing → ∀ k ∈ act, ¬inside k → (∀ m ∈ act, m < k → inside m) →
      exec (.trisub h f) s = .next (x.trap k { cause := 0x09, addr := .ofNat 64 (addr k) } s1)) ∧
    (drawing → (∀ k ∈ act, inside k) → ∀ k ∈ act, addr k % 16 ≠ 0 → (∀ m ∈ act, m < k → addr m % 16 = 0) →
      exec (.trisub h f) s = .next (x.trap k { cause := 0x02, addr := .ofNat 64 (addr k) } s1)) ∧
    ∀ v r (bytes : Nat → List Byte), Rule.Drawing s l Raster.skim v r → (∀ k ∈ act, readScr s w (addr k) 48 = .bytes (bytes k) ∧ addr k % 16 = 0) →
      (∀ k ∈ act, tagHit (separatorTags s cl) (s.tagEntry w (Rule.tag s w k) (.trisub h f) (addr k) 0) = none) →
      (separatorTags s cl).length + act.length ≤ 32 → (s.ctx l.slot).graph.isSome = true → r.skim < (s.graph l.slot).edges.length →
      (∀ e, (s.edge l.slot e).pending = []) → (s.graph l.slot).cut.phase = .steady → (s.graph l.slot).remote r.skim v.frame = false →
      v.frame = (s.stage l.slot v.stage).closed + 1 → 0 < v.frame.toNat → (s.graph l.slot).waitsLocal r.skim v.frame = false →
      let ed := s.edge l.slot r.skim
      ed.occupied + (s.graph l.slot).heldLocal r.skim + act.length ≤ ed.cap.toNat →
      (∀ i < act.length, ∀ j < ed.size, Rule.Reached s ((s.ctx l.slot).space.loc (ed.ring.toNat + (ed.ringAt + i) % ed.cap.toNat * ed.size + j)) .write) →
      let sepa := (s.cluster cl).sepa.toNat
      let ident (k : Nat) : Nat := (x.read w k).b
      let fate (e : Nat × Nat) : Fate := fateOf r sepa (x.read w e.1).c (s.draws + e.2) (bytes e.1)
      let creams : List Tri := act.zipIdx.filterMap fun e => match fate e with
        | .cream p q u det => some { slot := l.slot, stage := v.stage, frame := v.frame, gang := w.gang, warp := b.warp, lane := e.1, pc := b.pc
                                     todo := pixelEvents r (ident e.1) p q u det, stamp := s.draws + e.2 }
        | _ => none
      let skims : List (Nat × List Byte) := act.zipIdx.filterMap fun e => match fate e with
        | .skim clipped det => some (ident e.1, Rule.skimRecord (bytes e.1) (ident e.1) clipped det)
        | _ => none
      let n := Store.get 0 ed.seqs v.frame.toNat
      let record (e : (Nat × List Byte) × Nat) : Rec :=
        let y := Rule.recordOf v.frame (.ofNat 32 e.1.1) 0 (n + e.2) v.frame e.1.2
        { y with ring := true }
      ∃ t, exec (.trisub h f) s = .next t ∧ t.tris = s.tris ++ creams ∧ (t.edge l.slot r.skim).ready = ed.ready ++ skims.zipIdx.map record ∧
        (skims = [] → t.mem = s.mem) ∧ (t.warp b.warp).vregs = w.vregs ∧ (t.warp b.warp).uregs = w.uregs ∧ ∀ u, u ≠ b.warp → t.warp u = s.warp u

/-- R349, R350: one pixel event of a triangle is performed, whichever the machine's free choice names, on the committed word: its maximum with the event's word; every gang reads it, every other byte reads as before, and the triangle has one event less, or stands there no more. -/
def Sys2Proof.Rule.PixelEventIsAMaximum : Prop :=
  ∀ (k : Nat) (s : State) (tri : Tri) (e : Nat × DWord), rasterReady s k = true → s.tris[k]? = some tri →
    tri.todo[nextPixel s tri]? = some e →
    let loc := (s.ctx tri.slot).space.loc (e.1 % 2 ^ 60)
    e.1 < 2 ^ 60 → e.1 % 8 = 0 → Rule.Reached s loc .write → poisonedAt s none .line loc 8 = false →
    let old := Rule.number (fun j => homeByte s none (loc + j)) 8
    ∃ t, exec (.triangleRasterise k) s = .next t ∧
      (∀ g j, j < 8 → homeByte t g (loc + j) = .ofNat 8 (max old e.2.toNat / 256 ^ j)) ∧
      (∀ g q, (q < loc ∨ loc + 8 ≤ q) → homeByte t g q = homeByte s g q) ∧ t.warps = s.warps ∧
      (tri.todo.length = 1 → t.tris = s.tris.eraseIdx k) ∧
      (1 < tri.todo.length → t.tris = s.tris.set k { tri with todo := tri.todo.eraseIdx (nextPixel s tri) })

/-- R209, R351: MBIN outside a wave of the bin edge's stage, or with a tile beyond the target, raises BOUNDS; so does, in its lane, a material above 4,095 or a pixel above 1,023. Else exactly the bits of its pixels are set in the bins of its frame, material and tile (here: with room in the store and in the tag window), and no other pixel of any bin changes. -/
def Sys2Proof.Rule.PixelsAreBinned : Prop :=
  ∀ (h : Hdr) (f : Ops) (s : State) (b : Bundle) (act : List Nat), Goes (.mbin h f) s b act →
    let x := actAt (.mbin h f) b act
    let w := s.warp b.warp
    let l := s.warpLaunch w
    let tile := (x.read w x.first).c
    let tiles (r : Raster) : Nat := ((r.width.toNat + 31) / 32) * ((r.height.toNat + 31) / 32)
    let inside (k : Nat) : Prop := (x.read w k).a ≤ 4095 ∧ (x.read w k).b ≤ 1023
    let s1 := s.advance b.warp (lanesOf b.lanes) b.pc
    let drawing : Prop := ∃ v r, Rule.Drawing s l Raster.bin v r ∧ tile < tiles r
    (¬drawing → exec (.mbin h f) s = .next (x.trap x.first { cause := 0x09 } s1)) ∧
    (drawing → ∀ k ∈ act, ¬inside k → (∀ m ∈ act, m < k → inside m) → exec (.mbin h f) s = .next (x.trap k { cause := 0x09 } s1)) ∧
    ∀ v r, Rule.Drawing s l Raster.bin v r → tile < tiles r → (∀ k ∈ act, inside k) →
      (∀ k ∈ act, tagHit (s.ctx l.slot).cutTags (s.tagEntry w (Rule.tag s w k) (.mbin h f) 0 0) = none) →
      (s.ctx l.slot).cutTags.length + act.length ≤ 32 → (s.ctx l.slot).bins.length + act.length ≤ 65536 →
      (s.ctx l.slot).bins.Pairwise (fun p q => p.before q = true) → (∀ e, (s.edge l.slot e).pending = []) →
      ∃ t, exec (.mbin h f) s = .next t ∧ t.mem = s.mem ∧ t.tris = s.tris ∧ (∀ u, u ≠ b.warp → t.warp u = s.warp u) ∧
        (t.warp b.warp).vregs = w.vregs ∧ (t.warp b.warp).uregs = w.uregs ∧ (t.ctx l.slot).bins.Pairwise (fun p q => p.before q = true) ∧
        ∀ g m tt p, Rule.inBin (t.ctx l.slot).bins g m tt p = true ↔ Rule.inBin (s.ctx l.slot).bins g m tt p = true ∨
          (g = v.frame ∧ tt = tile ∧ ∃ k ∈ act, m = (x.read w k).a ∧ p = (x.read w k).b)

/-- R210: ATTR. With a(v) the scratchpad word at B + 128 v + 4 k, D := a(0) × (1 − b1 − b2) + a(1) × b1 + a(2) × b2, exact, rounded once to nearest; b1 and b2 are the words of A. A word outside the scratchpad raises BOUNDS in its lane. -/
def Sys2Proof.Rule.AttributesInterpolated : Prop :=
  ∀ (h : Hdr) (f : Ops) (s : State) (b : Bundle) (act : List Nat), (Instr.attr h f).wf = true → Goes (.attr h f) s b act →
    let x := actAt (.attr h f) b act
    let w := s.warp b.warp
    let addr (l v : Nat) : Nat := ((x.read w l).b + 128 * v + 4 * (x.read w l).c) % 2 ^ 32
    let inside (l : Nat) : Prop := ∀ v < 3, (scrTarget s w (addr l v) 4).isSome = true
    (∀ l ∈ act, ¬inside l → (∀ m ∈ act, m < l → inside m) → ∃ v < 3, exec (.attr h f) s =
      .next (x.trap l { cause := 0x09, addr := .ofNat 64 (addr l v) } (s.advance b.warp (lanesOf b.lanes) b.pc))) ∧
    ∀ a : Nat → Nat → Nat, (∀ l ∈ act, ∀ v < 3, readScr s w (addr l v) 4 = .bytes (bytesOfNat 4 (a l v)) ∧ a l v < 2 ^ 32) →
      let value (l : Nat) : Nat :=
        let m (v : Nat) : Machine.Num := f32Fmt.value (a l v)
        let b1 := f32Fmt.value ((x.read w l).a % 2 ^ 32)
        let b2 := f32Fmt.value ((x.read w l).a / 2 ^ 32)
        let minus (n : Machine.Num) : Machine.Num := Machine.Num.mul (.fin true 1 0) n
        let plus := Machine.Num.add false
        f32Fmt.round .rn (plus (plus (Machine.Num.mul (m 0) (plus (plus (.fin false 1 0) (minus b1)) (minus b2))) (Machine.Num.mul (m 1) b1))
          (Machine.Num.mul (m 2) b2))
      ∃ t, exec (.attr h f) s = .next t ∧ OnlyWarp b.warp s t ∧ Wrote x value w (t.warp b.warp)

namespace Sys2Proof.Rule

/-- The byte offsets of the fields of a texture descriptor that fail their checks (R353), for the dimension an instruction asks for. -/
def badFields (dim x : Nat) : List Nat :=
  let wm1 := x / 2 ^ 432 % 2 ^ 16
  let hm1 := x / 2 ^ 416 % 2 ^ 16
  let dm1 := x / 2 ^ 400 % 2 ^ 16
  let lm1 := x / 2 ^ 396 % 2 ^ 4
  let type := x / 2 ^ 394 % 4
  let fmt := x / 2 ^ 384 % 2 ^ 8
  let astc : Bool := 0x10 ≤ fmt && decide (fmt < 0x40) && decide (fmt % 16 ≤ 13)
  let rows : List (Bool × Nat) :=
    [(decide (16383 < wm1), 54), (type = 0 && hm1 != 0, 52), (type != 2 && dm1 != 0, 50), (decide ((max wm1 (max hm1 dm1) + 1).log2 < lm1), 49),
     (type != dim, 49), (x / 2 ^ 392 % 4 != 0, 49), (!(decide (fmt ≤ 4) || astc), 48), (astc && (type = 0 || type = 2), 48),
     (x / 2 ^ 374 % 4 = 3, 46), (x % 2 ^ 374 != 0, 0)]
  (rows.filter Prod.fst).map Prod.snd

/-- The dimension that a texture instruction asks for: 0 1D, 1 2D, 2 3D, 3 cube (R353). -/
def dimension : Instr → Nat
  | .tex _ k _ _ | .tld _ k _ => match k with
    | .d1 => 0
    | .d2 => 1
    | .d3 => 2
    | .cube => 3
  | _ => 2

/-- The four FP32 channels of a texel of an uncompressed format without sRGB (R354). -/
def delivered (fmt : Nat) (bs : List Byte) : List Nat :=
  let byte (k : Nat) : Nat := (bs.getD k 0).toNat
  let word (k : Nat) : Nat := byte (4 * k) + byte (4 * k + 1) * 2 ^ 8 + byte (4 * k + 2) * 2 ^ 16 + byte (4 * k + 3) * 2 ^ 24
  match fmt with
  | 0 => [0, 1, 2, 3].map fun k => f32Fmt.roundRatio .rn false (byte k) 255
  | 2 => [0, 1, 2, 3].map fun k => f32Fmt.round .rn (f16Fmt.value (byte (2 * k) + 256 * byte (2 * k + 1)))
  | 3 => [word 0, 0, 0, 0x3F800000]
  | _ => [0, 1, 2, 3].map word

def bytesPer (fmt : Nat) : Nat := if fmt = 2 then 8 else if fmt = 4 then 16 else 4

/-- Four registers as one value. -/
def quad (cs : List Nat) : Nat := cs.getD 0 0 + cs.getD 1 0 * 2 ^ 32 + cs.getD 2 0 * 2 ^ 64 + cs.getD 3 0 * 2 ^ 96

end Sys2Proof.Rule

/-- R211: TEX, TEXV and TLD issue at once and count in no counter: a descriptor address that is not canonical raises TRANSLATION, one that is no multiple of 64 ALIGNMENT; else D stands empty, coordinates, C and the address stand in the record, and the bundle moves on. -/
def Sys2Proof.Rule.TextureOwed : Prop :=
  ∀ (i : Instr) (s : State) (b : Bundle) (act : List Nat), isTexture i = true → i.wf = true → Goes i s b act →
    let x := actAt i b act
    let w := s.warp b.warp
    let a := (x.read w x.first).b
    let s1 := s.advance b.warp (lanesOf b.lanes) b.pc
    let slots := act.map fun k => ({ lane := k, addr := 0, data := .ofNat 128 (x.read w k).a, tag := .ofNat 64 (x.read w k).c } : Slot)
    (2 ^ 60 ≤ a → exec i s = .next (x.trap x.first { cause := 0x03, addr := .ofNat 64 a } s1)) ∧
    (a < 2 ^ 60 → a % 64 ≠ 0 → exec i s = .next (x.trap x.first { cause := 0x02, addr := .ofNat 64 a } s1)) ∧
    (a < 2 ^ 60 → a % 64 = 0 → ∃ t, exec i s = .next t ∧ OnlyWarp b.warp s t ∧
      Rule.Owes x { id := 0, ins := i, pc := b.pc, lanes := maskOf act, ctr := none, slots, regs := [.ofNat 32 a, .ofNat 32 (a / 2 ^ 32)] } w (t.warp b.warp))

/-- R211, R353, R354: a texture instruction samples. A descriptor field that fails its check raises BOUNDS asynchronously with the field's byte offset, a misaligned base ALIGNMENT. TLD outside the image gives 0.0 in all channels; at level 0 inside it, and TEXV.nearest with coordinates from 0 to 1, it gives the texel that the packed layout of R353 holds there, in its delivered form, for the formats that are neither compressed nor sRGB. -/
def Sys2Proof.Rule.TextureSamples : Prop :=
  ∀ (r : OpRef) (o : Op) (s s1 : State) (bs : List Byte), s.opOf r = some o → isTexture o.ins = true → resultReady s r = true →
    let w := s.warp r.warp
    let va := (o.regs.getD 0 0).toNat + (o.regs.getD 1 0).toNat * 2 ^ 32
    va < 2 ^ 60 → readL1 (s.party w) va 64 s = (.bytes bs, s1) →
    let x := natOfBytes bs
    let first := (lanesOf o.lanes).headD 0
    let bad := Rule.badFields (Rule.dimension o.ins) x
    let base := x / 2 ^ 448 % 2 ^ 64
    let fmt := x / 2 ^ 384 % 2 ^ 8
    let size (k : Nat) : Nat := [x / 2 ^ 432 % 2 ^ 16, x / 2 ^ 416 % 2 ^ 16, x / 2 ^ 400 % 2 ^ 16].getD k 0 + 1
    let axes := if x / 2 ^ 394 % 4 = 0 then 1 else if x / 2 ^ 394 % 4 = 1 then 2 else 3
    let word (y : Slot) (k : Nat) : Nat := y.data.toNat / 2 ^ (32 * k) % 2 ^ 32
    let layers := if x / 2 ^ 394 % 4 = 3 then 6 else size 2
    let texelAt (i j k : Nat) : Nat := base + ((k * size 1 + j) * size 0 + i) * Rule.bytesPer fmt
    let done (v : Nat) (y : Slot) (t : State) : Prop := t.warp r.warp = (o.writeD [(y.lane, v)] w).finish r.op ∧ ∀ u, u ≠ r.warp → t.warp u = s.warp u
    (bad ≠ [] → ∃ k ∈ bad, exec (.resultWritten r) s = .next (opTrap r first true { cause := 0x09, info := .ofNat 32 k } s1)) ∧
    (bad = [] → base % 128 ≠ 0 → ∃ n, exec (.resultWritten r) s = .next (opTrap r first true { cause := 0x02, info := n } s1)) ∧
    (bad = [] → base % 128 = 0 → ∀ y, o.slots = [y] →
      (∀ h d f, o.ins = .tld h d f → (∃ k < axes, (if x / 2 ^ 394 % 4 = 3 ∧ k = 2 then 6 else size k) ≤ word y k) → y.tag = 0 →
        ∃ t, exec (.resultWritten r) s = .next t ∧ done 0 y t) ∧
      (fmt = 0 ∨ fmt = 2 ∨ fmt = 3 ∨ fmt = 4 → ∀ (c : Nat → Nat) (s2 : State) (px : List Byte), (∀ k, axes ≤ k → c k = 0) →
        c 0 < size 0 → c 1 < size 1 → c 2 < layers → texelAt (c 0) (c 1) (c 2) < 2 ^ 60 →
        readL1 (s.party w) (texelAt (c 0) (c 1) (c 2)) (Rule.bytesPer fmt) s1 = (.bytes px, s2) →
        ((∃ h d f, o.ins = .tld h d f ∧ y.tag = 0 ∧ ∀ k < axes, word y k = c k) ∨
          (∃ h f, o.ins = .texv h false f ∧ ∀ k < 3, ∃ n d, coordOf (word y k) = some (n, d) ∧ 0 ≤ n ∧ n < (d : Int) ∧ c k = n.toNat * size k / d)) →
        ∃ t, exec (.resultWritten r) s = .next t ∧ done (Rule.quad (Rule.delivered fmt px)) y t))

/-- R211, R355: the taps of an axis and the modes that map an index from outside. Nearest takes floor(u × size) alone; linear takes floor of x = u × size − 0.5, rounded to FP32, with weight 1 − fq and its neighbour with fq, in units of 2^−16, without the taps of weight 0. Repeat is modulo the size, mirrored repeat modulo twice the size, clamp the nearest inside, and border none. -/
def Sys2Proof.Rule.TapsAndModes : Prop :=
  (∀ (u : Int × Nat) (size : Nat), axisTaps false u size = [(u.1 * size / (u.2 : Int), 65536)]) ∧
  (∀ (u : Int × Nat) (size code d : Nat) (n : Int), 0 < u.2 → 0 < d →
    2 * (u.1 * size) ≠ (u.2 : Int) → code = f32Fmt.roundRatio .rn (2 * (u.1 * size) - (u.2 : Int) < 0) (2 * (u.1 * size) - (u.2 : Int)).natAbs (2 * u.2) →
    coordOf code = some (n, d) →
    let fq := ((n % (d : Int)) * 65536 / (d : Int)).toNat
    axisTaps true u size = if fq = 0 then [(n / (d : Int), 65536)] else [(n / (d : Int), 65536 - fq), (n / (d : Int) + 1, fq)]) ∧
  ∀ (size : Nat) (i : Int), 0 < size →
    (0 ≤ i → i < size → ∀ mode, wrapIndex mode size i = some i.toNat) ∧
    wrapIndex 0 size i = some (i % (size : Int)).toNat ∧
    (∃ k, wrapIndex 1 size i = some k ∧ k < size ∧ (((k : Int) - i) % (2 * size : Int) = 0 ∨ ((k : Int) + i + 1) % (2 * size : Int) = 0)) ∧
    wrapIndex 2 size i = some (if i < 0 then 0 else if (size : Int) ≤ i then size - 1 else i.toNat) ∧
    (i < 0 ∨ (size : Int) ≤ i → wrapIndex 3 size i = none)

/-! ## System instructions (R213 to R230, R289, R401, R414, R418) -/

namespace Sys2Proof.Rule

/-- The instructions that only world 0 may execute, and whether the root partition alone may (R213). -/
def privileged : Instr → Option Bool
  | .wassign .. | .scrub .. | .halt .. => some false
  | .hashInit .. | .hashUpd .. | .hashFin .. | .mext .. | .ecsig .. | .keyrel .. | .certw .. => some true
  | _ => none

/-- A warp may execute a privileged instruction: it runs in world 0, and on partition 31 of core 0 of cluster 0 where the root partition is asked for. -/
def Permitted (root : Bool) (s : State) (w : Warp) : Prop :=
  (s.warpLaunch w).record.world = 0 ∧
    (root = true → (s.warpGang w).cluster = 0 ∧ (s.warpBlock w).core = 0 ∧ w.part = 31)

/-- The block of a warp after a change of it, and every other block as before. -/
def BlockIs (g rank : Nat) (f : Block → Block) (s t : State) : Prop :=
  t.block g rank = f (s.block g rank) ∧ ∀ v r, (v, r) ≠ (g, rank) → t.block v r = s.block v r

/-- A unit that the root keeps for itself, by its unit word (R221). -/
def reserved (k : Nat) : Bool :=
  k / 2 ^ 5 % 2 ^ 7 = 0 && if k.testBit 15 then decide (28 ≤ k % 32) else decide (k % 32 = 31)

/-- The status of WASSIGN and SCRUB (R221, R228). -/
def unitStatus (s : State) (k : Nat) : Nat :=
  if reserved k then 3 else if Store.get false s.absent k then 2
  else if unitUsed s k || Store.get false s.haltedCores (k / 2 ^ 5 % 2 ^ 7) then 1 else 0

/-- A HASH context of 256 bytes holds a message: the state after its whole blocks, its length, and the bytes left over (R223). -/
def Holds (c m : List Byte) : Prop :=
  c.length = 256 ∧ (List.range 8).map (fun k => BitVec.ofNat 64 (natOfBytes ((c.drop (8 * k)).take 8))) = shaBlocks shaInit m ∧
    (c.drop 64).take 16 = bytesOfNat 16 m.length ∧ (c.drop 80).take (m.length % 128) = m.drop (m.length / 128 * 128)

/-- A tag is new to a window that has room for one more. -/
def Fresh (win : List TagEntry) (e : TagEntry) : Prop := tagFind win e = none ∧ win.length < 32

end Sys2Proof.Rule

/-- R213, R418: WASSIGN, SCRUB, HASH, MEXT, ECSIG, KEYREL, CERTW and HALT outside world 0, and HASH, MEXT, ECSIG, KEYREL and CERTW off the root partition, raise PERMISSION. -/
def Sys2Proof.Rule.SystemInstructionsAreGuarded : Prop :=
  ∀ (i : Instr) (root : Bool) (s : State) (b : Bundle) (act : List Nat), Rule.privileged i = some root → Goes i s b act →
    let x := actAt i b act
    ¬Rule.Permitted root s (s.warp b.warp) → exec i s = .next (x.trap x.first { cause := 0x04 } (s.advance b.warp (lanesOf b.lanes) b.pc))

/-- R220, R289: BEACON. An interval of 1 to 4,095 raises BOUNDS; 0xFFFFFFFF ends the declaration; 0 counts for the declared interval, if any; any other declares it. A beacon that counts restarts the interval and clears misses and escalations. A count that runs out is a miss and restarts; the second miss in a row halts the block's core. -/
def Sys2Proof.Rule.BeaconsWatchBlocks : Prop :=
  (∀ (h : Hdr) (f : Ops) (s : State) (b : Bundle) (act : List Nat), Goes (.beacon h f) s b act →
    let x := actAt (.beacon h f) b act
    let w := s.warp b.warp
    let n := (x.read w x.first).a
    let s1 := s.advance b.warp (lanesOf b.lanes) b.pc
    (1 ≤ n ∧ n ≤ 4095 → exec (.beacon h f) s = .next (x.trap x.first { cause := 0x09 } s1)) ∧
    (n = 0 ∨ 4096 ≤ n → s.hasGang w.gang = true → w.rank < (s.gang w.gang).blocks.length →
      ∃ t, exec (.beacon h f) s = .next t ∧ t = { s1 with gangs := t.gangs } ∧
        Rule.BlockIs w.gang w.rank (fun k =>
          if n = 0xFFFFFFFF then { k with beacon := none }
          else match (if n = 0 then k.beacon.map fun z => z.interval else some n) with
            | some i => { k with beacon := some { interval := i, left := i, misses := 0 }, escalations := 0 }
            | none => k) s t)) ∧
  ∀ (g rank : Nat) (z : Beacon) (s : State), (s.gang g).state = .placed → (s.block g rank).retired = false → (s.block g rank).beacon = some z →
    z.left = 0 → s.hasGang g = true → rank < (s.gang g).blocks.length →
    ∃ t, exec (.beaconMiss g rank) s = .next t ∧
      (z.misses = 0 → t = { s with gangs := t.gangs } ∧
        Rule.BlockIs g rank (fun k => { k with beacon := some { z with left := z.interval, misses := 1 } }) s t) ∧
      (1 ≤ z.misses → Store.get false t.haltedCores (coreNo (s.gang g).cluster (s.block g rank).core) = true)

/-- R221, R222, R229: WASSIGN and SCRUB. A unit word with a reserved bit, or a world above 15, raises BOUNDS. Else the gang's version is committed, the gang is EXPOSED, and D receives the status. With status 0 the unit is scrubbed where it has to be and powered, WASSIGN gives it its world, and the L1 lines that a scrubbed bank held are gone; with any other status no unit changes. -/
def Sys2Proof.Rule.UnitsAssignedAndScrubbed : Prop :=
  ∀ (i : Instr) (assign : Bool) (s : State) (b : Bundle) (act : List Nat), (∃ h f, i = if assign then .wassign h f else .scrub h f) → i.wf = true →
    Goes i s b act → Rule.Permitted false s (s.warp b.warp) →
    let x := actAt i b act
    let w := s.warp b.warp
    let k := (x.read w x.first).a
    let world := if assign then (x.read w x.first).b else s.unitWorld k
    let ok := k < 2 ^ 16 ∧ k / 2 ^ 12 % 2 ^ 3 = 0 ∧ (assign = true → world ≤ 15)
    let st := Rule.unitStatus s k
    let scrubbed := assign = false ∨ world ≠ s.unitWorld k ∨ s.scrubComplete k = false
    (¬ok → exec i s = .next (x.trap x.first { cause := 0x09 } (s.advance b.warp (lanesOf b.lanes) b.pc))) ∧
    (ok → s.hasGang w.gang = true → ∃ t, exec i s = .next t ∧ Wrote x (fun _ => st) w (t.warp b.warp) ∧
      (t.gang w.gang).retained.contain = false ∧ (t.gang w.gang).version = [] ∧
      (st ≠ 0 → t.units = s.units) ∧
      (st = 0 → (Store.get {} t.units k).world = .ofNat 4 world ∧ (Store.get {} t.units k).unscrubbed = false ∧
        (Store.get {} t.units k).gated = false ∧ (∀ j, j ≠ k → Store.get {} t.units j = Store.get {} s.units j) ∧
        (scrubbed → k.testBit 15 = true → ∀ j, let c := s.cache (k / 2 ^ 5 % 2 ^ 7)
          Store.get false c.lines (j / 128) = true → Store.get 0 c.bank (j / 128) = k % 32 → (t.cache (k / 2 ^ 5 % 2 ^ 7)).word j = none)))

/-- R223, R418: the checks of HASH. A count above 65,536 raises BOUNDS; so does a context, data or digest range beyond the scratchpad; a context that is no multiple of 64, or a digest address that is no multiple of 8, ALIGNMENT; a `.UPD` with count 0 does not check its data address. -/
def Sys2Proof.Rule.HashOperandsChecked : Prop :=
  ∀ (i : Instr) (s : State) (b : Bundle) (act : List Nat) (n m align : Nat), Goes i s b act → Rule.Permitted true s (s.warp b.warp) →
    let x := actAt i b act
    let w := s.warp b.warp
    let v := x.read w x.first
    ((∃ h f, i = .hashInit h f ∧ n = 0 ∧ m = 0 ∧ align = 1) ∨ (∃ h f, i = .hashUpd h f ∧ n = v.c ∧ m = v.c ∧ align = 1) ∨
      (∃ h f, i = .hashFin h f ∧ n = 0 ∧ m = 64 ∧ align = 8)) →
    let trap (c : Word) (a : Nat) : Host.Outcome State Fault Refusal :=
      .next (x.trap x.first { cause := c, addr := .ofNat 64 a } (s.advance b.warp (lanesOf b.lanes) b.pc))
    let outside (a k : Nat) : Prop := scrTarget s w a k = none
    (65536 < n → exec i s = trap 0x09 0) ∧
    (n ≤ 65536 → v.c ≤ 65536 →
      (outside v.a 256 → exec i s = trap 0x09 v.a) ∧
      (¬outside v.a 256 → m ≠ 0 → outside v.b m → exec i s = trap 0x09 v.b) ∧
      (¬outside v.a 256 → (m = 0 ∨ ¬outside v.b m) →
        (v.a % 64 ≠ 0 → exec i s = trap 0x02 v.a) ∧
        (v.a % 64 = 0 → m ≠ 0 → v.b % align ≠ 0 → exec i s = trap 0x02 v.b)))

/-- R223: HASH computes SHA-512. `.INIT` makes its context hold the empty message; `.UPD` makes a context that holds a message hold it with the bytes of the data behind it; `.FIN` writes the SHA-512 digest of the message held, and leaves the context as `.INIT` does. -/
def Sys2Proof.Rule.HashComputesSha512 : Prop :=
  ∀ (s : State) (b : Bundle) (act : List Nat) (i : Instr), Goes i s b act → Rule.Permitted true s (s.warp b.warp) →
    let x := actAt i b act
    let w := s.warp b.warp
    let v := x.read w x.first
    let blocks := (s.gang w.gang).blocks.length
    ∀ (to' : Nat × Nat), scrTarget s w v.a 256 = some to' → Rule.Sound s w.gang to' 256 → to'.1 < blocks → v.a % 64 = 0 → s.hasGang w.gang = true → w.rank < blocks →
      Rule.Fresh (s.block w.gang w.rank).tags (s.tagEntry w (Rule.tag s w x.first) i v.a 0) →
      (∀ h f, i = .hashInit h f → ∃ t, exec i s = .next t ∧ Rule.Holds (scrRead t w.gang to' 256) []) ∧
      (∀ h f m, i = .hashUpd h f → v.c ≤ 65536 → Rule.Holds (scrRead s w.gang to' 256) m → m.length + v.c < 2 ^ 128 →
        (v.c = 0 → ∃ t, exec i s = .next t ∧ Rule.Holds (scrRead t w.gang to' 256) m) ∧
        ∀ from', scrTarget s w v.b v.c = some from' → Rule.Sound s w.gang from' v.c → ∃ t, exec i s = .next t ∧
          Rule.Holds (scrRead t w.gang to' 256) (m ++ scrRead s w.gang from' v.c)) ∧
      (∀ h f m dig, i = .hashFin h f → Rule.Holds (scrRead s w.gang to' 256) m → m.length < 2 ^ 124 → scrTarget s w v.b 64 = some dig → v.b % 8 = 0 →
        dig.1 < blocks → (dig.1 ≠ to'.1 ∨ dig.2 + 64 ≤ to'.2 ∨ to'.2 + 256 ≤ dig.2) →
        ∃ t, exec i s = .next t ∧ Rule.Holds (scrRead t w.gang to' 256) [] ∧ scrRead t w.gang dig 64 = sha512 m)

/-- R224, R225, R229: MEXT and ECSIG. A register above 31 raises BOUNDS. MEXT sets m(A) to SHA-512(m(A) ‖ d) where B is not zr, commits and exposes first, and writes m(A) to the scratchpad where C is not zr; no other register changes. ECSIG writes the signature of the digest under the attestation key. -/
def Sys2Proof.Rule.MeasurementsExtended : Prop :=
  ∀ (i : Instr) (s : State) (b : Bundle) (act : List Nat), Goes i s b act → Rule.Permitted true s (s.warp b.warp) →
    let x := actAt i b act
    let w := s.warp b.warp
    let v := x.read w x.first
    let g := w.gang
    s.hasGang g = true → s.measure.length = 32 →
    (∀ h f, i = .mext h f → 32 ≤ v.a → exec i s = .next (x.trap x.first { cause := 0x09 } (s.advance b.warp (lanesOf b.lanes) b.pc))) ∧
    (∀ h f (src dst : Nat × Nat), i = .mext h f → v.a < 32 → Rule.Fresh s.measureTags (s.tagEntry w (Rule.tag s w x.first) i v.a 0) →
      (x.r.b.kind ≠ .zr → scrTarget s w v.b 64 = some src ∧ Rule.Sound s g src 64 ∧ v.b % 8 = 0) →
      (x.r.c.kind ≠ .zr → scrTarget s w v.c 64 = some dst ∧ v.c % 8 = 0 ∧ dst.1 < (s.gang g).blocks.length) →
      ∃ t, exec i s = .next t ∧ (∀ k, k ≠ v.a → t.measureOf k = s.measureOf k) ∧
        t.measureOf v.a = (if x.r.b.kind = .zr then s.measureOf v.a else sha512 (s.measureOf v.a ++ scrRead s g src 64)) ∧
        (x.r.b.kind ≠ .zr → (t.gang g).version = [] ∧ (t.gang g).retained.contain = false) ∧
        (x.r.c.kind ≠ .zr → scrRead t g dst 64 = t.measureOf v.a) ∧ (t.warp b.warp).uregs = w.uregs ∧ (t.warp b.warp).vregs = w.vregs) ∧
    (∀ h f src dst, i = .ecsig h f → scrTarget s w v.a 64 = some src → Rule.Sound s g src 64 → scrTarget s w v.b 132 = some dst → v.a % 8 = 0 → v.b % 4 = 0 →
      dst.1 < (s.gang g).blocks.length →
      ∃ t, exec i s = .next t ∧ scrRead t g dst 132 = ecdsaSign Config.attestKey (scrRead s g src 64) ∧ t.mem = s.mem ∧ t.measure = s.measure)

/-- R226, R229: KEYREL. With A zr the slot is emptied, status 0; its lanes are BLOCKED before that while a TCOPY or a RES.LOAD that uses the slot is running; a slot in use gives status 3; a public key that is no point of P-521 status 1; a wrapped key whose integrity check fails status 2; else the slot holds the key for its world, status 0. With a status other than 0 no slot changes. -/
def Sys2Proof.Rule.KeysAreUnwrapped : Prop :=
  ∀ (h : Hdr) (f : Ops) (s : State) (b : Bundle) (act : List Nat), (Instr.keyrel h f).wf = true → Goes (.keyrel h f) s b act →
    Rule.Permitted true s (s.warp b.warp) →
    let x := actAt (.keyrel h f) b act
    let w := s.warp b.warp
    let v := x.read w x.first
    let ok := 1 ≤ v.b ∧ v.b ≤ 15 ∧ 1 ≤ v.c ∧ v.c ≤ 15
    (¬ok → exec (.keyrel h f) s = .next (x.trap x.first { cause := 0x09 } (s.advance b.warp (lanesOf b.lanes) b.pc))) ∧
    (ok → x.r.a.kind = .zr → keyInUse s v.b = true → exec (.keyrel h f) s = .next ((s.advance b.warp (lanesOf b.lanes) b.pc).onWarp b.warp x.park) ∧
      ∀ l ∈ lanesOf b.lanes, l < 64 → l < w.threads.length →
        ((x.park (w.moved (lanesOf b.lanes) b.pc)).thread l) = { w.thread l with pc := b.pc, status := .blocked (.issue ((lanesOf b.lanes).headD 0)) }) ∧
    ∀ src : Nat × Nat, ok → (x.r.a.kind = .zr → keyInUse s v.b = false) → s.hasGang w.gang = true → s.keySlots.length = 16 →
      Rule.Fresh s.keyTags (s.tagEntry w (Rule.tag s w x.first) (.keyrel h f) v.a 0) →
      (x.r.a.kind ≠ .zr → scrTarget s w v.a 176 = some src ∧ Rule.Sound s w.gang src 176 ∧ v.a % 16 = 0) →
      let blob := scrRead s w.gang src 176
      let px := natOfBE ((blob.drop 1).take 66)
      let py := natOfBE ((blob.drop 67).take 66)
      let z := (Point.times 521 Config.attestKey { x := px, y := py, z := 1 }).affineX
      let kek := hkdf (bytesOfBE 66 z) [0x4F, 0x56, 0x4B, 0x52, .ofNat 8 v.c, .ofNat 8 v.b, 0, 0] 32
      let out : Nat × Option (Option (BitVec 256 × BitVec 4)) :=
        if x.r.a.kind = .zr then (0, some none)
        else if ((s.keySlots.getD v.b {}).key).isSome then (3, none)
        else if blob.headD 0 ≠ 0x04 ∨ onCurve px py = false then (1, none)
        else match keyUnwrap kek ((blob.drop 136).take 40) with
          | none => (2, none)
          | some k => (0, some (some (k, .ofNat 4 v.c)))
      ∃ t, exec (.keyrel h f) s = .next t ∧ (∀ k, (t.warp b.warp).ureg k = x.uregAfter (fun _ => out.1) w k) ∧
        (∀ k, k ≠ v.b → (t.keySlots.getD k {}) = s.keySlots.getD k {}) ∧ (t.keySlots.getD v.b {}).key = out.2.getD (s.keySlots.getD v.b {}).key ∧
        (t.gang w.gang).retained.contain = false

/-- R227, R229: CERTW. A length above 65,536 raises BOUNDS; a chain that is there to read must be canonical, else TRANSLATION, and a multiple of 16, else ALIGNMENT; one that runs past the last canonical address raises TRANSLATION with the address behind it. The chain as it is read at issue replaces the slot's where no hold is set, status 0; else it is what replaces it when the hold clears, in place of one staged before, status 1. -/
def Sys2Proof.Rule.CertificatesWritten : Prop :=
  ∀ (h : Hdr) (f : Ops) (s : State) (b : Bundle) (act : List Nat), (Instr.certw h f).wf = true → Goes (.certw h f) s b act →
    Rule.Permitted true s (s.warp b.warp) →
    let x := actAt (.certw h f) b act
    let w := s.warp b.warp
    let v := x.read w x.first
    let s1 := s.advance b.warp (lanesOf b.lanes) b.pc
    (65536 < v.b → exec (.certw h f) s = .next (x.trap x.first { cause := 0x09 } s1)) ∧
    (1 ≤ v.b → v.b ≤ 65536 → 2 ^ 60 ≤ v.a → exec (.certw h f) s = .next (x.trap x.first { cause := 0x03, addr := .ofNat 64 v.a } s1)) ∧
    (1 ≤ v.b → v.b ≤ 65536 → v.a < 2 ^ 60 → v.a % 16 ≠ 0 →
      exec (.certw h f) s = .next (x.trap x.first { cause := 0x02, addr := .ofNat 64 v.a } s1)) ∧
    (1 ≤ v.b → v.b ≤ 65536 → v.a < 2 ^ 60 → v.a % 16 = 0 → 2 ^ 60 < v.a + v.b →
      exec (.certw h f) s = .next (x.trap x.first { cause := 0x03, addr := .ofNat 64 (2 ^ 60) } s1)) ∧
    ∀ (chain : List Byte) (s2 : State), v.b ≤ 65536 → (v.b = 0 ∨ v.a % 16 = 0 ∧ v.a + v.b ≤ 2 ^ 60) → s.hasGang w.gang = true → v.c < s.certs.length →
      readChain (s.party w) v.a v.b s1 = (.bytes chain, s2) →
      Rule.Fresh s.certTags (s.tagEntry w (Rule.tag s w x.first) (.certw h f) v.a 0) →
      let c := s.certs.getD v.c {}
      ∃ t, exec (.certw h f) s = .next t ∧ (∀ k, (t.warp b.warp).ureg k = x.uregAfter (fun _ => if c.hold then 1 else 0) w k) ∧
        (∀ k, k ≠ v.c → (t.certs.getD k {}) = s.certs.getD k {}) ∧
        (t.certs.getD v.c {}) = if c.hold then { c with staged := some chain } else { c with chain }

/-- R228, R229, R416: HALT. After the commit, HALT 0 halts the issuing core and HALT 1 the part; the captured state takes in every warp that was stopped, as it stood; every context with a gang that was stopped is killed, and no other: under HALT 0 the gangs with a block on the core, under HALT 1 the placed gangs. -/
def Sys2Proof.Rule.HaltCapturesAndKills : Prop :=
  ∀ (h : Hdr) (f : Ops) (s : State) (b : Bundle) (act : List Nat), (Instr.halt h f).wf = true → Goes (.halt h f) s b act →
    Rule.Permitted false s (s.warp b.warp) →
    let x := actAt (.halt h f) b act
    let w := s.warp b.warp
    let all := (x.read w x.first).a ≠ 0
    let core := s.warpCore w
    let stops (g : Gang) : Prop := g ∈ s.gangs ∧ g.state = .placed ∧ (all ∨ ∃ k ∈ g.blocks, k.retired = false ∧ coreNo g.cluster k.core = core)
    (s.warps.map fun v => v.uid).Nodup → (s.gangs.map fun g => g.uid).Nodup →
    ∃ t, exec (.halt h f) s = .next t ∧
      (all → t.haltedPart = true) ∧ (¬all → Store.get false t.haltedCores core = true ∧ t.haltedPart = s.haltedPart) ∧
      (∀ v ∈ s.warps, v.uid ≠ b.warp → v.uid ≠ 0 → v.retired = false → (s.gang v.gang).state = .placed → (s.warpCore v = core ∨ all) →
        ∃ k ∈ t.capture.warps, k.warp = v) ∧
      (∀ g, stops g → (s.launch g.launch).slot < 256 → (t.ctx (s.launch g.launch).slot).killed = true) ∧
      ∀ k < 256, (∀ g, stops g → (s.launch g.launch).slot ≠ k) → (t.ctx k).killed = (s.ctx k).killed

/-- R401, R414: a dbgctl resume. Without bit 0, or while dbgev holds no event, nothing happens. Else the lanes of the warp that dbgev names, held at their BKPT, run again from the next word, and dbgev is empty; where another warp is held, its event follows. -/
def Sys2Proof.Rule.DebugResumes : Prop :=
  ∀ (v : Word) (s : State),
    (v.getLsbD 0 = false ∨ s.mgmt.dbgev.getLsbD 63 = false → exec (.dbgctlResume v) s = .next s) ∧
    ∀ w : Warp, v.getLsbD 0 = true → s.mgmt.dbgev.getLsbD 63 = true → debugged s = some w → s.warp w.uid = w → w.width ≤ w.threads.length →
      ∃ t, exec (.dbgctlResume v) s = .next t ∧
        (∀ l, l < w.width → (t.warp w.uid).thread l = if (w.thread l).status = .blocked .debug
          then { w.thread l with status := .running, pc := (w.thread l).pc + 12 } else w.thread l) ∧
        (t.warp w.uid).stopped = false ∧ (∀ u, u ≠ w.uid → t.warp u = s.warp u) ∧
        ((∀ u ∈ s.warps, u.uid ≠ w.uid → u.held = []) → t.mgmt = { s.mgmt with dbgev := 0 } ∧ t.sent = s.sent) ∧
        ((∃ u ∈ s.warps, u.uid ≠ w.uid ∧ u.held ≠ []) → (∀ u ∈ s.warps, u.rank < 32 ∧ u.num < 32) → t.mgmt.dbgev.getLsbD 63 = true ∧ t.mgmt.intst.getLsbD 5 = true)

/-! ## Queues, launches and gangs (R32, R252 to R260, R269 to R281, R287 to R290) -/

namespace Sys2Proof.Rule

/-- sr.seed of a lane at launch (R32). -/
def seed (launch : BitVec 16) (block warp lane : Nat) : BitVec 16 :=
  let x := (launch.toNat + 0x9E37 * (block * 2048 + warp * 64 + lane)) % 2 ^ 16
  .ofNat 16 (if x = 0 then 1 else x)

/-- A warp of a new gang as R32 starts it: its lanes RUNNING at the entry with their seeds, its uniform registers the parameters and 0 above, every other register 0 and full, nothing outstanding. -/
def Started (l : Launch) (g : Gang) (w : Warp) : Prop :=
  w.width = 16 * 2 ^ l.record.width.toNat ∧ w.nv = l.record.vregs.toNat ∧ w.nu = l.record.uregs.toNat ∧
    w.threads.length = w.width ∧ w.vregs = [] ∧ w.ops = [] ∧ w.retired = false ∧
    (∀ k, w.ureg k = { val := l.params.getD k 0 }) ∧
    ∀ k < w.width, w.thread k = { pc := l.record.entry, seed := seed l.record.seed (g.num * l.record.gangsize.toNat + w.rank) w.num k }

/-- The context of a launch has been killed (R416). -/
def Killed (slot : Nat) (t : State) : Prop := (t.ctx slot).killed = true

end Sys2Proof.Rule

/-- R252, R304, R402: a doorbell. A context that is not valid, and a queue without a descriptor or stopped, take nothing. A descriptor that fails its checks sets ctxst to code 3 with the queue. A tail more than a ring ahead stops the queue with an entry of status 6. Else every record from head to tail is taken in order, each a launch of the queue with the next sequence number from 1 on. A write of qdesc sets it, and checks it where it is not 0: ctxst is 0, or code 3. A command that meets a page in migration does nothing and waits; a later one of the same register takes the place of one that waits. That a write of qdesc takes up the records of a queue only where it was stopped is the model's choice (log 20). -/
def Sys2Proof.Rule.QueuesAreTaken : Prop :=
  (∀ (slot q : Nat) (s : State), slot < 256 → q < 16 → s.stall = none →
    let c := s.ctx slot
    let s0 : State := { s with waiters := s.waiters.filter fun x => x.2.2 != .qbell slot q }
    (c.valid = false ∨ (c.queue q).qdesc = 0 ∨ (c.queue q).stopped = true → exec (.qbell slot q) s = .next s0) ∧
    (c.valid = true → (c.queue q).qdesc ≠ 0 → (c.queue q).stopped = false →
      (∀ s1 k, readQueue slot q s0 = (none, s1) → s1.stall = some k →
        exec (.qbell slot q) s = .next { s0 with waiters := s0.waiters ++ [(0, k, .qbell slot q)] }) ∧
      (∀ s1, readQueue slot q s0 = (none, s1) → s1.stall = none →
        exec (.qbell slot q) s = .next (setCtxst slot (.ofNat 32 (q * 16 + 3)) s1)) ∧
      ∀ d s1, readQueue slot q s0 = (some d, s1) →
        let n := (d.tail + 2 ^ 32 - d.head) % 2 ^ 32
        (2 ^ d.logn < n → ∃ s2, exec (.qbell slot q) s = .next (writeCompletion slot q { id := 0, status := 6 } s2) ∧
          ((s2.ctx slot).queue q).stopped = true ∧ s2.launches = s.launches) ∧
        (n ≤ 2 ^ d.logn → (takeRecords slot q d n s1).stall = none →
          ∃ t, exec (.qbell slot q) s = .next t ∧ t.launches.length = s.launches.length + n ∧
          ((t.ctx slot).queue q).taken = (c.queue q).taken + n ∧
          ∀ k < n, ∃ l, t.launches[s.launches.length + k]? = some l ∧ l.slot = slot ∧ l.queue = some q ∧ l.wave = none ∧
            l.id = .ofNat 32 (q * 2 ^ 28 + ((c.queue q).taken + k) % (2 ^ 28 - 1) + 1)) ∧
        (n ≤ 2 ^ d.logn → ∀ k, (takeRecords slot q d n s1).stall = some k →
          exec (.qbell slot q) s = .next { s0 with waiters := s0.waiters ++ [(0, k, .qbell slot q)] }))) ∧
  ∀ (slot q : Nat) (v : DWord) (s : State), slot < 256 → q < 16 → s.stall = none →
    let mine (i : Instr) : Bool := match i with
      | .qdescWrite a b _ => a == slot && b == q
      | _ => false
    let s0 : State := { s with waiters := s.waiters.filter fun x => !mine x.2.2 }
    let s1 := s0.onCtx slot fun c => c.onQueue q fun k => { k with qdesc := v, stopped := false }
    (v = 0 ∨ (s.ctx slot).valid = false → exec (.qdescWrite slot q v) s = .next s1) ∧
    (v ≠ 0 → (s.ctx slot).valid = true →
      (∀ s2, readQueue slot q s1 = (none, s2) → s2.stall = none →
        exec (.qdescWrite slot q v) s = .next (setCtxst slot (.ofNat 32 (q * 16 + 3)) s2)) ∧
      ∀ d s2, readQueue slot q s1 = (some d, s2) → ((s.ctx slot).queue q).stopped = false →
        exec (.qdescWrite slot q v) s = .next (setCtxst slot 0 s2))

/-- R257, R258, R304: a launch ends, once no page that its end needs is in migration, when its last gang has retired, with status 0, or, not yet begun, when a launch it depends on has failed, with status 2. Its gangs are gone, and a launch from a queue leaves its entry in the queue's completion ring: 32 bytes, the id in the first word, then status, wave flag, relaunches, cause, gang, seal and PC. -/
def Sys2Proof.Rule.LaunchesComplete : Prop :=
  (∀ (u : Nat) (s : State), launchDone s u = true → (completeLaunch u s).stall = none → s.hasLaunch u = true →
    let l := s.launch u
    let failed := l.state = .waiting ∧ l.queue.isSome = true ∧ depFails s l = true
    (failed → ∃ t, exec (.launchComplete u) s = .next t ∧ (t.launch u).state = .ended 2) ∧
    (¬failed → ∃ t, exec (.launchComplete u) s = .next t ∧ (t.launch u).state = .ended 0) ∧
    ∃ t, exec (.launchComplete u) s = .next t ∧ (∀ g ∈ t.gangs, g.launch ≠ u) ∧
      ∀ q, l.wave = none → l.queue = some q → l.rom = false → ∃ s1, t = writeCompletion l.slot q
        { id := l.id, status := if failed then 2 else 0, wave := false, relaunches := l.relaunches } s1) ∧
  ∀ (e : Completion), e.status < 2 ^ 32 → e.relaunches < 2 ^ 32 → e.gang < 2 ^ 32 → e.bytes.length = 32 ∧ natOfBytes e.bytes =
    e.id.toNat + e.status * 2 ^ 32 + (if e.wave then 2 ^ 64 else 0) + e.relaunches * 2 ^ 96 + e.cause.toNat * 2 ^ 128 + e.gang * 2 ^ 160 +
      e.sealNo.toNat * 2 ^ 192 + e.pc.toNat * 2 ^ 224

namespace Sys2Proof.Rule

/-- A candidate for placement: a gang being relaunched, an evicted gang, or a launch that is ready with a gang left to place (R258, R259, R269, R281). -/
def Candidate (s : State) : Cand → Prop
  | .again g => ∃ x ∈ s.gangs, x.uid = g ∧ x.state = .relaunching
  | .back g => ∃ x ∈ s.gangs, x.uid = g ∧ x.state = .evicted
  | .fresh u => ∃ l ∈ s.launches, l.uid = u ∧ launchReady s l = true

/-- The class of a candidate's launch. -/
def classOf (s : State) : Cand → Nat
  | .again g | .back g => (s.launch (s.gang g).launch).record.prio.toNat
  | .fresh u => (s.launch u).record.prio.toNat

/-- Within a class: gangs being relaunched, then evicted gangs, then launches (R269, R281). -/
def groupOf : Cand → Nat
  | .again _ => 0
  | .back _ => 1
  | .fresh _ => 2

/-- Within a group: when the gang was relaunched or evicted; when the launch's record was taken (R259, R281). -/
def turnOf (s : State) : Cand → Nat
  | .again g | .back g => (s.gang g).order
  | .fresh u => u

/-- One candidate is served no later than another. -/
def NotAfter (s : State) (a b : Cand) : Prop :=
  classOf s a < classOf s b ∨ (classOf s a = classOf s b ∧ (groupOf a < groupOf b ∨ (groupOf a = groupOf b ∧ turnOf s a ≤ turnOf s b)))

end Sys2Proof.Rule

/-- R32, R259, R260, R269, R281: the dispatcher. While the part is not halted there is a head as soon as there is a candidate: it is a candidate itself, and no other is served before it: lower class first, then in a class relaunched gangs, evicted gangs and launches, each in their order, of relaunch, of eviction, and of being taken. Only the head is placed, where it fits; where it does not, nothing is. A new gang of a launch is PLACED with the warps that R32 starts; the launch has one gang more placed. A restored gang is PLACED, and the threads and registers of its live warps are as they were. -/
def Sys2Proof.Rule.GangsArePlaced : Prop :=
  (∀ (s : State), (s.gangs.map fun g => g.uid).Nodup → (s.launches.map fun l => l.uid).Nodup →
    (s.haltedPart = true → headBid s = none) ∧
    (s.haltedPart = false → (headBid s = none ↔ ∀ c, ¬Rule.Candidate s c)) ∧
    ∀ b, headBid s = some b → Rule.Candidate s b.cand ∧ ∀ c, Rule.Candidate s c → Rule.NotAfter s b.cand c) ∧
  (∀ (s : State), (headBid s = none ∨ ∃ b, headBid s = some b ∧ b.cand.place s = none) →
    exec .gangDispatch s = .fault .notEnabled ∧ exec .gangRestore s = .fault .notEnabled) ∧
  (∀ (s : State) (b : Bid) (u cl : Nat) (plan : Plan), headBid s = some b → b.cand = .fresh u → b.cand.place s = some (cl, plan) →
    let l := s.launch u
    let g := s.nextGang
    (∀ x ∈ s.gangs, x.uid ≠ g) → s.hasLaunch u = true →
    ∃ t ws, exec .gangDispatch s = .next (settle t) ∧ (t.gang g).state = .placed ∧ (t.gang g).cluster = cl ∧ (t.gang g).launch = l.uid ∧
      (t.gang g).num = l.placed ∧ (t.launch u).placed = l.placed + 1 ∧ (∀ x, x ≠ g → t.gang x = s.gang x) ∧
      t.warps = s.warps ++ ws ∧ ∀ w ∈ ws, w.gang = g ∧ Rule.Started l (t.gang g) w) ∧
  (∀ (s : State) (b : Bid) (g cl : Nat) (plan : Plan), headBid s = some b → b.cand = .again g → b.cand.place s = some (cl, plan) →
    s.hasGang g = true → ∃ t, exec .gangDispatch s = .next (settle t) ∧ (t.gang g).state = .placed ∧ (t.gang g).cluster = cl ∧
      (t.gang g).retained = (s.gang g).retained) ∧
  ∀ (s : State) (b : Bid) (g cl : Nat) (plan : Plan), headBid s = some b → b.cand = .back g → b.cand.place s = some (cl, plan) →
    s.hasGang g = true → (s.warps.map fun w => w.uid).Nodup →
    ∃ t, exec .gangRestore s = .next (settle t) ∧ (t.gang g).state = .placed ∧ (t.gang g).cluster = cl ∧ (t.gang g).saved = 0 ∧
      ∀ w ∈ s.warps, (w.gang = g → w.retired = false) → (t.warp w.uid).threads = w.threads ∧ (t.warp w.uid).vregs = w.vregs ∧ (t.warp w.uid).uregs = w.uregs

namespace Sys2Proof.Rule

/-- A memory that differs from a state's in DRAM at most, and there in the lines of a set only. -/
def MemOutside (lines : Nat → Prop) (s : State) (m : Mem) : Prop :=
  m = { s.mem with dram := m.dram, lineKey := m.lineKey, poisonDram := m.poisonDram } ∧
  ∀ line, ¬lines line → Store.get 0 m.lineKey line = Store.get 0 s.mem.lineKey line ∧
    (∀ j < 128, m.dram.byte (128 * line + j) = s.mem.dram.byte (128 * line + j)) ∧
    ∀ j < 16, Store.get false m.poisonDram (16 * line + j) = Store.get false s.mem.poisonDram (16 * line + j)

end Sys2Proof.Rule

/-- R278 to R281, R381: eviction. A placed gang whose state fits its context's save area is EVICTED, behind every gang evicted before it, and takes its bytes there. With nothing outstanding its warps keep all but their pools, batches and shadows' queues (a register with an error is noted as recorded), the residencies whose home is a partition it leaves have none, and memory keeps its bytes but for those of the area: each byte of it that has a place of its own in DRAM stands there as ciphertext of the context's world (here: the area's pages are not those of its own tables). That the images stand in the order in which R279 adds them up, and that bytes it gives no place are free, is the model's choice (log 30). World 0 asks for eviction, for every placed gang of a context, by `evict`. -/
def Sys2Proof.Rule.EvictionFreezes : Prop :=
  (∀ (g : Nat) (s : State), (s.gang g).state = .placed → saveFits s (s.gang g) 0 = true → s.hasGang g = true →
    ∃ t, exec (.preemptEvict g) s = .next t ∧ (t.gang g).state = .evicted ∧ (t.gang g).saved = saveBytes s (s.gang g) ∧
      ((s.warps.map fun w => w.uid).Nodup → (∀ w ∈ s.warps, w.gang = g → w.ops = []) →
        (t.gang g).order = s.nextOrder ∧ t.nextOrder = s.nextOrder + 1 ∧
        (let slot := (s.launch (s.gang g).launch).slot
          let at' (j : Nat) : Option Nat := savePa s slot (((s.ctx slot).savebase.toNat + savedIn s slot + j) % 2 ^ 60)
          let size := saveBytes s (s.gang g)
          let inArea (line : Nat) : Prop := ∃ j < size, ∃ pa, at' j = some pa ∧ line = pa / 128
          (∀ m va, Rule.MemOutside inArea s m → savePa { s with mem := m } slot va = savePa s slot va) →
          Rule.MemOutside inArea s t.mem ∧ ∀ j < size, ∀ pa, at' j = some pa → placeOf s pa = .dram →
            Store.get 0 t.mem.lineKey (pa / 128) = keyGen s (s.ctx slot).world.toNat ∧
            ((∀ k < size, at' k = some pa → k = j) →
              t.mem.dram.byte pa = imagesByte (fun _ => false) 0 (gangImages s s.draws (s.gang g)) j)) ∧
        (∀ w ∈ s.warps, t.warp w.uid = if w.gang = g
          then { w.noteBad with pool := 0, batch := none, lag := [], queued := [], copy := none } else w) ∧
        ∀ r, let left := ∃ w ∈ s.warps, w.gang = g ∧ w.retired = false ∧ (s.res r).home = some (s.partNo w)
          ((s.res r).live = true → left → t.res r = { s.res r with home := none }) ∧ (¬left → t.res r = s.res r))) ∧
  ∀ (v : Word) (s : State), ∃ l, exec (.evictWrite v) s = .next { s with agenda := s.agenda ++ l } ∧
    ∀ i, i ∈ l ↔ ∃ g ∈ s.gangs, i = .preemptEvict g.uid ∧ g.state = .placed ∧ (s.launch g.launch).asid.toNat = v.toNat % 2 ^ 16

/-- R269, R271, R272, R364: ends that an error brings. The first report of a fatal trap ends its launch with status 5, with the trap's cause and PC and the gang's number and seal in the entry; the launch's gangs and their warps are gone. An uncorrectable error consumed by a gang CONTAINED, with fewer than 15 relaunches since its last seal, relaunches it: its version and blocks are discarded and its counts go up by one; otherwise its context is killed; the error counts at its location. -/
def Obligations.ErrorsEndGangs : Prop :=
  (∀ (k : Nat) (r : TrapReport) (s : State), s.reports[k]? = some r →
    let g := s.gang r.gang
    let l := s.launch g.launch
    let s1 : State := { s with reports := s.reports.eraseIdx k }
    (s.hasGang r.gang = false ∨ l.state.live = false → exec (.fatalTrap k) s = .next s1) ∧
    (s.hasGang r.gang = true → l.state.live = true → s.hasLaunch g.launch = true → ∃ t, exec (.fatalTrap k) s = .next t ∧
      t = stopLaunch g.launch { id := l.id, status := 5, wave := l.wave.isSome, relaunches := l.relaunches, cause := r.trap.cause, gang := g.num,
                                sealNo := g.retained.sealNo, pc := r.pc } s1 ∧
      (t.launch g.launch).state = .ended 5 ∧ (∀ x ∈ t.gangs, x.launch ≠ g.launch) ∧
      ∀ w ∈ t.warps, ∀ x ∈ s.gangs, x.launch = g.launch → w.gang ≠ x.uid)) ∧
  ∀ (g : Nat) (w : ErrWhere) (s : State), s.hasGang g = true → s.hasLaunch (s.gang g).launch = true →
    let x := s.gang g
    let l := s.launch x.launch
    let live := (x.state = .placed ∨ x.state = .evicted) ∧ l.state.live = true
    let key := w.ltype.toNat * 2 ^ 28 + w.loc.toNat
    (¬live → ∃ t, exec (.uncorrectableConsumed g w) s = .next t ∧ t = { s with mem := { s.mem with noted := t.mem.noted, notedL2 := t.mem.notedL2 } }) ∧
    (live → ∃ t, exec (.uncorrectableConsumed g w) s = .next t ∧ Store.get 0 t.ueCount key = Store.get 0 s.ueCount key + 1 ∧
      (x.retained.contain = true → x.retained.since < 15 → (t.gang g).state = .relaunching ∧ (t.gang g).version = [] ∧ (t.gang g).blocks = [] ∧
        (t.gang g).retained.relaunch = x.retained.relaunch + 1 ∧ (t.gang g).retained.since = x.retained.since + 1 ∧
        (t.launch x.launch).relaunches = l.relaunches + 1 ∧ ∀ v ∈ t.warps, v.gang ≠ g) ∧
      (x.retained.contain = false ∨ 15 ≤ x.retained.since → Rule.Killed l.slot t))

/-- R273 to R277, R310: recoverable faults. A fault forms the next batch, its own page first, with the other faults of its warp where both are of the warp's own accesses; each page stands once, 33 at most, and the warp stops. Where such a batch of the warp is pending with room, the fault and the warp's others join it instead. A reply for a batch that is not pending is ignored. `fqretry` ends the batch: the warp goes on, what had faulted may be sent again, and the requests from outside that waited for it are made again, in their order, ahead of all others, which is the model's choice (log 43). `fqrefuse` answers the first of those, the one that met the page, with an error, makes those behind it again, and raises TRANSLATION asynchronously for the batch's first page. `fqhead` makes room, and the batches that wait are written in order while they fit. A scout's probe of a page that is not present is a fault of kind 6 of its own. How far a warp runs ahead, and that its further pages join its batch so, is the model's reading (log 13). -/
def Obligations.FaultsAreBatched : Prop :=
  (∀ (k : Nat) (f : FaultReport) (s : State), s.faults[k]? = some f →
    let own (x : FaultReport) : Bool := x.ahead || decide (x.kind ≤ 2)
    let joins (x : FaultReport) : Bool := own f && x.op.warp == f.op.warp && own x
    let mine := f :: (s.faults.eraseIdx k).filter joins
    let ops := (mine.filter fun x => !x.ahead).map fun x => x.op
    let page (x : FaultReport) : Nat × Nat × Nat × Nat × Bool := (x.world, x.asid, x.va, x.kind, x.ahead)
    let same (p q : Nat × Nat × Nat × Nat × Bool) : Prop := p.1 = q.1 ∧ p.2.1 = q.2.1 ∧ p.2.2.1 / 65536 = q.2.2.1 / 65536
    let room (b : Batch) : Prop := b ∈ s.batches ∧ (s.warp f.op.warp).batch = some b.ident ∧ b.pages.length < 33 ∧
      ∃ p, b.pages.head? = some p ∧ p.2.2.2.1 ≤ 2
    let rest := (s.faults.eraseIdx k).filter fun x => !joins x
    (¬(own f = true ∧ ∃ b, room b) → ∃ t bt, exec (.recoverableFault k) s = .next t ∧ t.faults = rest ∧
      t.batches.getLast? = some bt ∧ t.batches.length = s.batches.length + 1 ∧ bt.ident = .ofNat 32 s.nextBatch ∧
      bt.pages.head? = some (page f) ∧ bt.pages.length ≤ 33 ∧ bt.pages.Pairwise (fun p q => ¬same p q) ∧ (∀ p ∈ bt.pages, ∃ x ∈ mine, p = page x) ∧
      (bt.pages.length < 33 → ∀ x ∈ mine, ∃ p ∈ bt.pages, same p (page x)) ∧ bt.ops = ops ∧ bt.lane = f.lane ∧ bt.pc = f.pc ∧
      t.nextBatch = (if s.nextBatch = 2 ^ 32 - 1 then 1 else s.nextBatch + 1) ∧
      (f.kind ≤ 5 → s.hasWarp f.op.warp = true → (t.warp f.op.warp).batch = some (.ofNat 32 s.nextBatch))) ∧
    (own f = true → (s.batches.map fun b => b.ident).Nodup → ∀ b, room b → ∃ t bt, exec (.recoverableFault k) s = .next t ∧ t.faults = rest ∧
      t.nextBatch = s.nextBatch ∧ (t.batches.map fun b => b.ident) = (s.batches.map fun b => b.ident) ∧ s.batch b.ident = some b ∧
      t.batch b.ident = some bt ∧ bt.ops = b.ops ++ ops ∧ bt.pages.length ≤ 33 ∧ bt.pages.take b.pages.length = b.pages ∧
      (bt.pages.length < 33 → ∀ x ∈ mine, ∃ p ∈ bt.pages, same p (page x)))) ∧
  (∀ (b : Word) (s : State), s.batch b = none → exec (.fqreplyRetry b) s = .next s ∧ exec (.fqreplyRefuse b) s = .next s) ∧
  (∀ (b : Word) (x : Batch) (s : State), s.batch b = some x →
    let others := s.batches.filter fun y => y.ident != b
    let waiting := (s.waiters.filter fun y => y.1 == b).map fun y => y.2.2
    let stay := s.waiters.filter fun y => y.1 != b
    let anew (o : Op) (y : Slot) : Slot := if isLoad o.ins then { y with answer := none, data := 0 } else y
    (∃ t, exec (.fqreplyRetry b) s = .next t ∧ t.batches = others ∧ t.waiters = stay ∧ t.agenda = waiting ++ s.agenda ∧
      (∀ u, (t.warp u).batch = if (s.warp u).batch = some b then none else (s.warp u).batch) ∧
      (∀ r ∈ x.ops, ∀ o, s.opOf r = some o → t.opOf r =
        some (if o.state = .faulted then { o with state := .notSent, replay := true, slots := o.slots.map (anew o) } else o))) ∧
    ∀ r w a va kind ahead, x.ops.head? = some r → x.pages.head? = some (w, a, va, kind, ahead) →
      ∃ t, exec (.fqreplyRefuse b) s = .next t ∧ t.batches = others ∧ t.waiters = stay ∧
        (waiting = [] → t.sent = s.sent ∧ t.agenda = s.agenda) ∧
        (∀ i rest, waiting = i :: rest → (∀ q, i ≠ .doeRequest q) → i ≠ .doeResponseCollect →
          t.agenda = rest ++ s.agenda ∧ t.sent = s.sent ++ [match i with
            | .peerRequest _ => .peerError
            | _ => .hostAbort]) ∧
        (kind ≤ 5 → s.hasWarp r.warp = true → (t.warp r.warp).asyncTrap.isSome = true ∧
          ((s.warp r.warp).asyncTrap = none → ∃ l pc i, (t.warp r.warp).asyncTrap =
              some (l, pc, { cause := 0x03, addr := .ofNat 64 va, info := i ||| 0x80000000 }) ∧
            (s.opOf r = none → l = x.lane ∧ pc = x.pc)))) ∧
  (∀ (v : Word) (s : State), (s.batches.map fun b => b.ident).Nodup → ∃ t, exec (.fqheadWrite v) s = .next t ∧ t.mgmt.fqhead = v ∧
    (t.batches.map fun b => b.ident) = (s.batches.map fun b => b.ident) ∧
    ((∀ b ∈ s.batches, b.pages.length ≤ b.out) → t = { s with mgmt := { s.mgmt with fqhead := v } }) ∧
    ∀ b, (t.batches.find? fun b => decide (b.out < b.pages.length)) = some b → s.mgmt.fqlogn = 0 ∨ fqRoom t < b.pages.length - b.out) ∧
  ∀ (r : OpRef) (o : Op) (va : DWord) (s s1 : State) (x : Xlat), s.opOf r = some o → va.toNat ∈ scoutNext s r → va.toNat < 2 ^ 60 →
    let sp := s.space (s.warp r.warp)
    let s0 := s.onOp r fun o => { o with run := { o.run with scouted := va.toNat :: o.run.scouted } }
    translate (sp.loc va.toNat) .read false s0 = (x, s1) →
      exec (.scoutProbe r va) s = .next (if x = .notPresent ∧ fastFault s1 sp.asid = false
        then { s1 with faults := s1.faults ++ [{ op := r, world := sp.world, asid := sp.asid, va := va.toNat, kind := 6 }] } else s1)

/-- R287 to R290: keepers. A warp whose keeper reaches its limit escalates: its count starts anew and its block's goes up by one. Where that is max(1, min(255, cklim)) or more the warp stops with KEEPER, or DOUBLE with KEEPER's code for a thread in its handler, in its lowest live lane, and the trap is fatal. The command processor's keeper of a queue leaves a notice with the launch, the queue and the context in knote, with vector 3; that its limit is that of cluster 0 is the model's reading (log 52). -/
def Sys2Proof.Rule.KeepersEscalate : Prop :=
  (∀ (u : Nat) (s : State), keeperDue s u = true → s.hasWarp u = true →
    let w := s.warp u
    let lim := max 1 (min 255 (s.cluster (s.warpGang w).cluster).cklim.toNat)
    let n := (s.warpBlock w).escalations + 1
    s.hasGang w.gang = true → w.rank < (s.gang w.gang).blocks.length →
    ∃ t, exec (.warpKeeperExpiry u) s = .next t ∧ (t.warp u).keeper = 0 ∧ (t.block w.gang w.rank) = { s.warpBlock w with escalations := n } ∧
      (n < lim → t.reports = s.reports ∧ (t.warp u) = { w with keeper := 0 }) ∧
      (lim ≤ n → ∀ l, w.live.head? = some l → w.asyncTrap = none → (t.warp u).stopped = true ∧
        t.reports = s.reports ++ [{ warp := u, gang := w.gang, pc := (w.thread l).pc, trap := if (w.thread l).handler then { cause := 0x0C, info := 0x8000000D } else { cause := 0x0D, info := 0x80000001 } }])) ∧
  ∀ (slot q : Nat) (s : State) (l : Launch), queueKeeperDue s slot q = true → keeperLaunch s slot q = some l → slot < 256 → q < 16 →
    ∃ t, exec (.commandKeeperExpiry slot q) s = .next t ∧ ((t.ctx slot).queue q).keeper = 0 ∧ t.mgmt.intst = s.mgmt.intst ||| 0x08 ∧
      t.mgmt.knote = .ofNat 64 (l.id.toNat + q * 2 ^ 32 + slot * 2 ^ 36 + 2 ^ 63)

/-! ## The DOE interface and the SPDM responder (R227, R389 to R396) -/

namespace Sys2Proof.Rule

/-- The version a request must carry (R389). -/
def version (code : Nat) : Nat := if code = 0x84 then 0x10 else 0x12

/-- The states a request is accepted in (R391): 0 none, 1 VERSIONED, 2 CAPS, 3 NEGOTIATED. -/
def accepted (code : Nat) (x : Spdm) : Prop :=
  (code = 0x84) ∨ (code = 0xE1 ∧ x.state = 1) ∨ (code = 0xE3 ∧ x.state = 2) ∨
    ((code = 0x81 ∨ code = 0x82 ∨ code = 0xE0) ∧ x.state = 3) ∨ (code = 0x83 ∧ x.state = 3 ∧ x.partialRead = false)

/-- The event that answers a request code. -/
def answering (code : Nat) : Option Instr :=
  if code = 0x84 then some .getVersion else if code = 0xE1 then some .getCapabilities else if code = 0xE3 then some .negotiateAlgorithms
  else if code = 0x81 then some .getDigests else if code = 0x82 then some .getCertificate else if code = 0x83 then some .challenge
  else if code = 0xE0 then some .getMeasurements else none

def byteAt (r : List Byte) (k : Nat) : Nat := (r.getD k 0).toNat
def halfAt (r : List Byte) (k : Nat) : Nat := byteAt r k + 2 ^ 8 * byteAt r (k + 1)
def wordAt (r : List Byte) (k : Nat) : Nat := halfAt r k + 2 ^ 16 * halfAt r (k + 2)

/-- A field of a request is malformed (R390, R391, R393). -/
def malformed (code : Nat) (r : List Byte) (s : State) : Prop :=
  let chain := (s.certs.getD (byteAt r 2) {}).chain
  (code = 0xE3 ∧ ((wordAt r 8).testBit 8 = false ∨ (wordAt r 12).testBit 2 = false)) ∨
    (code = 0x82 ∧ (8 ≤ byteAt r 2 ∨ chain.length ≤ halfAt r 4)) ∨
    (code = 0x83 ∧ (8 ≤ byteAt r 2 ∨ chain = [] ∨ (byteAt r 3 ≠ 0 ∧ byteAt r 3 ≠ 1 ∧ byteAt r 3 ≠ 0xFF))) ∨
    (code = 0xE0 ∧ 33 ≤ byteAt r 3 ∧ byteAt r 3 ≠ 0xFF)

/-- The block of measurement i + 1 (R388, R393). -/
def block (s : State) (i : Nat) : List Byte := [.ofNat 8 (i + 1), 0x01, 67, 0, .ofNat 8 (min i 3), 64, 0] ++ s.measureOf i

/-- A signature over a message under a context (R392). -/
def signed (context : String) (m : List Byte) : List Byte :=
  let text (t : String) : List Byte := t.toList.map fun c => .ofNat 8 c.toNat
  let dmtf := text "dmtf-spdm-v1.2.*"
  ecdsaSign Config.attestKey (sha512 (dmtf ++ dmtf ++ dmtf ++ dmtf ++ List.replicate (36 - context.length) 0 ++ text context ++ sha512 m))

end Sys2Proof.Rule

/-- R389, R391, R396: a request that the responder of the model takes (log 17), by the first row that applies: a code it does not know gets ERROR UnsupportedRequest, a wrong version VersionMismatch, a wrong state UnexpectedRequest, a malformed field InvalidRequest; no such answer changes a state or a transcript. -/
def Sys2Proof.Rule.SpdmErrors : Prop :=
  ∀ (r : List Byte) (s : State), spdmRequest s = some r →
    let code := Rule.byteAt r 1
    let error (c : Byte) (i : Instr) : Prop := exec i s = .next (sendSpdm [0x12, 0x7F, c, 0] s)
    (Rule.answering code = none → error 0x07 .spdmUnsupportedRequest) ∧
    ∀ i, Rule.answering code = some i →
      (Rule.byteAt r 0 ≠ Rule.version code → error 0x41 i) ∧
      (Rule.byteAt r 0 = Rule.version code → ¬Rule.accepted code s.spdm → error 0x04 i) ∧
      (Rule.byteAt r 0 = Rule.version code → Rule.accepted code s.spdm → Rule.malformed code r s → error 0x01 i)

/-- R389 to R394: the responses, and what follows in the responder: its state, the partial flag and the transcripts A, B and L. That the nonce is A0 to BF always, as R397 has it, and that a CHALLENGE_AUTH has the digest of the chain as the last CERTIFICATE of its slot has shown it, is the model's reading (log 17). -/
def Sys2Proof.Rule.SpdmResponses : Prop :=
  ∀ (r : List Byte) (s : State) (i : Instr), spdmRequest s = some r →
    let code := Rule.byteAt r 1
    let p1 := Rule.byteAt r 2
    let p2 := Rule.byteAt r 3
    let x := s.spdm
    Rule.answering code = some i → Rule.byteAt r 0 = Rule.version code → Rule.accepted code x → ¬Rule.malformed code r s →
    let answer (bs : List Byte) (y : Spdm) : Prop := exec i s = .next (sendSpdm bs { s with spdm := y })
    let chain (k : Nat) : List Byte := (s.certs.getD k {}).chain
    let nonce : List Byte := (List.range 32).map fun k => .ofNat 8 (0xA0 + k)
    (code = 0x84 → let bs : List Byte := [0x10, 0x04, 0, 0, 0, 1, 0x00, 0x12]
      answer bs { x with state := 1, partialRead := false, a := r ++ bs, b := [], l := [], shown := [] }) ∧
    (code = 0xE1 → let bs := [0x12, 0x61, 0, 0, 0, 0x14, 0, 0] ++ bytesOfNat 4 0x16 ++ bytesOfNat 4 4096 ++ bytesOfNat 4 4096
      answer bs { x with state := 2, a := x.a ++ r ++ bs }) ∧
    (code = 0xE3 → let bs := [0x12, 0x63, 0, 0, 36, 0, 1, 0] ++ bytesOfNat 4 8 ++ bytesOfNat 4 0x100 ++ bytesOfNat 4 4 ++ List.replicate 16 0
      answer bs { x with state := 3, a := x.a ++ r ++ bs }) ∧
    (code = 0x81 → let full := (List.range 8).filter fun k => chain k != []
      let bs := [0x12, 0x01, 0, .ofNat 8 (full.map fun k => 2 ^ k).sum] ++ (full.map fun k => sha512 (chain k)).flatten
      answer bs { x with b := x.b ++ r ++ bs }) ∧
    (code = 0x82 → let off := Rule.halfAt r 4
      let n := min (min (Rule.halfAt r 6) ((chain p1).length - off)) 4088
      let rest := (chain p1).length - off - n
      let bs := [0x12, 0x02, .ofNat 8 p1, 0] ++ bytesOfNat 2 n ++ bytesOfNat 2 rest ++ ((chain p1).drop off).take n
      answer bs { x with partialRead := decide (rest ≠ 0), b := x.b ++ r ++ bs, shown := Store.put [] x.shown p1 (chain p1) }) ∧
    (code = 0x83 → let blocks := ((List.range (if p2 = 1 then 4 else 32)).map (Rule.block s)).flatten
      let bs := [0x12, 0x03, .ofNat 8 p1, .ofNat 8 (2 ^ p1)] ++ sha512 (Store.get (chain p1) x.shown p1) ++ nonce ++ (if p2 = 0 then [] else sha512 blocks) ++ [0, 0]
      let sig := Rule.signed "responder-challenge_auth signing" (x.a ++ x.b ++ r ++ bs)
      answer (bs ++ sig) { x with b := [] }) ∧
    (code = 0xE0 → let is := if p2 = 0 then [] else if p2 = 0xFF then List.range 32 else [p2 - 1]
      let bs := [0x12, 0x60, if p2 = 0 then 32 else 0, 0, .ofNat 8 is.length] ++ bytesOfNat 3 (71 * is.length) ++
        (is.map (Rule.block s)).flatten ++ nonce ++ [0, 0]
      let sig := Rule.signed "responder-measurements signing" (x.a ++ x.l ++ r ++ bs)
      (p1 % 2 = 0 → answer bs { x with l := x.l ++ r ++ bs }) ∧ (p1 % 2 = 1 → answer (bs ++ sig) { x with l := [] }))

/-- n bytes from a place as everyone outside every gang reads them. -/
def Rule.committed (s : State) (k n : Nat) : List Byte := (List.range n).map fun j => homeByte s none (k + j)

/-- Some byte of a range lies in a granule of L2 that is poisoned (R363). -/
def Rule.PoisonIn (s : State) (k n : Nat) : Prop := ∃ j < n, Store.get false s.mem.poisonL2 ((k + j) / 8) = true

/-- A DOE request waits for a page of the mailbox. -/
def Rule.isDoe (x : Word × Nat × Instr) : Bool := match x.2.2 with
  | .doeRequest _ => true
  | _ => false

/-- R227, R248, R395: the DOE interface. A request of fewer than 4 or more than 4,096 bytes, or one that no mailbox can take, is answered with the Error bit; while one is out, or waits for a page of the mailbox, a later one waits behind it; else, where the mailbox is reached, it is delivered: its bytes, its length and its number stand in the mailbox, its number is the next, and a CHALLENGE sets the hold of the slot it names, no other request any. Once firmware has answered, the DOE interface returns the response of rslen bytes; the hold has cleared, and a staged chain stands in its slot. Where the mailbox has gone, the request that is out and all that wait get the Error bit. Which requests get the Error bit is the model's reading where R395 does not say (log 17). -/
def Sys2Proof.Rule.DoeDelivers : Prop :=
  (∀ (bs : List Byte) (s : State),
    let x := s.spdm
    let bad := bs.length < 4 ∨ 4096 < bs.length ∨ mailOk s = false
    let k := (mailSpace s).loc (mailBase s)
    (bad → exec (.doeRequest bs) s = .next { s with spdm := { x with responses := x.responses ++ [none] } }) ∧
    (¬bad → x.awaiting = true → exec (.doeRequest bs) s = .next { s with spdm := { x with waiting := x.waiting ++ [bs] } }) ∧
    (¬bad → x.awaiting = false → ∀ y, s.waiters.find? Rule.isDoe = some y →
      exec (.doeRequest bs) s = .next { s with waiters := s.waiters ++ [(y.1, y.2.1, .doeRequest bs)] }) ∧
    (¬bad → x.awaiting = false → s.waiters.find? Rule.isDoe = none → mailBase s + 0x3000 ≤ 2 ^ 60 → (∀ j < 0x3000, Rule.Reached s (k + j) .write) →
      ∃ t, exec (.doeRequest bs) s = .next t ∧
      let held := if bs.getD 1 0 = 0x83 ∧ (bs.getD 2 0).toNat < 8 then some (bs.getD 2 0).toNat else none
      t.spdm = { x with delivered := x.delivered + 1, awaiting := true, held } ∧
      Rule.committed t k 8 = bytesOfNat 4 (x.delivered + 1).toNat ++ bytesOfNat 4 bs.length ∧ Rule.committed t (k + 0x1000) bs.length = bs ∧
      ∀ k < 8, (t.certs.getD k {}) = if held = some k ∧ k < s.certs.length then { s.certs.getD k {} with hold := true } else s.certs.getD k {})) ∧
  ∀ (s : State), s.spdm.awaiting = true → (∀ y ∈ s.waiters, y.2.2 ≠ .doeResponseCollect) →
    let k := (mailSpace s).loc (mailBase s)
    let released (t : State) : Prop := ∀ k < s.certs.length, let c := s.certs.getD k {}
      (t.certs.getD k {}) = if s.spdm.held = some k then { chain := c.staged.getD c.chain, staged := none, hold := false } else c
    (mailOk s = true → answered s = true → s.spdm.waiting = [] → mailBase s + 0x3000 ≤ 2 ^ 60 → (∀ j < 0x3000, Rule.Reached s (k + j) .read) →
      ¬Rule.PoisonIn s k 0x3000 →
      ∃ t, exec .doeResponseCollect s = .next t ∧ released t ∧
        let n := min 4096 (natOfBytes (Rule.committed s (k + 12) 4))
        t.spdm = { s.spdm with awaiting := false, held := none, responses := s.spdm.responses ++ [some (Rule.committed s (k + 0x2000) n)] }) ∧
    (mailOk s = false → answered s = false → ∃ t, exec .doeResponseCollect s = .next t ∧
      let all := s.spdm.responses ++ List.replicate (s.spdm.waiting.length + 1) none
      t.spdm = { s.spdm with awaiting := false, waiting := [], responses := all })

/-! ## Reliability (R359 to R374, R362) -/

namespace Sys2Proof.Rule

/-- The error ring has room and nothing waits for it (R371, R372). -/
def RingOpen (s : State) : Prop :=
  s.mgmt.erlogn ≠ 0 ∧ s.pendingErrs = [] ∧
    (s.mgmt.ertail.toNat + 2 ^ 32 - s.mgmt.erhead.toNat) % 2 ^ 32 < 2 ^ (max 4 (min 16 s.mgmt.erlogn.toNat))

/-- A record has been written: ertail is one more and vector 2 is set. -/
def Written (s t : State) : Prop := t.mgmt.ertail = s.mgmt.ertail + 1 ∧ t.mgmt.intst.getLsbD 2 = true

/-- The location of an error record as one number, by which errors are counted (R373, R374). -/
def place (w : ErrWhere) : Nat := w.ltype.toNat * 2 ^ 28 + w.loc.toNat

/-- A request of the host (port 18, PCIe) or of a peer came in over a port. -/
def cameBy (port : Nat) : Instr → Bool
  | .hostWindowRead .. | .hostWindowWrite .. => port == 18
  | .peerRequest r => port == r.port
  | _ => false

/-- What a request completes with where its link goes down: poison, and for a posted host write nothing (R362, R410). -/
def lostAnswer : Instr → List Outward
  | .hostWindowRead _ _ n => [.hostData (List.replicate n 0) true]
  | .peerRequest r => match r.op with
    | .read n => [.peerData (List.replicate n 0) true]
    | .write _ => [.peerData [] true]
    | .atomic _ ty _ => [.peerData (List.replicate (4 * ty.regs) 0) true]
  | _ => []

end Sys2Proof.Rule

/-- R362, R371, R374: an error that is corrected changes no data: it is counted at its location, and a record is written where the ring is set up and has room; a count that has reached cethr makes the unit's retirement pending (that it does so at the first error that finds the count there is log 50). A failed link flit that a retry or retraining mends counts so; one that does not disables the port, which then fails no more: the requests that wait inside the part and came in over it complete with poison, and those of other ports wait on. -/
def Sys2Proof.Rule.CorrectedErrorsCount : Prop :=
  (∀ (site : UpsetSite) (s : State), unchecked site = false →
    let w := siteWhere s site
    let n := Store.get 0 s.ceCount (Rule.place w) + 1
    ∃ t, exec (.softError site true) s = .next t ∧ Store.get 0 t.ceCount (Rule.place w) = n ∧ t.warps = s.warps ∧ t.gangs = s.gangs ∧
      t.ctxs = s.ctxs ∧ t.caches = s.caches ∧
      (s.mgmt.erlogn = 0 → (s.mgmt.cethr = 0 ∨ n < s.mgmt.cethr.toNat) → t = { s with ceCount := t.ceCount }) ∧
      (Rule.RingOpen s → (s.mgmt.cethr = 0 ∨ n < s.mgmt.cethr.toNat) → Rule.Written s t) ∧
      (s.mgmt.cethr ≠ 0 → s.mgmt.cethr.toNat ≤ n → w.ltype.toNat ∈ [0, 1, 3, 4, 5] → Store.get false t.retire (Rule.place w) = true)) ∧
  ∀ (port lane : Nat) (x : LinkOutcome) (s : State),
    let w := linkWhere port lane
    (Store.get false s.deadPorts port = true → exec (.linkError port lane x) s = .next s) ∧
    (Store.get false s.deadPorts port = false → ∃ t, exec (.linkError port lane x) s = .next t ∧
      (x ≠ .disabled → Store.get 0 t.ceCount (Rule.place w) = Store.get 0 s.ceCount (Rule.place w) + 1 ∧ t.deadPorts = s.deadPorts) ∧
      (x = .disabled → Store.get false t.deadPorts port = true ∧ Store.get 0 t.ueCount (Rule.place w) = Store.get 0 s.ueCount (Rule.place w) + 1 ∧
        t.waiters = s.waiters.filter (fun y => !Rule.cameBy port y.2.2) ∧
        ∃ more, t.sent = s.sent ++ ((s.waiters.filter fun y => Rule.cameBy port y.2.2).map fun y => Rule.lostAnswer y.2.2).flatten ++ more))

/-- R362, R363, R367, R370: an error that is not corrected is left to be found, at its register, its accumulator, 64 bits of a scale store, residency or scratchpad, or its granule of L2, of a gang's version, of a replica or of DRAM; a line of L1 or of the constant cache is dropped, and counts as corrected; of an L2 tag both copies halt the part, one counts as corrected; a wrong arithmetic result changes the main warp's register or predicate alone, and a shadow keeps the right value, unless both come to the same; what R370 leaves unchecked is counted and recorded nowhere. -/
def Sys2Proof.Rule.UncorrectedErrorsStay : Prop :=
  (∀ (u l i : Nat) (s : State), s.hasWarp u = true → l < 64 → ∃ t, exec (.softError (.vreg u l i) false) s = .next t ∧ OnlyWarp u s t ∧
    (t.warp u).vreg i l = { (s.warp u).vreg i l with bad := true, noted := false }) ∧
  (∀ (u i : Nat) (s : State), s.hasWarp u = true → ∃ t, exec (.softError (.ureg u i) false) s = .next t ∧ OnlyWarp u s t ∧
    (t.warp u).ureg i = { (s.warp u).ureg i with bad := true, noted := false }) ∧
  (∀ (g r a : Nat) (s : State), s.hasGang g = true → r < (s.gang g).blocks.length → ∃ t, exec (.softError (.scratch g r a) false) s = .next t ∧
    t = { s with gangs := t.gangs } ∧ Store.get false (t.block g r).badScratch (a / 8) = true ∧ (t.block g r).scratch = (s.block g r).scratch) ∧
  (∀ (g r p tile e : Nat) (s : State), s.hasGang g = true → r < (s.gang g).blocks.length → ∃ t, exec (.softError (.accumulator g r p tile e) false) s = .next t ∧
    t = { s with gangs := t.gangs } ∧ Store.get false (t.block g r).badAcc (accKey p tile e) = true ∧ (t.block g r).acc = (s.block g r).acc) ∧
  (∀ (g r p byte : Nat) (s : State), s.hasGang g = true → r < (s.gang g).blocks.length → ∃ t, exec (.softError (.scale g r p byte) false) s = .next t ∧
    t = { s with gangs := t.gangs } ∧ Store.get false (t.block g r).badScale (p * 512 + byte / 8) = true ∧ (t.block g r).scale = (s.block g r).scale) ∧
  (∀ (c i byte : Nat) (s : State), ∃ t, exec (.softError (.residency c i byte) false) s = .next t ∧ t = { s with ctxs := t.ctxs } ∧
    t.res (c, i) = { s.res (c, i) with bad := (t.res (c, i)).bad } ∧ Store.get false (t.res (c, i)).bad (byte / 8) = true) ∧
  (∀ (core k : Nat) (s : State), ∃ t, exec (.softError (.l1 core k) false) s = .next t ∧
    (∀ j, j / 128 = k / 128 → (t.cache core).word j = none) ∧ t.mem.l2 = s.mem.l2 ∧
    let w := siteWhere s (.l1 core k)
    Store.get 0 t.ceCount (Rule.place w) = Store.get 0 s.ceCount (Rule.place w) + 1) ∧
  (∀ (core k : Nat) (s : State), ∃ t, exec (.softError (.constCache core k) false) s = .next t ∧
    (∀ e ∈ (t.cache core).consts, e.1 / 128 ≠ k / 128) ∧ t.mem.l2 = s.mem.l2 ∧
    let w := siteWhere s (.constCache core k)
    Store.get 0 t.ceCount (Rule.place w) = Store.get 0 s.ceCount (Rule.place w) + 1) ∧
  (∀ (k : Nat) (s : State), (linePresent s k = true → ∃ t, exec (.softError (.l2 k) false) s = .next t ∧
      t = { s with mem := { s.mem with poisonL2 := t.mem.poisonL2, notedL2 := t.mem.notedL2 } } ∧ Store.get false t.mem.poisonL2 (k / 8) = true) ∧
    (linePresent s k = false → exec (.softError (.l2 k) false) s = .next s)) ∧
  (∀ (g k : Nat) (s : State), s.hasGang g = true → ((∃ e ∈ (s.gang g).version, e.1 / 128 = k / 128) →
      ∃ t, exec (.softError (.l2shadow g k) false) s = .next t ∧ t = { s with gangs := t.gangs } ∧
        Store.get false (t.gang g).badVersion (k / 8) = true ∧ (t.gang g).version = (s.gang g).version) ∧
    ((∀ e ∈ (s.gang g).version, e.1 / 128 ≠ k / 128) → exec (.softError (.l2shadow g k) false) s = .next s)) ∧
  (∀ (slice line launch byte : Nat) (s : State), ∃ t, exec (.softError (.l2replica slice line launch byte) false) s = .next t ∧
    t = { s with mem := { s.mem with replicas := s.mem.replicas.map fun r =>
      if r.slice = slice ∧ r.line = line ∧ r.launch = launch then { r with bad := byte % 128 / 8 :: r.bad } else r } }) ∧
  (∀ (pa : Nat) (s : State), placeOf s pa = .dram → ∃ t, exec (.softError (.dram pa) false) s = .next t ∧
    t = { s with mem := { s.mem with poisonDram := t.mem.poisonDram, noted := t.mem.noted } } ∧ Store.get false t.mem.poisonDram (pa / 8) = true) ∧
  (∀ (sl : Nat) (s : State), ∃ t, exec (.softError (.l2tag sl true) false) s = .next t ∧ t.haltedPart = true) ∧
  (∀ (u l i : Nat) (flip : Word) (c : Bool) (s : State), s.hasWarp u = true → l < 64 → ∃ t, exec (.softError (.arith u l i flip) c) s = .next t ∧
    OnlyWarp u s t ∧ ((t.warp u).vreg i l).val = ((s.warp u).vreg i l).val ^^^ flip ∧
    ((s.warpLaunch (s.warp u)).record.shadow = true → flip ≠ 0 → Store.get none (s.warp u).shadowV (vkey i l) = none →
      Store.get none (t.warp u).shadowV (vkey i l) = some ((s.warp u).vreg i l).val) ∧
    ((s.warpLaunch (s.warp u)).record.shadow = false → (t.warp u).shadowV = (s.warp u).shadowV)) ∧
  (∀ (u i : Nat) (flip : Word) (c : Bool) (s : State), s.hasWarp u = true → ∃ t, exec (.softError (.arithU u i flip) c) s = .next t ∧
    OnlyWarp u s t ∧ ((t.warp u).ureg i).val = ((s.warp u).ureg i).val ^^^ flip ∧
    ((s.warpLaunch (s.warp u)).record.shadow = true → flip ≠ 0 → Store.get none (s.warp u).shadowU i = none →
      Store.get none (t.warp u).shadowU i = some ((s.warp u).ureg i).val)) ∧
  (∀ (u l p : Nat) (c : Bool) (s : State), s.hasWarp u = true → l < (s.warp u).threads.length → p < 7 → ∃ t, exec (.softError (.arithP u l p) c) s = .next t ∧
    OnlyWarp u s t ∧ ((t.warp u).thread l).preds = ((s.warp u).thread l).preds ^^^ (1#7 <<< p) ∧
    ((s.warpLaunch (s.warp u)).record.shadow = true → Store.get none (s.warp u).shadowT l = none →
      ∃ k, Store.get none (t.warp u).shadowT l = some k ∧ k.preds = ((s.warp u).thread l).preds)) ∧
  (∀ (u l i : Nat) (flip : Word) (c : Bool) (s : State), s.hasWarp u = true → l < 64 → ∃ t, exec (.softError (.both u l i flip) c) s = .next t ∧
    OnlyWarp u s t ∧ ((t.warp u).vreg i l).val = ((s.warp u).vreg i l).val ^^^ flip ∧ (t.warp u).shadowV = (s.warp u).shadowV) ∧
  (∀ (u i : Nat) (flip : Word) (c : Bool) (s : State), s.hasWarp u = true → ∃ t, exec (.softError (.bothU u i flip) c) s = .next t ∧
    OnlyWarp u s t ∧ ((t.warp u).ureg i).val = ((s.warp u).ureg i).val ^^^ flip ∧ (t.warp u).shadowU = (s.warp u).shadowU) ∧
  (∀ (u l p : Nat) (c : Bool) (s : State), s.hasWarp u = true → l < (s.warp u).threads.length → p < 7 → ∃ t, exec (.softError (.bothP u l p) c) s = .next t ∧
    OnlyWarp u s t ∧ ((t.warp u).thread l).preds = ((s.warp u).thread l).preds ^^^ (1#7 <<< p) ∧ (t.warp u).shadowT = (s.warp u).shadowT) ∧
  ∀ (site : UpsetSite) (c : Bool) (s : State), unchecked site = true → ∃ t, exec (.softError site c) s = .next t ∧ t.ceCount = s.ceCount ∧
    t.ueCount = s.ueCount ∧ t.pendingErrs = s.pendingErrs ∧ t.mgmt = s.mgmt ∧ t.agenda = s.agenda ∧ t.haltedPart = s.haltedPart

/-- R366, R368: a shadow that holds something else. An instruction whose request leaves the warp, met while the shadow differs from the warp, is held and compared: where a register or predicate it reads differs in an active lane, the shadow's guard makes other lanes active, or the shadow would be at another word, the request is not made, and the gang has met an uncorrectable error, source 0x0E, at its partition. So it is where the request has no active lane, and for an EMPTY-READ of any instruction. That the copy is computed with the warp's issue is the model's way (log 29). -/
def Sys2Proof.Rule.ShadowMismatchIsCaught : Prop :=
  ∀ (i : Instr) (s : State) (b : Bundle), (raw i).isSome = true → s.cur = some b →
    let w := s.warp b.warp
    let lanes := lanesOf b.lanes
    let (gn, gp) := guardOf i
    let differs (w : Warp) (act : List Nat) : Prop :=
      lanes.filter (fun l => (w.asShadow.thread l).guard gn gp) ≠ act ∨ (∃ l ∈ lanes, w.strays l = true) ∨
        ∃ l ∈ act, (∃ u ∈ uses i, u.differs w w.asShadow l = true) ∨ ∃ p ∈ predsOf i Pos.reads, (w.thread l).pred p ≠ (w.asShadow.thread l).pred p
    let held (s : State) : Host.Outcome State Fault Refusal := .next { s with agenda := s.agenda ++ [.uncorrectableConsumed w.gang
      { addr := 0, pa := false, source := 0x0E, ltype := 0, loc := .ofNat 28 (s.partNo w) }] }
    w.asyncTrap = none → w.diverged = true →
    (∀ act, leavesWarp i = true → check i b s = .go act → differs (w.moved lanes b.pc) act → exec i s = held (s.advance b.warp lanes b.pc)) ∧
    (leavesWarp i = true → check i b s = .skip → differs w [] → exec i s = held s) ∧
    (∀ l f, check i b s = .empty l f → differs w (lanes.filter fun l => (w.thread l).guard gn gp) → exec i s = held s)

/-- R366, R368: a shadow takes turns of its own. An issue of a warp of a launch in shadow mode is one that its shadow has yet to copy. A shadow that has one stands in the choice of its partition, in the slot after its warp and with a served bit of its own. No load, store or atomic of that issue or of a later one is performed before it has been copied. The shadow's turn takes the oldest such issue, with the values queued for it, sets its served bit and changes nothing else, but for the served bits of its class where R263 clears them. With its last turn an instruction that was held at its issue is executed, in the lanes that still stand there. A warp issues nothing while one is held, while 64 values are queued, or while 16 requests are held. That the copy is computed and compared in the step of the warp's own issue, one turn of the shadow for each issue, is the model's way (log 29). -/
def Sys2Proof.Rule.ShadowTakesTurns : Prop :=
  (∀ (c : IssueChoice) (s : State), s.hasWarp c.warp = true → let w := s.warp c.warp
    ((account c s).warp c.warp).lag = if (s.warpLaunch w).record.shadow then w.lag ++ [w.nextOp] else w.lag) ∧
  (∀ (w : Warp) (s : State), w.shadowReady s = true →
    ∃ x ∈ turnsOf s w, x.shadow = true ∧ x.slot = w.slot + 1 ∧ x.served = w.shadowServed) ∧
  (∀ (r : OpRef) (o : Op) (n : Nat) (s : State), s.opOf r = some o → (s.warp r.warp).lag.head? = some n → n ≤ o.id →
    loadReady s r = false ∧ storeReady s r = false ∧ atomReady s r = false) ∧
  (∀ (u : Nat) (clear : Bool) (s : State), s.hasWarp u = true → let t := shadowTurn u clear s
    t = { s with warps := t.warps } ∧ (t.warp u).shadowServed = true ∧ (t.warp u).lag = (s.warp u).lag.drop 1 ∧
      (t.warp u).queued = (s.warp u).queued.drop 1 ∧
      (clear = false → OnlyWarp u s t ∧
        t.warp u = { s.warp u with shadowServed := true, lag := (s.warp u).lag.drop 1, queued := (s.warp u).queued.drop 1 })) ∧
  (∀ (u : Nat) (b : Bundle) (i : Instr) (s : State), (s.warp u).copy = some (b, i) →
    let w := s.warp u
    let lanes := (lanesOf b.lanes).filter fun l => decide ((w.thread l).status = .running ∧ (w.thread l).pc = b.pc)
    let s1 := s.onWarp u fun w => { w with copy := none }
    (w.lag ≠ [] → releaseCopy u s = .next s) ∧ (w.lag = [] → lanes = [] → releaseCopy u s = .next s1) ∧
    (w.lag = [] → lanes ≠ [] → releaseCopy u s = exec i { s1 with cur := some { b with lanes := maskOf lanes } })) ∧
  ∀ (w : Warp) (s : State),
    w.copy.isSome = true ∨ 64 ≤ w.queued.sum ∨ 16 ≤ (w.ops.filter fun o => decide (∃ n, w.lag.head? = some n ∧ n ≤ o.id)).length →
      readyRuns s w = []

/-- R359, R360, R365: voted units and patrol. One copy of three that disagrees leaves the vote with a record of action 5, and the sixteenth time it is FAULTY for good; with two left, or two against one, the part halts; a copy that has been brought back votes again. A patrol read that finds nothing changes nothing; one that corrects counts; one that cannot marks the granule and counts, unless the granule is marked and recorded. -/
def Sys2Proof.Rule.VotesAndPatrol : Prop :=
  (∀ (unit inst c : Nat) (s : State), inst < votedInstances unit → c < 3 → (∀ k < 3, (s.copyOf unit inst k).state = .voting) →
    ∃ t, exec (.voteDisagree unit inst (.ofNat 3 (2 ^ c))) s = .next t ∧ t.haltedPart = s.haltedPart ∧
      t.copyOf unit inst c = { s.copyOf unit inst c with
        state := if 15 ≤ (s.copyOf unit inst c).resyncs then .faulty else .resync, resyncs := (s.copyOf unit inst c).resyncs + 1 } ∧
      ∀ k < 3, k ≠ c → t.copyOf unit inst k = s.copyOf unit inst k) ∧
  (∀ (unit inst : Nat) (copies : BitVec 3) (s : State), inst < votedInstances unit →
    let vs := (List.range 3).filter fun k => (s.copyOf unit inst k).state == .voting
    let out := vs.filter fun k => copies.getLsbD k
    (out = [] → exec (.voteDisagree unit inst copies) s = .next s) ∧
    (out ≠ [] → (vs.length ≠ 3 ∨ 2 ≤ out.length) → ∃ t, exec (.voteDisagree unit inst copies) s = .next t ∧ t.haltedPart = true)) ∧
  (∀ (unit inst c : Nat) (s : State), (s.copyOf unit inst c).state = .resync → ∃ t, exec (.resyncComplete unit inst c) s = .next t ∧
    t = { s with voted := t.voted } ∧ t.copyOf unit inst c = { s.copyOf unit inst c with state := .voting }) ∧
  ∀ (line : Nat) (s : State), s.mgmt.patrol ≠ 0 → placeOf s (line * 128) = .dram →
    let w (pa : Nat) : ErrWhere := dramWhere pa
    exec (.patrolRead line .clean) s = .next s ∧
    (∃ t, exec (.patrolRead line .corrected) s = .next t ∧
      Store.get 0 t.ceCount (Rule.place (w (line * 128))) = Store.get 0 s.ceCount (Rule.place (w (line * 128))) + 1) ∧
    ∀ k < 16, let pa := line * 128 + k * 8
      let known := Store.get false s.mem.poisonDram (pa / 8) = true ∧ Store.get false s.mem.noted (pa / 8) = true
      (known → exec (.patrolRead line (.uncorrectable k)) s = .next s) ∧
      (¬known → ∃ t, exec (.patrolRead line (.uncorrectable k)) s = .next t ∧
        Store.get 0 t.ueCount (Rule.place (w pa)) = Store.get 0 s.ueCount (Rule.place (w pa)) + 1 ∧
        (s.mgmt.erlogn = 0 → Store.get false t.mem.poisonDram (pa / 8) = true ∧ Store.get false t.mem.noted (pa / 8) = true))

/-- R372, R374, R401: world 0 works on the rings and lists: erhead makes room, and pending records are written while there is room and the ring is set up; retadd and retdel put an entry of a retirable type on the list and take it off. One to be added that names a unit never retired, an L2 slice, the PCIe link or a voted unit, is reported and otherwise ignored; that the report is a record of action 7 is the model's choice (log 67). -/
def Sys2Proof.Rule.RingsAndRetirement : Prop :=
  (∀ (v : Word) (s : State), ∃ t, exec (.erheadWrite v) s = .next t ∧ t.mgmt.erhead = v ∧
    (s.pendingErrs = [] → t = { s with mgmt := { s.mgmt with erhead := v } }) ∧
    (t.pendingErrs = [] ∨ s.mgmt.erlogn = 0 ∨ 2 ^ (max 4 (min 16 s.mgmt.erlogn.toNat)) ≤ (t.mgmt.ertail.toNat + 2 ^ 32 - v.toNat) % 2 ^ 32)) ∧
  ∀ (add : Bool) (v : Word) (s : State), let i : Instr := if add then .retadd v else .retdel v
    let ltype := v.toNat % 16
    (ltype ∉ [0, 1, 3, 4, 5] → add = false ∨ ltype ∉ [2, 6, 7] → exec i s = .next s) ∧
    (ltype ∈ [2, 6, 7] → add = true → ∃ t, exec i s = .next t ∧ t.retire = s.retire ∧ t.warps = s.warps ∧ t.gangs = s.gangs ∧ t.ctxs = s.ctxs ∧
      (s.mgmt.erlogn = 0 → t = s) ∧ (Rule.RingOpen s → Rule.Written s t)) ∧
    (ltype ∈ [0, 1, 3, 4, 5] → ∃ t, exec i s = .next t ∧ t = { s with retire := t.retire } ∧
      Store.get false t.retire (ltype * 2 ^ 28 + v.toNat / 16) = add ∧
      ∀ k, k ≠ ltype * 2 ^ 28 + v.toNat / 16 → Store.get false t.retire k = Store.get false s.retire k)

/-! ## Host, fabric and platform (R298, R306, R344, R379, R382, R399 to R413) -/

namespace Sys2Proof.Rule

/-- Bytes have been stored on the committed lines: no other byte changed, and no gang's version of any. -/
def Stored (k : Nat) (bs : List Byte) (s t : State) : Prop :=
  (∀ j < bs.length, homeByte t none (k + j) = bs.getD j 0) ∧
    (∀ q, (q < k ∨ k + bs.length ≤ q) → homeByte t none q = homeByte s none q) ∧ ∀ g, (t.gang g).version = (s.gang g).version

end Sys2Proof.Rule

/-- A read from outside changes nothing in memory: it notes the poisoned granules it has met, each to be recorded once (R364). -/
def Rule.OnlyNotes (k n : Nat) (s t : State) : Prop :=
  t.mem = { s.mem with notedL2 := t.mem.notedL2 } ∧
    ∀ j, Store.get false t.mem.notedL2 j = true ↔ Store.get false s.mem.notedL2 j = true ∨
      (k / 8 ≤ j ∧ 8 * j < k + n ∧ Store.get false s.mem.poisonL2 j = true)

/-- R248, R362, R363, R364, R383, R399, R407: the host's windows. With the PCIe link down nothing arrives. A request waits behind one that waits already. One that no valid window holds is unsupported; one whose window is of a world that the host may not reach, or beyond the address space, is aborted. A write whose bytes are there to be written stores them on the committed lines, a read returns what everyone reads, poisoned where a granule of it is. A read through BAR0 returns the register, whatever mlock is, and is unsupported where there is none. That a request waits behind an earlier one of any window, and that a window of world 0 aborts, is the model's reading (log 43). -/
def Sys2Proof.Rule.HostWindowsServe : Prop :=
  ∀ (off stream n : Nat) (bs : List Byte) (s : State),
    let up := Store.get false s.deadPorts 18 = false
    (¬up → exec (.hostWindowWrite off stream bs) s = .next s ∧ exec (.hostWindowRead (.window off) stream n) s = .next s) ∧
    (∀ b, up → hostWaits s = some b →
      exec (.hostWindowWrite off stream bs) s = .next { s with waiters := s.waiters ++ [(b.1, b.2, .hostWindowWrite off stream bs)] } ∧
      exec (.hostWindowRead (.window off) stream n) s = .next { s with waiters := s.waiters ++ [(b.1, b.2, .hostWindowRead (.window off) stream n)] }) ∧
    (up → hostWaits s = none →
      (windowAt s off = none → exec (.hostWindowWrite off stream bs) s = .next { s with sent := s.sent ++ [.hostUnsupported] } ∧
        exec (.hostWindowRead (.window off) stream n) s = .next { s with sent := s.sent ++ [.hostUnsupported] }) ∧
      ∀ w, windowAt s off = some w →
        let sp : Space := { world := w.world.toNat, asid := w.asid.toNat }
        let va := w.vabase.toNat + off - 65536 * w.baroff.toNat
        let allowed := w.world = 1 ∨ (2 ≤ w.world.toNat ∧ s.mgmt.ideworld.getLsbD w.world.toNat = true ∧ w.stream ≠ 0 ∧ w.stream.toNat = stream)
        (¬allowed ∨ 2 ^ 60 < va + bs.length → exec (.hostWindowWrite off stream bs) s = .next { s with sent := s.sent ++ [.hostAbort] }) ∧
        (¬allowed ∨ 2 ^ 60 < va + n → exec (.hostWindowRead (.window off) stream n) s = .next { s with sent := s.sent ++ [.hostAbort] }) ∧
        (allowed → va + bs.length ≤ 2 ^ 60 → (∀ j < bs.length, Rule.Reached s (sp.loc (va + j)) .write) →
          ∃ t, exec (.hostWindowWrite off stream bs) s = .next t ∧ Rule.Stored (sp.loc va) bs s t ∧ t.sent = s.sent) ∧
        (allowed → va + n ≤ 2 ^ 60 → (∀ j < n, Rule.Reached s (sp.loc (va + j)) .read) →
          ∃ t poison, exec (.hostWindowRead (.window off) stream n) s = .next t ∧ t.sent = s.sent ++ [.hostData (Rule.committed s (sp.loc va) n) poison] ∧
            (poison = true ↔ Rule.PoisonIn s (sp.loc va) n) ∧ Rule.OnlyNotes (sp.loc va) n s t)) ∧
    (¬up → exec (.hostWindowRead (.register off) stream n) s = .next s) ∧
    (up → exec (.hostWindowRead (.register off) stream n) s = .next { s with sent := s.sent ++ [match mgmtRead s off n with
      | some v => .hostData (bytesOfNat n v) false
      | none => .hostUnsupported] })

/-- R154, R248, R362, R363, R383, R409, R410: a peer's request. Over a Wodin port that is down nothing arrives. Else the request is served through the export it names, by a part of a valid domain, inside the export and in the export's world; any other completes with an error. A write stores its bytes on the committed lines and completes; a read returns what everyone reads; an atomic stores its new value there and returns the old one, or, on poison, returns poison and stores nothing. -/
def Sys2Proof.Rule.PeersAreServed : Prop :=
  ∀ (r : PeerReq) (s : State),
    let e := Store.get {} s.exports r.exportNo
    let d := s.mgmt.domcfg
    let ok := d.getLsbD 31 = true ∧ r.source ≤ d.toNat / 2 ^ 8 % 2 ^ 6 ∧ r.source ≠ d.toNat % 2 ^ 6 ∧ e.valid = true ∧
      r.offset < 65536 * e.size.toNat ∧ e.world = r.world
    let sp : Space := { world := e.world.toNat, asid := e.asid.toNat }
    let va := e.base.toNat + r.offset
    let up := r.port < 18 ∧ Store.get false s.deadPorts r.port = false
    (¬up → exec (.peerRequest r) s = .next s) ∧
    (up → ¬ok → exec (.peerRequest r) s = .next { s with sent := s.sent ++ [.peerError] }) ∧
    (up → ok → ∀ bs, r.op = .write bs → va + bs.length ≤ 2 ^ 60 → (∀ j < bs.length, Rule.Reached s (sp.loc (va + j)) .write) →
      ∃ t, exec (.peerRequest r) s = .next t ∧ Rule.Stored (sp.loc va) bs s t ∧ t.sent = s.sent ++ [.peerData [] false]) ∧
    (up → ok → ∀ n, r.op = .read n → va + n ≤ 2 ^ 60 → (∀ j < n, Rule.Reached s (sp.loc (va + j)) .read) →
      ∃ t poison, exec (.peerRequest r) s = .next t ∧ t.sent = s.sent ++ [.peerData (Rule.committed s (sp.loc va) n) poison] ∧
        (poison = true ↔ Rule.PoisonIn s (sp.loc va) n) ∧ Rule.OnlyNotes (sp.loc va) n s t) ∧
    (up → ok → ∀ o ty x, r.op = .atomic o ty x → let n := 4 * ty.regs
      va + n ≤ 2 ^ 60 → (∀ j < n, Rule.Reached s (sp.loc (va + j)) .write) →
      let old := Rule.committed s (sp.loc va) n
      (Rule.PoisonIn s (sp.loc va) n → exec (.peerRequest r) s = .next { s with sent := s.sent ++ [.peerData (List.replicate n 0) true] }) ∧
      (¬Rule.PoisonIn s (sp.loc va) n → ∃ t, exec (.peerRequest r) s = .next t ∧ t.sent = s.sent ++ [.peerData old false] ∧
        Rule.Stored (sp.loc va) (bytesOfNat n (atomNew o ty (natOfBytes old) x.toNat)) s t))

/-- R405: a host snoop: lines of the host's line leave L2, no core owns a word of them any more, and then the host's memory holds the bytes written; a snoop that names no host memory does nothing. -/
def Sys2Proof.Rule.SnoopsInvalidate : Prop :=
  ∀ (pa : Nat) (bs : List Byte) (s : State),
    ((∀ a, placeOf s pa ≠ .host a) → exec (.cxlSnoop pa bs) s = .next s) ∧
    ∀ a, placeOf s pa = .host a → ∃ t, exec (.cxlSnoop pa bs) s = .next t ∧ (∀ e ∈ t.mem.lines, e.2.pa ≠ pa / 128 * 128) ∧
      (∀ e ∈ s.mem.lines, e.2.pa = pa / 128 * 128 → ∀ c ∈ t.caches, ∀ x ∈ c.2.l1, x.1 / 32 = e.1 → ∀ w, x.2 = some w → w.owned = false) ∧
      (∀ j < bs.length, t.mem.host.byte (a + j) = bs.getD j 0) ∧
      ((∀ e ∈ s.mem.lines, e.2.dirty = false) → ∀ q, (q < a ∨ a + bs.length ≤ q) → t.mem.host.byte q = s.mem.host.byte q)

/-- R298, R304, R306: a shootdown. It leaves no TLB entry that translates a page of its range, and what waited on a page of it in migration, an operation, a thread or a request from outside, waits on it no more. In mode 1 no line of the range is left in L2, in any L1 or as a replica, either. Then what the command processor owes to such a page is done, and vector 6 is set. Which waits a shootdown ends, and that those waiting from outside are made again ahead of all others, is the model's reading (logs 43 and 44). -/
def Obligations.ShootdownsInvalidate : Prop :=
  ∀ (mode1 : Bool) (s : State), let i : Instr := if mode1 then .shootdownMode1 else .shootdownMode0
    let m := s.mgmt
    let sp : Space := { world := m.sdasid.toNat / 2 ^ 16 % 2 ^ 4, asid := m.sdasid.toNat % 2 ^ 16 }
    let va := m.sdva.toNat / 65536 * 65536
    let inside (k : Nat) : Prop := spaceOf k = sp ∧ va ≤ vaOf k ∧ vaOf k < va + m.sdlen.toNat * 65536
    ∃ t0 t, exec i s = .next t ∧ t = interrupt 6 (payOwed (fun k => (shootRange s).holds (k / 65536 * 65536)) t0) ∧ t.mgmt.intst.getLsbD 6 = true ∧
      (∀ k, (shootRange s).holds k = true ↔ inside k) ∧ ((∀ x ∈ s.owed, ¬inside (x.1 / 65536 * 65536)) → t = interrupt 6 t0) ∧
      (∀ e ∈ t0.mem.tlb, (shootRange s).hitsTlb e.1 = false) ∧
      (∀ w ∈ t0.warps, (∀ o ∈ w.ops, ∀ p ∈ o.mig, ¬inside (p * 65536)) ∧ ∀ d ∈ w.threads, ∀ p, d.status = .blocked (.migrating p) → ¬inside (p * 65536)) ∧
      (∀ x ∈ t0.waiters, x.1 = 0 → ¬inside (x.2.1 / 65536 * 65536)) ∧
      (mode1 = false → t0.agenda = (s.waiters.filter fun x => x.1 == 0 && (shootRange s).holds (x.2.1 / 65536 * 65536)).map (fun x => x.2.2) ++ s.agenda ∧
        t0.caches = s.caches ∧ t0.mem.lines = s.mem.lines ∧ t0.gangs = s.gangs) ∧
      (mode1 = true → (∀ e ∈ t0.mem.lines, ¬inside (e.1 * 128)) ∧ (∀ r ∈ t0.mem.replicas, ¬inside (r.line * 128)) ∧
        ∀ c ∈ t0.caches, ∀ e ∈ c.2.l1, ¬inside (4 * e.1))

/-- R402, R403: contexts. Writing valid registers one where its ASID is not valid in another slot and no reserved bit is set, with ctxst 0, its queues count their records from 1 and none of its residencies has been; else valid stays 0 and ctxst is 1 or 2. Writing valid 0 destroys it: its launches are gone, its residencies ended, its tag entries dropped, its graph and raster record released and its queues stopped. That a taken ASID is found before a reserved bit is the model's order (log 50). -/
def Sys2Proof.Rule.ContextsComeAndGo : Prop :=
  (∀ (slot : Nat) (v : Word) (s : State), slot < 256 →
    let asid : BitVec 16 := .ofNat 16 v.toNat
    let taken := ∃ c ∈ s.ctxs, c.1 ≠ slot ∧ c.2.valid = true ∧ c.2.asid = asid
    let rsv := v.toNat / 2 ^ 20 % 2 ^ 11
    ((s.ctx slot).valid = true → exec (.ctxidRegister slot v) s = .next s) ∧
    ((s.ctx slot).valid = false → ∃ t, exec (.ctxidRegister slot v) s = .next t ∧ t = { s with ctxs := t.ctxs } ∧
      (∀ k, k ≠ slot → t.ctx k = s.ctx k) ∧
      (taken → t.ctx slot = { s.ctx slot with ctxst := 1 }) ∧ (¬taken → rsv ≠ 0 → t.ctx slot = { s.ctx slot with ctxst := 2 }) ∧
      (¬taken → rsv = 0 → t.ctx slot =
        { s.ctx slot with valid := true, killed := false, asid, world := .ofNat 4 (v.toNat / 2 ^ 16), ctxst := 0, residencies := [],
                          queues := (s.ctx slot).queues.map fun q => (q.1, { q.2 with taken := 0, keeper := 0 }) }))) ∧
  ∀ (slot : Nat) (s : State), slot < 256 →
    ((s.ctx slot).valid = false → exec (.ctxidDestroy slot) s = .next s) ∧
    ((s.ctx slot).valid = true → ∃ t, exec (.ctxidDestroy slot) s = .next t ∧ (t.ctx slot).valid = false ∧ (∀ l ∈ t.launches, l.slot ≠ slot) ∧
      (∀ k, (t.res (slot, k)).live = false) ∧ (t.ctx slot).resTags = [] ∧ (t.ctx slot).cutTags = [] ∧ (t.ctx slot).graph = none ∧ (t.ctx slot).raster = none ∧
      (∀ q ∈ (t.ctx slot).queues, q.2.stopped = true) ∧
      ∀ e, (e ∈ t.mem.tags.map Prod.snd ∨ e ∈ t.measureTags ∨ e ∈ t.keyTags ∨ e ∈ t.certTags ∨ e ∈ t.collTags) →
        ¬(e.world = (s.ctx slot).world.toNat ∧ e.asid = (s.ctx slot).asid.toNat))

/-- R304, R344: a write of rastbase. 0, an address that is no multiple of 64, and a record that cannot be read or fails a check leave rastbase 0 and the context without a raster record; else the record stands registered. Where the record lies on a page in migration the write waits, with rastbase 0, and is made again after a shootdown; a later write takes its place. -/
def Sys2Proof.Rule.RasterRegistered : Prop :=
  ∀ (slot : Nat) (v : DWord) (s : State), slot < 256 → s.stall = none →
    let none' (s : State) : State := s.onCtx slot fun c => { c with rastbase := 0, raster := none }
    let older (i : Instr) : Bool := match i with
      | .rastbaseWrite a _ => a == slot
      | _ => false
    let s0 : State := { s with waiters := s.waiters.filter fun x => !older x.2.2 }
    (v = 0 ∨ v.toNat % 64 ≠ 0 ∨ (s.ctx slot).valid = false → exec (.rastbaseWrite slot v) s = .next (none' s0)) ∧
    (v ≠ 0 → v.toNat % 64 = 0 → (s.ctx slot).valid = true →
      (∀ s1, cpRead slot v.toNat 64 s0 = (none, s1) → s1.stall = none → exec (.rastbaseWrite slot v) s = .next (none' s1)) ∧
      (∀ s1 k, cpRead slot v.toNat 64 s0 = (none, s1) → s1.stall = some k → exec (.rastbaseWrite slot v) s =
        .next { none' s0 with waiters := s0.waiters ++ [(0, k, .rastbaseWrite slot v)] }) ∧
      ∀ bs s1, cpRead slot v.toNat 64 s0 = (some bs, s1) →
        let x := natOfBytes bs
        let g := s1.graph slot
        let edge (k n : Nat) : Prop := (g.edges.getD k {}).valid = true ∧ (g.edges.getD k {}).recsz.toNat = n
        let width := x / 2 ^ 432 % 2 ^ 16
        let height := x / 2 ^ 416 % 2 ^ 16
        let skim := x / 2 ^ 408 % 2 ^ 8
        let bin := x / 2 ^ 400 % 2 ^ 8
        let ok := x % 2 ^ 400 = 0 ∧ x / 2 ^ 448 % 128 = 0 ∧ 1 ≤ width ∧ width ≤ 16384 ∧ 1 ≤ height ∧ height ≤ 16384 ∧ edge skim 5 ∧ edge bin 10
        let r : Raster := { vis := .ofNat 64 (x / 2 ^ 448), width := .ofNat 16 width, height := .ofNat 16 height, skim, bin }
        (¬ok → exec (.rastbaseWrite slot v) s = .next (none' s1)) ∧
        (ok → exec (.rastbaseWrite slot v) s = .next (s1.onCtx slot fun c => { c with rastbase := v, raster := some r })))

/-- R7, R399 to R404: the management space. With the PCIe link down no access of the host arrives. An access that reaches no register is unsupported for the host and has no effect for a thread (its own trap is its access's); while mlock is set a host write beyond 0x800F is dropped. A register that world 0 alone writes reads back what was written; reserved bits are not kept; a doorbell is heard by its queue; a 1 written to intst clears its bit. That an access which reaches no register has no effect for a thread (log 50), and that a thread's write of a register acts as the host's does (log 42), are the model's readings. -/
def Obligations.RegistersAreWritten : Prop :=
  (∀ (host : Bool) (off size : Nat) (v : DWord) (s : State), let i : Instr := .registerWrite host off size v
    let locked := host = true ∧ s.mgmt.mlock.getLsbD 0 = true
    let down := host = true ∧ Store.get false s.deadPorts 18 = true
    (down → exec i s = .next s) ∧ (¬down →
    (mgmtRead s off size = none → exec i s = .next (if host then { s with sent := s.sent ++ [.hostUnsupported] } else s)) ∧
    (locked → 0x8010 ≤ off → mgmtRead s off size ≠ none → exec i s = .next s) ∧
    (off < 0x8000 → off % 8 = 0 → (size = 4 ∨ size = 8) → exec i s = .next { s with agenda := .qbell (off / 128) (off % 128 / 8) :: s.agenda }) ∧
    (¬locked →
      (off ∈ [0xC028, 0xC068, 0xC070, 0xC088, 0xC0D0, 0xC118] → size = 4 → ∃ t, exec i s = .next t ∧
        mgmtRead t off 4 = some (v.toNat % 2 ^ 32) ∧ t = { s with mgmt := t.mgmt }) ∧
      (off = 0xC0C8 → size = 8 → ∃ t, exec i s = .next t ∧ mgmtRead t off 8 = some v.toNat ∧ t = { s with mgmt := t.mgmt }) ∧
      (∀ slot < 256, off = 0x100000 + 0x400 * slot + 0x08 ∨ off = 0x100000 + 0x400 * slot + 0x10 → size = 8 → ∃ t, exec i s = .next t ∧
        mgmtRead t off 8 = some v.toNat ∧ t = { s with ctxs := t.ctxs }) ∧
      (off = 0xC110 ∨ off = 0xC120 → size = 4 → ∃ t, exec i s = .next t ∧ mgmtRead t off 4 = some (v.toNat % 2 ^ 16 / 4 * 4)) ∧
      (off = 0xC180 → size = 4 → ∃ t, exec i s = .next t ∧ mgmtRead t off 4 = some (max 1000 (min 2300 (v.toNat % 2 ^ 32)))) ∧
      (off = 0xC140 → size = 4 → v.getLsbD 0 = true → s.mgmt.mlock = 0 → ∃ t, exec i s = .next t ∧ t.mgmt.mlock = 1 ∧ t.mgmt.bootst = 5) ∧
      (off = 0xC150 → size = 4 → s.mgmt.domWritten = true → exec i s = .next s)))) ∧
  ∀ (v : Word) (s : State), exec (.intstClear v) s = .next { s with mgmt := { s.mgmt with intst := s.mgmt.intst &&& ~~~(v.setWidth 8) } }

/-- R309, R379, R382, R413: the platform. A measurement sets pwr, tcool and tjct; from 115 °C on the part halts, above pmax or from 105 °C on thermst is 1, else 0; once it is 2 it stays so. wrekey of a world that no unit and no context is in drops its lines from the caches and clears its key slots; one in use gives status 2. A unit gated loses what it caches and keeps its world. hqclr 1 clears the notice queue's flags. -/
def Sys2Proof.Rule.PlatformActs : Prop :=
  (∀ (pwr tcool tjct : Word) (s : State), ∃ t, exec (.powerMeasurement pwr tcool tjct) s = .next t ∧ t.mgmt.pwr = pwr ∧ t.mgmt.tcool = tcool ∧
    t.mgmt.tjct = tjct ∧ (s.mgmt.thermst = 2 → t = { s with mgmt := t.mgmt } ∧ t.mgmt.thermst = 2) ∧
    (s.mgmt.thermst ≠ 2 → 115 ≤ tjct.toNat → t.haltedPart = true ∧ t.mgmt.thermst = 2) ∧
    (s.mgmt.thermst ≠ 2 → tjct.toNat < 115 → t.haltedPart = s.haltedPart ∧ t.mgmt.thermst = if s.mgmt.pmax.toNat < pwr.toNat ∨ 105 ≤ tjct.toNat then 1 else 0)) ∧
  (∀ (v : Word) (s : State),
    (v = 0 ∨ 15 < v.toNat → exec (.wrekey v) s = .next s) ∧
    (1 ≤ v.toNat → v.toNat ≤ 15 → worldInUse s v.toNat = true → exec (.wrekey v) s = .next { s with mgmt := { s.mgmt with wrstat := 2 } }) ∧
    (1 ≤ v.toNat → v.toNat ≤ 15 → worldInUse s v.toNat = false → ∃ t, exec (.wrekey v) s = .next t ∧ t.mgmt.wrstat = 0 ∧
      (∀ k ∈ t.keySlots, ∀ x, k.key = some x → x.2.toNat ≠ v.toNat) ∧ (∀ e ∈ t.mem.lines, (spaceOf (128 * e.1)).world ≠ v.toNat) ∧
      (∀ c ∈ t.caches, ∀ e ∈ c.2.l1, (spaceOf (4 * e.1)).world ≠ v.toNat) ∧ t.mem.dram = s.mem.dram ∧
      (v.toNat < s.rekeys.length → t.rekeys.getD v.toNat 0 = s.rekeys.getD v.toNat 0 + 1))) ∧
  (∀ (unit : Word) (s : State), gateable s unit.toNat = true → ∃ t, exec (.unitGate unit) s = .next t ∧
    Store.get {} t.units unit.toNat = { Store.get {} s.units unit.toNat with gated := true } ∧ t = { s with units := t.units, caches := t.caches }) ∧
  ∀ (v : Word) (s : State), exec (.hqclr v) s =
    .next (if v = 1 then dramWrite 0 (s.mgmt.hqbase.toNat / 4096 * 4096 + 8) (bytesOfNat 8 0) s else s)

/-- R375, R377, R412: PART_RESET. DRAM's cipher bytes, the host's memory and the retirement list stay; the measurement registers, the key slots and the SPDM responder are at their reset values; every unit is scrubbed; bootst is 1 and the boot ROM's root launch is there, or, where the list names a unit that the root needs, bootst is 3 and the part is halted. That the registers of the management space which no rule gives a reset value are 0 is the model's choice (log 5), as is what the boot ROM's launch asks for (log 4). -/
def Sys2Proof.Rule.PartResets : Prop :=
  ∀ (s : State), ∃ t, exec .partReset s = .next t ∧ t.mem.dram = s.mem.dram ∧ t.mem.host = s.mem.host ∧ t.retire = s.retire ∧
    t.measure = List.replicate 32 0 ∧ t.keySlots = List.replicate 16 {} ∧ t.spdm = {} ∧ t.bootScrubbed = true ∧ t.warps = [] ∧ t.gangs = [] ∧
    (rootRetired s = false → t.mgmt = { bootst := 1, intst := 0x80 } ∧ t.haltedPart = false ∧
      ∃ l, t.launches = [l] ∧ l.rom = true ∧ l.record.root = true ∧ l.record.world = 0 ∧ l.queue = none) ∧
    (rootRetired s = true → t.mgmt.bootst = 3 ∧ t.haltedPart = true ∧ t.launches = [])

/-- R401, R402, R412: the machine right after reset holds the reset values the spec states for the registers of the management space, and PART_RESET is what it does first. -/
def Obligations.ResetState : Prop :=
  let s := State.reset
  s.mgmt.mlock = 0 ∧ s.mgmt.bootst = 0 ∧ s.mgmt.domcfg = 0 ∧ s.mgmt.ideworld = 0 ∧ s.mgmt.knote = 0 ∧ s.mgmt.dbgev = 0 ∧ s.mgmt.pmax = 2300 ∧
    s.mgmt.pwr = 0 ∧ s.mgmt.tcool = 0 ∧ s.mgmt.tjct = 0 ∧ s.mgmt.thermst = 0 ∧ s.mgmt.rlsel = 0 ∧
    s.measure = List.replicate 32 0 ∧ (∀ k < 2, (s.ports.getD k {}).drop = 0 ∧ (s.ports.getD k {}).mac = 0 ∧ (s.ports.getD k {}).ip = 0) ∧
    (∀ k, (s.ctx k).valid = false ∧ (s.ctx k).asid = 0 ∧ (s.ctx k).ptroot = 0 ∧ (s.ctx k).savebase = 0 ∧ (s.ctx k).graphbase = 0 ∧
      (s.ctx k).rastbase = 0 ∧ (s.ctx k).resq = 0 ∧ (s.ctx k).ctxst = 0) ∧ s.agenda = [.partReset]

/-! ## Words (R50 to R71), whole-machine rules -/

namespace Sys2Proof.Rule

def vec (n : Nat) : Operand := { kind := .vec, val := .ofNat 13 n }
def uni (n : Nat) : Operand := { kind := .uni, val := .ofNat 13 n }
def imm (v : Int) : Operand := { kind := .imm, val := .ofInt 13 v }
def zr : Operand := { kind := .zr, val := 0 }

/-- A header with guard predicate `gp` and no other bit set. -/
def hdr (gp : Nat) : Hdr :=
  { gn := false, gp := .ofNat 3 gp, fec := false, feb := false, fea := false, heat := 0, div := false, wbl := false, wbe := false, emk := false }

/-- The examples' own words, by the bytes that the spec gives in ascending address order, and what they stand for. -/
def spelled : List (List Byte × Instr) :=
  [([0x00, 0x00, 0xF8, 0xFF, 0x06, 0x20, 0x06, 0x20, 0x00, 0x10, 0x02, 0x02], .iadd (hdr 1) .i64 { d := vec 6, a := vec 6, b := imm (-8), c := zr }),
   ([0x06, 0x40, 0x07, 0x40, 0x02, 0x20, 0x03, 0x20, 0x84, 0x70, 0x00, 0x42],
    .ffma { hdr 7 with heat := 4, wbe := true } .rn { d := vec 3, a := vec 2, b := uni 7, c := uni 6 }),
   ([0x7F, 0x00, 0x84, 0xE0, 0x02, 0x20, 0x03, 0x20, 0x00, 0x70, 0x58, 0x50],
    .cvt (hdr 7) .f32 .b8 { d := vec 3, a := vec 2, b := imm 0x84, imm := 0x7F }),
   ([0x04, 0x20, 0x02, 0x20, 0x00, 0x40, 0x03, 0x20, 0x00, 0x70, 0xB8, 0x77],
    .atom (hdr 7) .add .bf16x2 .rel { d := vec 3, a := uni 0, b := vec 2, c := vec 4 }),
   ([0x0C, 0x40, 0x08, 0x20, 0x01, 0x80, 0x00, 0xA0, 0x00, 0x70, 0x00, 0x91],
    .mma (hdr 7) { d := { kind := .acc, val := 0 }, a := { kind := .cnv, val := 1 }, b := vec 8, c := uni 12 }),
   ([0x04, 0x40, 0x00, 0x40, 0x00, 0xE0, 0x00, 0x00, 0x00, 0x00, 0x00, 0xA0], .tcopyG2s (hdr 0) { d := zr, a := imm 0, b := uni 0, c := uni 4 }),
   ([0x34, 0x12, 0x00, 0x00, 0x00, 0x00, 0x00, 0x00, 0x00, 0x20, 0x00, 0xC0], .trap (hdr 2) { d := zr, a := zr, b := zr, imm := 0x1234 }),
   ([0x00, 0x00, 0x00, 0x00, 0x05, 0x40, 0x03, 0x40, 0x00, 0x70, 0x00, 0xA2], .wdq (hdr 7) { d := uni 3, a := uni 5, b := zr, c := zr }),
   ([0x01, 0xE0, 0x00, 0x00, 0x05, 0x40, 0x09, 0x40, 0x00, 0x70, 0x02, 0x7F], .baroArrive (hdr 7) { d := uni 9, a := uni 5, b := zr, c := imm 1 }),
   ([0x01, 0xE0, 0x00, 0x00, 0x08, 0x40, 0x0A, 0x20, 0x00, 0x10, 0x01, 0x7A], .atomAgg (hdr 1) .n32 { d := vec 10, a := uni 8, b := zr, c := imm 1 }),
   ([0xEE, 0xFF, 0x00, 0x00, 0x0C, 0x40, 0x0C, 0x40, 0x00, 0x70, 0x00, 0x35], .loop (hdr 7) { d := uni 12, a := uni 12, b := zr, imm := 0xFFEE }),
   ([0x00, 0x00, 0x0E, 0x40, 0x0C, 0x40, 0x0A, 0x40, 0x00, 0x70, 0x00, 0xA9], .cut (hdr 7) { d := uni 10, a := uni 12, b := uni 14, c := zr }),
   ([0x02, 0x20, 0x03, 0x20, 0x00, 0x40, 0x00, 0x00, 0x00, 0x30, 0x00, 0xA7], .emit (hdr 3) { d := zr, a := uni 0, b := vec 3, c := vec 2 }),
   ([0x01, 0xE0, 0x03, 0x20, 0x02, 0x20, 0x00, 0x00, 0x00, 0x70, 0x00, 0xAB], .trisub (hdr 7) { d := zr, a := vec 2, b := vec 3, c := imm 1 }),
   ([0x00, 0x00, 0x00, 0xE4, 0x03, 0xE0, 0x00, 0x00, 0x00, 0x70, 0x00, 0xC7], .mext (hdr 7) { d := zr, a := imm 3, b := imm 0x400, c := zr })]

end Sys2Proof.Rule

/-- R50 to R54, R66 to R71: the words that the spec's examples spell out, byte by byte, decode to what their texts say, and those encode to them. -/
def Obligations.SpelledWordsDecode : Prop :=
  ∀ x ∈ Rule.spelled, decode (wordOfBytes x.1) = .ok x.2 ∧ (encode x.2).map wordBytes = some x.1

/-- R50 to R71: every well-formed instruction of every row that has a word, with every operand and modifier at every value its encoding admits: the encoder writes a word, and the decoder reads that instruction from it. -/
def Obligations.DecodeOfEncode : Prop := ∀ i : Instr, i.encoded = true → i.wf = true → ∃ w, encode i = some w ∧ decode w = .ok i

/-- R50 to R71: each word has one meaning. A word that decodes decodes to a well-formed instruction of a row that has a word, and that instruction encodes to this word and no other: no bit is dropped, and no reserved bit is passed over. -/
def Obligations.EncodeOfDecode : Prop :=
  ∀ (w : IWord) (i : Instr), decode w = .ok i → i.encoded = true ∧ i.wf = true ∧ encode i = some w

/-- R228, R360: a halted part. With nothing due from outside and no frame received, a step of a halted part leaves everything as it is, but for the bundle and the place in migration that the last event held; it is halted in the next state too. -/
def Sys2Proof.Rule.HaltedPartRests : Prop :=
  ∀ s : State, s.haltedPart = true → s.agenda = [] → s.received = [] → step s = .next { s with cur := none, stall := none }

/-- R304: no place in migration is left noted between events: none is after reset, and none after any step. -/
def Sys2Proof.Rule.NothingStallsBetweenEvents : Prop := State.reset.stall = none ∧ ∀ s t : State, step s = .next t → t.stall = none

/-- Every step keeps the form of the memories: where the lines of L2, DRAM and the host's memory are listed in canonical form, they are after the step, whatever acts. -/
def Obligations.MemoriesStayCanonical : Prop := ∀ s t : State, s.mem.Canonical → step s = .next t → t.mem.Canonical

/-- The memories of the machine right after reset are in canonical form. -/
def Obligations.ResetMemoriesCanonical : Prop := State.reset.mem.Canonical

/-! ## The statements of several parts -/

/-- Rounding chooses a neighbouring code by its mode, and keeps what a format holds. The parts: RoundingChoosesNeighbour, RoundKeepsRepresentable. -/
def Obligations.RoundingIsNearest : Prop := Rule.RoundingChoosesNeighbour ∧ Rule.RoundKeepsRepresentable

/-- CVT rounds the exact value into its target, gathers flags and steps the seed; the step is one to one. The parts: CvtResult, SeedStepIsPermutation. The model's choices and readings in it: log 59. -/
def Obligations.ConversionResult : Prop := Rule.CvtResult ∧ Rule.SeedStepIsPermutation

/-- QUANT writes start bit, the scale of the block and the element over it, rounded; a bad format word raises ARITH. The parts: QuantResult, QuantBadWordTraps. -/
def Obligations.QuantisationResult : Prop := Rule.QuantResult ∧ Rule.QuantBadWordTraps

/-- IDIV, IREM and the special functions owe their result, then write it. The parts: LaterResultOwed, LaterResultWritten. -/
def Obligations.LaterResults : Prop := Rule.LaterResultOwed ∧ Rule.LaterResultWritten

/-- The values of division and of the special functions. The parts: DivisionValues, SpecialFunctionTable, ReciprocalAndRootNearest. -/
def Obligations.LongOperationValues : Prop := Rule.DivisionValues ∧ Rule.SpecialFunctionTable ∧ Rule.ReciprocalAndRootNearest

/-- Every step answers a next state; a halted part rests; nothing stalls between events. The parts: EveryStepAnswers, HaltedPartRests, NothingStallsBetweenEvents. The order of events is the model's free choice (log 2), and how a stall of the command processor is noted its own way (log 44). The model's choices and readings in it: logs 2, 44. -/
def Obligations.StepsAnswer : Prop := Rule.EveryStepAnswers ∧ Rule.HaltedPartRests ∧ Rule.NothingStallsBetweenEvents

/-- What an instruction word does that does not go through, and exactly when it goes through. The parts: IssueStops, GoesExactlyWhen, BadSourceConsumed. The model's choices and readings in it: logs 23, 46. -/
def Obligations.IssueDecides : Prop := Rule.IssueStops ∧ Rule.GoesExactlyWhen ∧ Rule.BadSourceConsumed

/-- Words that are no instruction, bad fetches, and asynchronous traps. The parts: IllegalWordTraps, FetchTraps, AsyncTrapReported. That the trap registers of the whole entering set are written is log 46. The model's choices and readings in it: logs 46, 59. -/
def Obligations.FetchTrapsAndAsyncTraps : Prop := Rule.IllegalWordTraps ∧ Rule.FetchTraps ∧ Rule.AsyncTrapReported

/-- TRAP, TRET and BKPT: what a trap saves, where it goes, and the return. The parts: TrapInstructionTraps, TretReturns, BreakpointHoldsOrTraps. The model's choices and readings in it: log 46. -/
def Obligations.TrapsAndReturns : Prop := Rule.TrapInstructionTraps ∧ Rule.TretReturns ∧ Rule.BreakpointHoldsOrTraps

/-- Branches, calls, returns and LOOP. The parts: TransfersReachTargets, LoopCountsAndBranches. -/
def Obligations.TransfersAndLoops : Prop := Rule.TransfersReachTargets ∧ Rule.LoopCountsAndBranches

/-- NOP, YIELD, NAP, EXIT and ROLE. The parts: YieldsAndNaps, ExitEndsThreads, RoleChanges. The model's choices and readings in it: log 59. -/
def Obligations.ThreadsRestEndAndChangeRole : Prop := Rule.YieldsAndNaps ∧ Rule.ExitEndsThreads ∧ Rule.RoleChanges

/-- BAR, GBAR and the BARO forms. The parts: BarriersHoldAndRelease, BarrierObjectsCount. The model's choices and readings in it: logs 23, 55, 62, 65. -/
def Obligations.BarriersAndBarrierObjects : Prop := Rule.BarriersHoldAndRelease ∧ Rule.BarrierObjectsCount

/-- An access issues with its slots and tags, or traps by its first failing check. The parts: AccessOwed, BadAddressTraps, ScratchpadMap. -/
def Obligations.AccessesIssueOrTrap : Prop := Rule.AccessOwed ∧ Rule.BadAddressTraps ∧ Rule.ScratchpadMap

/-- Atomics on global memory and scratchpad, their release and acquire, and aggregated appends. The parts: AtomicPerforms, ScratchAtomicPerforms, OrderedAtomics, AggregateAppends. The model's choices and readings in it: log 62. -/
def Obligations.AtomicsPerform : Prop := Rule.AtomicPerforms ∧ Rule.ScratchAtomicPerforms ∧ Rule.OrderedAtomics ∧ Rule.AggregateAppends

/-- FENCE, WAITC, SEAL and PREF. The parts: FencesOrder, SealRecordsResume, PrefetchChangesNoValue. -/
def Obligations.FencesSealsAndPrefetch : Prop := Rule.FencesOrder ∧ Rule.SealRecordsResume ∧ Rule.PrefetchChangesNoValue

/-- The matrix array and the format word test. The parts: FormatWordTested, ArrayComputes. The model's choices and readings in it: log 47. -/
def Obligations.MatrixProducts : Prop := Rule.FormatWordTested ∧ Rule.ArrayComputes

/-- Accumulators are cleared, read, written, loaded and stored; scale lines are loaded. The parts: AccumulatorAccess, AccumulatorLoadsAndStores, ScaleLinesLoaded. -/
def Obligations.AccumulatorsMoveAndLoad : Prop := Rule.AccumulatorAccess ∧ Rule.AccumulatorLoadsAndStores ∧ Rule.ScaleLinesLoaded

/-- MMA signs and issues; LEAVE asks and is granted. The parts: CollectiveSigned, CollectiveIssues, LeaveAsksAndGrants. -/
def Obligations.CollectivesSignAndIssue : Prop := Rule.CollectiveSigned ∧ Rule.CollectiveIssues ∧ Rule.LeaveAsksAndGrants

/-- Residencies are allocated, loaded, pinned, revoked and rehomed. The parts: ResidencyAllocated, ResidencyForms, ResidencyLoaded, ResidencyRehomed. The model's choices and readings in it: logs 24, 66. -/
def Obligations.ResidenciesLiveAndMove : Prop := Rule.ResidencyAllocated ∧ Rule.ResidencyForms ∧ Rule.ResidencyLoaded ∧ Rule.ResidencyRehomed

/-- What COLL delivers and writes. The parts: CollectiveDelivers, CollectiveWrites. -/
def Obligations.CollectiveBlocks : Prop := Rule.CollectiveDelivers ∧ Rule.CollectiveWrites

/-- WDQ with its checks and object, the churn unit and its queues. The parts: WorkDistributed, ChurnAndQueues. The model's choices and readings in it: log 28. -/
def Obligations.WorkAndChurn : Prop := Rule.WorkDistributed ∧ Rule.ChurnAndQueues

/-- EMIT, records and their headers. The parts: EmitRecorded, RecordPerformed, RecordHeaderRead. -/
def Obligations.RecordsOfEdges : Prop := Rule.EmitRecorded ∧ Rule.RecordPerformed ∧ Rule.RecordHeaderRead

/-- FRAME with its bins and buoys, CUT, and the stage scheduler. The parts: FramesCloseAndCutsAreProposed, WavesAreLaunched. -/
def Obligations.FramesAndWaves : Prop := Rule.FramesCloseAndCutsAreProposed ∧ Rule.WavesAreLaunched

/-- Tolver frames, missing records and the sub-channel of a moving cut. The parts: TolverFramesArrive, MissingRecordsSubstituted, CutChannelMoves. The model's choices and readings in it: log 63. -/
def Obligations.MovingCut : Prop := Rule.TolverFramesArrive ∧ Rule.MissingRecordsSubstituted ∧ Rule.CutChannelMoves

/-- The fate of a triangle, its pixels, and how they are drawn. The parts: TriangleFate, CoveredPixelsAreDrawn, TrianglesAreAccepted, PixelEventIsAMaximum. The order of pixel events is a free choice (log 2). The model's choices and readings in it: log 2. -/
def Obligations.TrianglesAreDrawn : Prop := Rule.TriangleFate ∧ Rule.CoveredPixelsAreDrawn ∧ Rule.TrianglesAreAccepted ∧ Rule.PixelEventIsAMaximum

/-- MBIN and ATTR. The parts: PixelsAreBinned, AttributesInterpolated. -/
def Obligations.PixelsAndAttributes : Prop := Rule.PixelsAreBinned ∧ Rule.AttributesInterpolated

/-- TEX, TEXV and TLD issue and sample. The parts: TextureOwed, TextureSamples, TapsAndModes. -/
def Obligations.TexturesSample : Prop := Rule.TextureOwed ∧ Rule.TextureSamples ∧ Rule.TapsAndModes

/-- Permission of the system instructions; BEACON, WASSIGN and SCRUB. The parts: SystemInstructionsAreGuarded, BeaconsWatchBlocks, UnitsAssignedAndScrubbed. -/
def Obligations.SystemInstructions : Prop := Rule.SystemInstructionsAreGuarded ∧ Rule.BeaconsWatchBlocks ∧ Rule.UnitsAssignedAndScrubbed

/-- HASH computes SHA-512. The parts: HashOperandsChecked, HashComputesSha512. -/
def Obligations.HashesCompute : Prop := Rule.HashOperandsChecked ∧ Rule.HashComputesSha512

/-- MEXT, ECSIG, KEYREL and CERTW. The parts: MeasurementsExtended, KeysAreUnwrapped, CertificatesWritten. -/
def Obligations.MeasuresKeysAndCertificates : Prop := Rule.MeasurementsExtended ∧ Rule.KeysAreUnwrapped ∧ Rule.CertificatesWritten

/-- HALT, and a debug resume. The parts: HaltCapturesAndKills, DebugResumes. -/
def Obligations.HaltsAndDebug : Prop := Rule.HaltCapturesAndKills ∧ Rule.DebugResumes

/-- Launches are taken, gangs placed in the order of the spec, and launches end. The parts: QueuesAreTaken, LaunchesComplete, GangsArePlaced. The model's choices and readings in it: log 20. -/
def Obligations.LaunchesAndGangs : Prop := Rule.QueuesAreTaken ∧ Rule.LaunchesComplete ∧ Rule.GangsArePlaced

/-- Eviction with the save area, and keepers that run out. The parts: EvictionFreezes, KeepersEscalate. The model's choices and readings in it: logs 30, 52. -/
def Obligations.EvictionsAndKeepers : Prop := Rule.EvictionFreezes ∧ Rule.KeepersEscalate

/-- The DOE mailbox and the SPDM responder. The parts: SpdmErrors, SpdmResponses, DoeDelivers. The model's choices and readings in it: log 17. -/
def Obligations.SpdmResponder : Prop := Rule.SpdmErrors ∧ Rule.SpdmResponses ∧ Rule.DoeDelivers

/-- Corrected, uncorrected and shadow-caught errors, and a shadow's turns. The parts: CorrectedErrorsCount, UncorrectedErrorsStay, ShadowMismatchIsCaught, ShadowTakesTurns. When a correctable error is recorded, and what marks a latent one, are log 41. The model's choices and readings in it: logs 29, 41, 50. -/
def Obligations.ErrorsAreFound : Prop := Rule.CorrectedErrorsCount ∧ Rule.UncorrectedErrorsStay ∧ Rule.ShadowMismatchIsCaught ∧ Rule.ShadowTakesTurns

/-- Voted units, patrol reads, the error ring and the retirement list. The parts: VotesAndPatrol, RingsAndRetirement. The model's choices and readings in it: log 67. -/
def Obligations.VotesPatrolAndRetirement : Prop := Rule.VotesAndPatrol ∧ Rule.RingsAndRetirement

/-- Host windows, peers and snoops. The parts: HostWindowsServe, PeersAreServed, SnoopsInvalidate. The model's choices and readings in it: log 43. -/
def Obligations.RequestsFromOutside : Prop := Rule.HostWindowsServe ∧ Rule.PeersAreServed ∧ Rule.SnoopsInvalidate

/-- Contexts are created and destroyed; raster records are registered. The parts: ContextsComeAndGo, RasterRegistered. The model's choices and readings in it: log 50. -/
def Obligations.ContextsAndRasterRecords : Prop := Rule.ContextsComeAndGo ∧ Rule.RasterRegistered

/-- Power, rekeying, gating and part reset. The parts: PlatformActs, PartResets. DRAM contents across a part reset are log 14. The model's choices and readings in it: logs 4, 5, 14. -/
def Obligations.PlatformAndReset : Prop := Rule.PlatformActs ∧ Rule.PartResets
end

