-- ==== Sys2Proof/Laws/State.lean ====
section
/-! SUPPORT. One lemma for each field of a state, a warp and a thread under each update: what the update leaves alone, true by rfl. -/

namespace Sys2Proof.Machine

/-! ## State.onWarp -/

@[simp] theorem State.onWarp_agenda (s : State) (u : Nat) (f : Warp → Warp) : (s.onWarp u f).agenda = s.agenda := rfl
@[simp] theorem State.onWarp_cur (s : State) (u : Nat) (f : Warp → Warp) : (s.onWarp u f).cur = s.cur := rfl
@[simp] theorem State.onWarp_draws (s : State) (u : Nat) (f : Warp → Warp) : (s.onWarp u f).draws = s.draws := rfl
@[simp] theorem State.onWarp_gangs (s : State) (u : Nat) (f : Warp → Warp) : (s.onWarp u f).gangs = s.gangs := rfl
@[simp] theorem State.onWarp_launches (s : State) (u : Nat) (f : Warp → Warp) : (s.onWarp u f).launches = s.launches := rfl
@[simp] theorem State.onWarp_nextWarp (s : State) (u : Nat) (f : Warp → Warp) : (s.onWarp u f).nextWarp = s.nextWarp := rfl
@[simp] theorem State.onWarp_nextGang (s : State) (u : Nat) (f : Warp → Warp) : (s.onWarp u f).nextGang = s.nextGang := rfl
@[simp] theorem State.onWarp_nextLaunch (s : State) (u : Nat) (f : Warp → Warp) : (s.onWarp u f).nextLaunch = s.nextLaunch := rfl
@[simp] theorem State.onWarp_nextOrder (s : State) (u : Nat) (f : Warp → Warp) : (s.onWarp u f).nextOrder = s.nextOrder := rfl
@[simp] theorem State.onWarp_nextBatch (s : State) (u : Nat) (f : Warp → Warp) : (s.onWarp u f).nextBatch = s.nextBatch := rfl
@[simp] theorem State.onWarp_ctxs (s : State) (u : Nat) (f : Warp → Warp) : (s.onWarp u f).ctxs = s.ctxs := rfl
@[simp] theorem State.onWarp_caches (s : State) (u : Nat) (f : Warp → Warp) : (s.onWarp u f).caches = s.caches := rfl
@[simp] theorem State.onWarp_mem (s : State) (u : Nat) (f : Warp → Warp) : (s.onWarp u f).mem = s.mem := rfl
@[simp] theorem State.onWarp_clusters (s : State) (u : Nat) (f : Warp → Warp) : (s.onWarp u f).clusters = s.clusters := rfl
@[simp] theorem State.onWarp_units (s : State) (u : Nat) (f : Warp → Warp) : (s.onWarp u f).units = s.units := rfl
@[simp] theorem State.onWarp_absent (s : State) (u : Nat) (f : Warp → Warp) : (s.onWarp u f).absent = s.absent := rfl
@[simp] theorem State.onWarp_bootScrubbed (s : State) (u : Nat) (f : Warp → Warp) : (s.onWarp u f).bootScrubbed = s.bootScrubbed := rfl
@[simp] theorem State.onWarp_haltedCores (s : State) (u : Nat) (f : Warp → Warp) : (s.onWarp u f).haltedCores = s.haltedCores := rfl
@[simp] theorem State.onWarp_haltedPart (s : State) (u : Nat) (f : Warp → Warp) : (s.onWarp u f).haltedPart = s.haltedPart := rfl
@[simp] theorem State.onWarp_capture (s : State) (u : Nat) (f : Warp → Warp) : (s.onWarp u f).capture = s.capture := rfl
@[simp] theorem State.onWarp_mgmt (s : State) (u : Nat) (f : Warp → Warp) : (s.onWarp u f).mgmt = s.mgmt := rfl
@[simp] theorem State.onWarp_ports (s : State) (u : Nat) (f : Warp → Warp) : (s.onWarp u f).ports = s.ports := rfl
@[simp] theorem State.onWarp_received (s : State) (u : Nat) (f : Warp → Warp) : (s.onWarp u f).received = s.received := rfl
@[simp] theorem State.onWarp_windows (s : State) (u : Nat) (f : Warp → Warp) : (s.onWarp u f).windows = s.windows := rfl
@[simp] theorem State.onWarp_exports (s : State) (u : Nat) (f : Warp → Warp) : (s.onWarp u f).exports = s.exports := rfl
@[simp] theorem State.onWarp_pamap (s : State) (u : Nat) (f : Warp → Warp) : (s.onWarp u f).pamap = s.pamap := rfl
@[simp] theorem State.onWarp_measure (s : State) (u : Nat) (f : Warp → Warp) : (s.onWarp u f).measure = s.measure := rfl
@[simp] theorem State.onWarp_measureTags (s : State) (u : Nat) (f : Warp → Warp) : (s.onWarp u f).measureTags = s.measureTags := rfl
@[simp] theorem State.onWarp_keySlots (s : State) (u : Nat) (f : Warp → Warp) : (s.onWarp u f).keySlots = s.keySlots := rfl
@[simp] theorem State.onWarp_keyTags (s : State) (u : Nat) (f : Warp → Warp) : (s.onWarp u f).keyTags = s.keyTags := rfl
@[simp] theorem State.onWarp_rekeys (s : State) (u : Nat) (f : Warp → Warp) : (s.onWarp u f).rekeys = s.rekeys := rfl
@[simp] theorem State.onWarp_certs (s : State) (u : Nat) (f : Warp → Warp) : (s.onWarp u f).certs = s.certs := rfl
@[simp] theorem State.onWarp_certTags (s : State) (u : Nat) (f : Warp → Warp) : (s.onWarp u f).certTags = s.certTags := rfl
@[simp] theorem State.onWarp_spdm (s : State) (u : Nat) (f : Warp → Warp) : (s.onWarp u f).spdm = s.spdm := rfl
@[simp] theorem State.onWarp_reports (s : State) (u : Nat) (f : Warp → Warp) : (s.onWarp u f).reports = s.reports := rfl
@[simp] theorem State.onWarp_faults (s : State) (u : Nat) (f : Warp → Warp) : (s.onWarp u f).faults = s.faults := rfl
@[simp] theorem State.onWarp_batches (s : State) (u : Nat) (f : Warp → Warp) : (s.onWarp u f).batches = s.batches := rfl
@[simp] theorem State.onWarp_waiters (s : State) (u : Nat) (f : Warp → Warp) : (s.onWarp u f).waiters = s.waiters := rfl
@[simp] theorem State.onWarp_owed (s : State) (u : Nat) (f : Warp → Warp) : (s.onWarp u f).owed = s.owed := rfl
@[simp] theorem State.onWarp_stall (s : State) (u : Nat) (f : Warp → Warp) : (s.onWarp u f).stall = s.stall := rfl
@[simp] theorem State.onWarp_pendingErrs (s : State) (u : Nat) (f : Warp → Warp) : (s.onWarp u f).pendingErrs = s.pendingErrs := rfl
@[simp] theorem State.onWarp_found (s : State) (u : Nat) (f : Warp → Warp) : (s.onWarp u f).found = s.found := rfl
@[simp] theorem State.onWarp_ceCount (s : State) (u : Nat) (f : Warp → Warp) : (s.onWarp u f).ceCount = s.ceCount := rfl
@[simp] theorem State.onWarp_ueCount (s : State) (u : Nat) (f : Warp → Warp) : (s.onWarp u f).ueCount = s.ueCount := rfl
@[simp] theorem State.onWarp_retire (s : State) (u : Nat) (f : Warp → Warp) : (s.onWarp u f).retire = s.retire := rfl
@[simp] theorem State.onWarp_voted (s : State) (u : Nat) (f : Warp → Warp) : (s.onWarp u f).voted = s.voted := rfl
@[simp] theorem State.onWarp_deadPorts (s : State) (u : Nat) (f : Warp → Warp) : (s.onWarp u f).deadPorts = s.deadPorts := rfl
@[simp] theorem State.onWarp_colls (s : State) (u : Nat) (f : Warp → Warp) : (s.onWarp u f).colls = s.colls := rfl
@[simp] theorem State.onWarp_collTags (s : State) (u : Nat) (f : Warp → Warp) : (s.onWarp u f).collTags = s.collTags := rfl
@[simp] theorem State.onWarp_tris (s : State) (u : Nat) (f : Warp → Warp) : (s.onWarp u f).tris = s.tris := rfl
@[simp] theorem State.onWarp_sepTags (s : State) (u : Nat) (f : Warp → Warp) : (s.onWarp u f).sepTags = s.sepTags := rfl
@[simp] theorem State.onWarp_sent (s : State) (u : Nat) (f : Warp → Warp) : (s.onWarp u f).sent = s.sent := rfl

/-! ## State.onGang -/

@[simp] theorem State.onGang_agenda (s : State) (u : Nat) (f : Gang → Gang) : (s.onGang u f).agenda = s.agenda := rfl
@[simp] theorem State.onGang_cur (s : State) (u : Nat) (f : Gang → Gang) : (s.onGang u f).cur = s.cur := rfl
@[simp] theorem State.onGang_draws (s : State) (u : Nat) (f : Gang → Gang) : (s.onGang u f).draws = s.draws := rfl
@[simp] theorem State.onGang_warps (s : State) (u : Nat) (f : Gang → Gang) : (s.onGang u f).warps = s.warps := rfl
@[simp] theorem State.onGang_launches (s : State) (u : Nat) (f : Gang → Gang) : (s.onGang u f).launches = s.launches := rfl
@[simp] theorem State.onGang_nextWarp (s : State) (u : Nat) (f : Gang → Gang) : (s.onGang u f).nextWarp = s.nextWarp := rfl
@[simp] theorem State.onGang_nextGang (s : State) (u : Nat) (f : Gang → Gang) : (s.onGang u f).nextGang = s.nextGang := rfl
@[simp] theorem State.onGang_nextLaunch (s : State) (u : Nat) (f : Gang → Gang) : (s.onGang u f).nextLaunch = s.nextLaunch := rfl
@[simp] theorem State.onGang_nextOrder (s : State) (u : Nat) (f : Gang → Gang) : (s.onGang u f).nextOrder = s.nextOrder := rfl
@[simp] theorem State.onGang_nextBatch (s : State) (u : Nat) (f : Gang → Gang) : (s.onGang u f).nextBatch = s.nextBatch := rfl
@[simp] theorem State.onGang_ctxs (s : State) (u : Nat) (f : Gang → Gang) : (s.onGang u f).ctxs = s.ctxs := rfl
@[simp] theorem State.onGang_caches (s : State) (u : Nat) (f : Gang → Gang) : (s.onGang u f).caches = s.caches := rfl
@[simp] theorem State.onGang_mem (s : State) (u : Nat) (f : Gang → Gang) : (s.onGang u f).mem = s.mem := rfl
@[simp] theorem State.onGang_clusters (s : State) (u : Nat) (f : Gang → Gang) : (s.onGang u f).clusters = s.clusters := rfl
@[simp] theorem State.onGang_units (s : State) (u : Nat) (f : Gang → Gang) : (s.onGang u f).units = s.units := rfl
@[simp] theorem State.onGang_absent (s : State) (u : Nat) (f : Gang → Gang) : (s.onGang u f).absent = s.absent := rfl
@[simp] theorem State.onGang_bootScrubbed (s : State) (u : Nat) (f : Gang → Gang) : (s.onGang u f).bootScrubbed = s.bootScrubbed := rfl
@[simp] theorem State.onGang_haltedCores (s : State) (u : Nat) (f : Gang → Gang) : (s.onGang u f).haltedCores = s.haltedCores := rfl
@[simp] theorem State.onGang_haltedPart (s : State) (u : Nat) (f : Gang → Gang) : (s.onGang u f).haltedPart = s.haltedPart := rfl
@[simp] theorem State.onGang_capture (s : State) (u : Nat) (f : Gang → Gang) : (s.onGang u f).capture = s.capture := rfl
@[simp] theorem State.onGang_mgmt (s : State) (u : Nat) (f : Gang → Gang) : (s.onGang u f).mgmt = s.mgmt := rfl
@[simp] theorem State.onGang_ports (s : State) (u : Nat) (f : Gang → Gang) : (s.onGang u f).ports = s.ports := rfl
@[simp] theorem State.onGang_received (s : State) (u : Nat) (f : Gang → Gang) : (s.onGang u f).received = s.received := rfl
@[simp] theorem State.onGang_windows (s : State) (u : Nat) (f : Gang → Gang) : (s.onGang u f).windows = s.windows := rfl
@[simp] theorem State.onGang_exports (s : State) (u : Nat) (f : Gang → Gang) : (s.onGang u f).exports = s.exports := rfl
@[simp] theorem State.onGang_pamap (s : State) (u : Nat) (f : Gang → Gang) : (s.onGang u f).pamap = s.pamap := rfl
@[simp] theorem State.onGang_measure (s : State) (u : Nat) (f : Gang → Gang) : (s.onGang u f).measure = s.measure := rfl
@[simp] theorem State.onGang_measureTags (s : State) (u : Nat) (f : Gang → Gang) : (s.onGang u f).measureTags = s.measureTags := rfl
@[simp] theorem State.onGang_keySlots (s : State) (u : Nat) (f : Gang → Gang) : (s.onGang u f).keySlots = s.keySlots := rfl
@[simp] theorem State.onGang_keyTags (s : State) (u : Nat) (f : Gang → Gang) : (s.onGang u f).keyTags = s.keyTags := rfl
@[simp] theorem State.onGang_rekeys (s : State) (u : Nat) (f : Gang → Gang) : (s.onGang u f).rekeys = s.rekeys := rfl
@[simp] theorem State.onGang_certs (s : State) (u : Nat) (f : Gang → Gang) : (s.onGang u f).certs = s.certs := rfl
@[simp] theorem State.onGang_certTags (s : State) (u : Nat) (f : Gang → Gang) : (s.onGang u f).certTags = s.certTags := rfl
@[simp] theorem State.onGang_spdm (s : State) (u : Nat) (f : Gang → Gang) : (s.onGang u f).spdm = s.spdm := rfl
@[simp] theorem State.onGang_reports (s : State) (u : Nat) (f : Gang → Gang) : (s.onGang u f).reports = s.reports := rfl
@[simp] theorem State.onGang_faults (s : State) (u : Nat) (f : Gang → Gang) : (s.onGang u f).faults = s.faults := rfl
@[simp] theorem State.onGang_batches (s : State) (u : Nat) (f : Gang → Gang) : (s.onGang u f).batches = s.batches := rfl
@[simp] theorem State.onGang_waiters (s : State) (u : Nat) (f : Gang → Gang) : (s.onGang u f).waiters = s.waiters := rfl
@[simp] theorem State.onGang_owed (s : State) (u : Nat) (f : Gang → Gang) : (s.onGang u f).owed = s.owed := rfl
@[simp] theorem State.onGang_stall (s : State) (u : Nat) (f : Gang → Gang) : (s.onGang u f).stall = s.stall := rfl
@[simp] theorem State.onGang_pendingErrs (s : State) (u : Nat) (f : Gang → Gang) : (s.onGang u f).pendingErrs = s.pendingErrs := rfl
@[simp] theorem State.onGang_found (s : State) (u : Nat) (f : Gang → Gang) : (s.onGang u f).found = s.found := rfl
@[simp] theorem State.onGang_ceCount (s : State) (u : Nat) (f : Gang → Gang) : (s.onGang u f).ceCount = s.ceCount := rfl
@[simp] theorem State.onGang_ueCount (s : State) (u : Nat) (f : Gang → Gang) : (s.onGang u f).ueCount = s.ueCount := rfl
@[simp] theorem State.onGang_retire (s : State) (u : Nat) (f : Gang → Gang) : (s.onGang u f).retire = s.retire := rfl
@[simp] theorem State.onGang_voted (s : State) (u : Nat) (f : Gang → Gang) : (s.onGang u f).voted = s.voted := rfl
@[simp] theorem State.onGang_deadPorts (s : State) (u : Nat) (f : Gang → Gang) : (s.onGang u f).deadPorts = s.deadPorts := rfl
@[simp] theorem State.onGang_colls (s : State) (u : Nat) (f : Gang → Gang) : (s.onGang u f).colls = s.colls := rfl
@[simp] theorem State.onGang_collTags (s : State) (u : Nat) (f : Gang → Gang) : (s.onGang u f).collTags = s.collTags := rfl
@[simp] theorem State.onGang_tris (s : State) (u : Nat) (f : Gang → Gang) : (s.onGang u f).tris = s.tris := rfl
@[simp] theorem State.onGang_sepTags (s : State) (u : Nat) (f : Gang → Gang) : (s.onGang u f).sepTags = s.sepTags := rfl
@[simp] theorem State.onGang_sent (s : State) (u : Nat) (f : Gang → Gang) : (s.onGang u f).sent = s.sent := rfl

/-! ## State.onLaunch -/

@[simp] theorem State.onLaunch_agenda (s : State) (u : Nat) (f : Launch → Launch) : (s.onLaunch u f).agenda = s.agenda := rfl
@[simp] theorem State.onLaunch_cur (s : State) (u : Nat) (f : Launch → Launch) : (s.onLaunch u f).cur = s.cur := rfl
@[simp] theorem State.onLaunch_draws (s : State) (u : Nat) (f : Launch → Launch) : (s.onLaunch u f).draws = s.draws := rfl
@[simp] theorem State.onLaunch_warps (s : State) (u : Nat) (f : Launch → Launch) : (s.onLaunch u f).warps = s.warps := rfl
@[simp] theorem State.onLaunch_gangs (s : State) (u : Nat) (f : Launch → Launch) : (s.onLaunch u f).gangs = s.gangs := rfl
@[simp] theorem State.onLaunch_nextWarp (s : State) (u : Nat) (f : Launch → Launch) : (s.onLaunch u f).nextWarp = s.nextWarp := rfl
@[simp] theorem State.onLaunch_nextGang (s : State) (u : Nat) (f : Launch → Launch) : (s.onLaunch u f).nextGang = s.nextGang := rfl
@[simp] theorem State.onLaunch_nextLaunch (s : State) (u : Nat) (f : Launch → Launch) : (s.onLaunch u f).nextLaunch = s.nextLaunch := rfl
@[simp] theorem State.onLaunch_nextOrder (s : State) (u : Nat) (f : Launch → Launch) : (s.onLaunch u f).nextOrder = s.nextOrder := rfl
@[simp] theorem State.onLaunch_nextBatch (s : State) (u : Nat) (f : Launch → Launch) : (s.onLaunch u f).nextBatch = s.nextBatch := rfl
@[simp] theorem State.onLaunch_ctxs (s : State) (u : Nat) (f : Launch → Launch) : (s.onLaunch u f).ctxs = s.ctxs := rfl
@[simp] theorem State.onLaunch_caches (s : State) (u : Nat) (f : Launch → Launch) : (s.onLaunch u f).caches = s.caches := rfl
@[simp] theorem State.onLaunch_mem (s : State) (u : Nat) (f : Launch → Launch) : (s.onLaunch u f).mem = s.mem := rfl
@[simp] theorem State.onLaunch_clusters (s : State) (u : Nat) (f : Launch → Launch) : (s.onLaunch u f).clusters = s.clusters := rfl
@[simp] theorem State.onLaunch_units (s : State) (u : Nat) (f : Launch → Launch) : (s.onLaunch u f).units = s.units := rfl
@[simp] theorem State.onLaunch_absent (s : State) (u : Nat) (f : Launch → Launch) : (s.onLaunch u f).absent = s.absent := rfl
@[simp] theorem State.onLaunch_bootScrubbed (s : State) (u : Nat) (f : Launch → Launch) : (s.onLaunch u f).bootScrubbed = s.bootScrubbed := rfl
@[simp] theorem State.onLaunch_haltedCores (s : State) (u : Nat) (f : Launch → Launch) : (s.onLaunch u f).haltedCores = s.haltedCores := rfl
@[simp] theorem State.onLaunch_haltedPart (s : State) (u : Nat) (f : Launch → Launch) : (s.onLaunch u f).haltedPart = s.haltedPart := rfl
@[simp] theorem State.onLaunch_capture (s : State) (u : Nat) (f : Launch → Launch) : (s.onLaunch u f).capture = s.capture := rfl
@[simp] theorem State.onLaunch_mgmt (s : State) (u : Nat) (f : Launch → Launch) : (s.onLaunch u f).mgmt = s.mgmt := rfl
@[simp] theorem State.onLaunch_ports (s : State) (u : Nat) (f : Launch → Launch) : (s.onLaunch u f).ports = s.ports := rfl
@[simp] theorem State.onLaunch_received (s : State) (u : Nat) (f : Launch → Launch) : (s.onLaunch u f).received = s.received := rfl
@[simp] theorem State.onLaunch_windows (s : State) (u : Nat) (f : Launch → Launch) : (s.onLaunch u f).windows = s.windows := rfl
@[simp] theorem State.onLaunch_exports (s : State) (u : Nat) (f : Launch → Launch) : (s.onLaunch u f).exports = s.exports := rfl
@[simp] theorem State.onLaunch_pamap (s : State) (u : Nat) (f : Launch → Launch) : (s.onLaunch u f).pamap = s.pamap := rfl
@[simp] theorem State.onLaunch_measure (s : State) (u : Nat) (f : Launch → Launch) : (s.onLaunch u f).measure = s.measure := rfl
@[simp] theorem State.onLaunch_measureTags (s : State) (u : Nat) (f : Launch → Launch) : (s.onLaunch u f).measureTags = s.measureTags := rfl
@[simp] theorem State.onLaunch_keySlots (s : State) (u : Nat) (f : Launch → Launch) : (s.onLaunch u f).keySlots = s.keySlots := rfl
@[simp] theorem State.onLaunch_keyTags (s : State) (u : Nat) (f : Launch → Launch) : (s.onLaunch u f).keyTags = s.keyTags := rfl
@[simp] theorem State.onLaunch_rekeys (s : State) (u : Nat) (f : Launch → Launch) : (s.onLaunch u f).rekeys = s.rekeys := rfl
@[simp] theorem State.onLaunch_certs (s : State) (u : Nat) (f : Launch → Launch) : (s.onLaunch u f).certs = s.certs := rfl
@[simp] theorem State.onLaunch_certTags (s : State) (u : Nat) (f : Launch → Launch) : (s.onLaunch u f).certTags = s.certTags := rfl
@[simp] theorem State.onLaunch_spdm (s : State) (u : Nat) (f : Launch → Launch) : (s.onLaunch u f).spdm = s.spdm := rfl
@[simp] theorem State.onLaunch_reports (s : State) (u : Nat) (f : Launch → Launch) : (s.onLaunch u f).reports = s.reports := rfl
@[simp] theorem State.onLaunch_faults (s : State) (u : Nat) (f : Launch → Launch) : (s.onLaunch u f).faults = s.faults := rfl
@[simp] theorem State.onLaunch_batches (s : State) (u : Nat) (f : Launch → Launch) : (s.onLaunch u f).batches = s.batches := rfl
@[simp] theorem State.onLaunch_waiters (s : State) (u : Nat) (f : Launch → Launch) : (s.onLaunch u f).waiters = s.waiters := rfl
@[simp] theorem State.onLaunch_owed (s : State) (u : Nat) (f : Launch → Launch) : (s.onLaunch u f).owed = s.owed := rfl
@[simp] theorem State.onLaunch_stall (s : State) (u : Nat) (f : Launch → Launch) : (s.onLaunch u f).stall = s.stall := rfl
@[simp] theorem State.onLaunch_pendingErrs (s : State) (u : Nat) (f : Launch → Launch) : (s.onLaunch u f).pendingErrs = s.pendingErrs := rfl
@[simp] theorem State.onLaunch_found (s : State) (u : Nat) (f : Launch → Launch) : (s.onLaunch u f).found = s.found := rfl
@[simp] theorem State.onLaunch_ceCount (s : State) (u : Nat) (f : Launch → Launch) : (s.onLaunch u f).ceCount = s.ceCount := rfl
@[simp] theorem State.onLaunch_ueCount (s : State) (u : Nat) (f : Launch → Launch) : (s.onLaunch u f).ueCount = s.ueCount := rfl
@[simp] theorem State.onLaunch_retire (s : State) (u : Nat) (f : Launch → Launch) : (s.onLaunch u f).retire = s.retire := rfl
@[simp] theorem State.onLaunch_voted (s : State) (u : Nat) (f : Launch → Launch) : (s.onLaunch u f).voted = s.voted := rfl
@[simp] theorem State.onLaunch_deadPorts (s : State) (u : Nat) (f : Launch → Launch) : (s.onLaunch u f).deadPorts = s.deadPorts := rfl
@[simp] theorem State.onLaunch_colls (s : State) (u : Nat) (f : Launch → Launch) : (s.onLaunch u f).colls = s.colls := rfl
@[simp] theorem State.onLaunch_collTags (s : State) (u : Nat) (f : Launch → Launch) : (s.onLaunch u f).collTags = s.collTags := rfl
@[simp] theorem State.onLaunch_tris (s : State) (u : Nat) (f : Launch → Launch) : (s.onLaunch u f).tris = s.tris := rfl
@[simp] theorem State.onLaunch_sepTags (s : State) (u : Nat) (f : Launch → Launch) : (s.onLaunch u f).sepTags = s.sepTags := rfl
@[simp] theorem State.onLaunch_sent (s : State) (u : Nat) (f : Launch → Launch) : (s.onLaunch u f).sent = s.sent := rfl

/-! ## State.onBlock -/

@[simp] theorem State.onBlock_agenda (s : State) (g r : Nat) (f : Block → Block) : (s.onBlock g r f).agenda = s.agenda := rfl
@[simp] theorem State.onBlock_cur (s : State) (g r : Nat) (f : Block → Block) : (s.onBlock g r f).cur = s.cur := rfl
@[simp] theorem State.onBlock_draws (s : State) (g r : Nat) (f : Block → Block) : (s.onBlock g r f).draws = s.draws := rfl
@[simp] theorem State.onBlock_warps (s : State) (g r : Nat) (f : Block → Block) : (s.onBlock g r f).warps = s.warps := rfl
@[simp] theorem State.onBlock_launches (s : State) (g r : Nat) (f : Block → Block) : (s.onBlock g r f).launches = s.launches := rfl
@[simp] theorem State.onBlock_nextWarp (s : State) (g r : Nat) (f : Block → Block) : (s.onBlock g r f).nextWarp = s.nextWarp := rfl
@[simp] theorem State.onBlock_nextGang (s : State) (g r : Nat) (f : Block → Block) : (s.onBlock g r f).nextGang = s.nextGang := rfl
@[simp] theorem State.onBlock_nextLaunch (s : State) (g r : Nat) (f : Block → Block) : (s.onBlock g r f).nextLaunch = s.nextLaunch := rfl
@[simp] theorem State.onBlock_nextOrder (s : State) (g r : Nat) (f : Block → Block) : (s.onBlock g r f).nextOrder = s.nextOrder := rfl
@[simp] theorem State.onBlock_nextBatch (s : State) (g r : Nat) (f : Block → Block) : (s.onBlock g r f).nextBatch = s.nextBatch := rfl
@[simp] theorem State.onBlock_ctxs (s : State) (g r : Nat) (f : Block → Block) : (s.onBlock g r f).ctxs = s.ctxs := rfl
@[simp] theorem State.onBlock_caches (s : State) (g r : Nat) (f : Block → Block) : (s.onBlock g r f).caches = s.caches := rfl
@[simp] theorem State.onBlock_mem (s : State) (g r : Nat) (f : Block → Block) : (s.onBlock g r f).mem = s.mem := rfl
@[simp] theorem State.onBlock_clusters (s : State) (g r : Nat) (f : Block → Block) : (s.onBlock g r f).clusters = s.clusters := rfl
@[simp] theorem State.onBlock_units (s : State) (g r : Nat) (f : Block → Block) : (s.onBlock g r f).units = s.units := rfl
@[simp] theorem State.onBlock_absent (s : State) (g r : Nat) (f : Block → Block) : (s.onBlock g r f).absent = s.absent := rfl
@[simp] theorem State.onBlock_bootScrubbed (s : State) (g r : Nat) (f : Block → Block) : (s.onBlock g r f).bootScrubbed = s.bootScrubbed := rfl
@[simp] theorem State.onBlock_haltedCores (s : State) (g r : Nat) (f : Block → Block) : (s.onBlock g r f).haltedCores = s.haltedCores := rfl
@[simp] theorem State.onBlock_haltedPart (s : State) (g r : Nat) (f : Block → Block) : (s.onBlock g r f).haltedPart = s.haltedPart := rfl
@[simp] theorem State.onBlock_capture (s : State) (g r : Nat) (f : Block → Block) : (s.onBlock g r f).capture = s.capture := rfl
@[simp] theorem State.onBlock_mgmt (s : State) (g r : Nat) (f : Block → Block) : (s.onBlock g r f).mgmt = s.mgmt := rfl
@[simp] theorem State.onBlock_ports (s : State) (g r : Nat) (f : Block → Block) : (s.onBlock g r f).ports = s.ports := rfl
@[simp] theorem State.onBlock_received (s : State) (g r : Nat) (f : Block → Block) : (s.onBlock g r f).received = s.received := rfl
@[simp] theorem State.onBlock_windows (s : State) (g r : Nat) (f : Block → Block) : (s.onBlock g r f).windows = s.windows := rfl
@[simp] theorem State.onBlock_exports (s : State) (g r : Nat) (f : Block → Block) : (s.onBlock g r f).exports = s.exports := rfl
@[simp] theorem State.onBlock_pamap (s : State) (g r : Nat) (f : Block → Block) : (s.onBlock g r f).pamap = s.pamap := rfl
@[simp] theorem State.onBlock_measure (s : State) (g r : Nat) (f : Block → Block) : (s.onBlock g r f).measure = s.measure := rfl
@[simp] theorem State.onBlock_measureTags (s : State) (g r : Nat) (f : Block → Block) : (s.onBlock g r f).measureTags = s.measureTags := rfl
@[simp] theorem State.onBlock_keySlots (s : State) (g r : Nat) (f : Block → Block) : (s.onBlock g r f).keySlots = s.keySlots := rfl
@[simp] theorem State.onBlock_keyTags (s : State) (g r : Nat) (f : Block → Block) : (s.onBlock g r f).keyTags = s.keyTags := rfl
@[simp] theorem State.onBlock_rekeys (s : State) (g r : Nat) (f : Block → Block) : (s.onBlock g r f).rekeys = s.rekeys := rfl
@[simp] theorem State.onBlock_certs (s : State) (g r : Nat) (f : Block → Block) : (s.onBlock g r f).certs = s.certs := rfl
@[simp] theorem State.onBlock_certTags (s : State) (g r : Nat) (f : Block → Block) : (s.onBlock g r f).certTags = s.certTags := rfl
@[simp] theorem State.onBlock_spdm (s : State) (g r : Nat) (f : Block → Block) : (s.onBlock g r f).spdm = s.spdm := rfl
@[simp] theorem State.onBlock_reports (s : State) (g r : Nat) (f : Block → Block) : (s.onBlock g r f).reports = s.reports := rfl
@[simp] theorem State.onBlock_faults (s : State) (g r : Nat) (f : Block → Block) : (s.onBlock g r f).faults = s.faults := rfl
@[simp] theorem State.onBlock_batches (s : State) (g r : Nat) (f : Block → Block) : (s.onBlock g r f).batches = s.batches := rfl
@[simp] theorem State.onBlock_waiters (s : State) (g r : Nat) (f : Block → Block) : (s.onBlock g r f).waiters = s.waiters := rfl
@[simp] theorem State.onBlock_owed (s : State) (g r : Nat) (f : Block → Block) : (s.onBlock g r f).owed = s.owed := rfl
@[simp] theorem State.onBlock_stall (s : State) (g r : Nat) (f : Block → Block) : (s.onBlock g r f).stall = s.stall := rfl
@[simp] theorem State.onBlock_pendingErrs (s : State) (g r : Nat) (f : Block → Block) : (s.onBlock g r f).pendingErrs = s.pendingErrs := rfl
@[simp] theorem State.onBlock_found (s : State) (g r : Nat) (f : Block → Block) : (s.onBlock g r f).found = s.found := rfl
@[simp] theorem State.onBlock_ceCount (s : State) (g r : Nat) (f : Block → Block) : (s.onBlock g r f).ceCount = s.ceCount := rfl
@[simp] theorem State.onBlock_ueCount (s : State) (g r : Nat) (f : Block → Block) : (s.onBlock g r f).ueCount = s.ueCount := rfl
@[simp] theorem State.onBlock_retire (s : State) (g r : Nat) (f : Block → Block) : (s.onBlock g r f).retire = s.retire := rfl
@[simp] theorem State.onBlock_voted (s : State) (g r : Nat) (f : Block → Block) : (s.onBlock g r f).voted = s.voted := rfl
@[simp] theorem State.onBlock_deadPorts (s : State) (g r : Nat) (f : Block → Block) : (s.onBlock g r f).deadPorts = s.deadPorts := rfl
@[simp] theorem State.onBlock_colls (s : State) (g r : Nat) (f : Block → Block) : (s.onBlock g r f).colls = s.colls := rfl
@[simp] theorem State.onBlock_collTags (s : State) (g r : Nat) (f : Block → Block) : (s.onBlock g r f).collTags = s.collTags := rfl
@[simp] theorem State.onBlock_tris (s : State) (g r : Nat) (f : Block → Block) : (s.onBlock g r f).tris = s.tris := rfl
@[simp] theorem State.onBlock_sepTags (s : State) (g r : Nat) (f : Block → Block) : (s.onBlock g r f).sepTags = s.sepTags := rfl
@[simp] theorem State.onBlock_sent (s : State) (g r : Nat) (f : Block → Block) : (s.onBlock g r f).sent = s.sent := rfl

/-! ## State.onCtx -/

@[simp] theorem State.onCtx_agenda (s : State) (k : Nat) (f : Ctx → Ctx) : (s.onCtx k f).agenda = s.agenda := rfl
@[simp] theorem State.onCtx_cur (s : State) (k : Nat) (f : Ctx → Ctx) : (s.onCtx k f).cur = s.cur := rfl
@[simp] theorem State.onCtx_draws (s : State) (k : Nat) (f : Ctx → Ctx) : (s.onCtx k f).draws = s.draws := rfl
@[simp] theorem State.onCtx_warps (s : State) (k : Nat) (f : Ctx → Ctx) : (s.onCtx k f).warps = s.warps := rfl
@[simp] theorem State.onCtx_gangs (s : State) (k : Nat) (f : Ctx → Ctx) : (s.onCtx k f).gangs = s.gangs := rfl
@[simp] theorem State.onCtx_launches (s : State) (k : Nat) (f : Ctx → Ctx) : (s.onCtx k f).launches = s.launches := rfl
@[simp] theorem State.onCtx_nextWarp (s : State) (k : Nat) (f : Ctx → Ctx) : (s.onCtx k f).nextWarp = s.nextWarp := rfl
@[simp] theorem State.onCtx_nextGang (s : State) (k : Nat) (f : Ctx → Ctx) : (s.onCtx k f).nextGang = s.nextGang := rfl
@[simp] theorem State.onCtx_nextLaunch (s : State) (k : Nat) (f : Ctx → Ctx) : (s.onCtx k f).nextLaunch = s.nextLaunch := rfl
@[simp] theorem State.onCtx_nextOrder (s : State) (k : Nat) (f : Ctx → Ctx) : (s.onCtx k f).nextOrder = s.nextOrder := rfl
@[simp] theorem State.onCtx_nextBatch (s : State) (k : Nat) (f : Ctx → Ctx) : (s.onCtx k f).nextBatch = s.nextBatch := rfl
@[simp] theorem State.onCtx_caches (s : State) (k : Nat) (f : Ctx → Ctx) : (s.onCtx k f).caches = s.caches := rfl
@[simp] theorem State.onCtx_mem (s : State) (k : Nat) (f : Ctx → Ctx) : (s.onCtx k f).mem = s.mem := rfl
@[simp] theorem State.onCtx_clusters (s : State) (k : Nat) (f : Ctx → Ctx) : (s.onCtx k f).clusters = s.clusters := rfl
@[simp] theorem State.onCtx_units (s : State) (k : Nat) (f : Ctx → Ctx) : (s.onCtx k f).units = s.units := rfl
@[simp] theorem State.onCtx_absent (s : State) (k : Nat) (f : Ctx → Ctx) : (s.onCtx k f).absent = s.absent := rfl
@[simp] theorem State.onCtx_bootScrubbed (s : State) (k : Nat) (f : Ctx → Ctx) : (s.onCtx k f).bootScrubbed = s.bootScrubbed := rfl
@[simp] theorem State.onCtx_haltedCores (s : State) (k : Nat) (f : Ctx → Ctx) : (s.onCtx k f).haltedCores = s.haltedCores := rfl
@[simp] theorem State.onCtx_haltedPart (s : State) (k : Nat) (f : Ctx → Ctx) : (s.onCtx k f).haltedPart = s.haltedPart := rfl
@[simp] theorem State.onCtx_capture (s : State) (k : Nat) (f : Ctx → Ctx) : (s.onCtx k f).capture = s.capture := rfl
@[simp] theorem State.onCtx_mgmt (s : State) (k : Nat) (f : Ctx → Ctx) : (s.onCtx k f).mgmt = s.mgmt := rfl
@[simp] theorem State.onCtx_ports (s : State) (k : Nat) (f : Ctx → Ctx) : (s.onCtx k f).ports = s.ports := rfl
@[simp] theorem State.onCtx_received (s : State) (k : Nat) (f : Ctx → Ctx) : (s.onCtx k f).received = s.received := rfl
@[simp] theorem State.onCtx_windows (s : State) (k : Nat) (f : Ctx → Ctx) : (s.onCtx k f).windows = s.windows := rfl
@[simp] theorem State.onCtx_exports (s : State) (k : Nat) (f : Ctx → Ctx) : (s.onCtx k f).exports = s.exports := rfl
@[simp] theorem State.onCtx_pamap (s : State) (k : Nat) (f : Ctx → Ctx) : (s.onCtx k f).pamap = s.pamap := rfl
@[simp] theorem State.onCtx_measure (s : State) (k : Nat) (f : Ctx → Ctx) : (s.onCtx k f).measure = s.measure := rfl
@[simp] theorem State.onCtx_measureTags (s : State) (k : Nat) (f : Ctx → Ctx) : (s.onCtx k f).measureTags = s.measureTags := rfl
@[simp] theorem State.onCtx_keySlots (s : State) (k : Nat) (f : Ctx → Ctx) : (s.onCtx k f).keySlots = s.keySlots := rfl
@[simp] theorem State.onCtx_keyTags (s : State) (k : Nat) (f : Ctx → Ctx) : (s.onCtx k f).keyTags = s.keyTags := rfl
@[simp] theorem State.onCtx_rekeys (s : State) (k : Nat) (f : Ctx → Ctx) : (s.onCtx k f).rekeys = s.rekeys := rfl
@[simp] theorem State.onCtx_certs (s : State) (k : Nat) (f : Ctx → Ctx) : (s.onCtx k f).certs = s.certs := rfl
@[simp] theorem State.onCtx_certTags (s : State) (k : Nat) (f : Ctx → Ctx) : (s.onCtx k f).certTags = s.certTags := rfl
@[simp] theorem State.onCtx_spdm (s : State) (k : Nat) (f : Ctx → Ctx) : (s.onCtx k f).spdm = s.spdm := rfl
@[simp] theorem State.onCtx_reports (s : State) (k : Nat) (f : Ctx → Ctx) : (s.onCtx k f).reports = s.reports := rfl
@[simp] theorem State.onCtx_faults (s : State) (k : Nat) (f : Ctx → Ctx) : (s.onCtx k f).faults = s.faults := rfl
@[simp] theorem State.onCtx_batches (s : State) (k : Nat) (f : Ctx → Ctx) : (s.onCtx k f).batches = s.batches := rfl
@[simp] theorem State.onCtx_waiters (s : State) (k : Nat) (f : Ctx → Ctx) : (s.onCtx k f).waiters = s.waiters := rfl
@[simp] theorem State.onCtx_owed (s : State) (k : Nat) (f : Ctx → Ctx) : (s.onCtx k f).owed = s.owed := rfl
@[simp] theorem State.onCtx_stall (s : State) (k : Nat) (f : Ctx → Ctx) : (s.onCtx k f).stall = s.stall := rfl
@[simp] theorem State.onCtx_pendingErrs (s : State) (k : Nat) (f : Ctx → Ctx) : (s.onCtx k f).pendingErrs = s.pendingErrs := rfl
@[simp] theorem State.onCtx_found (s : State) (k : Nat) (f : Ctx → Ctx) : (s.onCtx k f).found = s.found := rfl
@[simp] theorem State.onCtx_ceCount (s : State) (k : Nat) (f : Ctx → Ctx) : (s.onCtx k f).ceCount = s.ceCount := rfl
@[simp] theorem State.onCtx_ueCount (s : State) (k : Nat) (f : Ctx → Ctx) : (s.onCtx k f).ueCount = s.ueCount := rfl
@[simp] theorem State.onCtx_retire (s : State) (k : Nat) (f : Ctx → Ctx) : (s.onCtx k f).retire = s.retire := rfl
@[simp] theorem State.onCtx_voted (s : State) (k : Nat) (f : Ctx → Ctx) : (s.onCtx k f).voted = s.voted := rfl
@[simp] theorem State.onCtx_deadPorts (s : State) (k : Nat) (f : Ctx → Ctx) : (s.onCtx k f).deadPorts = s.deadPorts := rfl
@[simp] theorem State.onCtx_colls (s : State) (k : Nat) (f : Ctx → Ctx) : (s.onCtx k f).colls = s.colls := rfl
@[simp] theorem State.onCtx_collTags (s : State) (k : Nat) (f : Ctx → Ctx) : (s.onCtx k f).collTags = s.collTags := rfl
@[simp] theorem State.onCtx_tris (s : State) (k : Nat) (f : Ctx → Ctx) : (s.onCtx k f).tris = s.tris := rfl
@[simp] theorem State.onCtx_sepTags (s : State) (k : Nat) (f : Ctx → Ctx) : (s.onCtx k f).sepTags = s.sepTags := rfl
@[simp] theorem State.onCtx_sent (s : State) (k : Nat) (f : Ctx → Ctx) : (s.onCtx k f).sent = s.sent := rfl

/-! ## State.onCluster -/

@[simp] theorem State.onCluster_agenda (s : State) (c : Nat) (f : Cluster → Cluster) : (s.onCluster c f).agenda = s.agenda := rfl
@[simp] theorem State.onCluster_cur (s : State) (c : Nat) (f : Cluster → Cluster) : (s.onCluster c f).cur = s.cur := rfl
@[simp] theorem State.onCluster_draws (s : State) (c : Nat) (f : Cluster → Cluster) : (s.onCluster c f).draws = s.draws := rfl
@[simp] theorem State.onCluster_warps (s : State) (c : Nat) (f : Cluster → Cluster) : (s.onCluster c f).warps = s.warps := rfl
@[simp] theorem State.onCluster_gangs (s : State) (c : Nat) (f : Cluster → Cluster) : (s.onCluster c f).gangs = s.gangs := rfl
@[simp] theorem State.onCluster_launches (s : State) (c : Nat) (f : Cluster → Cluster) : (s.onCluster c f).launches = s.launches := rfl
@[simp] theorem State.onCluster_nextWarp (s : State) (c : Nat) (f : Cluster → Cluster) : (s.onCluster c f).nextWarp = s.nextWarp := rfl
@[simp] theorem State.onCluster_nextGang (s : State) (c : Nat) (f : Cluster → Cluster) : (s.onCluster c f).nextGang = s.nextGang := rfl
@[simp] theorem State.onCluster_nextLaunch (s : State) (c : Nat) (f : Cluster → Cluster) : (s.onCluster c f).nextLaunch = s.nextLaunch := rfl
@[simp] theorem State.onCluster_nextOrder (s : State) (c : Nat) (f : Cluster → Cluster) : (s.onCluster c f).nextOrder = s.nextOrder := rfl
@[simp] theorem State.onCluster_nextBatch (s : State) (c : Nat) (f : Cluster → Cluster) : (s.onCluster c f).nextBatch = s.nextBatch := rfl
@[simp] theorem State.onCluster_ctxs (s : State) (c : Nat) (f : Cluster → Cluster) : (s.onCluster c f).ctxs = s.ctxs := rfl
@[simp] theorem State.onCluster_caches (s : State) (c : Nat) (f : Cluster → Cluster) : (s.onCluster c f).caches = s.caches := rfl
@[simp] theorem State.onCluster_mem (s : State) (c : Nat) (f : Cluster → Cluster) : (s.onCluster c f).mem = s.mem := rfl
@[simp] theorem State.onCluster_units (s : State) (c : Nat) (f : Cluster → Cluster) : (s.onCluster c f).units = s.units := rfl
@[simp] theorem State.onCluster_absent (s : State) (c : Nat) (f : Cluster → Cluster) : (s.onCluster c f).absent = s.absent := rfl
@[simp] theorem State.onCluster_bootScrubbed (s : State) (c : Nat) (f : Cluster → Cluster) : (s.onCluster c f).bootScrubbed = s.bootScrubbed := rfl
@[simp] theorem State.onCluster_haltedCores (s : State) (c : Nat) (f : Cluster → Cluster) : (s.onCluster c f).haltedCores = s.haltedCores := rfl
@[simp] theorem State.onCluster_haltedPart (s : State) (c : Nat) (f : Cluster → Cluster) : (s.onCluster c f).haltedPart = s.haltedPart := rfl
@[simp] theorem State.onCluster_capture (s : State) (c : Nat) (f : Cluster → Cluster) : (s.onCluster c f).capture = s.capture := rfl
@[simp] theorem State.onCluster_mgmt (s : State) (c : Nat) (f : Cluster → Cluster) : (s.onCluster c f).mgmt = s.mgmt := rfl
@[simp] theorem State.onCluster_ports (s : State) (c : Nat) (f : Cluster → Cluster) : (s.onCluster c f).ports = s.ports := rfl
@[simp] theorem State.onCluster_received (s : State) (c : Nat) (f : Cluster → Cluster) : (s.onCluster c f).received = s.received := rfl
@[simp] theorem State.onCluster_windows (s : State) (c : Nat) (f : Cluster → Cluster) : (s.onCluster c f).windows = s.windows := rfl
@[simp] theorem State.onCluster_exports (s : State) (c : Nat) (f : Cluster → Cluster) : (s.onCluster c f).exports = s.exports := rfl
@[simp] theorem State.onCluster_pamap (s : State) (c : Nat) (f : Cluster → Cluster) : (s.onCluster c f).pamap = s.pamap := rfl
@[simp] theorem State.onCluster_measure (s : State) (c : Nat) (f : Cluster → Cluster) : (s.onCluster c f).measure = s.measure := rfl
@[simp] theorem State.onCluster_measureTags (s : State) (c : Nat) (f : Cluster → Cluster) : (s.onCluster c f).measureTags = s.measureTags := rfl
@[simp] theorem State.onCluster_keySlots (s : State) (c : Nat) (f : Cluster → Cluster) : (s.onCluster c f).keySlots = s.keySlots := rfl
@[simp] theorem State.onCluster_keyTags (s : State) (c : Nat) (f : Cluster → Cluster) : (s.onCluster c f).keyTags = s.keyTags := rfl
@[simp] theorem State.onCluster_rekeys (s : State) (c : Nat) (f : Cluster → Cluster) : (s.onCluster c f).rekeys = s.rekeys := rfl
@[simp] theorem State.onCluster_certs (s : State) (c : Nat) (f : Cluster → Cluster) : (s.onCluster c f).certs = s.certs := rfl
@[simp] theorem State.onCluster_certTags (s : State) (c : Nat) (f : Cluster → Cluster) : (s.onCluster c f).certTags = s.certTags := rfl
@[simp] theorem State.onCluster_spdm (s : State) (c : Nat) (f : Cluster → Cluster) : (s.onCluster c f).spdm = s.spdm := rfl
@[simp] theorem State.onCluster_reports (s : State) (c : Nat) (f : Cluster → Cluster) : (s.onCluster c f).reports = s.reports := rfl
@[simp] theorem State.onCluster_faults (s : State) (c : Nat) (f : Cluster → Cluster) : (s.onCluster c f).faults = s.faults := rfl
@[simp] theorem State.onCluster_batches (s : State) (c : Nat) (f : Cluster → Cluster) : (s.onCluster c f).batches = s.batches := rfl
@[simp] theorem State.onCluster_waiters (s : State) (c : Nat) (f : Cluster → Cluster) : (s.onCluster c f).waiters = s.waiters := rfl
@[simp] theorem State.onCluster_owed (s : State) (c : Nat) (f : Cluster → Cluster) : (s.onCluster c f).owed = s.owed := rfl
@[simp] theorem State.onCluster_stall (s : State) (c : Nat) (f : Cluster → Cluster) : (s.onCluster c f).stall = s.stall := rfl
@[simp] theorem State.onCluster_pendingErrs (s : State) (c : Nat) (f : Cluster → Cluster) : (s.onCluster c f).pendingErrs = s.pendingErrs := rfl
@[simp] theorem State.onCluster_found (s : State) (c : Nat) (f : Cluster → Cluster) : (s.onCluster c f).found = s.found := rfl
@[simp] theorem State.onCluster_ceCount (s : State) (c : Nat) (f : Cluster → Cluster) : (s.onCluster c f).ceCount = s.ceCount := rfl
@[simp] theorem State.onCluster_ueCount (s : State) (c : Nat) (f : Cluster → Cluster) : (s.onCluster c f).ueCount = s.ueCount := rfl
@[simp] theorem State.onCluster_retire (s : State) (c : Nat) (f : Cluster → Cluster) : (s.onCluster c f).retire = s.retire := rfl
@[simp] theorem State.onCluster_voted (s : State) (c : Nat) (f : Cluster → Cluster) : (s.onCluster c f).voted = s.voted := rfl
@[simp] theorem State.onCluster_deadPorts (s : State) (c : Nat) (f : Cluster → Cluster) : (s.onCluster c f).deadPorts = s.deadPorts := rfl
@[simp] theorem State.onCluster_colls (s : State) (c : Nat) (f : Cluster → Cluster) : (s.onCluster c f).colls = s.colls := rfl
@[simp] theorem State.onCluster_collTags (s : State) (c : Nat) (f : Cluster → Cluster) : (s.onCluster c f).collTags = s.collTags := rfl
@[simp] theorem State.onCluster_tris (s : State) (c : Nat) (f : Cluster → Cluster) : (s.onCluster c f).tris = s.tris := rfl
@[simp] theorem State.onCluster_sepTags (s : State) (c : Nat) (f : Cluster → Cluster) : (s.onCluster c f).sepTags = s.sepTags := rfl
@[simp] theorem State.onCluster_sent (s : State) (c : Nat) (f : Cluster → Cluster) : (s.onCluster c f).sent = s.sent := rfl

/-! ## State.onCache -/

@[simp] theorem State.onCache_agenda (s : State) (c : Nat) (f : CoreCache → CoreCache) : (s.onCache c f).agenda = s.agenda := rfl
@[simp] theorem State.onCache_cur (s : State) (c : Nat) (f : CoreCache → CoreCache) : (s.onCache c f).cur = s.cur := rfl
@[simp] theorem State.onCache_draws (s : State) (c : Nat) (f : CoreCache → CoreCache) : (s.onCache c f).draws = s.draws := rfl
@[simp] theorem State.onCache_warps (s : State) (c : Nat) (f : CoreCache → CoreCache) : (s.onCache c f).warps = s.warps := rfl
@[simp] theorem State.onCache_gangs (s : State) (c : Nat) (f : CoreCache → CoreCache) : (s.onCache c f).gangs = s.gangs := rfl
@[simp] theorem State.onCache_launches (s : State) (c : Nat) (f : CoreCache → CoreCache) : (s.onCache c f).launches = s.launches := rfl
@[simp] theorem State.onCache_nextWarp (s : State) (c : Nat) (f : CoreCache → CoreCache) : (s.onCache c f).nextWarp = s.nextWarp := rfl
@[simp] theorem State.onCache_nextGang (s : State) (c : Nat) (f : CoreCache → CoreCache) : (s.onCache c f).nextGang = s.nextGang := rfl
@[simp] theorem State.onCache_nextLaunch (s : State) (c : Nat) (f : CoreCache → CoreCache) : (s.onCache c f).nextLaunch = s.nextLaunch := rfl
@[simp] theorem State.onCache_nextOrder (s : State) (c : Nat) (f : CoreCache → CoreCache) : (s.onCache c f).nextOrder = s.nextOrder := rfl
@[simp] theorem State.onCache_nextBatch (s : State) (c : Nat) (f : CoreCache → CoreCache) : (s.onCache c f).nextBatch = s.nextBatch := rfl
@[simp] theorem State.onCache_ctxs (s : State) (c : Nat) (f : CoreCache → CoreCache) : (s.onCache c f).ctxs = s.ctxs := rfl
@[simp] theorem State.onCache_mem (s : State) (c : Nat) (f : CoreCache → CoreCache) : (s.onCache c f).mem = s.mem := rfl
@[simp] theorem State.onCache_clusters (s : State) (c : Nat) (f : CoreCache → CoreCache) : (s.onCache c f).clusters = s.clusters := rfl
@[simp] theorem State.onCache_units (s : State) (c : Nat) (f : CoreCache → CoreCache) : (s.onCache c f).units = s.units := rfl
@[simp] theorem State.onCache_absent (s : State) (c : Nat) (f : CoreCache → CoreCache) : (s.onCache c f).absent = s.absent := rfl
@[simp] theorem State.onCache_bootScrubbed (s : State) (c : Nat) (f : CoreCache → CoreCache) : (s.onCache c f).bootScrubbed = s.bootScrubbed := rfl
@[simp] theorem State.onCache_haltedCores (s : State) (c : Nat) (f : CoreCache → CoreCache) : (s.onCache c f).haltedCores = s.haltedCores := rfl
@[simp] theorem State.onCache_haltedPart (s : State) (c : Nat) (f : CoreCache → CoreCache) : (s.onCache c f).haltedPart = s.haltedPart := rfl
@[simp] theorem State.onCache_capture (s : State) (c : Nat) (f : CoreCache → CoreCache) : (s.onCache c f).capture = s.capture := rfl
@[simp] theorem State.onCache_mgmt (s : State) (c : Nat) (f : CoreCache → CoreCache) : (s.onCache c f).mgmt = s.mgmt := rfl
@[simp] theorem State.onCache_ports (s : State) (c : Nat) (f : CoreCache → CoreCache) : (s.onCache c f).ports = s.ports := rfl
@[simp] theorem State.onCache_received (s : State) (c : Nat) (f : CoreCache → CoreCache) : (s.onCache c f).received = s.received := rfl
@[simp] theorem State.onCache_windows (s : State) (c : Nat) (f : CoreCache → CoreCache) : (s.onCache c f).windows = s.windows := rfl
@[simp] theorem State.onCache_exports (s : State) (c : Nat) (f : CoreCache → CoreCache) : (s.onCache c f).exports = s.exports := rfl
@[simp] theorem State.onCache_pamap (s : State) (c : Nat) (f : CoreCache → CoreCache) : (s.onCache c f).pamap = s.pamap := rfl
@[simp] theorem State.onCache_measure (s : State) (c : Nat) (f : CoreCache → CoreCache) : (s.onCache c f).measure = s.measure := rfl
@[simp] theorem State.onCache_measureTags (s : State) (c : Nat) (f : CoreCache → CoreCache) : (s.onCache c f).measureTags = s.measureTags := rfl
@[simp] theorem State.onCache_keySlots (s : State) (c : Nat) (f : CoreCache → CoreCache) : (s.onCache c f).keySlots = s.keySlots := rfl
@[simp] theorem State.onCache_keyTags (s : State) (c : Nat) (f : CoreCache → CoreCache) : (s.onCache c f).keyTags = s.keyTags := rfl
@[simp] theorem State.onCache_rekeys (s : State) (c : Nat) (f : CoreCache → CoreCache) : (s.onCache c f).rekeys = s.rekeys := rfl
@[simp] theorem State.onCache_certs (s : State) (c : Nat) (f : CoreCache → CoreCache) : (s.onCache c f).certs = s.certs := rfl
@[simp] theorem State.onCache_certTags (s : State) (c : Nat) (f : CoreCache → CoreCache) : (s.onCache c f).certTags = s.certTags := rfl
@[simp] theorem State.onCache_spdm (s : State) (c : Nat) (f : CoreCache → CoreCache) : (s.onCache c f).spdm = s.spdm := rfl
@[simp] theorem State.onCache_reports (s : State) (c : Nat) (f : CoreCache → CoreCache) : (s.onCache c f).reports = s.reports := rfl
@[simp] theorem State.onCache_faults (s : State) (c : Nat) (f : CoreCache → CoreCache) : (s.onCache c f).faults = s.faults := rfl
@[simp] theorem State.onCache_batches (s : State) (c : Nat) (f : CoreCache → CoreCache) : (s.onCache c f).batches = s.batches := rfl
@[simp] theorem State.onCache_waiters (s : State) (c : Nat) (f : CoreCache → CoreCache) : (s.onCache c f).waiters = s.waiters := rfl
@[simp] theorem State.onCache_owed (s : State) (c : Nat) (f : CoreCache → CoreCache) : (s.onCache c f).owed = s.owed := rfl
@[simp] theorem State.onCache_stall (s : State) (c : Nat) (f : CoreCache → CoreCache) : (s.onCache c f).stall = s.stall := rfl
@[simp] theorem State.onCache_pendingErrs (s : State) (c : Nat) (f : CoreCache → CoreCache) : (s.onCache c f).pendingErrs = s.pendingErrs := rfl
@[simp] theorem State.onCache_found (s : State) (c : Nat) (f : CoreCache → CoreCache) : (s.onCache c f).found = s.found := rfl
@[simp] theorem State.onCache_ceCount (s : State) (c : Nat) (f : CoreCache → CoreCache) : (s.onCache c f).ceCount = s.ceCount := rfl
@[simp] theorem State.onCache_ueCount (s : State) (c : Nat) (f : CoreCache → CoreCache) : (s.onCache c f).ueCount = s.ueCount := rfl
@[simp] theorem State.onCache_retire (s : State) (c : Nat) (f : CoreCache → CoreCache) : (s.onCache c f).retire = s.retire := rfl
@[simp] theorem State.onCache_voted (s : State) (c : Nat) (f : CoreCache → CoreCache) : (s.onCache c f).voted = s.voted := rfl
@[simp] theorem State.onCache_deadPorts (s : State) (c : Nat) (f : CoreCache → CoreCache) : (s.onCache c f).deadPorts = s.deadPorts := rfl
@[simp] theorem State.onCache_colls (s : State) (c : Nat) (f : CoreCache → CoreCache) : (s.onCache c f).colls = s.colls := rfl
@[simp] theorem State.onCache_collTags (s : State) (c : Nat) (f : CoreCache → CoreCache) : (s.onCache c f).collTags = s.collTags := rfl
@[simp] theorem State.onCache_tris (s : State) (c : Nat) (f : CoreCache → CoreCache) : (s.onCache c f).tris = s.tris := rfl
@[simp] theorem State.onCache_sepTags (s : State) (c : Nat) (f : CoreCache → CoreCache) : (s.onCache c f).sepTags = s.sepTags := rfl
@[simp] theorem State.onCache_sent (s : State) (c : Nat) (f : CoreCache → CoreCache) : (s.onCache c f).sent = s.sent := rfl

/-! ## State.draw -/

@[simp] theorem State.draw_agenda (s : State) : (s.draw).agenda = s.agenda := rfl
@[simp] theorem State.draw_cur (s : State) : (s.draw).cur = s.cur := rfl
@[simp] theorem State.draw_warps (s : State) : (s.draw).warps = s.warps := rfl
@[simp] theorem State.draw_gangs (s : State) : (s.draw).gangs = s.gangs := rfl
@[simp] theorem State.draw_launches (s : State) : (s.draw).launches = s.launches := rfl
@[simp] theorem State.draw_nextWarp (s : State) : (s.draw).nextWarp = s.nextWarp := rfl
@[simp] theorem State.draw_nextGang (s : State) : (s.draw).nextGang = s.nextGang := rfl
@[simp] theorem State.draw_nextLaunch (s : State) : (s.draw).nextLaunch = s.nextLaunch := rfl
@[simp] theorem State.draw_nextOrder (s : State) : (s.draw).nextOrder = s.nextOrder := rfl
@[simp] theorem State.draw_nextBatch (s : State) : (s.draw).nextBatch = s.nextBatch := rfl
@[simp] theorem State.draw_ctxs (s : State) : (s.draw).ctxs = s.ctxs := rfl
@[simp] theorem State.draw_caches (s : State) : (s.draw).caches = s.caches := rfl
@[simp] theorem State.draw_mem (s : State) : (s.draw).mem = s.mem := rfl
@[simp] theorem State.draw_clusters (s : State) : (s.draw).clusters = s.clusters := rfl
@[simp] theorem State.draw_units (s : State) : (s.draw).units = s.units := rfl
@[simp] theorem State.draw_absent (s : State) : (s.draw).absent = s.absent := rfl
@[simp] theorem State.draw_bootScrubbed (s : State) : (s.draw).bootScrubbed = s.bootScrubbed := rfl
@[simp] theorem State.draw_haltedCores (s : State) : (s.draw).haltedCores = s.haltedCores := rfl
@[simp] theorem State.draw_haltedPart (s : State) : (s.draw).haltedPart = s.haltedPart := rfl
@[simp] theorem State.draw_capture (s : State) : (s.draw).capture = s.capture := rfl
@[simp] theorem State.draw_mgmt (s : State) : (s.draw).mgmt = s.mgmt := rfl
@[simp] theorem State.draw_ports (s : State) : (s.draw).ports = s.ports := rfl
@[simp] theorem State.draw_received (s : State) : (s.draw).received = s.received := rfl
@[simp] theorem State.draw_windows (s : State) : (s.draw).windows = s.windows := rfl
@[simp] theorem State.draw_exports (s : State) : (s.draw).exports = s.exports := rfl
@[simp] theorem State.draw_pamap (s : State) : (s.draw).pamap = s.pamap := rfl
@[simp] theorem State.draw_measure (s : State) : (s.draw).measure = s.measure := rfl
@[simp] theorem State.draw_measureTags (s : State) : (s.draw).measureTags = s.measureTags := rfl
@[simp] theorem State.draw_keySlots (s : State) : (s.draw).keySlots = s.keySlots := rfl
@[simp] theorem State.draw_keyTags (s : State) : (s.draw).keyTags = s.keyTags := rfl
@[simp] theorem State.draw_rekeys (s : State) : (s.draw).rekeys = s.rekeys := rfl
@[simp] theorem State.draw_certs (s : State) : (s.draw).certs = s.certs := rfl
@[simp] theorem State.draw_certTags (s : State) : (s.draw).certTags = s.certTags := rfl
@[simp] theorem State.draw_spdm (s : State) : (s.draw).spdm = s.spdm := rfl
@[simp] theorem State.draw_reports (s : State) : (s.draw).reports = s.reports := rfl
@[simp] theorem State.draw_faults (s : State) : (s.draw).faults = s.faults := rfl
@[simp] theorem State.draw_batches (s : State) : (s.draw).batches = s.batches := rfl
@[simp] theorem State.draw_waiters (s : State) : (s.draw).waiters = s.waiters := rfl
@[simp] theorem State.draw_owed (s : State) : (s.draw).owed = s.owed := rfl
@[simp] theorem State.draw_stall (s : State) : (s.draw).stall = s.stall := rfl
@[simp] theorem State.draw_pendingErrs (s : State) : (s.draw).pendingErrs = s.pendingErrs := rfl
@[simp] theorem State.draw_found (s : State) : (s.draw).found = s.found := rfl
@[simp] theorem State.draw_ceCount (s : State) : (s.draw).ceCount = s.ceCount := rfl
@[simp] theorem State.draw_ueCount (s : State) : (s.draw).ueCount = s.ueCount := rfl
@[simp] theorem State.draw_retire (s : State) : (s.draw).retire = s.retire := rfl
@[simp] theorem State.draw_voted (s : State) : (s.draw).voted = s.voted := rfl
@[simp] theorem State.draw_deadPorts (s : State) : (s.draw).deadPorts = s.deadPorts := rfl
@[simp] theorem State.draw_colls (s : State) : (s.draw).colls = s.colls := rfl
@[simp] theorem State.draw_collTags (s : State) : (s.draw).collTags = s.collTags := rfl
@[simp] theorem State.draw_tris (s : State) : (s.draw).tris = s.tris := rfl
@[simp] theorem State.draw_sepTags (s : State) : (s.draw).sepTags = s.sepTags := rfl
@[simp] theorem State.draw_sent (s : State) : (s.draw).sent = s.sent := rfl

/-! ## State.advance -/

@[simp] theorem State.advance_agenda (s : State) (u : Nat) (ls : List Nat) (pc : Word) : (s.advance u ls pc).agenda = s.agenda := rfl
@[simp] theorem State.advance_cur (s : State) (u : Nat) (ls : List Nat) (pc : Word) : (s.advance u ls pc).cur = s.cur := rfl
@[simp] theorem State.advance_draws (s : State) (u : Nat) (ls : List Nat) (pc : Word) : (s.advance u ls pc).draws = s.draws := rfl
@[simp] theorem State.advance_gangs (s : State) (u : Nat) (ls : List Nat) (pc : Word) : (s.advance u ls pc).gangs = s.gangs := rfl
@[simp] theorem State.advance_launches (s : State) (u : Nat) (ls : List Nat) (pc : Word) : (s.advance u ls pc).launches = s.launches := rfl
@[simp] theorem State.advance_nextWarp (s : State) (u : Nat) (ls : List Nat) (pc : Word) : (s.advance u ls pc).nextWarp = s.nextWarp := rfl
@[simp] theorem State.advance_nextGang (s : State) (u : Nat) (ls : List Nat) (pc : Word) : (s.advance u ls pc).nextGang = s.nextGang := rfl
@[simp] theorem State.advance_nextLaunch (s : State) (u : Nat) (ls : List Nat) (pc : Word) : (s.advance u ls pc).nextLaunch = s.nextLaunch := rfl
@[simp] theorem State.advance_nextOrder (s : State) (u : Nat) (ls : List Nat) (pc : Word) : (s.advance u ls pc).nextOrder = s.nextOrder := rfl
@[simp] theorem State.advance_nextBatch (s : State) (u : Nat) (ls : List Nat) (pc : Word) : (s.advance u ls pc).nextBatch = s.nextBatch := rfl
@[simp] theorem State.advance_ctxs (s : State) (u : Nat) (ls : List Nat) (pc : Word) : (s.advance u ls pc).ctxs = s.ctxs := rfl
@[simp] theorem State.advance_caches (s : State) (u : Nat) (ls : List Nat) (pc : Word) : (s.advance u ls pc).caches = s.caches := rfl
@[simp] theorem State.advance_mem (s : State) (u : Nat) (ls : List Nat) (pc : Word) : (s.advance u ls pc).mem = s.mem := rfl
@[simp] theorem State.advance_clusters (s : State) (u : Nat) (ls : List Nat) (pc : Word) : (s.advance u ls pc).clusters = s.clusters := rfl
@[simp] theorem State.advance_units (s : State) (u : Nat) (ls : List Nat) (pc : Word) : (s.advance u ls pc).units = s.units := rfl
@[simp] theorem State.advance_absent (s : State) (u : Nat) (ls : List Nat) (pc : Word) : (s.advance u ls pc).absent = s.absent := rfl
@[simp] theorem State.advance_bootScrubbed (s : State) (u : Nat) (ls : List Nat) (pc : Word) : (s.advance u ls pc).bootScrubbed = s.bootScrubbed := rfl
@[simp] theorem State.advance_haltedCores (s : State) (u : Nat) (ls : List Nat) (pc : Word) : (s.advance u ls pc).haltedCores = s.haltedCores := rfl
@[simp] theorem State.advance_haltedPart (s : State) (u : Nat) (ls : List Nat) (pc : Word) : (s.advance u ls pc).haltedPart = s.haltedPart := rfl
@[simp] theorem State.advance_capture (s : State) (u : Nat) (ls : List Nat) (pc : Word) : (s.advance u ls pc).capture = s.capture := rfl
@[simp] theorem State.advance_mgmt (s : State) (u : Nat) (ls : List Nat) (pc : Word) : (s.advance u ls pc).mgmt = s.mgmt := rfl
@[simp] theorem State.advance_ports (s : State) (u : Nat) (ls : List Nat) (pc : Word) : (s.advance u ls pc).ports = s.ports := rfl
@[simp] theorem State.advance_received (s : State) (u : Nat) (ls : List Nat) (pc : Word) : (s.advance u ls pc).received = s.received := rfl
@[simp] theorem State.advance_windows (s : State) (u : Nat) (ls : List Nat) (pc : Word) : (s.advance u ls pc).windows = s.windows := rfl
@[simp] theorem State.advance_exports (s : State) (u : Nat) (ls : List Nat) (pc : Word) : (s.advance u ls pc).exports = s.exports := rfl
@[simp] theorem State.advance_pamap (s : State) (u : Nat) (ls : List Nat) (pc : Word) : (s.advance u ls pc).pamap = s.pamap := rfl
@[simp] theorem State.advance_measure (s : State) (u : Nat) (ls : List Nat) (pc : Word) : (s.advance u ls pc).measure = s.measure := rfl
@[simp] theorem State.advance_measureTags (s : State) (u : Nat) (ls : List Nat) (pc : Word) : (s.advance u ls pc).measureTags = s.measureTags := rfl
@[simp] theorem State.advance_keySlots (s : State) (u : Nat) (ls : List Nat) (pc : Word) : (s.advance u ls pc).keySlots = s.keySlots := rfl
@[simp] theorem State.advance_keyTags (s : State) (u : Nat) (ls : List Nat) (pc : Word) : (s.advance u ls pc).keyTags = s.keyTags := rfl
@[simp] theorem State.advance_rekeys (s : State) (u : Nat) (ls : List Nat) (pc : Word) : (s.advance u ls pc).rekeys = s.rekeys := rfl
@[simp] theorem State.advance_certs (s : State) (u : Nat) (ls : List Nat) (pc : Word) : (s.advance u ls pc).certs = s.certs := rfl
@[simp] theorem State.advance_certTags (s : State) (u : Nat) (ls : List Nat) (pc : Word) : (s.advance u ls pc).certTags = s.certTags := rfl
@[simp] theorem State.advance_spdm (s : State) (u : Nat) (ls : List Nat) (pc : Word) : (s.advance u ls pc).spdm = s.spdm := rfl
@[simp] theorem State.advance_reports (s : State) (u : Nat) (ls : List Nat) (pc : Word) : (s.advance u ls pc).reports = s.reports := rfl
@[simp] theorem State.advance_faults (s : State) (u : Nat) (ls : List Nat) (pc : Word) : (s.advance u ls pc).faults = s.faults := rfl
@[simp] theorem State.advance_batches (s : State) (u : Nat) (ls : List Nat) (pc : Word) : (s.advance u ls pc).batches = s.batches := rfl
@[simp] theorem State.advance_waiters (s : State) (u : Nat) (ls : List Nat) (pc : Word) : (s.advance u ls pc).waiters = s.waiters := rfl
@[simp] theorem State.advance_owed (s : State) (u : Nat) (ls : List Nat) (pc : Word) : (s.advance u ls pc).owed = s.owed := rfl
@[simp] theorem State.advance_stall (s : State) (u : Nat) (ls : List Nat) (pc : Word) : (s.advance u ls pc).stall = s.stall := rfl
@[simp] theorem State.advance_pendingErrs (s : State) (u : Nat) (ls : List Nat) (pc : Word) : (s.advance u ls pc).pendingErrs = s.pendingErrs := rfl
@[simp] theorem State.advance_found (s : State) (u : Nat) (ls : List Nat) (pc : Word) : (s.advance u ls pc).found = s.found := rfl
@[simp] theorem State.advance_ceCount (s : State) (u : Nat) (ls : List Nat) (pc : Word) : (s.advance u ls pc).ceCount = s.ceCount := rfl
@[simp] theorem State.advance_ueCount (s : State) (u : Nat) (ls : List Nat) (pc : Word) : (s.advance u ls pc).ueCount = s.ueCount := rfl
@[simp] theorem State.advance_retire (s : State) (u : Nat) (ls : List Nat) (pc : Word) : (s.advance u ls pc).retire = s.retire := rfl
@[simp] theorem State.advance_voted (s : State) (u : Nat) (ls : List Nat) (pc : Word) : (s.advance u ls pc).voted = s.voted := rfl
@[simp] theorem State.advance_deadPorts (s : State) (u : Nat) (ls : List Nat) (pc : Word) : (s.advance u ls pc).deadPorts = s.deadPorts := rfl
@[simp] theorem State.advance_colls (s : State) (u : Nat) (ls : List Nat) (pc : Word) : (s.advance u ls pc).colls = s.colls := rfl
@[simp] theorem State.advance_collTags (s : State) (u : Nat) (ls : List Nat) (pc : Word) : (s.advance u ls pc).collTags = s.collTags := rfl
@[simp] theorem State.advance_tris (s : State) (u : Nat) (ls : List Nat) (pc : Word) : (s.advance u ls pc).tris = s.tris := rfl
@[simp] theorem State.advance_sepTags (s : State) (u : Nat) (ls : List Nat) (pc : Word) : (s.advance u ls pc).sepTags = s.sepTags := rfl
@[simp] theorem State.advance_sent (s : State) (u : Nat) (ls : List Nat) (pc : Word) : (s.advance u ls pc).sent = s.sent := rfl

/-! ## State.blockLanes -/

@[simp] theorem State.blockLanes_agenda (s : State) (u : Nat) (ls : List Nat) (x : Wait) : (s.blockLanes u ls x).agenda = s.agenda := rfl
@[simp] theorem State.blockLanes_cur (s : State) (u : Nat) (ls : List Nat) (x : Wait) : (s.blockLanes u ls x).cur = s.cur := rfl
@[simp] theorem State.blockLanes_draws (s : State) (u : Nat) (ls : List Nat) (x : Wait) : (s.blockLanes u ls x).draws = s.draws := rfl
@[simp] theorem State.blockLanes_gangs (s : State) (u : Nat) (ls : List Nat) (x : Wait) : (s.blockLanes u ls x).gangs = s.gangs := rfl
@[simp] theorem State.blockLanes_launches (s : State) (u : Nat) (ls : List Nat) (x : Wait) : (s.blockLanes u ls x).launches = s.launches := rfl
@[simp] theorem State.blockLanes_nextWarp (s : State) (u : Nat) (ls : List Nat) (x : Wait) : (s.blockLanes u ls x).nextWarp = s.nextWarp := rfl
@[simp] theorem State.blockLanes_nextGang (s : State) (u : Nat) (ls : List Nat) (x : Wait) : (s.blockLanes u ls x).nextGang = s.nextGang := rfl
@[simp] theorem State.blockLanes_nextLaunch (s : State) (u : Nat) (ls : List Nat) (x : Wait) : (s.blockLanes u ls x).nextLaunch = s.nextLaunch := rfl
@[simp] theorem State.blockLanes_nextOrder (s : State) (u : Nat) (ls : List Nat) (x : Wait) : (s.blockLanes u ls x).nextOrder = s.nextOrder := rfl
@[simp] theorem State.blockLanes_nextBatch (s : State) (u : Nat) (ls : List Nat) (x : Wait) : (s.blockLanes u ls x).nextBatch = s.nextBatch := rfl
@[simp] theorem State.blockLanes_ctxs (s : State) (u : Nat) (ls : List Nat) (x : Wait) : (s.blockLanes u ls x).ctxs = s.ctxs := rfl
@[simp] theorem State.blockLanes_caches (s : State) (u : Nat) (ls : List Nat) (x : Wait) : (s.blockLanes u ls x).caches = s.caches := rfl
@[simp] theorem State.blockLanes_mem (s : State) (u : Nat) (ls : List Nat) (x : Wait) : (s.blockLanes u ls x).mem = s.mem := rfl
@[simp] theorem State.blockLanes_clusters (s : State) (u : Nat) (ls : List Nat) (x : Wait) : (s.blockLanes u ls x).clusters = s.clusters := rfl
@[simp] theorem State.blockLanes_units (s : State) (u : Nat) (ls : List Nat) (x : Wait) : (s.blockLanes u ls x).units = s.units := rfl
@[simp] theorem State.blockLanes_absent (s : State) (u : Nat) (ls : List Nat) (x : Wait) : (s.blockLanes u ls x).absent = s.absent := rfl
@[simp] theorem State.blockLanes_bootScrubbed (s : State) (u : Nat) (ls : List Nat) (x : Wait) : (s.blockLanes u ls x).bootScrubbed = s.bootScrubbed := rfl
@[simp] theorem State.blockLanes_haltedCores (s : State) (u : Nat) (ls : List Nat) (x : Wait) : (s.blockLanes u ls x).haltedCores = s.haltedCores := rfl
@[simp] theorem State.blockLanes_haltedPart (s : State) (u : Nat) (ls : List Nat) (x : Wait) : (s.blockLanes u ls x).haltedPart = s.haltedPart := rfl
@[simp] theorem State.blockLanes_capture (s : State) (u : Nat) (ls : List Nat) (x : Wait) : (s.blockLanes u ls x).capture = s.capture := rfl
@[simp] theorem State.blockLanes_mgmt (s : State) (u : Nat) (ls : List Nat) (x : Wait) : (s.blockLanes u ls x).mgmt = s.mgmt := rfl
@[simp] theorem State.blockLanes_ports (s : State) (u : Nat) (ls : List Nat) (x : Wait) : (s.blockLanes u ls x).ports = s.ports := rfl
@[simp] theorem State.blockLanes_received (s : State) (u : Nat) (ls : List Nat) (x : Wait) : (s.blockLanes u ls x).received = s.received := rfl
@[simp] theorem State.blockLanes_windows (s : State) (u : Nat) (ls : List Nat) (x : Wait) : (s.blockLanes u ls x).windows = s.windows := rfl
@[simp] theorem State.blockLanes_exports (s : State) (u : Nat) (ls : List Nat) (x : Wait) : (s.blockLanes u ls x).exports = s.exports := rfl
@[simp] theorem State.blockLanes_pamap (s : State) (u : Nat) (ls : List Nat) (x : Wait) : (s.blockLanes u ls x).pamap = s.pamap := rfl
@[simp] theorem State.blockLanes_measure (s : State) (u : Nat) (ls : List Nat) (x : Wait) : (s.blockLanes u ls x).measure = s.measure := rfl
@[simp] theorem State.blockLanes_measureTags (s : State) (u : Nat) (ls : List Nat) (x : Wait) : (s.blockLanes u ls x).measureTags = s.measureTags := rfl
@[simp] theorem State.blockLanes_keySlots (s : State) (u : Nat) (ls : List Nat) (x : Wait) : (s.blockLanes u ls x).keySlots = s.keySlots := rfl
@[simp] theorem State.blockLanes_keyTags (s : State) (u : Nat) (ls : List Nat) (x : Wait) : (s.blockLanes u ls x).keyTags = s.keyTags := rfl
@[simp] theorem State.blockLanes_rekeys (s : State) (u : Nat) (ls : List Nat) (x : Wait) : (s.blockLanes u ls x).rekeys = s.rekeys := rfl
@[simp] theorem State.blockLanes_certs (s : State) (u : Nat) (ls : List Nat) (x : Wait) : (s.blockLanes u ls x).certs = s.certs := rfl
@[simp] theorem State.blockLanes_certTags (s : State) (u : Nat) (ls : List Nat) (x : Wait) : (s.blockLanes u ls x).certTags = s.certTags := rfl
@[simp] theorem State.blockLanes_spdm (s : State) (u : Nat) (ls : List Nat) (x : Wait) : (s.blockLanes u ls x).spdm = s.spdm := rfl
@[simp] theorem State.blockLanes_reports (s : State) (u : Nat) (ls : List Nat) (x : Wait) : (s.blockLanes u ls x).reports = s.reports := rfl
@[simp] theorem State.blockLanes_faults (s : State) (u : Nat) (ls : List Nat) (x : Wait) : (s.blockLanes u ls x).faults = s.faults := rfl
@[simp] theorem State.blockLanes_batches (s : State) (u : Nat) (ls : List Nat) (x : Wait) : (s.blockLanes u ls x).batches = s.batches := rfl
@[simp] theorem State.blockLanes_waiters (s : State) (u : Nat) (ls : List Nat) (x : Wait) : (s.blockLanes u ls x).waiters = s.waiters := rfl
@[simp] theorem State.blockLanes_owed (s : State) (u : Nat) (ls : List Nat) (x : Wait) : (s.blockLanes u ls x).owed = s.owed := rfl
@[simp] theorem State.blockLanes_stall (s : State) (u : Nat) (ls : List Nat) (x : Wait) : (s.blockLanes u ls x).stall = s.stall := rfl
@[simp] theorem State.blockLanes_pendingErrs (s : State) (u : Nat) (ls : List Nat) (x : Wait) : (s.blockLanes u ls x).pendingErrs = s.pendingErrs := rfl
@[simp] theorem State.blockLanes_found (s : State) (u : Nat) (ls : List Nat) (x : Wait) : (s.blockLanes u ls x).found = s.found := rfl
@[simp] theorem State.blockLanes_ceCount (s : State) (u : Nat) (ls : List Nat) (x : Wait) : (s.blockLanes u ls x).ceCount = s.ceCount := rfl
@[simp] theorem State.blockLanes_ueCount (s : State) (u : Nat) (ls : List Nat) (x : Wait) : (s.blockLanes u ls x).ueCount = s.ueCount := rfl
@[simp] theorem State.blockLanes_retire (s : State) (u : Nat) (ls : List Nat) (x : Wait) : (s.blockLanes u ls x).retire = s.retire := rfl
@[simp] theorem State.blockLanes_voted (s : State) (u : Nat) (ls : List Nat) (x : Wait) : (s.blockLanes u ls x).voted = s.voted := rfl
@[simp] theorem State.blockLanes_deadPorts (s : State) (u : Nat) (ls : List Nat) (x : Wait) : (s.blockLanes u ls x).deadPorts = s.deadPorts := rfl
@[simp] theorem State.blockLanes_colls (s : State) (u : Nat) (ls : List Nat) (x : Wait) : (s.blockLanes u ls x).colls = s.colls := rfl
@[simp] theorem State.blockLanes_collTags (s : State) (u : Nat) (ls : List Nat) (x : Wait) : (s.blockLanes u ls x).collTags = s.collTags := rfl
@[simp] theorem State.blockLanes_tris (s : State) (u : Nat) (ls : List Nat) (x : Wait) : (s.blockLanes u ls x).tris = s.tris := rfl
@[simp] theorem State.blockLanes_sepTags (s : State) (u : Nat) (ls : List Nat) (x : Wait) : (s.blockLanes u ls x).sepTags = s.sepTags := rfl
@[simp] theorem State.blockLanes_sent (s : State) (u : Nat) (ls : List Nat) (x : Wait) : (s.blockLanes u ls x).sent = s.sent := rfl

/-! ## State.wakeLanes -/

@[simp] theorem State.wakeLanes_agenda (s : State) (u : Nat) (ls : List Nat) : (s.wakeLanes u ls).agenda = s.agenda := rfl
@[simp] theorem State.wakeLanes_cur (s : State) (u : Nat) (ls : List Nat) : (s.wakeLanes u ls).cur = s.cur := rfl
@[simp] theorem State.wakeLanes_draws (s : State) (u : Nat) (ls : List Nat) : (s.wakeLanes u ls).draws = s.draws := rfl
@[simp] theorem State.wakeLanes_gangs (s : State) (u : Nat) (ls : List Nat) : (s.wakeLanes u ls).gangs = s.gangs := rfl
@[simp] theorem State.wakeLanes_launches (s : State) (u : Nat) (ls : List Nat) : (s.wakeLanes u ls).launches = s.launches := rfl
@[simp] theorem State.wakeLanes_nextWarp (s : State) (u : Nat) (ls : List Nat) : (s.wakeLanes u ls).nextWarp = s.nextWarp := rfl
@[simp] theorem State.wakeLanes_nextGang (s : State) (u : Nat) (ls : List Nat) : (s.wakeLanes u ls).nextGang = s.nextGang := rfl
@[simp] theorem State.wakeLanes_nextLaunch (s : State) (u : Nat) (ls : List Nat) : (s.wakeLanes u ls).nextLaunch = s.nextLaunch := rfl
@[simp] theorem State.wakeLanes_nextOrder (s : State) (u : Nat) (ls : List Nat) : (s.wakeLanes u ls).nextOrder = s.nextOrder := rfl
@[simp] theorem State.wakeLanes_nextBatch (s : State) (u : Nat) (ls : List Nat) : (s.wakeLanes u ls).nextBatch = s.nextBatch := rfl
@[simp] theorem State.wakeLanes_ctxs (s : State) (u : Nat) (ls : List Nat) : (s.wakeLanes u ls).ctxs = s.ctxs := rfl
@[simp] theorem State.wakeLanes_caches (s : State) (u : Nat) (ls : List Nat) : (s.wakeLanes u ls).caches = s.caches := rfl
@[simp] theorem State.wakeLanes_mem (s : State) (u : Nat) (ls : List Nat) : (s.wakeLanes u ls).mem = s.mem := rfl
@[simp] theorem State.wakeLanes_clusters (s : State) (u : Nat) (ls : List Nat) : (s.wakeLanes u ls).clusters = s.clusters := rfl
@[simp] theorem State.wakeLanes_units (s : State) (u : Nat) (ls : List Nat) : (s.wakeLanes u ls).units = s.units := rfl
@[simp] theorem State.wakeLanes_absent (s : State) (u : Nat) (ls : List Nat) : (s.wakeLanes u ls).absent = s.absent := rfl
@[simp] theorem State.wakeLanes_bootScrubbed (s : State) (u : Nat) (ls : List Nat) : (s.wakeLanes u ls).bootScrubbed = s.bootScrubbed := rfl
@[simp] theorem State.wakeLanes_haltedCores (s : State) (u : Nat) (ls : List Nat) : (s.wakeLanes u ls).haltedCores = s.haltedCores := rfl
@[simp] theorem State.wakeLanes_haltedPart (s : State) (u : Nat) (ls : List Nat) : (s.wakeLanes u ls).haltedPart = s.haltedPart := rfl
@[simp] theorem State.wakeLanes_capture (s : State) (u : Nat) (ls : List Nat) : (s.wakeLanes u ls).capture = s.capture := rfl
@[simp] theorem State.wakeLanes_mgmt (s : State) (u : Nat) (ls : List Nat) : (s.wakeLanes u ls).mgmt = s.mgmt := rfl
@[simp] theorem State.wakeLanes_ports (s : State) (u : Nat) (ls : List Nat) : (s.wakeLanes u ls).ports = s.ports := rfl
@[simp] theorem State.wakeLanes_received (s : State) (u : Nat) (ls : List Nat) : (s.wakeLanes u ls).received = s.received := rfl
@[simp] theorem State.wakeLanes_windows (s : State) (u : Nat) (ls : List Nat) : (s.wakeLanes u ls).windows = s.windows := rfl
@[simp] theorem State.wakeLanes_exports (s : State) (u : Nat) (ls : List Nat) : (s.wakeLanes u ls).exports = s.exports := rfl
@[simp] theorem State.wakeLanes_pamap (s : State) (u : Nat) (ls : List Nat) : (s.wakeLanes u ls).pamap = s.pamap := rfl
@[simp] theorem State.wakeLanes_measure (s : State) (u : Nat) (ls : List Nat) : (s.wakeLanes u ls).measure = s.measure := rfl
@[simp] theorem State.wakeLanes_measureTags (s : State) (u : Nat) (ls : List Nat) : (s.wakeLanes u ls).measureTags = s.measureTags := rfl
@[simp] theorem State.wakeLanes_keySlots (s : State) (u : Nat) (ls : List Nat) : (s.wakeLanes u ls).keySlots = s.keySlots := rfl
@[simp] theorem State.wakeLanes_keyTags (s : State) (u : Nat) (ls : List Nat) : (s.wakeLanes u ls).keyTags = s.keyTags := rfl
@[simp] theorem State.wakeLanes_rekeys (s : State) (u : Nat) (ls : List Nat) : (s.wakeLanes u ls).rekeys = s.rekeys := rfl
@[simp] theorem State.wakeLanes_certs (s : State) (u : Nat) (ls : List Nat) : (s.wakeLanes u ls).certs = s.certs := rfl
@[simp] theorem State.wakeLanes_certTags (s : State) (u : Nat) (ls : List Nat) : (s.wakeLanes u ls).certTags = s.certTags := rfl
@[simp] theorem State.wakeLanes_spdm (s : State) (u : Nat) (ls : List Nat) : (s.wakeLanes u ls).spdm = s.spdm := rfl
@[simp] theorem State.wakeLanes_reports (s : State) (u : Nat) (ls : List Nat) : (s.wakeLanes u ls).reports = s.reports := rfl
@[simp] theorem State.wakeLanes_faults (s : State) (u : Nat) (ls : List Nat) : (s.wakeLanes u ls).faults = s.faults := rfl
@[simp] theorem State.wakeLanes_batches (s : State) (u : Nat) (ls : List Nat) : (s.wakeLanes u ls).batches = s.batches := rfl
@[simp] theorem State.wakeLanes_waiters (s : State) (u : Nat) (ls : List Nat) : (s.wakeLanes u ls).waiters = s.waiters := rfl
@[simp] theorem State.wakeLanes_owed (s : State) (u : Nat) (ls : List Nat) : (s.wakeLanes u ls).owed = s.owed := rfl
@[simp] theorem State.wakeLanes_stall (s : State) (u : Nat) (ls : List Nat) : (s.wakeLanes u ls).stall = s.stall := rfl
@[simp] theorem State.wakeLanes_pendingErrs (s : State) (u : Nat) (ls : List Nat) : (s.wakeLanes u ls).pendingErrs = s.pendingErrs := rfl
@[simp] theorem State.wakeLanes_found (s : State) (u : Nat) (ls : List Nat) : (s.wakeLanes u ls).found = s.found := rfl
@[simp] theorem State.wakeLanes_ceCount (s : State) (u : Nat) (ls : List Nat) : (s.wakeLanes u ls).ceCount = s.ceCount := rfl
@[simp] theorem State.wakeLanes_ueCount (s : State) (u : Nat) (ls : List Nat) : (s.wakeLanes u ls).ueCount = s.ueCount := rfl
@[simp] theorem State.wakeLanes_retire (s : State) (u : Nat) (ls : List Nat) : (s.wakeLanes u ls).retire = s.retire := rfl
@[simp] theorem State.wakeLanes_voted (s : State) (u : Nat) (ls : List Nat) : (s.wakeLanes u ls).voted = s.voted := rfl
@[simp] theorem State.wakeLanes_deadPorts (s : State) (u : Nat) (ls : List Nat) : (s.wakeLanes u ls).deadPorts = s.deadPorts := rfl
@[simp] theorem State.wakeLanes_colls (s : State) (u : Nat) (ls : List Nat) : (s.wakeLanes u ls).colls = s.colls := rfl
@[simp] theorem State.wakeLanes_collTags (s : State) (u : Nat) (ls : List Nat) : (s.wakeLanes u ls).collTags = s.collTags := rfl
@[simp] theorem State.wakeLanes_tris (s : State) (u : Nat) (ls : List Nat) : (s.wakeLanes u ls).tris = s.tris := rfl
@[simp] theorem State.wakeLanes_sepTags (s : State) (u : Nat) (ls : List Nat) : (s.wakeLanes u ls).sepTags = s.sepTags := rfl
@[simp] theorem State.wakeLanes_sent (s : State) (u : Nat) (ls : List Nat) : (s.wakeLanes u ls).sent = s.sent := rfl

/-! ## Warp.onThread -/

@[simp] theorem Warp.onThread_uid (w : Warp) (l : Nat) (f : Thread → Thread) : (w.onThread l f).uid = w.uid := rfl
@[simp] theorem Warp.onThread_gang (w : Warp) (l : Nat) (f : Thread → Thread) : (w.onThread l f).gang = w.gang := rfl
@[simp] theorem Warp.onThread_rank (w : Warp) (l : Nat) (f : Thread → Thread) : (w.onThread l f).rank = w.rank := rfl
@[simp] theorem Warp.onThread_num (w : Warp) (l : Nat) (f : Thread → Thread) : (w.onThread l f).num = w.num := rfl
@[simp] theorem Warp.onThread_part (w : Warp) (l : Nat) (f : Thread → Thread) : (w.onThread l f).part = w.part := rfl
@[simp] theorem Warp.onThread_slot (w : Warp) (l : Nat) (f : Thread → Thread) : (w.onThread l f).slot = w.slot := rfl
@[simp] theorem Warp.onThread_width (w : Warp) (l : Nat) (f : Thread → Thread) : (w.onThread l f).width = w.width := rfl
@[simp] theorem Warp.onThread_nv (w : Warp) (l : Nat) (f : Thread → Thread) : (w.onThread l f).nv = w.nv := rfl
@[simp] theorem Warp.onThread_nu (w : Warp) (l : Nat) (f : Thread → Thread) : (w.onThread l f).nu = w.nu := rfl
@[simp] theorem Warp.onThread_vregs (w : Warp) (l : Nat) (f : Thread → Thread) : (w.onThread l f).vregs = w.vregs := rfl
@[simp] theorem Warp.onThread_uregs (w : Warp) (l : Nat) (f : Thread → Thread) : (w.onThread l f).uregs = w.uregs := rfl
@[simp] theorem Warp.onThread_ops (w : Warp) (l : Nat) (f : Thread → Thread) : (w.onThread l f).ops = w.ops := rfl
@[simp] theorem Warp.onThread_nextOp (w : Warp) (l : Nat) (f : Thread → Thread) : (w.onThread l f).nextOp = w.nextOp := rfl
@[simp] theorem Warp.onThread_served (w : Warp) (l : Nat) (f : Thread → Thread) : (w.onThread l f).served = w.served := rfl
@[simp] theorem Warp.onThread_progress (w : Warp) (l : Nat) (f : Thread → Thread) : (w.onThread l f).progress = w.progress := rfl
@[simp] theorem Warp.onThread_demote (w : Warp) (l : Nat) (f : Thread → Thread) : (w.onThread l f).demote = w.demote := rfl
@[simp] theorem Warp.onThread_pool (w : Warp) (l : Nat) (f : Thread → Thread) : (w.onThread l f).pool = w.pool := rfl
@[simp] theorem Warp.onThread_keeper (w : Warp) (l : Nat) (f : Thread → Thread) : (w.onThread l f).keeper = w.keeper := rfl
@[simp] theorem Warp.onThread_asyncTrap (w : Warp) (l : Nat) (f : Thread → Thread) : (w.onThread l f).asyncTrap = w.asyncTrap := rfl
@[simp] theorem Warp.onThread_stopped (w : Warp) (l : Nat) (f : Thread → Thread) : (w.onThread l f).stopped = w.stopped := rfl
@[simp] theorem Warp.onThread_batch (w : Warp) (l : Nat) (f : Thread → Thread) : (w.onThread l f).batch = w.batch := rfl
@[simp] theorem Warp.onThread_shadowV (w : Warp) (l : Nat) (f : Thread → Thread) : (w.onThread l f).shadowV = w.shadowV := rfl
@[simp] theorem Warp.onThread_shadowU (w : Warp) (l : Nat) (f : Thread → Thread) : (w.onThread l f).shadowU = w.shadowU := rfl
@[simp] theorem Warp.onThread_shadowT (w : Warp) (l : Nat) (f : Thread → Thread) : (w.onThread l f).shadowT = w.shadowT := rfl
@[simp] theorem Warp.onThread_shadowServed (w : Warp) (l : Nat) (f : Thread → Thread) : (w.onThread l f).shadowServed = w.shadowServed := rfl
@[simp] theorem Warp.onThread_lag (w : Warp) (l : Nat) (f : Thread → Thread) : (w.onThread l f).lag = w.lag := rfl
@[simp] theorem Warp.onThread_queued (w : Warp) (l : Nat) (f : Thread → Thread) : (w.onThread l f).queued = w.queued := rfl
@[simp] theorem Warp.onThread_copy (w : Warp) (l : Nat) (f : Thread → Thread) : (w.onThread l f).copy = w.copy := rfl
@[simp] theorem Warp.onThread_retired (w : Warp) (l : Nat) (f : Thread → Thread) : (w.onThread l f).retired = w.retired := rfl

/-! ## Warp.setVreg -/

@[simp] theorem Warp.setVreg_uid (w : Warp) (i l : Nat) (r : Reg) : (w.setVreg i l r).uid = w.uid := rfl
@[simp] theorem Warp.setVreg_gang (w : Warp) (i l : Nat) (r : Reg) : (w.setVreg i l r).gang = w.gang := rfl
@[simp] theorem Warp.setVreg_rank (w : Warp) (i l : Nat) (r : Reg) : (w.setVreg i l r).rank = w.rank := rfl
@[simp] theorem Warp.setVreg_num (w : Warp) (i l : Nat) (r : Reg) : (w.setVreg i l r).num = w.num := rfl
@[simp] theorem Warp.setVreg_part (w : Warp) (i l : Nat) (r : Reg) : (w.setVreg i l r).part = w.part := rfl
@[simp] theorem Warp.setVreg_slot (w : Warp) (i l : Nat) (r : Reg) : (w.setVreg i l r).slot = w.slot := rfl
@[simp] theorem Warp.setVreg_width (w : Warp) (i l : Nat) (r : Reg) : (w.setVreg i l r).width = w.width := rfl
@[simp] theorem Warp.setVreg_nv (w : Warp) (i l : Nat) (r : Reg) : (w.setVreg i l r).nv = w.nv := rfl
@[simp] theorem Warp.setVreg_nu (w : Warp) (i l : Nat) (r : Reg) : (w.setVreg i l r).nu = w.nu := rfl
@[simp] theorem Warp.setVreg_threads (w : Warp) (i l : Nat) (r : Reg) : (w.setVreg i l r).threads = w.threads := rfl
@[simp] theorem Warp.setVreg_uregs (w : Warp) (i l : Nat) (r : Reg) : (w.setVreg i l r).uregs = w.uregs := rfl
@[simp] theorem Warp.setVreg_ops (w : Warp) (i l : Nat) (r : Reg) : (w.setVreg i l r).ops = w.ops := rfl
@[simp] theorem Warp.setVreg_nextOp (w : Warp) (i l : Nat) (r : Reg) : (w.setVreg i l r).nextOp = w.nextOp := rfl
@[simp] theorem Warp.setVreg_served (w : Warp) (i l : Nat) (r : Reg) : (w.setVreg i l r).served = w.served := rfl
@[simp] theorem Warp.setVreg_progress (w : Warp) (i l : Nat) (r : Reg) : (w.setVreg i l r).progress = w.progress := rfl
@[simp] theorem Warp.setVreg_demote (w : Warp) (i l : Nat) (r : Reg) : (w.setVreg i l r).demote = w.demote := rfl
@[simp] theorem Warp.setVreg_pool (w : Warp) (i l : Nat) (r : Reg) : (w.setVreg i l r).pool = w.pool := rfl
@[simp] theorem Warp.setVreg_keeper (w : Warp) (i l : Nat) (r : Reg) : (w.setVreg i l r).keeper = w.keeper := rfl
@[simp] theorem Warp.setVreg_asyncTrap (w : Warp) (i l : Nat) (r : Reg) : (w.setVreg i l r).asyncTrap = w.asyncTrap := rfl
@[simp] theorem Warp.setVreg_stopped (w : Warp) (i l : Nat) (r : Reg) : (w.setVreg i l r).stopped = w.stopped := rfl
@[simp] theorem Warp.setVreg_batch (w : Warp) (i l : Nat) (r : Reg) : (w.setVreg i l r).batch = w.batch := rfl
@[simp] theorem Warp.setVreg_shadowV (w : Warp) (i l : Nat) (r : Reg) : (w.setVreg i l r).shadowV = w.shadowV := rfl
@[simp] theorem Warp.setVreg_shadowU (w : Warp) (i l : Nat) (r : Reg) : (w.setVreg i l r).shadowU = w.shadowU := rfl
@[simp] theorem Warp.setVreg_shadowT (w : Warp) (i l : Nat) (r : Reg) : (w.setVreg i l r).shadowT = w.shadowT := rfl
@[simp] theorem Warp.setVreg_shadowServed (w : Warp) (i l : Nat) (r : Reg) : (w.setVreg i l r).shadowServed = w.shadowServed := rfl
@[simp] theorem Warp.setVreg_lag (w : Warp) (i l : Nat) (r : Reg) : (w.setVreg i l r).lag = w.lag := rfl
@[simp] theorem Warp.setVreg_queued (w : Warp) (i l : Nat) (r : Reg) : (w.setVreg i l r).queued = w.queued := rfl
@[simp] theorem Warp.setVreg_copy (w : Warp) (i l : Nat) (r : Reg) : (w.setVreg i l r).copy = w.copy := rfl
@[simp] theorem Warp.setVreg_retired (w : Warp) (i l : Nat) (r : Reg) : (w.setVreg i l r).retired = w.retired := rfl

/-! ## Warp.setUreg -/

@[simp] theorem Warp.setUreg_uid (w : Warp) (i : Nat) (r : Reg) : (w.setUreg i r).uid = w.uid := rfl
@[simp] theorem Warp.setUreg_gang (w : Warp) (i : Nat) (r : Reg) : (w.setUreg i r).gang = w.gang := rfl
@[simp] theorem Warp.setUreg_rank (w : Warp) (i : Nat) (r : Reg) : (w.setUreg i r).rank = w.rank := rfl
@[simp] theorem Warp.setUreg_num (w : Warp) (i : Nat) (r : Reg) : (w.setUreg i r).num = w.num := rfl
@[simp] theorem Warp.setUreg_part (w : Warp) (i : Nat) (r : Reg) : (w.setUreg i r).part = w.part := rfl
@[simp] theorem Warp.setUreg_slot (w : Warp) (i : Nat) (r : Reg) : (w.setUreg i r).slot = w.slot := rfl
@[simp] theorem Warp.setUreg_width (w : Warp) (i : Nat) (r : Reg) : (w.setUreg i r).width = w.width := rfl
@[simp] theorem Warp.setUreg_nv (w : Warp) (i : Nat) (r : Reg) : (w.setUreg i r).nv = w.nv := rfl
@[simp] theorem Warp.setUreg_nu (w : Warp) (i : Nat) (r : Reg) : (w.setUreg i r).nu = w.nu := rfl
@[simp] theorem Warp.setUreg_threads (w : Warp) (i : Nat) (r : Reg) : (w.setUreg i r).threads = w.threads := rfl
@[simp] theorem Warp.setUreg_vregs (w : Warp) (i : Nat) (r : Reg) : (w.setUreg i r).vregs = w.vregs := rfl
@[simp] theorem Warp.setUreg_ops (w : Warp) (i : Nat) (r : Reg) : (w.setUreg i r).ops = w.ops := rfl
@[simp] theorem Warp.setUreg_nextOp (w : Warp) (i : Nat) (r : Reg) : (w.setUreg i r).nextOp = w.nextOp := rfl
@[simp] theorem Warp.setUreg_served (w : Warp) (i : Nat) (r : Reg) : (w.setUreg i r).served = w.served := rfl
@[simp] theorem Warp.setUreg_progress (w : Warp) (i : Nat) (r : Reg) : (w.setUreg i r).progress = w.progress := rfl
@[simp] theorem Warp.setUreg_demote (w : Warp) (i : Nat) (r : Reg) : (w.setUreg i r).demote = w.demote := rfl
@[simp] theorem Warp.setUreg_pool (w : Warp) (i : Nat) (r : Reg) : (w.setUreg i r).pool = w.pool := rfl
@[simp] theorem Warp.setUreg_keeper (w : Warp) (i : Nat) (r : Reg) : (w.setUreg i r).keeper = w.keeper := rfl
@[simp] theorem Warp.setUreg_asyncTrap (w : Warp) (i : Nat) (r : Reg) : (w.setUreg i r).asyncTrap = w.asyncTrap := rfl
@[simp] theorem Warp.setUreg_stopped (w : Warp) (i : Nat) (r : Reg) : (w.setUreg i r).stopped = w.stopped := rfl
@[simp] theorem Warp.setUreg_batch (w : Warp) (i : Nat) (r : Reg) : (w.setUreg i r).batch = w.batch := rfl
@[simp] theorem Warp.setUreg_shadowV (w : Warp) (i : Nat) (r : Reg) : (w.setUreg i r).shadowV = w.shadowV := rfl
@[simp] theorem Warp.setUreg_shadowU (w : Warp) (i : Nat) (r : Reg) : (w.setUreg i r).shadowU = w.shadowU := rfl
@[simp] theorem Warp.setUreg_shadowT (w : Warp) (i : Nat) (r : Reg) : (w.setUreg i r).shadowT = w.shadowT := rfl
@[simp] theorem Warp.setUreg_shadowServed (w : Warp) (i : Nat) (r : Reg) : (w.setUreg i r).shadowServed = w.shadowServed := rfl
@[simp] theorem Warp.setUreg_lag (w : Warp) (i : Nat) (r : Reg) : (w.setUreg i r).lag = w.lag := rfl
@[simp] theorem Warp.setUreg_queued (w : Warp) (i : Nat) (r : Reg) : (w.setUreg i r).queued = w.queued := rfl
@[simp] theorem Warp.setUreg_copy (w : Warp) (i : Nat) (r : Reg) : (w.setUreg i r).copy = w.copy := rfl
@[simp] theorem Warp.setUreg_retired (w : Warp) (i : Nat) (r : Reg) : (w.setUreg i r).retired = w.retired := rfl

/-! ## Warp.addOp -/

@[simp] theorem Warp.addOp_uid (w : Warp) (o : Op) : (w.addOp o).uid = w.uid := rfl
@[simp] theorem Warp.addOp_gang (w : Warp) (o : Op) : (w.addOp o).gang = w.gang := rfl
@[simp] theorem Warp.addOp_rank (w : Warp) (o : Op) : (w.addOp o).rank = w.rank := rfl
@[simp] theorem Warp.addOp_num (w : Warp) (o : Op) : (w.addOp o).num = w.num := rfl
@[simp] theorem Warp.addOp_part (w : Warp) (o : Op) : (w.addOp o).part = w.part := rfl
@[simp] theorem Warp.addOp_slot (w : Warp) (o : Op) : (w.addOp o).slot = w.slot := rfl
@[simp] theorem Warp.addOp_width (w : Warp) (o : Op) : (w.addOp o).width = w.width := rfl
@[simp] theorem Warp.addOp_nv (w : Warp) (o : Op) : (w.addOp o).nv = w.nv := rfl
@[simp] theorem Warp.addOp_nu (w : Warp) (o : Op) : (w.addOp o).nu = w.nu := rfl
@[simp] theorem Warp.addOp_threads (w : Warp) (o : Op) : (w.addOp o).threads = w.threads := rfl
@[simp] theorem Warp.addOp_vregs (w : Warp) (o : Op) : (w.addOp o).vregs = w.vregs := rfl
@[simp] theorem Warp.addOp_uregs (w : Warp) (o : Op) : (w.addOp o).uregs = w.uregs := rfl
@[simp] theorem Warp.addOp_served (w : Warp) (o : Op) : (w.addOp o).served = w.served := rfl
@[simp] theorem Warp.addOp_progress (w : Warp) (o : Op) : (w.addOp o).progress = w.progress := rfl
@[simp] theorem Warp.addOp_demote (w : Warp) (o : Op) : (w.addOp o).demote = w.demote := rfl
@[simp] theorem Warp.addOp_pool (w : Warp) (o : Op) : (w.addOp o).pool = w.pool := rfl
@[simp] theorem Warp.addOp_keeper (w : Warp) (o : Op) : (w.addOp o).keeper = w.keeper := rfl
@[simp] theorem Warp.addOp_asyncTrap (w : Warp) (o : Op) : (w.addOp o).asyncTrap = w.asyncTrap := rfl
@[simp] theorem Warp.addOp_stopped (w : Warp) (o : Op) : (w.addOp o).stopped = w.stopped := rfl
@[simp] theorem Warp.addOp_batch (w : Warp) (o : Op) : (w.addOp o).batch = w.batch := rfl
@[simp] theorem Warp.addOp_shadowV (w : Warp) (o : Op) : (w.addOp o).shadowV = w.shadowV := rfl
@[simp] theorem Warp.addOp_shadowU (w : Warp) (o : Op) : (w.addOp o).shadowU = w.shadowU := rfl
@[simp] theorem Warp.addOp_shadowT (w : Warp) (o : Op) : (w.addOp o).shadowT = w.shadowT := rfl
@[simp] theorem Warp.addOp_shadowServed (w : Warp) (o : Op) : (w.addOp o).shadowServed = w.shadowServed := rfl
@[simp] theorem Warp.addOp_lag (w : Warp) (o : Op) : (w.addOp o).lag = w.lag := rfl
@[simp] theorem Warp.addOp_queued (w : Warp) (o : Op) : (w.addOp o).queued = w.queued := rfl
@[simp] theorem Warp.addOp_copy (w : Warp) (o : Op) : (w.addOp o).copy = w.copy := rfl
@[simp] theorem Warp.addOp_retired (w : Warp) (o : Op) : (w.addOp o).retired = w.retired := rfl

/-! ## Warp.onOp -/

@[simp] theorem Warp.onOp_uid (w : Warp) (k : Nat) (f : Op → Op) : (w.onOp k f).uid = w.uid := rfl
@[simp] theorem Warp.onOp_gang (w : Warp) (k : Nat) (f : Op → Op) : (w.onOp k f).gang = w.gang := rfl
@[simp] theorem Warp.onOp_rank (w : Warp) (k : Nat) (f : Op → Op) : (w.onOp k f).rank = w.rank := rfl
@[simp] theorem Warp.onOp_num (w : Warp) (k : Nat) (f : Op → Op) : (w.onOp k f).num = w.num := rfl
@[simp] theorem Warp.onOp_part (w : Warp) (k : Nat) (f : Op → Op) : (w.onOp k f).part = w.part := rfl
@[simp] theorem Warp.onOp_slot (w : Warp) (k : Nat) (f : Op → Op) : (w.onOp k f).slot = w.slot := rfl
@[simp] theorem Warp.onOp_width (w : Warp) (k : Nat) (f : Op → Op) : (w.onOp k f).width = w.width := rfl
@[simp] theorem Warp.onOp_nv (w : Warp) (k : Nat) (f : Op → Op) : (w.onOp k f).nv = w.nv := rfl
@[simp] theorem Warp.onOp_nu (w : Warp) (k : Nat) (f : Op → Op) : (w.onOp k f).nu = w.nu := rfl
@[simp] theorem Warp.onOp_threads (w : Warp) (k : Nat) (f : Op → Op) : (w.onOp k f).threads = w.threads := rfl
@[simp] theorem Warp.onOp_vregs (w : Warp) (k : Nat) (f : Op → Op) : (w.onOp k f).vregs = w.vregs := rfl
@[simp] theorem Warp.onOp_uregs (w : Warp) (k : Nat) (f : Op → Op) : (w.onOp k f).uregs = w.uregs := rfl
@[simp] theorem Warp.onOp_nextOp (w : Warp) (k : Nat) (f : Op → Op) : (w.onOp k f).nextOp = w.nextOp := rfl
@[simp] theorem Warp.onOp_served (w : Warp) (k : Nat) (f : Op → Op) : (w.onOp k f).served = w.served := rfl
@[simp] theorem Warp.onOp_progress (w : Warp) (k : Nat) (f : Op → Op) : (w.onOp k f).progress = w.progress := rfl
@[simp] theorem Warp.onOp_demote (w : Warp) (k : Nat) (f : Op → Op) : (w.onOp k f).demote = w.demote := rfl
@[simp] theorem Warp.onOp_pool (w : Warp) (k : Nat) (f : Op → Op) : (w.onOp k f).pool = w.pool := rfl
@[simp] theorem Warp.onOp_keeper (w : Warp) (k : Nat) (f : Op → Op) : (w.onOp k f).keeper = w.keeper := rfl
@[simp] theorem Warp.onOp_asyncTrap (w : Warp) (k : Nat) (f : Op → Op) : (w.onOp k f).asyncTrap = w.asyncTrap := rfl
@[simp] theorem Warp.onOp_stopped (w : Warp) (k : Nat) (f : Op → Op) : (w.onOp k f).stopped = w.stopped := rfl
@[simp] theorem Warp.onOp_batch (w : Warp) (k : Nat) (f : Op → Op) : (w.onOp k f).batch = w.batch := rfl
@[simp] theorem Warp.onOp_shadowV (w : Warp) (k : Nat) (f : Op → Op) : (w.onOp k f).shadowV = w.shadowV := rfl
@[simp] theorem Warp.onOp_shadowU (w : Warp) (k : Nat) (f : Op → Op) : (w.onOp k f).shadowU = w.shadowU := rfl
@[simp] theorem Warp.onOp_shadowT (w : Warp) (k : Nat) (f : Op → Op) : (w.onOp k f).shadowT = w.shadowT := rfl
@[simp] theorem Warp.onOp_shadowServed (w : Warp) (k : Nat) (f : Op → Op) : (w.onOp k f).shadowServed = w.shadowServed := rfl
@[simp] theorem Warp.onOp_lag (w : Warp) (k : Nat) (f : Op → Op) : (w.onOp k f).lag = w.lag := rfl
@[simp] theorem Warp.onOp_queued (w : Warp) (k : Nat) (f : Op → Op) : (w.onOp k f).queued = w.queued := rfl
@[simp] theorem Warp.onOp_copy (w : Warp) (k : Nat) (f : Op → Op) : (w.onOp k f).copy = w.copy := rfl
@[simp] theorem Warp.onOp_retired (w : Warp) (k : Nat) (f : Op → Op) : (w.onOp k f).retired = w.retired := rfl

/-! ## Warp.finish -/

@[simp] theorem Warp.finish_uid (w : Warp) (k : Nat) : (w.finish k).uid = w.uid := rfl
@[simp] theorem Warp.finish_gang (w : Warp) (k : Nat) : (w.finish k).gang = w.gang := rfl
@[simp] theorem Warp.finish_rank (w : Warp) (k : Nat) : (w.finish k).rank = w.rank := rfl
@[simp] theorem Warp.finish_num (w : Warp) (k : Nat) : (w.finish k).num = w.num := rfl
@[simp] theorem Warp.finish_part (w : Warp) (k : Nat) : (w.finish k).part = w.part := rfl
@[simp] theorem Warp.finish_slot (w : Warp) (k : Nat) : (w.finish k).slot = w.slot := rfl
@[simp] theorem Warp.finish_width (w : Warp) (k : Nat) : (w.finish k).width = w.width := rfl
@[simp] theorem Warp.finish_nv (w : Warp) (k : Nat) : (w.finish k).nv = w.nv := rfl
@[simp] theorem Warp.finish_nu (w : Warp) (k : Nat) : (w.finish k).nu = w.nu := rfl
@[simp] theorem Warp.finish_threads (w : Warp) (k : Nat) : (w.finish k).threads = w.threads := rfl
@[simp] theorem Warp.finish_vregs (w : Warp) (k : Nat) : (w.finish k).vregs = w.vregs := rfl
@[simp] theorem Warp.finish_uregs (w : Warp) (k : Nat) : (w.finish k).uregs = w.uregs := rfl
@[simp] theorem Warp.finish_nextOp (w : Warp) (k : Nat) : (w.finish k).nextOp = w.nextOp := rfl
@[simp] theorem Warp.finish_served (w : Warp) (k : Nat) : (w.finish k).served = w.served := rfl
@[simp] theorem Warp.finish_progress (w : Warp) (k : Nat) : (w.finish k).progress = w.progress := rfl
@[simp] theorem Warp.finish_demote (w : Warp) (k : Nat) : (w.finish k).demote = w.demote := rfl
@[simp] theorem Warp.finish_pool (w : Warp) (k : Nat) : (w.finish k).pool = w.pool := rfl
@[simp] theorem Warp.finish_keeper (w : Warp) (k : Nat) : (w.finish k).keeper = w.keeper := rfl
@[simp] theorem Warp.finish_asyncTrap (w : Warp) (k : Nat) : (w.finish k).asyncTrap = w.asyncTrap := rfl
@[simp] theorem Warp.finish_stopped (w : Warp) (k : Nat) : (w.finish k).stopped = w.stopped := rfl
@[simp] theorem Warp.finish_batch (w : Warp) (k : Nat) : (w.finish k).batch = w.batch := rfl
@[simp] theorem Warp.finish_shadowV (w : Warp) (k : Nat) : (w.finish k).shadowV = w.shadowV := rfl
@[simp] theorem Warp.finish_shadowU (w : Warp) (k : Nat) : (w.finish k).shadowU = w.shadowU := rfl
@[simp] theorem Warp.finish_shadowT (w : Warp) (k : Nat) : (w.finish k).shadowT = w.shadowT := rfl
@[simp] theorem Warp.finish_shadowServed (w : Warp) (k : Nat) : (w.finish k).shadowServed = w.shadowServed := rfl
@[simp] theorem Warp.finish_lag (w : Warp) (k : Nat) : (w.finish k).lag = w.lag := rfl
@[simp] theorem Warp.finish_queued (w : Warp) (k : Nat) : (w.finish k).queued = w.queued := rfl
@[simp] theorem Warp.finish_copy (w : Warp) (k : Nat) : (w.finish k).copy = w.copy := rfl
@[simp] theorem Warp.finish_retired (w : Warp) (k : Nat) : (w.finish k).retired = w.retired := rfl

/-! ## Warp.setPred -/

@[simp] theorem Warp.setPred_uid (w : Warp) (l k : Nat) (v : Bool) : (w.setPred l k v).uid = w.uid := rfl
@[simp] theorem Warp.setPred_gang (w : Warp) (l k : Nat) (v : Bool) : (w.setPred l k v).gang = w.gang := rfl
@[simp] theorem Warp.setPred_rank (w : Warp) (l k : Nat) (v : Bool) : (w.setPred l k v).rank = w.rank := rfl
@[simp] theorem Warp.setPred_num (w : Warp) (l k : Nat) (v : Bool) : (w.setPred l k v).num = w.num := rfl
@[simp] theorem Warp.setPred_part (w : Warp) (l k : Nat) (v : Bool) : (w.setPred l k v).part = w.part := rfl
@[simp] theorem Warp.setPred_slot (w : Warp) (l k : Nat) (v : Bool) : (w.setPred l k v).slot = w.slot := rfl
@[simp] theorem Warp.setPred_width (w : Warp) (l k : Nat) (v : Bool) : (w.setPred l k v).width = w.width := rfl
@[simp] theorem Warp.setPred_nv (w : Warp) (l k : Nat) (v : Bool) : (w.setPred l k v).nv = w.nv := rfl
@[simp] theorem Warp.setPred_nu (w : Warp) (l k : Nat) (v : Bool) : (w.setPred l k v).nu = w.nu := rfl
@[simp] theorem Warp.setPred_vregs (w : Warp) (l k : Nat) (v : Bool) : (w.setPred l k v).vregs = w.vregs := rfl
@[simp] theorem Warp.setPred_uregs (w : Warp) (l k : Nat) (v : Bool) : (w.setPred l k v).uregs = w.uregs := rfl
@[simp] theorem Warp.setPred_ops (w : Warp) (l k : Nat) (v : Bool) : (w.setPred l k v).ops = w.ops := rfl
@[simp] theorem Warp.setPred_nextOp (w : Warp) (l k : Nat) (v : Bool) : (w.setPred l k v).nextOp = w.nextOp := rfl
@[simp] theorem Warp.setPred_served (w : Warp) (l k : Nat) (v : Bool) : (w.setPred l k v).served = w.served := rfl
@[simp] theorem Warp.setPred_progress (w : Warp) (l k : Nat) (v : Bool) : (w.setPred l k v).progress = w.progress := rfl
@[simp] theorem Warp.setPred_demote (w : Warp) (l k : Nat) (v : Bool) : (w.setPred l k v).demote = w.demote := rfl
@[simp] theorem Warp.setPred_pool (w : Warp) (l k : Nat) (v : Bool) : (w.setPred l k v).pool = w.pool := rfl
@[simp] theorem Warp.setPred_keeper (w : Warp) (l k : Nat) (v : Bool) : (w.setPred l k v).keeper = w.keeper := rfl
@[simp] theorem Warp.setPred_asyncTrap (w : Warp) (l k : Nat) (v : Bool) : (w.setPred l k v).asyncTrap = w.asyncTrap := rfl
@[simp] theorem Warp.setPred_stopped (w : Warp) (l k : Nat) (v : Bool) : (w.setPred l k v).stopped = w.stopped := rfl
@[simp] theorem Warp.setPred_batch (w : Warp) (l k : Nat) (v : Bool) : (w.setPred l k v).batch = w.batch := rfl
@[simp] theorem Warp.setPred_shadowV (w : Warp) (l k : Nat) (v : Bool) : (w.setPred l k v).shadowV = w.shadowV := rfl
@[simp] theorem Warp.setPred_shadowU (w : Warp) (l k : Nat) (v : Bool) : (w.setPred l k v).shadowU = w.shadowU := rfl
@[simp] theorem Warp.setPred_shadowT (w : Warp) (l k : Nat) (v : Bool) : (w.setPred l k v).shadowT = w.shadowT := rfl
@[simp] theorem Warp.setPred_shadowServed (w : Warp) (l k : Nat) (v : Bool) : (w.setPred l k v).shadowServed = w.shadowServed := rfl
@[simp] theorem Warp.setPred_lag (w : Warp) (l k : Nat) (v : Bool) : (w.setPred l k v).lag = w.lag := rfl
@[simp] theorem Warp.setPred_queued (w : Warp) (l k : Nat) (v : Bool) : (w.setPred l k v).queued = w.queued := rfl
@[simp] theorem Warp.setPred_copy (w : Warp) (l k : Nat) (v : Bool) : (w.setPred l k v).copy = w.copy := rfl
@[simp] theorem Warp.setPred_retired (w : Warp) (l k : Nat) (v : Bool) : (w.setPred l k v).retired = w.retired := rfl

/-! ## Thread.setPred -/

@[simp] theorem Thread.setPred_status (t : Thread) (k : Nat) (v : Bool) : (t.setPred k v).status = t.status := rfl
@[simp] theorem Thread.setPred_pc (t : Thread) (k : Nat) (v : Bool) : (t.setPred k v).pc = t.pc := rfl
@[simp] theorem Thread.setPred_handler (t : Thread) (k : Nat) (v : Bool) : (t.setPred k v).handler = t.handler := rfl
@[simp] theorem Thread.setPred_cvtflags (t : Thread) (k : Nat) (v : Bool) : (t.setPred k v).cvtflags = t.cvtflags := rfl
@[simp] theorem Thread.setPred_seed (t : Thread) (k : Nat) (v : Bool) : (t.setPred k v).seed = t.seed := rfl
@[simp] theorem Thread.setPred_trapcause (t : Thread) (k : Nat) (v : Bool) : (t.setPred k v).trapcause = t.trapcause := rfl
@[simp] theorem Thread.setPred_trappc (t : Thread) (k : Nat) (v : Bool) : (t.setPred k v).trappc = t.trappc := rfl
@[simp] theorem Thread.setPred_trapaddr (t : Thread) (k : Nat) (v : Bool) : (t.setPred k v).trapaddr = t.trapaddr := rfl
@[simp] theorem Thread.setPred_trapinfo (t : Thread) (k : Nat) (v : Bool) : (t.setPred k v).trapinfo = t.trapinfo := rfl
@[simp] theorem Thread.setPred_nap (t : Thread) (k : Nat) (v : Bool) : (t.setPred k v).nap = t.nap := rfl
@[simp] theorem Thread.setPred_age (t : Thread) (k : Nat) (v : Bool) : (t.setPred k v).age = t.age := rfl
@[simp] theorem Thread.setPred_tagSeq (t : Thread) (k : Nat) (v : Bool) : (t.setPred k v).tagSeq = t.tagSeq := rfl

/-! ## Thread.orFlags -/

@[simp] theorem Thread.orFlags_status (t : Thread) (ev : BitVec 5) : (t.orFlags ev).status = t.status := rfl
@[simp] theorem Thread.orFlags_pc (t : Thread) (ev : BitVec 5) : (t.orFlags ev).pc = t.pc := rfl
@[simp] theorem Thread.orFlags_handler (t : Thread) (ev : BitVec 5) : (t.orFlags ev).handler = t.handler := rfl
@[simp] theorem Thread.orFlags_preds (t : Thread) (ev : BitVec 5) : (t.orFlags ev).preds = t.preds := rfl
@[simp] theorem Thread.orFlags_seed (t : Thread) (ev : BitVec 5) : (t.orFlags ev).seed = t.seed := rfl
@[simp] theorem Thread.orFlags_trapcause (t : Thread) (ev : BitVec 5) : (t.orFlags ev).trapcause = t.trapcause := rfl
@[simp] theorem Thread.orFlags_trappc (t : Thread) (ev : BitVec 5) : (t.orFlags ev).trappc = t.trappc := rfl
@[simp] theorem Thread.orFlags_trapaddr (t : Thread) (ev : BitVec 5) : (t.orFlags ev).trapaddr = t.trapaddr := rfl
@[simp] theorem Thread.orFlags_trapinfo (t : Thread) (ev : BitVec 5) : (t.orFlags ev).trapinfo = t.trapinfo := rfl
@[simp] theorem Thread.orFlags_nap (t : Thread) (ev : BitVec 5) : (t.orFlags ev).nap = t.nap := rfl
@[simp] theorem Thread.orFlags_age (t : Thread) (ev : BitVec 5) : (t.orFlags ev).age = t.age := rfl
@[simp] theorem Thread.orFlags_tagSeq (t : Thread) (ev : BitVec 5) : (t.orFlags ev).tagSeq = t.tagSeq := rfl

/-! ## Thread.trapRegs -/

@[simp] theorem Thread.trapRegs_status (t : Thread) (r : Bool) (l : Nat) (pc : Word) (x : TrapInfo) : (t.trapRegs r l pc x).status = t.status := rfl
@[simp] theorem Thread.trapRegs_pc (t : Thread) (r : Bool) (l : Nat) (pc : Word) (x : TrapInfo) : (t.trapRegs r l pc x).pc = t.pc := rfl
@[simp] theorem Thread.trapRegs_handler (t : Thread) (r : Bool) (l : Nat) (pc : Word) (x : TrapInfo) : (t.trapRegs r l pc x).handler = t.handler := rfl
@[simp] theorem Thread.trapRegs_preds (t : Thread) (r : Bool) (l : Nat) (pc : Word) (x : TrapInfo) : (t.trapRegs r l pc x).preds = t.preds := rfl
@[simp] theorem Thread.trapRegs_cvtflags (t : Thread) (r : Bool) (l : Nat) (pc : Word) (x : TrapInfo) : (t.trapRegs r l pc x).cvtflags = t.cvtflags := rfl
@[simp] theorem Thread.trapRegs_seed (t : Thread) (r : Bool) (l : Nat) (pc : Word) (x : TrapInfo) : (t.trapRegs r l pc x).seed = t.seed := rfl
@[simp] theorem Thread.trapRegs_nap (t : Thread) (r : Bool) (l : Nat) (pc : Word) (x : TrapInfo) : (t.trapRegs r l pc x).nap = t.nap := rfl
@[simp] theorem Thread.trapRegs_age (t : Thread) (r : Bool) (l : Nat) (pc : Word) (x : TrapInfo) : (t.trapRegs r l pc x).age = t.age := rfl
@[simp] theorem Thread.trapRegs_tagSeq (t : Thread) (r : Bool) (l : Nat) (pc : Word) (x : TrapInfo) : (t.trapRegs r l pc x).tagSeq = t.tagSeq := rfl
@[simp] theorem Thread.trapRegs_trapcause (t : Thread) (r : Bool) (l : Nat) (pc : Word) (x : TrapInfo) : (t.trapRegs r l pc x).trapcause = x.cause := rfl
@[simp] theorem Thread.trapRegs_trappc (t : Thread) (r : Bool) (l : Nat) (pc : Word) (x : TrapInfo) : (t.trapRegs r l pc x).trappc = trapPc r l pc := rfl
@[simp] theorem Thread.trapRegs_trapaddr (t : Thread) (r : Bool) (l : Nat) (pc : Word) (x : TrapInfo) : (t.trapRegs r l pc x).trapaddr = x.addr := rfl
@[simp] theorem Thread.trapRegs_trapinfo (t : Thread) (r : Bool) (l : Nat) (pc : Word) (x : TrapInfo) : (t.trapRegs r l pc x).trapinfo = x.info := rfl

/-! ## Thread.enterHandler -/

@[simp] theorem Thread.enterHandler_preds (t : Thread) (h : Word) (r : Bool) (l : Nat) (pc : Word) (x : TrapInfo) : (t.enterHandler h r l pc x).preds = t.preds := rfl
@[simp] theorem Thread.enterHandler_cvtflags (t : Thread) (h : Word) (r : Bool) (l : Nat) (pc : Word) (x : TrapInfo) : (t.enterHandler h r l pc x).cvtflags = t.cvtflags := rfl
@[simp] theorem Thread.enterHandler_seed (t : Thread) (h : Word) (r : Bool) (l : Nat) (pc : Word) (x : TrapInfo) : (t.enterHandler h r l pc x).seed = t.seed := rfl
@[simp] theorem Thread.enterHandler_nap (t : Thread) (h : Word) (r : Bool) (l : Nat) (pc : Word) (x : TrapInfo) : (t.enterHandler h r l pc x).nap = t.nap := rfl
@[simp] theorem Thread.enterHandler_age (t : Thread) (h : Word) (r : Bool) (l : Nat) (pc : Word) (x : TrapInfo) : (t.enterHandler h r l pc x).age = t.age := rfl
@[simp] theorem Thread.enterHandler_tagSeq (t : Thread) (h : Word) (r : Bool) (l : Nat) (pc : Word) (x : TrapInfo) : (t.enterHandler h r l pc x).tagSeq = t.tagSeq := rfl
@[simp] theorem Thread.enterHandler_trapcause (t : Thread) (h : Word) (r : Bool) (l : Nat) (pc : Word) (x : TrapInfo) : (t.enterHandler h r l pc x).trapcause = x.cause := rfl
@[simp] theorem Thread.enterHandler_trappc (t : Thread) (h : Word) (r : Bool) (l : Nat) (pc : Word) (x : TrapInfo) : (t.enterHandler h r l pc x).trappc = trapPc r l pc := rfl
@[simp] theorem Thread.enterHandler_trapaddr (t : Thread) (h : Word) (r : Bool) (l : Nat) (pc : Word) (x : TrapInfo) : (t.enterHandler h r l pc x).trapaddr = x.addr := rfl
@[simp] theorem Thread.enterHandler_trapinfo (t : Thread) (h : Word) (r : Bool) (l : Nat) (pc : Word) (x : TrapInfo) : (t.enterHandler h r l pc x).trapinfo = x.info := rfl
@[simp] theorem Thread.enterHandler_handler (t : Thread) (h : Word) (r : Bool) (l : Nat) (pc : Word) (x : TrapInfo) : (t.enterHandler h r l pc x).handler = true := rfl
@[simp] theorem Thread.enterHandler_pc (t : Thread) (h : Word) (r : Bool) (l : Nat) (pc : Word) (x : TrapInfo) : (t.enterHandler h r l pc x).pc = h := rfl
@[simp] theorem Thread.enterHandler_status (t : Thread) (h : Word) (r : Bool) (l : Nat) (pc : Word) (x : TrapInfo) : (t.enterHandler h r l pc x).status = .running := rfl

/-! ## Thread.stopAt -/

@[simp] theorem Thread.stopAt_handler (t : Thread) (pc : Word) : (t.stopAt pc).handler = t.handler := rfl
@[simp] theorem Thread.stopAt_preds (t : Thread) (pc : Word) : (t.stopAt pc).preds = t.preds := rfl
@[simp] theorem Thread.stopAt_cvtflags (t : Thread) (pc : Word) : (t.stopAt pc).cvtflags = t.cvtflags := rfl
@[simp] theorem Thread.stopAt_seed (t : Thread) (pc : Word) : (t.stopAt pc).seed = t.seed := rfl
@[simp] theorem Thread.stopAt_trapcause (t : Thread) (pc : Word) : (t.stopAt pc).trapcause = t.trapcause := rfl
@[simp] theorem Thread.stopAt_trappc (t : Thread) (pc : Word) : (t.stopAt pc).trappc = t.trappc := rfl
@[simp] theorem Thread.stopAt_trapaddr (t : Thread) (pc : Word) : (t.stopAt pc).trapaddr = t.trapaddr := rfl
@[simp] theorem Thread.stopAt_trapinfo (t : Thread) (pc : Word) : (t.stopAt pc).trapinfo = t.trapinfo := rfl
@[simp] theorem Thread.stopAt_nap (t : Thread) (pc : Word) : (t.stopAt pc).nap = t.nap := rfl
@[simp] theorem Thread.stopAt_age (t : Thread) (pc : Word) : (t.stopAt pc).age = t.age := rfl
@[simp] theorem Thread.stopAt_tagSeq (t : Thread) (pc : Word) : (t.stopAt pc).tagSeq = t.tagSeq := rfl

/-! ## Thread.leaveHandler -/

@[simp] theorem Thread.leaveHandler_status (t : Thread) (pc : Word) : (t.leaveHandler pc).status = t.status := rfl
@[simp] theorem Thread.leaveHandler_preds (t : Thread) (pc : Word) : (t.leaveHandler pc).preds = t.preds := rfl
@[simp] theorem Thread.leaveHandler_cvtflags (t : Thread) (pc : Word) : (t.leaveHandler pc).cvtflags = t.cvtflags := rfl
@[simp] theorem Thread.leaveHandler_seed (t : Thread) (pc : Word) : (t.leaveHandler pc).seed = t.seed := rfl
@[simp] theorem Thread.leaveHandler_trapcause (t : Thread) (pc : Word) : (t.leaveHandler pc).trapcause = t.trapcause := rfl
@[simp] theorem Thread.leaveHandler_trappc (t : Thread) (pc : Word) : (t.leaveHandler pc).trappc = t.trappc := rfl
@[simp] theorem Thread.leaveHandler_trapaddr (t : Thread) (pc : Word) : (t.leaveHandler pc).trapaddr = t.trapaddr := rfl
@[simp] theorem Thread.leaveHandler_trapinfo (t : Thread) (pc : Word) : (t.leaveHandler pc).trapinfo = t.trapinfo := rfl
@[simp] theorem Thread.leaveHandler_nap (t : Thread) (pc : Word) : (t.leaveHandler pc).nap = t.nap := rfl
@[simp] theorem Thread.leaveHandler_age (t : Thread) (pc : Word) : (t.leaveHandler pc).age = t.age := rfl
@[simp] theorem Thread.leaveHandler_tagSeq (t : Thread) (pc : Word) : (t.leaveHandler pc).tagSeq = t.tagSeq := rfl

end Sys2Proof.Machine
end

