-- ==== Sys2Proof/Laws/Store.lean ====
section
/-! SUPPORT. Laws of the sparse stores: a read after a write, the canonical form kept, equal reads make equal stores; the same for memories; updates of one list entry. -/

namespace Sys2Proof.Machine

section Stores
variable {α : Type} [DecidableEq α] {d : α}

/-- Every key of a store is above `k`. -/
def Store.Above (k : Nat) (m : Store α) : Prop := ∀ e ∈ m, k < e.1

omit [DecidableEq α] in
@[simp] theorem Store.get_nil (k : Nat) : Store.get d ([] : Store α) k = d := rfl

omit [DecidableEq α] in
theorem Store.get_cons (j : Nat) (v : α) (m : Store α) (k : Nat) :
    Store.get d ((j, v) :: m) k = if j = k then v else Store.get d m k := rfl

omit [DecidableEq α] in
theorem Store.get_of_above {m : Store α} {k j : Nat} (h : Store.Above j m) (hk : k ≤ j) : Store.get d m k = d := by
  induction m with
  | nil => rfl
  | cons e m ih =>
    obtain ⟨i, v⟩ := e
    have hi : j < i := h (i, v) (by simp)
    rw [Store.get_cons, if_neg (by omega)]
    exact ih fun e he => h e (by simp [he])

theorem Store.wf_cons {j : Nat} {v : α} {m : Store α} :
    Store.wf d ((j, v) :: m) = true ↔ v ≠ d ∧ Store.Above j m ∧ Store.wf d m = true := by
  induction m generalizing j v with
  | nil => simp [Store.wf, Store.Above]
  | cons e m ih =>
    obtain ⟨k, u⟩ := e
    simp only [Store.wf, Bool.and_eq_true, decide_eq_true_eq]
    constructor
    · rintro ⟨⟨hv, hjk⟩, hw⟩
      refine ⟨hv, ?_, hw⟩
      have := (ih.mp hw).2.1
      intro e he
      rcases List.mem_cons.mp he with rfl | he
      · exact hjk
      · exact lt_trans hjk (this e he)
    · rintro ⟨hv, ha, hw⟩
      exact ⟨⟨hv, ha (k, u) (by simp)⟩, hw⟩

omit [DecidableEq α] in
theorem Store.get_insert (m : Store α) (k j : Nat) (v : α) :
    Store.get d (Store.insert m k v) j = if j = k then v else Store.get d m j := by
  induction m with
  | nil => simp only [Store.insert, Store.get_cons, Store.get_nil, eq_comm (a := k)]
  | cons e m ih =>
    obtain ⟨i, u⟩ := e
    unfold Store.insert
    split
    · simp only [Store.get_cons, eq_comm (a := k)]
    · split
      · rename_i hki
        subst hki
        by_cases h : j = k <;> simp [Store.get_cons, h, eq_comm (a := k)]
      · rename_i hki
        rw [Store.get_cons, Store.get_cons, ih]
        by_cases h : i = j
        · subst h; simp [Ne.symm hki]
        · simp [h]

omit [DecidableEq α] in
theorem Store.get_erase (m : Store α) (k j : Nat) :
    Store.get d (m.filter fun e => e.1 != k) j = if j = k then d else Store.get d m j := by
  induction m with
  | nil => simp
  | cons e m ih =>
    obtain ⟨i, u⟩ := e
    by_cases hik : i = k
    · subst hik
      simp only [List.filter_cons, bne_self_eq_false, Bool.false_eq_true, if_false, ih, Store.get_cons]
      by_cases h : j = i
      · simp [h]
      · simp [h, Ne.symm h]
    · have : (i != k) = true := by simpa using hik
      simp only [List.filter_cons, this, if_true, Store.get_cons, ih]
      by_cases h : i = j
      · subst h; simp [hik]
      · simp [h]

/-- What a store reads after a write. -/
theorem Store.get_put (m : Store α) (k j : Nat) (v : α) :
    Store.get d (Store.put d m k v) j = if j = k then v else Store.get d m j := by
  unfold Store.put
  split
  · rename_i hv; rw [Store.get_erase, hv]
  · rw [Store.get_insert]

/-- A read of the key written gives the value written. -/
@[simp] theorem Store.get_put_same (m : Store α) (k : Nat) (v : α) : Store.get d (Store.put d m k v) k = v := by
  simp [Store.get_put]

/-- A write leaves every other key alone. -/
theorem Store.get_put_other (m : Store α) {k j : Nat} (v : α) (hjk : j ≠ k) :
    Store.get d (Store.put d m k v) j = Store.get d m j := by
  simp [Store.get_put, hjk]

omit [DecidableEq α] in
theorem Store.above_insert {m : Store α} {j k : Nat} {v : α} (h : Store.Above j m) (hk : j < k) :
    Store.Above j (Store.insert m k v) := by
  induction m with
  | nil => intro e he; simp [Store.insert] at he; subst he; exact hk
  | cons x m ih =>
    obtain ⟨i, u⟩ := x
    have hi : j < i := h (i, u) (by simp)
    have hm : Store.Above j m := fun e he => h e (by simp [he])
    unfold Store.insert
    intro e he
    split at he
    · rcases List.mem_cons.mp he with rfl | he
      · exact hk
      · exact h e he
    · split at he
      · rcases List.mem_cons.mp he with rfl | he
        · exact hk
        · exact hm e he
      · rcases List.mem_cons.mp he with rfl | he
        · exact hi
        · exact ih hm e he

theorem Store.wf_filter (m : Store α) (p : Nat × α → Bool) (h : Store.wf d m = true) : Store.wf d (m.filter p) = true := by
  induction m with
  | nil => rfl
  | cons e m ih =>
    obtain ⟨j, u⟩ := e
    obtain ⟨hu, ha, hw⟩ := Store.wf_cons.mp h
    by_cases hp : p (j, u)
    · rw [List.filter_cons_of_pos hp]
      exact Store.wf_cons.mpr ⟨hu, fun e he => ha e (List.mem_filter.mp he).1, ih hw⟩
    · rw [List.filter_cons_of_neg hp]
      exact ih hw

/-- A write keeps the canonical form. -/
theorem Store.wf_put (m : Store α) (k : Nat) (v : α) (h : Store.wf d m = true) : Store.wf d (Store.put d m k v) = true := by
  unfold Store.put
  split
  · exact Store.wf_filter m _ h
  · rename_i hv
    induction m with
    | nil => simp [Store.insert, Store.wf, hv]
    | cons e m ih =>
      obtain ⟨j, u⟩ := e
      obtain ⟨hu, ha, hw⟩ := Store.wf_cons.mp h
      unfold Store.insert
      split
      · rename_i hlt
        refine Store.wf_cons.mpr ⟨hv, ?_, h⟩
        intro e he
        rcases List.mem_cons.mp he with rfl | he
        · exact hlt
        · exact lt_trans hlt (ha e he)
      · split
        · rename_i hkj
          subst hkj
          exact Store.wf_cons.mpr ⟨hv, ha, hw⟩
        · exact Store.wf_cons.mpr ⟨hu, Store.above_insert ha (by omega), ih hw⟩

/-- Dropping entries keeps the canonical form. -/
theorem Store.wf_drop (m : Store α) (p : Nat → Bool) (h : Store.wf d m = true) : Store.wf d (Store.drop m p) = true :=
  Store.wf_filter m _ h

omit [DecidableEq α] in
/-- What a store reads after entries have been dropped. -/
theorem Store.get_drop (m : Store α) (p : Nat → Bool) (k : Nat) :
    Store.get d (Store.drop m p) k = if p k then d else Store.get d m k := by
  induction m with
  | nil => simp [Store.drop]
  | cons e m ih =>
    obtain ⟨j, u⟩ := e
    by_cases hp : p j
    · have : Store.drop ((j, u) :: m) p = Store.drop m p := by simp [Store.drop, hp]
      rw [this, ih, Store.get_cons]
      by_cases hjk : j = k
      · subst hjk; simp [hp]
      · simp [hjk]
    · have : Store.drop ((j, u) :: m) p = (j, u) :: Store.drop m p := by simp [Store.drop, hp]
      rw [this, Store.get_cons, Store.get_cons, ih]
      by_cases hjk : j = k
      · subst hjk; simp [hp]
      · simp [hjk]

/-- Canonical stores that read alike are equal data. -/
theorem Store.ext_get {m n : Store α} (hm : Store.wf d m = true) (hn : Store.wf d n = true)
    (h : ∀ k, Store.get d m k = Store.get d n k) : m = n := by
  induction m generalizing n with
  | nil =>
    cases n with
    | nil => rfl
    | cons e n =>
      obtain ⟨j, u⟩ := e
      obtain ⟨hu, -, -⟩ := Store.wf_cons.mp hn
      exact absurd (by simpa [Store.get] using (h j).symm) hu
  | cons e m ih =>
    obtain ⟨i, v⟩ := e
    obtain ⟨hv, ha, hw⟩ := Store.wf_cons.mp hm
    cases n with
    | nil => exact absurd (by simpa [Store.get] using h i) hv
    | cons e n =>
      obtain ⟨j, u⟩ := e
      obtain ⟨hu, hb, hx⟩ := Store.wf_cons.mp hn
      have hij : i = j := by
        rcases Nat.lt_trichotomy i j with hlt | heq | hgt
        · have := h i
          rw [Store.get_cons, if_pos rfl, Store.get_cons, if_neg (by omega), Store.get_of_above hb (by omega)] at this
          exact absurd this hv
        · exact heq
        · have := h j
          rw [Store.get_cons, if_neg (by omega), Store.get_of_above ha (by omega), Store.get_cons, if_pos rfl] at this
          exact absurd this.symm hu
      subst hij
      have hvu : v = u := by simpa [Store.get] using h i
      subst hvu
      congr 1
      refine ih hw hx fun k => ?_
      have := h k
      rw [Store.get_cons, Store.get_cons] at this
      by_cases hk : i = k
      · subst hk
        rw [Store.get_of_above ha le_rfl, Store.get_of_above hb le_rfl]
      · simpa [hk] using this

end Stores

/-! ## Memories -/

theorem Memory.byte_setByte (m : Memory) (a k : Nat) (b : Byte) :
    (m.setByte a b).byte k = if k = a then b else m.byte k := Store.get_put m a k b

theorem Memory.wf_setByte (m : Memory) (a : Nat) (b : Byte) (h : m.wf = true) : (m.setByte a b).wf = true := Store.wf_put m a b h

theorem Memory.wf_setBytes (m : Memory) (a : Nat) (bs : List Byte) (h : m.wf = true) : (m.setBytes a bs).wf = true := by
  induction bs generalizing m a with
  | nil => exact h
  | cons b bs ih => exact ih _ _ (Memory.wf_setByte m a b h)

/-- What a byte reads after a run of bytes has been written. -/
theorem Memory.byte_setBytes (m : Memory) (a : Nat) (bs : List Byte) (k : Nat) :
    (m.setBytes a bs).byte k = if a ≤ k ∧ k < a + bs.length then bs.getD (k - a) 0 else m.byte k := by
  induction bs generalizing m a with
  | nil =>
    have : ¬ (a ≤ k ∧ k < a + ([] : List Byte).length) := by simp
    rw [if_neg this]; rfl
  | cons b bs ih =>
    rw [Memory.setBytes, ih, Memory.byte_setByte]
    simp only [List.length_cons]
    by_cases h1 : k = a
    · subst h1
      have : ¬ (k + 1 ≤ k ∧ k < k + 1 + bs.length) := by omega
      rw [if_neg this, if_pos rfl, if_pos ⟨le_rfl, by omega⟩]
      simp
    · by_cases h2 : a + 1 ≤ k ∧ k < a + 1 + bs.length
      · rw [if_pos h2, if_pos ⟨by omega, by omega⟩]
        have : k - a = (k - (a + 1)) + 1 := by omega
        rw [this, List.getD_cons_succ]
      · rw [if_neg h2, if_neg h1, if_neg (by omega)]

/-- Bytes outside the ones written are unchanged. -/
theorem Memory.byte_setBytes_other (m : Memory) (a : Nat) (bs : List Byte) (k : Nat) (h : k < a ∨ a + bs.length ≤ k) :
    (m.setBytes a bs).byte k = m.byte k := by
  induction bs generalizing m a with
  | nil => rfl
  | cons b bs ih =>
    simp only [List.length_cons] at h
    rw [Memory.setBytes, ih _ _ (by omega)]
    exact Store.get_put_other m b (by omega)

/-! ## Lists -/

@[simp] theorem mapAt_length {α : Type} (f : α → α) (l : List α) (k : Nat) : (mapAt f l k).length = l.length := by
  induction l generalizing k with
  | nil => rfl
  | cons x xs ih => cases k <;> simp [mapAt, ih]

theorem mapAt_getD {α : Type} (f : α → α) (l : List α) (k j : Nat) (d : α) :
    (mapAt f l k).getD j d = if j = k ∧ k < l.length then f (l.getD j d) else l.getD j d := by
  induction l generalizing k j with
  | nil => simp [mapAt]
  | cons x xs ih =>
    cases k with
    | zero => cases j <;> simp [mapAt]
    | succ k => cases j with
      | zero => simp [mapAt]
      | succ j => simp only [mapAt, List.getD_cons_succ, ih, List.length_cons, Nat.succ_lt_succ_iff, Nat.succ.injEq]

@[simp] theorem mapIf_length {α : Type} (p : α → Bool) (f : α → α) (l : List α) : (mapIf p f l).length = l.length := by
  simp [mapIf]

/-- Finding by a key that the update keeps finds the updated entry. -/
theorem find_mapIf {α : Type} (key : α → Nat) (f : α → α) (hf : ∀ x, key (f x) = key x) (u v : Nat) (l : List α) :
    (mapIf (fun x => key x == u) f l).find? (fun x => key x == v) =
      if u = v then (l.find? (fun x => key x == v)).map f else l.find? (fun x => key x == v) := by
  induction l with
  | nil => simp [mapIf]
  | cons x xs ih =>
    simp only [mapIf, List.map_cons] at ih ⊢
    by_cases hxu : key x = u
    · by_cases huv : u = v
      · subst huv
        simp [hxu, hf]
      · have hxv : key x ≠ v := fun h => huv (hxu.symm.trans h)
        simp [hxu, hf, huv] at ih ⊢
        exact ih
    · by_cases hxv : key x = v
      · have huv : u ≠ v := fun h => hxu (hxv.trans h.symm)
        simp [hxv, huv, Ne.symm huv]
      · simp [hxu, hxv] at ih ⊢
        exact ih

@[simp] theorem each_nil {α σ : Type} (s : σ) (f : α → σ → σ) : each [] s f = s := rfl
@[simp] theorem each_cons {α σ : Type} (x : α) (xs : List α) (s : σ) (f : α → σ → σ) :
    each (x :: xs) s f = each xs (f x s) f := rfl

/-- A property that every step of a fold keeps. -/
theorem each_keeps {α σ : Type} (P : σ → Prop) (l : List α) (s : σ) (f : α → σ → σ) (h0 : P s)
    (h : ∀ x ∈ l, ∀ s, P s → P (f x s)) : P (each l s f) := by
  induction l generalizing s with
  | nil => exact h0
  | cons x xs ih => exact ih _ (h x (by simp) s h0) fun y hy => h y (by simp [hy])

/-- The lanes of a mask are its bits below 64, ascending. -/
theorem mem_lanesOf (m : Mask) (l : Nat) : l ∈ lanesOf m ↔ l < 64 ∧ m.getLsbD l = true := by
  simp [lanesOf, List.mem_filter]

theorem lanesOf_nodup (m : Mask) : (lanesOf m).Nodup := List.Nodup.filter _ List.nodup_range

end Sys2Proof.Machine
end

