-- ==== Sys2Proof/Laws/Ops.lean ====
section
/-! SUPPORT. What the shared operations on threads, registers and warps do: one lemma for each, which later proofs cite. -/

namespace Sys2Proof.Machine

/-! ## Threads -/

@[simp] theorem Warp.onThread_count (w : Warp) (l : Nat) (f : Thread → Thread) :
    (w.onThread l f).threads.length = w.threads.length := mapAt_length _ _ _

theorem Warp.thread_onThread (w : Warp) (l j : Nat) (f : Thread → Thread) :
    (w.onThread l f).thread j = if j = l ∧ l < w.threads.length then f (w.thread j) else w.thread j :=
  mapAt_getD f w.threads l j noThread

@[simp] theorem Warp.onThread_vreg (w : Warp) (l i j : Nat) (f : Thread → Thread) : (w.onThread l f).vreg i j = w.vreg i j := rfl
@[simp] theorem Warp.onThread_ureg (w : Warp) (l i : Nat) (f : Thread → Thread) : (w.onThread l f).ureg i = w.ureg i := rfl
@[simp] theorem Warp.setVreg_thread (w : Warp) (i l j : Nat) (r : Reg) : (w.setVreg i l r).thread j = w.thread j := rfl
@[simp] theorem Warp.setUreg_thread (w : Warp) (i j : Nat) (r : Reg) : (w.setUreg i r).thread j = w.thread j := rfl
@[simp] theorem Warp.setVreg_ureg (w : Warp) (i l j : Nat) (r : Reg) : (w.setVreg i l r).ureg j = w.ureg j := rfl
@[simp] theorem Warp.setUreg_vreg (w : Warp) (i j l : Nat) (r : Reg) : (w.setUreg i r).vreg j l = w.vreg j l := rfl

/-- The frame of an update of threads: everything of the warp but its threads. -/
theorem Warp.onThreads_rest (w : Warp) (ls : List Nat) (f : Thread → Thread) :
    w.onThreads ls f = { w with threads := (w.onThreads ls f).threads } ∧ (w.onThreads ls f).threads.length = w.threads.length := by
  refine each_keeps (fun v => v = { w with threads := v.threads } ∧ v.threads.length = w.threads.length) ls w _ ⟨rfl, rfl⟩ ?_
  rintro l - v ⟨hv, hc⟩
  refine ⟨?_, by simpa using hc⟩
  rw [hv]; rfl

theorem Warp.thread_onThreads (w : Warp) (ls : List Nat) (f : Thread → Thread) (hn : ls.Nodup)
    (hl : ∀ l ∈ ls, l < w.threads.length) (j : Nat) :
    (w.onThreads ls f).thread j = if j ∈ ls then f (w.thread j) else w.thread j := by
  induction ls generalizing w with
  | nil => simp [Warp.onThreads]
  | cons l ls ih =>
    have hnl : l ∉ ls := (List.nodup_cons.mp hn).1
    have h0 : l < w.threads.length := hl l (by simp)
    have := ih (w.onThread l f) (List.nodup_cons.mp hn).2 (fun k hk => by simpa using hl k (by simp [hk]))
    simp only [Warp.onThreads, each_cons] at this ⊢
    rw [this, Warp.thread_onThread]
    by_cases hj : j = l
    · subst hj; simp [hnl, h0]
    · simp [hj]

@[simp] theorem Warp.onThreads_vreg (w : Warp) (ls : List Nat) (f : Thread → Thread) (i j : Nat) :
    (w.onThreads ls f).vreg i j = w.vreg i j := by rw [(w.onThreads_rest ls f).1]; rfl
@[simp] theorem Warp.onThreads_ureg (w : Warp) (ls : List Nat) (f : Thread → Thread) (i : Nat) :
    (w.onThreads ls f).ureg i = w.ureg i := by rw [(w.onThreads_rest ls f).1]; rfl

/-! ## Registers -/

theorem vkey_inj {i j l m : Nat} (hl : l < 64) (hm : m < 64) : vkey j m = vkey i l ↔ j = i ∧ m = l := by
  unfold vkey; constructor
  · intro h; omega
  · rintro ⟨rfl, rfl⟩; rfl

theorem Warp.vreg_setVreg (w : Warp) (i l j m : Nat) (r : Reg) (hl : l < 64) (hm : m < 64) :
    (w.setVreg i l r).vreg j m = if j = i ∧ m = l then r else w.vreg j m := by
  unfold Warp.setVreg Warp.vreg
  simp only [Store.get_put, vkey_inj hl hm]

theorem Warp.ureg_setUreg (w : Warp) (i j : Nat) (r : Reg) : (w.setUreg i r).ureg j = if j = i then r else w.ureg j := by
  unfold Warp.setUreg Warp.ureg
  simp only [Store.get_put]

/-- The word of a number behind its lowest. -/
theorem wordOf_succ (v j : Nat) : wordOf (v / 2 ^ 32) j = wordOf v (j + 1) := by
  unfold wordOf
  rw [Nat.div_div_eq_div_mul, ← pow_add]
  congr 3; ring

theorem Warp.putV_rest (w : Warp) (i l n v : Nat) : w.putV i l n v = { w with vregs := (w.putV i l n v).vregs } := by
  induction n generalizing w i v with
  | zero => rfl
  | succ n ih => rw [Warp.putV, ih]; rfl

theorem Warp.vreg_putV (w : Warp) (i l n v j m : Nat) (hl : l < 64) (hm : m < 64) :
    (w.putV i l n v).vreg j m = if m = l ∧ i ≤ j ∧ j < i + n then fullReg (wordOf v (j - i)) else w.vreg j m := by
  induction n generalizing w i v with
  | zero => rw [Warp.putV, if_neg (by omega)]
  | succ n ih =>
    rw [Warp.putV, ih, Warp.vreg_setVreg _ _ _ _ _ _ hl hm]
    by_cases hml : m = l
    · subst hml
      by_cases hj : j = i
      · subst hj
        rw [if_neg (by omega), if_pos (by simp), if_pos (by omega)]
        simp [wordOf]
      · by_cases h : i + 1 ≤ j ∧ j < i + 1 + n
        · rw [if_pos ⟨rfl, h⟩, if_pos (by omega), wordOf_succ]
          congr 2; omega
        · rw [if_neg (by tauto), if_neg (by tauto), if_neg (by omega)]
    · simp [hml]

theorem Warp.putU_rest (w : Warp) (i n v : Nat) : w.putU i n v = { w with uregs := (w.putU i n v).uregs } := by
  induction n generalizing w i v with
  | zero => rfl
  | succ n ih => rw [Warp.putU, ih]; rfl

theorem Warp.ureg_putU (w : Warp) (i n v j : Nat) :
    (w.putU i n v).ureg j = if i ≤ j ∧ j < i + n then fullReg (wordOf v (j - i)) else w.ureg j := by
  induction n generalizing w i v with
  | zero => rw [Warp.putU, if_neg (by omega)]
  | succ n ih =>
    rw [Warp.putU, ih, Warp.ureg_setUreg]
    by_cases hj : j = i
    · subst hj
      rw [if_neg (by omega), if_pos rfl, if_pos (by omega)]
      simp [wordOf]
    · by_cases h : i + 1 ≤ j ∧ j < i + 1 + n
      · rw [if_pos h, if_pos (by omega), wordOf_succ]
        congr 2; omega
      · rw [if_neg h, if_neg hj, if_neg (by omega)]

theorem Warp.emptyV_rest (w : Warp) (i l : Nat) (held : Bool) (n : Nat) :
    w.emptyV i l held n = { w with vregs := (w.emptyV i l held n).vregs } := by
  induction n generalizing w i with
  | zero => rfl
  | succ n ih => rw [Warp.emptyV, ih]; rfl

theorem Warp.vreg_emptyV (w : Warp) (i l : Nat) (held : Bool) (n j m : Nat) (hl : l < 64) (hm : m < 64) :
    (w.emptyV i l held n).vreg j m =
      if m = l ∧ i ≤ j ∧ j < i + n then { w.vreg j m with full := false, held := held } else w.vreg j m := by
  induction n generalizing w i with
  | zero => rw [Warp.emptyV, if_neg (by omega)]
  | succ n ih =>
    rw [Warp.emptyV, ih, Warp.vreg_setVreg _ _ _ _ _ _ hl hm]
    by_cases hml : m = l
    · subst hml
      by_cases hj : j = i
      · subst hj
        rw [if_neg (by omega), if_pos (by simp), if_pos (by omega)]
      · by_cases h : i + 1 ≤ j ∧ j < i + 1 + n
        · have h' : i ≤ j ∧ j < i + (n + 1) := by omega
          simp only [hj, h, h', and_self, false_and, if_true, if_false]
        · rw [if_neg (by tauto), if_neg (by tauto), if_neg (by omega)]
    · simp [hml]

theorem Warp.emptyU_rest (w : Warp) (i : Nat) (held : Bool) (n : Nat) :
    w.emptyU i held n = { w with uregs := (w.emptyU i held n).uregs } := by
  induction n generalizing w i with
  | zero => rfl
  | succ n ih => rw [Warp.emptyU, ih]; rfl

theorem Warp.ureg_emptyU (w : Warp) (i : Nat) (held : Bool) (n j : Nat) :
    (w.emptyU i held n).ureg j = if i ≤ j ∧ j < i + n then { w.ureg j with full := false, held := held } else w.ureg j := by
  induction n generalizing w i with
  | zero => rw [Warp.emptyU, if_neg (by omega)]
  | succ n ih =>
    rw [Warp.emptyU, ih, Warp.ureg_setUreg]
    by_cases hj : j = i
    · subst hj
      rw [if_neg (by omega), if_pos rfl, if_pos (by omega)]
    · by_cases h : i + 1 ≤ j ∧ j < i + 1 + n
      · have h' : i ≤ j ∧ j < i + (n + 1) := by omega
        simp only [hj, h, h', and_self, if_true, if_false]
      · rw [if_neg h, if_neg hj, if_neg (by omega)]

/-! ## Predicates -/

theorem Thread.setPred_rest (t : Thread) (k : Nat) (v : Bool) : t.setPred k v = { t with preds := (t.setPred k v).preds } := rfl

theorem Thread.pred_setPred (t : Thread) (k j : Nat) (v : Bool) (hk : k < 7) :
    (t.setPred k v).preds.getLsbD j = if j = k then v else t.preds.getLsbD j := by
  have h7 : ∀ (p : BitVec 7) (k j : Fin 7) (v : Bool),
      ((p &&& ~~~(1#7 <<< k.val)) ||| (if v then 1#7 <<< k.val else 0)).getLsbD j.val =
        if j.val = k.val then v else p.getLsbD j.val := by decide +kernel
  by_cases hj : j < 7
  · exact h7 t.preds ⟨k, hk⟩ ⟨j, hj⟩ v
  · have h1 : (t.setPred k v).preds.getLsbD j = false := BitVec.getLsbD_of_ge _ _ (by omega)
    have h2 : t.preds.getLsbD j = false := BitVec.getLsbD_of_ge _ _ (by omega)
    rw [h1, h2, if_neg (by omega)]

/-! ## Finding warps -/

theorem State.warp_onWarp (s : State) (u v : Nat) (f : Warp → Warp) (hf : ∀ w, (f w).uid = w.uid) :
    (s.onWarp u f).warp v = if u = v ∧ s.hasWarp u = true then f (s.warp v) else s.warp v := by
  unfold State.warp State.onWarp
  simp only
  rw [find_mapIf (fun w : Warp => w.uid) f hf u v]
  by_cases huv : u = v
  · subst huv
    rw [if_pos rfl]
    cases h : s.warps.find? (fun w => w.uid == u) with
    | none =>
      have : s.hasWarp u = false := by
        unfold State.hasWarp
        rw [Bool.eq_false_iff]
        intro hany
        obtain ⟨w, hw, hu⟩ := List.any_eq_true.mp hany
        exact absurd hu (by simpa using List.find?_eq_none.mp h w hw)
      simp [this]
    | some w =>
      have : s.hasWarp u = true := by
        unfold State.hasWarp
        exact List.any_eq_true.mpr ⟨w, List.mem_of_find?_eq_some h, List.find?_some (p := fun w : Warp => w.uid == u) h⟩
      simp [this]
  · simp [huv]

theorem State.hasWarp_onWarp (s : State) (u v : Nat) (f : Warp → Warp) (hf : ∀ w, (f w).uid = w.uid) :
    (s.onWarp u f).hasWarp v = s.hasWarp v := by
  unfold State.hasWarp State.onWarp mapIf
  simp only [List.any_map, Function.comp_def]
  congr 1
  funext w
  by_cases h : (w.uid == u) = true <;> simp [h, hf]

/-- The frame of an update of one warp. -/
theorem State.onWarp_only (s : State) (u : Nat) (f : Warp → Warp) (hf : ∀ w, (f w).uid = w.uid) : OnlyWarp u s (s.onWarp u f) where
  rest := rfl
  others v hv := by rw [State.warp_onWarp s u v f hf, if_neg (fun h => hv h.1.symm)]
  uids := by
    unfold State.onWarp mapIf
    simp only [List.map_map]
    refine List.map_congr_left fun w _ => ?_
    simp only [Function.comp_def]
    split <;> simp [hf]

theorem OnlyWarp.trans {u : Nat} {s t r : State} (h : OnlyWarp u s t) (k : OnlyWarp u t r) : OnlyWarp u s r where
  rest := by rw [k.rest, h.rest]
  others v hv := (k.others v hv).trans (h.others v hv)
  uids := k.uids.trans h.uids

theorem State.onWarp_onWarp (s : State) (u : Nat) (f g : Warp → Warp) (hf : ∀ w, (f w).uid = w.uid) :
    (s.onWarp u f).onWarp u g = s.onWarp u fun w => g (f w) := by
  unfold State.onWarp mapIf
  simp only [List.map_map]
  congr 1
  refine List.map_congr_left fun w _ => ?_
  simp only [Function.comp_def]
  by_cases h : w.uid = u
  · simp [h, hf]
  · simp [h]

/-! ## Destinations -/

theorem Reg.written_false (r : Reg) (v : Word) : r.written false v = fullReg v := rfl
theorem Reg.written_true (r : Reg) (v : Word) : r.written true v = { r with full := false, held := true } := rfl

end Sys2Proof.Machine
end

