-- ==== Sys2Proof/Laws/Issue.lean ====
section
/-! SUPPORT. What the issue path and the shared effects on registers do, once: an instruction that goes through, the write of field D, the effect of the operations on registers, jumps. -/

namespace Sys2Proof.Machine

/-! ## Issue -/

/-- A warp whose shadow holds the same is never told apart from it. -/
theorem Warp.sees_same {w : Warp} (h : w.diverged = false) (i : Instr) (lanes : List Nat) (out : Issue) : w.sees i lanes out = false := by
  simp [Warp.sees, h]

/-- An instruction that goes through has the effect of its body behind the advance of its bundle. -/
theorem issue_goes {i : Instr} {s : State} {b : Bundle} {act : List Nat} (h : Goes i s b act) (body : Act → State → State) :
    issue i body s = .next (body (actOf i b act) (s.advance b.warp (lanesOf b.lanes) b.pc)) := by
  simp [issue, h.cur, issueAt, h.quiet, h.passes, h.same, Warp.sees_same h.same]

/-- The active lanes of an instruction that goes through are lanes of its bundle, ascending, and not none. -/
theorem check_go {i : Instr} {b : Bundle} {s : State} {act : List Nat} (h : check i b s = .go act) :
    act = (lanesOf b.lanes).filter (fun l => ((s.warp b.warp).thread l).guard (guardOf i).1 (guardOf i).2) ∧ act ≠ [] := by
  unfold check at h
  simp only at h
  split at h
  · cases h
  · split at h
    · cases h
    · rename_i hne
      split at h
      · cases h
      · repeat' (split at h)
        all_goals first
          | (cases h; done)
          | (simp only [Issue.go.injEq] at h; subst h; exact ⟨rfl, hne⟩)

theorem Goes.act_ne {i : Instr} {s : State} {b : Bundle} {act : List Nat} (h : Goes i s b act) : act ≠ [] := (check_go h.passes).2

theorem Goes.act_nodup {i : Instr} {s : State} {b : Bundle} {act : List Nat} (h : Goes i s b act) : act.Nodup := by
  rw [(check_go h.passes).1]; exact (lanesOf_nodup _).filter _

theorem Goes.act_lanes {i : Instr} {s : State} {b : Bundle} {act : List Nat} (h : Goes i s b act) :
    ∀ l ∈ act, l ∈ lanesOf b.lanes := by
  intro l hl
  rw [(check_go h.passes).1] at hl
  exact (List.mem_filter.mp hl).1

theorem Goes.act_lt {i : Instr} {s : State} {b : Bundle} {act : List Nat} (h : Goes i s b act) :
    ∀ l ∈ act, l < 64 ∧ l < (s.warp b.warp).threads.length := fun l hl =>
  ⟨((mem_lanesOf _ _).mp (h.act_lanes l hl)).1, h.lanes l (h.act_lanes l hl)⟩

/-! ## The advance -/

theorem Warp.moved_rest (w : Warp) (ls : List Nat) (pc : Word) : OnlyRegs w (w.moved ls pc) where
  rest := by rw [Warp.moved, (w.onThreads_rest ls _).1]
  count := (w.onThreads_rest ls _).2

theorem Warp.moved_uid (w : Warp) (ls : List Nat) (pc : Word) : (w.moved ls pc).uid = w.uid := by
  rw [(w.moved_rest ls pc).rest]

@[simp] theorem Warp.moved_vreg (w : Warp) (ls : List Nat) (pc : Word) (i j : Nat) : (w.moved ls pc).vreg i j = w.vreg i j :=
  Warp.onThreads_vreg _ _ _ _ _
@[simp] theorem Warp.moved_ureg (w : Warp) (ls : List Nat) (pc : Word) (i : Nat) : (w.moved ls pc).ureg i = w.ureg i :=
  Warp.onThreads_ureg _ _ _ _

/-- A thread of an advanced warp: its PC alone. -/
theorem Warp.moved_thread (w : Warp) (ls : List Nat) (pc : Word) (hn : ls.Nodup) (hl : ∀ l ∈ ls, l < w.threads.length) (j : Nat) :
    (w.moved ls pc).thread j = { w.thread j with pc := if j ∈ ls then pc + 12 else (w.thread j).pc } := by
  rw [Warp.moved, Warp.thread_onThreads _ _ _ hn hl]
  split <;> rfl

theorem State.warp_advance (s : State) (u v : Nat) (ls : List Nat) (pc : Word) :
    (s.advance u ls pc).warp v = if u = v ∧ s.hasWarp u = true then (s.warp v).moved ls pc else s.warp v :=
  State.warp_onWarp s u v _ fun w => w.moved_uid ls pc

theorem State.hasWarp_advance (s : State) (u v : Nat) (ls : List Nat) (pc : Word) :
    (s.advance u ls pc).hasWarp v = s.hasWarp v := State.hasWarp_onWarp s u v _ fun w => w.moved_uid ls pc

theorem State.advance_only (s : State) (u : Nat) (ls : List Nat) (pc : Word) : OnlyWarp u s (s.advance u ls pc) :=
  State.onWarp_only s u _ fun w => w.moved_uid ls pc

/-- The values operands have are those before the advance. -/
theorem Warp.operand_congr (w v : Warp) (hV : ∀ i l, v.vreg i l = w.vreg i l) (hU : ∀ i, v.ureg i = w.ureg i)
    (hP : ∀ l, (v.thread l).preds = (w.thread l).preds) (n : Nat) (o : Operand) (l : Nat) : v.operand n o l = w.operand n o l := by
  unfold Warp.operand Warp.vval Warp.uval Warp.pred Thread.pred
  simp only [hV, hU, hP]

theorem Act.source_congr (x : Act) (w v : Warp) (h : ∀ n o l, v.operand n o l = w.operand n o l) (n : Nat) (o : Operand) (l : Nat) :
    x.source v n o l = x.source w n o l := by unfold Act.source; simp only [h]

theorem Act.read_congr (x : Act) (w v : Warp) (h : ∀ n o l, v.operand n o l = w.operand n o l) (l : Nat) : x.read v l = x.read w l := by
  unfold Act.read Act.valA Act.valB Act.valC Act.valD
  simp only [Act.source_congr x w v h, h]

theorem Warp.moved_preds (w : Warp) (ls : List Nat) (pc : Word) (l : Nat) : ((w.moved ls pc).thread l).preds = (w.thread l).preds := by
  refine each_keeps (fun v : Warp => (v.thread l).preds = (w.thread l).preds) ls w _ rfl ?_
  intro k _ v hv
  simp only [Warp.thread_onThread]
  split
  · exact hv
  · exact hv

theorem Warp.moved_operand (w : Warp) (ls : List Nat) (pc : Word) (n : Nat) (o : Operand) (l : Nat) :
    (w.moved ls pc).operand n o l = w.operand n o l :=
  Warp.operand_congr _ _ (fun _ _ => w.moved_vreg ls pc _ _) (fun _ => w.moved_ureg ls pc _) (fun _ => w.moved_preds ls pc _) n o l

/-! ## The write of field D -/

/-- What holds of a warp after field D has received `val` in some of its lanes. -/
structure PartWrote (x : Act) (val : Nat → Nat) (done : List Nat) (w w' : Warp) : Prop where
  rest : OnlyRegs w w'
  vregs : ∀ k l, l < 64 → w'.vreg k l = Act.vregAfter { x with act := done } val w k l
  uregs : ∀ k, w'.ureg k = if done = [] then w.ureg k else x.uregAfter val w k
  threads : ∀ l, w'.thread l = { w.thread l with preds := (w'.thread l).preds }
  preds : ∀ k l, (w'.thread l).preds.getLsbD k = Act.predAfter { x with act := done } val w k l

theorem OnlyRegs.refl (w : Warp) : OnlyRegs w w := ⟨rfl, rfl⟩
theorem OnlyRegs.trans {w v r : Warp} (h : OnlyRegs w v) (k : OnlyRegs v r) : OnlyRegs w r where
  rest := by rw [k.rest, h.rest]
  count := k.count.trans h.count

theorem Reg.written_written (r : Reg) (e : Bool) (v : Word) : (r.written e v).written e v = r.written e v := by
  cases e <;> simp [Reg.written]

/-- One lane more. -/
theorem PartWrote.snoc {x : Act} {val : Nat → Nat} {done : List Nat} {w v : Warp} (h : PartWrote x val done w v) (l : Nat)
    (hl : l < 64) (ht : l < w.threads.length) (hd : l ∉ done) (hp : x.r.d.kind = .prd → x.r.d.val.toNat < 7 ∧ x.r.h.emk = false)
    (hu : x.r.d.kind = .uni → val l = val x.first) :
    PartWrote x val (done ++ [l]) w
      (if x.r.h.emk then v.markEmpty x.sh.d.regs x.r.d true l else v.write x.sh.d.regs x.r.d l (val l)) := by
  cases hk : x.r.d.kind
  case vec =>
    have key : (if x.r.h.emk then v.markEmpty x.sh.d.regs x.r.d true l else v.write x.sh.d.regs x.r.d l (val l)) =
        { v with vregs := (if x.r.h.emk then v.markEmpty x.sh.d.regs x.r.d true l else v.write x.sh.d.regs x.r.d l (val l)).vregs } := by
      split
      · simp only [Warp.markEmpty, hk]; exact Warp.emptyV_rest _ _ _ _ _
      · simp only [Warp.write, hk]; exact Warp.putV_rest _ _ _ _ _
    have hv : ∀ k m, m < 64 → (if x.r.h.emk then v.markEmpty x.sh.d.regs x.r.d true l
        else v.write x.sh.d.regs x.r.d l (val l)).vreg k m =
        if m = l ∧ x.r.d.val.toNat ≤ k ∧ k < x.r.d.val.toNat + x.sh.d.regs then
          (v.vreg k m).written x.r.h.emk (wordOf (val l) (k - x.r.d.val.toNat)) else v.vreg k m := by
      intro k m hm
      cases he : x.r.h.emk
      · simp only [Bool.false_eq_true, if_false, Warp.write, hk, Warp.vreg_putV _ _ _ _ _ _ _ hl hm, Reg.written_false]
      · simp only [if_true, Warp.markEmpty, hk, Warp.vreg_emptyV _ _ _ _ _ _ _ hl hm, Reg.written_true]
    refine ⟨?_, ?_, ?_, ?_, ?_⟩
    · refine h.rest.trans ⟨?_, ?_⟩
      · rw [key]
      · rw [key]
    · intro k m hm
      rw [hv k m hm, h.vregs k m hm]
      unfold Act.vregAfter
      simp only [hk, true_and, List.mem_append, List.mem_singleton]
      by_cases hml : m = l
      · subst hml
        simp only [hd, false_or, true_and, false_and, if_false]
      · simp only [hml, or_false, false_and, if_false]
    · intro k
      have hU : x.uregAfter val w k = w.ureg k := by simp [Act.uregAfter, hk]
      rw [key]
      show v.ureg k = _
      rw [h.uregs k, hU]; simp
    · intro m
      rw [key]
      exact h.threads m
    · intro k m
      rw [key]
      show (v.thread m).preds.getLsbD k = _
      rw [h.preds k m]
      simp [Act.predAfter, hk]
  case uni =>
    have key : (if x.r.h.emk then v.markEmpty x.sh.d.regs x.r.d true l else v.write x.sh.d.regs x.r.d l (val l)) =
        { v with uregs := (if x.r.h.emk then v.markEmpty x.sh.d.regs x.r.d true l else v.write x.sh.d.regs x.r.d l (val l)).uregs } := by
      split
      · simp only [Warp.markEmpty, hk]; exact Warp.emptyU_rest _ _ _ _
      · simp only [Warp.write, hk]; exact Warp.putU_rest _ _ _ _
    have hv : ∀ k, (if x.r.h.emk then v.markEmpty x.sh.d.regs x.r.d true l
        else v.write x.sh.d.regs x.r.d l (val l)).ureg k =
        if x.r.d.val.toNat ≤ k ∧ k < x.r.d.val.toNat + x.sh.d.regs then
          (v.ureg k).written x.r.h.emk (wordOf (val x.first) (k - x.r.d.val.toNat)) else v.ureg k := by
      intro k
      cases he : x.r.h.emk
      · simp only [Bool.false_eq_true, if_false, Warp.write, hk, Warp.ureg_putU, Reg.written_false, hu hk]
      · simp only [if_true, Warp.markEmpty, hk, Warp.ureg_emptyU, Reg.written_true]
    refine ⟨?_, ?_, ?_, ?_, ?_⟩
    · refine h.rest.trans ⟨?_, ?_⟩
      · rw [key]
      · rw [key]
    · intro k m hm
      rw [key]
      show v.vreg k m = _
      rw [h.vregs k m hm]
      simp [Act.vregAfter, hk]
    · intro k
      rw [hv k, h.uregs k]
      simp only [Act.uregAfter, hk, true_and, List.append_eq_nil_iff, List.cons_ne_self, and_false, if_false]
      by_cases hr : x.r.d.val.toNat ≤ k ∧ k < x.r.d.val.toNat + x.sh.d.regs
      · simp only [hr, and_self, if_true]
        by_cases hdn : done = []
        · simp [hdn]
        · simp [hdn, Reg.written_written]
      · simp only [hr, if_false]
        by_cases hdn : done = []
        · simp [hdn]
        · simp [hdn]
    · intro m
      rw [key]
      exact h.threads m
    · intro k m
      rw [key]
      show (v.thread m).preds.getLsbD k = _
      rw [h.preds k m]
      simp [Act.predAfter, hk]
  case prd =>
    obtain ⟨hp7, he⟩ := hp hk
    simp only [he, Bool.false_eq_true, if_false, Warp.write, hk, Warp.setPred]
    refine ⟨?_, ?_, ?_, ?_, ?_⟩
    · exact h.rest.trans ⟨rfl, by simp⟩
    · intro k m hm
      rw [Warp.onThread_vreg, h.vregs k m hm]
      simp [Act.vregAfter, hk]
    · intro k
      rw [Warp.onThread_ureg, h.uregs k]
      have hU : x.uregAfter val w k = w.ureg k := by simp [Act.uregAfter, hk]
      simp [hU]
    · intro m
      rw [Warp.thread_onThread]
      split
      · rw [Thread.setPred_rest, h.threads m]
      · exact h.threads m
    · intro k m
      rw [Warp.thread_onThread, h.rest.count]
      by_cases hml : m = l
      · subst hml
        simp only [ht, and_self, if_true, Thread.pred_setPred _ _ _ _ hp7, h.preds k m]
        simp only [Act.predAfter, hk, true_and, List.mem_append, List.mem_singleton, or_true, hd, false_and, if_false]
      · simp only [hml, false_and, if_false, h.preds k m]
        simp only [Act.predAfter, hk, true_and, List.mem_append, List.mem_singleton, hml, or_false]
  all_goals
    have key : (if x.r.h.emk then v.markEmpty x.sh.d.regs x.r.d true l else v.write x.sh.d.regs x.r.d l (val l)) = v := by
      split
      · simp [Warp.markEmpty, hk]
      · simp [Warp.write, hk]
    rw [key]
    refine ⟨h.rest, ?_, ?_, h.threads, ?_⟩
    · intro k m hm; rw [h.vregs k m hm]; simp [Act.vregAfter, hk]
    · intro k
      rw [h.uregs k]
      have hU : x.uregAfter val w k = w.ureg k := by simp [Act.uregAfter, hk]
      simp [hU]
    · intro k m; rw [h.preds k m]; simp [Act.predAfter, hk]

/-- What the write of field D needs of an instruction: a predicate destination is p0 to p6 and not held, a uniform one receives one value. -/
structure DestOk (x : Act) (val : Nat → Nat) : Prop where
  prd : x.r.d.kind = .prd → x.r.d.val.toNat < 7 ∧ x.r.h.emk = false
  uni : x.r.d.kind = .uni → ∀ l ∈ x.act, val l = val x.first

/-- Field D written in the active lanes. -/
theorem Act.writeD_part (x : Act) (val : Nat → Nat) (w : Warp) (hn : x.act.Nodup) (hl : ∀ l ∈ x.act, l < 64 ∧ l < w.threads.length)
    (hd : DestOk x val) : PartWrote x val x.act w (x.writeD (x.act.map fun l => (l, val l)) w) := by
  have main : ∀ (todo done : List Nat) (v : Warp), done ++ todo = x.act → PartWrote x val done w v →
      PartWrote x val x.act w (each (todo.map fun l => (l, val l)) v fun e w =>
        if x.r.h.emk then w.markEmpty x.sh.d.regs x.r.d true e.1 else w.write x.sh.d.regs x.r.d e.1 e.2) := by
    intro todo
    induction todo with
    | nil => intro done v h hp; rw [← h]; simpa using hp
    | cons l todo ih =>
      intro done v h hp
      have hmem : l ∈ x.act := by rw [← h]; simp
      have hnd : l ∉ done := by
        have := h ▸ hn
        exact fun hin => (List.disjoint_of_nodup_append this) hin (by simp)
      rw [List.map_cons, each_cons]
      exact ih (done ++ [l]) _ (by simpa using h)
        (hp.snoc l (hl l hmem).1 (hl l hmem).2 hnd hd.prd fun hu => hd.uni hu l hmem)
  refine main x.act [] w rfl ⟨OnlyRegs.refl w, ?_, ?_, ?_, ?_⟩
  · intro k l _; simp [Act.vregAfter]
  · intro k; simp
  · intro l; rfl
  · intro k l; simp [Act.predAfter]

/-- The whole effect of an instruction that goes through and writes `val` to field D: its warp alone, field D, and the PCs of the bundle. -/
theorem wrote_of_goes {i : Instr} {s : State} {b : Bundle} {act : List Nat} (h : Goes i s b act) (val : Nat → Nat)
    (hd : DestOk (actOf i b act) val) (t : State)
    (ht : t = (s.advance b.warp (lanesOf b.lanes) b.pc).onWarp b.warp
      ((actOf i b act).writeD (act.map fun l => (l, val l)))) :
    OnlyWarp b.warp s t ∧ Wrote (actOf i b act) val (s.warp b.warp) (t.warp b.warp) := by
  let x := actOf i b act
  let w := s.warp b.warp
  let m := w.moved (lanesOf b.lanes) b.pc
  have hpart : ∀ v : Warp, v.threads.length = w.threads.length →
      PartWrote x val act v (x.writeD (act.map fun l => (l, val l)) v) := fun v hc =>
    x.writeD_part val v h.act_nodup (fun l hl => by rw [hc]; exact h.act_lt l hl) hd
  have huid : ∀ v : Warp, (x.writeD (act.map fun l => (l, val l)) v).uid = v.uid := by
    intro v
    unfold Act.writeD
    refine each_keeps (fun y : Warp => y.uid = v.uid) _ v _ rfl ?_
    rintro e - y hy
    split
    · unfold Warp.markEmpty; split
      · rw [Warp.emptyV_rest]; exact hy
      · rw [Warp.emptyU_rest]; exact hy
      all_goals exact hy
    · unfold Warp.write; split
      · rw [Warp.putV_rest]; exact hy
      · rw [Warp.putU_rest]; exact hy
      · exact hy
      all_goals exact hy
  subst ht
  refine ⟨(s.advance_only _ _ _).trans (State.onWarp_only _ _ _ huid), ?_⟩
  rw [State.warp_onWarp _ _ _ _ huid, if_pos ⟨rfl, by
    rw [State.hasWarp_advance]; exact h.warp⟩,
    State.warp_advance, if_pos ⟨rfl, h.warp⟩]
  have hm : m.threads.length = w.threads.length := (w.moved_rest _ _).count
  have hp := hpart m hm
  refine ⟨(w.moved_rest _ _).trans hp.rest, ?_, ?_, ?_, ?_⟩
  · intro k l hl
    rw [hp.vregs k l hl]
    simp [Act.vregAfter, m, w]; rfl
  · intro k
    rw [hp.uregs k, if_neg h.act_ne]
    simp [Act.uregAfter, m, w]; rfl
  · intro l hl
    rw [hp.threads l]
    rw [Warp.moved_thread _ _ _ (lanesOf_nodup _) h.lanes]
    rfl
  · intro k l hl
    rw [hp.preds k l]
    unfold Act.predAfter
    simp only [m, Warp.moved_preds]
    rfl

end Sys2Proof.Machine
end

