-- ==== Sys2Proof/Laws/Memory.lean ====
section
/-! SUPPORT. The memories of L2, DRAM and the host stay in canonical form under every operation that writes them or that goes through one that does. -/

namespace Sys2Proof.Machine

/-! ## What leaves the memories alone -/

@[simp] theorem interrupt_mem (v : Nat) (s : State) : (interrupt v s).mem = s.mem := rfl

@[simp] theorem markStale_mem (k n : Nat) (s : State) : (markStale k n s).mem = s.mem := rfl

@[simp] theorem revoke_mem (core : Option Nat) (k n : Nat) (s : State) : (revoke core k n s).mem = s.mem := rfl

@[simp] theorem discardVersion_mem (u : Nat) (s : State) : (discardVersion u s).mem = s.mem := rfl

@[simp] theorem setContain_mem (u : Nat) (c : Bool) (s : State) : (setContain u c s).mem = s.mem := rfl

@[simp] theorem acquire_mem (core : Nat) (s : State) : (acquire core s).mem = s.mem := rfl

@[simp] theorem scrWrite_mem (g : Nat) (t : Nat × Nat) (bs : List Byte) (s : State) : (scrWrite g t bs s).mem = s.mem := rfl

/-! ## The primitive writes -/

variable {s : State}

theorem clearGuards_canonical (k n : Nat) (h : s.mem.Canonical) : (clearGuards k n s).mem.Canonical := h

theorem takeLine_wf (w line : Nat) (m : Memory) (h : m.wf = true) : (takeLine s w line m).wf = true := by
  unfold takeLine
  dsimp only
  split
  · exact h
  · exact Memory.wf_setBytes _ _ _ h

theorem dramWrite_canonical (w pa : Nat) (bs : List Byte) (h : s.mem.Canonical) : (dramWrite w pa bs s).mem.Canonical :=
  ⟨h.1, Memory.wf_setBytes _ _ _ (each_keeps (fun m : Memory => m.wf = true) _ _ _ h.2.1 fun _ _ _ hm => takeLine_wf _ _ _ hm), h.2.2⟩

theorem commitBytes_canonical (k : Nat) (bs : List Byte) (h : s.mem.Canonical) : (commitBytes k bs s).mem.Canonical := by
  exact ⟨Memory.wf_setBytes _ _ _ h.1, h.2⟩

theorem physWrite_canonical (w pa : Nat) (bs : List Byte) (h : s.mem.Canonical) : (physWrite w pa bs s).mem.Canonical := by
  unfold physWrite
  split
  · exact dramWrite_canonical _ _ _ h
  · exact h
  · dsimp only
    split
    · exact ⟨h.1, h.2.1, Memory.wf_setBytes _ _ _ h.2.2⟩
    · exact h
  · exact h
  · exact h

/-! ## Translation and the way home -/

theorem hotNotice_canonical (k lvl count pa : Nat) (h : s.mem.Canonical) : (hotNotice k lvl count pa s).2.mem.Canonical := by
  unfold hotNotice
  dsimp only
  split
  · exact dramWrite_canonical _ _ _ (dramWrite_canonical _ _ _ h)
  · rw [interrupt_mem]
    exact dramWrite_canonical _ _ _ (dramWrite_canonical _ _ _ h)

theorem heat_canonical (k lvl leafPa pa : Nat) (h : s.mem.Canonical) : (heat k lvl leafPa pa s).mem.Canonical := by
  unfold heat
  dsimp only
  repeat' split
  all_goals first
    | exact dramWrite_canonical _ _ _ (hotNotice_canonical _ _ _ _ h)
    | exact dramWrite_canonical _ _ _ h

theorem translate_canonical (k : Nat) (a : Acc) (count : Bool) (h : s.mem.Canonical) : (translate k a count s).2.mem.Canonical := by
  unfold translate
  dsimp only
  split
  · exact h
  · split
    · exact h
    · split
      · dsimp only
        split
        · exact heat_canonical _ _ _ _ h
        · exact h
      · exact h

/-! ## Lines that leave L2 and that come in -/

theorem writeBack_canonical (j : Nat) (h : s.mem.Canonical) : (writeBack j s).mem.Canonical := by
  unfold writeBack
  split
  · split
    · exact h
    · exact physWrite_canonical _ _ _ h
  · exact h

/-- Dropping the lines whose locations satisfy `p` keeps the form. -/
theorem Mem.Canonical.drop {m : Mem} (h : m.Canonical) (p : Nat → Bool) : ({ m with l2 := Store.drop m.l2 p } : Mem).Canonical :=
  ⟨Store.wf_drop _ _ h.1, h.2⟩

theorem dropLine_canonical (j : Nat) (h : s.mem.Canonical) : (dropLine j s).mem.Canonical := by
  unfold dropLine
  split
  · exact h.drop _
  · exact h

theorem makeRoom_canonical (set keep : Nat) (h : s.mem.Canonical) : (makeRoom set keep s).mem.Canonical := by
  unfold makeRoom
  split
  · exact h
  · dsimp only
    split
    · exact dropLine_canonical _ (writeBack_canonical _ h)
    · exact h
    · exact h

theorem fillLine_canonical (k pa : Nat) (h : s.mem.Canonical) : (fillLine k pa s).mem.Canonical :=
  ⟨Memory.wf_setBytes _ _ _ (makeRoom_canonical _ _ h).1, (makeRoom_canonical _ _ h).2⟩

theorem reach_canonical (k : Nat) (a : Acc) (h : s.mem.Canonical) : (reach k a s).2.mem.Canonical := by
  unfold reach
  have ht := translate_canonical (s := s) k a true h
  split
  · split <;> exact h
  · split
    · rename_i heq
      rw [heq] at ht
      dsimp only
      split
      · repeat' split
        all_goals exact ht
      · split
        · exact ht
        · exact fillLine_canonical _ _ ht
    · rename_i heq; rw [heq] at ht; exact ht

/-! ## Versions and stores -/

theorem bringLines_canonical (ls : List Nat) (h : s.mem.Canonical) : (bringLines ls s).mem.Canonical := by
  induction ls generalizing s with
  | nil => exact h
  | cons l ls ih => exact ih (reach_canonical _ _ h)

theorem commitByte_canonical (e : Nat × Option Byte) (h : s.mem.Canonical) : (commitByte e s).mem.Canonical := by
  unfold commitByte
  split
  · split
    · exact commitBytes_canonical _ _ h
    · exact h
  · exact h

theorem commitVersion_canonical (u : Nat) (h : s.mem.Canonical) : (commitVersion u s).mem.Canonical := by
  have h0 : (revokeOthers u (s.gang u).version (bringLines (s.gang u).shadows s)).mem.Canonical := bringLines_canonical _ h
  have h1 := each_keeps (fun t : State => t.mem.Canonical) (s.gang u).version _ commitByte h0 fun e _ t ht => commitByte_canonical e ht
  unfold commitVersion
  exact ⟨h1.1, h1.2⟩

theorem release_canonical (u : Nat) (h : s.mem.Canonical) : (release u s).mem.Canonical := commitVersion_canonical u h

theorem homeStore_canonical (g core : Option Nat) (x : Home) (k : Nat) (bs : List Byte) (h : s.mem.Canonical) :
    (homeStore g core x k bs s).mem.Canonical := by
  have h0 : (clearGuards k bs.length (revoke core k bs.length s)).mem.Canonical := clearGuards_canonical _ _ h
  unfold homeStore
  dsimp only
  split
  · split
    · rw [setContain_mem, markStale_mem]; exact physWrite_canonical _ _ _ h0
    · rw [markStale_mem]; exact physWrite_canonical _ _ _ h0
  · exact commitBytes_canonical _ _ h0
  · split
    · rw [State.onGang_mem, markStale_mem]
      split
      · exact h0
      · exact makeRoom_canonical _ _ h0
    · exact commitBytes_canonical _ _ (bringLines_canonical _ (release_canonical _ h0))
  · exact h0

theorem homeUpdate_canonical (core : Option Nat) (x : Home) (k : Nat) (bs : List Byte) (h : s.mem.Canonical) :
    (homeUpdate core x k bs s).mem.Canonical := by
  have h0 : (clearGuards k bs.length (revoke core k bs.length s)).mem.Canonical := clearGuards_canonical _ _ h
  unfold homeUpdate
  dsimp only
  split
  · rw [markStale_mem]; exact physWrite_canonical _ _ _ h0
  · exact commitBytes_canonical _ _ h0
  · exact h0

/-! ## Accesses -/

theorem readHome_canonical (p : Party) (va n : Nat) (h : s.mem.Canonical) : (readHome p va n s).2.mem.Canonical := by
  have hr := reach_canonical (s := s) (p.sp.loc va) .read h
  unfold readHome
  dsimp only
  split
  · rename_i heq; rw [heq] at hr; exact hr
  · rename_i heq
    rw [heq] at hr
    split
    · exact hr
    · repeat' split
      all_goals exact hr

theorem readL1_canonical (p : Party) (va n : Nat) (h : s.mem.Canonical) : (readL1 p va n s).2.mem.Canonical := by
  have hr := reach_canonical (s := s) (p.sp.loc va) .read h
  unfold readL1
  split
  · exact readHome_canonical _ _ _ h
  · dsimp only
    split
    · exact h
    · split
      · rename_i heq; rw [heq] at hr; exact hr
      · rename_i heq; rw [heq] at hr; exact readHome_canonical _ _ _ hr
      · rename_i heq
        rw [heq] at hr
        split
        · exact hr
        · split
          · exact hr
          · dsimp only
            rw [State.draw_mem, State.onCache_mem]
            exact hr

theorem readMany_canonical (rd : Nat → Nat → State → Got × State)
    (hrd : ∀ va n (t : State), t.mem.Canonical → (rd va n t).2.mem.Canonical) (fuel va n : Nat) (h : s.mem.Canonical) :
    (readMany rd fuel va n s).2.mem.Canonical := by
  induction fuel generalizing va n s with
  | zero => exact h
  | succ fuel ih =>
    unfold readMany
    dsimp only
    split
    · exact h
    · have h1 := hrd va (min n (128 - va % 128)) s h
      split
      · rename_i bs t heq
        rw [heq] at h1
        have h2 := ih (va + min n (128 - va % 128)) (n - min n (128 - va % 128)) h1
        split
        · rename_i heq2; rw [heq2] at h2; exact h2
        · exact h2
      · exact h1

theorem readEngine_canonical (p : Party) (va n : Nat) (h : s.mem.Canonical) : (readEngine p va n s).2.mem.Canonical :=
  readMany_canonical _ (fun _ _ _ ht => readHome_canonical _ _ _ ht) _ _ _ h

theorem writeStore_canonical (p : Party) (va : Nat) (bs : List Byte) (h : s.mem.Canonical) : (writeStore p va bs s).2.mem.Canonical := by
  have hr := reach_canonical (s := s) (p.sp.loc va) .write h
  unfold writeStore
  dsimp only
  split
  · rename_i heq; rw [heq] at hr; exact hr
  · rename_i heq
    rw [heq] at hr
    have hs (x : Home) := homeStore_canonical p.gang p.core x (p.sp.loc va) bs hr
    unfold storeL1
    split
    · rw [State.onCache_mem]; exact hs _
    · exact hs _

theorem probe_canonical (k n : Nat) (a : Acc) (h : s.mem.Canonical) : (probe k n a s).2.mem.Canonical := by
  have ht := translate_canonical (s := s) k a false h
  unfold probe
  split
  · split <;> exact h
  · split
    · rename_i heq
      rw [heq] at ht
      repeat' split
      all_goals exact ht
    · rename_i heq
      rw [heq] at ht
      exact ht

theorem writeMany_canonical (p : Party) (fuel va : Nat) (bs : List Byte) (h : s.mem.Canonical) :
    (writeMany p fuel va bs s).2.mem.Canonical := by
  induction fuel generalizing va bs s with
  | zero => exact h
  | succ fuel ih =>
    unfold writeMany
    dsimp only
    split
    · exact h
    · have h1 := probe_canonical (s := s) (p.sp.loc va) (min bs.length (128 - va % 128)) .write h
      split
      · rename_i heq; rw [heq] at h1; exact h1
      · rename_i t heq
        rw [heq] at h1
        have h2 := writeStore_canonical (s := t) p va (bs.take (min bs.length (128 - va % 128))) h1
        split
        · rename_i heq2; rw [heq2] at h2; exact ih _ _ h2
        · exact h2

theorem writeEngine_canonical (p : Party) (va : Nat) (bs : List Byte) (h : s.mem.Canonical) : (writeEngine p va bs s).2.mem.Canonical :=
  writeMany_canonical _ _ _ _ h

theorem cpRead_canonical (slot va n : Nat) (h : s.mem.Canonical) : (cpRead slot va n s).2.mem.Canonical := by
  have hr := readEngine_canonical (s := s) (s.ctx slot).party va n h
  unfold cpRead
  split
  · exact h
  · split
    · exact h
    · split <;> (rename_i heq; rw [heq] at hr; exact hr)

theorem cpWrite_canonical (slot va : Nat) (bs : List Byte) (h : s.mem.Canonical) : (cpWrite slot va bs s).mem.Canonical := by
  unfold cpWrite
  split
  · exact h
  · split
    · exact h
    · exact writeEngine_canonical _ _ _ h

/-! ## Reset -/

theorem reset_canonical : State.reset.mem.Canonical := ⟨rfl, rfl, rfl⟩

end Sys2Proof.Machine
end

