-- ==== Sys2Proof/Laws/PerInstr.lean ====
section
/-! SUPPORT. What holds of every instruction as syntax, constructor by constructor: the decoder's table reads OP, SUB and fields of a well-formed instruction back as that instruction. -/

set_option Elab.async false

namespace Sys2Proof.Laws

/-- The three bits of a kind are kept. -/
theorem kind_rebuild (n : Nat) (h : n < 8) : (Kind.ofCode n).code = n := by
  interval_cases n <;> rfl

/-- The operand that a field's bits give has these bits. -/
theorem half_rebuild (x : BitVec 16) : (Operand.ofBits x).bits = x := by
  have hk : (Kind.ofCode (x.extractLsb' 13 3).toNat).code = (x.extractLsb' 13 3).toNat := kind_rebuild _ (x.extractLsb' 13 3).isLt
  simp only [Operand.bits, Operand.ofBits, hk, BitVec.ofNat_toNat, BitVec.setWidth_eq]
  apply BitVec.eq_of_getLsbD_eq
  intro i hi
  simp only [BitVec.getLsbD_append, BitVec.getLsbD_extractLsb']
  by_cases h : i < 13
  · simp [h]
  · have : 13 + (i - 13) = i := by omega
    simp [h, this]
    omega

/-- An imm32 is the bits of the two fields it stands in. -/
theorem word_rebuild (x : BitVec 32) : (Operand.ofBits (x.extractLsb' 16 16)).bits ++ (Operand.ofBits (x.extractLsb' 0 16)).bits = x := by
  rw [half_rebuild, half_rebuild]
  apply BitVec.eq_of_getLsbD_eq
  intro i hi
  simp only [BitVec.getLsbD_append, BitVec.getLsbD_extractLsb']
  by_cases h : i < 16
  · simp [h]
  · have : 16 + (i - 16) = i := by omega
    simp [h, this]
    omega

/-- A well-formed instruction with a word meets the conditions its own entry adds. -/
theorem extra_of_wf {i : Instr} {r : Raw} (hr : raw i = some r) (hw : i.wf = true) : extraDefects i = [] := by
  have h : defects i = (match raw i with
      | some r => rawDefects (shape i) r
      | none => []) ++ extraDefects i := by
    cases i <;> first | rfl | exact nomatch hr
  simp only [Instr.wf, List.isEmpty_iff] at hw
  rw [h] at hw
  exact (List.append_eq_nil_iff.mp hw).2

/-- OP, SUB and fields of a well-formed instruction stand for that instruction and no other. -/
def Rebuild.Statement (i : Instr) : Prop := ∀ r : Raw, raw i = some r → i.wf = true → build r = some (some i)

open Rebuild (Statement)

theorem Rebuild.nop (h : Hdr) (f : Ops) : Statement (.nop h f) := by
  intro r hr _
  cases hr
  rfl
theorem Rebuild.iadd (h : Hdr) (t : ITy) (f : Ops) : Statement (.iadd h t f) := by
  intro r hr _
  cases hr
  cases t <;> rfl
theorem Rebuild.iaddImm (h : Hdr) (t : ITy) (f : OpsI) : Statement (.iaddImm h t f) := by
  intro r hr _
  cases hr
  cases t <;> simp [build, withImm, ITy.code, ITy.ofCode, Raw.opsI, Raw.imm32, word_rebuild]
theorem Rebuild.isub (h : Hdr) (t : ITy) (f : Ops) : Statement (.isub h t f) := by
  intro r hr _
  cases hr
  cases t <;> rfl
theorem Rebuild.isubImm (h : Hdr) (t : ITy) (f : OpsI) : Statement (.isubImm h t f) := by
  intro r hr _
  cases hr
  cases t <;> simp [build, withImm, ITy.code, ITy.ofCode, Raw.opsI, Raw.imm32, word_rebuild]
theorem Rebuild.imul (h : Hdr) (t : ITy) (f : Ops) : Statement (.imul h t f) := by
  intro r hr _
  cases hr
  cases t <;> rfl
theorem Rebuild.imulImm (h : Hdr) (t : ITy) (f : OpsI) : Statement (.imulImm h t f) := by
  intro r hr _
  cases hr
  cases t <;> simp [build, withImm, ITy.code, ITy.ofCode, Raw.opsI, Raw.imm32, word_rebuild]
theorem Rebuild.imulhi (h : Hdr) (t : ITy) (f : Ops) : Statement (.imulhi h t f) := by
  intro r hr _
  cases hr
  cases t <;> rfl
theorem Rebuild.imad (h : Hdr) (t : ITy) (f : Ops) : Statement (.imad h t f) := by
  intro r hr _
  cases hr
  cases t <;> rfl
theorem Rebuild.imadw (h : Hdr) (sgn : Bool) (f : Ops) : Statement (.imadw h sgn f) := by
  intro r hr hw
  cases hr
  simp only [build, subBit, Raw.ops, Raw.opsH, Raw.imm16, half_rebuild]
  cases sgn <;> first | rfl | simp [bit]
theorem Rebuild.idiv (h : Hdr) (t : ITy) (f : Ops) : Statement (.idiv h t f) := by
  intro r hr _
  cases hr
  cases t <;> rfl
theorem Rebuild.irem (h : Hdr) (t : ITy) (f : Ops) : Statement (.irem h t f) := by
  intro r hr _
  cases hr
  cases t <;> rfl
theorem Rebuild.imin (h : Hdr) (t : ITy) (f : Ops) : Statement (.imin h t f) := by
  intro r hr _
  cases hr
  cases t <;> rfl
theorem Rebuild.iminImm (h : Hdr) (t : ITy) (f : OpsI) : Statement (.iminImm h t f) := by
  intro r hr _
  cases hr
  cases t <;> simp [build, withImm, ITy.code, ITy.ofCode, Raw.opsI, Raw.imm32, word_rebuild]
theorem Rebuild.imax (h : Hdr) (t : ITy) (f : Ops) : Statement (.imax h t f) := by
  intro r hr _
  cases hr
  cases t <;> rfl
theorem Rebuild.imaxImm (h : Hdr) (t : ITy) (f : OpsI) : Statement (.imaxImm h t f) := by
  intro r hr _
  cases hr
  cases t <;> simp [build, withImm, ITy.code, ITy.ofCode, Raw.opsI, Raw.imm32, word_rebuild]
theorem Rebuild.iabs (h : Hdr) (w : Wd) (f : Ops) : Statement (.iabs h w f) := by
  intro r hr _
  cases hr
  cases w <;> rfl
theorem Rebuild.ineg (h : Hdr) (w : Wd) (f : Ops) : Statement (.ineg h w f) := by
  intro r hr _
  cases hr
  cases w <;> rfl
theorem Rebuild.shl (h : Hdr) (w : Wd) (f : Ops) : Statement (.shl h w f) := by
  intro r hr _
  cases hr
  cases w <;> rfl
theorem Rebuild.shr (h : Hdr) (w : Wd) (f : Ops) : Statement (.shr h w f) := by
  intro r hr _
  cases hr
  cases w <;> rfl
theorem Rebuild.sar (h : Hdr) (w : Wd) (f : Ops) : Statement (.sar h w f) := by
  intro r hr _
  cases hr
  cases w <;> rfl
theorem Rebuild.rot (h : Hdr) (w : Wd) (f : Ops) : Statement (.rot h w f) := by
  intro r hr _
  cases hr
  cases w <;> rfl
theorem Rebuild.and (h : Hdr) (w : Wd) (f : Ops) : Statement (.and h w f) := by
  intro r hr _
  cases hr
  cases w <;> rfl
theorem Rebuild.andImm (h : Hdr) (w : Wd) (f : OpsI) : Statement (.andImm h w f) := by
  intro r hr _
  cases hr
  cases w <;> simp [build, withImm, Wd.code, Wd.ofCode, Raw.opsI, Raw.imm32, word_rebuild]
theorem Rebuild.or (h : Hdr) (w : Wd) (f : Ops) : Statement (.or h w f) := by
  intro r hr _
  cases hr
  cases w <;> rfl
theorem Rebuild.orImm (h : Hdr) (w : Wd) (f : OpsI) : Statement (.orImm h w f) := by
  intro r hr _
  cases hr
  cases w <;> simp [build, withImm, Wd.code, Wd.ofCode, Raw.opsI, Raw.imm32, word_rebuild]
theorem Rebuild.xor (h : Hdr) (w : Wd) (f : Ops) : Statement (.xor h w f) := by
  intro r hr _
  cases hr
  cases w <;> rfl
theorem Rebuild.xorImm (h : Hdr) (w : Wd) (f : OpsI) : Statement (.xorImm h w f) := by
  intro r hr _
  cases hr
  cases w <;> simp [build, withImm, Wd.code, Wd.ofCode, Raw.opsI, Raw.imm32, word_rebuild]
theorem Rebuild.not (h : Hdr) (w : Wd) (f : Ops) : Statement (.not h w f) := by
  intro r hr _
  cases hr
  cases w <;> rfl
theorem Rebuild.bool3 (h : Hdr) (w : Wd) (f : OpsH) : Statement (.bool3 h w f) := by
  intro r hr _
  cases hr
  cases w <;> exact congrArg (fun z => some (some (Instr.bool3 h _ { d := f.d, a := f.a, b := f.b, imm := z }))) (half_rebuild f.imm)
theorem Rebuild.bfe (h : Hdr) (t : ITy) (f : Ops) : Statement (.bfe h t f) := by
  intro r hr _
  cases hr
  cases t <;> rfl
theorem Rebuild.bfi (h : Hdr) (w : Wd) (f : Ops) : Statement (.bfi h w f) := by
  intro r hr _
  cases hr
  cases w <;> rfl
theorem Rebuild.popc (h : Hdr) (w : Wd) (f : Ops) : Statement (.popc h w f) := by
  intro r hr _
  cases hr
  cases w <;> rfl
theorem Rebuild.clz (h : Hdr) (w : Wd) (f : Ops) : Statement (.clz h w f) := by
  intro r hr _
  cases hr
  cases w <;> rfl
theorem Rebuild.brev (h : Hdr) (w : Wd) (f : Ops) : Statement (.brev h w f) := by
  intro r hr _
  cases hr
  cases w <;> rfl
theorem Rebuild.isetp (h : Hdr) (k : Cond) (t : ITy) (f : Ops) : Statement (.isetp h k t f) := by
  intro r hr hw
  cases hr
  simp only [build, subBit, Raw.ops, Raw.opsH, Raw.imm16, half_rebuild]
  cases k <;> cases t <;> first | rfl | simp [Cond.code, ITy.code, Cond.ofCode, ITy.ofCode, bit]
theorem Rebuild.icmp (h : Hdr) (k : Cond) (t : ITy) (f : Ops) : Statement (.icmp h k t f) := by
  intro r hr hw
  cases hr
  simp only [build, subBit, Raw.ops, Raw.opsH, Raw.imm16, half_rebuild]
  cases k <;> cases t <;> first | rfl | simp [Cond.code, ITy.code, Cond.ofCode, ITy.ofCode, bit]
theorem Rebuild.sel (h : Hdr) (w : Wd) (f : Ops) : Statement (.sel h w f) := by
  intro r hr _
  cases hr
  cases w <;> rfl
theorem Rebuild.pset (h : Hdr) (o : PsetOp) (f : Ops) : Statement (.pset h o f) := by
  intro r hr _
  cases hr
  cases o <;> rfl
theorem Rebuild.mov (h : Hdr) (w : Wd) (f : Ops) : Statement (.mov h w f) := by
  intro r hr _
  cases hr
  cases w <;> rfl
theorem Rebuild.movi (h : Hdr) (f : OpsI) : Statement (.movi h f) := by
  intro r hr _
  cases hr
  exact congrArg (fun z => some (some (Instr.movi h { d := f.d, a := f.a, imm := z }))) (word_rebuild f.imm)
theorem Rebuild.lea (h : Hdr) (k : LeaShift) (f : Ops) : Statement (.lea h k f) := by
  intro r hr _
  cases hr
  cases k <;> rfl
theorem Rebuild.bra (h : Hdr) (f : OpsI) : Statement (.bra h f) := by
  intro r hr _
  cases hr
  exact congrArg (fun z => some (some (Instr.bra h { d := f.d, a := f.a, imm := z }))) (word_rebuild f.imm)
theorem Rebuild.brx (h : Hdr) (f : Ops) : Statement (.brx h f) := by
  intro r hr _
  cases hr
  rfl
theorem Rebuild.call (h : Hdr) (f : OpsI) : Statement (.call h f) := by
  intro r hr _
  cases hr
  exact congrArg (fun z => some (some (Instr.call h { d := f.d, a := f.a, imm := z }))) (word_rebuild f.imm)
theorem Rebuild.callReg (h : Hdr) (f : Ops) : Statement (.callReg h f) := by
  intro r hr _
  cases hr
  rfl
theorem Rebuild.ret (h : Hdr) (f : Ops) : Statement (.ret h f) := by
  intro r hr _
  cases hr
  rfl
theorem Rebuild.exit (h : Hdr) (f : Ops) : Statement (.exit h f) := by
  intro r hr _
  cases hr
  rfl
theorem Rebuild.loop (h : Hdr) (f : OpsH) : Statement (.loop h f) := by
  intro r hr _
  cases hr
  exact congrArg (fun z => some (some (Instr.loop h { d := f.d, a := f.a, b := f.b, imm := z }))) (half_rebuild f.imm)
theorem Rebuild.yield (h : Hdr) (f : Ops) : Statement (.yield h f) := by
  intro r hr _
  cases hr
  rfl
theorem Rebuild.nap (h : Hdr) (f : OpsH) : Statement (.nap h f) := by
  intro r hr _
  cases hr
  exact congrArg (fun z => some (some (Instr.nap h { d := f.d, a := f.a, b := f.b, imm := z }))) (half_rebuild f.imm)
theorem Rebuild.napExpiry (warp lane : Nat) : Statement (.napExpiry warp lane) := fun _ hr => nomatch hr
theorem Rebuild.decl (h : Hdr) (f : Ops) : Statement (.decl h f) := by
  intro r hr _
  cases hr
  rfl
theorem Rebuild.cvsign (h : Hdr) (f : Ops) : Statement (.cvsign h f) := by
  intro r hr _
  cases hr
  rfl
theorem Rebuild.role (h : Hdr) (f : OpsH) : Statement (.role h f) := by
  intro r hr _
  cases hr
  exact congrArg (fun z => some (some (Instr.role h { d := f.d, a := f.a, b := f.b, imm := z }))) (half_rebuild f.imm)
theorem Rebuild.rdsr (h : Hdr) (f : Ops) : Statement (.rdsr h f) := by
  intro r hr _
  cases hr
  rfl
theorem Rebuild.wrsr (h : Hdr) (f : Ops) : Statement (.wrsr h f) := by
  intro r hr _
  cases hr
  rfl
theorem Rebuild.fadd (h : Hdr) (r : RndA) (f : Ops) : Statement (.fadd h r f) := by
  intro r hr _
  cases hr
  cases r <;> rfl
theorem Rebuild.fmul (h : Hdr) (r : RndA) (f : Ops) : Statement (.fmul h r f) := by
  intro r hr _
  cases hr
  cases r <;> rfl
theorem Rebuild.ffma (h : Hdr) (r : RndA) (f : Ops) : Statement (.ffma h r f) := by
  intro r hr _
  cases hr
  cases r <;> rfl
theorem Rebuild.fmin (h : Hdr) (f : Ops) : Statement (.fmin h f) := by
  intro r hr _
  cases hr
  rfl
theorem Rebuild.fmax (h : Hdr) (f : Ops) : Statement (.fmax h f) := by
  intro r hr _
  cases hr
  rfl
theorem Rebuild.fsetp (h : Hdr) (dbl : Bool) (k : FCond) (f : Ops) : Statement (.fsetp h dbl k f) := by
  intro r hr hw
  cases hr
  simp only [build, subBit, Raw.ops, Raw.opsH, Raw.imm16, half_rebuild]
  cases dbl <;> cases k <;> first | rfl | simp [FCond.code, FCond.ofCode, bit]
theorem Rebuild.fcmp (h : Hdr) (dbl : Bool) (k : FCond) (f : Ops) : Statement (.fcmp h dbl k f) := by
  intro r hr hw
  cases hr
  simp only [build, subBit, Raw.ops, Raw.opsH, Raw.imm16, half_rebuild]
  cases dbl <;> cases k <;> first | rfl | simp [FCond.code, FCond.ofCode, bit]
theorem Rebuild.frnd (h : Hdr) (r : RndA) (f : Ops) : Statement (.frnd h r f) := by
  intro r hr _
  cases hr
  cases r <;> rfl
theorem Rebuild.fclass (h : Hdr) (dbl : Bool) (f : Ops) : Statement (.fclass h dbl f) := by
  intro r hr hw
  cases hr
  simp only [build, subBit, Raw.ops, Raw.opsH, Raw.imm16, half_rebuild]
  cases dbl <;> first | rfl | simp [bit]
theorem Rebuild.dadd (h : Hdr) (r : RndA) (f : Ops) : Statement (.dadd h r f) := by
  intro r hr _
  cases hr
  cases r <;> rfl
theorem Rebuild.dmul (h : Hdr) (r : RndA) (f : Ops) : Statement (.dmul h r f) := by
  intro r hr _
  cases hr
  cases r <;> rfl
theorem Rebuild.dfma (h : Hdr) (r : RndA) (f : Ops) : Statement (.dfma h r f) := by
  intro r hr _
  cases hr
  cases r <;> rfl
theorem Rebuild.hadd2 (h : Hdr) (bf : Bool) (r : RndA) (f : Ops) : Statement (.hadd2 h bf r f) := by
  intro r hr hw
  cases hr
  simp only [build, subBit, Raw.ops, Raw.opsH, Raw.imm16, half_rebuild]
  cases bf <;> cases r <;> first | rfl | simp [RndA.code, RndA.ofCode, bit]
theorem Rebuild.hmul2 (h : Hdr) (bf : Bool) (r : RndA) (f : Ops) : Statement (.hmul2 h bf r f) := by
  intro r hr hw
  cases hr
  simp only [build, subBit, Raw.ops, Raw.opsH, Raw.imm16, half_rebuild]
  cases bf <;> cases r <;> first | rfl | simp [RndA.code, RndA.ofCode, bit]
theorem Rebuild.hfma2 (h : Hdr) (bf : Bool) (r : RndA) (f : Ops) : Statement (.hfma2 h bf r f) := by
  intro r hr hw
  cases hr
  simp only [build, subBit, Raw.ops, Raw.opsH, Raw.imm16, half_rebuild]
  cases bf <;> cases r <;> first | rfl | simp [RndA.code, RndA.ofCode, bit]
theorem Rebuild.cvt (h : Hdr) (src dst : CvtFmt) (f : OpsH) : Statement (.cvt h src dst f) := by
  intro r hr hw
  have hx := extra_of_wf hr hw
  cases hr
  simp only [build, subBit, Raw.ops, Raw.opsH, Raw.imm16, half_rebuild]
  cases src <;> cases dst <;> first | (cases hx; done) | rfl | simp [CvtFmt.code, CvtFmt.ofCode, bit]
theorem Rebuild.quant (h : Hdr) (r : Rnd) (f : Ops) : Statement (.quant h r f) := by
  intro r hr _
  cases hr
  cases r <;> rfl
theorem Rebuild.rcp (h : Hdr) (f : Ops) : Statement (.rcp h f) := by
  intro r hr _
  cases hr
  rfl
theorem Rebuild.rsq (h : Hdr) (f : Ops) : Statement (.rsq h f) := by
  intro r hr _
  cases hr
  rfl
theorem Rebuild.sqrt (h : Hdr) (f : Ops) : Statement (.sqrt h f) := by
  intro r hr _
  cases hr
  rfl
theorem Rebuild.exp2 (h : Hdr) (f : Ops) : Statement (.exp2 h f) := by
  intro r hr _
  cases hr
  rfl
theorem Rebuild.log2 (h : Hdr) (f : Ops) : Statement (.log2 h f) := by
  intro r hr _
  cases hr
  rfl
theorem Rebuild.sin (h : Hdr) (f : Ops) : Statement (.sin h f) := by
  intro r hr _
  cases hr
  rfl
theorem Rebuild.cos (h : Hdr) (f : Ops) : Statement (.cos h f) := by
  intro r hr _
  cases hr
  rfl
theorem Rebuild.tanh (h : Hdr) (f : Ops) : Statement (.tanh h f) := by
  intro r hr _
  cases hr
  rfl
theorem Rebuild.xlane (h : Hdr) (k : LaneFn) (f : Ops) : Statement (.xlane h k f) := by
  intro r hr _
  cases hr
  cases k <;> rfl
theorem Rebuild.poll (h : Hdr) (k : PollOp) (f : Ops) : Statement (.poll h k f) := by
  intro r hr _
  cases hr
  cases k <;> rfl
theorem Rebuild.redux (h : Hdr) (o : RedOp) (t : RedTy) (f : Ops) : Statement (.redux h o t f) := by
  intro r hr hw
  have hx := extra_of_wf hr hw
  cases hr
  simp only [build, subBit, Raw.ops, Raw.opsH, Raw.imm16, half_rebuild]
  cases o <;> cases t <;> first | (cases hx; done) | rfl | simp [RedOp.code, RedTy.code, RedOp.ofCode, RedTy.ofCode, bit, RedOp.hasTy]
theorem Rebuild.scan (h : Hdr) (o : RedOp) (t : RedTy) (excl : Bool) (f : Ops) : Statement (.scan h o t excl f) := by
  intro r hr hw
  have hx := extra_of_wf hr hw
  cases hr
  simp only [build, subBit, Raw.ops, Raw.opsH, Raw.imm16, half_rebuild]
  cases o <;> cases t <;> cases excl <;> first | (cases hx; done) | rfl | simp [RedOp.code, RedTy.code, RedOp.ofCode, RedTy.ofCode, bit, RedOp.hasTy]
theorem Rebuild.matchLanes (h : Hdr) (w : Wd) (f : Ops) : Statement (.matchLanes h w f) := by
  intro r hr _
  cases hr
  cases w <;> rfl
theorem Rebuild.elect (h : Hdr) (f : Ops) : Statement (.elect h f) := by
  intro r hr _
  cases hr
  rfl
theorem Rebuild.pairedWord (h : PairHdr) (x y : Half) : Statement (.pairedWord h x y) := fun _ hr => nomatch hr
theorem Rebuild.ld (h : Hdr) (z : Size) (near sx : Bool) (f : Ops) : Statement (.ld h z near sx f) := by
  intro r hr hw
  have hx := extra_of_wf hr hw
  cases hr
  simp only [build, subBit, Raw.ops, Raw.opsH, Raw.imm16, half_rebuild]
  cases z <;> cases near <;> cases sx <;> first | (cases hx; done) | rfl | simp [Size.code, Size.ofCode, bit]
theorem Rebuild.ldAcq (h : Hdr) (z : Size) (sx : Bool) (f : Ops) : Statement (.ldAcq h z sx f) := by
  intro r hr hw
  have hx := extra_of_wf hr hw
  cases hr
  simp only [build, subBit, Raw.ops, Raw.opsH, Raw.imm16, half_rebuild]
  cases z <;> cases sx <;> first | (cases hx; done) | rfl | simp [Size.code, Size.ofCode, bit]
theorem Rebuild.loadDataArrival (o : OpRef) : Statement (.loadDataArrival o) := fun _ hr => nomatch hr
theorem Rebuild.st (h : Hdr) (z : Size) (f : Ops) : Statement (.st h z f) := by
  intro r hr hw
  cases hr
  simp only [build, subBit, Raw.ops, Raw.opsH, Raw.imm16, half_rebuild]
  cases z <;> first | rfl | simp [Size.code, Size.ofCode, bit]
theorem Rebuild.stRel (h : Hdr) (z : Size) (f : Ops) : Statement (.stRel h z f) := by
  intro r hr hw
  cases hr
  simp only [build, subBit, Raw.ops, Raw.opsH, Raw.imm16, half_rebuild]
  cases z <;> first | rfl | simp [Size.code, Size.ofCode, bit]
theorem Rebuild.storeRegister (o : OpRef) : Statement (.storeRegister o) := fun _ hr => nomatch hr
theorem Rebuild.lds (h : Hdr) (z : Size) (sx : Bool) (f : Ops) : Statement (.lds h z sx f) := by
  intro r hr hw
  have hx := extra_of_wf hr hw
  cases hr
  simp only [build, subBit, Raw.ops, Raw.opsH, Raw.imm16, half_rebuild]
  cases z <;> cases sx <;> first | (cases hx; done) | rfl | simp [Size.code, Size.ofCode, bit]
theorem Rebuild.sts (h : Hdr) (z : Size) (f : Ops) : Statement (.sts h z f) := by
  intro r hr _
  cases hr
  cases z <;> rfl
theorem Rebuild.ldc (h : Hdr) (z : Size) (f : Ops) : Statement (.ldc h z f) := by
  intro r hr hw
  have hx := extra_of_wf hr hw
  cases hr
  cases z <;> first | rfl | (cases hx; done)
theorem Rebuild.ldb (h : Hdr) (z : Size) (f : Ops) : Statement (.ldb h z f) := by
  intro r hr hw
  have hx := extra_of_wf hr hw
  cases hr
  cases z <;> first | rfl | (cases hx; done)
theorem Rebuild.pref (h : Hdr) (f : Ops) : Statement (.pref h f) := by
  intro r hr _
  cases hr
  rfl
theorem Rebuild.atom (h : Hdr) (o : AtomOp) (t : AtomTy) (k : AtomOrd) (f : Ops) : Statement (.atom h o t k f) := by
  intro r hr hw
  have hx := extra_of_wf hr hw
  cases hr
  simp only [build, subBit, Raw.ops, Raw.opsH, Raw.imm16, half_rebuild]
  cases o <;> cases t <;> cases k <;> first | (cases hx; done) | rfl | simp [AtomOp.code, AtomOrd.code, AtomTy.code, AtomOp.ofCode, AtomOrd.ofCode, AtomTy.ofCode, bit, AtomOp.hasTy, AtomTy.isInt]
theorem Rebuild.atomicPerform (o : OpRef) : Statement (.atomicPerform o) := fun _ hr => nomatch hr
theorem Rebuild.atoms (h : Hdr) (o : AtomOp) (t : AtomTy) (f : Ops) : Statement (.atoms h o t f) := by
  intro r hr hw
  have hx := extra_of_wf hr hw
  cases hr
  simp only [build, subBit, Raw.ops, Raw.opsH, Raw.imm16, half_rebuild]
  cases o <;> cases t <;> first | (cases hx; done) | rfl | simp [AtomOp.code, AtomTy.code, AtomOp.ofCode, AtomTy.ofCode, bit, AtomOp.hasTy, AtomTy.isInt]
theorem Rebuild.red (h : Hdr) (o : AtomOp) (t : AtomTy) (rel : Bool) (f : Ops) : Statement (.red h o t rel f) := by
  intro r hr hw
  have hx := extra_of_wf hr hw
  cases hr
  simp only [build, subBit, Raw.ops, Raw.opsH, Raw.imm16, half_rebuild]
  cases o <;> cases t <;> cases rel <;> first | (cases hx; done) | rfl | simp [AtomOp.code, AtomTy.code, AtomOp.ofCode, AtomTy.ofCode, bit, AtomOp.hasTy, AtomTy.isInt]
theorem Rebuild.atomAgg (h : Hdr) (t : ITy) (f : Ops) : Statement (.atomAgg h t f) := by
  intro r hr _
  cases hr
  cases t <;> rfl
theorem Rebuild.fenceAcq (h : Hdr) (f : Ops) : Statement (.fenceAcq h f) := by
  intro r hr _
  cases hr
  rfl
theorem Rebuild.fenceRel (h : Hdr) (f : Ops) : Statement (.fenceRel h f) := by
  intro r hr _
  cases hr
  rfl
theorem Rebuild.fenceAcqRel (h : Hdr) (f : Ops) : Statement (.fenceAcqRel h f) := by
  intro r hr _
  cases hr
  rfl
theorem Rebuild.sealVersion (h : Hdr) (f : Ops) : Statement (.sealVersion h f) := by
  intro r hr _
  cases hr
  rfl
theorem Rebuild.bar (h : Hdr) (f : Ops) : Statement (.bar h f) := by
  intro r hr _
  cases hr
  rfl
theorem Rebuild.gbar (h : Hdr) (f : Ops) : Statement (.gbar h f) := by
  intro r hr _
  cases hr
  rfl
theorem Rebuild.baroInit (h : Hdr) (f : Ops) : Statement (.baroInit h f) := by
  intro r hr _
  cases hr
  rfl
theorem Rebuild.baroArrive (h : Hdr) (f : Ops) : Statement (.baroArrive h f) := by
  intro r hr _
  cases hr
  rfl
theorem Rebuild.baroWait (h : Hdr) (f : Ops) : Statement (.baroWait h f) := by
  intro r hr _
  cases hr
  rfl
theorem Rebuild.baroQuery (h : Hdr) (f : Ops) : Statement (.baroQuery h f) := by
  intro r hr _
  cases hr
  rfl
theorem Rebuild.waitc (h : Hdr) (f : Ops) : Statement (.waitc h f) := by
  intro r hr _
  cases hr
  rfl
theorem Rebuild.fmtw (h : Hdr) (f : Ops) : Statement (.fmtw h f) := by
  intro r hr _
  cases hr
  rfl
theorem Rebuild.mma (h : Hdr) (f : Ops) : Statement (.mma h f) := by
  intro r hr _
  cases hr
  rfl
theorem Rebuild.mmaS (h : Hdr) (f : Ops) : Statement (.mmaS h f) := by
  intro r hr _
  cases hr
  rfl
theorem Rebuild.mmaOperationComplete (o : OpRef) : Statement (.mmaOperationComplete o) := fun _ hr => nomatch hr
theorem Rebuild.accz (h : Hdr) (f : Ops) : Statement (.accz h f) := by
  intro r hr _
  cases hr
  rfl
theorem Rebuild.accld (h : Hdr) (f : Ops) : Statement (.accld h f) := by
  intro r hr _
  cases hr
  rfl
theorem Rebuild.accst (h : Hdr) (f : Ops) : Statement (.accst h f) := by
  intro r hr _
  cases hr
  rfl
theorem Rebuild.accrd (h : Hdr) (f : Ops) : Statement (.accrd h f) := by
  intro r hr _
  cases hr
  rfl
theorem Rebuild.accwr (h : Hdr) (f : Ops) : Statement (.accwr h f) := by
  intro r hr _
  cases hr
  rfl
theorem Rebuild.scld (h : Hdr) (f : Ops) : Statement (.scld h f) := by
  intro r hr _
  cases hr
  rfl
theorem Rebuild.resAlloc (h : Hdr) (reload : Bool) (f : Ops) : Statement (.resAlloc h reload f) := by
  intro r hr hw
  cases hr
  simp only [build, subBit, Raw.ops, Raw.opsH, Raw.imm16, half_rebuild]
  cases reload <;> first | rfl | simp [bit]
theorem Rebuild.resLoad (h : Hdr) (f : Ops) : Statement (.resLoad h f) := by
  intro r hr _
  cases hr
  rfl
theorem Rebuild.resLoadComplete (o : OpRef) : Statement (.resLoadComplete o) := fun _ hr => nomatch hr
theorem Rebuild.resPin (h : Hdr) (f : Ops) : Statement (.resPin h f) := by
  intro r hr _
  cases hr
  rfl
theorem Rebuild.resUnpin (h : Hdr) (f : Ops) : Statement (.resUnpin h f) := by
  intro r hr _
  cases hr
  rfl
theorem Rebuild.resRevoke (h : Hdr) (f : Ops) : Statement (.resRevoke h f) := by
  intro r hr _
  cases hr
  rfl
theorem Rebuild.resQuery (h : Hdr) (f : Ops) : Statement (.resQuery h f) := by
  intro r hr _
  cases hr
  rfl
theorem Rebuild.residencyRehome (slot index part : Nat) : Statement (.residencyRehome slot index part) := fun _ hr => nomatch hr
theorem Rebuild.leave (h : Hdr) (f : Ops) : Statement (.leave h f) := by
  intro r hr _
  cases hr
  rfl
theorem Rebuild.leaveGrant (cluster : Nat) : Statement (.leaveGrant cluster) := fun _ hr => nomatch hr
theorem Rebuild.tcopyG2s (h : Hdr) (f : Ops) : Statement (.tcopyG2s h f) := by
  intro r hr _
  cases hr
  rfl
theorem Rebuild.tcopyS2g (h : Hdr) (f : Ops) : Statement (.tcopyS2g h f) := by
  intro r hr _
  cases hr
  rfl
theorem Rebuild.tcopyG2g (h : Hdr) (f : Ops) : Statement (.tcopyG2g h f) := by
  intro r hr _
  cases hr
  rfl
theorem Rebuild.copyEngineRun (o : OpRef) : Statement (.copyEngineRun o) := fun _ hr => nomatch hr
theorem Rebuild.copyComplete (o : OpRef) : Statement (.copyComplete o) := fun _ hr => nomatch hr
theorem Rebuild.collAllreduce (h : Hdr) (dom : Bool) (f : Ops) : Statement (.collAllreduce h dom f) := by
  intro r hr hw
  cases hr
  simp only [build, subBit, Raw.ops, Raw.opsH, Raw.imm16, half_rebuild]
  cases dom <;> first | rfl | simp [bit]
theorem Rebuild.collAllgather (h : Hdr) (dom : Bool) (f : Ops) : Statement (.collAllgather h dom f) := by
  intro r hr hw
  cases hr
  simp only [build, subBit, Raw.ops, Raw.opsH, Raw.imm16, half_rebuild]
  cases dom <;> first | rfl | simp [bit]
theorem Rebuild.collRedscat (h : Hdr) (dom : Bool) (f : Ops) : Statement (.collRedscat h dom f) := by
  intro r hr hw
  cases hr
  simp only [build, subBit, Raw.ops, Raw.opsH, Raw.imm16, half_rebuild]
  cases dom <;> first | rfl | simp [bit]
theorem Rebuild.collBcast (h : Hdr) (dom : Bool) (f : Ops) : Statement (.collBcast h dom f) := by
  intro r hr hw
  cases hr
  simp only [build, subBit, Raw.ops, Raw.opsH, Raw.imm16, half_rebuild]
  cases dom <;> first | rfl | simp [bit]
theorem Rebuild.collInstanceComplete (k : Nat) : Statement (.collInstanceComplete k) := fun _ hr => nomatch hr
theorem Rebuild.wdq (h : Hdr) (f : Ops) : Statement (.wdq h f) := by
  intro r hr _
  cases hr
  rfl
theorem Rebuild.workDistributorAnswer (o : OpRef) : Statement (.workDistributorAnswer o) := fun _ hr => nomatch hr
theorem Rebuild.churnStart (h : Hdr) (f : Ops) : Statement (.churnStart h f) := by
  intro r hr _
  cases hr
  rfl
theorem Rebuild.churnStop (h : Hdr) (f : Ops) : Statement (.churnStop h f) := by
  intro r hr _
  cases hr
  rfl
theorem Rebuild.qpush (h : Hdr) (f : Ops) : Statement (.qpush h f) := by
  intro r hr _
  cases hr
  rfl
theorem Rebuild.qpop (h : Hdr) (f : Ops) : Statement (.qpop h f) := by
  intro r hr _
  cases hr
  rfl
theorem Rebuild.qpeek (h : Hdr) (f : Ops) : Statement (.qpeek h f) := by
  intro r hr _
  cases hr
  rfl
theorem Rebuild.emit (h : Hdr) (f : Ops) : Statement (.emit h f) := by
  intro r hr _
  cases hr
  rfl
theorem Rebuild.edgeRecordAccept (o : OpRef) : Statement (.edgeRecordAccept o) := fun _ hr => nomatch hr
theorem Rebuild.frame (h : Hdr) (f : Ops) : Statement (.frame h f) := by
  intro r hr _
  cases hr
  rfl
theorem Rebuild.cut (h : Hdr) (f : Ops) : Statement (.cut h f) := by
  intro r hr _
  cases hr
  rfl
theorem Rebuild.rechdr (h : Hdr) (f : Ops) : Statement (.rechdr h f) := by
  intro r hr _
  cases hr
  rfl
theorem Rebuild.trisub (h : Hdr) (f : Ops) : Statement (.trisub h f) := by
  intro r hr _
  cases hr
  rfl
theorem Rebuild.triangleRasterise (k : Nat) : Statement (.triangleRasterise k) := fun _ hr => nomatch hr
theorem Rebuild.attr (h : Hdr) (f : Ops) : Statement (.attr h f) := by
  intro r hr _
  cases hr
  rfl
theorem Rebuild.tex (h : Hdr) (d : TexDim) (lod : Bool) (f : Ops) : Statement (.tex h d lod f) := by
  intro r hr hw
  cases hr
  simp only [build, subBit, Raw.ops, Raw.opsH, Raw.imm16, half_rebuild]
  cases d <;> cases lod <;> first | rfl | simp [TexDim.code, TexDim.ofCode, bit]
theorem Rebuild.texv (h : Hdr) (tri : Bool) (f : Ops) : Statement (.texv h tri f) := by
  intro r hr hw
  cases hr
  simp only [build, subBit, Raw.ops, Raw.opsH, Raw.imm16, half_rebuild]
  cases tri <;> first | rfl | simp [bit]
theorem Rebuild.tld (h : Hdr) (d : TexDim) (f : Ops) : Statement (.tld h d f) := by
  intro r hr _
  cases hr
  cases d <;> rfl
theorem Rebuild.mbin (h : Hdr) (f : Ops) : Statement (.mbin h f) := by
  intro r hr _
  cases hr
  rfl
theorem Rebuild.trap (h : Hdr) (f : OpsH) : Statement (.trap h f) := by
  intro r hr _
  cases hr
  exact congrArg (fun z => some (some (Instr.trap h { d := f.d, a := f.a, b := f.b, imm := z }))) (half_rebuild f.imm)
theorem Rebuild.tret (h : Hdr) (f : Ops) : Statement (.tret h f) := by
  intro r hr _
  cases hr
  rfl
theorem Rebuild.bkpt (h : Hdr) (f : Ops) : Statement (.bkpt h f) := by
  intro r hr _
  cases hr
  rfl
theorem Rebuild.beacon (h : Hdr) (f : Ops) : Statement (.beacon h f) := by
  intro r hr _
  cases hr
  rfl
theorem Rebuild.beaconMiss (gang rank : Nat) : Statement (.beaconMiss gang rank) := fun _ hr => nomatch hr
theorem Rebuild.wassign (h : Hdr) (f : Ops) : Statement (.wassign h f) := by
  intro r hr _
  cases hr
  rfl
theorem Rebuild.scrub (h : Hdr) (f : Ops) : Statement (.scrub h f) := by
  intro r hr _
  cases hr
  rfl
theorem Rebuild.hashInit (h : Hdr) (f : Ops) : Statement (.hashInit h f) := by
  intro r hr _
  cases hr
  rfl
theorem Rebuild.hashUpd (h : Hdr) (f : Ops) : Statement (.hashUpd h f) := by
  intro r hr _
  cases hr
  rfl
theorem Rebuild.hashFin (h : Hdr) (f : Ops) : Statement (.hashFin h f) := by
  intro r hr _
  cases hr
  rfl
theorem Rebuild.mext (h : Hdr) (f : Ops) : Statement (.mext h f) := by
  intro r hr _
  cases hr
  rfl
theorem Rebuild.ecsig (h : Hdr) (f : Ops) : Statement (.ecsig h f) := by
  intro r hr _
  cases hr
  rfl
theorem Rebuild.keyrel (h : Hdr) (f : Ops) : Statement (.keyrel h f) := by
  intro r hr _
  cases hr
  rfl
theorem Rebuild.certw (h : Hdr) (f : Ops) : Statement (.certw h f) := by
  intro r hr _
  cases hr
  rfl
theorem Rebuild.halt (h : Hdr) (f : Ops) : Statement (.halt h f) := by
  intro r hr _
  cases hr
  rfl
theorem Rebuild.progressLimitDemotion (warp : Nat) : Statement (.progressLimitDemotion warp) := fun _ hr => nomatch hr
theorem Rebuild.qbell (slot queue : Nat) : Statement (.qbell slot queue) := fun _ hr => nomatch hr
theorem Rebuild.launchComplete (launch : Nat) : Statement (.launchComplete launch) := fun _ hr => nomatch hr
theorem Rebuild.preemptEvict (gang : Nat) : Statement (.preemptEvict gang) := fun _ hr => nomatch hr
theorem Rebuild.fatalTrap (k : Nat) : Statement (.fatalTrap k) := fun _ hr => nomatch hr
theorem Rebuild.uncorrectableConsumed (gang : Nat) (w : ErrWhere) : Statement (.uncorrectableConsumed gang w) := fun _ hr => nomatch hr
theorem Rebuild.recoverableFault (k : Nat) : Statement (.recoverableFault k) := fun _ hr => nomatch hr
theorem Rebuild.fqreplyRetry (batch : Word) : Statement (.fqreplyRetry batch) := fun _ hr => nomatch hr
theorem Rebuild.fqreplyRefuse (batch : Word) : Statement (.fqreplyRefuse batch) := fun _ hr => nomatch hr
theorem Rebuild.scoutProbe (o : OpRef) (va : DWord) : Statement (.scoutProbe o va) := fun _ hr => nomatch hr
theorem Rebuild.warpKeeperExpiry (warp : Nat) : Statement (.warpKeeperExpiry warp) := fun _ hr => nomatch hr
theorem Rebuild.commandKeeperExpiry (slot queue : Nat) : Statement (.commandKeeperExpiry slot queue) := fun _ hr => nomatch hr
theorem Rebuild.recordWaveLaunch (slot stage edge : Nat) : Statement (.recordWaveLaunch slot stage edge) := fun _ hr => nomatch hr
theorem Rebuild.lastWaveLaunch (slot stage : Nat) : Statement (.lastWaveLaunch slot stage) := fun _ hr => nomatch hr
theorem Rebuild.gfopenWrite (slot : Nat) (v : Word) : Statement (.gfopenWrite slot v) := fun _ hr => nomatch hr
theorem Rebuild.tolverDataFrame (slot : Nat) (x : TolverFrame) : Statement (.tolverDataFrame slot x) := fun _ hr => nomatch hr
theorem Rebuild.tolverParityFrame (slot : Nat) (x : TolverFrame) : Statement (.tolverParityFrame slot x) := fun _ hr => nomatch hr
theorem Rebuild.tolverKeysFrame (slot : Nat) (x : TolverFrame) : Statement (.tolverKeysFrame slot x) := fun _ hr => nomatch hr
theorem Rebuild.tolverBuoyFrame (slot : Nat) (x : TolverFrame) : Statement (.tolverBuoyFrame slot x) := fun _ hr => nomatch hr
theorem Rebuild.tolverHandoverFrame (slot : Nat) (x : TolverFrame) : Statement (.tolverHandoverFrame slot x) := fun _ hr => nomatch hr
theorem Rebuild.tolverAckFrame (slot : Nat) (x : TolverFrame) : Statement (.tolverAckFrame slot x) := fun _ hr => nomatch hr
theorem Rebuild.tolverProposeFrame (slot : Nat) (x : TolverFrame) : Statement (.tolverProposeFrame slot x) := fun _ hr => nomatch hr
theorem Rebuild.patienceExpiry (slot edge : Nat) : Statement (.patienceExpiry slot edge) := fun _ hr => nomatch hr
theorem Rebuild.predictorWaveRetire (slot edge : Nat) : Statement (.predictorWaveRetire slot edge) := fun _ hr => nomatch hr
theorem Rebuild.handoverSend (slot : Nat) : Statement (.handoverSend slot) := fun _ hr => nomatch hr
theorem Rebuild.subchannelResend (slot : Nat) : Statement (.subchannelResend slot) := fun _ hr => nomatch hr
theorem Rebuild.doeRequest (bytes : List Byte) : Statement (.doeRequest bytes) := fun _ hr => nomatch hr
theorem Rebuild.hostWindowWrite (off : Nat) (stream : Nat) (bytes : List Byte) : Statement (.hostWindowWrite off stream bytes) := fun _ hr => nomatch hr
theorem Rebuild.hostWindowRead (place : HostPlace) (stream : Nat) (len : Nat) : Statement (.hostWindowRead place stream len) := fun _ hr => nomatch hr
theorem Rebuild.cxlSnoop (pa : Nat) (bytes : List Byte) : Statement (.cxlSnoop pa bytes) := fun _ hr => nomatch hr
theorem Rebuild.peerRequest (r : PeerReq) : Statement (.peerRequest r) := fun _ hr => nomatch hr
theorem Rebuild.linkError (port lane : Nat) (outcome : LinkOutcome) : Statement (.linkError port lane outcome) := fun _ hr => nomatch hr
theorem Rebuild.voteDisagree (unit inst : Nat) (copies : BitVec 3) : Statement (.voteDisagree unit inst copies) := fun _ hr => nomatch hr
theorem Rebuild.resyncComplete (unit inst copy : Nat) : Statement (.resyncComplete unit inst copy) := fun _ hr => nomatch hr
theorem Rebuild.patrolRead (line : Nat) (found : PatrolFinding) : Statement (.patrolRead line found) := fun _ hr => nomatch hr
theorem Rebuild.powerMeasurement (pwr tcool tjct : Word) : Statement (.powerMeasurement pwr tcool tjct) := fun _ hr => nomatch hr
theorem Rebuild.unitGate (unit : Word) : Statement (.unitGate unit) := fun _ hr => nomatch hr
theorem Rebuild.wrekey (v : Word) : Statement (.wrekey v) := fun _ hr => nomatch hr
theorem Rebuild.hqclr (v : Word) : Statement (.hqclr v) := fun _ hr => nomatch hr
theorem Rebuild.dbgctlResume (v : Word) : Statement (.dbgctlResume v) := fun _ hr => nomatch hr
theorem Rebuild.retadd (v : Word) : Statement (.retadd v) := fun _ hr => nomatch hr
theorem Rebuild.retdel (v : Word) : Statement (.retdel v) := fun _ hr => nomatch hr
theorem Rebuild.ctxidRegister (slot : Nat) (v : Word) : Statement (.ctxidRegister slot v) := fun _ hr => nomatch hr
theorem Rebuild.ctxidDestroy (slot : Nat) : Statement (.ctxidDestroy slot) := fun _ hr => nomatch hr
theorem Rebuild.qdescWrite (slot queue : Nat) (v : DWord) : Statement (.qdescWrite slot queue v) := fun _ hr => nomatch hr
theorem Rebuild.graphbaseWrite (slot : Nat) (v : DWord) : Statement (.graphbaseWrite slot v) := fun _ hr => nomatch hr
theorem Rebuild.rastbaseWrite (slot : Nat) (v : DWord) : Statement (.rastbaseWrite slot v) := fun _ hr => nomatch hr
theorem Rebuild.evictWrite (v : Word) : Statement (.evictWrite v) := fun _ hr => nomatch hr
theorem Rebuild.intstClear (v : Word) : Statement (.intstClear v) := fun _ hr => nomatch hr
theorem Rebuild.registerWrite (host : Bool) (off size : Nat) (v : DWord) : Statement (.registerWrite host off size v) := fun _ hr => nomatch hr
theorem Rebuild.discard (warp lane : Nat) : Statement (.discard warp lane) := fun _ hr => nomatch hr
theorem Rebuild.wordNotAnInstruction (reason field : Nat) : Statement (.wordNotAnInstruction reason field) := fun _ hr => nomatch hr
theorem Rebuild.trapAtFetch (misaligned : Bool) : Statement (.trapAtFetch misaligned) := fun _ hr => nomatch hr
theorem Rebuild.resultWritten (o : OpRef) : Statement (.resultWritten o) := fun _ hr => nomatch hr
theorem Rebuild.accumulatorLoadStoreComplete (o : OpRef) : Statement (.accumulatorLoadStoreComplete o) := fun _ hr => nomatch hr
theorem Rebuild.fqheadWrite (v : Word) : Statement (.fqheadWrite v) := fun _ hr => nomatch hr
theorem Rebuild.erheadWrite (v : Word) : Statement (.erheadWrite v) := fun _ hr => nomatch hr
theorem Rebuild.receivedFrameDropped (why : DropCause) : Statement (.receivedFrameDropped why) := fun _ hr => nomatch hr
theorem Rebuild.softError (site : UpsetSite) (correctable : Bool) : Statement (.softError site correctable) := fun _ hr => nomatch hr
theorem Rebuild.gangDispatch : Statement .gangDispatch := fun _ hr => nomatch hr
theorem Rebuild.gangRestore : Statement .gangRestore := fun _ hr => nomatch hr
theorem Rebuild.doeResponseCollect : Statement .doeResponseCollect := fun _ hr => nomatch hr
theorem Rebuild.getVersion : Statement .getVersion := fun _ hr => nomatch hr
theorem Rebuild.getCapabilities : Statement .getCapabilities := fun _ hr => nomatch hr
theorem Rebuild.negotiateAlgorithms : Statement .negotiateAlgorithms := fun _ hr => nomatch hr
theorem Rebuild.getDigests : Statement .getDigests := fun _ hr => nomatch hr
theorem Rebuild.getCertificate : Statement .getCertificate := fun _ hr => nomatch hr
theorem Rebuild.challenge : Statement .challenge := fun _ hr => nomatch hr
theorem Rebuild.getMeasurements : Statement .getMeasurements := fun _ hr => nomatch hr
theorem Rebuild.spdmUnsupportedRequest : Statement .spdmUnsupportedRequest := fun _ hr => nomatch hr
theorem Rebuild.partReset : Statement .partReset := fun _ hr => nomatch hr
theorem Rebuild.shootdownMode0 : Statement .shootdownMode0 := fun _ hr => nomatch hr
theorem Rebuild.shootdownMode1 : Statement .shootdownMode1 := fun _ hr => nomatch hr

end Sys2Proof.Laws
end

