-- ==== Sys2Proof/Laws/Traps.lean ====
section
/-! SUPPORT. What the shared operations of traps, transfers and events do, each said once: taking a trap, keeping and reporting an asynchronous one, the ends of an issue that does not go through, jumps, and events. -/

namespace Sys2Proof.Machine

/-! ## Threads updated one by one -/

theorem Warp.eachThread_rest (w : Warp) (es : List (Nat × Word)) (f : Nat → Word → Thread → Thread) :
    (each es w fun e w => w.onThread e.1 (f e.1 e.2)) = { w with threads := (each es w fun e w => w.onThread e.1 (f e.1 e.2)).threads } :=
  each_keeps (fun v : Warp => v = { w with threads := v.threads }) _ w _ rfl fun e _ v hv => by rw [hv]; rfl

theorem Warp.eachThread_count (w : Warp) (es : List (Nat × Word)) (f : Nat → Word → Thread → Thread) :
    (each es w fun e w => w.onThread e.1 (f e.1 e.2)).threads.length = w.threads.length :=
  each_keeps (fun v : Warp => v.threads.length = w.threads.length) _ w _ rfl fun e _ v hv => by simpa using hv

/-- Lanes that are listed once, and stand in the warp, are updated each with its own PC. -/
theorem Warp.thread_eachThread (w : Warp) (es : List (Nat × Word)) (f : Nat → Word → Thread → Thread) (hn : (es.map Prod.fst).Nodup)
    (hl : ∀ e ∈ es, e.1 < w.threads.length) (j : Nat) :
    (each es w fun e w => w.onThread e.1 (f e.1 e.2)).thread j =
      match es.find? fun e => e.1 == j with
      | some e => f e.1 e.2 (w.thread j)
      | none => w.thread j := by
  induction es generalizing w with
  | nil => rfl
  | cons e es ih =>
    rw [List.map_cons, List.nodup_cons] at hn
    rw [each_cons, ih (w.onThread e.1 (f e.1 e.2)) hn.2 (fun d hd => by simpa using hl d (List.mem_cons_of_mem _ hd)),
      List.find?_cons]
    have he := hl e List.mem_cons_self
    rw [Warp.thread_onThread]
    by_cases h : e.1 = j
    · have hnone : es.find? (fun d => d.1 == j) = none := by
        rw [List.find?_eq_none]
        intro d hd hj
        exact hn.1 (List.mem_map.mpr ⟨d, hd, by rw [h]; simpa using hj⟩)
      subst h
      simp [hnone, he]
    · have h' : ¬ (j = e.1) := fun hj => h hj.symm
      have hb : (e.1 == j) = false := by simpa using h
      simp only [hb, h', false_and, if_false]

/-! ## Taking a trap (R214, R216, R218, R270) -/

/-- What a trap reports once a thread in handler mode has made it DOUBLE (R218). -/
def TrapInfo.met (x : TrapInfo) (w : Warp) (enter : List (Nat × Word)) : TrapInfo :=
  if enter.any fun e => (w.thread e.1).handler then { x with cause := causeDouble, info := x.cause &&& 0xFF } else x

/-- The report of a fatal trap (R270). -/
def trapReport (u : Nat) (enter : List (Nat × Word)) (rep : Nat) (x : TrapInfo) (s : State) : TrapReport where
  warp := u
  gang := (s.warp u).gang
  pc := ((enter.find? fun e => e.1 == rep).map Prod.snd).getD 0
  trap := x.met (s.warp u) enter

theorem takeTrap_admitted (u : Nat) (enter : List (Nat × Word)) (rep : Nat) (x : TrapInfo) (s : State)
    (h : (s.warpLaunch (s.warp u)).admits (x.met (s.warp u) enter).cause = true) :
    takeTrap u enter rep x s = s.onWarp u fun w => each enter w fun e w => w.onThread e.1 fun t =>
      t.enterHandler (s.warpLaunch (s.warp u)).record.hpc (e.1 == rep) rep e.2 (x.met (s.warp u) enter) := by
  unfold takeTrap
  simp only
  exact if_pos h

theorem takeTrap_fatal (u : Nat) (enter : List (Nat × Word)) (rep : Nat) (x : TrapInfo) (s : State)
    (h : (s.warpLaunch (s.warp u)).admits (x.met (s.warp u) enter).cause = false) :
    takeTrap u enter rep x s =
      { s.onWarp u (fun w => each enter w fun e w => w.onThread e.1 fun t =>
          (t.stopAt e.2).trapRegs (e.1 == rep) rep e.2 (x.met (s.warp u) enter)) with
        reports := s.reports ++ [trapReport u enter rep x s] } := by
  unfold takeTrap
  simp only
  exact if_neg (by rw [Bool.not_eq_true]; exact h)

/-- Everything a trap can do: in one warp the threads that enter are changed, each once, to a thread of the handler or to a stopped one, and a fatal trap is reported. -/
theorem takeTrap_spec (u : Nat) (enter : List (Nat × Word)) (rep : Nat) (x : TrapInfo) (s : State) (hw : s.hasWarp u = true)
    (hn : (enter.map Prod.fst).Nodup) (hl : ∀ e ∈ enter, e.1 < (s.warp u).threads.length) :
    let l := s.warpLaunch (s.warp u)
    let m := x.met (s.warp u) enter
    let t := takeTrap u enter rep x s
    t = { s with warps := t.warps, reports := t.reports } ∧
    (∀ v, v ≠ u → t.warp v = s.warp v) ∧
    t.warp u = { s.warp u with threads := (t.warp u).threads } ∧
    (∀ j, (t.warp u).thread j = match enter.find? fun e => e.1 == j with
      | none => (s.warp u).thread j
      | some e =>
        if l.admits m.cause then ((s.warp u).thread j).enterHandler l.record.hpc (e.1 == rep) rep e.2 m
        else (((s.warp u).thread j).stopAt e.2).trapRegs (e.1 == rep) rep e.2 m) ∧
    t.reports = if l.admits m.cause then s.reports else s.reports ++ [trapReport u enter rep x s] := by
  intro l m t
  by_cases h : l.admits m.cause = true
  · have ht : t = s.onWarp u fun w => each enter w fun e w => w.onThread e.1 fun t =>
        t.enterHandler l.record.hpc (e.1 == rep) rep e.2 m := takeTrap_admitted u enter rep x s h
    have huid : ∀ w : Warp, (each enter w fun e w => w.onThread e.1 fun t =>
        t.enterHandler l.record.hpc (e.1 == rep) rep e.2 m).uid = w.uid := fun w => by
      rw [Warp.eachThread_rest w enter fun k pc t => t.enterHandler l.record.hpc (k == rep) rep pc m]
    have hself := State.warp_onWarp s u u _ huid
    rw [if_pos ⟨rfl, hw⟩] at hself
    refine ⟨by rw [ht]; rfl, fun v hv => ?_, ?_, fun j => ?_, ?_⟩
    · rw [ht, State.warp_onWarp s u v _ huid, if_neg fun h => hv h.1.symm]
    · rw [ht, hself]
      exact Warp.eachThread_rest _ enter fun k pc t => t.enterHandler l.record.hpc (k == rep) rep pc m
    · rw [ht, hself, Warp.thread_eachThread _ enter (fun k pc t => t.enterHandler l.record.hpc (k == rep) rep pc m) hn hl]
      cases enter.find? fun e => e.1 == j <;> simp [h]
    · rw [ht, if_pos h]; rfl
  · rw [Bool.not_eq_true] at h
    have ht : t = _ := takeTrap_fatal u enter rep x s h
    have huid : ∀ w : Warp, (each enter w fun e w => w.onThread e.1 fun t =>
        (t.stopAt e.2).trapRegs (e.1 == rep) rep e.2 m).uid = w.uid := fun w => by
      rw [Warp.eachThread_rest w enter fun k pc t => (t.stopAt pc).trapRegs (k == rep) rep pc m]
    have hself := State.warp_onWarp s u u _ huid
    rw [if_pos ⟨rfl, hw⟩] at hself
    have hwarp : ∀ v, t.warp v = (s.onWarp u fun w => each enter w fun e w => w.onThread e.1 fun t =>
        (t.stopAt e.2).trapRegs (e.1 == rep) rep e.2 m).warp v := fun v => by rw [ht]; rfl
    refine ⟨by rw [ht]; rfl, fun v hv => ?_, ?_, fun j => ?_, ?_⟩
    · rw [hwarp, State.warp_onWarp s u v _ huid, if_neg fun h => hv h.1.symm]
    · rw [hwarp, hself]
      exact Warp.eachThread_rest _ enter fun k pc t => (t.stopAt pc).trapRegs (k == rep) rep pc m
    · rw [hwarp, hself, Warp.thread_eachThread _ enter (fun k pc t => (t.stopAt pc).trapRegs (k == rep) rep pc m) hn hl]
      cases enter.find? fun e => e.1 == j <;> simp [h]
    · rw [ht, if_neg (by simp [h])]

/-- The first asynchronous trap of a warp stands, with bit 31 of its information set (R270). -/
theorem asyncTrap_spec (u lane : Nat) (pc : Word) (x : TrapInfo) (s : State) (hw : s.hasWarp u = true) :
    OnlyWarp u s (asyncTrap u lane pc x s) ∧
    (asyncTrap u lane pc x s).warp u = { s.warp u with asyncTrap :=
      if (s.warp u).asyncTrap.isSome then (s.warp u).asyncTrap else some (lane, pc, { x with info := x.info ||| 0x80000000 }) } := by
  have huid : ∀ w : Warp, (if w.asyncTrap.isSome then w else
      { w with asyncTrap := some (lane, pc, { x with info := x.info ||| 0x80000000 }) }).uid = w.uid := fun w => by split <;> rfl
  refine ⟨State.onWarp_only s u _ huid, ?_⟩
  unfold asyncTrap
  rw [State.warp_onWarp s u u _ huid, if_pos ⟨rfl, hw⟩]
  split <;> rfl

/-- A trap of a bundle: an admitted one is the trap of its active lanes; a fatal one first stops the other lanes where they stand. -/
theorem bundleTrap_admitted (u : Nat) (lanes enter : List Nat) (pc : Word) (rep : Nat) (x : TrapInfo) (s : State)
    (h : (s.warpLaunch (s.warp u)).admits (if enter.any fun l => ((s.warp u).thread l).handler then causeDouble else x.cause) = true) :
    bundleTrap u lanes enter pc rep x s = takeTrap u (enter.map fun l => (l, pc)) rep x s := by
  unfold bundleTrap; simp only; rw [if_pos h]

theorem bundleTrap_fatal (u : Nat) (lanes enter : List Nat) (pc : Word) (rep : Nat) (x : TrapInfo) (s : State)
    (h : (s.warpLaunch (s.warp u)).admits (if enter.any fun l => ((s.warp u).thread l).handler then causeDouble else x.cause) = false) :
    bundleTrap u lanes enter pc rep x s = takeTrap u (enter.map fun l => (l, pc)) rep x
      (s.onWarp u fun w => w.onThreads (lanes.filter fun l => !enter.contains l) fun t => t.stopAt pc) := by
  unfold bundleTrap; simp only; rw [if_neg (by rw [Bool.not_eq_true]; exact h)]

/-! ## The ends of an issue that does not go through (R55) -/

theorem issueAt_async (i : Instr) (body : Act → State → State) (b : Bundle) (s : State) (h : (s.warp b.warp).asyncTrap.isSome = true) :
    issueAt i body b s = reportAsync b.warp s := by
  unfold issueAt; simp only [h, if_true]

theorem issueAt_quiet (i : Instr) (body : Act → State → State) (b : Bundle) (s : State) (h : (s.warp b.warp).asyncTrap = none)
    (hs : (s.warp b.warp).diverged = false) :
    (∀ f, check i b s = .bounds f → issueAt i body b s = takeTrap b.warp ((lanesOf b.lanes).map fun l => (l, b.pc))
      ((lanesOf b.lanes).headD 0) { cause := causeBounds, info := .ofNat 32 (f * 256) } s) ∧
    (check i b s = .skip → issueAt i body b s = s.advance b.warp (lanesOf b.lanes) b.pc) ∧
    (∀ l f, check i b s = .empty l f → issueAt i body b s =
      bundleTrap b.warp (lanesOf b.lanes)
        ((lanesOf b.lanes).filter fun l => ((s.warp b.warp).thread l).guard (guardOf i).1 (guardOf i).2) b.pc l
        { cause := causeEmptyRead, info := .ofNat 32 (f * 256) } (s.advance b.warp (lanesOf b.lanes) b.pc)) ∧
    (check i b s = .wait → issueAt i body b s = s.blockLanes b.warp (lanesOf b.lanes) (.issue ((lanesOf b.lanes).headD 0))) := by
  refine ⟨fun f hc => ?_, fun hc => ?_, fun l f hc => ?_, fun hc => ?_⟩ <;>
    (unfold issueAt; simp only [h, hc, Option.isSome_none, Warp.sees_same hs]; rfl)

/-! ## Transfers (R107, R108) -/

/-- Each active lane goes to its own target; nothing else of the warp changes. -/
theorem jump_spec (target : Warp → Nat → Word) (x : Act) (s : State) (hw : s.hasWarp x.u = true) (hn : x.act.Nodup)
    (hl : ∀ l ∈ x.act, l < (s.warp x.u).threads.length) :
    OnlyWarp x.u s (jump target x s) ∧ (jump target x s).warp x.u = { s.warp x.u with threads := ((jump target x s).warp x.u).threads } ∧
    ∀ j, ((jump target x s).warp x.u).thread j =
      if j ∈ x.act then { (s.warp x.u).thread j with pc := target (s.warp x.u) j } else (s.warp x.u).thread j := by
  let ts := x.act.map fun l => (l, target (s.warp x.u) l)
  have huid : ∀ w : Warp, (each ts w fun e w => w.onThread e.1 fun t => { t with pc := e.2 }).uid = w.uid := fun w => by
    rw [Warp.eachThread_rest w ts fun _ pc t => { t with pc }]
  have hself : (jump target x s).warp x.u = each ts (s.warp x.u) fun e w => w.onThread e.1 fun t => { t with pc := e.2 } := by
    unfold jump
    rw [State.warp_onWarp s x.u x.u _ huid, if_pos ⟨rfl, hw⟩]
  have hfst : ts.map Prod.fst = x.act := by simp [ts, Function.comp_def]
  refine ⟨State.onWarp_only s x.u _ huid, ?_, fun j => ?_⟩
  · rw [hself]; exact Warp.eachThread_rest _ ts fun _ pc t => { t with pc }
  · rw [hself, Warp.thread_eachThread _ ts (fun _ pc t => { t with pc }) (by rw [hfst]; exact hn) fun e he => by
      obtain ⟨l, hm, rfl⟩ := List.mem_map.mp he; exact hl l hm]
    by_cases hj : j ∈ x.act
    · have : ts.find? (fun e => e.1 == j) = some (j, target (s.warp x.u) j) := by
        simp only [ts, List.find?_map, Function.comp_def]
        have hf : x.act.find? (fun l => l == j) = some j := by
          cases hc : x.act.find? fun l => l == j with
          | none => exact absurd (List.find?_eq_none.mp hc j hj) (by simp)
          | some l => have := List.find?_some hc; simp only [beq_iff_eq] at this; rw [this]
        rw [hf]; rfl
      rw [this, if_pos hj]
    · have : ts.find? (fun e => e.1 == j) = none := by
        rw [List.find?_eq_none]
        intro e he
        obtain ⟨l, hm, rfl⟩ := List.mem_map.mp he
        simp only [beq_iff_eq]
        exact fun h => hj (h ▸ hm)
      rw [this, if_neg hj]

/-! ## Events -/

@[simp] theorem event_next (p : Bool) (f : State → State) (s t : State) : event p f s = .next t ↔ p = true ∧ f s = t := by
  unfold event; cases p <;> simp

theorem event_enabled (f : State → State) (s : State) : event true f s = .next (f s) := rfl

/-! ## Lanes that stop or go on -/

/-- BLOCKED and RUNNING lanes: their status changes, and nothing else. -/
theorem State.blockLanes_spec (s : State) (u : Nat) (lanes : List Nat) (x : Wait) (hw : s.hasWarp u = true) (hn : lanes.Nodup)
    (hl : ∀ l ∈ lanes, l < (s.warp u).threads.length) :
    OnlyWarp u s (s.blockLanes u lanes x) ∧
    (s.blockLanes u lanes x).warp u = (s.warp u).onThreads lanes (fun t => { t with status := .blocked x }) ∧
    ∀ j, ((s.blockLanes u lanes x).warp u).thread j =
      if j ∈ lanes then { (s.warp u).thread j with status := .blocked x } else (s.warp u).thread j := by
  have huid : ∀ w : Warp, (w.onThreads lanes fun t => { t with status := .blocked x }).uid = w.uid := fun w => by
    rw [(Warp.onThreads_rest w _ _).1]
  have hself : (s.blockLanes u lanes x).warp u = (s.warp u).onThreads lanes fun t => { t with status := .blocked x } := by
    unfold State.blockLanes
    rw [State.warp_onWarp s u u _ huid, if_pos ⟨rfl, hw⟩]
  refine ⟨State.onWarp_only s u _ huid, hself, fun j => ?_⟩
  rw [hself, Warp.thread_onThreads _ _ _ hn hl]

theorem State.wakeLanes_spec (s : State) (u : Nat) (lanes : List Nat) (hw : s.hasWarp u = true) (hn : lanes.Nodup)
    (hl : ∀ l ∈ lanes, l < (s.warp u).threads.length) :
    OnlyWarp u s (s.wakeLanes u lanes) ∧
    (s.wakeLanes u lanes).warp u = (s.warp u).onThreads lanes (fun t => { t with status := .running }) ∧
    ∀ j, ((s.wakeLanes u lanes).warp u).thread j =
      if j ∈ lanes then { (s.warp u).thread j with status := .running } else (s.warp u).thread j := by
  have huid : ∀ w : Warp, (w.onThreads lanes fun t => { t with status := .running }).uid = w.uid := fun w => by
    rw [(Warp.onThreads_rest w _ _).1]
  have hself : (s.wakeLanes u lanes).warp u = (s.warp u).onThreads lanes fun t => { t with status := .running } := by
    unfold State.wakeLanes
    rw [State.warp_onWarp s u u _ huid, if_pos ⟨rfl, hw⟩]
  refine ⟨State.onWarp_only s u _ huid, hself, fun j => ?_⟩
  rw [hself, Warp.thread_onThreads _ _ _ hn hl]

/-! ## The in-flight record (R24, R282) -/

/-- An operation that is issued takes the next number and stands last. -/
theorem Warp.addOp_spec (w : Warp) (o : Op) :
    (w.addOp o).ops = w.ops ++ [{ o with id := w.nextOp }] ∧ (w.addOp o).nextOp = w.nextOp + 1 ∧
    w.addOp o = { w with ops := (w.addOp o).ops, nextOp := (w.addOp o).nextOp } := ⟨rfl, rfl, rfl⟩

/-- What leaves the record has finished; what stays stood there, in the same order. -/
theorem retireOps_sublist (os : List Op) (held : List Ctr) : (retireOps os held).Sublist os := by
  induction os generalizing held with
  | nil => exact List.Sublist.refl _
  | cons o os ih =>
    unfold retireOps
    split
    · split
      · exact (ih held).cons o
      · exact (ih held).cons_cons o
    · split
      · exact (ih held).cons o
      · exact (ih _).cons_cons o

theorem retireOps_keeps (os : List Op) (held : List Ctr) : ∀ o ∈ os, o.finished = false → o ∈ retireOps os held := by
  induction os generalizing held with
  | nil => simp
  | cons p os ih =>
    intro o ho hf
    unfold retireOps
    rcases List.mem_cons.mp ho with rfl | ho
    · split <;> simp [hf]
    · split
      · split
        · exact ih held o ho hf
        · exact List.mem_cons_of_mem _ (ih held o ho hf)
      · split
        · exact ih held o ho hf
        · exact List.mem_cons_of_mem _ (ih _ o ho hf)

theorem Warp.finish_rest (w : Warp) (k : Nat) : w.finish k = { w with ops := (w.finish k).ops } := rfl

end Sys2Proof.Machine
end

