-- ==== Sys2Proof/Laws/Record.lean ====
section
/-! SUPPORT. What issuing an operation into a warp's in-flight record, delivering to its destination and finishing it can do, each said once. -/

namespace Sys2Proof.Machine

/-- Emptying a destination changes registers alone. -/
theorem Warp.markEmpty_rest (w : Warp) (n : Nat) (o : Operand) (held : Bool) (l : Nat) :
    w.markEmpty n o held l = { w with vregs := (w.markEmpty n o held l).vregs, uregs := (w.markEmpty n o held l).uregs } := by
  unfold Warp.markEmpty
  split
  · rw [Warp.emptyV_rest]
  · rw [Warp.emptyU_rest]
  all_goals rfl

/-- Writing a destination changes registers and predicates alone. -/
theorem Warp.write_rest (w : Warp) (n : Nat) (o : Operand) (l v : Nat) :
    w.write n o l v = { w with vregs := (w.write n o l v).vregs, uregs := (w.write n o l v).uregs,
                               threads := (w.write n o l v).threads } := by
  unfold Warp.write
  split
  · rw [Warp.putV_rest]
  · rw [Warp.putU_rest]
  all_goals rfl

theorem Act.oweD_rest (x : Act) (w : Warp) : x.oweD w = { w with vregs := (x.oweD w).vregs, uregs := (x.oweD w).uregs } :=
  each_keeps (fun v : Warp => v = { w with vregs := v.vregs, uregs := v.uregs }) _ w _ rfl fun l _ v hv => by
    rw [Warp.markEmpty_rest, hv]

/-- An operation that issues: in its warp alone, its destination is owed where it has one, and its entry stands last in the record. -/
theorem startOp_spec (x : Act) (slots : List Slot) (d : Bool) (s : State) (hw : s.hasWarp x.u = true) :
    OnlyWarp x.u s (startOp x slots d s) ∧
    (startOp x slots d s).warp x.u = (if d then x.oweD (s.warp x.u) else s.warp x.u).addOp (x.op slots []) := by
  have huid : ∀ w : Warp, ((if d then x.oweD w else w).addOp (x.op slots [])).uid = w.uid := fun w => by
    cases d
    · rfl
    · show (x.oweD w).uid = w.uid
      rw [Act.oweD_rest]
  refine ⟨State.onWarp_only s x.u _ huid, ?_⟩
  unfold startOp
  rw [State.warp_onWarp s x.u x.u _ huid, if_pos ⟨rfl, hw⟩]

/-- An operation that completes: its entry is finished in its warp's record, its heavy-issue units go back to their cluster, and nothing else changes. -/
theorem State.finishOp_spec (s : State) (r : OpRef) (hw : s.hasWarp r.warp = true) :
    s.finishOp r = { s with warps := (s.finishOp r).warps, clusters := (s.finishOp r).clusters } ∧
    (∀ v, (s.finishOp r).warp v = if v = r.warp then (s.warp v).finish r.op else s.warp v) ∧
    (s.finishOp r).clusters.length = s.clusters.length ∧
    ∀ c ∈ (s.finishOp r).clusters, ∃ d ∈ s.clusters, c = { d with held := c.held, holders := d.holders.filter fun h => h.1 != r } := by
  refine ⟨rfl, fun v => ?_, by unfold State.finishOp; simp [State.onWarp], fun c hc => ?_⟩
  · have h := State.warp_onWarp s r.warp v (fun w => w.finish r.op) fun w => rfl
    have hself : (s.finishOp r).warp v = (s.onWarp r.warp fun w => w.finish r.op).warp v := rfl
    rw [hself, h]
    by_cases hv : v = r.warp
    · rw [if_pos ⟨hv.symm, hw⟩, if_pos hv]
    · rw [if_neg fun h => hv h.1.symm, if_neg hv]
  · unfold State.finishOp at hc
    obtain ⟨d, hd, rfl⟩ := List.mem_map.mp hc
    exact ⟨d, hd, rfl⟩

/-- What an operation delivers to its destination touches registers and predicates of its warp alone. -/
theorem Op.writeD_rest (o : Op) (vals : List (Nat × Nat)) (w : Warp) :
    o.writeD vals w = { w with vregs := (o.writeD vals w).vregs, uregs := (o.writeD vals w).uregs, threads := (o.writeD vals w).threads } := by
  unfold Op.writeD
  split
  · rfl
  · split
    · rfl
    · exact each_keeps (fun v : Warp => v = { w with vregs := v.vregs, uregs := v.uregs, threads := v.threads }) _ w _ rfl
        fun e _ v hv => by rw [Warp.write_rest, hv]

end Sys2Proof.Machine
end

