-- ==== Sys2Proof/Laws/Replace.lean ====
section
/-! SUPPORT. Replacement: what may leave a cache during a step changes caches, L2, DRAM behind it, translations, the errors found, what a line that goes home sends or makes of a register, and the count of draws, and keeps the form of the memories. -/

namespace Sys2Proof.Machine

/-- What replacement may change. -/
theorem replace_rest (s : State) : replace s = { s with draws := (replace s).draws, caches := (replace s).caches, mem := (replace s).mem, found := (replace s).found, sent := (replace s).sent, agenda := (replace s).agenda } := by
  unfold replace; split <;> rfl

theorem stateWithout_canonical (v : Victim) (s : State) (h : s.mem.Canonical) : (stateWithout v s).mem.Canonical := by
  cases v with
  | l2 line => exact dropLine_canonical line (writeBack_canonical line h)
  | tlb key => exact h
  | l1 core line => exact h
  | consts core line => exact h
  | code core line => exact h
  | ahead core bs => exact h
  | codeByte core k => exact h

theorem replace_canonical (s : State) (h : s.mem.Canonical) : (replace s).mem.Canonical := by
  unfold replace
  split
  · exact h
  · cases hv : victimOf s with
    | none => simpa [hv] using h
    | some v => simpa [hv] using stateWithout_canonical v s h

/-- Where no cache holds anything, nothing leaves. -/
theorem replace_of_empty (s : State) (h : cacheVictims s = []) : replace s = s := if_pos h

end Sys2Proof.Machine
end

