-- ==== Sys2Proof/Tests/Slice0.lean ====
section
/-! SUPPORT. Tests: ill-formed words are refused, words spelled out by the spec decode to what they stand for, single steps on small states give what the spec's texts and examples give, and the hypotheses of every statement are met somewhere. -/

set_option Elab.async false

open Sys2Proof Sys2Proof.Machine
open Sys2Proof.Rule (vec uni imm zr hdr)

namespace Sys2Proof.Tests

/-! ## A small laboratory -/

/-- The part with a root warp of sixteen threads placed, its next word a NOP. -/
def bare : State := State.reset.withFetchWord 96 0x010070000000000000000000

/-- The bundle of all its threads at PC 0. -/
def b0 : Bundle := { warp := 1, lanes := 0xFFFF, pc := 0 }
def lanes16 : List Nat := List.range 16

/-- The bundle has been selected. -/
def lab : State := { bare with cur := some b0 }

/-- The launch record changed. -/
def withRec (s : State) (f : LaunchRec → LaunchRec) : State := { s with launches := s.launches.map fun l => { l with record := f l.record } }

/-- The warp changed. -/
def onW (s : State) (f : Warp → Warp) : State := s.onWarp 1 f

/-- Vector register i holds `f l` in every lane; uniform register i holds v. -/
def setV (s : State) (i : Nat) (f : Nat → Nat) : State :=
  s.onWarp 1 fun w => each (List.range 16) w fun l w => w.setVreg i l { val := .ofNat 32 (f l) }
def setU (s : State) (i v : Nat) : State := s.onWarp 1 fun w => w.setUreg i { val := .ofNat 32 v }

/-- Lines of the root's space, by address, with bytes. -/
def withLine (s : State) (va : Nat) (bs : List Byte) : State :=
  { s with mem := { s.mem with
      lines := Store.put { pa := 0xFFFFFFFFFFFF } s.mem.lines (va / 128) { pa := va / 128 * 128 }
      l2 := s.mem.l2.setBytes va bs } }

/-- The state after an instruction or event. -/
def next (i : Instr) (s : State) : State :=
  match exec i s with
  | .next t => t
  | _ => s

/-- Registers as numbers. -/
def vr (s : State) (i l : Nat) : Nat := ((s.warp 1).vreg i l).val.toNat
def ur (s : State) (i : Nat) : Nat := ((s.warp 1).ureg i).val.toNat

/-- `Goes`, decided. -/
def goesB (i : Instr) (s : State) (b : Bundle) (act : List Nat) : Bool :=
  decide (s.cur = some b) && s.hasWarp b.warp && ((lanesOf b.lanes).all fun l => decide (l < (s.warp b.warp).threads.length)) &&
    decide ((s.warp b.warp).asyncTrap = none) && decide ((s.warp b.warp).diverged = false) &&
    (match check i b s with
      | .go a => decide (a = act)
      | _ => false)

theorem goes_of {i : Instr} {s : State} {b : Bundle} {act : List Nat} (h : goesB i s b act = true) : Goes i s b act := by
  simp only [goesB, Bool.and_eq_true, decide_eq_true_eq, List.all_eq_true] at h
  obtain ⟨⟨⟨⟨⟨hc, hw⟩, hl⟩, hq⟩, hd⟩, hg⟩ := h
  refine ⟨⟨hc, hw, hl, hq, hd⟩, ?_⟩
  split at hg
  · rename_i a ha
    rw [ha, of_decide_eq_true hg]
  · exact absurd hg (by simp)

/-- The shorthand of the instructions below: no guard, no hints. -/
abbrev H : Hdr := hdr 7
abbrev ops (d a b c : Operand) : Ops := { d, a, b, c }
abbrev prd (n : Nat) : Operand := { kind := .prd, val := .ofNat 13 n }
abbrev spc (n : Nat) : Operand := { kind := .spc, val := .ofNat 13 n }
abbrev acc (n : Nat) : Operand := { kind := .acc, val := .ofNat 13 n }
abbrev cnv (n : Nat) : Operand := { kind := .cnv, val := .ofNat 13 n }

/-! ## Ill-formed terms are refused, with the reason and field of R56 -/

/-- The defect the decoder reports of a term. -/
abbrev why (i : Instr) : Option (Nat × Nat) := worst (defects i)

theorem wf_refuses_rsv_field : why (.iadd H .i32 (ops (vec 3) (vec 1) (vec 2) (vec 4))) = some (3, 3) := by decide
theorem wf_refuses_kind : why (.iadd H .i32 (ops (vec 3) (prd 1) (vec 2) zr)) = some (4, 1) := by decide
theorem wf_refuses_index : why (.iadd H .i32 (ops (vec 3) (vec 1) (uni 512) zr)) = some (5, 2) := by decide
theorem wf_refuses_odd_pair : why (.iadd H .i64 (ops (vec 4) (vec 5) (vec 6) zr)) = some (6, 1) := by decide
theorem wf_refuses_quad : why (.ld H .b128 false false (ops (vec 6) (uni 0) zr zr)) = some (6, 0) := by decide
theorem wf_refuses_imm_destination : why (.iadd H .i32 (ops (imm 1) (vec 1) (vec 2) zr)) = some (7, 0) := by decide
theorem wf_refuses_pt_destination : why (.isetp H .lt .i32 (ops (prd 7) (vec 1) (vec 2) zr)) = some (7, 0) := by decide
theorem wf_refuses_fe_on_zr : why (.iadd { H with fea := true } .i32 (ops (vec 3) zr (vec 2) zr)) = some (8, 1) := by decide
theorem wf_refuses_emk_without_register : why (.isetp { H with emk := true } .lt .i32 (ops (prd 1) (vec 1) (vec 2) zr)) = some (9, 0) := by decide
theorem wf_refuses_pair_same_bank : Instr.wf (.pairedWord { feyb := false, feya := false, fexb := false, fexa := false, gn := false, gp := 7, heat := 0, div := false, wby := false, wbx := false }
    { op := .iadd, d := 4, a := 1, b := 2 } { op := .iadd, d := 8, a := 1, b := 2 }) = false := by decide
theorem wf_refuses_not_pt : why (.iadd { H with gn := true } .i32 (ops (vec 3) (vec 1) (vec 2) zr)) = some (0x0B, 4) := by decide
theorem wf_refuses_wrsr_read_only : why (.wrsr H (ops (spc 0x10) (vec 2) zr zr)) = some (0x0C, 0) := by decide
theorem wf_refuses_uniform_from_vector : why (.iadd H .i32 (ops (uni 3) (vec 1) (uni 2) zr)) = some (4, 0) := by decide
theorem wf_refuses_bool3_high : why (.bool3 H .w32 { d := vec 3, a := vec 1, b := vec 2, imm := 0x100 }) = some (3, 3) := by decide
theorem wf_refuses_role_8 : why (.role H { d := zr, a := zr, b := zr, imm := 8 }) = some (3, 3) := by decide
theorem wf_refuses_pset_8 : why (.pset H .and (ops (prd 1) (prd 2) (prd 3) (imm 8))) = some (5, 3) := by decide
theorem wf_refuses_loop_mixed : why (.loop H { d := vec 3, a := uni 3, b := zr, imm := 0 }) = some (4, 1) := by decide
theorem wf_refuses_rdsr_queue : why (.rdsr H (ops (vec 3) (spc 0x80) zr zr)) = some (4, 1) := by decide
theorem wf_refuses_rdsr_lane_uniform : why (.rdsr H (ops (uni 3) (spc 0x00) zr zr)) = some (4, 0) := by decide
theorem wf_refuses_rdsr_unnamed : why (.rdsr H (ops (vec 3) (spc 0x24) zr zr)) = some (5, 1) := by decide
theorem wf_refuses_cvt_same : why (.cvt H .f32 .f32 { d := vec 3, a := vec 2, b := zr, imm := 0 }) = some (2, 4) := by decide
theorem wf_refuses_cvt_round_5 : why (.cvt H .f32 .b8 { d := vec 3, a := vec 2, b := imm 0xA4, imm := 0 }) = some (5, 2) := by decide
theorem wf_refuses_cvt_substitute : why (.cvt H .f32 .f64 { d := vec 4, a := vec 2, b := zr, imm := 1 }) = some (3, 3) := by decide
theorem wf_refuses_cvt_rs_uniform : why (.cvt H .f32 .b8 { d := uni 3, a := uni 2, b := imm 0x84, imm := 0 }) = some (4, 0) := by decide
theorem wf_refuses_xlane_segment : why (.xlane H .rot (ops (vec 3) (vec 1) (vec 2) (imm 3))) = some (5, 3) := by decide
theorem wf_refuses_waitc_counter : why (.waitc H (ops zr (spc 0x10) (imm 0) zr)) = some (4, 1) := by decide
theorem wf_refuses_waitc_65 : why (.waitc H (ops zr (spc 0x40) (imm 65) zr)) = some (5, 2) := by decide
theorem wf_refuses_accst_256 : why (.accst H (ops (acc 0) (uni 0) (uni 4) (imm 256))) = some (5, 3) := by decide
theorem wf_refuses_leave_0 : why (.leave H (ops zr (imm 0) zr zr)) = some (5, 1) := by decide
theorem wf_refuses_qpush_special : why (.qpush H (ops (spc 0x00) (vec 1) zr zr)) = some (4, 0) := by decide
theorem wf_refuses_trisub_4 : why (.trisub H (ops zr (vec 1) (vec 2) (imm 4))) = some (5, 3) := by decide
theorem wf_refuses_attr_32 : why (.attr H (ops (vec 3) (vec 4) (vec 2) (imm 32))) = some (5, 3) := by decide
theorem wf_refuses_bkpt_negative : why (.bkpt H (ops zr zr zr (imm (-1)))) = some (5, 3) := by decide
theorem wf_refuses_certw_8 : why (.certw H (ops (uni 2) (uni 4) (uni 6) (imm 8))) = some (5, 3) := by decide
theorem wf_refuses_halt_2 : why (.halt H (ops zr (imm 2) zr zr)) = some (5, 1) := by decide
theorem wf_refuses_redux_and_f32 : why (.redux H .and .f32 (ops (vec 3) (vec 1) zr zr)) = some (2, 4) := by decide
theorem wf_refuses_ld_sx_32 : why (.ld H .b32 false true (ops (vec 3) (uni 0) zr zr)) = some (2, 4) := by decide
theorem wf_refuses_ldc_8 : why (.ldc H .b8 (ops (vec 3) (uni 0) zr zr)) = some (2, 4) := by decide
theorem wf_refuses_ldb_8 : why (.ldb H .b8 (ops (vec 3) (uni 0) zr zr)) = some (2, 4) := by decide
theorem wf_refuses_atom_cas_f32 : why (.atom H .cas .f32 .none (ops (vec 3) (uni 0) zr (vec 8))) = some (2, 4) := by decide
theorem wf_refuses_red_exch : why (.red H .exch .i32 false (ops zr (uni 0) zr (vec 8))) = some (2, 4) := by decide

/-- Two defects: the lowest reason is reported, then the lowest field (R56). -/
theorem wf_reports_the_lowest : why (.iadd { H with gn := true } .i32 (ops (vec 3) (prd 1) (prd 2) (vec 4))) = some (3, 3) := by decide

theorem wf_accepts : Instr.wf (.iadd H .i64 (ops (vec 6) (vec 6) (imm (-8)) zr)) = true := by decide

/-! ## Words (R50 to R71) -/

/-- What a word decodes to: the instruction, or the reason and field. -/
def reads (w : IWord) : Instr ⊕ NotInstr :=
  match decode w with
  | .ok i => .inl i
  | .error e => .inr e

/-- Each word that the spec's examples spell out decodes to what its text says. -/
theorem test_spelled_words : (Rule.spelled.all fun x => decide (reads (wordOfBytes x.1) = .inl x.2)) = true := by decide +kernel

theorem test_unallocated_op : reads 0x000070000000000000000000 = .inr ⟨1, 4⟩ := by decide +kernel
theorem test_unallocated_sub : reads 0x010170000000000000000000 = .inr ⟨2, 4⟩ := by decide +kernel
theorem test_rsv_bit_64 : reads 0x010070010000000000000000 = .inr ⟨3, 4⟩ := by decide +kernel
theorem test_illegal_wrsr_clock : reads 0x3C007000C010200200000000 = .inr ⟨0x0C, 0⟩ := by decide +kernel

/-! ## Integer, control and special-register instructions -/

def i2 : Instr := .iadd H .i64 (ops (vec 6) (vec 6) (imm (-8)) zr)
/-- The example of R96's chapter: the pair 0x0000_0001_0000_0004 plus −8. -/
def sPair : State := setV (setV lab 6 fun _ => 4) 7 fun _ => 1
theorem test_iadd_pair_wraps : vr (next i2 sPair) 6 3 = 0xFFFFFFFC ∧ vr (next i2 sPair) 7 3 = 0 := by decide +kernel
theorem test_rot_minus_8 : vr (next (.rot H .w32 (ops (vec 3) (vec 1) (imm (-8)) zr)) (setV lab 1 fun _ => 0x12345678)) 3 0 = 0x78123456 := by decide +kernel
theorem test_idiv_by_zero : lateResult (.idiv H .i32 (ops zr zr zr zr)) 7 0 = 0xFFFFFFFF := by decide +kernel
theorem test_irem_most_negative : lateResult (.irem H .i32 (ops zr zr zr zr)) 0x80000000 0xFFFFFFFF = 0 := by decide +kernel
/-- R100: the table 0xE8 is the majority of A, B and the old D. -/
theorem test_bool3_majority : vr (next (.bool3 H .w32 { d := vec 3, a := vec 1, b := vec 2, imm := 0xE8 })
    (setV (setV (setV lab 1 fun _ => 0b1100) 2 fun _ => 0b1010) 3 fun _ => 0b0110)) 3 5 = 0b1110 := by decide +kernel
theorem test_bfe_signed : vr (next (.bfe H .i32 (ops (vec 3) (vec 1) (vec 2) zr)) (setV (setV lab 1 fun _ => 0xF0) 2 fun _ => 0x0404)) 3 0 = 0xFFFFFFFF := by decide +kernel
theorem test_clz_zero_64 : vr (next (.clz H .w64 (ops (vec 3) (vec 4) zr zr)) lab) 3 0 = 64 := by decide +kernel
theorem test_pset_and_101 : (((next (.pset H .and (ops (prd 1) (prd 2) (prd 3) (imm 5)))
    (onW lab fun w => w.onThread 0 fun t => { t with preds := 0b1000 })).warp 1).thread 0).preds = 0b1000 := by decide +kernel
theorem test_lea_scales : ur (next (.lea H .s3 (ops (uni 4) (uni 0) (uni 2) zr)) (setU (setU lab 0 0x1000) 2 0xFFFFFFFF)) 4 = 0xFF8 := by decide +kernel
/-- R109: one less, and 18 words back while it is not 0. -/
theorem test_loop_back : (((next (.loop H { d := uni 12, a := uni 12, b := zr, imm := 0xFFEE }) (setU lab 12 2)).warp 1).thread 4).pc = 0 - 216 := by decide +kernel
theorem test_loop_falls_through : (((next (.loop H { d := uni 12, a := uni 12, b := zr, imm := 0xFFEE }) (setU lab 12 1)).warp 1).thread 4).pc = 12 := by decide +kernel
theorem test_wrsr_seed_0 : (((next (.wrsr H (ops (spc 0x1A) zr zr zr)) lab).warp 1).thread 0).seed = 1 := by decide +kernel

theorem witness_IntegerResult : ∃ i g s b act, Rule.intResult i = some g ∧ i.wf = true ∧ Goes i s b act :=
  ⟨i2, _, sPair, b0, lanes16, rfl, by decide, goes_of (by decide +kernel)⟩
/-- R16: `zr` as the destination. -/
theorem witness_IntegerResult_zr : ∃ i g s b act, Rule.intResult i = some g ∧ i.wf = true ∧ Goes i s b act :=
  ⟨.iadd H .i32 (ops zr (vec 1) (vec 2) zr), _, lab, b0, lanes16, rfl, by decide, goes_of (by decide +kernel)⟩

/-! ## Floating point -/

/-- R121: each half is rounded on its own; 1.0 + 1.0 in the high half, 2^8 + 1/2 in the low one. -/
theorem test_hadd2_bf16 : vr (next (.hadd2 H true .rn (ops (vec 3) (vec 1) (vec 2) zr))
    (setV (setV lab 1 fun _ => 0x3F804380) 2 fun _ => 0x3F803F00)) 3 0 = 0x40004380 := by decide +kernel
theorem test_frnd_minus_half_up : vr (next (.frnd H .rp (ops (vec 3) (vec 1) zr zr)) (setV lab 1 fun _ => 0xBF000000)) 3 0 = 0x80000000 := by decide +kernel
theorem test_fmul_short_immediate : vr (next (.fmul H .rn (ops (vec 3) (vec 2) (imm 3) zr)) (setV lab 2 fun _ => 0x3F800000)) 3 0 = 0x40400000 := by decide +kernel
theorem test_ffma_one_rounding : vr (next (.ffma H .rn (ops (vec 3) (vec 1) (vec 1) (vec 2)))
    (setV (setV lab 1 fun _ => 0x3F800001) 2 fun _ => 0xBF800002)) 3 0 = 0x28800000 := by decide +kernel
theorem test_fclass_signalling : vr (next (.fclass H false (ops (vec 3) (vec 1) zr zr)) (setV lab 1 fun _ => 0x7F800001)) 3 0 = 0x100 := by decide +kernel
theorem test_rcp_minus_zero : lateResult (.rcp H (ops zr zr zr zr)) 0x80000000 0 = 0xFF800000 := by decide +kernel
theorem test_rcp_smallest : lateResult (.rcp H (ops zr zr zr zr)) 1 0 = 0x7F800000 := by decide +kernel

theorem witness_FloatResult : ∃ i g s b act, Rule.floatResult i = some g ∧ i.wf = true ∧ Goes i s b act :=
  ⟨.fadd H .rn (ops (vec 3) (vec 1) (vec 2) zr), _, lab, b0, lanes16, rfl, by decide, goes_of (by decide +kernel)⟩
theorem witness_RoundingIsNearest : ∃ (f : FloatFmt) (num den c : Nat), 1 ≤ f.prec ∧ 0 < num ∧ 0 < den ∧
    f ∈ [f64Fmt, f32Fmt, f16Fmt, bf16Fmt] ∧ c < 2 ^ (f.bits + 1) ∧ f.isNan c = false := ⟨f32Fmt, 1, 3, 0x3F800000, by decide +kernel⟩
def pw : Instr := .pairedWord { feyb := false, feya := false, fexb := false, fexa := false, gn := false, gp := 7, heat := 0, div := false, wby := false, wbx := false }
    { op := .iadd, d := 5, a := 1, b := 2 } { op := .fmul, d := 8, a := 1, b := 2 }
theorem witness_PairedWordResult : pw.wf = true ∧ Goes pw lab b0 lanes16 := ⟨by decide, goes_of (by decide +kernel)⟩
def cvtRs : Instr := .cvt H .f32 .b8 { d := vec 3, a := vec 2, b := imm 0x84, imm := 0x7F }
theorem witness_ConversionResult : cvtRs.wf = true ∧ Goes cvtRs lab b0 lanes16 := ⟨by decide, goes_of (by decide +kernel)⟩
def quant1 : Instr := .quant H .rs (ops (vec 3) (vec 2) zr (uni 4))
/-- FP32 to signed binary8 of precision 4. -/
def sQuant : State := setU lab 4 0x2400
theorem witness_QuantisationResult : quant1.wf = true ∧ Goes quant1 sQuant b0 lanes16 ∧
    quantWordOk ((actAt quant1 b0 lanes16).read (sQuant.warp 1) 0).c = true := ⟨by decide, goes_of (by decide +kernel), by decide +kernel⟩
theorem witness_QuantisationResult_bad : Goes quant1 lab b0 lanes16 ∧
    quantWordOk ((actAt quant1 b0 lanes16).read (lab.warp 1) 0).c = false := ⟨goes_of (by decide +kernel), by decide +kernel⟩

/-! ## Results written later, cross-lane instructions -/

def div1 : Instr := .idiv H .i32 (ops (vec 3) (vec 1) (vec 2) zr)
def sDiv : State := next div1 (setV (setV lab 1 fun l => l) 2 fun _ => 2)
/-- R21: D is empty from issue until the result is written. -/
theorem test_idiv_owed : (((sDiv.warp 1).vreg 3 7).full) = false := by decide +kernel
theorem test_idiv_written : vr (next (.resultWritten { warp := 1, op := 0 }) sDiv) 3 7 = 3 := by decide +kernel

theorem witness_LaterResults_issue : Rule.isLater div1 = true ∧ div1.wf = true ∧ Goes div1 lab b0 lanes16 := ⟨rfl, by decide, goes_of (by decide +kernel)⟩
theorem witness_LaterResults_written : ∃ o, sDiv.opOf { warp := 1, op := 0 } = some o ∧ Rule.isLater o.ins = true ∧
    resultReady sDiv { warp := 1, op := 0 } = true ∧ o.shadow = [] ∧ (sDiv.warp 1).diverged = false :=
  ⟨((sDiv.warp 1).ops.getD 0 { id := 0, ins := div1, pc := 0, lanes := 0, ctr := none }), by decide +kernel⟩
theorem witness_LongOperationValues : ∃ a b x : Nat, a < 2 ^ ITy.i64.bits ∧ b < 2 ^ ITy.i64.bits ∧ 0 < x ∧ x < 0x7F800000 ∧
    0x80000000 < 0x80000000 + x ∧ 0x80000000 + x < 0xFF800000 ∧ (Rule.specialValue (.rcp H (ops zr zr zr zr)) 0x7FC00000).isSome = true :=
  ⟨2 ^ 63, 2 ^ 64 - 1, 1, by decide +kernel⟩

/-- R134: the segment of 8 lanes turns by one. -/
theorem test_xlane_rot_8 : (List.range 9).map (vr (next (.xlane H .rot (ops (vec 3) (vec 1) (imm 1) (imm 8))) (setV lab 1 fun l => l)) 3) = [1, 2, 3, 4, 5, 6, 7, 0, 9] := by decide +kernel
theorem test_scan_exclusive_add : (List.range 4).map (vr (next (.scan H .add .n32 true (ops (vec 3) (vec 1) zr zr)) (setV lab 1 fun l => l + 1)) 3) = [0, 1, 3, 6] := by decide +kernel
theorem test_match_bits : vr (next (.matchLanes H .w32 (ops (vec 4) (vec 1) zr zr)) (setV lab 1 fun l => l % 4)) 4 1 = 0x2222 := by decide +kernel
theorem test_poll_count : ur (next (.poll H .cnt (ops (uni 3) (prd 7) zr zr)) lab) 3 = 16 := by decide +kernel

theorem witness_CrossLaneResult : ∃ i g, Rule.laneResult (lab.warp 1).width lanes16 (fun l => ((actAt i b0 lanes16).read (lab.warp 1) l).a)
    (fun l => ((actAt i b0 lanes16).read (lab.warp 1) l).b) i = some g ∧ i.wf = true ∧ Goes i lab b0 lanes16 :=
  ⟨.xlane H .rot (ops (vec 3) (vec 1) (imm 1) (imm 8)), _, rfl, by decide, goes_of (by decide +kernel)⟩

/-! ## From fetch to issue -/

theorem test_step_issues : ((match step bare with
    | .next t => ((t.warp 1).thread 5).pc
    | _ => 0)) = 12 := by decide +kernel
/-- R13, R56: v64 is beyond the allotment of 64: BOUNDS in field D, which the root's launch does not handle. -/
theorem test_bounds_beyond_allotment : ((next (.mov H .w32 (ops (vec 64) zr zr zr)) lab).reports.map fun r => (r.trap.cause, r.trap.info)) = [(9, 0)] := by decide +kernel
theorem test_trap_code : ((next (.trap H { d := zr, a := zr, b := zr, imm := 0x1234 }) lab).reports.map fun r => (r.trap.cause, r.trap.info)) = [(0x10, 0x1234)] := by decide +kernel
/-- With SOFTWARE in the handler's mask the lanes enter it. -/
def sHandler : State := withRec lab fun r => { r with hmask := 0x10000, hpc := 240 }
theorem test_trap_handled : (((next (.trap H { d := zr, a := zr, b := zr, imm := 0x1234 }) sHandler).warp 1).thread 2).pc = 240 ∧
    (((next (.trap H { d := zr, a := zr, b := zr, imm := 0x1234 }) sHandler).warp 1).thread 0).trappc = 0x4000000000 := by decide +kernel

theorem witness_StepRunsDecoded : ∃ (i : Instr) (rest : List Instr) (s : State), s.agenda = i :: rest := ⟨.partReset, [], State.reset, rfl⟩
theorem witness_StepRunsDecoded_issue : ∃ c w i, bare.agenda = [] ∧ chosen bare (choices bare) = some (.issue c) ∧
    (fetch (bare.warp c.warp) c.run.pc (if 1 < (choices bare).length then bare.draw else bare)).1 = .word w ∧ decode w = .ok i :=
  ⟨{ warp := 1, run := { pc := 0, handler := false, lanes := lanes16 }, demotion := false, clear := false, others := false }, 0x010070000000000000000000, .nop H (ops zr zr zr zr), by decide +kernel, by decide +kernel, by decide +kernel, by decide +kernel⟩

/-- `Issues`, decided. -/
def issuesB (s : State) (b : Bundle) : Bool :=
  decide (s.cur = some b) && s.hasWarp b.warp && ((lanesOf b.lanes).all fun l => decide (l < (s.warp b.warp).threads.length)) &&
    decide ((s.warp b.warp).asyncTrap = none) && decide ((s.warp b.warp).diverged = false)

theorem issues_of {s : State} {b : Bundle} (h : issuesB s b = true) : Issues s b := by
  simp only [issuesB, Bool.and_eq_true, decide_eq_true_eq, List.all_eq_true] at h
  exact ⟨h.1.1.1.1, h.1.1.1.2, h.1.1.2, h.1.2, h.2⟩

def emptyV (s : State) (i : Nat) : State := onW s fun w => each (List.range 16) w fun l w => w.setVreg i l { full := false }
def add1 : Instr := .iadd H .i32 (ops (vec 3) (vec 1) (vec 2) zr)
def add1fe : Instr := .iadd { H with fea := true } .i32 (ops (vec 3) (vec 1) (vec 2) zr)

theorem witness_StepsAnswer : ∃ s : State, s.haltedPart = true ∧ s.agenda = [] := ⟨{ bare with haltedPart := true }, rfl, by decide +kernel⟩

theorem witness_IssueDecides_outside : add1.encoded = true ∧ Issues lab b0 ∧
    ((uses (.mov H .w32 (ops (vec 64) zr zr zr))).any fun u => u.outside (lab.warp 1) 0) = true ∧
    ((uses add1).all fun u => !u.outside (lab.warp 1) 0) = true :=
  ⟨rfl, issues_of (by decide +kernel), by decide +kernel, by decide +kernel⟩
/-- An empty source with FE = 1, one with FE = 0, and an owed destination. -/
theorem witness_IssueDecides_empty :
    (findUse (uses add1fe) lanes16 fun u l => u.fe && u.reads && u.empty ((emptyV lab 1).warp 1) ((emptyV lab 1).warpBlock ((emptyV lab 1).warp 1)) l) = some (0, 1) ∧
    (match check add1 b0 (emptyV lab 1) with
      | .wait => true
      | _ => false) = true ∧
    (match check add1 b0 (emptyV lab 3) with
      | .wait => true
      | _ => false) = true := by decide +kernel
def sBad : State := onW lab fun w => w.setVreg 1 4 { bad := true }
theorem witness_IssueDecides_bad : Issues sBad b0 ∧ (match check add1 b0 sBad with
    | .consumed => true
    | _ => false) = true := ⟨issues_of (by decide +kernel), by decide +kernel⟩

theorem witness_FetchTraps : Issues lab b0 ∧ lanesOf b0.lanes ≠ [] ∧ (lab.warpLaunch (lab.warp 1)).len ≤ (0xFFFFFFFC : Word).toNat ∧
    (0xFFFFFFFC : Word).toNat % 12 = 0 := ⟨issues_of (by decide +kernel), by decide +kernel, by decide +kernel, by decide⟩
def inHandler (s : State) : State := onW s fun w => w.onThreads (List.range 16) fun t => { t with handler := true }
theorem witness_DoubleTraps : Issues (inHandler lab) b0 ∧ Goes (.trap H { d := zr, a := zr, b := zr, imm := 1 }) (inHandler lab) b0 lanes16 :=
  ⟨issues_of (by decide +kernel), goes_of (by decide +kernel)⟩
def sAsync : State := onW lab fun w => { w with asyncTrap := some (3, 24, { cause := 9 }) }
theorem witness_AsyncTrapReported : add1.encoded = true ∧ sAsync.cur = some b0 ∧ sAsync.hasWarp 1 = true ∧ 3 < (sAsync.warp 1).threads.length ∧
    (sAsync.warp 1).asyncTrap = some (3, 24, { cause := 9 }) := by decide +kernel

def tret1 : Instr := .tret H (ops zr (vec 1) zr zr)
theorem test_tret_returns : ((((next tret1 (inHandler (setV lab 1 fun _ => 36))).warp 1).thread 5).pc, (((next tret1 (inHandler lab)).warp 1).thread 5).handler) = (36, false) := by decide +kernel
theorem test_tret_permission : ((next tret1 lab).reports.map fun r => r.trap.cause) = [4] := by decide +kernel
theorem witness_TrapsAndReturns_tret : Goes tret1 (inHandler lab) b0 lanes16 ∧ (((inHandler lab).warp 1).thread 0).handler = true ∧
    Goes tret1 lab b0 lanes16 := ⟨goes_of (by decide +kernel), by decide +kernel, goes_of (by decide +kernel)⟩
theorem witness_TrapsAndReturns_trap : Goes (.trap H { d := zr, a := zr, b := zr, imm := 1 }) sHandler b0 lanes16 ∧
    (sHandler.warpLaunch (sHandler.warp 1)).record.hmask.getLsbD 16 = true := ⟨goes_of (by decide +kernel), by decide +kernel⟩
/-- Debugging needs a world other than 0. -/
def sDebug : State := withRec lab fun r => { r with debug := true, world := 1 }
def bkpt1 : Instr := .bkpt H (ops zr zr zr (imm 7))
theorem test_bkpt_posts : (next bkpt1 sDebug).mgmt.dbgev.getLsbD 63 = true ∧ ((next bkpt1 sDebug).warp 1).stopped = true := by decide +kernel
theorem test_bkpt_breakpoint : ((next bkpt1 lab).reports.map fun r => (r.trap.cause, r.trap.info)) = [(0x0B, 7)] := by decide +kernel
theorem witness_TrapsAndReturns_bkpt : Goes bkpt1 sDebug b0 lanes16 ∧ (sDebug.warpLaunch (sDebug.warp 1)).record.debug = true ∧
    (sDebug.warpLaunch (sDebug.warp 1)).record.world = 1 ∧ sDebug.mgmt.dbgev.getLsbD 63 = false ∧ Goes bkpt1 lab b0 lanes16 :=
  ⟨goes_of (by decide +kernel), by decide +kernel, by decide +kernel, by decide +kernel, goes_of (by decide +kernel)⟩

/-! ## Control -/

def call1 : Instr := .call H { d := vec 3, a := zr, imm := 120 }
theorem test_call_links : vr (next call1 lab) 3 9 = 12 ∧ (((next call1 lab).warp 1).thread 9).pc = 120 := by decide +kernel
def loop1 : Instr := .loop H { d := uni 12, a := uni 12, b := zr, imm := 0xFFEE }
theorem witness_TransfersAndLoops : ∃ g, Rule.target call1 = some g ∧ call1.wf = true ∧ Goes call1 lab b0 lanes16 ∧
    loop1.wf = true ∧ Goes loop1 lab b0 lanes16 := ⟨_, rfl, by decide, goes_of (by decide +kernel), by decide, goes_of (by decide +kernel)⟩

def nap1 (n : Nat) : Instr := .nap H { d := zr, a := zr, b := zr, imm := .ofNat 16 n }
theorem test_nap_0 : (((next (nap1 0) lab).warp 1).thread 0).status = .running := by decide +kernel
theorem test_nap_5 : (((next (nap1 5) lab).warp 1).thread 0).status = .blocked .nap ∧ (((next (nap1 5) lab).warp 1).thread 0).nap = 5 := by decide +kernel
def sNapped : State := onW lab fun w => w.onThread 2 fun t => { t with status := .blocked .nap }
theorem witness_ThreadsRest : Goes (.nop H (ops zr zr zr zr)) lab b0 lanes16 ∧ Goes (.yield H (ops zr zr zr zr)) lab b0 lanes16 ∧ Goes (nap1 0) lab b0 lanes16 ∧
    (sNapped.hasWarp 1 = true ∧ (sNapped.warp 1).retired = false ∧ (sNapped.warp 1).stopped = false ∧ (sNapped.gang (sNapped.warp 1).gang).state = .placed ∧
      ((sNapped.warp 1).thread 2).status = .blocked .nap ∧ ((sNapped.warp 1).thread 2).nap = 0) ∧
    ∃ s : State, s.hasWarp 1 = true ∧ (s.warp 1).demote = false ∧ max 4 (s.cluster (s.warpGang (s.warp 1)).cluster).plim.toNat ≤ (s.warp 1).progress :=
  ⟨goes_of (by decide +kernel), goes_of (by decide +kernel), goes_of (by decide +kernel), by decide +kernel,
    onW lab fun w => { w with progress := 4096 }, by decide +kernel⟩

def exit1 : Instr := .exit H (ops zr zr zr zr)
theorem test_exit_ends_the_launch : (next exit1 lab).warps = [] ∨ ((next exit1 lab).warps.all fun w => w.retired) = true := by decide +kernel
theorem witness_ThreadsEnd : Goes exit1 lab b0 lanes16 ∧ (lab.warp 1).threads.length = (lab.warp 1).width ∧ (lab.warp 1).stopped = false ∧
    (lab.hasWarp 1 = true ∧ (lab.warp 1).retired = false ∧ 15 < (lab.warp 1).width ∧ ((lab.warp 1).thread 15).status ≠ .exited ∧
      ((lab.warp 1).thread 15).status ≠ .discarded ∧ (lab.gang (lab.warp 1).gang).state = .placed) ∧
    ((sDiv.warp 1).ops.any fun o => o.ctr.isSome && !o.finished && decide (o.id < (sDiv.warp 1).nextOp)) = false :=
  ⟨goes_of (by decide +kernel), by decide +kernel, by decide +kernel, by decide +kernel, by decide +kernel⟩

/-- Role 3 is defined: 16 vector and 8 uniform registers, entry 48. -/
def sRoles : State := { lab with launches := lab.launches.map fun l => { l with roles := [{}, {}, {}, { entry := 48, prio := 1, nu := 8, nv := 16, valid := true }] } }
def role1 (n : Nat) : Instr := .role H { d := zr, a := zr, b := zr, imm := .ofNat 16 n }
theorem test_role_runs_from_its_entry : (((next (role1 3) sRoles).warp 1).thread 0).pc = 48 ∧ ((next (role1 3) sRoles).warp 1).nv = 16 := by decide +kernel
theorem test_role_undefined : ((next (role1 2) sRoles).reports.map fun r => r.trap.cause) = [9] := by decide +kernel
def sArrived : State := onW sRoles fun w => w.onThreads (List.range 16) fun t => { t with status := .blocked (.role 3) }
theorem witness_RolesChange : Goes (role1 3) sRoles b0 lanes16 ∧ Goes (role1 2) sRoles b0 lanes16 ∧ (sArrived.warps.map fun w => w.uid).Nodup ∧
    (((sArrived.blockWarps (sArrived.warp 1).gang 0).filter fun w => !w.retired).any fun w => w.live != []) = true ∧
    (((sArrived.blockWarps (sArrived.warp 1).gang 0).filter fun w => !w.retired).all fun w => w.live.all fun l => decide ((w.thread l).status = .blocked (.role 3))) = true ∧
    (((sArrived.blockWarps (sArrived.warp 1).gang 0).filter fun w => !w.retired).all fun w => w.ops.all fun o => !(o.ctr.isSome && decide (o.id < w.nextOp)) || o.finished) = true :=
  ⟨goes_of (by decide +kernel), goes_of (by decide +kernel), by decide +kernel, by decide +kernel, by decide +kernel, by decide +kernel⟩

def decl1 : Instr := .decl H (ops (cnv 1) (uni 0) zr zr)
def cvsign1 : Instr := .cvsign H (ops (cnv 1) zr zr zr)
def sDeclared : State := { next decl1 (setU lab 0 0xFFFF) with cur := some b0 }
theorem test_decl_then_sign : ((next cvsign1 sDeclared).warpBlock (lab.warp 1)).cv.getD 1 {} = { idle := false, declared := 0xFFFF, signed := 0xFFFF, warp := 0 } := by decide +kernel
theorem test_cvsign_idle : ((next cvsign1 lab).reports.map fun r => (r.trap.cause, r.trap.info)) = [(6, 1)] := by decide +kernel
theorem witness_ConvergenceRegisters : Goes decl1 (setU lab 0 0xFFFF) b0 lanes16 ∧ Goes cvsign1 sDeclared b0 lanes16 ∧ Goes cvsign1 lab b0 lanes16 ∧
    (((sDeclared.warpBlock (sDeclared.warp 1)).cv.getD 1 {}).idle = false ∧ ((sDeclared.warpBlock (sDeclared.warp 1)).cv.getD 1 {}).warp = (sDeclared.warp 1).num) :=
  ⟨goes_of (by decide +kernel), goes_of (by decide +kernel), goes_of (by decide +kernel), by decide +kernel⟩

def rdsr1 : Instr := .rdsr H (ops (vec 3) (spc 0x00) zr zr)
def wrsr1 (k : Nat) : Instr := .wrsr H (ops (spc k) (vec (if k = 0x1C then 4 else 2)) zr zr)
theorem test_rdsr_lane : vr (next rdsr1 lab) 3 11 = 11 := by decide +kernel
theorem test_wrsr_trap_register_normal : ((next (wrsr1 0x1B) lab).reports.map fun r => r.trap.cause) = [4] := by decide +kernel
theorem witness_SpecialRegisters : rdsr1.wf = true ∧ Goes rdsr1 lab b0 lanes16 ∧ Goes (wrsr1 0x19) lab b0 lanes16 ∧ Goes (wrsr1 0x1B) lab b0 lanes16 ∧
    Goes (wrsr1 0x1E) (inHandler lab) b0 lanes16 ∧ Goes (wrsr1 0x1F) lab b0 lanes16 :=
  ⟨by decide, goes_of (by decide +kernel), goes_of (by decide +kernel), goes_of (by decide +kernel), goes_of (by decide +kernel), goes_of (by decide +kernel)⟩

/-! ## Memory -/

/-- s0:s1 is 0x1000, v1 the lane's word, v2 the lane's number plus 0x100; the line at 0x1000 is present and holds 0, 1, 2, …. -/
def sMem : State :=
  setV (setV (setU (withLine lab 0x1000 ((List.range 128).map fun k => .ofNat 8 k)) 0 0x1000) 1 fun l => 4 * l) 2 fun l => l + 0x100
def ref0 : OpRef := { warp := 1, op := 0 }
def op0 (s : State) : Op := (s.warp 1).ops.getD 0 { id := 99, ins := .partReset, pc := 0, lanes := 0, ctr := none }
def ld1 : Instr := .ld H .b32 false false (ops (vec 3) (uni 0) (vec 1) zr)
def ldb1 : Instr := .ldb H .b32 (ops (vec 3) (uni 0) (imm 3) zr)
def st1 : Instr := .st H .b32 (ops zr (uni 0) (vec 1) (vec 2))
def strel1 : Instr := .stRel H .b32 (ops zr (uni 0) (vec 1) (vec 2))
def sts1 : Instr := .sts H .b16 (ops zr zr (vec 1) (vec 2))
def lds1 : Instr := .lds H .b8 true (ops (vec 3) zr (vec 1) zr)
def atom1 : Instr := .atom H .add .n32 .none (ops (vec 3) (uni 0) zr (imm 1))
def atoms1 : Instr := .atoms (hdr 2) .cas .n32 (ops (vec 3) zr zr (vec 4))
def agg1 : Instr := .atomAgg H .n32 (ops (vec 3) (uni 0) zr (imm 2))

def sLd : State := next ld1 sMem
theorem test_ld_waits : ((sLd.warp 1).vreg 3 2).full = false ∧ (op0 sLd).ctr = some .mem := by decide +kernel
theorem test_ld_little_endian : vr (next (.loadDataArrival ref0) sLd) 3 2 = 0x0B0A0908 := by decide +kernel
theorem test_ldb_unaligned : vr (next (.loadDataArrival ref0) (next ldb1 sMem)) 3 0 = 0x06050403 := by decide +kernel
/-- R147: the gang reads its own store; others read the committed line until a release. -/
def sSt : State := next (.storeRegister ref0) (next st1 sMem)
theorem test_st_is_the_gangs : homeByte sSt (some 0) 0x1008 = 0x02 ∧ homeByte sSt none 0x1008 = 0x08 := by decide +kernel
theorem test_st_rel_commits : homeByte (next (.storeRegister ref0) (next strel1 sMem)) none 0x1009 = 0x01 := by decide +kernel
def sSts : State := next (.storeRegister ref0) (next sts1 sMem)
theorem test_sts_low_half : ((sSts.warpBlock (sSts.warp 1)).scratch.bytes 8 4) = [0x02, 0x01, 0, 0] := by decide +kernel
theorem test_misaligned : ((next ld1 (setU sMem 0 0x1002)).reports.map fun r => (r.trap.cause, r.trap.addr)) = [(2, 0x1002)] := by decide +kernel
theorem test_not_canonical : ((next ld1 (setU sMem 1 0x10000000)).reports.map fun r => (r.trap.cause, r.trap.addr)) = [(3, 0x1000000000001000)] := by decide +kernel
theorem test_gather_beyond : ((next ldb1 (setU (setU sMem 0 0xFFFFFFFB) 1 0x0FFFFFFF)).reports.map fun r => (r.trap.cause, r.trap.addr)) = [(3, 0x1000000000000000)] := by decide +kernel
theorem test_scratch_bounds : ((next sts1 (setV sMem 1 fun _ => 0x10000)).reports.map fun r => (r.trap.cause, r.trap.addr)) = [(9, 0x10000)] := by decide +kernel
/-- R154: sixteen lanes add 1 to one word that holds 0x03020100. -/
def sAtom : State := next (.atomicPerform ref0) (next atom1 sMem)
theorem test_atom_lane_order : [vr sAtom 3 0, vr sAtom 3 15] = [0x03020100, 0x0302010F] ∧ homeByte sAtom none 0x1000 = 0x10 := by decide +kernel
def sAgg : State := next (.atomicPerform ref0) (next agg1 sMem)
theorem test_atom_agg_offsets : [vr sAgg 3 0, vr sAgg 3 3] = [0x03020100, 0x03020106] ∧ homeByte sAgg none 0x1000 = 0x20 := by decide +kernel

def reachesB (s : State) (k n : Nat) (a : Acc) : Bool := (List.range n).all fun j => linePresent s (k + j) && lineAllows s (k + j) a

theorem witness_AccessesIssueOrTrap : Rule.access ld1 = some { global := true, size := 4, align := 4, kind := .read } ∧ ld1.wf = true ∧ Goes ld1 sMem b0 lanes16 ∧
    (lanes16.all fun l => reachesB sMem (0x1000 + 4 * l) 4 .read) = true ∧
    Rule.access sts1 = some { global := false, size := 2, align := 2, kind := .write } ∧ sts1.wf = true ∧ Goes sts1 sMem b0 lanes16 ∧
    (scrTarget sMem (sMem.warp 1) 0xFFFE 2).isSome = true ∧ (scrTarget sMem (sMem.warp 1) 0xFFFF 2).isSome = false :=
  ⟨rfl, by decide, goes_of (by decide +kernel), by decide +kernel, rfl, by decide, goes_of (by decide +kernel), by decide +kernel, by decide +kernel⟩
/-- The ends of the block and of its gang window (R26). -/
theorem witness_ScratchpadMap : sMem.scrSize (sMem.warp 1).gang = 65536 ∧ (sMem.gang (sMem.warp 1).gang).blocks.length = 1 ∧
    scrTarget sMem (sMem.warp 1) 0x0200FFFF 1 = some (0, 0xFFFF) ∧ scrTarget sMem (sMem.warp 1) 0x02010000 1 = none ∧
    scrTarget sMem (sMem.warp 1) 0x02100000 1 = none := by decide +kernel

theorem witness_LoadDelivers : sLd.opOf ref0 = some (op0 sLd) ∧ (op0 sLd).ins = ld1 ∧ loadReady sLd ref0 = true ∧
    ((op0 sLd).slots.all fun x => decide (x.addr % 4 = 0) && linePresent sLd x.addr && !Store.get false (sLd.cache (sLd.warpCore (sLd.warp 1))).lines (x.addr / 128) &&
      !poisonedAt sLd (some 0) .line (x.addr / 128 * 128) 128) = true ∧ Store.wf none (sLd.cache (sLd.warpCore (sLd.warp 1))).l1 = true := by decide +kernel
/-- After a first load the core's L1 holds the words. -/
def sLd2 : State := next ld1 { next (.loadDataArrival ref0) sLd with cur := some b0 }
def ref1 : OpRef := { warp := 1, op := 1 }
theorem witness_LoadDelivers_l1 : loadReady sLd2 ref1 = true ∧ ((sLd2.opOf ref1).any fun o => o.slots.all fun x =>
    sLd2.l1Serves (sLd2.warpCore (sLd2.warp 1)) (some 0) x.addr 4) = true := by decide +kernel
/-- The gang's own stores leave the words owned. -/
def sOwn : State :=
  let s := next st1 { next (.loadDataArrival ref0) sLd with cur := some b0 }
  next (.ldAcq H .b32 false (ops (vec 3) (uni 0) (vec 1) zr)) { next (.storeRegister ref1) s with cur := some b0 }
theorem witness_LoadDelivers_acq : loadReady sOwn { warp := 1, op := 2 } = true ∧ ((sOwn.opOf { warp := 1, op := 2 }).any fun o => o.slots != [] && o.slots.all fun x =>
    sOwn.l1Serves (sOwn.warpCore (sOwn.warp 1)) (some 0) x.addr 4 && (sOwn.cache (sOwn.warpCore (sOwn.warp 1))).owns x.addr 4) = true := by decide +kernel
def sLds : State := next lds1 sMem
theorem witness_LoadDelivers_lds : loadReady sLds ref0 = true ∧ ((op0 sLds).slots.all fun x =>
    decide (scrTarget sLds (sLds.warp 1) x.addr 1 = some (0, x.addr)) && !scrBad sLds 0 (0, x.addr) 1) = true := by decide +kernel

/-- LDC: the line is fetched, then the constant cache holds it. -/
def ldc1 : Instr := .ldc H .b32 (ops (vec 3) (uni 0) (vec 1) zr)
def sLdc : State := next ldc1 sMem
def sLdc2 : State := next ldc1 { next (.loadDataArrival ref0) sLdc with cur := some b0 }
theorem test_ldc_delivers : vr (next (.loadDataArrival ref1) sLdc2) 3 2 = 0x0B0A0908 := by decide +kernel
theorem witness_LoadDelivers_ldc : loadReady sLdc ref0 = true ∧ (op0 sLdc).ins = ldc1 ∧ Store.wf none (sLdc.cache (sLdc.warpCore (sLdc.warp 1))).consts = true ∧
    ((op0 sLdc).slots.all fun x => decide (x.addr % 4 = 0) && linePresent sLdc x.addr && !poisonedAt sLdc (some 0) .line (x.addr / 128 * 128) 128 &&
      (List.range 128).all fun j => (Store.get none (sLdc.cache (sLdc.warpCore (sLdc.warp 1))).consts (x.addr / 128 * 128 + j)).isNone) = true ∧
    loadReady sLdc2 ref1 = true ∧ (sLdc2.gang 0).shadows = [] ∧ ((sLdc2.opOf ref1).any fun o => o.slots.all fun x =>
      (List.range 4).all fun j => (Store.get none (sLdc2.cache (sLdc2.warpCore (sLdc2.warp 1))).consts (x.addr + j)).isSome) = true := by decide +kernel
/-- LDB: each byte from the home slice, then from L1. -/
def sLdb : State := next ldb1 sMem
def sLdb2 : State := next ldb1 { next (.loadDataArrival ref0) sLd with cur := some b0 }
theorem witness_LoadDelivers_ldb : loadReady sLdb ref0 = true ∧ (op0 sLdb).ins = ldb1 ∧ ((op0 sLdb).slots.all fun x => (List.range 4).all fun j =>
      linePresent sLdb (x.addr + j) && !Store.get false (sLdb.cache (sLdb.warpCore (sLdb.warp 1))).lines ((x.addr + j) / 128) &&
        !poisonedAt sLdb (some 0) .line ((x.addr + j) / 128 * 128) 128) = true ∧
    loadReady sLdb2 ref1 = true ∧ ((sLdb2.opOf ref1).any fun o => o.slots.all fun x => (List.range 4).all fun j =>
      sLdb2.l1Serves (sLdb2.warpCore (sLdb2.warp 1)) (some 0) (x.addr + j) 1) = true := by decide +kernel
/-- LD.near of one lane, at home in slice 32: the line is copied to the slice near the core, and served from there. -/
def ldNear1 : Instr := .ld H .b32 true false (ops (vec 3) (uni 0) (vec 1) zr)
def sNearLd : State := next ldNear1 { sMem with cur := some { b0 with lanes := 1 } }
def sNearLd2 : State := next ldNear1 { sMem with
  cur := some { b0 with lanes := 1 }
  mem := { sMem.mem with replicas := [{ slice := nearSlice (sMem.warpCore (sMem.warp 1)), line := 0x20, launch := (sMem.warpLaunch (sMem.warp 1)).uid, bytes := List.replicate 128 9 }] } }
theorem test_near_replica : vr (next (.loadDataArrival ref0) sNearLd2) 3 0 = 0x09090909 := by decide +kernel
theorem witness_LoadDelivers_near : loadReady sNearLd ref0 = true ∧ (op0 sNearLd).ins = ldNear1 ∧ ((op0 sNearLd).slots.map fun x => (x.addr, x.answer)) = [(0x1000, none)] ∧
    nearSlice (sNearLd.warpCore (sNearLd.warp 1)) ≠ sliceOf 0x1000 ∧ (sNearLd.gang 0).shadows = [] ∧ sNearLd.l1Serves (sNearLd.warpCore (sNearLd.warp 1)) (some 0) 0x1000 4 = false ∧
    replicaOf sNearLd (nearSlice (sNearLd.warpCore (sNearLd.warp 1))) (sNearLd.warpLaunch (sNearLd.warp 1)).uid (0x1000 / 128) = none ∧
    poisonedAt sNearLd none .line 0x1000 128 = false ∧ poisonedAt sNearLd (some 0) .line 0x1000 128 = false ∧ linePresent sNearLd 0x1000 = true := by decide +kernel
theorem witness_LoadDelivers_replica : (replicaOf sNearLd2 (nearSlice (sNearLd2.warpCore (sNearLd2.warp 1))) (sNearLd2.warpLaunch (sNearLd2.warp 1)).uid (0x1000 / 128)).any (fun q => q.bad == []) = true ∧
    loadReady sNearLd2 ref0 = true ∧ sNearLd2.l1Serves (sNearLd2.warpCore (sNearLd2.warp 1)) (some 0) 0x1000 4 = false := by decide +kernel

def stOkB (s : State) : Bool :=
  let g := s.gang (s.warp 1).gang
  storeReady s ref0 && decide ((op0 s).state = .notSent) && s.hasGang (s.warp 1).gang && decide ((s.gangs.map fun g => g.uid).Nodup) && Store.wf none g.version &&
    (op0 s).slots.all fun x => decide (x.addr % 4 = 0) && reachesB s x.addr 1 .write && (g.shadows.all fun l => linePresent s (128 * l)) &&
      decide (x.addr / 128 ∈ g.shadows ∨ (shadowsInSet s (setOf x.addr) + (op0 s).slots.length ≤ 4 ∧ waysUsed s (setOf x.addr) + (op0 s).slots.length ≤ 16))
/-- Three lanes store: what is in the version's set leaves room for them. -/
def st3 (i : Ops → Instr) : State := next (i (ops zr (uni 0) (vec 1) (vec 2))) { sMem with cur := some { b0 with lanes := 7 } }
theorem witness_StoresRegister : stOkB (st3 (.st H .b32 ·)) = true ∧ stOkB (st3 (.stRel H .b32 ·)) = true ∧
    storeReady (next sts1 sMem) ref0 = true ∧ (next sts1 sMem).hasGang ((next sts1 sMem).warp 1).gang = true := by decide +kernel

def atomOkB (s : State) : Bool :=
  let w := s.warp 1
  atomReady s ref0 && (op0 s).slots != [] && ((op0 s).slots.all fun x => decide (x.addr = 0x1000)) && decide (((op0 s).slots.map fun x => x.tag).Nodup) &&
    ((op0 s).slots.all fun x => x.half == 0 && (tagFind (sliceTags s (sliceOf 0x1000)) (s.tagEntry w x.tag (op0 s).ins 0x1000 0)).isNone) &&
    reachesB s 0x1000 4 .write && !poisonedAt s none .line 0x1000 4
theorem witness_AtomicsPerform : atomOkB (next atom1 sMem) = true ∧ atomOkB (next agg1 sMem) = true ∧ agg1.wf = true ∧ Goes agg1 sMem b0 lanes16 :=
  ⟨by decide +kernel, by decide +kernel, by decide, goes_of (by decide +kernel)⟩
/-- One lane adds two halves: either may be first (R153). -/
def sPack : State := next (.atom H .add .bf16x2 .none (ops (vec 3) (uni 0) zr (vec 2))) { sMem with cur := some { b0 with lanes := 1 } }
theorem witness_AtomicsPerform_half : (0, 1) ∈ opParts sPack ref0 ∧ (0, 2) ∈ opParts sPack ref0 ∧ atomOkB sPack = true := by decide +kernel
/-- One lane's predicate p2 is set. -/
def sOne : State := onW sMem fun w => w.onThread 5 fun t => { t with preds := 4 }
def sAtoms : State := next atoms1 sOne
theorem witness_AtomicsPerform_scratch : atomReady sAtoms ref0 = true ∧ 0 < (sAtoms.gang 0).blocks.length ∧ (op0 sAtoms).slots.length = 1 ∧
    ((op0 sAtoms).slots.all fun x => decide (scrTarget sAtoms (sAtoms.warp 1) x.addr 4 = some (0, 0)) && !scrBad sAtoms 0 (0, 0) 4 &&
      x.half == 0 && (tagFind (sAtoms.block 0 0).tags (sAtoms.tagEntry (sAtoms.warp 1) x.tag (op0 sAtoms).ins x.addr 0)).isNone) = true := by decide +kernel

/-- A release and acquire of one lane, the gang holding a version; the same behind a load on its way. -/
def atomAR : Instr := .atom H .add .n32 .acqRel (ops (vec 8) (uni 0) zr (imm 1))
def sOrd : State := next atomAR { sSt with cur := some { b0 with pc := 12, lanes := 1 } }
def sHeldAtom : State := next atomAR { sLd with cur := some { b0 with pc := 12, lanes := 1 } }
theorem test_atom_release : homeByte (next (.atomicPerform ref1) sOrd) none 0x1008 = 0x02 ∧ vr (next (.atomicPerform ref1) sOrd) 8 0 = 0x100 := by decide +kernel
theorem witness_AtomicsPerform_ordered : atomReady sOrd ref1 = true ∧ ((sOrd.opOf ref1).any fun o => o.ins == atomAR && o.slots.length == 1 && o.slots.all fun x =>
      x.addr == 0x1000 && x.half == 0 && (tagFind (sliceTags sOrd (sliceOf 0x1000)) (sOrd.tagEntry (sOrd.warp 1) x.tag o.ins x.addr 0)).isNone) = true ∧
    reachesB sOrd 0x1000 4 .write = true ∧ poisonedAt sOrd none .line 0x1000 4 = false ∧ (sOrd.gang 0).badVersion = [] ∧ sOrd.hasGang 0 = true ∧
    Store.wf none (sOrd.gang 0).version = true ∧ ((sOrd.gang 0).shadows.all fun l => linePresent sOrd (l * 128)) = true ∧
    Store.wf none (sOrd.cache (sOrd.warpCore (sOrd.warp 1))).l1 = true := by decide +kernel
theorem witness_AtomicsPerform_released : Rule.isOrdered atomAR .add .n32 true true ∧ ((sHeldAtom.opOf ref1).any fun o => o.ins == atomAR &&
    (sHeldAtom.warp 1).ops.any fun q => decide (q.id < o.id) && !q.performed && !q.finished && isMemEvent q.ins && decide (q.lanes &&& o.lanes ≠ 0)) = true :=
  ⟨⟨H, _, .inl ⟨.acqRel, rfl, by simp, by simp⟩⟩, by decide +kernel⟩

/-! ## Fences, seals, barriers -/

def fence (k : Nat) : Instr := if k = 1 then .fenceAcq H (ops zr zr zr zr) else if k = 2 then .fenceRel H (ops zr zr zr zr) else .fenceAcqRel H (ops zr zr zr zr)
/-- The gang holds a version, and has been selected for its next word. -/
def sVer : State := { sSt with cur := some { b0 with pc := 12 } }
theorem test_fence_rel_commits : homeByte (next (fence 2) sVer) none 0x1008 = 0x02 ∧ ((next (fence 2) sVer).gang 0).version = [] := by decide +kernel
theorem test_fence_acq_keeps_version : homeByte (next (fence 1) sVer) none 0x1008 = 0x08 := by decide +kernel
def b12 : Bundle := { b0 with pc := 12 }
def waitc1 : Instr := .waitc H (ops zr (spc 0x40) (imm 0) zr)
theorem witness_Fences : Goes (fence 1) sVer b12 lanes16 ∧ Goes (fence 2) sVer b12 lanes16 ∧ Goes (fence 3) sVer b12 lanes16 ∧ Goes waitc1 sVer b12 lanes16 ∧
    (sVer.hasGang (sVer.warp 1).gang = true ∧ Store.wf none (sVer.gang (sVer.warp 1).gang).version = true ∧ ((sVer.gang 0).shadows.all fun l => linePresent sVer (l * 128)) = true ∧
      Store.wf none (sVer.cache (sVer.warpCore (sVer.warp 1))).l1 = true ∧ (sVer.warp 1).count .mem = 0) :=
  ⟨goes_of (by decide +kernel), goes_of (by decide +kernel), goes_of (by decide +kernel), goes_of (by decide +kernel), by decide +kernel⟩
/-- With a load on its way, WAITC and SEAL wait (R158, R162). -/
def sBusy : State := setU { sLd with cur := some b12 } 20 24
def sWait : State := next waitc1 sBusy
/-- EXIT waits for the load too (R111). -/
theorem witness_ThreadsEnd_waits : Goes exit1 sBusy b12 lanes16 ∧ ((sBusy.warp 1).ops.any fun o => o.ctr.isSome && !o.finished && decide (o.id < (sBusy.warp 1).nextOp)) = true ∧
    (((next exit1 sBusy).warp 1).thread 5).status = .blocked (.exit 1) := ⟨goes_of (by decide +kernel), by decide +kernel, by decide +kernel⟩
theorem witness_Fences_wait : Goes waitc1 sBusy b12 lanes16 ∧ (sBusy.warp 1).count .mem = 1 :=
  ⟨goes_of (by decide +kernel), by decide +kernel⟩
theorem test_waitc_blocks : ((sWait.warp 1).thread 5).status = .blocked (.count .mem 0) ∧
    ((next (.loadDataArrival ref0) sWait).warp 1).count .mem = 0 := by decide +kernel
def seal1 : Instr := .sealVersion H (ops zr (uni 20) (uni 4) zr)
def sSeal : State := setU (setU sVer 20 24) 7 0x77
theorem test_seal_records : ((next seal1 sSeal).gang 0).retained.rpc = 24 ∧ ((next seal1 sSeal).gang 0).retained.vals.getD 3 0 = 0x77 ∧
    ((next seal1 sSeal).gang 0).retained.sealNo = 1 := by decide +kernel
theorem test_seal_bad_pc : ((next seal1 (setU sVer 20 10)).reports.map fun r => r.trap.cause) = [9] := by decide +kernel
theorem witness_Seal : Goes seal1 sSeal b12 lanes16 ∧ Goes seal1 (setU sVer 20 10) b12 lanes16 ∧
    (sSeal.hasGang (sSeal.warp 1).gang = true ∧ ((actAt seal1 b12 lanes16).read (sSeal.warp 1) 0).a = 24 ∧ (sSeal.warp 1).ops = [] ∧ ((sSeal.gang 0).shadows.all fun l => linePresent sSeal (l * 128)) = true ∧ 24 < (sSeal.warpLaunch (sSeal.warp 1)).len) :=
  ⟨goes_of (by decide +kernel), goes_of (by decide +kernel), by decide +kernel⟩
def sSealing : State := next seal1 sBusy
def sealsNow : State := settleSeal 1 0 (next (.loadDataArrival ref0) sSealing)
theorem witness_Seal_waits : Goes seal1 sBusy b12 lanes16 ∧ ((sBusy.warp 1).ops.any fun o => isMemOp o.ins && !o.performed && decide (o.id < (sBusy.warp 1).nextOp) && o.lanes.getLsbD 0) = true ∧
    (sSealing.hasWarp 1 = true ∧ (sSealing.warp 1).stopped = false ∧ (match ((sSealing.warp 1).thread 0).status with
      | .blocked (.sealing l n _ _ vals) => decide (l = 0) && decide (n = 1) && decide (vals.length = 16)
      | _ => false) = true ∧ (sSealing.gang 0).retained.sealNo ≠ 0xFFFFFFFF ∧ Store.wf none (sSealing.gang 0).version = true ∧
      ((sSealing.gang 0).shadows.all fun l => linePresent sSealing (l * 128)) = true ∧ (sealsNow.gang 0).retained.sealNo = 1 ∧
      ((next (.loadDataArrival ref0) sSealing).warp 1).ops = []) :=
  ⟨goes_of (by decide +kernel), by decide +kernel, by decide +kernel⟩
def pref1 : Instr := .pref H (ops zr (uni 0) zr zr)
theorem witness_Prefetch : pref1.wf = true ∧ Goes pref1 sMem b0 lanes16 ∧ loadReady (next pref1 sMem) ref0 = true ∧ ((op0 (next pref1 sMem)).slots.all fun x => linePresent (next pref1 sMem) x.addr) = true :=
  ⟨by decide, goes_of (by decide +kernel), by decide +kernel, by decide +kernel⟩

def bar1 : Instr := .bar H (ops zr zr zr zr)
def gbar1 : Instr := .gbar H (ops zr zr zr zr)
/-- With no other warp, the arrival completes the barrier. -/
theorem test_bar_alone : (((next bar1 lab).warp 1).thread 3).status = .running ∧ (((next gbar1 lab).warp 1).thread 3).status = .running := by decide +kernel
/-- Half of the warp waits. -/
theorem test_bar_half : (((next bar1 { lab with cur := some { b0 with lanes := 0xFF } }).warp 1).thread 3).status = .blocked (.bar 0) := by decide +kernel
def sBars : State := onW lab fun w => w.onThreads (List.range 16) fun t => { t with status := .blocked (.bar 0) }
theorem witness_Barriers : Goes bar1 lab b0 lanes16 ∧ Goes gbar1 lab b0 lanes16 ∧ (sBars.warps.map fun w => w.uid).Nodup ∧
    (((sBars.blockWarps 0 0).filter fun w => !w.retired).all fun w => w.live != [] && (w.live.all fun l => decide ((w.thread l).status = .blocked (.bar 0))) && w.ops == []) = true :=
  ⟨goes_of (by decide +kernel), goes_of (by decide +kernel), by decide +kernel, by decide +kernel⟩

def baroInit1 : Instr := .baroInit H (ops zr (uni 30) zr (imm 2))
def baroArrive1 : Instr := .baroArrive H (ops (uni 9) (uni 30) zr (imm 1))
def baroWait1 : Instr := .baroWait H (ops zr (uni 30) zr (uni 31))
def baroQuery1 : Instr := .baroQuery H (ops (uni 9) (uni 30) zr (uni 31))
def sObj : State := { next baroInit1 (setU lab 30 64) with cur := some b12 }
/-- An ARRIVE that has issued, and has been performed. -/
def sArrive : State := next baroArrive1 sObj
def ref2 : OpRef := { warp := 1, op := 2 }
def sObj1 : State := { next (.atomicPerform { warp := 1, op := 1 }) sArrive with cur := some { b0 with pc := 24 } }
def sArrive2 : State := next baroArrive1 (onW sObj1 fun w => w.setUreg 9 { val := 0 })
/-- R160: two arrivals of one open the next phase; each has its phase in D. -/
theorem test_baro_phase : Rule.objectAt sArrive 0 (0, 64) = Rule.objectAt sObj 0 (0, 64) ∧
    Rule.objectAt sObj1 0 (0, 64) = { expected := 2, pending := 1, due := 0, phase := 0, bitmap := 1 } ∧ ur sObj1 9 = 0 ∧
    Rule.objectAt (next (.atomicPerform ref2) sArrive2) 0 (0, 64) = { expected := 2, pending := 2, due := 0, phase := 1, bitmap := 0 } := by decide +kernel
theorem witness_BarrierObjects_arrives : sArrive.opOf { warp := 1, op := 1 } = (sArrive.warp 1).op 1 ∧ arriveReady sArrive { warp := 1, op := 1 } = true ∧
    (((sArrive.warp 1).op 1).any fun o => o.ins == baroArrive1 && o.slots.length == 1 && o.slots.all fun x =>
      decide (scrTarget sArrive (sArrive.warp 1) x.addr 32 = some (0, 64) ∧ x.data.toNat ≤ (Rule.objectAt sArrive 0 (0, 64)).pending) &&
      (tagHit (sArrive.warpBlock (sArrive.warp 1)).tags (sArrive.tagEntry (sArrive.warp 1) x.tag o.ins x.addr 0)).isNone) = true ∧
    0 < (sArrive.gang 0).blocks.length ∧ scrBad sArrive 0 (0, 64) 24 = false ∧ (sArrive.warp 1).num < 32 := by decide +kernel
/-- The pending count stands at 0 when the arrival is performed (log 65). -/
theorem witness_BarrierObjects_late : ∃ s : State, arriveReady s { warp := 1, op := 1 } = true ∧ (Rule.objectAt s 0 (0, 64)).pending = 0 ∧
    (next (.atomicPerform { warp := 1, op := 1 }) s).mem = s.mem :=
  ⟨{ sArrive with gangs := sArrive.gangs.map fun g => { g with blocks := g.blocks.map fun b => { b with scratch := b.scratch.setBytes 68 [0, 0, 0, 0] } } }, by decide +kernel⟩
/-- An arrival that the block's window remembers, with phase 7. -/
def sKnown : State := { sArrive with gangs := sArrive.gangs.map fun g => { g with blocks := g.blocks.map fun b =>
  { b with tags := [{ sArrive.tagEntry (sArrive.warp 1) (((sArrive.warp 1).ops.getD 1 (op0 sArrive)).slots.map fun x => x.tag).headI baroArrive1 64 0 with result := 7 }] } } }
theorem test_baro_arrive_again : ur (next (.atomicPerform { warp := 1, op := 1 }) sKnown) 9 = 7 ∧ Rule.objectAt (next (.atomicPerform { warp := 1, op := 1 }) sKnown) 0 (0, 64) = Rule.objectAt sKnown 0 (0, 64) := by decide +kernel
def queried (p : Nat) : State := next baroQuery1 (setU sObj 31 p)
theorem test_baro_query : ur (next (.resultWritten { warp := 1, op := 1 }) (queried 0)) 9 = 0 ∧ ur (next (.resultWritten { warp := 1, op := 1 }) (queried 5)) 9 = 1 := by decide +kernel
theorem witness_BarrierObjects : baroInit1.wf = true ∧ baroArrive1.wf = true ∧ baroWait1.wf = true ∧ baroQuery1.wf = true ∧
    Goes baroInit1 lab b0 lanes16 ∧ Goes baroArrive1 sObj b12 lanes16 ∧ Goes baroQuery1 sObj b12 lanes16 ∧ Goes baroWait1 (setU sObj 31 5) b12 lanes16 ∧
    (scrTarget sObj (sObj.warp 1) 64 32 = some (0, 64) ∧ scrTarget sObj (sObj.warp 1) 65536 32 = none ∧
      (sObj.warp 1).num < 32 ∧ tagHit (sObj.warpBlock (sObj.warp 1)).tags (sObj.tagEntry (sObj.warp 1) (Rule.tag sObj (sObj.warp 1) 0) baroArrive1 64 0) = none ∧ scrBad sObj 0 (0, 64) 24 = false ∧
      (Rule.objectAt sObj 0 (0, 64)).phase = 0 ∧
      Store.wf none (sObj.cache (sObj.warpCore (sObj.warp 1))).l1 = true) :=
  ⟨by decide, by decide, by decide, by decide, goes_of (by decide +kernel), goes_of (by decide +kernel), goes_of (by decide +kernel), goes_of (by decide +kernel),
    by decide +kernel⟩

/-- R161: the lanes wait for the phase; a QUERY is owed its result. -/
def sPhase : State := next baroWait1 (setU sObj 31 0)
theorem witness_BarrierObjects_wait : Goes baroWait1 (setU sObj 31 0) b12 lanes16 ∧ ((sPhase.warp 1).thread 7).status = .blocked (.baro 0 64 0) ∧
    (sPhase.hasWarp 1 = true ∧ (sPhase.warp 1).stopped = false ∧ Store.wf none (sPhase.cache (sPhase.warpCore (sPhase.warp 1))).l1 = true) :=
  ⟨goes_of (by decide +kernel), by decide +kernel, by decide +kernel⟩
theorem witness_BarrierObjects_query : resultReady (queried 5) { warp := 1, op := 1 } = true ∧
    (((queried 5).opOf { warp := 1, op := 1 }).any fun o => o.shadow == [] && o.slots.length == 1 && o.slots.all fun x => decide (scrTarget (queried 5) ((queried 5).warp 1) x.addr 32 = some (0, 64))) = true ∧
    ((queried 5).warp 1).diverged = false ∧ scrBad (queried 5) 0 (0, 64) 24 = false := by decide +kernel
theorem test_baro_count_bounds : ((next (.baroInit H (ops zr (uni 30) zr (uni 31))) (setU (setU lab 30 64) 31 0x100001)).reports.map fun r => r.trap.cause) = [9] := by decide +kernel

/-! ## Matrix array -/

def sAcc : State := withRec lab fun r => { r with accs := 4 }
def mmaS1 : Instr := .mmaS H (ops (acc 0) (cnv 1) (uni 40) (uni 44))
def mma1 : Instr := .mma H (ops (acc 0) (cnv 1) (uni 40) (uni 44))
/-- A row of FP16 whose first element is 1.0 at 0x10000; weights at 0x20000 whose first is 2.0; cv1 declares every lane. -/
def sMma0 : State :=
  let s := withLine (each (List.range 32) (withLine sAcc 0x10000 [0x00, 0x3C]) fun k s => withLine s (0x20000 + 128 * k) []) 0x20000 [0x00, 0x40]
  let s := each [(40, 0x10000), (42, 128), (43, 0x10001), (44, 0x101), (45, 64), (46, 0x20000)] s fun e s => setU s e.1 e.2
  { next (.decl H (ops (cnv 1) (uni 0) zr zr)) (setU s 0 0xFFFF) with cur := some b12 }
def sMma1 : State := next mmaS1 sMma0
def sMma2 : State := next (.leaveGrant 0) sMma1
theorem test_mma_signers_wait : ((sMma1.warp 1).thread 6).status = .blocked (.signer 1) ∧ ((sMma2.warp 1).thread 6).pc = 24 := by decide +kernel
theorem test_mma_undeclared : ((next mmaS1 sAcc).reports.map fun r => (r.trap.cause, r.trap.info)) = [(6, 1)] := by decide +kernel

def fmtw1 : Instr := .fmtw H (ops (prd 1) (vec 9) zr zr)
theorem test_fmtw : fmtWordMma 0x0101 = true ∧ fmtWordMma 0x0102 = false ∧ fmtWordMma 0x02000101 = true ∧ fmtWordMma 0x10101 = false := by decide +kernel
def sMma3 : State := onW sMma2 fun w => w.onOp 0 fun o => { o with ins := mma1, regs := [0x10000, 0, 128, 0x10001, 0x101, 0, 0, 0, 0] }
theorem witness_MatrixProducts : fmtw1.wf = true ∧ Goes fmtw1 lab b0 lanes16 ∧ (sMma3.opOf ref0 = some (op0 sMma3) ∧ (op0 sMma3).ins = mma1 ∧ (op0 sMma3).prog = 0 ∧
    mmaReady sMma3 ref0 = true ∧ mmaBad sMma3 (sMma3.warp 1) (mmaWords (op0 sMma3).ins (op0 sMma3).regs) = none ∧ reachesB sMma3 0x10000 128 .read = true) :=
  ⟨by decide, goes_of (by decide +kernel), by decide +kernel⟩

def accz1 : Instr := .accz H (ops (acc 2) zr zr zr)
def accwr1 : Instr := .accwr H (ops (acc 2) (vec 2) (imm 32) zr)
def accrd1 : Instr := .accrd H (ops (vec 3) (acc 2) (uni 48) (imm 0))
def accld1 : Instr := .accld H (ops (acc 1) (uni 50) (uni 52) zr)
def accst1 : Instr := .accst H (ops (acc 1) (uni 50) (uni 56) (imm 0))
/-- s48:s51: element 32, FP32, scales 2.0 and 0.5; s50:s51 0x10000 with stride 128. -/
def sAcc1 : State := each [(48, 32), (49, 0), (50, 0x40000000), (51, 0x3F000000)] (setV sAcc 2 fun l => 0x3F800000 + l) fun e s => setU s e.1 e.2
theorem test_accwr_accrd : vr (next accrd1 { next accwr1 sAcc1 with cur := some b12 }) 3 5 = 0x3F800005 := by decide +kernel
theorem test_accwr_bounds : ((next (.accwr H (ops (acc 2) (vec 2) (imm 1016) zr)) sAcc1).reports.map fun r => r.trap.cause) = [9] := by decide +kernel
theorem test_accz : ((next accz1 { next accwr1 sAcc1 with cur := some b12 }).block 0 0).acc = [] := by decide +kernel
def sAccLd : State :=
  let s := each (List.range 32) sAcc fun k s => withLine s (0x10000 + 128 * k) [.ofNat 8 k]
  next accld1 (each [(50, 0x10000), (52, 128)] s fun e s => setU s e.1 e.2)
theorem test_accld_unaligned : ((next accld1 (each [(50, 0x10040), (52, 128)] sAcc fun e s => setU s e.1 e.2)).reports.map fun r => (r.trap.cause, r.trap.addr)) = [(2, 0x10040)] := by decide +kernel
def scld1 : Instr := .scld H (ops zr (uni 50) (imm 3) (imm 2))
theorem test_scld_lines : ((next scld1 (setU (withLine sAcc 0x10000 [7, 8]) 50 0x10000)).block 0 0).scale.byte ((sAcc.warp 1).part * 4096 + 193) = 8 := by decide +kernel

theorem witness_Accumulators : Goes accz1 sAcc b0 lanes16 ∧ Goes accwr1 sAcc1 b0 lanes16 ∧ accrd1.wf = true ∧ Goes accrd1 sAcc1 b0 lanes16 ∧
    Goes accld1 sAcc1 b0 lanes16 ∧ Goes accst1 sAcc1 b0 lanes16 ∧ Goes scld1 sAcc1 b0 lanes16 ∧
    (sAccLd.opOf ref0 = some (op0 sAccLd) ∧ (op0 sAccLd).ins = accld1 ∧ accReady sAccLd ref0 = true ∧
      ((List.range 32).all fun k => reachesB sAccLd (0x10000 + 128 * k) 1 .read && reachesB sAccLd (0x1007F + 128 * k) 1 .read) = true) :=
  ⟨goes_of (by decide +kernel), goes_of (by decide +kernel), by decide, goes_of (by decide +kernel), goes_of (by decide +kernel), goes_of (by decide +kernel),
    goes_of (by decide +kernel), by decide +kernel⟩
/-- The last element that R177 allows, and the first it does not. -/
theorem witness_Accumulators_edge : Rule.elementOk (sAcc1.warp 1) 1008 ∧ ¬Rule.elementOk (sAcc1.warp 1) 1009 ∧ ¬Rule.elementOk (sAcc1.warp 1) 1024 := by
  unfold Rule.elementOk; decide +kernel

/-- An element of tile 2 and one of tile 1 hold errors. -/
def sAccBad : State := { sAcc1 with gangs := sAcc1.gangs.map fun g => { g with blocks := g.blocks.map fun b =>
  { b with badAcc := [(((sAcc1.warp 1).part * 4 + 1) * 1024 + 7, true), (((sAcc1.warp 1).part * 4 + 2) * 1024 + 33, true)] } } }
theorem witness_Accumulators_bad : Goes accrd1 sAccBad b0 lanes16 ∧ Rule.ElementsBad sAccBad (sAccBad.warp 1) 2 (lanes16.map (32 + ·)) ∧
    Goes accst1 (setU (setU sAccBad 51 0) 56 128) b0 lanes16 ∧ Rule.ElementsBad sAccBad (sAccBad.warp 1) 1 (List.range 1024) ∧
    Rule.accBase 0x40000000 128 = none := by
  refine ⟨goes_of (by decide +kernel), ⟨33, by decide +kernel, by decide +kernel⟩, goes_of (by decide +kernel), ⟨7, by decide +kernel, by decide +kernel⟩, by decide⟩
theorem test_accrd_bad_consumes : (next accrd1 sAccBad).agenda.length = 1 ∧ (next accrd1 sAcc1).agenda = [] := by decide +kernel
theorem witness_ScaleLines : Goes scld1 (setU (withLine sAcc 0x10000 [7, 8]) 50 0x10000) b0 lanes16 := goes_of (by decide +kernel)

def leave1 (n : Int) : Instr := .leave H (ops zr (imm n) zr zr)
theorem test_leave_grant : ((next (.leaveGrant 0) (next (leave1 64) lab)).warp 1).pool = 64 := by decide +kernel
theorem witness_Collectives : Goes (leave1 64) lab b0 lanes16 ∧ Goes mmaS1 sMma0 b12 lanes16 ∧ Goes mmaS1 sAcc b0 lanes16 ∧
    (((next (leave1 64) lab).cluster 0).requests = [(0, .pool 1 64)] ∧ (next (leave1 64) lab).hasWarp 1 = true ∧ 64 ≤ (next (leave1 64) lab).budget 0) ∧
    (let c := (sMma1.block 0 0).cv.getD 1 {}
     cvWarp sMma1 0 0 1 ∈ sMma1.warps ∧ (c.signers.find? fun y => y.lane == c.last).isSome = true ∧ 1 < (sMma1.block 0 0).cv.length ∧
        (c.signers.map fun y => y.lane).Nodup ∧ (c.signers.all fun y => decide (y.lane < (cvWarp sMma1 0 0 1).threads.length)) = true) :=
  ⟨goes_of (by decide +kernel), goes_of (by decide +kernel), goes_of (by decide +kernel), by decide +kernel, by decide +kernel⟩

/-! ## Residencies -/

/-- A context of the root's space with a quota of 16 tiles to allocate and 8 to pin. -/
def sCtx : State := { lab with ctxs := [(5, { valid := true, resq := 0x00080010 })] }
def resAlloc1 (n : Int) : Instr := .resAlloc H false (ops (uni 10) (imm n) zr zr)
def sRes : State := { next (resAlloc1 2) sCtx with cur := some b12 }
def resPin1 : Instr := .resPin H (ops (uni 11) (uni 10) zr zr)
def resUnpin1 : Instr := .resUnpin H (ops zr (uni 10) zr zr)
def resRevoke1 : Instr := .resRevoke H (ops zr (uni 10) zr zr)
def resQuery1 : Instr := .resQuery H (ops (uni 11) (uni 10) zr zr)
def resLoad1 : Instr := .resLoad H (ops zr (uni 50) (uni 10) (imm 0))
theorem test_res_alloc_handle : ur sRes 10 = 0x10000 ∧ (sRes.res (5, 0)).tiles = 2 := by decide +kernel
theorem test_res_alloc_quota : ((next (resAlloc1 15) sRes).reports.map fun r => (r.trap.cause, r.trap.info)) = [(8, 0)] := by decide +kernel
theorem test_res_alloc_17 : ((next (resAlloc1 17) sCtx).reports.map fun r => r.trap.cause) = [9] := by decide +kernel
theorem test_res_pin : ur (next resPin1 sRes) 11 = 1 ∧ ((next resPin1 sRes).res (5, 0)).pinned = true := by decide +kernel
theorem test_res_query : ur (next resQuery1 sRes) 11 = 0xC0200000 + 31 * 256 ∧ ur (next resQuery1 (setU sRes 10 0x20000)) 11 = 0 := by decide +kernel
theorem test_res_revoke : ((next resRevoke1 sRes).res (5, 0)) = { gen := 1 } := by decide +kernel
def sResLd : State := next resLoad1 (setU (withLine (withLine (withLine sRes 0x1000 [7, 8, 9]) (0x1000 + 128 * 31) [1]) (0x1000 + 128 * 32) [2]) 50 0x1000)
theorem test_res_load_watches : watchedAt sResLd .line (0x1000 + 128 * 31) 1 = true ∧ watchedAt sResLd .line (0x1000 + 128 * 32) 1 = false := by decide +kernel
theorem witness_Residencies_alloc : Goes (resAlloc1 2) sCtx b0 lanes16 ∧ (sCtx.ctxSlot (sCtx.space (sCtx.warp 1)).asid = some 5 ∧
    (tagHit (sCtx.ctx 5).resTags (sCtx.tagEntry (sCtx.warp 1) (Rule.tag sCtx (sCtx.warp 1) 0) (resAlloc1 2) 2 0)).isNone = true) :=
  ⟨goes_of (by decide +kernel), by decide +kernel⟩
theorem witness_Residencies_forms : Goes resPin1 sRes b12 lanes16 ∧ Goes resUnpin1 sRes b12 lanes16 ∧ Goes resRevoke1 sRes b12 lanes16 ∧ Goes resQuery1 sRes b12 lanes16 ∧
    Goes resLoad1 sRes b12 lanes16 ∧ sRes.resOf (sRes.warp 1) 0x10000 = some (5, 0) ∧ sRes.resOf (sRes.warp 1) 0x20000 = none :=
  ⟨goes_of (by decide +kernel), goes_of (by decide +kernel), goes_of (by decide +kernel), goes_of (by decide +kernel), goes_of (by decide +kernel), by decide +kernel⟩
/-- Every line of a residency of one tile is present. -/
def sResLd1 : State :=
  let s := { next (resAlloc1 1) sCtx with cur := some b12 }
  next resLoad1 (setU (each (List.range 16) s fun k s => withLine s (0x1000 + 128 * k) [.ofNat 8 k]) 50 0x1000)
theorem witness_Residencies_loaded : resLoadReady sResLd1 ref0 = true ∧ sResLd1.opOf ref0 = some (op0 sResLd1) ∧ (op0 sResLd1).ins = resLoad1 ∧
    sResLd1.resOf (sResLd1.warp 1) ((op0 sResLd1).regs.getD 2 0).toNat = some (5, 0) ∧
    ((List.range 16).all fun k => reachesB sResLd1 (0x1000 + 128 * k) 1 .read) = true := by decide +kernel
/-- The residency is at home in partition 0; a form of the root's partition waits for it. -/
def sAway : State := { sRes with ctxs := [(5, { sRes.ctx 5 with residencies := [(0, { sRes.res (5, 0) with home := some 0 })] })] }.withFetchWord 96 0x98027000400B400A00000000
theorem witness_Residencies_rehomed : rehomeReady sAway 5 0 (sAway.partNo (sAway.warp 1)) = true := by decide +kernel

/-- It is loaded from 0x1000, whose lines the warp that asks can read. -/
def sAway1 : State :=
  let s := each (List.range 32) sAway fun k s => withLine s (0x1000 + 128 * k) [.ofNat 8 (k + 1)]
  { s with ctxs := [(5, { s.ctx 5 with residencies := [(0, { s.res (5, 0) with loaded := true, tiles := 1, base := 0x1000 })] })] }
theorem witness_Residencies_reloaded : rehomeReady sAway1 5 0 (sAway1.partNo (sAway1.warp 1)) = true ∧
    (sAway1.warps.find? (asksHome sAway1 (5, 0) (sAway1.partNo (sAway1.warp 1)))).isSome = true ∧
    ((List.range 32).all fun k => reachesB sAway1 (0x1000 + 128 * k) 1 .read) = true := by decide +kernel
/-- A form of a partition whose store has no room for it. -/
def sFull : State := { sAway with cur := some b0, ctxs := [(5, { sAway.ctx 5 with residencies := [(0, sAway.res (5, 0)), (1, { live := true, gen := 1, tiles := 16, home := some (sAway.partNo (sAway.warp 1)) })] })] }
theorem witness_Residencies_away : Goes resPin1 sFull b0 lanes16 ∧ (sFull.res (5, 0)).home = some 0 ∧ sFull.partNo (sFull.warp 1) ≠ 0 :=
  ⟨goes_of (by decide +kernel), by decide +kernel, by decide +kernel⟩

/-! ## Engines, distributor, churn -/

/-- Extent 3, box 4, FP32, stride 4. -/
def shapeRecord : List Byte := (List.range 128).map fun k =>
  if k = 0 then 1 else if k = 10 then 0x55 else if k = 64 then 3 else if k = 68 then 4 else if k = 72 then 4 else if k = 36 then 1 else 0
def b1 : Bundle := { b0 with lanes := 1 }
def sCopy0 : State :=
  let s := each [(0, 0x1000), (60, 0x30000), (64, 0x2000)] (withLine (withLine (withLine (withLine lab 0x1000 ((List.range 16).map fun k => .ofNat 8 k)) 0x30000 shapeRecord) 0x30080 []) 0x2000 []) fun e s => setU s e.1 e.2
  { s with cur := some b1 }
def tcopy1 : Instr := .tcopyG2s H (ops zr (imm 16) (uni 0) (uni 60))
def sCopy1 : State := next tcopy1 sCopy0
def sCopy2 : State := next (.copyEngineRun ref0) sCopy1
theorem test_tcopy_moves : ((sCopy2.block 0 0).scratch.byte (16 + 4 * 2 + 1), (sCopy2.block 0 0).scratch.byte (16 + 4 * 3 + 1)) = (9, 0) := by decide +kernel
theorem test_tcopy_two_lanes : ((next tcopy1 { sCopy0 with cur := some b0 }).reports.map fun r => (r.trap.cause, r.trap.info)) = [(9, 1)] := by decide +kernel
theorem witness_EngineOperationsIssue : Rule.isEngine tcopy1 = true ∧ Goes tcopy1 sCopy0 b1 [0] ∧ Goes tcopy1 { sCopy0 with cur := some b0 } b0 lanes16 :=
  ⟨rfl, goes_of (by decide +kernel), goes_of (by decide +kernel)⟩
/-- The engine has yet to read the record. -/
def sCopyR : State := onW sCopy1 fun w => { w with ops := w.ops.map fun o => { o with data := [], decl := false } }
theorem witness_EngineOperationsIssue_record : (let o := op0 sCopyR
    sCopyR.opOf ref0 = some o ∧ (copyForm o.ins).isSome = true ∧ o.data = [] ∧ o.decl = false ∧ copyReady sCopyR ref0 = true ∧ o.run.refused = [] ∧
    (o.regs.getD 6 0).toNat + (o.regs.getD 7 0).toNat * 2 ^ 32 = 0x30000 ∧ Rule.recordAt sCopyR (sCopyR.warp 1) 0x30000 = (op0 sCopy1).data ∧
    reachesB sCopyR 0x30000 192 .read = true ∧ (op0 sCopy1).copy.r.badField (op0 sCopy1).data = none ∧ (op0 sCopy1).copy.check sCopyR (sCopyR.warp 1) = none) := by decide +kernel
theorem witness_CopyMovesElements : (let o := op0 sCopy1
    sCopy1.opOf ref0 = some o ∧ (copyForm o.ins).isSome = true ∧ o.data ≠ [] ∧ copyReady sCopy1 ref0 = true ∧ o.run.refused = [] ∧
    o.copy.r.badField o.data = none ∧ o.copy.check sCopy1 (sCopy1.warp 1) = none ∧ sCopy1.scrSize 0 ≤ 2 ^ 20 ∧ sCopy1.hasGang 0 = true ∧
    (sCopy1.gangs.map fun g => g.uid).Nodup ∧ scrTarget sCopy1 (sCopy1.warp 1) o.copy.a (o.copy.r.count * o.copy.r.sf.bytes) = some (0, 16) ∧
    o.obj = none ∧ o.prog = Rule.copyBytes o.copy o.run.elem ∧ o.copy.form = .g2s ∧ o.copy.r.count = 4) := by decide +kernel
theorem witness_CopyMovesElements_possible : (∀ e < 4, Rule.Possible sCopy1 (sCopy1.warp 1) (op0 sCopy1).copy e) ∧ Rule.Apart sCopy1 (sCopy1.warp 1) (op0 sCopy1).copy ∧
    ∃ m, Rule.Stands 0 (0, 16) (0, 0) sCopy1 (op0 sCopy1) m ∧ m.seen = (op0 sCopy1).run.seen := by
  refine ⟨?_, fun h => absurd h (by decide +kernel), ⟨homeByte sCopy1 (some 0), (sCopy1.block 0 0).scratch.byte, (op0 sCopy1).run.seed, (op0 sCopy1).run.flags,
    (op0 sCopy1).run.seen, (op0 sCopy1).run.crcBad, (op0 sCopy1).run.badBlk, (op0 sCopy1).run.badBricks, Rule.objectAt sCopy1 0 (0, 0), (op0 sCopy1).run.out.byte⟩, ?_, by dsimp only⟩
  · intro e he
    have hc : (op0 sCopy1).copy.r.crc < 2 := by decide +kernel
    have hk : (op0 sCopy1).copy.r.bk1 = false := by decide +kernel
    have hf : (op0 sCopy1).copy.form = .g2s := by decide +kernel
    have h : ∀ e < 4, Rule.Readable sCopy1 (sCopy1.warp 1) (Rule.globalOf (op0 sCopy1).copy e) (op0 sCopy1).copy.r.gf.bytes ∧
        (∀ j < (op0 sCopy1).copy.r.gf.bytes, sealedSlot sCopy1 (sCopy1.space (sCopy1.warp 1)).world (Rule.globalOf (op0 sCopy1).copy e + j) = none) ∧
        Rule.globalOf (op0 sCopy1).copy e % (op0 sCopy1).copy.r.gf.bytes = 0 := by unfold Rule.Readable; decide +kernel
    simp only [Rule.Possible, Rule.sourceBlocks, hc, hk, hf, if_true, reduceCtorEq, List.not_mem_nil, false_imp_iff, implies_true, and_true]
    exact fun _ _ => ⟨⟨(h e he).1, (h e he).2.1⟩, (h e he).2.2⟩
  · simp only [Rule.Stands, implies_true, and_self]
/-- Completion: no block made, no completion record, no object. -/
theorem witness_CopyMovesElements_done : copyDone sCopy2 ref0 = true ∧ (op0 sCopy2).run.refused = [] ∧ (op0 sCopy2).copy.r.crc = 0 ∧ (op0 sCopy2).copy.r.done = 0 ∧
    (op0 sCopy2).obj = none ∧ (op0 sCopy2).copy.r.badField (op0 sCopy2).data = none ∧ (op0 sCopy2).copy.check sCopy2 (sCopy2.warp 1) = none := by decide +kernel

/-- Four elements of FP32 and one participant. -/
def collRecord : List Byte := (List.range 128).map fun k =>
  if k = 0 then 1 else if k = 10 then 0x55 else if k = 64 then 4 else if k = 68 then 4 else if k = 72 then 4 else if k = 36 then 1 else 0
def sColl0 : State := withLine (setU (setU sCopy0 66 0x30000) 67 0) 0x30000 collRecord
def coll1 : Instr := .collBcast H false (ops zr (uni 64) (uni 0) (uni 66))
def sColl1 : State := next (.leaveGrant 0) (next coll1 sColl0)
def sColl2 : State := next (.collInstanceComplete 0) sColl1
def sCollR : State := onW (next coll1 sColl0) fun w => { w with ops := w.ops.map fun o => { o with data := [], decl := false } }
theorem witness_EngineOperationsIssue_coll : (let o := op0 sCollR
    sCollR.opOf ref0 = some o ∧ (collForm o.ins).isSome = true ∧ o.data = [] ∧ o.decl = false ∧ o.run.refused = [] ∧
    (o.regs.getD 6 0).toNat + (o.regs.getD 7 0).toNat * 2 ^ 32 = 0x30000 ∧ reachesB sCollR 0x30000 192 .read = true ∧
    (collOf sCollR (sCollR.warp 1) { o with data := Rule.recordAt sCollR (sCollR.warp 1) 0x30000 }).check (Rule.recordAt sCollR (sCollR.warp 1) 0x30000) = none) := by decide +kernel
theorem test_coll_bcast : homeByte sColl2 (some 0) 0x2009 = 9 ∧ homeByte sColl2 none 0x2009 = 0 := by decide +kernel
theorem witness_CollectiveBlocks : (∃ (c : Coll) (srcs : List (List Byte)), (∀ bs ∈ srcs, bs.length = c.n * c.esize) ∧ srcs.length = c.parts ∧
      c.r.gfmt ∈ [0, 1, 5, 6, 7] ∧ c.r.cop ≤ 2) ∧
    ((sColl1.colls.getD 0 { launch := 0, record := 0 }).results = [] ∧ (sColl1.colls.getD 0 { launch := 0, record := 0 }).full sColl1 = true ∧
      (match readGiven sColl1 (sColl1.colls.getD 0 { launch := 0, record := 0 }).given with
        | (.ok _, _) => true
        | _ => false) = true) :=
  ⟨⟨collOf sColl1 (sColl1.warp 1) (op0 sColl1), [List.replicate 16 0], by decide +kernel⟩, by decide +kernel⟩
/-- The results stand, and the gang's version holds the destination's line. -/
def sColl3 : State :=
  { sColl1 with colls := [{ launch := 1, record := 0x30000, results := [(ref0, [1, 2, 3, 4])] }], gangs := sColl1.gangs.map fun g => { g with version := [(0x2000, some 0)] } }
theorem witness_CollectiveBlocks_write : (let o := op0 sColl3
    sColl3.opOf ref0 = some o ∧ engineReady sColl3 ref0 o = true ∧ (collForm o.ins).isSome = true ∧ o.obj = none ∧ o.run.refused = [] ∧ (collOf sColl3 (sColl3.warp 1) o).dst = 0x2000 ∧
    sColl3.hasGang 0 = true ∧ (sColl3.gangs.map fun g => g.uid).Nodup ∧ reachesB sColl3 0x2000 4 .write = true ∧ 0x2003 / 128 ∈ (sColl3.gang 0).shadows) := by decide +kernel

def wdq1 : Instr := .wdq H (ops (imm 64) zr zr zr)
def sGrid : State := withRec lab fun r => { r with gx := 3, gy := 2 }
def sWdq : State := next wdq1 sGrid
/-- R198: query 4 of a 3 × 2 grid is tile (1, 1). -/
def sWdq4 : State := { sWdq with launches := sWdq.launches.map fun l => { l with answers := 4 } }
theorem test_wdq_tile : (next (.workDistributorAnswer ref0) sWdq4).block 0 0 |>.scratch.bytes 64 12 |> (· = [1, 0, 1, 0, 0, 0, 0, 0, 4, 0, 0, 0]) := by decide +kernel
theorem test_wdq_no_grid : ((next wdq1 lab).reports.map fun r => r.trap.cause) = [9] := by decide +kernel
theorem witness_WorkAndChurn_wdq : Goes wdq1 sGrid b0 lanes16 ∧ (scrTarget sGrid (sGrid.warp 1) 64 16 = some (0, 64) ∧ wdqReady sWdq ref0 = true ∧
    (op0 sWdq).obj = none ∧ (tagFind (sWdq.warpLaunch (sWdq.warp 1)).tags ((op0 sWdq).entry sWdq (sWdq.warp 1))).isNone = true ∧ sWdq.hasLaunch (sWdq.warpLaunch (sWdq.warp 1)).uid = true) :=
  ⟨goes_of (by decide +kernel), by decide +kernel⟩

/-- A query whose tag the distributor remembers. -/
def sWdqK : State := { sWdq with launches := sWdq.launches.map fun l => { l with tags := [{ (op0 sWdq).entry sWdq (sWdq.warp 1) with data := List.replicate 16 7 }] } }
theorem test_wdq_again : ((next (.workDistributorAnswer ref0) sWdqK).block 0 0).scratch.bytes 64 4 = [7, 7, 7, 7] ∧ ((next (.workDistributorAnswer ref0) sWdqK).launches.map fun l => l.answers) = sWdqK.launches.map fun l => l.answers := by decide +kernel
/-- A slot in s80, an object in s81. -/
def wdq2 : Instr := .wdq H (ops (uni 80) (uni 81) zr zr)
def sWdq2 (slot obj : Nat) : State := setU (setU sGrid 80 slot) 81 obj
theorem test_wdq_checks : ((next wdq2 (sWdq2 0x10000 40)).reports.map fun r => (r.trap.cause, r.trap.addr)) = [(9, 0x10000)] ∧
    ((next wdq2 (sWdq2 72 40)).reports.map fun r => (r.trap.cause, r.trap.addr)) = [(2, 72)] ∧ ((next wdq2 (sWdq2 64 40)).reports.map fun r => (r.trap.cause, r.trap.addr)) = [(2, 40)] := by decide +kernel
/-- 16 bytes are due on the object from the query's declaration until its answer. -/
def sWdqD : State := next wdq2 (sWdq2 64 96)
theorem test_wdq_declares : (Rule.objectAt (declareOn ref0 16 sWdqD) 0 (0, 96)).due = 16 ∧ wdqReady sWdqD ref0 = false ∧ wdqReady (declareOn ref0 16 sWdqD) ref0 = true ∧
    (Rule.objectAt (next (.workDistributorAnswer ref0) (declareOn ref0 16 sWdqD)) 0 (0, 96)).due = 0 := by decide +kernel
theorem witness_WorkAndChurn_object : Goes wdq2 (sWdq2 0x10000 40) b0 lanes16 ∧ Goes wdq2 (sWdq2 72 40) b0 lanes16 ∧ Goes wdq2 (sWdq2 64 96) b0 lanes16 ∧
    (sWdqD.opOf ref0 = some (op0 sWdqD) ∧ (op0 sWdqD).ins = wdq2 ∧ (op0 sWdqD).decl = false ∧ (op0 sWdqD).obj = some 96 ∧ (op0 sWdqD).prog = 0 ∧
      scrTarget sWdqD (sWdqD.warp 1) 96 32 = some (0, 96) ∧ 0 < (sWdqD.gang 0).blocks.length) :=
  ⟨goes_of (by decide +kernel), goes_of (by decide +kernel), goes_of (by decide +kernel), by decide +kernel⟩

def churnStart1 : Instr := .churnStart H (ops zr (uni 70) (uni 72) zr)
def churnStop1 : Instr := .churnStop H (ops zr zr zr zr)
def qpop1 : Instr := .qpop H (ops (vec 3) (spc 0x81) (prd 2) zr)
def qpush1 : Instr := .qpush H (ops (spc 0x81) (vec 1) zr zr)
def sChurn : State := { next churnStart1 (setU (setU lab 70 120) 74 5) with cur := some b12 }
theorem test_churn_parameters : ((sChurn.block 0 0).churn.map fun c => (Store.get 0 c.uregs 2, c.pc.getD 7 0)) = some (5, 120) := by decide +kernel
theorem test_churn_bad_entry : ((next churnStart1 (setU lab 70 121)).reports.map fun r => r.trap.cause) = [9] := by decide +kernel
/-- q1 holds one entry. -/
def sQueue : State := { sChurn with gangs := sChurn.gangs.map fun g => { g with blocks := g.blocks.map fun b => { b with queues := [{}, { entries := [(List.range 16).map fun k => .ofNat 32 (k * k)] }, {}, {}] } } }
theorem test_qpop_takes : vr (next qpop1 sQueue) 3 5 = 25 ∧ (((next qpop1 sQueue).block 0 0).queues.getD 1 {}).entries = [] := by decide +kernel
theorem test_qpush_of_a_warp : ((next qpush1 sQueue).reports.map fun r => r.trap.cause) = [9] := by decide +kernel
theorem witness_WorkAndChurn : Goes churnStart1 (setU lab 70 120) b0 lanes16 ∧ Goes churnStart1 (setU lab 70 121) b0 lanes16 ∧ Goes churnStop1 sChurn b12 lanes16 ∧
    Goes churnStop1 lab b0 lanes16 ∧ Goes qpush1 sQueue b12 lanes16 ∧ qpop1.wf = true ∧ Goes qpop1 sQueue b12 lanes16 ∧ Goes qpop1 { lab with agenda := [] } b0 lanes16 ∧
    tagHit (lab.warpBlock (lab.warp 1)).tags (lab.tagEntry (lab.warp 1) (Rule.tag lab (lab.warp 1) 0) churnStart1 120 0) = none :=
  ⟨goes_of (by decide +kernel), goes_of (by decide +kernel), goes_of (by decide +kernel), goes_of (by decide +kernel), goes_of (by decide +kernel), by decide,
    goes_of (by decide +kernel), goes_of (by decide +kernel), by decide +kernel⟩
/-- A QPUSH of the program itself. -/
def sProgram : State := (churnEnter 0 0 sQueue)
theorem witness_WorkAndChurn_push : Goes qpush1 { sProgram with cur := some { warp := 0, lanes := 0xFFFF, pc := 120 } } { warp := 0, lanes := 0xFFFF, pc := 120 } lanes16 :=
  goes_of (by decide +kernel)

/-! ## Stage graphs -/

/-- A graph of two stages and one edge of records of 32 bytes; `m` is its cut. -/
def graphOf (role m : Nat) : Graph :=
  { gid := 7, role := .ofNat 2 role, nedges := 1, nstages := 2, stat := 0x9000, hopat := 4
    stages := [{ valid := true, launch := 0x1000, batch := 4, maxg := 2 }, { valid := true, launch := 0x1000, batch := 4, maxg := 2 }]
    edges := [{ valid := true, source := 0, target := 1, cap := 16, ring := 0x8000, kc := 0xA000, stat := 0xB000, patience := 2 }]
    cut := { mask := .ofNat 64 m } }
/-- The root runs as a wave of stage 0, frame 1; its launch belongs to slot 5; s30 to s32 hold 0 to 2. -/
def sStage : State :=
  let s := withLine (setU (setU lab 31 1) 32 2) 0x8000 []
  { s with
    ctxs := [(5, { valid := true, graph := some (graphOf 2 0) })]
    launches := s.launches.map fun l => { l with slot := 5, wave := some { stage := 0, frame := 1, edge := none, pred := false, last := false } } }
def onG (s : State) (f : Graph → Graph) : State := s.onGraph 5 f
def emit1 : Instr := .emit H (ops zr (imm 0) (imm 16) (imm 77))
def sEmit0 : State := { sStage with cur := some b1 }
def sEmit1 : State := next emit1 sEmit0
def sEmit2 : State := next (.edgeRecordAccept ref0) sEmit1
theorem test_emit_header : ((sEmit2.edge 5 0).ready.map fun r => r.bytes.take 16) = [[1, 0, 0, 0, 77, 0, 0, 0, 0, 0, 0, 0, 1, 0, 0, 0]] := by decide +kernel
theorem test_emit_no_output : ((next (.emit H (ops zr (imm 1) (imm 16) zr)) sEmit0).reports.map fun r => r.trap.cause) = [9] := by decide +kernel
theorem witness_EmitRecorded : Goes emit1 sEmit0 b1 [0] ∧ Goes emit1 { lab with cur := some b1 } b1 [0] ∧ (sEmit0.warpLaunch (sEmit0.warp 1)).wave.isSome = true ∧
    (sEmit0.edge 5 0).valid = true ∧ (sEmit0.edge 5 0).source = 0 ∧ (sEmit0.ctx 5).raster = none ∧ (scrTarget sEmit0 (sEmit0.warp 1) 16 16).isSome = true :=
  ⟨goes_of (by decide +kernel), goes_of (by decide +kernel), by decide +kernel⟩
theorem witness_RecordPerformed : (let o := op0 sEmit1
    sEmit1.opOf ref0 = some o ∧ o.ins = emit1 ∧ acceptReady sEmit1 ref0 = true ∧ o.slots.length = 1 ∧ o.recs = 0 ∧ (sEmit1.graph 5).heldLocal 0 = 0 ∧
    (sEmit1.graph 5).remote 0 1 = false ∧ (sEmit1.graph 5).cut.phase = .steady ∧ (sEmit1.edge 5 0).source = 0 ∧ (sEmit1.stage 5 0).closed = 0 ∧
    (sEmit1.graph 5).waitsLocal 0 1 = false ∧ reachesB sEmit1 0x8000 32 .write = true ∧ (sEmit1.edge 5 0).ringAt = 0 ∧ (sEmit1.edge 5 0).size = 32 ∧
    (o.slots.all fun x => (tagHit (sEmit1.edge 5 0).tags (sEmit1.tagEntry (sEmit1.warp 1) x.tag o.ins x.addr 0)).isNone) = true ∧
    (match readScr sEmit1 (sEmit1.warp 1) 16 16 with
      | .bytes _ => true
      | _ => false) = true) := by decide +kernel

def frame1 (n : Nat) : Instr := .frame H (ops zr (uni (30 + n)) zr zr)
theorem test_frame_skips : ((next (frame1 2) sStage).reports.map fun r => r.trap.cause) = [9] := by decide +kernel
theorem test_frame_buoy : ((next (frame1 1) sStage).edge 5 0).buoys = [1] := by decide +kernel
/-- A stage without outputs. -/
def sLeaf : State := onG sStage fun g => { g with edges := [] }
/-- The far part; CUT moves stage 1 there from frame 1 on. -/
def sFar : State := onG sStage fun g => { g with role := 0, cut := { g.cut with mask := 1 } }
def cut1 (n : Nat) : Instr := .cut H (ops (uni 3) (uni 4) (uni (30 + n)) zr)
theorem test_cut_number : ur (next (cut1 1) sFar) 3 = 1 ∧ ((next (cut1 1) sFar).graph 5).cut.phase = .waiting 1 := by decide +kernel
theorem test_cut_propose_leaves : (next (cut1 1) sFar).sent.length = 1 := by decide +kernel
/-- Triangles of the frame are in the rasteriser. -/
def sRasterising : State := { sStage with tris := [{ slot := 5, stage := 0, frame := 1, warp := 1, lane := 0, pc := 0, todo := [] }] }
/-- Edge 0 is the bin edge, its ring full, with a bin of the frame. -/
def sBins : State :=
  let s := onG sStage fun g => { g with edges := g.edges.map fun x => { x with occupied := 16 } }
  { s with ctxs := s.ctxs.map fun c => (c.1, { c.2 with raster := some { bin := 0, skim := 9 }, bins := [{ frame := 1, material := 3, tile := 2, mask := 5 }] }) }
theorem test_frame_waits : (op0 (next (frame1 1) sRasterising)).ctr = some .edge ∧ ((next (frame1 1) sBins).edge 5 0).pending.length = 1 := by decide +kernel

/-- An edge of a graph's list. -/
theorem edge_in {s : State} {n e : Nat} (hn : (s.graph 5).edges.length = n) (h : (s.edge 5 e).valid = true) : e < n := by
  by_contra hc
  have : (s.edge 5 e).valid = false := by simp only [State.edge, List.getD_eq_getElem?_getD, List.getElem?_eq_none (hn ▸ Nat.le_of_not_lt hc), Option.getD_none]
  simp [this] at h
theorem noBins_of {s : State} (h : (s.ctx 5).raster = none) : Rule.NoBins s 5 0 1 := fun r hr _ => by simp [h] at hr
/-- The next frame with nothing under way: it closes. -/
theorem witness_Frames_close : Goes (frame1 1) sStage b0 lanes16 ∧ (sStage.stage 5 0).closed.toNat < 1 ∧ (sStage.ctx 5).graph.isSome = true ∧ Rule.NoBins sStage 5 0 1 ∧
    ¬Rule.Drawing' sStage 5 0 1 ∧ (sStage.graph 5).cut.phase = .steady ∧ Rule.isOut sStage 5 0 0 ∧ (sStage.graph 5).remote 0 1 = false ∧
    ∀ e, Rule.isOut sStage 5 0 e → (sStage.graph 5).waitsLocal e 1 = false ∧ Rule.Still (sStage.edge 5 e).rx := by
  have hp : ∀ x ∈ (sStage.graph 5).edges, x.pending = [] := by decide +kernel
  refine ⟨goes_of (by decide +kernel), by decide +kernel, by decide +kernel, noBins_of (by decide +kernel), ?_, by decide +kernel, ⟨by decide +kernel, by decide +kernel⟩, by decide +kernel, ?_⟩
  · rintro (⟨t, ht, -⟩ | ⟨x, hx, -, -, p, h, -⟩)
    · exact absurd ht ((by decide +kernel : sStage.tris = []) ▸ List.not_mem_nil)
    · exact absurd h (hp x hx ▸ List.not_mem_nil)
  · intro e h
    have : e < 1 := edge_in (by decide +kernel) h.1
    obtain rfl : e = 0 := by omega
    exact ⟨by decide +kernel, ⟨by decide +kernel, by decide +kernel, by decide +kernel⟩⟩
theorem witness_Frames_wait : Goes (frame1 1) sRasterising b0 lanes16 ∧ Rule.NoBins sRasterising 5 0 1 ∧ Rule.Drawing' sRasterising 5 0 1 :=
  ⟨goes_of (by decide +kernel), noBins_of (by decide +kernel), .inl ⟨_, List.mem_singleton.mpr rfl, rfl, rfl, rfl⟩⟩
theorem witness_Frames_bins : Goes (frame1 1) sBins b0 lanes16 ∧ (sBins.ctx 5).raster = some { bin := 0, skim := 9 } ∧ Rule.isOut sBins 5 0 0 ∧
    0 < (sBins.graph 5).edges.length ∧ (∀ x ∈ (sBins.graph 5).edges, x.pending = []) ∧ (sBins.graph 5).remote 0 1 = false ∧
    (sBins.edge 5 0).cap.toNat ≤ (sBins.edge 5 0).occupied ∧ ((sBins.ctx 5).bins.filter fun k => k.frame == 1) ≠ [] :=
  ⟨goes_of (by decide +kernel), by decide +kernel, ⟨by decide +kernel, by decide +kernel⟩, by decide +kernel⟩
/-- The far part, its edge remote. -/
def sRemote : State := onG sStage fun g => { g with role := 0, cut := { g.cut with mask := 1 } }
theorem witness_Frames_remote : Goes (frame1 1) sRemote b0 lanes16 ∧ Rule.isOut sRemote 5 0 0 ∧ (sRemote.graph 5).remote 0 1 = true ∧ (sRemote.graph 5).waitsLocal 0 1 = false ∧
    sRemote.tris = [] ∧ (sRemote.ctx 5).raster = none ∧ (sRemote.graph 5).cut.phase = .steady :=
  ⟨goes_of (by decide +kernel), ⟨by decide +kernel, by decide +kernel⟩, by decide +kernel⟩
/-- R327: the buoy of frame 1, two records of it sent. -/
theorem test_frame_remote_buoy :
    let s := onG sRemote fun g => { g with edges := g.edges.map fun x => { x with seqs := [(1, 2)] } }
    ((next (frame1 1) s).sent.map fun o => match o with
      | .datagram d => d.bytes.take 16
      | _ => []) = [[0x4F, 0x56, 0x12, 0, 7, 0, 0, 0, 0, 1, 0, 0, 2, 0, 0, 0]] := by decide +kernel
theorem witness_FramesCloseAndCutsAreProposed : Goes (frame1 2) sStage b0 lanes16 ∧ Goes (frame1 1) sLeaf b0 lanes16 ∧ Goes (frame1 0) sLeaf b0 lanes16 ∧
    (sLeaf.warpLaunch (sLeaf.warp 1)).slot = 5 ∧
    Goes (cut1 1) sFar b0 lanes16 ∧ Goes (cut1 0) sFar b0 lanes16 ∧
    (let l := sFar.warpLaunch (sFar.warp 1)
     (match l.wave with
      | some v => cutOk sFar l v 0 1 && !cutOk sFar l v 0 0 && !cutOk sFar l v 1 1
      | none => false) = true ∧ tagFind (sFar.ctx l.slot).cutTags (sFar.tagEntry (sFar.warp 1) (Rule.tag sFar (sFar.warp 1) 0) (cut1 1) 0 0) = none) :=
  ⟨goes_of (by decide +kernel), goes_of (by decide +kernel), goes_of (by decide +kernel), by decide +kernel,
    goes_of (by decide +kernel), goes_of (by decide +kernel), by decide +kernel⟩

def rechdr1 : Instr := .rechdr H (ops (vec 4) (imm 64) (prd 2) zr)
def sRecs : State := { lab with gangs := lab.gangs.map fun g => { g with blocks := g.blocks.map fun b => { b with records := [(64, 0x00000001_00000503_0000004D_00000002)] } } }
theorem test_rechdr : (vr (next rechdr1 sRecs) 4 3, vr (next rechdr1 sRecs) 5 3, (((next rechdr1 sRecs).warp 1).thread 3).preds.getLsbD 2) = (2, 77, true) := by decide +kernel
theorem witness_RecordHeaderRead : rechdr1.wf = true ∧ Goes rechdr1 sRecs b0 lanes16 ∧ Goes rechdr1 lab b0 lanes16 := ⟨by decide, goes_of (by decide +kernel), goes_of (by decide +kernel)⟩

/-- A launch record of one warp of 16 lanes with 64 and 64 registers, for the header at 0x2000 of an image of one word. -/
def waveRecord : List Byte := bytesOfNat 64 (0x2000 * 2 ^ 448 + 1024 * 2 ^ 160 + 1 * 2 ^ 128 + 64 * 2 ^ 70 + 64 * 2 ^ 61 + 2 ^ 48 + 2 ^ 42)
def sched (g : Graph) : State := withLine (withLine { bare with ctxs := [(5, { valid := true, graph := some g })] } 0x1000 waveRecord) 0x2000 [12]
/-- The bytes of a record of frame 1 with key 9. -/
def recBytes (seq : Nat) : List Byte := (Rule.recordOf 1 9 0 seq 1 (List.replicate 16 6)).bytes
/-- One record of frame 1 stands released on the edge. -/
def sReady : State := (sched (graphOf 2 0)).onEdge 5 0 fun e => { e with ready := [{ frame := 1, seq := 0, bytes := recBytes 0 }] }
theorem test_wave_of_records : ((next (.recordWaveLaunch 5 1 0) sReady).launches.map fun l => (l.wave.map fun v => (v.stage, v.batches.flatten.length))) = [none, some (1, 1)] := by decide +kernel
/-- No wave has been launched. -/
theorem no_waves {s : State} (h : (s.launches.all fun l => decide (l.wave = none)) = true) {l : Launch} (hl : l ∈ s.launches) {v : Wave} (hv : l.wave = some v) : False := by
  have := of_decide_eq_true (List.all_eq_true.mp h l hl)
  simp [this] at hv
theorem witness_WavesAreLaunched : Rule.StageOpen sReady 5 1 ∧ (sReady.edge 5 0).valid = true ∧ (sReady.edge 5 0).target = 1 ∧ Rule.Waiting sReady 5 1 0 ≠ [] ∧
    1 ≤ (sReady.stage 5 1).batch.toNat ∧ ∀ n, 1 ≤ n → n ≤ (sReady.stage 5 1).maxg.toNat → Rule.Starts sReady 5
      { stage := 1, frame := (sReady.stage 5 1).lastDone + 1, edge := some 0, pred := false, last := false, batches := List.replicate n [] } := by
  refine ⟨⟨by decide +kernel, by decide +kernel, by decide +kernel, by decide +kernel, by decide +kernel, by decide +kernel, .inl (by decide +kernel)⟩,
    by decide +kernel, by decide +kernel, by decide +kernel, by decide +kernel, fun n h1 h2 => ?_⟩
  have : n ≤ 2 := h2.trans (by decide +kernel)
  unfold Rule.Starts
  interval_cases n <;> decide +kernel
/-- gfopen names frame 1, which the stage without inputs works on. -/
def sOpen : State := onG (sched (graphOf 2 0)) fun g => { g with gfopen := 1 }
theorem witness_WavesAreLaunched_last : Rule.StageOpen sOpen 5 0 ∧ 0 < (sOpen.graph 5).stages.length ∧
    (∀ l ∈ sOpen.launches, ∀ v, l.slot = 5 → l.wave = some v → v.stage = 0 → v.frame = 1 → l.state = .ended 0) ∧
    (∀ e, ¬((sOpen.edge 5 e).valid = true ∧ (sOpen.edge 5 e).target = 0)) ∧ (1 : Word).toNat ≤ (sOpen.graph 5).gfopen.toNat ∧
    Rule.Starts sOpen 5 { stage := 0, frame := 1, edge := none, pred := false, last := true } := by
  refine ⟨⟨by decide +kernel, by decide +kernel, by decide +kernel, by decide +kernel, by decide +kernel, by decide +kernel, .inl (by decide +kernel)⟩, by decide +kernel,
    fun l hl v _ hv => (no_waves (by decide +kernel) hl hv).elim, fun e h => ?_, by decide +kernel, by unfold Rule.Starts; decide +kernel⟩
  have : e < 1 := edge_in (by decide +kernel) h.1
  obtain rfl : e = 0 := by omega
  exact absurd h.2 (by decide +kernel)
/-- The buoy of frame 1 has been released to stage 1, whose records are all in waves. -/
def sBuoy : State := (sched (graphOf 2 0)).onEdge 5 0 fun e => { e with buoys := [1] }
theorem witness_WavesAreLaunched_inputs : Rule.StageOpen sBuoy 5 1 ∧ (∀ e, (sBuoy.edge 5 e).valid = true ∧ (sBuoy.edge 5 e).target = 1 → 1 ∈ (sBuoy.edge 5 e).buoys ∧ Rule.Waiting sBuoy 5 1 e = []) ∧
    Rule.Starts sBuoy 5 { stage := 1, frame := 1, edge := none, pred := false, last := true } := by
  refine ⟨⟨by decide +kernel, by decide +kernel, by decide +kernel, by decide +kernel, by decide +kernel, by decide +kernel, .inl (by decide +kernel)⟩, fun e h => ?_, by unfold Rule.Starts; decide +kernel⟩
  have : e < 1 := edge_in (by decide +kernel) h.1
  obtain rfl : e = 0 := by omega
  decide +kernel

/-- The near part, its edge remote; a data frame of one record. -/
def sNear : State := sched (graphOf 1 1)
def dataFrame : TolverFrame :=
  { gid := 7, edge := 0, frame := 1, seq := 1, prevcnt := 0, grp := 0, g := 1, gidx := 0, count := 1, recsz := 2, aux := 0, body := recBytes 1 }
def sHeld : State := next (.tolverDataFrame 5 dataFrame) sNear
theorem test_record_held : ((sHeld.edge 5 0).rx.held.map fun r => r.seq) = [1] ∧ (sHeld.edge 5 0).rx.next = 0 := by decide +kernel
theorem test_record_released : ((next (.tolverDataFrame 5 { dataFrame with seq := 0, body := recBytes 0 }) sHeld).edge 5 0).ready.length = 2 := by decide +kernel
theorem test_record_late : ((next (.tolverDataFrame 5 { dataFrame with frame := 0 }) sNear).edge 5 0).late = 1 := by decide +kernel
theorem test_tolver_misdirected : ((next (.tolverDataFrame 5 { dataFrame with gid := 8 }) sNear).edge 5 0).crcbad = 1 ∧
    ((next (.tolverDataFrame 5 { dataFrame with edge := 3 }) sNear).graph 5).crcbad = 1 := by decide +kernel
theorem witness_TolverFramesArrive : (sNear.ctx 5).graph.isSome = true ∧ (sNear.graph 5).role = 1 ∧ (sNear.edge 5 0).valid = true ∧ (sNear.edge 5 3).valid = false ∧ dataFrame.gid = (sNear.graph 5).gid ∧
    (sFar.graph 5).role = 0 ∧ dataOk sNear 5 { dataFrame with count := 2 } = false ∧ (sNear.graph 5).cut.heard = [] ∧ dataOk sNear 5 dataFrame = true ∧ parityOk sNear 5 dataFrame = true ∧ (sNear.graph 5).cut.phase = .steady ∧
    (sNear.graph 5).remote 0 1 = true ∧ (sNear.edge 5 0).rx.openFrame = 1 ∧ (sNear.edge 5 0).rx.predicting = none ∧
    (sNear.graph 5).remote 0 0 = true := by decide +kernel

/-- Record 0 is missing and patience has run out: the record of seq 0 becomes a record of zeros of kind 3, both are released. -/
def sImpatient : State := sHeld.onRx 5 0 fun x => { x with patience := some 2 }
theorem test_patience : ((next (.patienceExpiry 5 0) sImpatient).edge 5 0).ready.map (fun r => (r.seq, r.bytes.getD 8 0)) = [(0, 3), (1, 0)] ∧
    ((next (.patienceExpiry 5 0) sImpatient).edge 5 0).tail = 1 := by decide +kernel
/-- The wave of the predictor has ended. -/
def sPredicted : State :=
  let s := sHeld.onRx 5 0 fun x => { x with predicting := some { missing := [(0, some 9)], launch := some 1, got := [List.replicate 16 3] }, counts := [(1, some 2)] }
  { s with launches := s.launches.map fun l => { l with state := .ended 0 } }
theorem witness_MissingRecordsSubstituted : patienceDue sImpatient 5 0 = true ∧ (sImpatient.edge 5 0).policy ≠ 1 ∧ predictorDone sPredicted 5 0 = true ∧
    ((sHeld.edge 5 0).policy = 0 ∧ (sHeld.edge 5 0).cached 9 = []) := by decide +kernel
theorem witness_Missing_cached : ((((sNear.onEdge 5 0 fun e => e.cache { frame := 1, seq := 0, bytes := recBytes 0 }).edge 5 0).cached 9).map fun r => r.seq) = [0] := by decide +kernel

/-- A frame of the sub-channel, its proposal number 3. -/
def subFrame3 (aux : DWord) : TolverFrame :=
  { gid := 7, edge := 0xFF, frame := 5, seq := 0, prevcnt := 0x30000, grp := 0, g := 0, gidx := 0, count := 0, recsz := 0, aux, body := [] }
def sProposed : State := next (.tolverProposeFrame 5 (subFrame3 0)) sNear
theorem test_propose_prepares : (sProposed.graph 5).cut.phase = .prep 5 ∧ (sProposed.graph 5).cut.prop = 3 ∧ sProposed.sent.length = 1 := by decide +kernel
/-- The far part has sent the hand-over of frame 5 in two segments. -/
def sSent : State := onG (sched (graphOf 0 1)) fun g => { g with cut := { g.cut with prop := 3, num := 3, phase := .sent 5, newMask := 0, unacked := [(0, [1]), (1, [2]), (0xFFFF, [3])], resend := 4 } }
theorem test_ack_segment : (((next (.tolverAckFrame 5 (subFrame3 (2 ^ 32 + 3))) sSent).graph 5).cut.unacked.map fun u => u.1) = [0, 0xFFFF] := by decide +kernel
theorem test_ack_whole : ((next (.tolverAckFrame 5 (subFrame3 (2 ^ 63 + 2 ^ 32 + 3))) sSent).graph 5).cut.phase = .held 5 := by decide +kernel
theorem test_handover_segment : ((next (.tolverHandoverFrame 5 (subFrame3 (2 * 2 ^ 32))) sNear).graph 5).cut.heard.map (fun h => (h.frame, h.num, h.count, h.last)) = [(5, 3, 2, 0)] := by decide +kernel
theorem witness_CutChannelMoves : (sNear.graph 5).cut.phase = .steady ∧ (sNear.graph 5).role = 1 ∧ (sSent.graph 5).role = 0 ∧ (sNear.graph 5).cut.num ≠ 3 ∧ (sSent.graph 5).cut.num = 3 ∧
    (subFrame3 0).gid = (sNear.graph 5).gid ∧ (sSent.ctx 5).graph.isSome = true ∧
    hearsHandover (sSent.graph 5) 5 3 = false ∧ hearsHandover (sNear.graph 5) 5 3 = true ∧ (sNear.graph 5).cut.answered = [] ∧ (sNear.graph 5).cut.heard = [] ∧ 1 < (subFrame3 (2 * 2 ^ 32)).aux.toNat / 2 ^ 32 % 2 ^ 16 ∧
    (sSent.graph 5).cut.unacked ≠ [] ∧ (sSent.graph 5).hopat.toNat ≤ (sSent.graph 5).cut.resend ∧ sProposed.stall = none ∧
    handoverDue (onG sProposed fun g => { g with stages := g.stages.map fun x => { x with lastDone := 4 } }) 5 = some 5 ∧ sNear.ports.length = 2 := by decide +kernel

/-- R320, and stage D of spec/21_prog_moving_cut.md: a last wave without FRAME stalls a stage with an outgoing edge, and no sink. -/
theorem test_sink_needs_no_frame :
    let g : Graph := { stages := [{ valid := true, lastDone := 1 }, { valid := true, lastDone := 1 }], edges := [{ valid := true, source := 0, target := 1 }] }
    g.stalls 0 = true ∧ g.stalls 1 = false := by decide +kernel


/-! ## Graphics -/

def f32 (n : Nat) : List Byte := bytesOfNat 4 n
def vertexBytes (x y z w : Nat) : List Byte := f32 x ++ f32 y ++ f32 z ++ f32 w
/-- Vertices at the corners (0, 0), (2, 0) and (0, 2) of a target of 4 × 4. -/
def triBytes : List Byte := vertexBytes 0xBF800000 0xBF800000 0 0x3F800000 ++ vertexBytes 0 0xBF800000 0 0x3F800000 ++ vertexBytes 0xBF800000 0 0 0x3F800000
def target : Raster := { vis := 0x4000, width := 4, height := 4, skim := 0, bin := 1 }
def v00 : Snapped := { x := 0, y := 0, d := 0 }
def v20 : Snapped := { x := 512, y := 0, d := 0 }
def v02 : Snapped := { x := 0, y := 512, d := 0 }
theorem test_fate_cream : fateOf target 2 0 0 triBytes = .cream v00 v20 v02 262144 := by decide +kernel
theorem test_fate_skim : fateOf target 3 0 0 triBytes = .skim false 262144 := by decide +kernel
theorem test_fate_culled : fateOf target 2 2 0 triBytes = .dropped := by decide +kernel
theorem test_fate_clipped : fateOf target 2 0 0 (triBytes.take 44 ++ f32 0) = .skim true 0 := by decide +kernel
theorem test_fate_nan : fateOf target 2 0 0 (f32 0x7FC00000 ++ triBytes.drop 4) = .dropped := by decide +kernel
theorem test_fate_outside : fateOf target 2 0 0 ((List.range 3).flatMap fun _ => vertexBytes 0x40000000 0 0 0x3F800000) = .dropped := by decide +kernel
/-- The hypotenuse, which rises, owns its pixel centres. -/
theorem test_pixels : pixelEvents target 7 v00 v20 v02 262144 = [(0x4000, 0xFFFFFFFF00000007), (0x4008, 0xFFFFFFFF00000007), (0x4020, 0xFFFFFFFF00000007)] := by decide +kernel
theorem witness_TriangleFate : (fateOf target 2 1 0 triBytes ≠ .dropped ∧ f32Fmt.value 0x7FC00000 = .nan) ∧ Rule.above 0x40000000 0x3F800000 = true ∧ Rule.above 0x3F800000 0x3F800000 = false := by decide +kernel
theorem witness_CoveredPixels : ∃ a b c : Snapped, (b.x - a.x) * (c.y - a.y) - (c.x - a.x) * (b.y - a.y) ≠ 0 := ⟨v00, v20, v02, by decide⟩

/-- A wave of the separating stage whose scratchpad begins with the triangle; edge 1 is the bin edge. -/
def sDraw : State :=
  let s : State := { sStage with
    cur := some b1
    ctxs := [(5, { valid := true, raster := some target, graph := some { graphOf 2 0 with edges := (graphOf 2 0).edges ++ [({ valid := true, source := 0, target := 1, cap := 16, recsz := 10 } : Edge)] } })] }
  let s := each [(20, 0), (21, 0xFFFFFFF0), (22, 8), (23, 7), (24, 3), (25, 5), (26, 4095), (27, 1023), (28, 1024), (29, 4096)] s fun e s => s.onWarp 1 fun w => w.setVreg e.1 0 { val := .ofNat 32 e.2 }
  { s with clusters := s.clusters.map fun c => { c with sepa := 2 }
           gangs := s.gangs.map fun g => { g with blocks := g.blocks.map fun b => { b with scratch := b.scratch.setBytes 0 triBytes } } }
def trisub1 (a : Nat) : Instr := .trisub H (ops zr (vec a) (vec 23) (imm 0))
theorem test_trisub_cream : (next (trisub1 20) sDraw).tris.map (fun t => t.todo.length) = [3] := by decide +kernel
theorem test_trisub_skim : (((next (trisub1 20) { sDraw with clusters := sDraw.clusters.map fun c => { c with sepa := 3 } }).edge 5 0).ready.map fun r => r.bytes.length) = [80] := by decide +kernel
theorem witness_TrianglesAreAccepted : Goes (trisub1 20) sDraw b1 [0] ∧ Goes (trisub1 21) sDraw b1 [0] ∧ Goes (trisub1 22) sDraw b1 [0] ∧ Goes (trisub1 20) { lab with cur := some b1 } b1 [0] ∧ (trisub1 20).wf = true ∧
    (readScr sDraw (sDraw.warp 1) 0 48 = .bytes triBytes ∧ scrTarget sDraw (sDraw.warp 1) 0xFFFFFFF0 48 = none ∧ (scrTarget sDraw (sDraw.warp 1) 8 48).isSome = true ∧
    (separatorTags sDraw 0).length = 0 ∧ ((sDraw.graph 5).edges.all fun e => decide (e.pending = [])) = true ∧ (sDraw.graph 5).remote 0 1 = false ∧ (sDraw.graph 5).waitsLocal 0 1 = false ∧
    (sDraw.edge 5 0).occupied + (sDraw.graph 5).heldLocal 0 + 1 ≤ (sDraw.edge 5 0).cap.toNat ∧ reachesB sDraw (0x8000 + (sDraw.edge 5 0).ringAt % 16 * (sDraw.edge 5 0).size) (sDraw.edge 5 0).size .write = true) :=
  ⟨goes_of (by decide +kernel), goes_of (by decide +kernel), goes_of (by decide +kernel), goes_of (by decide +kernel), by decide, by decide +kernel⟩

/-- One event of a triangle is left, on a word that holds 5. -/
def tri1 : Tri := { slot := 5, stage := 0, frame := 1, warp := 1, lane := 0, pc := 0, todo := [(0x4000, 9)] }
def sPixel : State := { (withLine { bare with ctxs := [(5, { valid := true })] } 0x4000 [5]) with tris := [tri1] }
/-- The byte at 0x4000 after a pixel event. -/
def drawn (word : DWord) : Byte :=
  match pixelEvent tri1 0x4000 word sPixel with
  | .done s => homeByte s none 0x4000
  | .faulted _ | .waits .. => 0
theorem test_pixel_maximum : drawn 9 = 9 ∧ drawn 4 = 5 := by decide +kernel
/-- R349, R273: an absent page is a recoverable fault of the issuing warp, and the event stays. -/
theorem test_pixel_faults : (match pixelEvent tri1 0x4000 9 { sPixel with mem := {}, mgmt := { sPixel.mgmt with fqlogn := 6 } } with
    | .faulted s => s.faults.map fun f => (f.va, f.kind)
    | .done _ | .waits .. => []) = [(0x4000, 2)] := by decide +kernel
theorem witness_PixelEvent_next : tri1.todo[nextPixel sPixel tri1]? = some (0x4000, 9) := by simp [nextPixel, tri1, Nat.mod_one]
theorem witness_PixelEvent_ready : rasterReady sPixel 0 = true := by
  have h : sPixel.tris[0]? = some tri1 := rfl
  simp only [rasterReady, h]
  decide +kernel
theorem witness_PixelEventIsAMaximum : reachesB sPixel 0x4000 8 .write = true ∧ poisonedAt sPixel none .line 0x4000 8 = false ∧
    (sPixel.ctx 5).space.loc 0x4000 = 0x4000 := by decide +kernel

def mbin1 (m p : Nat) : Instr := .mbin H (ops zr (vec m) (vec p) (uni 40))
theorem test_mbin : ((next (mbin1 24 25) sDraw).ctx 5).bins = [{ frame := 1, material := 3, tile := 0, mask := 32 }] := by decide +kernel
theorem witness_PixelsAreBinned : Goes (mbin1 24 25) sDraw b1 [0] ∧ Goes (mbin1 26 27) sDraw b1 [0] ∧ Goes (mbin1 24 28) sDraw b1 [0] ∧ Goes (mbin1 29 25) sDraw b1 [0] ∧ Goes (mbin1 24 25) { lab with cur := some b1 } b1 [0] ∧
    ((sDraw.ctx 5).bins = [] ∧ (sDraw.ctx 5).cutTags = [] ∧ target.tiles = 1) :=
  ⟨goes_of (by decide +kernel), goes_of (by decide +kernel), goes_of (by decide +kernel), goes_of (by decide +kernel), goes_of (by decide +kernel), by decide +kernel⟩
theorem witness_PixelsAreBinned_edge : ((actAt (mbin1 26 27) b1 [0]).read (sDraw.warp 1) 0).a = 4095 ∧ ((actAt (mbin1 26 27) b1 [0]).read (sDraw.warp 1) 0).b = 1023 := by decide +kernel

def attr1 : Instr := .attr H (ops (vec 3) (vec 4) (vec 6) (imm 1))
/-- a(0) 1.0, a(1) 2.0, a(2) 4.0, b1 0.5 and b2 0.25. -/
def sAttr : State :=
  let put (b : Block) : Block := { b with scratch := ((b.scratch.setBytes 4 (f32 0x3F800000)).setBytes 132 (f32 0x40000000)).setBytes 260 (f32 0x40800000) }
  let s := setV (setV lab 4 fun _ => 0x3F000000) 5 fun _ => 0x3E800000
  { s with gangs := s.gangs.map fun g => { g with blocks := g.blocks.map put } }
theorem test_attr : vr (next attr1 sAttr) 3 7 = 0x40100000 := by decide +kernel
theorem test_attr_bounds : ((next attr1 (setV sAttr 6 fun _ => 65280)).reports.map fun r => (r.trap.cause, r.trap.addr)) = [(9, 0x10004)] := by decide +kernel
theorem witness_AttributesInterpolated : attr1.wf = true ∧ Goes attr1 sAttr b0 lanes16 ∧ Goes attr1 (setV sAttr 6 fun _ => 65280) b0 lanes16 ∧
    (readScr sAttr (sAttr.warp 1) 132 4 = .bytes (bytesOfNat 4 0x40000000) ∧ scrTarget sAttr (sAttr.warp 1) 0x10004 4 = none) :=
  ⟨by decide, goes_of (by decide +kernel), goes_of (by decide +kernel), by decide +kernel⟩

/-- A texture of 2 × 2 texels of format 0 at 0x6000. -/
def texture : List Byte := bytesOfNat 64 (0x6000 * 2 ^ 448 + 2 ^ 432 + 2 ^ 416 + 2 ^ 394)
def tld1 : Instr := .tld H .d2 (ops (vec 8) (vec 4) (uni 20) (uni 30))
def texv1 : Instr := .texv H false (ops (vec 8) (vec 4) (uni 20) zr)
def sTex0 : State :=
  let s := withLine (withLine lab 0x5000 texture) 0x6000 [1, 2, 3, 4, 5, 6, 7, 8, 255, 51, 0, 255, 9, 9, 9, 9]
  { setU (setV (setV s 4 fun _ => 0) 5 fun _ => 1) 20 0x5000 with cur := some b1 }
def sTex1 : State := next tld1 sTex0
/-- Texel (0, 1): 255, 51, 0, 255 as 1.0, 0.2, 0.0, 1.0. -/
theorem test_tld : (List.range 4).map (fun k => vr (next (.resultWritten ref0) sTex1) (8 + k) 0) = [0x3F800000, 0x3E4CCCCD, 0, 0x3F800000] := by decide +kernel
theorem test_tld_outside : (List.range 4).map (fun k => vr (next (.resultWritten ref0) (next tld1 (setV sTex0 5 fun _ => 2))) (8 + k) 0) = [0, 0, 0, 0] := by decide +kernel
theorem test_tex_unaligned : ((next tld1 (setU sTex0 20 0x5020)).reports.map fun r => (r.trap.cause, r.trap.addr)) = [(2, 0x5020)] := by decide +kernel
theorem witness_TextureOwed : isTexture tld1 = true ∧ tld1.wf = true ∧ texv1.wf = true ∧ Goes tld1 sTex0 b1 [0] ∧ Goes texv1 sTex0 b1 [0] ∧ Goes tld1 (setU sTex0 20 0x5020) b1 [0] ∧ Goes tld1 (setU sTex0 21 0x10000000) b1 [0] :=
  ⟨rfl, by decide, by decide, goes_of (by decide +kernel), goes_of (by decide +kernel), goes_of (by decide +kernel), goes_of (by decide +kernel)⟩
theorem witness_TextureSamples : sTex1.opOf ref0 = some (op0 sTex1) ∧ resultReady sTex1 ref0 = true ∧ (op0 sTex1).ins = tld1 ∧ (op0 sTex1).slots.length = 1 ∧
    (match readL1 (sTex1.party (sTex1.warp 1)) 0x5000 64 sTex1 with
      | (.bytes bs, s1) => decide (Rule.badFields 1 (natOfBytes bs) = []) && decide (Rule.badFields 2 (natOfBytes bs) = [49]) &&
        (match readL1 (sTex1.party (sTex1.warp 1)) 0x6008 4 s1 with
          | (.bytes px, _) => decide (px = [255, 51, 0, 255])
          | _ => false)
      | _ => false) = true := by decide +kernel
theorem witness_TextureSamples_nearest : coordOf 0x3F000000 = some (4194304, 8388608) ∨ (∃ n d, coordOf 0x3F000000 = some (n, d) ∧ 0 ≤ n ∧ n < (d : Int)) :=
  .inr ⟨_, _, rfl, by decide +kernel⟩
/-- A void-extent block of 1.0, 0.5, 0.0, 1.0, without bounds; an LDR block of a reserved mode; a void extent of HDR under LDR. -/
theorem test_astc : (List.range 4).map (astcChannel (0xFFFF_0000_8000_FFFF_FFFF_FFFF_FFFF_FDFC) 4 4 false false 1 2) = [.half 0x3C00, .half 0x3800, .half 0, .half 0x3C00] ∧
    astcChannel 0 4 4 false false 0 0 0 = .bad ∧ astcChannel 0x3C00_0000_0000_3C00_FFFF_FFFF_FFFF_FFFC 4 4 false false 0 0 0 = .bad ∧
    astcChannel 0x3C00_0000_0000_3C00_FFFF_FFFF_FFFF_FFFC 4 4 false true 0 0 0 = .half 0x3C00 := by decide +kernel
theorem test_taps : axisTaps true (1, 2) 3 = [(1, 65536)] ∧ axisTaps true (5, 8) 2 = [(0, 16384), (1, 49152)] := by decide +kernel
theorem test_wrap_mirror : (List.range 6).map (fun k => wrapIndex 1 3 ((k : Int) - 2)) = [some 1, some 0, some 0, some 1, some 2, some 2] := by decide +kernel
theorem witness_TapsAndModes : 2 * ((1 : Int) * 3) ≠ ((2 : Nat) : Int) ∧ ∃ n d, coordOf (f32Fmt.roundRatio .rn false 4 4) = some (n, d) ∧ 0 < d := ⟨by decide, _, _, rfl, by decide +kernel⟩

/-! ## System instructions -/

def wassign1 : Instr := .wassign H (ops (uni 3) (uni 20) (imm 2) zr)
def scrub1 : Instr := .scrub H (ops (uni 3) (uni 20) zr zr)
def halt1 (n : Int) : Instr := .halt H (ops zr (imm n) zr zr)
def hashInit1 : Instr := .hashInit H (ops zr (uni 21) zr zr)
def hashUpd1 : Instr := .hashUpd H (ops zr (uni 21) (imm 512) (uni 22))
def hashFin1 : Instr := .hashFin H (ops zr (uni 21) (imm 1024) zr)
def mext1 (b : Operand) : Instr := .mext H (ops zr (uni 23) b (imm 1024))
def ecsig1 : Instr := .ecsig H (ops zr (imm 512) (imm 1024) zr)
def keyrel1 (a : Operand) : Instr := .keyrel H (ops (uni 3) a (uni 24) (uni 24))
def certw1 : Instr := .certw H (ops (uni 3) (uni 26) (uni 28) (imm 5))
/-- s20 unit word 0x21, s21 context address 0x1000, s22 count 3, s23 register 4, s24 slot and world 1, s26:s27 chain 0x3000 of s28 = 16 bytes; the scratchpad holds "abc" at 512. -/
def sSys : State :=
  let s := each [(20, 0x21), (21, 0x1000), (22, 3), (23, 4), (24, 1), (26, 0x3000), (28, 16)] (withLine lab 0x3000 (List.replicate 16 0x5A)) fun e s => setU s e.1 e.2
  { s with gangs := s.gangs.map fun g => { g with blocks := g.blocks.map fun b => { b with scratch := b.scratch.setBytes 512 [0x61, 0x62, 0x63] } } }
def world1 (s : State) : State := withRec s fun r => { r with world := 1 }
theorem test_guard_world : (next (halt1 1) (world1 sSys)).haltedPart = false ∧ ((next (halt1 1) (world1 sSys)).reports.map fun r => r.trap.cause) = [4] := by decide +kernel
theorem test_guard_root_partition : ((next ecsig1 (onW sSys fun w => { w with part := 30 })).reports.map fun r => r.trap.cause) = [4] := by decide +kernel
theorem witness_SystemInstructionsAreGuarded : Goes (halt1 1) (world1 sSys) b0 lanes16 ∧ Goes ecsig1 (onW sSys fun w => { w with part := 30 }) b0 lanes16 ∧
    (((world1 sSys).warpLaunch ((world1 sSys).warp 1)).record.world ≠ 0) :=
  ⟨goes_of (by decide +kernel), goes_of (by decide +kernel), by decide +kernel⟩

def beacon1 (n : Nat) : Instr := .beacon H (ops zr (uni n) zr zr)
def sBeacon : State := each [(20, 4096), (21, 0xFFFFFFFF), (22, 4095), (23, 0)] lab fun e s => setU s e.1 e.2
theorem test_beacon_declares : ((next (beacon1 20) sBeacon).block 0 0).beacon = some { interval := 4096, left := 4096, misses := 0 } := by decide +kernel
theorem test_beacon_short : ((next (beacon1 22) sBeacon).reports.map fun r => r.trap.cause) = [9] := by decide +kernel
/-- The count has run out, for the first and for the second time. -/
def sMiss (n : Nat) : State := { lab with gangs := lab.gangs.map fun g => { g with blocks := g.blocks.map fun b => { b with beacon := some { interval := 4096, left := 0, misses := n } } } }
theorem test_second_miss_halts : Store.get false (next (.beaconMiss 0 0) (sMiss 0)).haltedCores 0 = false ∧ Store.get false (next (.beaconMiss 0 0) (sMiss 1)).haltedCores 0 = true := by decide +kernel
theorem witness_BeaconsWatchBlocks : Goes (beacon1 20) sBeacon b0 lanes16 ∧ Goes (beacon1 21) sBeacon b0 lanes16 ∧ Goes (beacon1 22) sBeacon b0 lanes16 ∧ Goes (beacon1 23) sBeacon b0 lanes16 ∧
    (sBeacon.hasGang 0 = true ∧ (sBeacon.warp 1).gang = 0 ∧ 0 < (sBeacon.gang 0).blocks.length) ∧
    (((sMiss 1).gang 0).state = .placed ∧ ((sMiss 1).block 0 0).retired = false ∧ ((sMiss 1).block 0 0).beacon = some { interval := 4096, left := 0, misses := 1 }) :=
  ⟨goes_of (by decide +kernel), goes_of (by decide +kernel), goes_of (by decide +kernel), goes_of (by decide +kernel), by decide +kernel, by decide +kernel⟩

theorem test_wassign : (ur (next wassign1 sSys) 3, (Store.get {} (next wassign1 sSys).units 0x21).world) = (0, 2) := by decide +kernel
theorem test_scrub_reserved : ur (next scrub1 (setU sSys 20 0x1F)) 3 = 3 := by decide +kernel
theorem test_wassign_reserved_bit : ((next wassign1 (setU sSys 20 0x1021)).reports.map fun r => r.trap.cause) = [9] := by decide +kernel
theorem witness_UnitsAssignedAndScrubbed : wassign1.wf = true ∧ scrub1.wf = true ∧ Goes wassign1 sSys b0 lanes16 ∧ Goes scrub1 sSys b0 lanes16 ∧
    Goes wassign1 (setU sSys 20 0x1021) b0 lanes16 ∧ (((sSys.warpLaunch (sSys.warp 1)).record.world = 0 ∧ Rule.unitStatus sSys 0x21 = 0 ∧ Rule.unitStatus sSys 0x1F = 3) ∧
    (sSys.warpGang (sSys.warp 1)).cluster = 0 ∧ (sSys.warpBlock (sSys.warp 1)).core = 0 ∧ (sSys.warp 1).part = 31) :=
  ⟨by decide, by decide, goes_of (by decide +kernel), goes_of (by decide +kernel), goes_of (by decide +kernel), by decide +kernel⟩

theorem test_hash_init : ((next hashInit1 sSys).block 0 0).scratch.bytes 0x1000 8 = bytesOfNat 8 0x6A09E667F3BCC908 := by decide +kernel
theorem test_hash_unaligned : ((next hashInit1 (setU sSys 21 0x1020)).reports.map fun r => (r.trap.cause, r.trap.addr)) = [(2, 0x1020)] := by decide +kernel
theorem test_hash_count : ((next hashUpd1 (setU sSys 22 65537)).reports.map fun r => r.trap.cause) = [9] := by decide +kernel
/-- SHA-512("abc") begins ddaf35a193617aba. -/
theorem test_sha512_abc : (sha512 [0x61, 0x62, 0x63]).take 8 = bytesOfBE 8 0xDDAF35A193617ABA := by decide +kernel
def sHash : State := { next hashInit1 sSys with cur := some b12 }
theorem witness_HashOperandsChecked : Goes hashInit1 sSys b0 lanes16 ∧ Goes hashUpd1 sSys b0 lanes16 ∧ Goes hashFin1 sSys b0 lanes16 ∧ Goes hashUpd1 (setU sSys 22 65537) b0 lanes16 :=
  ⟨goes_of (by decide +kernel), goes_of (by decide +kernel), goes_of (by decide +kernel), goes_of (by decide +kernel)⟩
theorem witness_HashComputes : Goes hashUpd1 sHash b12 lanes16 ∧ scrTarget sHash (sHash.warp 1) 0x1000 256 = some (0, 0x1000) ∧
    ((scrRead sHash 0 (0, 0x1000) 256).length = 256 ∧ ((List.range 8).map fun k => BitVec.ofNat 64 (natOfBytes (((scrRead sHash 0 (0, 0x1000) 256).drop (8 * k)).take 8))) = shaBlocks shaInit [] ∧
      ((scrRead sHash 0 (0, 0x1000) 256).drop 64).take 16 = bytesOfNat 16 0) ∧
    (sHash.hasGang 0 = true ∧ (sHash.gang 0).blocks.length = 1 ∧ (sHash.block 0 0).tags.length < 32 ∧ tagFind (sHash.block 0 0).tags (sHash.tagEntry (sHash.warp 1) (Rule.tag sHash (sHash.warp 1) 0) hashUpd1 0x1000 0) = none) :=
  ⟨goes_of (by decide +kernel), by decide +kernel, by decide +kernel, by decide +kernel⟩
theorem witness_HashComputes_fin : Goes hashFin1 sHash b12 lanes16 ∧ scrTarget sHash (sHash.warp 1) 1024 64 = some (0, 1024) ∧ scrTarget sHash (sHash.warp 1) 512 3 = some (0, 512) :=
  ⟨goes_of (by decide +kernel), by decide +kernel, by decide +kernel⟩

theorem test_mext_reads : ((next (mext1 zr) { sSys with measure := sSys.measure.set 4 (7 * 2 ^ 504 + 9 * 2 ^ 496) }).block 0 0).scratch.bytes 1024 2 = [7, 9] := by decide +kernel
theorem test_mext_register_32 : ((next (mext1 zr) (setU sSys 23 32)).reports.map fun r => r.trap.cause) = [9] := by decide +kernel
theorem witness_MeasurementsExtended : Goes (mext1 zr) sSys b0 lanes16 ∧ Goes (mext1 (imm 512)) sSys b0 lanes16 ∧ Goes (mext1 zr) (setU sSys 23 32) b0 lanes16 ∧ Goes ecsig1 sSys b0 lanes16 ∧
    (sSys.hasGang 0 = true ∧ sSys.measure.length = 32 ∧ sSys.measureTags = [] ∧ scrTarget sSys (sSys.warp 1) 1024 132 = some (0, 1024) ∧ scrTarget sSys (sSys.warp 1) 512 64 = some (0, 512)) :=
  ⟨goes_of (by decide +kernel), goes_of (by decide +kernel), goes_of (by decide +kernel), goes_of (by decide +kernel), by decide +kernel⟩

theorem test_keyrel_clears : (ur (next (keyrel1 zr) { sSys with keySlots := sSys.keySlots.map fun k => { k with key := some (1, 1) } }) 3,
    ((next (keyrel1 zr) { sSys with keySlots := sSys.keySlots.map fun k => { k with key := some (1, 1) } }).keySlots.map fun k => k.key.isSome)) = (0, [true, false] ++ List.replicate 14 true) := by decide +kernel
theorem test_keyrel_slot_0 : ((next (keyrel1 zr) (setU sSys 24 0)).reports.map fun r => r.trap.cause) = [9] := by decide +kernel
theorem witness_KeysAreUnwrapped : (keyrel1 zr).wf = true ∧ (keyrel1 (imm 512)).wf = true ∧ Goes (keyrel1 zr) sSys b0 lanes16 ∧ Goes (keyrel1 (imm 512)) sSys b0 lanes16 ∧ Goes (keyrel1 zr) (setU sSys 24 0) b0 lanes16 ∧
    (sSys.keySlots.length = 16 ∧ sSys.keyTags = [] ∧ scrTarget sSys (sSys.warp 1) 512 176 = some (0, 512)) :=
  ⟨by decide, by decide, goes_of (by decide +kernel), goes_of (by decide +kernel), goes_of (by decide +kernel), by decide +kernel⟩

/-- A sealed load that uses slot 1 is running. -/
def sKeyUsed : State := onW sSys fun w => { w with ops := [{ id := 0, ins := resLoad1, pc := 0, lanes := 1, ctr := some .mat, regs := [0, 0, 0, 1] }], nextOp := 1 }
theorem witness_KeysAreUnwrapped_used : keyInUse sKeyUsed 1 = true ∧ keyInUse sSys 1 = false ∧ Goes (keyrel1 zr) sKeyUsed b0 lanes16 :=
  ⟨by decide +kernel, by decide +kernel, goes_of (by decide +kernel)⟩
theorem test_keyrel_waits : (((next (keyrel1 zr) sKeyUsed).warp 1).thread 3).pc = 0 ∧ (((next (keyrel1 zr) sKeyUsed).warp 1).thread 3).status = .blocked (.issue 0) := by decide +kernel
/-- A chain that ends behind the last canonical address. -/
def sChainEnd (n : Nat) : State := each [(26, 0xFFFFFFF0), (27, 0x0FFFFFFF), (28, n)] sSys fun e s => setU s e.1 e.2
theorem test_certw_beyond : ((next certw1 (sChainEnd 17)).reports.map fun r => (r.trap.cause, r.trap.addr)) = [(3, 0x1000000000000000)] := by decide +kernel
theorem witness_CertificatesWritten_beyond : Goes certw1 (sChainEnd 17) b0 lanes16 := goes_of (by decide +kernel)

def heldCerts (s : State) : State := { s with certs := s.certs.map fun c => { c with hold := true } }
theorem test_certw_writes : (((next certw1 sSys).certs.getD 5 {}).chain, ur (next certw1 sSys) 3) = (List.replicate 16 0x5A, 0) := by decide +kernel
theorem test_certw_held : (((next certw1 (heldCerts sSys)).certs.getD 5 {}).staged, ((next certw1 (heldCerts sSys)).certs.getD 5 {}).chain, ur (next certw1 (heldCerts sSys)) 3) = (some (List.replicate 16 0x5A), [], 1) := by decide +kernel
theorem test_certw_length : ((next certw1 (setU sSys 28 65537)).reports.map fun r => r.trap.cause) = [9] := by decide +kernel
theorem witness_CertificatesWritten : certw1.wf = true ∧ Goes certw1 sSys b0 lanes16 ∧ Goes certw1 (setU sSys 28 65537) b0 lanes16 ∧ Goes certw1 (setU sSys 27 0x10000000) b0 lanes16 ∧ Goes certw1 (setU sSys 26 0x3008) b0 lanes16 ∧
    (5 < sSys.certs.length ∧ sSys.certTags = [] ∧
      (match (readChain (sSys.party (sSys.warp 1)) 0x3000 16 (sSys.advance 1 lanes16 0)).1 with
        | .bytes c => c == List.replicate 16 0x5A
        | _ => false) = true) :=
  ⟨by decide, goes_of (by decide +kernel), goes_of (by decide +kernel), goes_of (by decide +kernel), goes_of (by decide +kernel), by decide +kernel⟩

theorem test_halt_core : Store.get false (next (halt1 0) sSys).haltedCores 0 = true ∧ (next (halt1 0) sSys).haltedPart = false := by decide +kernel
/-- The gang's context is that of slot 5; slot 6 holds another one, without a gang. -/
def sSys5 : State := { sSys with ctxs := [(5, { valid := true }), (6, { valid := true })], launches := sSys.launches.map fun l => { l with slot := 5 } }
theorem test_halt_part_kills : ((next (halt1 1) sSys5).ctx 5).killed = true ∧ ((next (halt1 1) sSys5).ctx 6).killed = false ∧ ((next (halt1 1) sSys5).haltedPart) = true := by decide +kernel
theorem witness_HaltCapturesAndKills : (halt1 0).wf = true ∧ Goes (halt1 0) sSys b0 lanes16 ∧ Goes (halt1 1) sSys b0 lanes16 ∧ (sSys.warps.map fun v => v.uid).Nodup ∧ (sSys.gangs.map fun g => g.uid).Nodup ∧
    (Rule.Permitted false sSys5 (sSys5.warp 1) ∧ Goes (halt1 1) sSys5 b0 lanes16 ∧ (sSys5.gangs.any fun g => decide (g.state = .placed) && decide ((sSys5.launch g.launch).slot < 256)) = true) :=
  ⟨by decide, goes_of (by decide +kernel), goes_of (by decide +kernel), by decide +kernel, by decide +kernel, by unfold Rule.Permitted; decide +kernel, goes_of (by decide +kernel), by decide +kernel⟩
def sHeld1 : State := next bkpt1 sDebug
theorem test_debug_resumes : (((next (.dbgctlResume 1) sHeld1).warp 1).thread 3).pc = 12 ∧ (((next (.dbgctlResume 1) sHeld1).warp 1).thread 3).status = .running ∧ (next (.dbgctlResume 1) sHeld1).mgmt.dbgev = 0 := by decide +kernel
theorem test_debug_bit_0 : (((next (.dbgctlResume 2) sHeld1).warp 1).thread 3).status = .blocked .debug := by decide +kernel
theorem witness_DebugResumes : sHeld1.mgmt.dbgev.getLsbD 63 = true ∧ debugged sHeld1 = some (sHeld1.warp 1) ∧ (sHeld1.warp 1).width ≤ (sHeld1.warp 1).threads.length ∧
    (sHeld1.warps.all fun u => u.uid == 1 || u.held.isEmpty) = true := by decide +kernel
theorem witness_DebugResumes_second : ∃ s : State, (∃ u ∈ s.warps, u.uid ≠ 1 ∧ u.held ≠ []) ∧ (∀ u ∈ s.warps, u.rank < 32 ∧ u.num < 32) ∧ debugged s = some (s.warp 1) ∧ s.mgmt.dbgev.getLsbD 63 = true :=
  ⟨{ sHeld1 with warps := sHeld1.warps ++ [{ sHeld1.warp 1 with uid := 2, num := 1 }] }, by decide +kernel⟩

/-! ## Queues, launches, gangs, faults, keepers -/

/-- Queue 1 of slot 5: a descriptor at 0x7000 with one record, of a launch of one gang. -/
def queueDesc (tail : Nat) : List Byte := bytesOfNat 64 (0x10000 * 2 ^ 448 + 0x20000 * 2 ^ 384 + tail * 2 ^ 352 + 4 * 2 ^ 256)
def sQ (tail : Nat) : State :=
  each [(0x7000, queueDesc tail), (0x10000, waveRecord), (0x20000, []), (0x2000, [12])]
    { bare with ctxs := [(5, { valid := true, queues := [(1, { qdesc := 0x7000 })] })] } fun e s => withLine s e.1 e.2
def sQ1 : State := next (.qbell 5 1) (sQ 1)
theorem test_qbell_takes : (sQ1.launches.drop 1).map (fun l => (l.id, l.state)) = [(0x10000001, .waiting)] := by decide +kernel
theorem test_qbell_overrun : (((next (.qbell 5 1) (sQ 17)).ctx 5).queue 1).stopped = true ∧ (next (.qbell 5 1) (sQ 17)).launches.length = 1 := by decide +kernel
theorem test_qdesc_code_3 : ((next (.qdescWrite 5 1 0x7020) (sQ 1)).ctx 5).ctxst = 0x13 ∧ ((next (.qdescWrite 5 1 0x7000) (sQ 1)).ctx 5).ctxst = 0 := by decide +kernel
theorem witness_QueuesAreTaken : ((sQ 1).ctx 5).valid = true ∧ (((sQ 1).ctx 5).queue 1).qdesc = 0x7000 ∧ (((sQ 1).ctx 5).queue 1).stopped = false ∧
    (readQueue 5 1 (sQ 17)).1.map (fun d => (d.tail, d.head, d.logn)) = some (17, 0, 4) ∧
    (readQueue 5 1 ((sQ 1).onCtx 5 fun c => c.onQueue 1 fun k => { k with qdesc := 0x7020 })).1 = none := by decide +kernel

/-- The page at va is in migration: its translation says so, and no line of it is present. -/
def moving (va : Nat) (s : State) : State :=
  { s with mem := { s.mem with lines := s.mem.lines.filter (fun e => e.1 / 512 != va / 65536), tlb := [(tlbKey va 4, (0, 0x17))] } }
/-- R304: a doorbell whose descriptor, or whose record, lies on such a page does nothing and waits. -/
theorem test_qbell_waits : ([0x7000, 0x10000].map fun va => (next (.qbell 5 1) (moving va (sQ 1))).waiters) = [[(0, 0x7000, .qbell 5 1)], [(0, 0x10000, .qbell 5 1)]] ∧
    ([0x7000, 0x10000].map fun va => (next (.qbell 5 1) (moving va (sQ 1))).launches.length) = [1, 1] := by decide +kernel
theorem witness_QueuesAreTaken_waits : (sQ 1).stall = none ∧ (readQueue 5 1 (moving 0x7000 (sQ 1))).1 = none ∧ (readQueue 5 1 (moving 0x7000 (sQ 1))).2.stall = some 0x7000 ∧
    ((readQueue 5 1 (moving 0x10000 (sQ 1))).1.map fun d => (takeRecords 5 1 d 1 (readQueue 5 1 (moving 0x10000 (sQ 1))).2).stall) = some (some 0x10000) ∧
    ((readQueue 5 1 (sQ 1)).1.map fun d => (takeRecords 5 1 d 1 (readQueue 5 1 (sQ 1)).2).stall) = some none := by decide +kernel

/-- The launch taken is the next to be placed. -/
def sPlaced : State := next .gangDispatch sQ1
theorem test_gang_placed : ((sPlaced.gang 1).state, (sPlaced.gang 1).launch, (sPlaced.warps.drop 1).map (fun w => (w.gang, w.width, ((w.thread 3).seed)))) = (.placed, 2, [(1, 16, .ofNat 16 (3 * 0x9E37))]) := by decide +kernel
theorem witness_GangsArePlaced_fresh : headBid sQ1 = some { prio := 0, rank := 2, order := 2, cand := .fresh 2 } ∧ ((Cand.fresh 2).place sQ1).isSome = true ∧
    (sQ1.gangs.all fun x => x.uid != sQ1.nextGang) = true ∧ sQ1.hasLaunch 2 = true ∧ (sQ1.gangs.map fun g => g.uid).Nodup ∧ (sQ1.launches.map fun l => l.uid).Nodup ∧
    sQ1.haltedPart = false := by decide +kernel
/-- The root's gang belongs to a context with a save area. -/
def sEvictable : State := { lab with ctxs := [(5, { valid := true, savesize := 0x1000000 })], launches := lab.launches.map fun l => { l with slot := 5 } }
def sEvicted : State := next (.preemptEvict 0) sEvictable
theorem test_evicted : (sEvicted.gang 0).state = .evicted ∧ (sEvicted.gang 0).saved = saveBytes sEvictable (sEvictable.gang 0) := by decide +kernel
/-- R280: per warp 4 · 64 · 16 + 4 · 256 + 2,048 + 2,048 · 16 + 4,096, per block 65,536 + 16,384. -/
theorem test_save_bytes : saveBytes sEvictable (sEvictable.gang 0) = (4096 + 1024 + 2048 + 32768 + 4096) + (65536 + 16384) := by decide +kernel
theorem test_restored : ((next .gangRestore sEvicted).gang 0).state = .placed ∧ ((next .gangRestore sEvicted).warp 1).threads = (sEvictable.warp 1).threads := by decide +kernel
theorem witness_GangsArePlaced_back : ((headBid sEvicted).map fun b => (b.rank, b.cand)) = some (1, .back 0) ∧
    ((Cand.back 0).place sEvicted).isSome = true ∧ sEvicted.hasGang 0 = true ∧ (sEvicted.warps.map fun w => w.uid).Nodup := by decide +kernel
theorem witness_EvictionFreezes : (sEvictable.gang 0).state = .placed ∧ saveFits sEvictable (sEvictable.gang 0) 0 = true ∧ sEvictable.hasGang 0 = true ∧
    (sEvictable.warps.all fun w => decide (w.ops = [])) = true := by decide +kernel
theorem no_table {s : State} {slot va : Nat} (h1 : ∀ a, s.mem.dram.byte a = 0) (h2 : ∀ l, Store.get 0 s.mem.lineKey l = 0)
    (h3 : ∀ j, Store.get false s.mem.poisonDram j = false) : savePa s slot va = none := by
  have hr : ∀ pe, natOfBytes (dramRead s 0 pe 8) = 0 := fun pe => by simp only [dramRead, h2, h1]; rfl
  rw [savePa, show (5 : Nat) = 4 + 1 from rfl, walk]
  simp [h3, hr, nbits]
/-- The tables of its context are empty: the area has no place, and stays without one. -/
theorem witness_EvictionFreezes_area : (sEvictable.warps.map fun w => w.uid).Nodup ∧ (∀ va, savePa sEvictable 5 va = none) ∧
    ∀ m va, Rule.MemOutside (fun _ => False) sEvictable m → savePa { sEvictable with mem := m } 5 va = savePa sEvictable 5 va := by
  have h1 : ∀ a, sEvictable.mem.dram.byte a = 0 := fun a => by rw [show sEvictable.mem.dram = [] by decide +kernel]; rfl
  have h2 : ∀ l, Store.get 0 sEvictable.mem.lineKey l = 0 := fun l => by rw [show sEvictable.mem.lineKey = [] by decide +kernel]; rfl
  have h3 : ∀ j, Store.get false sEvictable.mem.poisonDram j = false := fun j => by rw [show sEvictable.mem.poisonDram = [] by decide +kernel]; rfl
  refine ⟨by decide +kernel, fun va => no_table h1 h2 h3, fun m va ⟨_, hm⟩ => ?_⟩
  rw [no_table h1 h2 h3]
  refine no_table (fun a => ?_) (fun l => ((hm l id).1).trans (h2 l)) fun j => ?_
  · have := (hm (a / 128) id).2.1 (a % 128) (Nat.mod_lt _ (by decide))
    rwa [Nat.div_add_mod, h1] at this
  · have := (hm (j / 16) id).2.2 (j % 16) (Nat.mod_lt _ (by decide))
    rwa [Nat.div_add_mod, h3] at this
theorem test_evict_register : (next (.evictWrite 0) sEvictable).agenda = sEvictable.agenda ++ [.preemptEvict 0] := by decide +kernel

/-- The launch's only gang has retired. -/
def sDone : State := { sPlaced with gangs := sPlaced.gangs.map fun g => if g.uid = 1 then { g with state := .retired } else g }
theorem test_launch_completes : ((next (.launchComplete 2) sDone).launch 2).state = .ended 0 ∧ (next (.launchComplete 2) sDone).mem.l2.bytes 0x20000 8 = bytesOfNat 4 0x10000001 ++ [0, 0, 0, 0] := by decide +kernel
theorem witness_LaunchesComplete : launchDone sDone 2 = true ∧ sDone.hasLaunch 2 = true ∧ (completeLaunch 2 sDone).stall = none ∧ (sDone.launch 2).queue = some 1 ∧ (sDone.launch 2).wave = none ∧ (sDone.launch 2).rom = false := by decide +kernel
/-- A launch that waits for one that has ended with status 5. -/
def sDepends : State := { sQ1 with launches := sQ1.launches.flatMap fun l => if l.uid = 2 then [{ l with state := .ended 5 }, { l with uid := 3, id := 0x10000002, record := { l.record with dep0 := l.id } }] else [l] }
theorem witness_LaunchesComplete_failed : launchDone sDepends 3 = true ∧ (sDepends.launch 3).state = .waiting ∧ depFails sDepends (sDepends.launch 3) = true ∧ (completeLaunch 3 sDepends).stall = none ∧ sDepends.hasLaunch 3 = true := by decide +kernel

/-- A trap that nothing handles: TRET outside a handler. -/
def sFatal : State := next tret1 lab
theorem test_fatal_ends_launch : ((next (.fatalTrap 0) sFatal).launch 1).state = .ended 5 ∧ (next (.fatalTrap 0) sFatal).gangs = [] := by decide +kernel
def sContained : State := { lab with gangs := lab.gangs.map fun g => { g with retained := { g.retained with contain := true, since := 14 } } }
def l2Line : ErrWhere := { addr := 0, pa := false, source := 0, ltype := 1, loc := 0 }
theorem test_relaunched : ((next (.uncorrectableConsumed 0 l2Line) sContained).gang 0).state = .relaunching ∧ ((next (.uncorrectableConsumed 0 l2Line) sContained).gang 0).retained.since = 15 := by decide +kernel
theorem witness_ErrorsEndGangs : (sFatal.reports.map fun r => r.gang) = [0] ∧ sFatal.hasGang 0 = true ∧ (sFatal.launch 1).state.live = true ∧ sFatal.hasLaunch 1 = true ∧
    sContained.hasGang 0 = true ∧ (sContained.gang 0).state = .placed ∧ (sContained.gang 0).retained.contain = true ∧ (lab.gang 0).retained.contain = false := by decide +kernel

/-- A load of the root has met a page that is not present. -/
def sFaulted : State :=
  let s := next (.ld H .b32 false false (ops (vec 3) (uni 0) zr zr)) { sMem with cur := some b1 }
  let s := s.onOp ref0 fun o => { o with state := .faulted }
  { s with faults := [{ op := ref0, world := 0, asid := 0, va := 0x50000, kind := 0 }] }
def sBatch : State := next (.recoverableFault 0) sFaulted
theorem test_batch : (sBatch.batches.map fun b => (b.ident, b.pages.head?.map fun p => p.2.2.1), (sBatch.warp 1).batch) = ([(.ofNat 32 sFaulted.nextBatch, some 0x50000)], some (.ofNat 32 sFaulted.nextBatch)) := by decide +kernel
theorem test_batch_retry : ((op0 (next (.fqreplyRetry (.ofNat 32 sFaulted.nextBatch)) sBatch)).state, (op0 (next (.fqreplyRetry (.ofNat 32 sFaulted.nextBatch)) sBatch)).replay, (next (.fqreplyRetry (.ofNat 32 sFaulted.nextBatch)) sBatch).batches) = (.notSent, true, []) := by decide +kernel
theorem test_batch_refuse : ((next (.fqreplyRefuse (.ofNat 32 sFaulted.nextBatch)) sBatch).warp 1).asyncTrap.map (fun t => (t.2.2.cause, t.2.2.addr)) = some (3, 0x50000) := by decide +kernel
theorem witness_FaultsAreBatched : sFaulted.faults.length = 1 ∧ sFaulted.hasWarp 1 = true ∧ (sBatch.batch (.ofNat 32 sFaulted.nextBatch)).isSome = true ∧ sBatch.batch 0 = none ∧
    (sBatch.batches.map fun b => b.ident).Nodup ∧ sBatch.opOf ref0 = some (op0 sBatch) ∧ (sBatch.warp 1).asyncTrap = none ∧
    sCopy1.opOf ref0 = some (op0 sCopy1) ∧ (0 : DWord).toNat ∈ scoutNext sCopy1 ref0 := by decide +kernel

/-- Two requests from outside wait for the batch: refused, the first is answered and the other made again. -/
theorem test_batch_refuse_waiting :
    let s := { sBatch with waiters := [(.ofNat 32 sFaulted.nextBatch, 0x50000, .hostWindowRead (.window 0) 0 1), (.ofNat 32 sFaulted.nextBatch, 0x50000, .hostWindowRead (.window 8) 0 1)] }
    (next (.fqreplyRefuse (.ofNat 32 sFaulted.nextBatch)) s).sent = [.hostAbort] ∧
    (next (.fqreplyRefuse (.ofNat 32 sFaulted.nextBatch)) s).agenda = .hostWindowRead (.window 8) 0 1 :: s.agenda := by decide +kernel
/-- A fault of the warp's fetch run joins the batch that waits (R275); the operations of a batch are gone. -/
def sJoins : State := { sBatch with faults := [{ op := ref0, world := 0, asid := 0, va := 0x70000, kind := 0 }] }
theorem test_batch_joins : (next (.recoverableFault 0) sJoins).batches.map (fun b => b.pages.map fun p => p.2.2.1) = [[0x50000, 0x70000]] := by decide +kernel
theorem witness_FaultsAreBatched_joins : (sJoins.batches.any fun b => decide ((sJoins.warp 1).batch = some b.ident) && decide (b.pages.length < 33) && (b.pages.head?.any fun p => decide (p.2.2.2.1 ≤ 2))) = true := by decide +kernel
theorem witness_FaultsAreBatched_fetch : ∃ s : State, ∃ x ∈ s.batches, ∃ r, x.ops.head? = some r ∧ s.opOf r = none ∧ s.hasWarp r.warp = true ∧ s.batch x.ident = some x :=
  ⟨onW sBatch fun w => { w with ops := [] }, (onW sBatch fun w => { w with ops := [] }).batches.getD 0 { ident := 0, ops := [], pages := [], launch := 0, gang := 0 }, by decide +kernel, ref0, by decide +kernel⟩

/-- The keeper of the warp has reached its limit. -/
def sKeeper (n : Nat) : State :=
  { onW lab fun w => { w with keeper := 16777216 } with
    clusters := lab.clusters.map fun c => { c with cklim := 3 }
    gangs := lab.gangs.map fun g => { g with blocks := g.blocks.map fun b => { b with escalations := n } } }
theorem test_keeper_traps : ((next (.warpKeeperExpiry 1) (sKeeper 2)).reports.map fun r => (r.trap.cause, r.trap.info)) = [(0x0D, 0x80000001)] ∧ (next (.warpKeeperExpiry 1) (sKeeper 1)).reports = [] := by decide +kernel
def sQueueKeeper : State := sQ1.onCtx 5 fun c => c.onQueue 1 fun k => { k with keeper := 1073741824 }
theorem test_keeper_notice : (next (.commandKeeperExpiry 5 1) sQueueKeeper).mgmt.knote = .ofNat 64 (2 ^ 63 + 5 * 2 ^ 36 + 2 ^ 32 + 0x10000001) := by decide +kernel
theorem witness_KeepersEscalate : keeperDue (sKeeper 2) 1 = true ∧ (sKeeper 2).hasWarp 1 = true ∧ (sKeeper 2).hasGang 0 = true ∧ ((sKeeper 2).warp 1).rank < ((sKeeper 2).gang 0).blocks.length ∧ ((sKeeper 2).warp 1).live.head? = some 0 ∧ ((sKeeper 2).warp 1).asyncTrap = none ∧
    queueKeeperDue sQueueKeeper 5 1 = true ∧ (keeperLaunch sQueueKeeper 5 1).isSome = true := by decide +kernel
/-- Past the limit, and of a thread in its handler, the trap is DOUBLE (R214, R289). -/
def sKeeperIn : State := onW (sKeeper 7) fun w => w.onThread 0 fun t => { t with handler := true }
theorem test_keeper_double : ((next (.warpKeeperExpiry 1) sKeeperIn).reports.map fun r => (r.trap.cause, r.trap.info)) = [(0x0C, 0x8000000D)] ∧
    ((next (.warpKeeperExpiry 1) (sKeeper 7)).reports.map fun r => r.trap.cause) = [0x0D] := by decide +kernel

/-! ## The SPDM responder -/

/-- Firmware runs, and the mailbox lies at 0 of slot 0, whose lines are there; a request has been delivered. -/
def sBox : State :=
  each [0x0, 0x1000, 0x2000] { bare with ctxs := [(0, { valid := true })], mgmt := { bare.mgmt with bootst := 2 } } fun a s => withLine s a []
def asked (r : List Byte) (s : State) : State := next (.doeRequest r) s
def inState (n : Nat) : State := { sBox with spdm := { sBox.spdm with state := n } }
def getVersion : List Byte := [0x10, 0x84, 0, 0]
def challenge : List Byte := [0x12, 0x83, 3, 0] ++ List.replicate 32 0
theorem test_doe_short : (asked [0x10, 0x84, 0] sBox).spdm.responses = [none] := by decide +kernel
theorem test_doe_delivers : (asked getVersion sBox).mem.l2.bytes 0x1000 4 = getVersion ∧ (asked getVersion sBox).mem.l2.bytes 0 8 = [1, 0, 0, 0, 4, 0, 0, 0] := by decide +kernel
theorem test_challenge_holds : ((asked challenge sBox).certs.map fun c => c.hold) = [false, false, false, true, false, false, false, false] := by decide +kernel
theorem test_version : (next .getVersion (asked getVersion sBox)).mem.l2.bytes 0x2000 8 = [0x10, 0x04, 0, 0, 0, 1, 0x00, 0x12] := by decide +kernel
theorem test_capabilities : (next .getCapabilities (asked [0x12, 0xE1, 0, 0] (inState 1))).mem.l2.bytes 0x2008 4 = [0x16, 0, 0, 0] := by decide +kernel
theorem test_unexpected : (next .getCapabilities (asked [0x12, 0xE1, 0, 0] sBox)).mem.l2.bytes 0x2000 4 = [0x12, 0x7F, 0x04, 0] := by decide +kernel
theorem test_version_mismatch : (next .getDigests (asked [0x11, 0x81, 0, 0] (inState 3))).mem.l2.bytes 0x2000 4 = [0x12, 0x7F, 0x41, 0] := by decide +kernel
theorem test_unsupported : (next .spdmUnsupportedRequest (asked [0x12, 0xE8, 0, 0] (inState 3))).mem.l2.bytes 0x2000 4 = [0x12, 0x7F, 0x07, 0] := by decide +kernel
theorem test_digests_none : (next .getDigests (asked [0x12, 0x81, 0, 0] (inState 3))).mem.l2.bytes 0x2000 4 = [0x12, 0x01, 0, 0] := by decide +kernel
def withChain (s : State) : State := { s with certs := s.certs.map fun c => { c with chain := [1, 2, 3] } }
theorem test_certificate : (next .getCertificate (asked [0x12, 0x82, 3, 0, 1, 0, 9, 0] (withChain (inState 3)))).mem.l2.bytes 0x2000 10 = [0x12, 0x02, 3, 0, 2, 0, 0, 0, 2, 3] := by decide +kernel
theorem test_collected : (next .doeResponseCollect (next .getVersion (asked getVersion sBox))).spdm.responses = [some [0x10, 0x04, 0, 0, 0, 1, 0x00, 0x12]] := by decide +kernel
theorem witness_SpdmErrors : spdmRequest (asked getVersion sBox) = some getVersion ∧ spdmRequest (asked [0x12, 0xE8, 0, 0] sBox) = some [0x12, 0xE8, 0, 0] ∧
    Rule.answering 0xE8 = none ∧ Rule.answering 0x84 = some .getVersion := by decide +kernel
theorem witness_SpdmErrors_state : ¬Rule.accepted 0xE1 (asked [0x12, 0xE1, 0, 0] sBox).spdm ∧ spdmRequest (asked [0x12, 0xE1, 0, 0] sBox) = some [0x12, 0xE1, 0, 0] := by
  unfold Rule.accepted; decide +kernel
theorem witness_SpdmErrors_malformed : Rule.malformed 0x82 [0x12, 0x82, 8, 0, 0, 0, 9, 0] sBox ∧ Rule.malformed 0xE0 [0x12, 0xE0, 0, 33] sBox ∧ ¬Rule.malformed 0xE0 [0x12, 0xE0, 0, 32] sBox := by
  unfold Rule.malformed; decide +kernel
/-- Each request that is answered. -/
def requests : List (Nat × List Byte × Instr) :=
  [(0, getVersion, .getVersion), (1, [0x12, 0xE1, 0, 0], .getCapabilities), (2, [0x12, 0xE3, 0, 0, 32, 0, 1, 0, 0, 1, 0, 0, 4, 0, 0, 0], .negotiateAlgorithms),
   (3, [0x12, 0x81, 0, 0], .getDigests), (3, [0x12, 0x82, 3, 0, 1, 0, 9, 0], .getCertificate), (3, challenge, .challenge), (3, [0x12, 0xE0, 1, 0xFF], .getMeasurements)]
theorem witness_SpdmResponses : ∀ q ∈ requests, spdmRequest (asked q.2.1 (withChain (inState q.1))) = some q.2.1 ∧
    Rule.answering (Rule.byteAt q.2.1 1) = some q.2.2 ∧ Rule.byteAt q.2.1 0 = Rule.version (Rule.byteAt q.2.1 1) := by decide +kernel
theorem witness_SpdmResponses_accepted : ∀ q ∈ requests, Rule.accepted (Rule.byteAt q.2.1 1) (asked q.2.1 (withChain (inState q.1))).spdm ∧
    ¬Rule.malformed (Rule.byteAt q.2.1 1) q.2.1 (asked q.2.1 (withChain (inState q.1))) := by
  unfold Rule.accepted Rule.malformed; decide +kernel
theorem witness_DoeDelivers : mailOk sBox = true ∧ mailOk bare = false ∧ (asked getVersion sBox).spdm.awaiting = true ∧
    (next .getVersion (asked getVersion sBox)).spdm.awaiting = true ∧ answered (next .getVersion (asked getVersion sBox)) = true ∧
    (next .getVersion (asked getVersion sBox)).spdm.waiting = [] := by decide +kernel
/-- Every line of the mailbox is there; a request is out and answered; the context is gone while one is out. -/
def sMail : State := each (List.range 96) sBox fun k s => withLine s (128 * k) []
def sAnswered : State := next .getVersion (asked getVersion sMail)
def sGone : State := { asked getVersion sBox with ctxs := [] }
theorem test_doe_gone : (next .doeResponseCollect { sGone with spdm := { sGone.spdm with waiting := [challenge, getVersion] } }).spdm.responses = [none, none, none] := by decide +kernel
theorem witness_DoeDelivers_mailbox : sMail.spdm.awaiting = false ∧ sMail.waiters = [] ∧ mailOk sMail = true ∧ mailBase sMail = 0 ∧ (mailSpace sMail).loc 0 = 0 ∧
    ((List.range 96).all fun l => reachesB sMail (128 * l) 1 .write && reachesB sAnswered (128 * l) 1 .read) = true ∧
    mailOk sAnswered = true ∧ answered sAnswered = true ∧ sAnswered.spdm.waiting = [] ∧ sAnswered.spdm.awaiting = true ∧ sAnswered.mem.poisonL2 = [] := by decide +kernel
theorem witness_DoeDelivers_gone : sGone.spdm.awaiting = true ∧ mailOk sGone = false ∧ answered sGone = false ∧ sGone.waiters = [] := by decide +kernel

/-! ## Reliability, host, fabric, platform -/

theorem witness_CorrectedErrorsCount : (siteWhere bare (.dram 0)).ltype.toNat ∈ [0, 1, 3, 4, 5] ∧ bare.mgmt.erlogn = 0 ∧ bare.mgmt.cethr = 256 ∧
    Store.get false bare.deadPorts 2 = false ∧ Store.get false ({ bare with deadPorts := [(2, true)] } : State).deadPorts 2 = true := by decide +kernel
theorem witness_CorrectedErrors_ring : ∃ s : State, Rule.RingOpen s ∧ s.mgmt.cethr = 0 := ⟨{ bare with mgmt := { bare.mgmt with erlogn := 4, cethr := 0 } }, by unfold Rule.RingOpen; decide +kernel⟩
theorem test_corrected_counts : (next (.softError (.l2 0) true) bare).ceCount.map Prod.snd = [1] := by decide +kernel
theorem test_corrected_retires : (next (.softError (.vreg 1 3 5) true) { bare with mgmt := { bare.mgmt with cethr := 1 } }).retire.map Prod.snd = [true] := by decide +kernel
theorem test_link_disabled : (next (.linkError 2 7 .disabled) bare).deadPorts = [(2, true)] ∧ (next (.linkError 2 7 .retrained) bare).deadPorts = [] := by decide +kernel
/-- R362, R410: a port that goes down takes the requests with it that came in over it. -/
theorem test_link_answers : let s := { bare with waiters := [(0, 0, .hostWindowRead (.window 0) 0 1), (0, 0, .peerRequest { source := 2, port := 4, exportNo := 0, offset := 0, world := 1, op := .read 2 })] }
    (next (.linkError 4 7 .disabled) s).sent = [.peerData [0, 0] true] ∧ (next (.linkError 4 7 .disabled) s).waiters.length = 1 ∧
    (next (.linkError 18 7 .disabled) s).sent = [.hostData [0] true] := by decide +kernel
theorem test_version_bad : ((next (.softError (.l2shadow 0 0x1008) false) sVer).gang 0).badVersion = [(0x201, true)] ∧ (next (.softError (.l2shadow 0 0x5000) false) sVer).gangs = sVer.gangs := by decide +kernel
theorem test_predicate_flips : (((next (.softError (.arithP 1 3 2) false) bare).warp 1).thread 3).preds = 4 ∧ (((next (.softError (.bothP 1 3 2) false) bare).warp 1).thread 3).preds = 4 := by decide +kernel
theorem test_register_bad : ((next (.softError (.vreg 1 3 5) false) bare).warp 1).vreg 5 3 = { val := 0, bad := true } ∧ ((next (.softError (.vreg 1 3 5) false) bare).warp 1).vreg 5 4 = { val := 0 } := by decide +kernel
theorem test_tag_both_halts : (next (.softError (.l2tag 0 true) false) bare).haltedPart = true ∧ (next (.softError (.l2tag 0 false) true) bare).haltedPart = false := by decide +kernel
theorem test_arith_flips : ((next (.softError (.arith 1 3 5 0x80) true) (setV bare 5 fun _ => 1)).warp 1).vreg 5 3 = { val := 0x81 } := by decide +kernel
theorem witness_UncorrectedErrorsStay : 3 < (bare.warp 1).threads.length ∧ (∃ e ∈ (sVer.gang 0).version, e.1 / 128 = 0x1008 / 128) ∧ sVer.hasGang 0 = true ∧ bare.hasWarp 1 = true ∧ bare.hasGang 0 = true ∧ 0 < (bare.gang 0).blocks.length ∧ linePresent (withLine bare 0x1000 []) 0x1000 = true ∧
    linePresent bare 0x1000 = false ∧ placeOf bare 0x10000000000 = .dram ∧ (bare.warpLaunch (bare.warp 1)).record.shadow = false ∧
    ((withRec bare fun r => { r with shadow := true }).warpLaunch (bare.warp 1)).record.shadow = true ∧ Store.get none (bare.warp 1).shadowV (vkey 5 3) = none := by decide +kernel
/-- The shadow of lane 3 holds another v2. -/
def sShadow : State :=
  onW (withRec sMem fun r => { r with shadow := true }) fun w => { w with shadowV := [(vkey 2 3, some 9)] }
theorem test_shadow_mismatch : (next st1 sShadow).agenda.drop sShadow.agenda.length |>.map (fun i => match i with
    | .uncorrectableConsumed g w => (g, w.source.toNat)
    | _ => (9, 9)) |> (· = [(0, 0x0E)]) := by decide +kernel
theorem witness_ShadowMismatchIsCaught : leavesWarp st1 = true ∧ (raw st1).isSome = true ∧ sShadow.cur = some b0 ∧ (sShadow.warp 1).asyncTrap = none ∧ (sShadow.warp 1).diverged = true ∧
    (match check st1 b0 sShadow with
      | .go a => decide (a = lanes16)
      | _ => false) = true ∧
    ((uses st1).any fun u => u.differs ((sShadow.advance 1 lanes16 0).warp 1) ((sShadow.advance 1 lanes16 0).warp 1).asShadow 3) = true := by decide +kernel

/-- An issue of warp 1 that its shadow has not copied. -/
def sLag : State := onW sShadow fun w => { w with lag := [0], ops := [], nextOp := 0 }.addOp { id := 0, ins := st1, pc := 0, lanes := 1, ctr := some .mem }
theorem test_shadow_turn : (sLag.warp 1).shadowReady sLag = true ∧ ((turnsOf sLag (sLag.warp 1)).map fun x => (x.shadow, x.slot)).getLast? = some (true, (sLag.warp 1).slot + 1) ∧
    ((shadowTurn 1 false sLag).warp 1).lag = [] := by decide +kernel
theorem witness_ShadowTakesTurns : sLag.hasWarp 1 = true ∧ (sLag.opOf { warp := 1, op := 0 }).isSome = true ∧ (sLag.warp 1).lag.head? = some 0 ∧
    (sLag.warpLaunch (sLag.warp 1)).record.shadow = true ∧ (bare.warpLaunch (bare.warp 1)).record.shadow = false := by decide +kernel

/-- A fence is held for the shadow's turn; nothing else is held, with lanes that stand there or that have gone on. -/
def sCopy (lag : List Nat) (pc : Word) : State := onW sShadow fun w => { w with lag, copy := some ({ b0 with pc }, fence 1) }
theorem witness_ShadowTakesTurns_copy : ((sCopy [0] 0).warp 1).copy = some (b0, fence 1) ∧ ((sCopy [0] 0).warp 1).lag ≠ [] ∧
    ((lanesOf b0.lanes).filter fun l => decide ((((sCopy [] 0).warp 1).thread l).status = .running ∧ (((sCopy [] 0).warp 1).thread l).pc = 0)) ≠ [] ∧
    ((lanesOf b0.lanes).filter fun l => decide ((((sCopy [] 24).warp 1).thread l).status = .running ∧ (((sCopy [] 24).warp 1).thread l).pc = 24)) = [] ∧
    64 ≤ ({ sLag.warp 1 with queued := [60, 4] } : Warp).queued.sum := by decide +kernel
/-- The guard of lane 3 differs; a register is empty. -/
def stP : Instr := .st (hdr 1) .b32 (ops zr (uni 0) (vec 1) (vec 2))
def sShadowP : State := onW (withRec sMem fun r => { r with shadow := true }) fun w => { w with shadowT := [(3, some { preds := 2, seed := 0, cvtflags := 0 })] }
theorem witness_ShadowMismatch_skip : leavesWarp stP = true ∧ (sShadowP.warp 1).diverged = true ∧ (match check stP b0 sShadowP with
      | .skip => true
      | _ => false) = true ∧ (lanes16.filter fun l => ((sShadowP.warp 1).asShadow.thread l).guard false 1) = [3] := by decide +kernel
def sShadowE : State := onW sShadowP fun w => w.setVreg 2 0 { full := false }
theorem witness_ShadowMismatch_empty : (match check st1 b0 sShadowE with
      | .empty 0 _ | .wait => true
      | _ => false) = true := by decide +kernel
theorem test_const_line_drops : ((next (.softError (.constCache 0 0x1000) false) { bare with caches := [(0, { consts := [(0x1000, some 1)] })] }).cache 0).consts = [] := by decide +kernel
theorem test_unchecked : (next (.softError (.arithU 1 4 1) true) bare).ceCount = [] ∧ ur (next (.softError (.arithU 1 4 1) true) bare) 4 = 1 ∧ unchecked (.arithU 1 4 1) = true ∧
    vr (next (.softError (.both 1 3 5 1) false) bare) 5 3 = 1 := by decide +kernel
theorem test_vote_two_of_three : ((next (.voteDisagree 1 0 2) bare).copyOf 1 0 1).state = .resync ∧ (next (.voteDisagree 1 0 2) bare).haltedPart = false ∧ (next (.voteDisagree 1 0 3) bare).haltedPart = true := by decide +kernel
def sVotes (n : Nat) : State := bare.setCopy 1 0 1 { bare.copyOf 1 0 1 with resyncs := n }
theorem test_vote_faulty : ((next (.voteDisagree 1 0 2) (sVotes 15)).copyOf 1 0 1).state = .faulty ∧ ((next (.voteDisagree 1 0 2) (sVotes 14)).copyOf 1 0 1).state = .resync := by decide +kernel
theorem test_resync : ((next (.resyncComplete 1 0 1) (next (.voteDisagree 1 0 2) bare)).copyOf 1 0 1).state = .voting := by decide +kernel
theorem witness_VotesAndPatrol : 0 < votedInstances 1 ∧ (∀ k < 3, (bare.copyOf 1 0 k).state = .voting) ∧ ((next (.voteDisagree 1 0 2) bare).copyOf 1 0 1).state = .resync ∧
    bare.mgmt.patrol ≠ 0 ∧ placeOf bare (0x10000000000 / 128 * 128) = .dram ∧ Store.get false bare.mem.poisonDram (0x10000000000 / 8) = false := by decide +kernel
/-- A granule that is marked and recorded. -/
theorem test_patrol_known : (next (.patrolRead (0x10000000000 / 128) (.uncorrectable 0)) { bare with mem := { bare.mem with poisonDram := [(0x10000000000 / 8, true)], noted := [(0x10000000000 / 8, true)] } }).ueCount = [] := by decide +kernel
theorem test_patrol_marks : (next (.patrolRead (0x10000000000 / 128) (.uncorrectable 3)) bare).mem.poisonDram = [(0x10000000000 / 8 + 3, true)] := by decide +kernel

theorem test_retadd : (next (.retadd 0x54) bare).retire = [(4 * 2 ^ 28 + 5, true)] ∧ (next (.retdel 0x54) (next (.retadd 0x54) bare)).retire = [] ∧ (next (.retadd 0x52) bare).retire = [] ∧
    (next (.retadd 0x52) { bare with mgmt := { bare.mgmt with erlogn := 4 } }).mgmt.ertail = 1 := by decide +kernel
theorem witness_RingsAndRetirement : bare.pendingErrs = [] ∧ (0x54 : Word).toNat % 16 ∈ [0, 1, 3, 4, 5] ∧ (0x52 : Word).toNat % 16 ∈ [2, 6, 7] ∧ (0x58 : Word).toNat % 16 ∉ [0, 1, 3, 4, 5] ∧
    (0x58 : Word).toNat % 16 ∉ [2, 6, 7] := by decide +kernel

/-- A window of two blocks of 64 KiB of world 1 at 0x40000, and an export of the same space; one line lies there. -/
def loc1 : Nat := ({ world := 1, asid := 7 } : Space).loc 0x40000
def sHost : State :=
  withLine { bare with
    windows := [(3, { vabase := 0x40000, size := 2, baroff := 4, asid := 7, world := 1, valid := true })]
    exports := [(5, { base := 0x40000, size := 1, asid := 7, world := 1, valid := true })]
    mgmt := { bare.mgmt with domcfg := 0x80000301 } } loc1 [1, 2, 3, 4]
def req1 : PeerReq := { source := 2, port := 4, exportNo := 5, offset := 1, world := 1, op := .read 2 }
def answers (s : State) : List (List Byte) := s.sent.filterMap fun x => match x with
  | .hostData bs _ => some bs
  | .peerData bs _ => some bs
  | .hostUnsupported => some [0x55]
  | .hostAbort => some [0xAA]
  | .peerError => some [0xEE]
  | _ => none
theorem test_host_reads : answers (next (.hostWindowRead (.window 0x40001) 0 2) sHost) = [[2, 3]] ∧ answers (next (.hostWindowRead (.window 0x60000) 0 2) sHost) = [[0x55]] := by decide +kernel
theorem test_host_writes : answers (next (.hostWindowRead (.window 0x40000) 0 4) (next (.hostWindowWrite 0x40001 0 [9, 8]) sHost)) = [[1, 9, 8, 4]] := by decide +kernel
theorem test_host_world_0 : answers (next (.hostWindowRead (.window 0x40001) 0 2) { sHost with windows := [(3, { vabase := 0x40000, size := 2, baroff := 4, asid := 7, world := 0, valid := true })] }) = [[0xAA]] := by decide +kernel
theorem witness_HostWindowsServe : hostWaits sHost = none ∧ hostWaits { sHost with waiters := [(4, 0, .hostWindowRead (.window 0) 0 1)] } = some (4, 0) ∧ hostUp sHost = true ∧ hostUp { sHost with deadPorts := [(18, true)] } = false ∧ windowAt sHost 0x60000 = none ∧ (windowAt sHost 0x40000).isSome = true ∧
    reachesB sHost loc1 4 .write = true ∧ reachesB sHost loc1 4 .read = true ∧ Store.get false sHost.deadPorts 18 = false ∧ (windowAt sHost 0x40000).map (fun w => w.world) = some 1 ∧
    (mgmtRead sHost 0xC028 4).isSome = true ∧ mgmtRead sHost 0xBFF8 4 = none := by decide +kernel
theorem test_peer_reads : answers (next (.peerRequest req1) sHost) = [[2, 3]] ∧ answers (next (.peerRequest { req1 with source := 1 }) sHost) = [[0xEE]] ∧ answers (next (.peerRequest { req1 with source := 4 }) sHost) = [[0xEE]] := by decide +kernel
/-- R154, R409: 5 is added to the word at 4; a write completes. -/
theorem test_peer_atomic : answers (next (.peerRequest { req1 with offset := 4, op := .read 4 }) (next (.peerRequest { req1 with offset := 4, op := .atomic .add .i32 5 }) sHost)) = [[0, 0, 0, 0], [5, 0, 0, 0]] ∧
    answers (next (.peerRequest { req1 with op := .write [7] }) sHost) = [[]] := by decide +kernel
theorem test_host_bar0 : answers (next (.hostWindowRead (.register 0xC028) 0 4) { sHost with mgmt := { sHost.mgmt with ffast := 7, mlock := 1 } }) = [[7, 0, 0, 0]] ∧
    answers (next (.hostWindowRead (.register 0xBFF8) 0 4) sHost) = [[0x55]] := by decide +kernel
theorem test_ports_down : answers (next (.peerRequest req1) { sHost with deadPorts := [(4, true)] }) = [] ∧
    answers (next (.hostWindowRead (.window 0x40001) 0 2) { sHost with deadPorts := [(18, true)] }) = [] := by decide +kernel
theorem test_peer_outside : answers (next (.peerRequest { req1 with offset := 65536 }) sHost) = [[0xEE]] ∧ answers (next (.peerRequest { req1 with world := 2 }) sHost) = [[0xEE]] := by decide +kernel
theorem witness_PeersAreServed : sHost.mgmt.domcfg.getLsbD 31 = true ∧ req1.source ≤ sHost.mgmt.domcfg.toNat / 2 ^ 8 % 2 ^ 6 ∧ req1.source ≠ sHost.mgmt.domcfg.toNat % 2 ^ 6 ∧
    (Store.get {} sHost.exports 5).valid = true ∧ req1.offset < 65536 * (Store.get {} sHost.exports 5).size.toNat ∧ (Store.get {} sHost.exports 5).world = req1.world ∧
    req1.port < 18 ∧ Store.get false sHost.deadPorts req1.port = false ∧ reachesB sHost loc1 8 .write = true := by decide +kernel
theorem test_snoop : (next (.cxlSnoop 0x100000000080 [5]) { bare with mem := { bare.mem with lines := [(0x21, { pa := 0x100000000080 }), (0x22, { pa := 0x100000000100 })] } }).mem.lines.map Prod.fst = [0x22] ∧
    (next (.cxlSnoop 0x100000000080 [5]) bare).mem.host = [(0x80, 5)] := by decide +kernel
theorem witness_SnoopsInvalidate : (placeOf bare 0x100000000080 = .host 0x80 ∧ placeOf bare 0 = .dram) ∧ bare.mem.lines = [] := by decide +kernel

/-- A line of (1, 7) at 0x40000 and one at 0x50000; the range holds the first granule. -/
def sShoot : State :=
  let s := withLine sHost (loc1 + 65536) [5]
  { s with mgmt := { s.mgmt with sdasid := 0x10007, sdva := 0x40000, sdlen := 1 } }
theorem test_shootdown_1 : (next .shootdownMode1 sShoot).mem.lines.map Prod.fst = [(loc1 + 65536) / 128] := by decide +kernel
/-- What is owed to a page of the range is done by it (R304). -/
theorem test_shootdown_pays : (next .shootdownMode0 { sShoot with owed := [(loc1, .bytes 3 0x40000 [9]), (loc1 + 65536, .bytes 3 0x50000 [9])] }).owed = [(loc1 + 65536, .bytes 3 0x50000 [9])] := by decide +kernel
theorem test_shootdown_0 : (next .shootdownMode0 sShoot).mem.lines = sShoot.mem.lines ∧ (next .shootdownMode0 sShoot).mgmt.intst.getLsbD 6 = true := by decide +kernel

def sCtxs : State := { bare with ctxs := [(3, { valid := true, asid := 9 }), (4, {})] }
theorem test_ctxid : ((next (.ctxidRegister 4 0x80010007) sCtxs).ctx 4).valid = true ∧ ((next (.ctxidRegister 4 0x80010007) sCtxs).ctx 4).world = 1 ∧
    ((next (.ctxidRegister 4 0x80000009) sCtxs).ctx 4).ctxst = 1 ∧ ((next (.ctxidRegister 4 0x80100007) sCtxs).ctx 4).ctxst = 2 := by decide +kernel
theorem test_ctxid_destroy : ((next (.ctxidDestroy 3) sCtxs).ctx 3).valid = false := by decide +kernel
theorem witness_ContextsComeAndGo : (sCtxs.ctx 3).valid = true ∧ (sCtxs.ctx 4).valid = false ∧ (∃ c ∈ sCtxs.ctxs, c.1 ≠ 4 ∧ c.2.valid = true ∧ c.2.asid = BitVec.ofNat 16 (0x80000009 : Word).toNat) ∧
    (0x80100007 : Word).toNat / 2 ^ 20 % 2 ^ 11 ≠ 0 := by decide +kernel

/-- A raster record at 0x3000 of 4 × 4 pixels; edge 0 carries 80 and edge 1 160 bytes. -/
def rasterRecord : List Byte := bytesOfNat 64 (0x4000 * 2 ^ 448 + 4 * 2 ^ 432 + 4 * 2 ^ 416 + 0 * 2 ^ 408 + 1 * 2 ^ 400)
def sRaster : State :=
  withLine { bare with ctxs := [(5, { valid := true, graph := some { edges := [{ valid := true, recsz := 5 }, { valid := true, recsz := 10 }] } })] } 0x3000 rasterRecord
theorem test_raster : ((next (.rastbaseWrite 5 0x3000) sRaster).ctx 5).raster = some { vis := 0x4000, width := 4, height := 4, skim := 0, bin := 1 } := by decide +kernel
theorem test_raster_bad : ((next (.rastbaseWrite 5 0x3000) (onG sRaster fun g => { g with edges := g.edges.reverse })).ctx 5).rastbase = 0 := by decide +kernel
theorem witness_RasterRegistered : (sRaster.ctx 5).valid = true ∧ (cpRead 5 0x3000 64 sRaster).1 = some rasterRecord ∧ (cpRead 5 (2 ^ 60) 64 sRaster).1 = none := by decide +kernel

/-- R304: the record's page is in migration. -/
theorem test_raster_waits : (next (.rastbaseWrite 5 0x3000) (moving 0x3000 sRaster)).waiters = [(0, 0x3000, .rastbaseWrite 5 0x3000)] ∧
    ((next (.rastbaseWrite 5 0x3000) (moving 0x3000 sRaster)).ctx 5).raster = none := by decide +kernel
theorem witness_RasterRegistered_waits : sRaster.stall = none ∧ (cpRead 5 0x3000 64 (moving 0x3000 sRaster)).1 = none ∧ (cpRead 5 0x3000 64 (moving 0x3000 sRaster)).2.stall = some 0x3000 ∧
    (cpRead 5 (2 ^ 60) 64 sRaster).2.stall = none := by decide +kernel

theorem test_mlock_drops : (next (.registerWrite true 0xC028 4 77) { bare with mgmt := { bare.mgmt with mlock := 1 } }).mgmt = { bare.mgmt with mlock := 1 } ∧
    (next (.registerWrite false 0xC028 4 77) { bare with mgmt := { bare.mgmt with mlock := 1 } }).mgmt ≠ { bare.mgmt with mlock := 1 } := by decide +kernel
theorem test_doorbell : (next (.registerWrite true 0x298 8 0) bare).agenda = [.qbell 5 3] := by decide +kernel
theorem test_vmin_clamps : mgmtRead (next (.registerWrite true 0xC180 4 5000) bare) 0xC180 4 = some 2300 ∧ mgmtRead (next (.registerWrite true 0xC180 4 5) bare) 0xC180 4 = some 1000 := by decide +kernel
theorem test_intst : (next (.intstClear 5) { bare with mgmt := { bare.mgmt with intst := 0x0F } }).mgmt.intst = 0x0A := by decide +kernel
theorem witness_RegistersAreWritten : mgmtRead bare 0xBFF8 4 = none ∧ mgmtRead bare 0xC028 4 ≠ none ∧ bare.mgmt.mlock = 0 ∧ ({ bare.mgmt with mlock := 1 } : Mgmt).mlock.getLsbD 0 = true ∧
    ({ bare.mgmt with domWritten := true } : Mgmt).domWritten = true := by decide +kernel

theorem test_thermal : (next (.powerMeasurement 2000 30 115) bare).haltedPart = true ∧ (next (.powerMeasurement 2000 30 114) bare).haltedPart = false ∧
    (next (.powerMeasurement 2000 30 105) bare).mgmt.thermst = 1 ∧ (next (.powerMeasurement 2000 30 104) bare).mgmt.thermst = 0 ∧ (next (.powerMeasurement 2301 30 40) bare).mgmt.thermst = 1 := by decide +kernel
theorem test_thermal_stays : (next (.powerMeasurement 10 30 40) { bare with mgmt := { bare.mgmt with thermst := 2 } }).mgmt.thermst = 2 := by decide +kernel
theorem test_wrekey_in_use : (next (.wrekey 1) { bare with ctxs := [(5, { valid := true, world := 1 })] }).mgmt.wrstat = 2 ∧ (next (.wrekey 1) bare).rekeys.getD 1 0 = bare.rekeys.getD 1 0 + 1 := by decide +kernel
def sIdle : State := { bare with clusters := bare.clusters.map fun c => { c with clock := 0x00100000 } }
theorem test_gate : (Store.get {} (next (.unitGate 0x25) sIdle).units 0x25).gated = true := by decide +kernel
theorem witness_PlatformActs : gateable sIdle 0x25 = true ∧ worldInUse bare 1 = false ∧ worldInUse { bare with ctxs := [(5, { valid := true, world := 1 })] } 1 = true ∧ 1 < bare.rekeys.length := by decide +kernel

theorem test_part_reset : (next .partReset bare).mgmt.bootst = 1 ∧ (next .partReset bare).warps = [] ∧ ((next .partReset bare).launches.map fun l => l.rom) = [true] := by decide +kernel
theorem witness_PartResets : rootRetired bare = false ∧ ∃ s : State, rootRetired s = true := ⟨by decide +kernel, { bare with retire := [(31, true)] }, by decide +kernel⟩

/-! ## Words and whole-machine rules -/

def add2 : Instr := .iadd H .i32 (ops (vec 3) (vec 1) (vec 2) zr)
theorem witness_DecodeOfEncode : add2.encoded = true ∧ add2.wf = true := by decide
theorem witness_EncodeOfDecode : decode 0x020070002003200120020000 = .ok add2 := by decide +kernel
theorem witness_MemoriesStayCanonical : ∃ s t : State, s.mem.Canonical ∧ step s = .next t := by
  have h : (match step bare with
    | .next _ => true
    | _ => false) = true := by decide +kernel
  split at h
  · rename_i t ht
    exact ⟨bare, t, by unfold Mem.Canonical; decide +kernel, ht⟩
  · exact absurd h (by simp)
theorem witness_HaltedPartRests : ∃ s : State, s.haltedPart = true ∧ s.agenda = [] ∧ s.received = [] := ⟨{ bare with haltedPart := true }, by decide +kernel⟩
theorem test_reset_resets : State.reset.agenda = [.partReset] ∧ State.reset.warps = [] := by decide +kernel

end Sys2Proof.Tests
end

section
/-! SUPPORT. What proofs about instructions that go through share: the lowest lane that fails, the state behind the advance of the bundle, numbers as bytes, the kinds of a well-formed instruction's operands. -/

open Sys2Proof Sys2Proof.Machine

namespace Sys2Proof.Machine

/-! ## The lowest lane that fails -/

/-- The active lanes stand in rising order. -/
theorem Goes.act_sorted {i : Instr} {s : State} {b : Bundle} {act : List Nat} (h : Goes i s b act) : act.Pairwise (· < ·) := by
  rw [(check_go h.passes).1]
  exact (List.pairwise_lt_range.filter _).filter _

/-- In a rising list the first hit is the one below which nothing is hit. -/
theorem findSome?_of_lowest {α : Type} {l : List Nat} {f : Nat → Option α} {k : Nat} {y : α} (hs : l.Pairwise (· < ·)) (hk : k ∈ l)
    (hy : f k = some y) (hlow : ∀ m ∈ l, m < k → f m = none) : l.findSome? f = some y := by
  induction l with
  | nil => simp at hk
  | cons x xs ih =>
    rw [List.pairwise_cons] at hs
    rcases List.mem_cons.mp hk with rfl | hk
    · rw [List.findSome?_cons, hy]
    · rw [List.findSome?_cons, hlow x List.mem_cons_self (hs.1 k hk)]
      exact ih hs.2 hk fun m hm => hlow m (List.mem_cons_of_mem x hm)

theorem find?_of_lowest {l : List Nat} {p : Nat → Bool} {k : Nat} (hs : l.Pairwise (· < ·)) (hk : k ∈ l) (hp : p k = true)
    (hlow : ∀ m ∈ l, m < k → p m = false) : l.find? p = some k := by
  rw [List.find?_eq_findSome?_guard]
  exact findSome?_of_lowest hs hk (by simp [hp]) fun m hm hmk => by simp [hlow m hm hmk]

/-! ## Behind the advance of the bundle -/

/-- The state that an instruction's effect begins in: its bundle stands at the next word. -/
abbrev State.past (s : State) (b : Bundle) : State := s.advance b.warp (lanesOf b.lanes) b.pc

@[simp] theorem Warp.moved_gang (w : Warp) (ls : List Nat) (pc : Word) : (w.moved ls pc).gang = w.gang := by
  rw [(w.moved_rest ls pc).rest]
@[simp] theorem Warp.moved_rank (w : Warp) (ls : List Nat) (pc : Word) : (w.moved ls pc).rank = w.rank := by
  rw [(w.moved_rest ls pc).rest]
@[simp] theorem Warp.moved_num (w : Warp) (ls : List Nat) (pc : Word) : (w.moved ls pc).num = w.num := by
  rw [(w.moved_rest ls pc).rest]
@[simp] theorem Warp.onThreads_vregs (w : Warp) (ls : List Nat) (f : Thread → Thread) : (w.onThreads ls f).vregs = w.vregs := by
  rw [(w.onThreads_rest ls f).1]
@[simp] theorem Warp.onThreads_uregs (w : Warp) (ls : List Nat) (f : Thread → Thread) : (w.onThreads ls f).uregs = w.uregs := by
  rw [(w.onThreads_rest ls f).1]
@[simp] theorem Warp.moved_vregs (w : Warp) (ls : List Nat) (pc : Word) : (w.moved ls pc).vregs = w.vregs := w.onThreads_vregs ls _
@[simp] theorem Warp.moved_uregs (w : Warp) (ls : List Nat) (pc : Word) : (w.moved ls pc).uregs = w.uregs := w.onThreads_uregs ls _

section Past
variable {i : Instr} {s : State} {b : Bundle} {act : List Nat} (h : Goes i s b act)
include h

theorem Goes.past_warp : (s.past b).warp b.warp = (s.warp b.warp).moved (lanesOf b.lanes) b.pc := by
  rw [State.warp_advance, if_pos ⟨rfl, h.warp⟩]

/-- The values read are those from before the advance. -/
theorem Goes.past_read (x : Act) (l : Nat) : x.read ((s.past b).warp b.warp) l = x.read (s.warp b.warp) l := by
  rw [h.past_warp]
  exact Act.read_congr x _ _ (Warp.moved_operand _ _ _) l

theorem Goes.past_warpLaunch : (s.past b).warpLaunch ((s.past b).warp b.warp) = s.warpLaunch (s.warp b.warp) := by
  rw [h.past_warp, State.warpLaunch, Warp.moved_gang]
  rfl

/-- A read of scratchpad is one of the warp's gang, rank and blocks, none of which the advance changes. -/
theorem Goes.past_readScr (a n : Nat) : readScr (s.past b) ((s.past b).warp b.warp) a n = readScr s (s.warp b.warp) a n := by
  rw [h.past_warp, readScr, scrTarget, Warp.moved_gang, Warp.moved_rank]
  rfl

/-- The tag of a lane behind the advance is that of R283 before it. -/
theorem Goes.past_tag (k : Nat) :
    (s.past b).tag ((s.past b).warp b.warp) k (((s.past b).warp b.warp).seq k) = Rule.tag s (s.warp b.warp) k := by
  have hseq : ((s.warp b.warp).moved (lanesOf b.lanes) b.pc).seq k = ((s.warp b.warp).thread k).tagSeq := by
    rw [Warp.seq, Warp.moved_thread _ _ _ (lanesOf_nodup _) h.lanes]
  rw [h.past_warp, hseq, State.tag, State.warpGang, Warp.moved_gang, Warp.moved_rank, Warp.moved_num]
  rfl

theorem Goes.past_tagEntry (tag : DWord) (j : Instr) (a : Nat) (v : DWord) :
    (s.past b).tagEntry ((s.past b).warp b.warp) tag j a v = s.tagEntry (s.warp b.warp) tag j a v := by
  rw [h.past_warp, State.tagEntry, State.warpGang, Warp.moved_gang]
  rfl

end Past

/-! ## Numbers as bytes -/

theorem natOfBytes_bytesOfNat (n x : Nat) : natOfBytes (bytesOfNat n x) = x % 256 ^ n := by
  induction n generalizing x with
  | zero => simp [bytesOfNat, natOfBytes, Nat.mod_one]
  | succ n ih =>
    show (BitVec.ofNat 8 x).toNat + 256 * natOfBytes (bytesOfNat n (x / 256)) = x % 256 ^ (n + 1)
    rw [ih, BitVec.toNat_ofNat]
    rw [pow_succ' 256 n, Nat.mod_mul]

/-! ## The operands of a well-formed instruction (R53) -/

/-- An operand with no defect has one of the kinds that its position lists. -/
theorem Pos.kind_mem_of_defects_nil {p : Pos} {k : Nat} {o : Operand} (hp : p.role ≠ .unused) (h : p.defects k o = []) : o.kind ∈ p.kinds := by
  unfold Pos.defects at h
  rw [if_neg hp] at h
  split at h
  · simp at h
  · split at h
    · simp at h
    · next hacc =>
      simp only [Bool.not_eq_true, Bool.not_eq_false', Pos.accepts, Bool.and_eq_true, decide_eq_true_eq] at hacc
      exact hacc.1

/-- The destination of a well-formed instruction has no defect. -/
theorem destination_of_wf {i : Instr} {r : Raw} (hr : raw i = some r) (hw : i.wf = true) : (shape i).d.defects fieldD r.d = [] := by
  have h : defects i = rawDefects (shape i) r ++ extraDefects i := by
    cases i <;> first | (cases hr; rfl) | cases hr
  simp only [Instr.wf, List.isEmpty_iff, h, rawDefects, List.append_eq_nil_iff] at hw
  tauto

/-- A destination that is a vector register or `zr` takes any values. -/
theorem DestOk.of_vec_or_zr {x : Act} {val : Nat → Nat} (h : x.r.d.kind = .zr ∨ x.r.d.kind = .vec) : DestOk x val where
  prd hk := by rcases h with h | h <;> simp [h] at hk
  uni hk := by rcases h with h | h <;> simp [h] at hk

end Sys2Proof.Machine
end

section
/-! SUPPORT. ATTR (R210): the words it reads, when it traps, what it writes. -/

open Sys2Proof Sys2Proof.Machine

namespace Sys2Proof.Machine

/-! ## The words ATTR reads -/

/-- The address of the word of vertex j, from the values of a lane. -/
def attrAddr (v : Read) (j : Nat) : Nat := (v.b + 128 * j + 4 * v.c) % 2 ^ 32

/-- The scratchpad word of vertex j in lane k. -/
def attrWord (x : Act) (s : State) (k j : Nat) : Got := readScr s (s.warp x.u) (attrAddr (x.read (s.warp x.u) k) j) 4

/-- The first word that `p` holds of, by lane and vertex: its lane and its address. -/
def attrFirst (x : Act) (s : State) (p : Got → Bool) : Option (Nat × Nat) :=
  x.act.findSome? fun k => ((List.range 3).find? fun j => p (attrWord x s k j)).map fun j => (k, attrAddr (x.read (s.warp x.u) k) j)

/-- The read has failed. -/
def Got.failed : Got → Bool
  | .fail _ => true
  | _ => false

/-- The number that the bytes read hold. -/
def Got.number : Got → Nat
  | .bytes bs => natOfBytes bs
  | _ => 0

/-- What lane k receives. -/
def attrResult (x : Act) (s : State) (k : Nat) : Nat :=
  let b := (x.read (s.warp x.u) k).a
  attrValue (attrWord x s k 0).number (attrWord x s k 1).number (attrWord x s k 2).number (b % 2 ^ 32) (b / 2 ^ 32)

theorem attrIssue_of_failed {x : Act} {s : State} {k a : Nat} (h : attrFirst x s Got.failed = some (k, a)) :
    attrIssue x s = x.trap k { cause := causeBounds, addr := .ofNat 64 a } s := by
  unfold attrIssue
  dsimp only
  split
  · next hfound =>
    cases hfound.symm.trans h
    rfl
  · next hfound => cases hfound.symm.trans h

theorem attrIssue_of_read {x : Act} {s : State} (hf : attrFirst x s Got.failed = none)
    (hp : attrFirst x s (fun g => g = .poison) = none) :
    attrIssue x s = s.onWarp x.u (x.writeD (x.act.map fun k => (k, attrResult x s k))) := by
  unfold attrIssue
  dsimp only
  split
  · next hfound => cases hfound.symm.trans hf
  · split
    · next hfound => cases hfound.symm.trans hp
    · rfl

theorem readScr_failed (s : State) (w : Warp) (a n : Nat) : (readScr s w a n).failed = (scrTarget s w a n).isNone := by
  unfold readScr
  cases scrTarget s w a n with
  | none => rfl
  | some t => simp only; split <;> rfl

/-- The lowest lane with a word outside the scratchpad is the first that fails, at one of its words. -/
theorem attrFirst_of_outside {x : Act} {s : State} {l : Nat} (hs : x.act.Pairwise (· < ·)) (hl : l ∈ x.act)
    (hout : ∃ j < 3, (attrWord x s l j).failed = true) (hlow : ∀ m ∈ x.act, m < l → ∀ j < 3, (attrWord x s m j).failed = false) :
    ∃ j < 3, attrFirst x s Got.failed = some (l, attrAddr (x.read (s.warp x.u) l) j) := by
  obtain ⟨j, hj⟩ : ∃ j, (List.range 3).find? (fun j => (attrWord x s l j).failed) = some j := by
    obtain ⟨j, hj, hfail⟩ := hout
    rw [← Option.isSome_iff_exists, List.find?_isSome]
    exact ⟨j, List.mem_range.mpr hj, hfail⟩
  refine ⟨j, List.mem_range.mp (List.mem_of_find?_eq_some hj), ?_⟩
  refine findSome?_of_lowest hs hl (by rw [hj]; rfl) fun m hm hml => ?_
  rw [Option.map_eq_none_iff, List.find?_eq_none]
  exact fun j hj => by simp [hlow m hm hml j (List.mem_range.mp hj)]

/-- Where every word is read, none is first of those that are not. -/
theorem attrFirst_of_bytes {x : Act} {s : State} {p : Got → Bool} (hp : ∀ bs, p (.bytes bs) = false)
    (h : ∀ l ∈ x.act, ∀ j < 3, ∃ bs, attrWord x s l j = .bytes bs) : attrFirst x s p = none := by
  rw [attrFirst, List.findSome?_eq_none_iff]
  intro l hl
  rw [Option.map_eq_none_iff, List.find?_eq_none]
  intro j hj
  obtain ⟨bs, hbs⟩ := h l hl j (List.mem_range.mp hj)
  simp [hbs, hp]

/-! ## ATTR as it is issued -/

section Issued
variable {i : Instr} {s : State} {b : Bundle} {act : List Nat} (h : Goes i s b act)
include h

theorem Goes.past_attrWord (k j : Nat) : attrWord (actOf i b act) (s.past b) k j = attrWord (actOf i b act) s k j := by
  show readScr (s.past b) ((s.past b).warp b.warp) (attrAddr ((actOf i b act).read ((s.past b).warp b.warp) k) j) 4 = _
  rw [h.past_readScr, h.past_read]
  rfl

theorem Goes.past_attrFirst (p : Got → Bool) : attrFirst (actOf i b act) (s.past b) p = attrFirst (actOf i b act) s p := by
  have hread : ∀ k, (actOf i b act).read ((s.past b).warp (actOf i b act).u) k = (actOf i b act).read (s.warp (actOf i b act).u) k :=
    h.past_read _
  simp only [attrFirst, h.past_attrWord, hread]

theorem Goes.past_attrResult (k : Nat) : attrResult (actOf i b act) (s.past b) k = attrResult (actOf i b act) s k := by
  have hread : (actOf i b act).read ((s.past b).warp (actOf i b act).u) k = (actOf i b act).read (s.warp (actOf i b act).u) k :=
    h.past_read _ k
  simp only [attrResult, h.past_attrWord, hread]

end Issued

/-- D of ATTR is a vector register or `zr` (R53). -/
theorem attr_destination {h : Hdr} {f : Ops} (hw : (Instr.attr h f).wf = true) : f.d.kind = .zr ∨ f.d.kind = .vec := by
  have hd : (Pos.outVec 1).defects fieldD f.d = [] := destination_of_wf (i := .attr h f) rfl hw
  simpa [Pos.outVec] using Pos.kind_mem_of_defects_nil (by decide) hd

theorem attributesInterpolated : Rule.AttributesInterpolated := by
  intro h f s b act hwf hg x w addr inside
  have hexec : exec (.attr h f) s = .next (attrIssue x (s.past b)) := issue_goes hg attrIssue
  have hfailed : ∀ k j, (attrWord x s k j).failed = (scrTarget s w (addr k j) 4).isNone := fun k j => readScr_failed s w _ 4
  refine ⟨fun l hl hout hlow => ?_, fun a ha => ?_⟩
  · obtain ⟨j, hj, hfirst⟩ := attrFirst_of_outside (x := x) (s := s) hg.act_sorted hl (by simpa [inside, hfailed] using hout)
      fun m hm hml j hj => by simpa [hfailed, Option.isSome_iff_ne_none] using hlow m hm hml j hj
    exact ⟨j, hj, by rw [hexec, attrIssue_of_failed ((hg.past_attrFirst _).trans hfirst)]; rfl⟩
  · intro value
    have hbytes : ∀ l ∈ act, ∀ j < 3, attrWord x s l j = .bytes (bytesOfNat 4 (a l j)) := fun l hl j hj => (ha l hl j hj).1
    have hread : ∀ l ∈ x.act, ∀ j < 3, ∃ bs, attrWord x s l j = .bytes bs := fun l hl j hj => ⟨_, hbytes l hl j hj⟩
    have hvalue : ∀ l ∈ act, attrResult x (s.past b) l = value l := fun l hl => by
      have hnumber : ∀ j < 3, (attrWord x s l j).number = a l j := fun j hj => by
        rw [hbytes l hl j hj, Got.number, natOfBytes_bytesOfNat]
        exact Nat.mod_eq_of_lt (ha l hl j hj).2
      rw [hg.past_attrResult, attrResult, hnumber 0 (by decide), hnumber 1 (by decide), hnumber 2 (by decide)]
      rfl
    have hvalues : (x.act.map fun l => (l, attrResult x (s.past b) l)) = act.map fun l => (l, value l) :=
      List.map_congr_left fun l hl => congrArg (Prod.mk l) (hvalue l hl)
    refine ⟨_, hexec, wrote_of_goes hg value (DestOk.of_vec_or_zr (attr_destination hwf)) _ ?_⟩
    rw [attrIssue_of_read ((hg.past_attrFirst _).trans (attrFirst_of_bytes (fun _ => rfl) hread))
      ((hg.past_attrFirst _).trans (attrFirst_of_bytes (fun _ => rfl) hread)), hvalues]
    rfl

end Sys2Proof.Machine
end

section
/-! SUPPORT. The bins of a context (R351): their order, and the pixels set after one was added. -/

open Sys2Proof Sys2Proof.Machine

namespace Sys2Proof.Machine

/-! ## Bins stand in order (R351) -/

/-- The bin of a frame, a material and a tile. -/
def Bin.isOf (b : Bin) (f : Word) (m t : Nat) : Prop := b.frame = f ∧ b.material = m ∧ b.tile = t

theorem Bin.before_iff (a b : Bin) : a.before b = true ↔ a.frame.toNat < b.frame.toNat ∨ (a.frame.toNat = b.frame.toNat ∧
    (a.material < b.material ∨ (a.material = b.material ∧ a.tile < b.tile))) := by
  simp [Bin.before, BitVec.toNat_inj]

theorem Bin.same_iff (a b : Bin) : a.same b = true ↔ a.frame.toNat = b.frame.toNat ∧ a.material = b.material ∧ a.tile = b.tile := by
  simp [Bin.same, BitVec.toNat_inj, and_assoc]

theorem Bin.isOf_iff (b : Bin) (f : Word) (m t : Nat) : b.isOf f m t ↔ b.frame.toNat = f.toNat ∧ b.material = m ∧ b.tile = t := by
  rw [Bin.isOf, BitVec.toNat_inj]

theorem inBin_nil (f : Word) (m t p : Nat) : Rule.inBin [] f m t p = false := rfl

theorem inBin_cons_of_isOf {x : Bin} {f : Word} {m t : Nat} (h : x.isOf f m t) (xs : List Bin) (p : Nat) :
    Rule.inBin (x :: xs) f m t p = x.mask.getLsbD p := by
  obtain ⟨hf, hm, ht⟩ := h
  simp [Rule.inBin, hf, hm, ht]

theorem inBin_cons_of_not_isOf {x : Bin} {f : Word} {m t : Nat} (h : ¬x.isOf f m t) (xs : List Bin) (p : Nat) :
    Rule.inBin (x :: xs) f m t p = Rule.inBin xs f m t p := by
  have hx : ¬((x.frame = f ∧ x.material = m) ∧ x.tile = t) := by rwa [Bin.isOf, ← and_assoc] at h
  simp [Rule.inBin, hx]

/-- No pixel is set in bins that are all of another frame, material or tile. -/
theorem inBin_eq_false {xs : List Bin} {f : Word} {m t : Nat} (h : ∀ x ∈ xs, ¬x.isOf f m t) (p : Nat) : Rule.inBin xs f m t p = false := by
  induction xs with
  | nil => rfl
  | cons x xs ih =>
    rw [inBin_cons_of_not_isOf (h x List.mem_cons_self)]
    exact ih fun y hy => h y (List.mem_cons_of_mem x hy)

/-- What stands in the bins after one was added: bins that stood there, and one of the added bin's frame, material and tile. -/
theorem mem_addBin {b y : Bin} {xs : List Bin} (h : y ∈ addBin b xs) : b.same y = true ∨ y ∈ xs := by
  induction xs with
  | nil =>
    obtain rfl : y = b := by simpa [addBin] using h
    exact .inl ((Bin.same_iff y y).mpr ⟨rfl, rfl, rfl⟩)
  | cons x xs ih =>
    unfold addBin at h
    split at h
    · next hsame =>
      rcases List.mem_cons.mp h with rfl | h
      · exact .inl hsame
      · exact .inr (List.mem_cons_of_mem x h)
    · split at h
      · rcases List.mem_cons.mp h with rfl | h
        · exact .inl ((Bin.same_iff y y).mpr ⟨rfl, rfl, rfl⟩)
        · exact .inr h
      · rcases List.mem_cons.mp h with rfl | h
        · exact .inr List.mem_cons_self
        · exact (ih h).imp_right (List.mem_cons_of_mem x)

theorem addBin_length_le (b : Bin) (xs : List Bin) : (addBin b xs).length ≤ xs.length + 1 := by
  induction xs with
  | nil => simp [addBin]
  | cons x xs ih =>
    unfold addBin
    split
    · simp
    · split
      · simp
      · simpa using ih

/-- Adding a bin keeps the order. -/
theorem addBin_sorted (b : Bin) {xs : List Bin} (h : xs.Pairwise fun p q => p.before q = true) :
    (addBin b xs).Pairwise fun p q => p.before q = true := by
  induction xs with
  | nil => simp [addBin]
  | cons x xs ih =>
    obtain ⟨hx, hxs⟩ := List.pairwise_cons.mp h
    unfold addBin
    split
    · exact List.pairwise_cons.mpr ⟨hx, hxs⟩
    · next hsame =>
      split
      · next hbefore =>
        refine List.pairwise_cons.mpr ⟨fun y hy => ?_, h⟩
        rcases List.mem_cons.mp hy with rfl | hy
        · exact hbefore
        · have hxy := hx y hy
          rw [Bin.before_iff] at hbefore hxy ⊢
          omega
      · next hbefore =>
        refine List.pairwise_cons.mpr ⟨fun y hy => ?_, ih hxs⟩
        rcases mem_addBin hy with hby | hy
        · rw [Bin.before_iff] at hbefore ⊢
          rw [Bin.same_iff] at hsame hby
          omega
        · exact hx y hy

/-- In ordered bins a bin's pixels are set by adding it, and no others. -/
theorem inBin_addBin (b : Bin) {xs : List Bin} (h : xs.Pairwise fun p q => p.before q = true) (f : Word) (m t p : Nat) :
    Rule.inBin (addBin b xs) f m t p = true ↔ Rule.inBin xs f m t p = true ∨ (b.isOf f m t ∧ b.mask.getLsbD p = true) := by
  induction xs with
  | nil =>
    by_cases hb : b.isOf f m t
    · simp [addBin, inBin_cons_of_isOf hb, inBin_nil, hb]
    · simp [addBin, inBin_cons_of_not_isOf hb, inBin_nil, hb]
  | cons x xs ih =>
    obtain ⟨hx, hxs⟩ := List.pairwise_cons.mp h
    unfold addBin
    split
    · next hsame =>
      have hiff : b.isOf f m t ↔ x.isOf f m t := by
        rw [Bin.same_iff] at hsame
        rw [Bin.isOf_iff, Bin.isOf_iff]
        omega
      by_cases hxf : x.isOf f m t
      · have hor : ({ x with mask := x.mask ||| b.mask } : Bin).isOf f m t := hxf
        simp [inBin_cons_of_isOf hor, inBin_cons_of_isOf hxf, hiff.mpr hxf]
      · have hor : ¬({ x with mask := x.mask ||| b.mask } : Bin).isOf f m t := hxf
        simp [inBin_cons_of_not_isOf hor, inBin_cons_of_not_isOf hxf, mt hiff.mp hxf]
    · next hsame =>
      split
      · next hbefore =>
        by_cases hb : b.isOf f m t
        · have hnone : Rule.inBin (x :: xs) f m t p = false := inBin_eq_false (fun y hy => by
            have hby : b.before y = true := by
              rcases List.mem_cons.mp hy with rfl | hy
              · exact hbefore
              · have hxy := hx y hy
                rw [Bin.before_iff] at hbefore hxy ⊢
                omega
            rw [Bin.before_iff] at hby
            rw [Bin.isOf_iff] at hb ⊢
            omega) p
          simp [inBin_cons_of_isOf hb, hnone, hb]
        · simp [inBin_cons_of_not_isOf hb, hb]
      · by_cases hxf : x.isOf f m t
        · have hb : ¬b.isOf f m t := by
            rw [Bin.same_iff] at hsame
            rw [Bin.isOf_iff] at hxf ⊢
            omega
          simp [inBin_cons_of_isOf hxf, hb]
        · rw [inBin_cons_of_not_isOf hxf, inBin_cons_of_not_isOf hxf]
          exact ih hxs

/-- The mask of one pixel. -/
theorem pixel_mask {n : Nat} (hn : n ≤ 1023) (p : Nat) : (1#1024 <<< n).getLsbD p = true ↔ p = n := by
  rw [BitVec.getLsbD_shiftLeft, BitVec.getLsbD_one]
  simp
  omega

end Sys2Proof.Machine
end

section
/-! SUPPORT. MBIN (R209, R351): its lanes are performed one after the other, each under a tag of its own. -/

open Sys2Proof Sys2Proof.Machine

namespace Sys2Proof.Machine

/-! ## One lane under its tag (R283, R284) -/

/-- The tags of two lanes of a warp differ, since a sequence number has 20 bits. -/
theorem State.tag_ne_of_lane_ne (s : State) (w : Warp) {k m : Nat} (hk : k < 64) (hm : m < 64) (hkm : k ≠ m) (p q : BitVec 20) :
    s.tag w k p ≠ s.tag w m q := by
  intro h
  have hp := p.isLt
  have hq := q.isLt
  have h := congrArg BitVec.toNat h
  simp only [State.tag, BitVec.toNat_ofNat] at h
  omega

/-- A window in which no gang can have reached its limit takes an entry behind the others, and exposes no gang. -/
theorem tagPut_of_room (s : State) {size limit : Nat} {win : List TagEntry} (e : TagEntry) (hwin : win.length < limit) (hsize : limit ≤ size) :
    tagPut s size limit win e = ((win.filter fun t => !t.sameTag e) ++ [e], []) := by
  have hlive : (win.filter fun t => !t.sameTag e).length < limit := lt_of_le_of_lt (List.length_filter_le _ _) hwin
  have hmine : ((win.filter fun t => !t.sameTag e).filter fun t => t.kept s && t.gangUid == e.gangUid).length < limit :=
    lt_of_le_of_lt (List.length_filter_le _ _) hlive
  have hfree : ∀ n, findFree s size n (win.filter fun t => !t.sameTag e) = (win.filter fun t => !t.sameTag e, []) := fun n => by
    cases n with
    | zero => rfl
    | succ n => rw [findFree, if_pos (by simp [lt_of_lt_of_le hlive hsize])]
  unfold tagPut
  dsimp only
  rw [decide_eq_false (Nat.not_le.mpr hmine), Bool.and_false, if_neg Bool.false_ne_true, each_nil, hfree, insertTag,
    if_pos (lt_of_lt_of_le hlive hsize)]
  simp

/-- An entry put under another tag hides nothing. -/
theorem tagHit_put_other {win : List TagEntry} {e d : TagEntry} (hd : tagHit win d = none) (hed : e.sameTag d = false) :
    tagHit ((win.filter fun t => !t.sameTag e) ++ [e]) d = none := by
  rw [tagHit, tagFind, Option.map_eq_none_iff, List.find?_eq_none] at hd ⊢
  intro t ht
  rcases List.mem_append.mp ht with ht | ht
  · exact hd t (List.mem_filter.mp ht).1
  · obtain rfl := List.mem_singleton.mp ht
    simp [hed]

/-- A lane under a tag that the window does not know is performed, and its entry stands last in the window. -/
theorem onceLane_of_new {win : State → List TagEntry} {put : List TagEntry → State → State} {t : TagEntry} {perform : State → State} {s : State}
    (hnew : tagHit (win s) t = none) (hroom : (win (perform s)).length < 32) :
    onceLane win put t perform s =
      put (((win (perform s)).filter fun e => !e.sameTag { t with pinned := false }) ++ [{ t with pinned := false }]) (perform s) := by
  rw [onceLane, hnew, if_neg (by simp)]
  dsimp only
  rw [tagPut_of_room _ _ hroom (by decide)]
  rfl

/-! ## What the operations that MBIN shares leave alone -/

@[simp] theorem State.ctx_onCtx_same (s : State) (k : Nat) (f : Ctx → Ctx) : (s.onCtx k f).ctx k = f (s.ctx k) := Store.get_put_same s.ctxs k _

/-- Where no record of a graph waits for room, nothing is drained. -/
theorem drainSlot_of_none_pending {s : State} {slot : Nat} (h : ∀ e, (s.edge slot e).pending = []) : drainSlot slot s = s := by
  have hnone : ((s.graph slot).edges.zipIdx.filter fun e => e.1.pending != []) = [] := by
    rw [List.filter_eq_nil_iff]
    rintro ⟨x, k⟩ hx
    have hk := h k
    rw [State.edge, List.getD_eq_getElem?_getD, List.mem_zipIdx_iff_getElem?.mp hx] at hk
    simpa using hk
  rw [drainSlot, hnone]
  rfl

/-- Taking sequence numbers is an update of the warp's threads; a wrap exposes the gang, beside it. -/
theorem takeSeqs_eq (u : Nat) (ls : List Nat) (s : State) : ∃ gangs, takeSeqs u ls s =
    { s.onWarp u (fun w => w.onThreads ls fun t => { t with tagSeq := t.tagSeq + 1 }) with gangs } := by
  unfold takeSeqs
  dsimp only
  split
  · exact ⟨_, rfl⟩
  · exact ⟨_, rfl⟩

@[simp] theorem takeSeqs_mem (u : Nat) (ls : List Nat) (s : State) : (takeSeqs u ls s).mem = s.mem := by
  obtain ⟨gangs, h⟩ := takeSeqs_eq u ls s
  rw [h]
  rfl

@[simp] theorem takeSeqs_tris (u : Nat) (ls : List Nat) (s : State) : (takeSeqs u ls s).tris = s.tris := by
  obtain ⟨gangs, h⟩ := takeSeqs_eq u ls s
  rw [h]
  rfl

@[simp] theorem takeSeqs_ctx (u : Nat) (ls : List Nat) (s : State) (k : Nat) : (takeSeqs u ls s).ctx k = s.ctx k := by
  obtain ⟨gangs, h⟩ := takeSeqs_eq u ls s
  rw [h]
  rfl

theorem takeSeqs_warp (u v : Nat) (ls : List Nat) (s : State) : (takeSeqs u ls s).warp v =
    if u = v ∧ s.hasWarp u = true then (s.warp v).onThreads ls fun t => { t with tagSeq := t.tagSeq + 1 } else s.warp v := by
  obtain ⟨gangs, h⟩ := takeSeqs_eq u ls s
  rw [h]
  exact State.warp_onWarp s u v _ fun w => by rw [(w.onThreads_rest ls _).1]

/-- While the store has room a pixel enters its bin at once. -/
theorem binPixel_of_room {slot : Nat} {r : Raster} {b : Bin} {s : State} (h : (s.ctx slot).bins.length < 65536) :
    binPixel slot r b s = s.onCtx slot fun c => { c with bins := addBin b c.bins } := by
  unfold binPixel
  dsimp only
  rw [if_neg (by simp [Nat.not_le.mpr h])]

/-! ## The pieces of MBIN -/

/-- The wave and the raster record that MBIN bins for. -/
def mbinStage (x : Act) (s : State) : Option (Wave × Raster) :=
  let w := s.warp x.u
  let slot := (s.warpLaunch w).slot
  match waveStage (s.warpLaunch w), (s.ctx slot).raster with
  | some v, some r =>
    if (s.edge slot r.bin).valid && (s.edge slot r.bin).source == v.stage && decide ((x.read w x.first).c < r.tiles) then some (v, r) else none
  | _, _ => none

/-- A lane's material or pixel is out of range. -/
def mbinOutside (v : Read) : Bool := decide (4095 < v.a) || decide (1023 < v.b)

/-- The pixel of one lane, as a bin. -/
def mbinPixel (x : Act) (s : State) (v : Wave) (k : Nat) : Bin :=
  let w := s.warp x.u
  { frame := v.frame, material := (x.read w k).a, tile := (x.read w x.first).c, mask := 1#1024 <<< (x.read w k).b }

/-- What the tag window of a context holds of one lane. -/
def mbinEntry (x : Act) (s : State) (k : Nat) : TagEntry := s.tagEntry (s.warp x.u) (s.tag (s.warp x.u) k ((s.warp x.u).seq k)) x.i 0 0

/-- The entry that a lane leaves in the window. -/
def mbinLeft (x : Act) (s : State) (k : Nat) : TagEntry := { mbinEntry x s k with pinned := false }

/-- One lane of an MBIN issued in `s`, performed in a later state `t`. -/
def mbinLane (x : Act) (s : State) (v : Wave) (r : Raster) (k : Nat) (t : State) : State :=
  let slot := (s.warpLaunch (s.warp x.u)).slot
  onceLane (fun t => (t.ctx slot).cutTags) (fun win t => t.onCtx slot fun c => { c with cutTags := win }) (mbinEntry x s k)
    (binPixel slot r (mbinPixel x s v k)) t

theorem mbinStage_eq_some (x : Act) (s : State) (v : Wave) (r : Raster) : mbinStage x s = some (v, r) ↔
    Rule.Drawing s (s.warpLaunch (s.warp x.u)) Raster.bin v r ∧ (x.read (s.warp x.u) x.first).c < r.tiles := by
  unfold mbinStage Rule.Drawing waveStage
  dsimp only
  constructor
  · intro h
    split at h
    · next v' r' hv hr =>
      obtain ⟨hwave, hpred⟩ := Option.filter_eq_some_iff.mp hv
      split at h
      · next hok =>
        simp only [Bool.and_eq_true, beq_iff_eq, decide_eq_true_eq] at hok
        obtain ⟨⟨hvalid, hsource⟩, htile⟩ := hok
        cases h
        exact ⟨⟨hwave, by simpa using hpred, hr, hvalid, hsource⟩, htile⟩
      · cases h
    · cases h
  · rintro ⟨⟨hwave, hpred, hr, hvalid, hsource⟩, htile⟩
    have hv : (s.warpLaunch (s.warp x.u)).wave.filter (fun v => !v.pred) = some v :=
      Option.filter_eq_some_iff.mpr ⟨hwave, by simp [hpred]⟩
    simp only [hv, hr, hvalid, hsource, htile, beq_self_eq_true, decide_true, Bool.and_self, if_true]

theorem mbinIssue_of_no_stage {x : Act} {s : State} (h : mbinStage x s = none) : mbinIssue x s = x.trap x.first { cause := causeBounds } s := by
  unfold mbinIssue
  dsimp only
  split
  · rfl
  · next heq => cases heq.symm.trans h

theorem mbinIssue_of_outside {x : Act} {s : State} {v : Wave} {r : Raster} {k : Nat} (h : mbinStage x s = some (v, r))
    (hk : x.act.find? (fun k => mbinOutside (x.read (s.warp x.u) k)) = some k) : mbinIssue x s = x.trap k { cause := causeBounds } s := by
  unfold mbinIssue
  dsimp only
  split
  · next heq => cases heq.symm.trans h
  · split
    · next hfound =>
      cases hfound.symm.trans hk
      rfl
    · next hfound => cases hfound.symm.trans hk

theorem mbinIssue_of_inside {x : Act} {s : State} {v : Wave} {r : Raster} (h : mbinStage x s = some (v, r))
    (hin : x.act.find? (fun k => mbinOutside (x.read (s.warp x.u) k)) = none) :
    mbinIssue x s = drainSlot (s.warpLaunch (s.warp x.u)).slot (each x.act (takeSeqs x.u x.act s) (mbinLane x s v r)) := by
  unfold mbinIssue
  dsimp only
  split
  · next heq => cases heq.symm.trans h
  · next heq =>
    cases heq.symm.trans h
    split
    · next hfound => cases hfound.symm.trans hin
    · rfl

/-- The entry that a lane leaves is under no other lane's tag. -/
theorem mbinLeft_other (x : Act) (s : State) {k m : Nat} (hk : k < 64) (hm : m < 64) (hkm : k ≠ m) :
    (mbinLeft x s k).sameTag (mbinEntry x s m) = false := by
  have htag : (mbinEntry x s k).tag ≠ (mbinEntry x s m).tag := State.tag_ne_of_lane_ne s _ hk hm hkm _ _
  simp [TagEntry.sameTag, mbinLeft, htag]

/-- The pixel that a lane sets, by frame, material, tile and number. -/
theorem mbinPixel_set {x : Act} {s : State} {v : Wave} {k : Nat} (hk : (x.read (s.warp x.u) k).b ≤ 1023) (f : Word) (m tt p : Nat) :
    ((mbinPixel x s v k).isOf f m tt ∧ (mbinPixel x s v k).mask.getLsbD p = true) ↔
      (f = v.frame ∧ tt = (x.read (s.warp x.u) x.first).c) ∧ m = (x.read (s.warp x.u) k).a ∧ p = (x.read (s.warp x.u) k).b := by
  rw [show (mbinPixel x s v k).mask = 1#1024 <<< (x.read (s.warp x.u) k).b from rfl, pixel_mask hk]
  simp only [Bin.isOf, mbinPixel, eq_comm (a := v.frame), eq_comm (b := m), eq_comm (b := tt)]
  tauto

/-! ## Lane after lane -/

/-- What an MBIN issued in `s` has done to a state `t0` in context `slot` once the lanes `done` have been performed. -/
structure Binned (x : Act) (s : State) (v : Wave) (slot : Nat) (done : List Nat) (t0 t : State) : Prop where
  rest : t = { t0 with ctxs := t.ctxs }
  ctx : t.ctx slot = { t0.ctx slot with cutTags := (t.ctx slot).cutTags, bins := (t.ctx slot).bins }
  window : (t.ctx slot).cutTags.length ≤ (t0.ctx slot).cutTags.length + done.length
  unknown : ∀ k < 64, k ∉ done → tagHit (t0.ctx slot).cutTags (mbinEntry x s k) = none → tagHit (t.ctx slot).cutTags (mbinEntry x s k) = none
  store : (t.ctx slot).bins.length ≤ (t0.ctx slot).bins.length + done.length
  sorted : (t.ctx slot).bins.Pairwise fun p q => p.before q = true
  pixels : ∀ f m tt p, Rule.inBin (t.ctx slot).bins f m tt p = true ↔ Rule.inBin (t0.ctx slot).bins f m tt p = true ∨
    ∃ k ∈ done, (mbinPixel x s v k).isOf f m tt ∧ (mbinPixel x s v k).mask.getLsbD p = true

/-- Before the first lane. -/
theorem Binned.start (x : Act) (s : State) (v : Wave) {slot : Nat} {t0 : State} (h : (t0.ctx slot).bins.Pairwise fun p q => p.before q = true) :
    Binned x s v slot [] t0 t0 where
  rest := rfl
  ctx := rfl
  window := le_rfl
  unknown _ _ _ h := h
  store := le_rfl
  sorted := h
  pixels f m tt p := by simp

section Lanes
variable {x : Act} {s : State} {v : Wave} {slot : Nat} {t0 : State}

/-- A lane performed under a tag that the window does not know, with room in the window and in the store. -/
theorem mbinLane_of_new {r : Raster} {k : Nat} {t : State} (hslot : slot = (s.warpLaunch (s.warp x.u)).slot)
    (hnew : tagHit (t.ctx slot).cutTags (mbinEntry x s k) = none) (hwindow : (t.ctx slot).cutTags.length < 32)
    (hstore : (t.ctx slot).bins.length < 65536) :
    mbinLane x s v r k t = (t.onCtx slot fun c => { c with bins := addBin (mbinPixel x s v k) c.bins }).onCtx slot fun c =>
      { c with cutTags := ((t.ctx slot).cutTags.filter fun e => !e.sameTag (mbinLeft x s k)) ++ [mbinLeft x s k] } := by
  have hadd := binPixel_of_room (r := r) (b := mbinPixel x s v k) hstore
  have hcut : ((binPixel slot r (mbinPixel x s v k) t).ctx slot).cutTags = (t.ctx slot).cutTags := by rw [hadd, State.ctx_onCtx_same]
  rw [mbinLane, ← hslot, onceLane_of_new hnew (by rw [hcut]; exact hwindow), hcut, hadd]
  rfl

/-- One lane more. -/
theorem Binned.snoc {done : List Nat} {t : State} (h : Binned x s v slot done t0 t) (r : Raster) {k : Nat}
    (hslot : slot = (s.warpLaunch (s.warp x.u)).slot) (hk : k < 64) (hdone : k ∉ done)
    (hnew : tagHit (t0.ctx slot).cutTags (mbinEntry x s k) = none) (hwindow : (t0.ctx slot).cutTags.length + done.length < 32)
    (hstore : (t0.ctx slot).bins.length + done.length < 65536) : Binned x s v slot (done ++ [k]) t0 (mbinLane x s v r k t) := by
  have hlane := mbinLane_of_new (r := r) (v := v) hslot (h.unknown k hk hdone hnew) (lt_of_le_of_lt h.window hwindow)
    (lt_of_le_of_lt h.store hstore)
  have hctx : (mbinLane x s v r k t).ctx slot = { t.ctx slot with
      bins := addBin (mbinPixel x s v k) (t.ctx slot).bins
      cutTags := ((t.ctx slot).cutTags.filter fun e => !e.sameTag (mbinLeft x s k)) ++ [mbinLeft x s k] } := by
    rw [hlane, State.ctx_onCtx_same, State.ctx_onCtx_same]
  refine ⟨?rest, ?ctx, ?window, ?unknown, ?store, ?sorted, ?pixels⟩
  case rest =>
    rw [hlane, h.rest]
    rfl
  case ctx => rw [hctx, h.ctx]
  case window =>
    have hfilter := List.length_filter_le (fun e => !e.sameTag (mbinLeft x s k)) (t.ctx slot).cutTags
    have hbefore := h.window
    simp only [hctx, List.length_append, List.length_singleton]
    omega
  case unknown =>
    intro m hm hmem hmiss
    rw [List.mem_append, List.mem_singleton, not_or] at hmem
    rw [hctx]
    exact tagHit_put_other (h.unknown m hm hmem.1 hmiss) (mbinLeft_other x s hk hm (Ne.symm hmem.2))
  case store =>
    have hadded := addBin_length_le (mbinPixel x s v k) (t.ctx slot).bins
    have hbefore := h.store
    simp only [hctx, List.length_append, List.length_singleton]
    omega
  case sorted =>
    rw [hctx]
    exact addBin_sorted _ h.sorted
  case pixels =>
    intro f m tt p
    simp only [hctx, inBin_addBin _ h.sorted, h.pixels, or_assoc, List.mem_append, List.mem_singleton, or_and_right, exists_or, exists_eq_left]

/-- All lanes, one after the other. -/
theorem Binned.lanes (r : Raster) (hslot : slot = (s.warpLaunch (s.warp x.u)).slot)
    (hnew : ∀ k ∈ x.act, tagHit (t0.ctx slot).cutTags (mbinEntry x s k) = none) (hlt : ∀ k ∈ x.act, k < 64) (hnodup : x.act.Nodup)
    (hwindow : (t0.ctx slot).cutTags.length + x.act.length ≤ 32) (hstore : (t0.ctx slot).bins.length + x.act.length ≤ 65536)
    (todo done : List Nat) (t : State) (hact : done ++ todo = x.act) (h : Binned x s v slot done t0 t) :
    Binned x s v slot x.act t0 (each todo t (mbinLane x s v r)) := by
  induction todo generalizing done t with
  | nil =>
    rw [← hact, List.append_nil]
    exact h
  | cons k todo ih =>
    have hk : k ∈ x.act := by rw [← hact]; simp
    have hdone : k ∉ done := fun hin => List.disjoint_of_nodup_append (hact ▸ hnodup) hin List.mem_cons_self
    have hlen : done.length < x.act.length := by rw [← hact]; simp
    rw [each_cons]
    exact ih (done ++ [k]) _ (by simpa using hact)
      (h.snoc r hslot (hlt k hk) hdone (hnew k hk) (by omega) (by omega))

end Lanes

/-! ## MBIN as it is issued -/

section Issued
variable {i : Instr} {s : State} {b : Bundle} {act : List Nat} (h : Goes i s b act)
include h

theorem Goes.past_mbinStage : mbinStage (actOf i b act) (s.past b) = mbinStage (actOf i b act) s := by
  have hlaunch : (s.past b).warpLaunch ((s.past b).warp (actOf i b act).u) = s.warpLaunch (s.warp (actOf i b act).u) := h.past_warpLaunch
  have hread : ∀ k, (actOf i b act).read ((s.past b).warp (actOf i b act).u) k = (actOf i b act).read (s.warp (actOf i b act).u) k :=
    h.past_read _
  rw [mbinStage, hlaunch, hread]
  rfl

theorem Goes.past_mbinEntry (k : Nat) :
    mbinEntry (actOf i b act) (s.past b) k = s.tagEntry (s.warp b.warp) (Rule.tag s (s.warp b.warp) k) i 0 0 := by
  show (s.past b).tagEntry ((s.past b).warp b.warp) ((s.past b).tag ((s.past b).warp b.warp) k (((s.past b).warp b.warp).seq k)) i 0 0 = _
  rw [h.past_tag, h.past_tagEntry]

/-- The sequence numbers are taken from the bundle's warp, whose registers stay. -/
theorem Goes.takeSeqs_past : ((takeSeqs b.warp act (s.past b)).warp b.warp).vregs = (s.warp b.warp).vregs ∧
    ((takeSeqs b.warp act (s.past b)).warp b.warp).uregs = (s.warp b.warp).uregs ∧
    ∀ u, u ≠ b.warp → (takeSeqs b.warp act (s.past b)).warp u = s.warp u := by
  have hself := takeSeqs_warp b.warp b.warp act (s.past b)
  rw [if_pos ⟨rfl, (State.hasWarp_advance s _ _ _ _).trans h.warp⟩, h.past_warp] at hself
  refine ⟨by rw [hself]; simp, by rw [hself]; simp, fun u hu => ?_⟩
  rw [takeSeqs_warp, if_neg fun hu' => hu hu'.1.symm]
  exact (s.advance_only b.warp _ _).others u hu

end Issued

/-- MBIN whose pixels are all in range performs its lanes on the bins of its context, from the state with their sequence numbers taken. -/
theorem mbin_performs {h : Hdr} {f : Ops} {s : State} {b : Bundle} {act : List Nat} (hg : Goes (.mbin h f) s b act) {v : Wave} {r : Raster}
    (hstage : mbinStage (actOf (.mbin h f) b act) s = some (v, r))
    (hin : ∀ k ∈ act, mbinOutside ((actOf (.mbin h f) b act).read (s.warp b.warp) k) = false) :
    let c := s.ctx (s.warpLaunch (s.warp b.warp)).slot
    (∀ k ∈ act, tagHit c.cutTags (s.tagEntry (s.warp b.warp) (Rule.tag s (s.warp b.warp) k) (.mbin h f) 0 0) = none) →
    c.cutTags.length + act.length ≤ 32 → c.bins.length + act.length ≤ 65536 → c.bins.Pairwise (fun p q => p.before q = true) →
    (∀ e, (s.edge (s.warpLaunch (s.warp b.warp)).slot e).pending = []) →
    ∃ t, exec (.mbin h f) s = .next t ∧ Binned (actOf (.mbin h f) b act) (s.past b) v (s.warpLaunch (s.warp b.warp)).slot act
      (takeSeqs b.warp act (s.past b)) t := by
  intro c hnew hwindow hstore hsorted hpending
  let x := actOf (.mbin h f) b act
  have hlaunch : (s.past b).warpLaunch ((s.past b).warp x.u) = s.warpLaunch (s.warp b.warp) := hg.past_warpLaunch
  have hread : ∀ k, x.read ((s.past b).warp x.u) k = x.read (s.warp b.warp) k := hg.past_read x
  have hctx : (takeSeqs b.warp act (s.past b)).ctx (s.warpLaunch (s.warp b.warp)).slot = c := takeSeqs_ctx _ _ _ _
  have hnone : x.act.find? (fun k => mbinOutside (x.read ((s.past b).warp x.u) k)) = none := by
    rw [List.find?_eq_none]
    intro k hk
    rw [hread, hin k hk]
    exact Bool.false_ne_true
  have hbinned := Binned.lanes (x := x) (s := s.past b) (v := v) (t0 := takeSeqs b.warp act (s.past b)) r (congrArg Launch.slot hlaunch.symm)
    (fun k hk => by rw [hctx, hg.past_mbinEntry]; exact hnew k hk) (fun k hk => (hg.act_lt k hk).1) hg.act_nodup
    (by rw [hctx]; exact hwindow) (by rw [hctx]; exact hstore) x.act [] _ rfl (Binned.start _ _ _ (by rw [hctx]; exact hsorted))
  refine ⟨_, ?_, hbinned⟩
  have hdrained := drainSlot_of_none_pending fun e => by
    rw [State.edge, State.graph, hbinned.ctx]
    dsimp only
    rw [hctx]
    exact hpending e
  have hissue := mbinIssue_of_inside (hg.past_mbinStage.trans hstage) hnone
  rw [hlaunch] at hissue
  exact (issue_goes hg mbinIssue).trans (congrArg Host.Outcome.next (hissue.trans hdrained))

theorem pixelsAreBinned : Rule.PixelsAreBinned := by
  intro h f s b act hg x w l tile tiles inside s1 drawing
  have hexec : exec (.mbin h f) s = .next (mbinIssue x (s.past b)) := issue_goes hg mbinIssue
  have hread : ∀ k, x.read ((s.past b).warp x.u) k = x.read w k := hg.past_read x
  have hstage : ∀ v r, mbinStage x s = some (v, r) ↔ Rule.Drawing s l Raster.bin v r ∧ tile < tiles r := mbinStage_eq_some x s
  have hinside : ∀ k, mbinOutside (x.read w k) = false ↔ inside k := fun k => by simp [mbinOutside, inside]
  refine ⟨fun hnot => ?_, fun ⟨v, r, hdraw⟩ k hk hout hlow => ?_, fun v r hdraw htile hin hnew hwindow hstore hsorted hpending => ?_⟩
  · have hnone : mbinStage x s = none := by
      rw [Option.eq_none_iff_forall_ne_some]
      exact fun ⟨v, r⟩ hvr => hnot ⟨v, r, (hstage v r).mp hvr⟩
    rw [hexec, mbinIssue_of_no_stage (hg.past_mbinStage.trans hnone)]
  · rw [hexec, mbinIssue_of_outside (hg.past_mbinStage.trans ((hstage v r).mpr hdraw))]
    refine find?_of_lowest hg.act_sorted hk ?_ fun m hm hmk => by rw [hread]; exact (hinside m).mpr (hlow m hm hmk)
    rw [hread, ← Bool.not_eq_false]
    exact mt (hinside k).mp hout
  · obtain ⟨t, ht, hrest, -, -, -, -, hsorted', hpixels⟩ := mbin_performs hg ((hstage v r).mpr ⟨hdraw, htile⟩)
      (fun k hk => (hinside k).mpr (hin k hk)) hnew hwindow hstore hsorted hpending
    have hwarp : ∀ u, t.warp u = (takeSeqs b.warp act (s.past b)).warp u := fun u => by rw [hrest]; rfl
    obtain ⟨hvregs, huregs, hothers⟩ := hg.takeSeqs_past
    refine ⟨t, ht, by rw [hrest]; exact takeSeqs_mem _ _ _, by rw [hrest]; exact takeSeqs_tris _ _ _,
      fun u hu => (hwarp u).trans (hothers u hu), by rw [hwarp]; exact hvregs, by rw [hwarp]; exact huregs, hsorted', fun g m tt p => ?_⟩
    have hset : ∀ k ∈ act, ((mbinPixel x (s.past b) v k).isOf g m tt ∧ (mbinPixel x (s.past b) v k).mask.getLsbD p = true) ↔
        (g = v.frame ∧ tt = tile) ∧ m = (x.read w k).a ∧ p = (x.read w k).b := fun k hk => by
      rw [mbinPixel_set (by rw [hread]; exact (hin k hk).2), hread, hread]
    rw [hpixels, takeSeqs_ctx]
    refine or_congr Iff.rfl ⟨fun ⟨k, hk, hkset⟩ => ?_, fun ⟨hframe, htt, k, hk, hm, hp⟩ => ⟨k, hk, (hset k hk).mpr ⟨⟨hframe, htt⟩, hm, hp⟩⟩⟩
    obtain ⟨⟨hframe, htt⟩, hm, hp⟩ := (hset k hk).mp hkset
    exact ⟨hframe, htt, k, hk, hm, hp⟩

/-- Settles O37: MBIN performs its lanes one after the other, each under a tag of its own, on bins that stay in order; ATTR reads three words a
lane and writes what R210 gives. -/
theorem pixelsAndAttributes : Obligations.PixelsAndAttributes := ⟨pixelsAreBinned, attributesInterpolated⟩

end Sys2Proof.Machine
end

section
/-! SUPPORT. A state in which EMIT is not recorded where the statement says that it is. -/

open Sys2Proof Sys2Proof.Machine

namespace Sys2Proof.Machine

/-! ## An edge whose records have no payload (R204, R318) -/

/-- The bundle of the one thread of `noPayload`. -/
def noPayloadBundle : Bundle := { warp := 1, lanes := 1, pc := 0 }

/-- EMIT on edge 0, its payload at scratchpad address 64. -/
def noPayloadEmit : Instr := .emit (Rule.hdr 7) { d := Rule.zr, a := Rule.imm 0, b := Rule.imm 64, c := Rule.imm 0 }

/-- A wave of stage 0, of one thread with a scratchpad of 64 bytes, whose stage has one output: an edge of records of 16 bytes, a header alone. -/
def noPayload : State :=
  { State.reset with
    cur := some noPayloadBundle
    warps := [{ uid := 1, gang := 0, rank := 0, num := 0, part := 0, slot := 0, width := 1, nv := 8, nu := 8, threads := [{}] }]
    gangs := [{ uid := 0, launch := 0, num := 0, cluster := 0, blocks := [{ rank := 0, core := 0, prio := 0, cv := [] }],
                retained := { rpc := 0, contain := false } }]
    launches := [{ uid := 0, id := 0, slot := 0, queue := none, asid := 0, record := { scratch := 64 }, len := 12, roles := [],
                   wave := some { stage := 0, frame := 1, edge := none, pred := false, last := false } }]
    ctxs := [(0, { valid := true, graph := some { edges := [{ valid := true, source := 0, target := 1, recsz := 1 }] } })] }

theorem noPayload_goes : Goes noPayloadEmit noPayload noPayloadBundle [0] where
  cur := rfl
  warp := by decide
  lanes := by decide
  quiet := by decide
  same := by decide
  passes := by decide +kernel

/-- The edge is an output of the wave's stage. -/
theorem noPayload_isOutput : ∃ v, (noPayload.warpLaunch (noPayload.warp 1)).wave = some v ∧
    Rule.isOutput noPayload (noPayload.warpLaunch (noPayload.warp 1)).slot v 0 := by
  have hraster : (noPayload.ctx (noPayload.warpLaunch (noPayload.warp 1)).slot).raster = none := by decide +kernel
  refine ⟨{ stage := 0, frame := 1, edge := none, pred := false, last := false }, by decide +kernel, by decide +kernel, ?_, by decide +kernel⟩
  intro r hr
  exact absurd (hraster.symm.trans hr) (by simp)

/-- The payload has no bytes, and the scratchpad's end is where an empty range may still stand. -/
theorem noPayload_target : (noPayload.edge 0 0).size - 16 = 0 ∧ (scrTarget noPayload (noPayload.warp 1) 64 0).isSome = true := by
  decide +kernel

/-- The EMIT raises BOUNDS, since no byte stands at its address, and enters no operation in the record. -/
theorem noPayload_traps : ∃ t, exec noPayloadEmit noPayload = .next t ∧ (t.reports.map fun r => r.trap.cause) = [causeBounds] ∧
    (t.warp 1).ops = [] :=
  ⟨_, issue_goes noPayload_goes emitIssue, by decide +kernel, by decide +kernel⟩

/-- Refutes O33 in its part EmitRecorded. Where an edge's records are of 16 bytes or fewer, which the statement allows (R318 lets no graph
with such an edge be registered), the payload's empty range stands in the scratchpad even at its very end; EMIT raises BOUNDS there, as the
byte at its address must exist, and does not stand in the record. -/
theorem not_recordsOfEdges : ¬ Obligations.RecordsOfEdges := by
  rintro ⟨hEmit, -, -⟩
  obtain ⟨-, hRecorded⟩ := hEmit _ _ _ _ _ noPayload_goes
  have hlane : ∀ k ∈ [0], (scrTarget noPayload (noPayload.warp 1) 64 ((noPayload.edge 0 0).size - 16)).isSome = true ∧ 64 % 16 = 0 := by
    rw [noPayload_target.1]
    exact fun k _ => ⟨noPayload_target.2, rfl⟩
  obtain ⟨t, ht, -, -, -, hops, -⟩ := hRecorded noPayload_isOutput hlane
  obtain ⟨t', ht', -, hnone⟩ := noPayload_traps
  obtain rfl : t = t' := Host.Outcome.next.inj (ht.symm.trans ht')
  exact absurd (hnone.symm.trans hops) (by simp)

end Sys2Proof.Machine
end

section
/-! SUPPORT. A state in which TRISUB raises ALIGNMENT where the statement says BOUNDS. -/

open Sys2Proof Sys2Proof.Machine

namespace Sys2Proof.Machine

/-! ## A misaligned triangle that runs past the scratchpad's end (R143, R347) -/

/-- The spec's example word of TRISUB: its triangle at the address in v2. -/
def pastEndTrisub : Instr := .trisub (Rule.hdr 7) { d := Rule.zr, a := Rule.vec 2, b := Rule.vec 3, c := Rule.imm 1 }

/-- The skim edge and the bin edge of stage 0, with records of the sizes that R344 asks for. -/
def pastEndGraph : Graph :=
  { stages := [{ valid := true }, { valid := true }]
    edges := [{ valid := true, source := 0, target := 1, cap := 16, recsz := 5 }, { valid := true, source := 0, target := 1, cap := 16, recsz := 10 }] }

/-- A target of 4 × 4 pixels on those edges. -/
def pastEndRaster : Raster := { vis := 0x4000, width := 4, height := 4, skim := 0, bin := 1 }

/-- The one thread of `noPayload`, with its scratchpad of 64 bytes, in a wave of the skim edge's stage; its v2 names scratchpad address 56. -/
def pastEnd : State :=
  { noPayload with
    warps := noPayload.warps.map fun w => w.setVreg 2 0 { val := 56 }
    ctxs := [(0, { valid := true, raster := some pastEndRaster, graph := some pastEndGraph })] }

theorem pastEnd_goes : Goes pastEndTrisub pastEnd noPayloadBundle [0] where
  cur := rfl
  warp := by decide
  lanes := by decide
  quiet := by decide
  same := by decide
  passes := by decide +kernel

/-- The wave's stage is the one that the skim edge comes from. -/
theorem pastEnd_drawing : ∃ v r, Rule.Drawing pastEnd (pastEnd.warpLaunch (pastEnd.warp 1)) Raster.skim v r :=
  ⟨{ stage := 0, frame := 1, edge := none, pred := false, last := false }, pastEndRaster, by decide +kernel, rfl, by decide +kernel, by decide +kernel, by decide +kernel⟩

/-- The triangle's 48 bytes do not all stand in the scratchpad. -/
theorem pastEnd_outside :
    scrTarget pastEnd (pastEnd.warp 1) ((actAt pastEndTrisub noPayloadBundle [0]).read (pastEnd.warp 1) 0).a 48 = none := by
  decide +kernel

/-- The TRISUB raises ALIGNMENT: its address stands in the scratchpad, as check 2 of R143 asks, and is no multiple of 16. -/
theorem pastEnd_trapsAlignment : ∃ t, exec pastEndTrisub pastEnd = .next t ∧ (t.reports.map fun r => r.trap.cause) = [causeAlignment] :=
  ⟨_, issue_goes pastEnd_goes trisubIssue, by decide +kernel⟩

/-- The trap that the statement names instead reports BOUNDS. -/
theorem pastEnd_claimed : ((((actAt pastEndTrisub noPayloadBundle [0]).trap 0 { cause := 0x09, addr := .ofNat 64 56 }
    (pastEnd.advance 1 (lanesOf noPayloadBundle.lanes) noPayloadBundle.pc)).reports.map fun r => r.trap.cause)) = [causeBounds] := by
  decide +kernel

/-- Refutes O36 in its part TrianglesAreAccepted. A triangle whose address stands in the scratchpad but whose 48 bytes run past its end raises
BOUNDS by the statement, whatever its alignment; the part checks in the order of R143, so where the address is no multiple of 16 either, TRISUB
raises ALIGNMENT. -/
theorem not_trianglesAreDrawn : ¬ Obligations.TrianglesAreDrawn := by
  rintro ⟨-, -, hAccepted, -⟩
  obtain ⟨-, hBounds, -⟩ := hAccepted _ _ _ _ _ pastEnd_goes
  have hout : ¬(scrTarget pastEnd (pastEnd.warp 1) ((actAt pastEndTrisub noPayloadBundle [0]).read (pastEnd.warp 1) 0).a 48).isSome = true := by
    rw [pastEnd_outside]
    exact Bool.false_ne_true
  have hclaimed := hBounds pastEnd_drawing 0 List.mem_cons_self hout fun m _ hm => absurd hm m.not_lt_zero
  obtain ⟨t, ht, hcause⟩ := pastEnd_trapsAlignment
  obtain rfl := Host.Outcome.next.inj (ht.symm.trans hclaimed)
  exact absurd (hcause.symm.trans pastEnd_claimed) (by decide)

end Sys2Proof.Machine
end
